-- ==== Sys2Proof/Word.lean ====
section
/-! DEFINITION. The word types of the machine: a 32-bit lane word, a byte, a 64-bit
control-thread word, a 96-bit micro-thread instruction (R95, R96, R118). -/

namespace Sys2Proof

/-- A lane word, a scalar register or an element of at most 32 bits (R95). -/
abbrev Word := BitVec 32
/-- A byte of memory (R2: little-endian everywhere). -/
abbrev Byte := BitVec 8
/-- A control-thread register or an address held in 64 bits (R33). -/
abbrev DWord := BitVec 64
/-- A micro-thread instruction word (R118). -/
abbrev IWord := BitVec 96

end Sys2Proof
end

