-- ==== Sys2Proof/Syntax.lean ====
section
/-! DEFINITION. The instructions: element types, operands and fields of a micro-thread word
(R118 to R129), the control thread's RISC-V instructions (R33), and `Instr`, one constructor
for every row of the opcode table. -/

namespace Sys2Proof

/-- Element types, in the order of their TY codes 0 to 14 (R120). -/
inductive Ty
  | b32 | s32 | z32 | s16 | z16 | s8 | z8 | s4 | z4 | f32 | bf16 | e4m3 | e5m2 | e2m1 | l6
  deriving DecidableEq, Repr, Inhabited

/-- An operand field by its kind (R125). The qualifier of R122 stands in `low`. -/
inductive Operand
  | vreg (r : BitVec 6) (sel swz : BitVec 3) (neg abs : Bool) (low : BitVec 5)
  | sreg (r : BitVec 5) (low : BitVec 5)
  | handle (h : BitVec 4) (wait : BitVec 6) (off : BitVec 9)
  | imm (v : BitVec 19)
  | nwin (peer : BitVec 2) (off : BitVec 11)
  | role (r : BitVec 8) (off : BitVec 11)
  | stream (q : BitVec 3)
  | special (sel : BitVec 6)
  deriving DecidableEq, Repr, Inhabited

/-- The all-zero field, which is what an unused field holds (R125). -/
def Operand.zero : Operand := .vreg 0 0 0 false false 0

/-- The guard: predicate register, 15 meaning all ones, and NEG (R123). -/
structure Guard where
  neg : Bool
  reg : BitVec 4
  deriving DecidableEq, Repr, Inhabited

/-- The issue hints (R124). -/
structure Hint where
  yld : Bool
  stl : BitVec 3
  keep : Bool
  deriving DecidableEq, Repr, Inhabited

/-- The fields of a micro-thread instruction word beside its opcode (R118). -/
structure Ny where
  ty : Ty
  md : BitVec 6
  guard : Guard
  hint : Hint
  a : Operand
  b : Operand
  c : Operand
  deriving DecidableEq, Repr, Inhabited

/-! ### The control thread's RISC-V instructions (R33: RV64IMAC Zicsr Zifencei Zba Zbb) -/

inductive RvBr | eq | ne | lt | ge | ltu | geu
  deriving DecidableEq, Repr
inductive RvLd | b | h | w | d | bu | hu | wu
  deriving DecidableEq, Repr
inductive RvSt | b | h | w | d
  deriving DecidableEq, Repr
/-- Register with a 12-bit immediate. -/
inductive RvImm | addi | slti | sltiu | xori | ori | andi | addiw
  deriving DecidableEq, Repr
/-- Register with a shift amount; the W forms and slli.uw of Zba, rori and roriw of Zbb. -/
inductive RvSh | slli | srli | srai | rori | slliuw | slliw | srliw | sraiw | roriw
  deriving DecidableEq, Repr
/-- One-register operations of Zbb. -/
inductive RvUn
  | clz | ctz | cpop | clzw | ctzw | cpopw | sextb | sexth | zexth | orcb | rev8
  deriving DecidableEq, Repr
/-- Two-register operations of I, M, Zba and Zbb. -/
inductive RvAlu
  | add | sub | sll | slt | sltu | xor | srl | sra | or | and
  | addw | subw | sllw | srlw | sraw
  | mul | mulh | mulhsu | mulhu | div | divu | rem | remu
  | mulw | divw | divuw | remw | remuw
  | sh1add | sh2add | sh3add | adduw | sh1adduw | sh2adduw | sh3adduw
  | andn | orn | xnor | max | maxu | min | minu | rol | ror | rolw | rorw
  deriving DecidableEq, Repr
inductive RvAmo | swap | add | xor | and | or | min | max | minu | maxu
  deriving DecidableEq, Repr
inductive RvCsr | rw | rs | rc
  deriving DecidableEq, Repr

inductive Rv
  | lui (rd : BitVec 5) (imm : BitVec 20)
  | auipc (rd : BitVec 5) (imm : BitVec 20)
  | jal (rd : BitVec 5) (off : BitVec 21)
  | jalr (rd rs1 : BitVec 5) (imm : BitVec 12)
  | branch (c : RvBr) (rs1 rs2 : BitVec 5) (off : BitVec 13)
  | load (k : RvLd) (rd rs1 : BitVec 5) (imm : BitVec 12)
  | store (k : RvSt) (rs1 rs2 : BitVec 5) (imm : BitVec 12)
  | opImm (k : RvImm) (rd rs1 : BitVec 5) (imm : BitVec 12)
  | shImm (k : RvSh) (rd rs1 : BitVec 5) (sh : BitVec 6)
  | unary (k : RvUn) (rd rs1 : BitVec 5)
  | alu (k : RvAlu) (rd rs1 rs2 : BitVec 5)
  | lr (dbl : Bool) (rd rs1 : BitVec 5)
  | sc (dbl : Bool) (rd rs1 rs2 : BitVec 5)
  | amo (k : RvAmo) (dbl : Bool) (rd rs1 rs2 : BitVec 5)
  | csr (k : RvCsr) (useImm : Bool) (rd rs1 : BitVec 5) (num : BitVec 12)
  | fence | fenceI | ecall | ebreak | mret | sret | wfi
  | sfenceVma (rs1 rs2 : BitVec 5)
  deriving DecidableEq, Repr

/-- A word of the control thread's stream outside the extension: a 32-bit instruction, a
compressed one with the operation it stands for, or a word that names no instruction. -/
inductive RvInstr
  | full (op : Rv) (aqrl : BitVec 2)
  | comp (h : BitVec 16) (op : Rv)
  | reserved (w : Word)
  | reserved16 (h : BitVec 16)
  deriving DecidableEq, Repr

/-! ### What the steps that carry no word name -/

/-- A register written by REGISTER_WRITE: a control-thread CSR of a core, or a device
register by its physical address (R8). -/
inductive RegRef
  | csr (core : Nat) (num : BitVec 12)
  | device (pa : Nat)
  deriving DecidableEq, Repr

/-- Where an uncorrectable error falls (R385). -/
inductive ErrorSite
  | dramLine (key : Nat)
  | granLine (die off : Nat)
  | scratchWord (core off : Nat)
  | laneWord (core lane off : Nat)
  | mailboxLine (core line : Nat)
  | bankWord (core bank entry : Nat)
  | schedulerSram (die : Nat)
  deriving DecidableEq, Repr

/-- A spare bound by the firmware (R387). -/
inductive Spare
  | tile (die tile : Nat)
  | l2Way (die slice : Nat)
  | channel (die chan : Nat)
  | row (die chan bank : Nat)
  deriving DecidableEq, Repr

/-- What the power controller measures at a budget tick (R321, R330): the demand of each core
in sixteenths over the last period, and the sensors of tiles and channels in quarter degrees.
A core with no entry has demand 0, a sensor with no entry reads as before. -/
structure TickInput where
  demand : List (Nat × Nat)
  tileTemp : List (Nat × Int)
  chanTemp : List (Nat × Int)
  deriving DecidableEq, Repr

/-- An access of a host application core (R316). -/
inductive HostOp
  | load (bytes : Nat)
  | store (data : List Byte)
  | amoAdd (v : Word)
  deriving DecidableEq, Repr

/-- The instructions and steps of the part, in the order of the opcode table. -/
inductive Instr
  | nop (f : Ny)
  | mov (f : Ny)
  | sel (f : Ny)
  | iadd (f : Ny)
  | isub (f : Ny)
  | imul (f : Ny)
  | imulh (f : Ny)
  | imad (f : Ny)
  | imin (f : Ny)
  | imax (f : Ny)
  | iabs (f : Ny)
  | ineg (f : Ny)
  | iadds (f : Ny)
  | isubs (f : Ny)
  | shl (f : Ny)
  | shr (f : Ny)
  | sar (f : Ny)
  | rot (f : Ny)
  | and (f : Ny)
  | or (f : Ny)
  | xor (f : Ny)
  | andn (f : Ny)
  | not (f : Ny)
  | clz (f : Ny)
  | ffs (f : Ny)
  | popc (f : Ny)
  | brev (f : Ny)
  | bfx (f : Ny)
  | bfi (f : Ny)
  | icmp (f : Ny)
  | pand (f : Ny)
  | por (f : Ny)
  | pxor (f : Ny)
  | pnot (f : Ny)
  | lea (f : Ny)
  | fadd (f : Ny)
  | fsub (f : Ny)
  | fmul (f : Ny)
  | ffma (f : Ny)
  | fmin (f : Ny)
  | fmax (f : Ny)
  | fcmp (f : Ny)
  | fclass (f : Ny)
  | frnd (f : Ny)
  | cvt (f : Ny)
  | qnt (f : Ny)
  | dqnt (f : Ny)
  | sclf (f : Ny)
  | fdot (f : Ny)
  | rcp (f : Ny)
  | rsq (f : Ny)
  | sqrt (f : Ny)
  | exp2 (f : Ny)
  | log2 (f : Ny)
  | sin (f : Ny)
  | cos (f : Ny)
  | tanh (f : Ny)
  | sigm (f : Ny)
  | l6add (f : Ny)
  | l6mul (f : Ny)
  | shuf (f : Ny)
  | bcast (f : Ny)
  | red (f : Ny)
  | scan (f : Ny)
  | vote (f : Ny)
  | cmprs (f : Ny)
  | xpnd (f : Ny)
  | bra (f : Ny)
  | brx (f : Ny)
  | bfetch (f : Ny)
  | loop (f : Ny)
  | rep (f : Ny)
  | stop (f : Ny)
  | yield (f : Ny)
  | lnkw (f : Ny)
  | lnkr (f : Ny)
  | ctsig (f : Ny)
  | ctwait (f : Ny)
  | trap (f : Ny)
  | brkp (f : Ny)
  | gang (f : Ny)
  | ungang (f : Ny)
  | sleep (f : Ny)
  | twait (f : Ny)
  | time (f : Ny)
  | ld (f : Ny)
  | st (f : Ny)
  | ldx (f : Ny)
  | stx (f : Ny)
  | pref (f : Ny)
  | hbind (f : Ny)
  | advp (f : Ny)
  | advc (f : Ny)
  | qbind (f : Ny)
  | qdrop (f : Ny)
  | ldf (f : Ny)
  | fbclr (f : Ny)
  | stsb (f : Ny)
  | wback (f : Ny)
  | inval (f : Ny)
  | atom (f : Ny)
  | cas (f : Ny)
  | atred (f : Ny)
  | fence (f : Ny)
  | acq (f : Ny)
  | rel (f : Ny)
  | bar (f : Ny)
  | bara (f : Ny)
  | barw (f : Ny)
  | cwait (f : Ny)
  | cadd (f : Ny)
  | inbx (f : Ny)
  | inbp (f : Ny)
  | ticket (f : Ny)
  | roleq (f : Ny)
  | mma (f : Ny)
  | mmas (f : Ny)
  | mzero (f : Ny)
  | mfill (f : Ny)
  | mdrain (f : Ny)
  | chbeg (f : Ny)
  | chend (f : Ny)
  | spfence (f : Ny)
  | cpy (f : Ny)
  | cpyg (f : Ny)
  | ncfg (f : Ny)
  | nint (f : Ny)
  | nleak (f : Ny)
  | nfire (f : Ny)
  | evsend (f : Ny)
  | evrecv (f : Ny)
  | rsort (f : Ny)
  | rsend (f : Ny)
  | rrecv (f : Ny)
  | racc (f : Ny)
  | rmarg (f : Ny)
  | rgrad (f : Ny)
  | rwtab (f : Ny)
  | csrr (f : Ny)
  | csrw (f : Ny)
  | tqcfg (f : Ny)
  -- the control-thread extension (R140)
  /-- R36 -/
  | sow (rd rs1 rs2 : BitVec 5)
  /-- R36 -/
  | soww (rd rs1 rs2 : BitVec 5)
  /-- R255 -/
  | mtstat (rd rs1 : BitVec 5)
  /-- R40 -/
  | mtstop (rs1 : BitVec 5)
  /-- R57 -/
  | mtrel (rs1 : BitVec 5)
  /-- R256 -/
  | cmdq (rd rs1 : BitVec 5)
  /-- R256 -/
  | cmdqnb (rd rs1 : BitVec 5)
  /-- R257 -/
  | ctinbx (rd rs1 : BitVec 5)
  /-- R258 -/
  | ctcwait (rd rs1 rs2 : BitVec 5)
  /-- R254 -/
  | cttick (rd rs1 : BitVec 5)
  /-- R259 -/
  | actfire (rs1 rs2 : BitVec 5)
  /-- R51 -/
  | bindld (rs1 : BitVec 5)
  /-- R260 -/
  | incarn (rd rs1 : BitVec 5)
  /-- R260 -/
  | reclaim (rd rs1 : BitVec 5)
  -- the other steps of the part
  /-- R38 -/
  | waitingInstructionCompletes (core mt : Nat)
  /-- R254 -/
  | ctStallCompletes (core : Nat)
  /-- R38 -/
  | microthreadIdle (core mt : Nat)
  /-- R45 -/
  | firingStart (core : Nat)
  /-- R44 -/
  | footprintFill (core actor : Nat)
  /-- R47 -/
  | stageRebalance (core : Nat)
  /-- R350 -/
  | trapInterruptTaken (core : Nat)
  /-- R351 -/
  | mtresume (core : Nat) (mask : DWord)
  /-- R76 -/
  | ctxidCtxWrite (core : Nat) (value : DWord)
  /-- R110 -/
  | nbvWrite (core : Nat) (value : DWord)
  /-- R8 -/
  | registerWrite (r : RegRef) (value : DWord)
  /-- R237 -/
  | matrixInstructionApplied (core : Nat) (flt : List (Nat × Word))
  /-- R240 -/
  | mdrainCompletion (core : Nat)
  /-- R326 -/
  | limiterStep (quad : Nat)
  /-- R88 -/
  | copyElementComplete (core op : Nat)
  /-- R86 -/
  | copyCompletion (core op : Nat)
  /-- R262 -/
  | eventUnitAction (core : Nat)
  /-- R283 -/
  | rgradCompletion (core : Nat)
  /-- R270 -/
  | tqArrival (core : Nat)
  /-- R276 -/
  | rankMessageArrival (core : Nat)
  /-- R250 -/
  | reducePartialArrival (n : Nat)
  /-- R223 -/
  | barrierArrival (n : Nat)
  /-- R334 -/
  | barrierRelease (n : Nat)
  /-- R325 -/
  | sleepDeadline (core mt : Nat)
  /-- R202 -/
  | twaitDeadline (core mt : Nat)
  /-- R307 -/
  | fabricMessageArrival (n : Nat) (badCheck : Bool)
  /-- R307 -/
  | ackArrival (n : Nat)
  /-- R308 -/
  | retry (n : Nat)
  /-- R308 -/
  | retryResend (flow : Nat)
  /-- R308 -/
  | reject (n : Nat)
  /-- R307 -/
  | resendTimeout (flow : Nat)
  /-- R393 -/
  | escapeTimeout (n : Nat)
  /-- R379 -/
  | pairedMessageArrival (n : Nat)
  /-- R380 -/
  | twinTimeout (n : Nat)
  /-- R315 -/
  | linkFlitCrcFail (port : Nat)
  /-- R355 -/
  | trapRecordArrival (n : Nat)
  /-- R355 -/
  | trrheadWrite (ring : Nat) (value : Word)
  /-- R311 -/
  | lqdb (die : Nat) (value : Word)
  /-- R287 -/
  | launchQueueEntryRead (die : Nat)
  /-- R286 -/
  | childLaunchAdmit (die : Nat)
  /-- R291 -/
  | nodeNotification (n : Nat)
  /-- R292 -/
  | readyPriorityAging (node : Nat)
  /-- R293 -/
  | distributorPlace (die : Nat)
  /-- R294 -/
  | launchCoreStart (core : Nat)
  /-- R300 -/
  | endOfPart (core : Nat)
  /-- R301 -/
  | nodeComplete (node : Nat)
  /-- R302 -/
  | terminationSweep (node : Nat)
  /-- R357 -/
  | migreqGo (die : Nat) (value : DWord)
  /-- R358 -/
  | migrationStream (die : Nat)
  /-- R358 -/
  | migrationSwitch (die : Nat)
  /-- R383 -/
  | paddockDefine (die pdk : Nat) (value : DWord)
  /-- R384 -/
  | paddockKill (die pdk : Nat)
  /-- R384 -/
  | killedLaunchDrained (node : Nat)
  /-- R384 -/
  | paddockUnfence (die pdk : Nat)
  /-- R385 -/
  | uncorrectableError (at_ : ErrorSite)
  /-- R388 -/
  | correctedError (die quad array : Nat)
  /-- R388 -/
  | undervoltStepUp (die quad : Nat)
  /-- R387 -/
  | spareBind (r : Spare)
  /-- R382 -/
  | lockstepMismatch (die : Nat)
  /-- R382 -/
  | cpResume (die : Nat)
  /-- R386 -/
  | incarnationSweep (ctx value : Nat)
  /-- R321 -/
  | budgetTick (env : TickInput)
  /-- R324 -/
  | hopEnd (tile : Nat)
  /-- R331 -/
  | dramRefresh (chan : Nat)
  /-- R340 -/
  | dramRefreshEnd (chan : Nat)
  /-- R329 -/
  | coreGate (core : Nat)
  /-- R329 -/
  | wakeRequest (core : Nat)
  /-- R329 -/
  | wakeComplete (core : Nat)
  /-- R400 -/
  | droopDetect (tile : Nat) (handshake : Bool)
  /-- R400 -/
  | droopEnd (tile : Nat)
  /-- R319 -/
  | packageReset
  /-- R320 -/
  | attestationRequest (nonce : List Byte)
  /-- R33 -/
  | controlThreadRiscvInstruction (r : RvInstr)
  /-- R119 -/
  | unassignedOpcode (w : IWord)
  /-- R328 -/
  | rampDownEnd (core : Nat)
  /-- R401 -/
  | gatingEntryEnd (core : Nat)
  /-- R355 -/
  | trrbaseWrite (ring : Nat) (value : DWord)
  /-- R317 -/
  | inboundDma (va : Nat) (root : Nat) (data : Option (List Byte))
  /-- R316 -/
  | applicationCoreAccess (pa : Nat) (op : HostOp)
  /-- R388 -/
  | uvctlLockClear (die quad : Nat)
  deriving DecidableEq, Repr, Inhabited

/-- Whose step is next: a control thread, a micro-thread, or a step that carries no word. -/
inductive Turn
  | ct (core : Nat)
  | mt (core mt : Nat)
  | event (i : Instr)
  deriving DecidableEq, Repr, Inhabited

end Sys2Proof
end

