-- ==== Sys2Proof/Config.lean ====
section
/-! DEFINITION. What an implementation or its configuration image fixes (the cfg fields of
R10), and the free values: constants with no body, so that no proof can see what they are. -/

namespace Sys2Proof.Config

/-- Free value (log 2): whose step follows the one counted by the argument. -/
opaque nextTurn : Nat → Turn

/-- Free value (log 3): nanoseconds that pass during the step counted by the argument. -/
opaque elapsed : Nat → Nat

/-- Free value (log 37): which element a copy engine moves next (R249). -/
opaque copyPick : Nat → Nat

/-- Free value (log 3): the translations that the TLBs take in during a step: into the L1 TLB of
the core or into its die's service, for its micro-threads or its control thread, the core and the
address (R75). -/
opaque tlbFill : Nat → List (Bool × Bool × Nat × BitVec 64)

/-- Free value (log 3): whether a TLB keeps its held translation of this number over a step
(R75). -/
opaque tlbKeep : Nat → Nat → Bool

/-- Free value (log 3): the lines of other packages that L1Ds take in during a step: the core,
for its micro-threads or its control thread, whether untranslated, and the address (R78). -/
opaque lineFill : Nat → List (Nat × Bool × Bool × BitVec 64)

/-- Free value (log 3): the agents whose regions end early after a step, each by whether it is a
control thread, its core and its micro-thread (R83). -/
opaque earlyClose : Nat → List (Bool × Nat × Nat)

/-- Free value (log 34): whether the scratchpad stores of the instruction at this step are
performed later (R84). -/
opaque storesLate : Nat → Bool

/-- Free value (log 34): which of a core's late stores are performed after a step, by core and
place in its list (R84). -/
opaque lateDone : Nat → List (Nat × Nat)

/-- Free value (log 34): the words of scratchpads that loads read early after a step: core,
micro-thread, whether through .clus, and offset (R84). -/
opaque earlyRead : Nat → List (Nat × Nat × Bool × Nat)

/-- Free value (log 34): which early loads are forgotten after a step, by core and place. -/
opaque earlyGone : Nat → List (Nat × Nat)

/-- Free value (log 36): the micro-threads, by core and number, that timing keeps from issuing in the
step after this one: no SVU pipeline is granted (R299), or the word is not there yet. -/
opaque notNow : Nat → List (Nat × Nat)

/-- Free value (log 36): whether a cache answers for a line of DRAM at this step, so that the
access needs no channel (R340). -/
opaque cacheHit : Nat → Nat → Bool

/-- Free value (log 3): cycles of the core's clock during the step counted by the second
argument (R33). -/
opaque cycles : Nat → Nat → Nat

/-- Free value (log 30): the hash that spreads flows to other packages over the ports, of the
source endpoint and the destination package (R313). -/
opaque portHash : Nat → Nat → Nat

/-- Free value (log 30): the die on which a message moves to the escape channel (R395). -/
opaque escapeDie : Nat → Fin 4

/-- Free value (log 32): the part of its array that a predictive-failure threshold names
(R388). -/
opaque failing : Nat → Nat

/-- Free value (log 6): whether a WFI of user mode ends now, its bounded time being over. -/
opaque wfiEnds : Nat → Bool

/-- Free value (log 3): whether an L1D keeps its held line of this number over a step (R78). -/
opaque lineKeep : Nat → Nat → Bool

/-- Free value (log 3): what a read of a PCIe memory window or of a device register that the
spec does not lay out returns (R310). -/
opaque deviceRead : Nat → BitVec 64

/-- Free value (log 3): a signature byte of the attestation report (R320), of the bytes it signs and
its index. -/
opaque signatureByte : List (BitVec 8) → Nat → BitVec 8

/-- cfg (R319, R320): the SHA-256 digest of boot image 1 to 4. -/
opaque imageDigest : Nat → BitVec 256

/-- The device's serial number (R320). -/
opaque serial : BitVec 64

/-- Free value (log 3): the package counter, cycle and retired-instruction counts a RISC-V
counter CSR returns (R33). -/
opaque counterRead : Nat → BitVec 64

/-- Free value (log 3): the TYPE of the record that reports a port taken down (R315). -/
opaque portRecordType : BitVec 8

/-- Free value (log 3): whether the signature of boot image 1 to 4 is valid (R319). -/
opaque imageSigned : Nat → Bool

/-- Free value (log 3): whether the version of boot image 1 to 4 reaches the minimum that the header
before it gives (R319). -/
opaque imageCurrent : Nat → Bool

/-- cfg (R24): the spare physical tile column, 0 to 8, of a die's tile row. No placement is
standard. -/
opaque spareColumn : Nat → Nat → Fin 9

/-- cfg (R321): power of one core at full duty at an operating point, in milliwatts. -/
opaque pf : Nat → Nat

/-- cfg (R388): largest undervolting offset of a die's quadrant. -/
opaque vmax : Nat → Nat → BitVec 3

/-- Free value (log 8): the satp of a context's address space, in which the device and a
launch's cores translate (R34). -/
opaque contextRoot : Nat → BitVec 64

/-- cfg (R286): base physical address of a die's launch queue. -/
opaque launchQueueBase : Nat → Nat

/-- cfg (R286): number of entries of a die's launch queue beyond two. -/
opaque launchQueueMore : Nat → Nat

/-- cfg (R286): number of entries of a die's launch queue, at least two: the index after the last
entry could announce none in a ring of one (log 7). -/
def launchQueueSize (d : Nat) : Nat := launchQueueMore d + 2

/-- cfg (R319): the address at which a control thread leaves reset. -/
def resetPc : BitVec 64 := 0

/-- cfg, shipped value (R334): RSKEW in nanoseconds of the scopes .die, .pkg, .dom. -/
def rskew : Nat → Nat
  | 2 => 100
  | 3 => 250
  | 4 => 2000
  | _ => 0

/-- cfg, shipped value (R321): package budget in milliwatts. -/
def pkgBudget : Nat := 2910000
/-- cfg (R321): the floor of fetch duty, in sixteenths. -/
def floorDuty : Nat := 2
/-- cfg, shipped value (R330), quarter degrees. -/
def rotLo : Nat := 20
/-- cfg, shipped value (R330), quarter degrees. -/
def rotHi : Nat := 40
/-- cfg, shipped value (R388): corrected errors in 10 ms that make the hardware back off. -/
def guardErrors : Nat := 4
/-- cfg, shipped value (R388): predictive-failure threshold per 24 h. -/
def predictiveThreshold : Nat := 64
/-- cfg, shipped value (R411): this package's number. -/
def pkgNum : Nat := 0

end Sys2Proof.Config
end

