-- ==== Sys2Proof/Machine/Legal.lean ====
section
/-! DEFINITION. The opcode map's legality tables (R119 to R122, R125, R126, R129 to R139):
for each opcode the legal types, modifiers and operand kinds, and the bounds that the
instruction word alone decides (R131 step 4). -/

namespace Sys2Proof

/-! ### Element types -/

/-- TY code (R120). -/
def Ty.code : Ty → Nat
  | .b32 => 0 | .s32 => 1 | .z32 => 2 | .s16 => 3 | .z16 => 4 | .s8 => 5 | .z8 => 6
  | .s4 => 7 | .z4 => 8 | .f32 => 9 | .bf16 => 10 | .e4m3 => 11 | .e5m2 => 12
  | .e2m1 => 13 | .l6 => 14

/-- The type of a TY code; 15 is reserved (R120). -/
def Ty.ofCode : Nat → Option Ty
  | 0 => some .b32 | 1 => some .s32 | 2 => some .z32 | 3 => some .s16 | 4 => some .z16
  | 5 => some .s8 | 6 => some .z8 | 7 => some .s4 | 8 => some .z4 | 9 => some .f32
  | 10 => some .bf16 | 11 => some .e4m3 | 12 => some .e5m2 | 13 => some .e2m1
  | 14 => some .l6 | _ => none

/-- Element width in bits as packed in a word; an L6 element takes a byte (R96, R120). -/
def Ty.width : Ty → Nat
  | .b32 | .s32 | .z32 | .f32 => 32
  | .s16 | .z16 | .bf16 => 16
  | .s8 | .z8 | .e4m3 | .e5m2 | .l6 => 8
  | .s4 | .z4 | .e2m1 => 4

/-- Elements in a word (R96). -/
def Ty.perWord (t : Ty) : Nat := 32 / t.width

/-- The signed integer types (R161). -/
def Ty.isSigned : Ty → Bool
  | .s32 | .s16 | .s8 | .s4 => true
  | _ => false

/-- The floating types and L6, on which ABS and NEG act on the sign bit (R126). -/
def Ty.isFloat : Ty → Bool
  | .f32 | .bf16 | .e4m3 | .e5m2 | .e2m1 | .l6 => true
  | _ => false

/-! ### Operand kinds -/

/-- What an operand field may be: the kinds of R125, with the SPECIAL selectors of R129 split
by use, destinations apart from sources (R126), and ATOM's qualified registers (R122). -/
inductive Kind
  | zero                -- the field is unused and all zero
  | vSrc | vDst | vQual -- VREG as a source, a destination, a destination with a qualifier
  | vQualSrc            -- VREG as a source with a qualifier
  | s | sQual
  | handle | handleBare -- bare: wait count and offset zero
  | imm | nwin | role | role0 | stream
  | pred | acc | link | reader -- reader: laneid, mtid, fidx, tick
  deriving DecidableEq, Repr

/-- Kind `k` accepts the field. Reserved encodings of R125 and R126 (SEL 7, NWIN peer 3,
reserved SPECIAL selectors) are accepted by no kind. -/
def Kind.accepts (k : Kind) (o : Operand) : Bool :=
  match k, o with
  | .zero, o => o = Operand.zero
  | .vSrc, .vreg _ sel _ _ _ low => sel != 7 && low == 0
  | .vDst, .vreg _ sel swz neg abs low => sel == 0 && swz == 0 && !neg && !abs && low == 0
  | .vQual, .vreg _ sel swz neg abs _ => sel == 0 && swz == 0 && !neg && !abs
  | .vQualSrc, .vreg _ sel _ _ _ _ => sel != 7
  | .s, .sreg _ low => low == 0
  | .sQual, .sreg _ _ => true
  | .handle, .handle _ _ _ => true
  | .handleBare, .handle _ w off => w == 0 && off == 0
  | .imm, .imm _ => true
  | .nwin, .nwin p _ => p != 3
  | .role, .role _ _ => true
  | .role0, .role _ off => off == 0
  | .stream, .stream _ => true
  | .pred, .special x => x.toNat < 15
  | .acc, .special x => decide (16 ≤ x.toNat ∧ x.toNat < 24)
  | .link, .special x => decide (24 ≤ x.toNat ∧ x.toNat < 40)
  | .reader, .special x => decide (40 ≤ x.toNat ∧ x.toNat < 44)
  | _, _ => false

/-- Set D of R158 as a destination. -/
def Kind.dst : List Kind := [.vDst, .s]
/-- Set G of R158. -/
def Kind.gen : List Kind := [.vSrc, .s, .imm, .stream, .pred, .reader]
/-- SREG or IMM. -/
def Kind.si : List Kind := [.s, .imm]

/-- The field uses NEG or ABS on a type that forbids them (R126). -/
def Operand.badSign (t : Ty) : Operand → Bool
  | .vreg _ _ _ neg abs _ => (neg || abs) && !(t.isSigned || t.isFloat)
  | _ => false

/-- Value of an IMM, sign-extended (R127). -/
def Operand.immVal? : Operand → Option Int
  | .imm v => some v.toInt
  | _ => none

/-- An IMM stays within the bounds; any other kind is not judged here. -/
def Operand.immIn (o : Operand) (lo hi : Int) : Bool :=
  match o.immVal? with
  | some v => decide (lo ≤ v ∧ v ≤ hi)
  | none => true

/-- The register is even: an address or value pair (R172, R204, R220). -/
def Operand.isEven : Operand → Bool
  | .sreg r _ => r.toNat % 2 == 0
  | .vreg r _ _ _ _ _ => r.toNat % 2 == 0
  | _ => false

def Operand.isVreg : Operand → Bool
  | .vreg .. => true
  | _ => false
def Operand.isSreg : Operand → Bool
  | .sreg .. => true
  | _ => false
def Operand.isHandle : Operand → Bool
  | .handle .. => true
  | _ => false
def Operand.isRole : Operand → Bool
  | .role .. => true
  | _ => false

/-! ### Modifier groups (R121) -/

inductive ModGroup
  | n                       -- none
  | r | rOnly               -- rounding with NOSAT; RM only
  | cmp (last : Nat)        -- compare, codes 0 to last
  | br                      -- branch
  | space (lo hi : Nat)
  | scope
  | atomic (lastOp : Nat)   -- AOP 0 to lastOp, SPC 1 to 5
  | var (last : Nat)        -- variant, codes 0 to last
  | rmarg                   -- RMARG: TEST 0 to 2 in [1:0], CUT in [2] (R282)
  deriving DecidableEq, Repr

def ModGroup.ok (g : ModGroup) (m : BitVec 6) : Bool :=
  let v := m.toNat
  match g with
  | .n => v == 0
  | .r => decide (v < 16 ∧ v % 8 ≤ 4)
  | .rOnly => decide (v ≤ 4)
  | .cmp last => decide (v ≤ last)
  | .br => decide (v ≤ 2)
  | .space lo hi => decide (lo ≤ v ∧ v ≤ hi)
  | .scope => decide (v ≤ 4)
  | .atomic last => decide (v / 8 ≤ last ∧ 1 ≤ v % 8 ∧ v % 8 ≤ 5)
  | .var last => decide (v ≤ last)
  | .rmarg => decide (v < 8 ∧ v % 4 ≤ 2)

/-- The space code of a memory instruction (R121 groups S and A). -/
def Ny.spc (f : Ny) : Nat := f.md.toNat % 8
/-- The atomic operation code (R121 group A). -/
def Ny.aop (f : Ny) : Nat := f.md.toNat / 8
/-- .glob or .glnc: the address is a pair (R204). -/
def Ny.virt (f : Ny) : Bool := f.spc == 4 || f.spc == 5

/-! ### Type sets (R120) -/

def TySet.U : List Ty := [.b32]
def TySet.I : List Ty := [.b32, .s32, .z32, .s16, .z16, .s8, .z8, .s4, .z4]
def TySet.F : List Ty := [.f32, .bf16]
def TySet.X : List Ty := TySet.I ++ [.f32, .bf16, .e4m3, .e5m2, .e2m1, .l6]
def TySet.M : List Ty := [.bf16, .e4m3, .e5m2, .e2m1, .l6]
def TySet.K : List Ty := [.bf16, .e4m3, .e5m2, .l6]
def TySet.Q : List Ty := [.s8, .s4, .e4m3, .e5m2, .e2m1, .l6]
def TySet.N4 : List Ty := [.s4, .z4, .e2m1]
def TySet.A32 : List Ty := [.b32, .s32, .z32, .f32]
def TySet.P : List Ty := TySet.I ++ [.f32, .bf16]
def TySet.C : List Ty :=
  [.s32, .z32, .s16, .z16, .s8, .z8, .s4, .z4, .f32, .bf16, .e4m3, .e5m2, .e2m1, .l6]

/-! ### The opcode map -/

/-- One row of the opcode map: legal types, modifier group, accepted kinds of the fields. -/
structure OpRow where
  ty : List Ty
  md : ModGroup
  a : List Kind
  b : List Kind
  c : List Kind
  deriving Repr

def OpRow.arith3 (ty : List Ty) (md : ModGroup) : OpRow := ⟨ty, md, Kind.dst, Kind.gen, Kind.gen⟩
def OpRow.arith2 (ty : List Ty) (md : ModGroup) : OpRow := ⟨ty, md, Kind.dst, Kind.gen, [.zero]⟩
def OpRow.none (ty : List Ty) (md : ModGroup) : OpRow := ⟨ty, md, [.zero], [.zero], [.zero]⟩

/-- Class 0x000 (R132, R158 to R172). -/
def opRow0 (n : Nat) : Option OpRow :=
  match n with
  | 0x000 => some (.none TySet.U .n)
  | 0x001 => some ⟨TySet.X, .n, [.vDst, .s, .pred, .nwin, .role], Kind.gen, [.zero]⟩
  | 0x002 => some (.arith3 TySet.X .n)
  | 0x003 | 0x004 | 0x005 | 0x006 | 0x007 | 0x008 | 0x009 | 0x00C | 0x00D =>
    some (.arith3 TySet.I .n)
  | 0x00A | 0x00B => some (.arith2 TySet.I .n)
  | 0x00E | 0x00F | 0x010 | 0x011 | 0x012 | 0x013 | 0x014 | 0x015 => some (.arith3 TySet.I .n)
  | 0x016 | 0x017 | 0x018 | 0x019 | 0x01A => some (.arith2 TySet.I .n)
  | 0x01B | 0x01C => some (.arith3 TySet.I .n)
  | 0x01D => some ⟨TySet.I, .cmp 5, Kind.dst ++ [.pred], Kind.gen, Kind.gen⟩
  | 0x01E | 0x01F | 0x020 => some ⟨TySet.U, .n, [.pred], [.pred], [.pred]⟩
  | 0x021 => some ⟨TySet.U, .n, [.pred], [.pred], [.zero]⟩
  | 0x022 => some ⟨TySet.U, .space 0 5, Kind.dst, Kind.gen, Kind.gen⟩
  | _ => none

/-- Classes 0x080 and 0x100 (R133, R134, R173 to R191). -/
def opRow1 (n : Nat) : Option OpRow :=
  match n with
  | 0x080 | 0x081 | 0x082 | 0x083 => some (.arith3 TySet.F .rOnly)
  | 0x084 | 0x085 => some (.arith3 TySet.F .n)
  | 0x086 => some ⟨TySet.F, .cmp 7, Kind.dst ++ [.pred], Kind.gen, Kind.gen⟩
  | 0x087 => some (.arith2 [.f32, .bf16, .e4m3, .e5m2, .e2m1] .n)
  | 0x088 => some (.arith2 TySet.F .rOnly)
  | 0x089 => some ⟨TySet.X, .r, Kind.dst, Kind.gen, [.imm]⟩
  | 0x08A => some ⟨TySet.Q, .r, [.vDst], [.vSrc], [.s]⟩
  | 0x08B => some ⟨TySet.Q, .rOnly, [.vDst], [.vSrc], Kind.si⟩
  | 0x08C => some (.arith3 TySet.F .rOnly)
  | 0x08D => some (.arith3 TySet.M .rOnly)
  | 0x100 | 0x101 | 0x102 | 0x103 | 0x104 | 0x105 | 0x106 | 0x107 | 0x108 =>
    some (.arith2 TySet.F .n)
  | 0x109 => some (.arith3 [.l6] .rOnly)
  | 0x10A => some (.arith3 [.l6] .n)
  | 0x10B => some ⟨TySet.X, .var 3, Kind.dst, [.vSrc], Kind.gen⟩
  | 0x10C => some ⟨TySet.X, .n, Kind.dst, [.vSrc], Kind.gen⟩
  | 0x10D => some ⟨TySet.P, .var 5, Kind.dst, Kind.gen, [.zero]⟩
  | 0x10E => some ⟨TySet.P, .var 2, [.vDst], Kind.gen, [.zero]⟩
  | 0x10F => some ⟨TySet.U, .var 2, Kind.dst ++ [.pred], [.vSrc, .pred], [.zero]⟩
  | 0x110 => some ⟨TySet.C, .var 2, [.vDst], [.vSrc], [.zero]⟩
  | 0x111 => some ⟨TySet.C, .var 2, [.vDst], [.vSrc], [.vSrc]⟩
  | _ => none

/-- Class 0x180 (R135, R192 to R203, R130). -/
def opRow2 (n : Nat) : Option OpRow :=
  match n with
  | 0x180 => some ⟨TySet.U, .br, [.pred, .vSrc, .s, .imm], [.imm], [.zero]⟩
  | 0x181 => some ⟨TySet.U, .br, [.pred, .vSrc, .s, .imm], [.s], [.zero]⟩
  | 0x182 => some ⟨TySet.U, .n, [.imm], [.zero], [.zero]⟩
  | 0x183 => some ⟨TySet.U, .n, [.s], [.imm], [.zero]⟩
  | 0x184 => some ⟨TySet.U, .n, [.imm], [.imm], [.zero]⟩
  | 0x185 | 0x186 => some (.none TySet.U .n)
  | 0x187 => some ⟨TySet.U, .n, [.link], [.vSrc, .s], [.zero]⟩
  | 0x188 => some ⟨TySet.U, .n, Kind.dst, [.link], [.zero]⟩
  | 0x189 | 0x18A => some (.none TySet.U .n)
  | 0x18B | 0x18C => some ⟨TySet.U, .n, [.imm], [.zero], [.zero]⟩
  | 0x18D => some ⟨TySet.U, .n, [.pred], [.imm], [.zero]⟩
  | 0x18E => some (.none TySet.U .n)
  | 0x18F => some ⟨TySet.U, .n, Kind.si, [.zero], [.zero]⟩
  | 0x190 => some ⟨TySet.U, .n, [.pred], Kind.si, [.zero]⟩
  | 0x191 => some ⟨TySet.U, .n, Kind.dst, [.zero], [.zero]⟩
  | _ => none

/-- Classes 0x200 and 0x280 (R136, R137, R204 to R230). -/
def opRow3 (n : Nat) : Option OpRow :=
  match n with
  | 0x200 => some ⟨TySet.X, .space 0 5, Kind.dst, [.s, .imm, .handle], [.s, .imm, .zero]⟩
  | 0x201 => some ⟨TySet.X, .space 0 5, Kind.dst, [.s, .imm, .handle], [.s, .imm, .zero]⟩
  | 0x202 | 0x203 => some ⟨TySet.X, .space 0 5, [.vDst], [.vSrc], Kind.si⟩
  | 0x204 => some ⟨TySet.U, .space 3 5, [.zero], [.s, .imm, .handle], [.s, .imm, .zero]⟩
  | 0x205 => some ⟨TySet.U, .n, [.handleBare], [.s], [.imm]⟩
  | 0x206 | 0x207 => some ⟨TySet.U, .n, [.handleBare], Kind.si, [.zero]⟩
  | 0x208 => some ⟨TySet.U, .n, [.stream], [.zero], [.zero]⟩
  | 0x209 => some ⟨TySet.U, .n, [.handleBare, .stream], [.zero], [.zero]⟩
  | 0x20A => some ⟨TySet.U, .space 1 1, Kind.dst, [.s, .imm, .role], [.s, .imm, .zero]⟩
  | 0x20B => some ⟨TySet.U, .space 1 1, [.s, .imm, .role], [.s, .imm, .zero], Kind.si⟩
  | 0x20C => some ⟨TySet.N4, .space 2 5, [.vSrc, .s], Kind.si, Kind.si⟩
  | 0x20D | 0x20E => some ⟨TySet.U, .space 4 4, [.zero], [.s], Kind.si⟩
  | 0x280 => some ⟨TySet.A32, .atomic 6, [.vQual, .sQual], [.vSrc, .s], Kind.gen⟩
  | 0x281 => some ⟨TySet.A32, .atomic 0, [.vQual, .sQual], [.vSrc, .s], [.vSrc, .s]⟩
  | 0x282 => some ⟨TySet.A32, .atomic 5, [.vQualSrc, .sQual], [.vSrc, .s, .role], [.zero]⟩
  | 0x283 | 0x284 | 0x285 => some (.none TySet.U .scope)
  | 0x286 | 0x287 => some ⟨TySet.U, .scope, [.imm], Kind.si, [.zero]⟩
  | 0x288 => some ⟨TySet.U, .scope, [.imm], [.zero], [.zero]⟩
  | 0x289 => some ⟨TySet.U, .space 1 5, Kind.si, Kind.si, [.s, .zero]⟩
  | 0x28A => some ⟨TySet.U, .space 1 5, Kind.si, Kind.si, [.imm, .zero]⟩
  | 0x28B => some ⟨TySet.U, .n, Kind.dst, [.s, .imm, .zero], [.zero]⟩
  | 0x28C => some ⟨TySet.U, .n, Kind.dst, [.zero], [.zero]⟩
  | 0x28D => some ⟨TySet.U, .n, [.s], [.s, .imm, .zero], [.zero]⟩
  | 0x28E => some ⟨TySet.U, .n, Kind.dst, [.vSrc, .s, .imm], [.zero]⟩
  | _ => none

/-- Classes 0x300 and 0x380 (R138, R139, R237 to R253, R261). DESIGN CHOICE (log 13): the codes 0x390 to 0x3FF,
above the last instruction of the class, are unassigned, as R119 has it of every class, where R139 says that
no code of this one is. -/
def opRow4 (n : Nat) : Option OpRow :=
  match n with
  | 0x300 | 0x301 => some ⟨TySet.M, .n, [.acc], [.s], [.s]⟩
  | 0x302 => some ⟨TySet.U, .n, [.acc], [.zero], [.zero]⟩
  | 0x303 => some ⟨[.f32], .n, [.acc], Kind.si, [.zero]⟩
  | 0x304 => some ⟨TySet.F, .n, Kind.si, [.acc], [.imm, .zero]⟩
  | 0x305 => some (.none TySet.U (.var 1))
  | 0x306 | 0x307 => some (.none TySet.U .n)
  | 0x308 => some ⟨TySet.U, .n, Kind.si, [.stream, .zero], [.zero]⟩
  | 0x309 => some ⟨TySet.U, .n, Kind.si, [.vSrc], [.zero]⟩
  | 0x380 => some ⟨TySet.U, .n, [.acc], Kind.si, [.zero]⟩
  | 0x381 => some ⟨TySet.K, .n, [.acc], [.s], Kind.si⟩
  | 0x382 => some ⟨TySet.U, .n, [.acc], [.zero], [.zero]⟩
  | 0x383 => some ⟨TySet.U, .n, [.role0], [.acc], [.zero]⟩
  | 0x384 => some ⟨TySet.U, .n, [.role0], [.vSrc, .s, .imm], [.zero]⟩
  | 0x385 => some ⟨TySet.U, .n, [.s], [.zero], [.zero]⟩
  | 0x386 => some ⟨TySet.F, .var 1, Kind.si, Kind.si, Kind.si⟩
  | 0x387 => some ⟨TySet.U, .n, [.role], Kind.si, [.s, .imm, .zero]⟩
  | 0x388 => some ⟨TySet.U, .n, [.s], [.zero], [.zero]⟩
  | 0x389 => some ⟨TySet.K, .n, [.acc], [.s], Kind.si⟩
  | 0x38A => some ⟨TySet.U, .rmarg, [.pred], [.acc], [.zero]⟩
  | 0x38B => some ⟨TySet.K, .var 1, [.role], Kind.si, [.zero]⟩
  | 0x38C => some ⟨TySet.U, .n, Kind.si, [.s, .imm, .zero], [.zero]⟩
  | 0x38D => some ⟨TySet.U, .n, Kind.dst, [.imm], [.zero]⟩
  | 0x38E => some ⟨TySet.U, .n, [.imm], Kind.gen, [.zero]⟩
  | 0x38F => some ⟨TySet.U, .var 1, Kind.si, [.zero], [.zero]⟩
  | _ => none

/-- The opcode map: the row of an assigned opcode (R119). -/
def opRow (op : Nat) : Option OpRow :=
  match op / 0x80 with
  | 0 => opRow0 op
  | 1 => opRow1 op
  | 2 => opRow1 op
  | 3 => opRow2 op
  | 4 => opRow3 op
  | 5 => opRow3 op
  | 6 => opRow4 op
  | 7 => opRow4 op
  | _ => none

/-! ### Checks that join fields (R131 steps 3 and 4) -/

/-- MOD codes an instruction allows only with some types: .nosat of CVT and QNT (R103), the
bitwise variants of RED (R187), ATOM and ATRED (R219). -/
def modTypeOk (op : Nat) (f : Ny) : Bool :=
  if op = 0x089 ∨ op = 0x08A then
    f.md.toNat / 8 == 0 || f.ty == .e4m3 || f.ty == .e5m2
  else if op = 0x10D then !(decide (f.md.toNat ≥ 3) && f.ty.isFloat)
  else if op = 0x280 ∨ op = 0x282 then
    !(f.ty == .f32 && decide (3 ≤ f.aop ∧ f.aop ≤ 5))
  else true

/-- The type by which ABS and NEG of a source act: the source type of CVT, f32 for QNT (R126). -/
def srcTy (op : Nat) (f : Ny) : Ty :=
  if op = 0x089 then
    match f.c with
    | .imm v => (Ty.ofCode v.toNat).getD f.ty
    | _ => f.ty
  else if op = 0x08A then .f32
  else f.ty

/-- Base operand of a memory instruction by its space (R204): an even pair or a handle in the
virtual spaces, a 32-bit offset elsewhere; no HANDLE in .lane. -/
def baseOk (f : Ny) (o : Operand) : Bool :=
  match o with
  | .handle .. => f.spc != 0
  | .imm _ => !f.virt
  | .sreg .. => !f.virt || o.isEven
  | _ => false

/-- Bounds and choices of kind that the word alone decides: the field that fails, as DETAIL
1, 2 or 3 (R131 step 4, R367). -/
def fieldCheck (op : Nat) (f : Ny) : Option Nat :=
  let need (ok : Bool) (d : Nat) : Option Nat := if ok then none else some d
  match op with
  | 0x022 => -- LEA (R172)
    if f.virt then
      (need (f.a.isSreg && f.a.isEven) 1).or <|
      (need (f.b.isSreg && f.b.isEven) 2).or (need (!f.c.isVreg) 3)
    else none
  | 0x089 => need (f.c.immIn 0 14) 3
  | 0x10F => need (if f.md == 0 then f.a.isVreg || f.a.isSreg else Kind.pred.accepts f.a) 1
  | 0x110 | 0x111 => need (match f.a with | .vreg r .. => r != 63 | _ => true) 1
  | 0x18B => need (f.a.immIn 0 65535) 1
  | 0x18C => need (f.a.immIn 0 255) 1
  | 0x18D => need (f.b.immIn 2 2 || f.b.immIn 4 4 || f.b.immIn 8 8) 2
  | 0x18F => need (f.a.immIn 0 262143) 1
  | 0x190 => need (f.b.immIn 0 262143) 2
  | 0x200 | 0x201 | 0x204 =>
    (need (baseOk f f.b) 2).or
      (need (if f.b.isHandle then f.c == Operand.zero else f.c != Operand.zero) 3)
  | 0x202 | 0x203 => need (baseOk f f.c) 3
  | 0x205 => (need f.b.isEven 2).or (need (f.c.immIn 0 1) 3)
  | 0x206 | 0x207 => need (f.b.immIn 1 262143) 2
  | 0x20A => need (if f.b.isRole then f.c == Operand.zero else f.c != Operand.zero) 3
  | 0x20B =>
    (need (if f.a.isRole then f.b == Operand.zero else f.b != Operand.zero) 2).or
      (need (f.c.immIn 1 2048) 3)
  | 0x20C => need (baseOk f f.b) 2
  | 0x20D | 0x20E => (need f.b.isEven 2).or (need (f.c.immIn 1 1048576) 3)
  | 0x280 =>
    need ((f.a.isVreg == f.b.isVreg) && (!f.virt || f.b.isEven)) 2
  | 0x281 =>
    (need ((f.a.isVreg == f.b.isVreg) && (!f.virt || f.b.isEven)) 2).or
      (need ((f.a.isVreg == f.c.isVreg) && f.c.isEven) 3)
  | 0x282 =>
    if f.b.isRole then need (f.spc == 4) 2
    else need ((f.a.isVreg == f.b.isVreg) && (!f.virt || f.b.isEven)) 2
  | 0x286 | 0x287 => (need (f.a.immIn 0 15) 1).or (need (f.b.immIn 1 65535) 2)
  | 0x288 => need (f.a.immIn 0 15) 1
  | 0x289 => need (baseOk f f.a) 1
  | 0x28A => (need (baseOk f f.a) 1).or (need (f.c.immIn 0 1) 3)
  | 0x28D => need (f.b.immIn 1 64) 2
  | 0x28E => (need (f.a.isVreg == f.b.isVreg) 2).or (need (f.b.immIn 0 255) 2)
  | 0x304 => need (f.c.immIn 0 65535) 3
  | 0x386 => need (f.c.immIn 1 256) 3
  | 0x387 => need (f.c.immIn 0 256) 3
  | 0x38D => need (f.b.immIn 0 7) 2
  | 0x38E => -- CSRW: RSN, RSTHR and ETICK are writable; an IMM value of RSN is bounded (R284)
    (need (f.a.immIn 2 3 || f.a.immIn 5 5) 1).or
      (need (!(f.a.immIn 2 2) || f.b.immIn 1 4096) 2)
  | _ => none

/-- REP's fields (R130): n from 1 to 64 and three steps of two bits. -/
def repFieldsOk (f : Ny) : Bool :=
  match f.a, f.b with
  | .imm n, .imm st =>
    decide (1 ≤ n.toInt ∧ n.toInt ≤ 64) && decide (st.toNat < 64) && f.c == Operand.zero
  | _, _ => false

/-- The qualifier of ATOM, CAS and ATRED in the low bits of A (R122). -/
def Operand.qual : Operand → BitVec 5
  | .vreg _ _ _ _ _ low => low
  | .sreg _ low => low
  | _ => 0

def qualOk (q : BitVec 5) : Bool :=
  decide (q.toNat / 4 ≤ 4) && (q.toNat % 4 != 0 || q.toNat / 4 == 0)

/-- A word's first failing check, as cause and DETAIL (R131, R366). -/
structure Reject where
  cause : Nat
  detail : Nat
  deriving DecidableEq, Repr

/-- Operand check of one field: its kind, then ABS and NEG against the type. -/
def fieldKindOk (ks : List Kind) (t : Ty) (o : Operand) : Bool :=
  ks.any (·.accepts o) && !o.badSign t

/-- The checks of R131 steps 3 and 4 on decoded fields; steps 1 and 2 are `opRow` and the type
set. The first that fails is answered. DESIGN CHOICE (log 13): within step 4, whose order is open,
the kind of A, the qualifier, the kinds of B and C, then the joined bounds. A HANDLE base of LDX and
STX has DETAIL 2 (R370). -/
def checkFields (op : Nat) (row : OpRow) (f : Ny) : Option Reject :=
  if !row.md.ok f.md then some ⟨3, 0⟩
  else if !modTypeOk op f then some ⟨3, 0⟩
  else if op = 0x184 then
    if !repFieldsOk f then some ⟨3, 5⟩
    else if f.guard != ⟨false, 15⟩ then some ⟨3, 7⟩
    else none
  else if !fieldKindOk row.a (srcTy op f) f.a then some ⟨3, 1⟩
  else if (op = 0x280 ∨ op = 0x281 ∨ op = 0x282) ∧ !qualOk f.a.qual then some ⟨3, 4⟩
  else if !fieldKindOk row.b (srcTy op f) f.b then some ⟨3, 2⟩
  else if (op = 0x202 ∨ op = 0x203) ∧ f.c.isHandle then some ⟨3, 2⟩
  else if !fieldKindOk row.c (srcTy op f) f.c then some ⟨3, 3⟩
  else (fieldCheck op f).map (⟨3, ·⟩)

/-- The whole of R131 steps 1 to 4 on an opcode and its fields. -/
def checkNy (op : Nat) (f : Ny) : Option Reject :=
  match opRow op with
  | none => some ⟨1, 0⟩
  | some row => if row.ty.contains f.ty then checkFields op row f else some ⟨2, 0⟩


/-- The opcode and fields of a micro-thread instruction; the other rows have none (R132 to R139). -/
def Instr.ny? : Instr → Option (Nat × Ny)
  | .nop f => some (0x000, f)
  | .mov f => some (0x001, f)
  | .sel f => some (0x002, f)
  | .iadd f => some (0x003, f)
  | .isub f => some (0x004, f)
  | .imul f => some (0x005, f)
  | .imulh f => some (0x006, f)
  | .imad f => some (0x007, f)
  | .imin f => some (0x008, f)
  | .imax f => some (0x009, f)
  | .iabs f => some (0x00A, f)
  | .ineg f => some (0x00B, f)
  | .iadds f => some (0x00C, f)
  | .isubs f => some (0x00D, f)
  | .shl f => some (0x00E, f)
  | .shr f => some (0x00F, f)
  | .sar f => some (0x010, f)
  | .rot f => some (0x011, f)
  | .and f => some (0x012, f)
  | .or f => some (0x013, f)
  | .xor f => some (0x014, f)
  | .andn f => some (0x015, f)
  | .not f => some (0x016, f)
  | .clz f => some (0x017, f)
  | .ffs f => some (0x018, f)
  | .popc f => some (0x019, f)
  | .brev f => some (0x01A, f)
  | .bfx f => some (0x01B, f)
  | .bfi f => some (0x01C, f)
  | .icmp f => some (0x01D, f)
  | .pand f => some (0x01E, f)
  | .por f => some (0x01F, f)
  | .pxor f => some (0x020, f)
  | .pnot f => some (0x021, f)
  | .lea f => some (0x022, f)
  | .fadd f => some (0x080, f)
  | .fsub f => some (0x081, f)
  | .fmul f => some (0x082, f)
  | .ffma f => some (0x083, f)
  | .fmin f => some (0x084, f)
  | .fmax f => some (0x085, f)
  | .fcmp f => some (0x086, f)
  | .fclass f => some (0x087, f)
  | .frnd f => some (0x088, f)
  | .cvt f => some (0x089, f)
  | .qnt f => some (0x08A, f)
  | .dqnt f => some (0x08B, f)
  | .sclf f => some (0x08C, f)
  | .fdot f => some (0x08D, f)
  | .rcp f => some (0x100, f)
  | .rsq f => some (0x101, f)
  | .sqrt f => some (0x102, f)
  | .exp2 f => some (0x103, f)
  | .log2 f => some (0x104, f)
  | .sin f => some (0x105, f)
  | .cos f => some (0x106, f)
  | .tanh f => some (0x107, f)
  | .sigm f => some (0x108, f)
  | .l6add f => some (0x109, f)
  | .l6mul f => some (0x10A, f)
  | .shuf f => some (0x10B, f)
  | .bcast f => some (0x10C, f)
  | .red f => some (0x10D, f)
  | .scan f => some (0x10E, f)
  | .vote f => some (0x10F, f)
  | .cmprs f => some (0x110, f)
  | .xpnd f => some (0x111, f)
  | .bra f => some (0x180, f)
  | .brx f => some (0x181, f)
  | .bfetch f => some (0x182, f)
  | .loop f => some (0x183, f)
  | .rep f => some (0x184, f)
  | .stop f => some (0x185, f)
  | .yield f => some (0x186, f)
  | .lnkw f => some (0x187, f)
  | .lnkr f => some (0x188, f)
  | .ctsig f => some (0x189, f)
  | .ctwait f => some (0x18A, f)
  | .trap f => some (0x18B, f)
  | .brkp f => some (0x18C, f)
  | .gang f => some (0x18D, f)
  | .ungang f => some (0x18E, f)
  | .sleep f => some (0x18F, f)
  | .twait f => some (0x190, f)
  | .time f => some (0x191, f)
  | .ld f => some (0x200, f)
  | .st f => some (0x201, f)
  | .ldx f => some (0x202, f)
  | .stx f => some (0x203, f)
  | .pref f => some (0x204, f)
  | .hbind f => some (0x205, f)
  | .advp f => some (0x206, f)
  | .advc f => some (0x207, f)
  | .qbind f => some (0x208, f)
  | .qdrop f => some (0x209, f)
  | .ldf f => some (0x20A, f)
  | .fbclr f => some (0x20B, f)
  | .stsb f => some (0x20C, f)
  | .wback f => some (0x20D, f)
  | .inval f => some (0x20E, f)
  | .atom f => some (0x280, f)
  | .cas f => some (0x281, f)
  | .atred f => some (0x282, f)
  | .fence f => some (0x283, f)
  | .acq f => some (0x284, f)
  | .rel f => some (0x285, f)
  | .bar f => some (0x286, f)
  | .bara f => some (0x287, f)
  | .barw f => some (0x288, f)
  | .cwait f => some (0x289, f)
  | .cadd f => some (0x28A, f)
  | .inbx f => some (0x28B, f)
  | .inbp f => some (0x28C, f)
  | .ticket f => some (0x28D, f)
  | .roleq f => some (0x28E, f)
  | .mma f => some (0x300, f)
  | .mmas f => some (0x301, f)
  | .mzero f => some (0x302, f)
  | .mfill f => some (0x303, f)
  | .mdrain f => some (0x304, f)
  | .chbeg f => some (0x305, f)
  | .chend f => some (0x306, f)
  | .spfence f => some (0x307, f)
  | .cpy f => some (0x308, f)
  | .cpyg f => some (0x309, f)
  | .ncfg f => some (0x380, f)
  | .nint f => some (0x381, f)
  | .nleak f => some (0x382, f)
  | .nfire f => some (0x383, f)
  | .evsend f => some (0x384, f)
  | .evrecv f => some (0x385, f)
  | .rsort f => some (0x386, f)
  | .rsend f => some (0x387, f)
  | .rrecv f => some (0x388, f)
  | .racc f => some (0x389, f)
  | .rmarg f => some (0x38A, f)
  | .rgrad f => some (0x38B, f)
  | .rwtab f => some (0x38C, f)
  | .csrr f => some (0x38D, f)
  | .csrw f => some (0x38E, f)
  | .tqcfg f => some (0x38F, f)
  | _ => none

/-- The instruction of an assigned opcode (R119). -/
def Instr.ofOp (op : Nat) (f : Ny) : Option Instr :=
  match op with
  | 0x000 => some (.nop f)
  | 0x001 => some (.mov f)
  | 0x002 => some (.sel f)
  | 0x003 => some (.iadd f)
  | 0x004 => some (.isub f)
  | 0x005 => some (.imul f)
  | 0x006 => some (.imulh f)
  | 0x007 => some (.imad f)
  | 0x008 => some (.imin f)
  | 0x009 => some (.imax f)
  | 0x00A => some (.iabs f)
  | 0x00B => some (.ineg f)
  | 0x00C => some (.iadds f)
  | 0x00D => some (.isubs f)
  | 0x00E => some (.shl f)
  | 0x00F => some (.shr f)
  | 0x010 => some (.sar f)
  | 0x011 => some (.rot f)
  | 0x012 => some (.and f)
  | 0x013 => some (.or f)
  | 0x014 => some (.xor f)
  | 0x015 => some (.andn f)
  | 0x016 => some (.not f)
  | 0x017 => some (.clz f)
  | 0x018 => some (.ffs f)
  | 0x019 => some (.popc f)
  | 0x01A => some (.brev f)
  | 0x01B => some (.bfx f)
  | 0x01C => some (.bfi f)
  | 0x01D => some (.icmp f)
  | 0x01E => some (.pand f)
  | 0x01F => some (.por f)
  | 0x020 => some (.pxor f)
  | 0x021 => some (.pnot f)
  | 0x022 => some (.lea f)
  | 0x080 => some (.fadd f)
  | 0x081 => some (.fsub f)
  | 0x082 => some (.fmul f)
  | 0x083 => some (.ffma f)
  | 0x084 => some (.fmin f)
  | 0x085 => some (.fmax f)
  | 0x086 => some (.fcmp f)
  | 0x087 => some (.fclass f)
  | 0x088 => some (.frnd f)
  | 0x089 => some (.cvt f)
  | 0x08A => some (.qnt f)
  | 0x08B => some (.dqnt f)
  | 0x08C => some (.sclf f)
  | 0x08D => some (.fdot f)
  | 0x100 => some (.rcp f)
  | 0x101 => some (.rsq f)
  | 0x102 => some (.sqrt f)
  | 0x103 => some (.exp2 f)
  | 0x104 => some (.log2 f)
  | 0x105 => some (.sin f)
  | 0x106 => some (.cos f)
  | 0x107 => some (.tanh f)
  | 0x108 => some (.sigm f)
  | 0x109 => some (.l6add f)
  | 0x10A => some (.l6mul f)
  | 0x10B => some (.shuf f)
  | 0x10C => some (.bcast f)
  | 0x10D => some (.red f)
  | 0x10E => some (.scan f)
  | 0x10F => some (.vote f)
  | 0x110 => some (.cmprs f)
  | 0x111 => some (.xpnd f)
  | 0x180 => some (.bra f)
  | 0x181 => some (.brx f)
  | 0x182 => some (.bfetch f)
  | 0x183 => some (.loop f)
  | 0x184 => some (.rep f)
  | 0x185 => some (.stop f)
  | 0x186 => some (.yield f)
  | 0x187 => some (.lnkw f)
  | 0x188 => some (.lnkr f)
  | 0x189 => some (.ctsig f)
  | 0x18A => some (.ctwait f)
  | 0x18B => some (.trap f)
  | 0x18C => some (.brkp f)
  | 0x18D => some (.gang f)
  | 0x18E => some (.ungang f)
  | 0x18F => some (.sleep f)
  | 0x190 => some (.twait f)
  | 0x191 => some (.time f)
  | 0x200 => some (.ld f)
  | 0x201 => some (.st f)
  | 0x202 => some (.ldx f)
  | 0x203 => some (.stx f)
  | 0x204 => some (.pref f)
  | 0x205 => some (.hbind f)
  | 0x206 => some (.advp f)
  | 0x207 => some (.advc f)
  | 0x208 => some (.qbind f)
  | 0x209 => some (.qdrop f)
  | 0x20A => some (.ldf f)
  | 0x20B => some (.fbclr f)
  | 0x20C => some (.stsb f)
  | 0x20D => some (.wback f)
  | 0x20E => some (.inval f)
  | 0x280 => some (.atom f)
  | 0x281 => some (.cas f)
  | 0x282 => some (.atred f)
  | 0x283 => some (.fence f)
  | 0x284 => some (.acq f)
  | 0x285 => some (.rel f)
  | 0x286 => some (.bar f)
  | 0x287 => some (.bara f)
  | 0x288 => some (.barw f)
  | 0x289 => some (.cwait f)
  | 0x28A => some (.cadd f)
  | 0x28B => some (.inbx f)
  | 0x28C => some (.inbp f)
  | 0x28D => some (.ticket f)
  | 0x28E => some (.roleq f)
  | 0x300 => some (.mma f)
  | 0x301 => some (.mmas f)
  | 0x302 => some (.mzero f)
  | 0x303 => some (.mfill f)
  | 0x304 => some (.mdrain f)
  | 0x305 => some (.chbeg f)
  | 0x306 => some (.chend f)
  | 0x307 => some (.spfence f)
  | 0x308 => some (.cpy f)
  | 0x309 => some (.cpyg f)
  | 0x380 => some (.ncfg f)
  | 0x381 => some (.nint f)
  | 0x382 => some (.nleak f)
  | 0x383 => some (.nfire f)
  | 0x384 => some (.evsend f)
  | 0x385 => some (.evrecv f)
  | 0x386 => some (.rsort f)
  | 0x387 => some (.rsend f)
  | 0x388 => some (.rrecv f)
  | 0x389 => some (.racc f)
  | 0x38A => some (.rmarg f)
  | 0x38B => some (.rgrad f)
  | 0x38C => some (.rwtab f)
  | 0x38D => some (.csrr f)
  | 0x38E => some (.csrw f)
  | 0x38F => some (.tqcfg f)
  | _ => none

end Sys2Proof
end

