-- ==== Sys2Proof/Machine/RvExpand.lean ====
section
/-! DEFINITION. The compressed (C) instructions of the control thread (R33): the RV64C
halfword read as the full operation it stands for. Encodings are the family's (log 6). -/

namespace Sys2Proof

/-- Bit `i` of a halfword as a one-bit vector. -/
def hbit (h : BitVec 16) (i : Nat) : BitVec 1 := h.extractLsb' i 1

/-- The register x8 to x15 of a three-bit field. -/
def cReg (h : BitVec 16) (lo : Nat) : BitVec 5 := (0b01#2 ++ h.extractLsb' lo 3)

def cNzImm6 (h : BitVec 16) : BitVec 6 := hbit h 12 ++ h.extractLsb' 2 5

/-- Quadrant 0. -/
def expandC0 (h : BitVec 16) : Option Rv :=
  let rd' := cReg h 2
  let rs1' := cReg h 7
  let offD : BitVec 12 := 0#4 ++ h.extractLsb' 5 2 ++ h.extractLsb' 10 3 ++ 0#3
  let offW : BitVec 12 := 0#5 ++ hbit h 5 ++ h.extractLsb' 10 3 ++ hbit h 6 ++ 0#2
  match (h.extractLsb' 13 3).toNat with
  | 0 =>
    let imm : BitVec 12 :=
      0#2 ++ h.extractLsb' 7 4 ++ h.extractLsb' 11 2 ++ hbit h 5 ++ hbit h 6 ++ 0#2
    if imm = 0 then none else some (.opImm .addi rd' 2 imm)
  | 2 => some (.load .w rd' rs1' offW)
  | 3 => some (.load .d rd' rs1' offD)
  | 6 => some (.store .w rs1' rd' offW)
  | 7 => some (.store .d rs1' rd' offD)
  | _ => none

/-- The register-register group of quadrant 1. -/
def expandC1Alu (h : BitVec 16) : Option Rv :=
  let rd' := cReg h 7
  let rs2' := cReg h 2
  match (h.extractLsb' 10 2).toNat with
  | 0 => some (.shImm .srli rd' rd' (cNzImm6 h))
  | 1 => some (.shImm .srai rd' rd' (cNzImm6 h))
  | 2 => some (.opImm .andi rd' rd' ((cNzImm6 h).signExtend 12))
  | _ =>
    match (hbit h 12 ++ h.extractLsb' 5 2 : BitVec 3).toNat with
    | 0 => some (.alu .sub rd' rd' rs2')
    | 1 => some (.alu .xor rd' rd' rs2')
    | 2 => some (.alu .or rd' rd' rs2')
    | 3 => some (.alu .and rd' rd' rs2')
    | 4 => some (.alu .subw rd' rd' rs2')
    | 5 => some (.alu .addw rd' rd' rs2')
    | _ => none

/-- Quadrant 1. -/
def expandC1 (h : BitVec 16) : Option Rv :=
  let rd : BitVec 5 := h.extractLsb' 7 5
  let imm6 : BitVec 12 := (cNzImm6 h).signExtend 12
  let offJ : BitVec 12 :=
    hbit h 12 ++ hbit h 8 ++ h.extractLsb' 9 2 ++ hbit h 6 ++ hbit h 7 ++ hbit h 2 ++
      hbit h 11 ++ h.extractLsb' 3 3 ++ 0#1
  let offB : BitVec 9 :=
    hbit h 12 ++ h.extractLsb' 5 2 ++ hbit h 2 ++ h.extractLsb' 10 2 ++ h.extractLsb' 3 2 ++ 0#1
  match (h.extractLsb' 13 3).toNat with
  | 0 => some (.opImm .addi rd rd imm6)
  | 1 => if rd = 0 then none else some (.opImm .addiw rd rd imm6)
  | 2 => some (.opImm .addi rd 0 imm6)
  | 3 =>
    if cNzImm6 h = 0 then none
    else if rd = 2 then
      let imm : BitVec 10 :=
        hbit h 12 ++ h.extractLsb' 3 2 ++ hbit h 5 ++ hbit h 2 ++ hbit h 6 ++ 0#4
      some (.opImm .addi 2 2 (imm.signExtend 12))
    else some (.lui rd ((cNzImm6 h).signExtend 20))
  | 4 => expandC1Alu h
  | 5 => some (.jal 0 (offJ.signExtend 21))
  | 6 => some (.branch .eq (cReg h 7) 0 (offB.signExtend 13))
  | _ => some (.branch .ne (cReg h 7) 0 (offB.signExtend 13))

/-- Quadrant 2. -/
def expandC2 (h : BitVec 16) : Option Rv :=
  let rd : BitVec 5 := h.extractLsb' 7 5
  let rs2 : BitVec 5 := h.extractLsb' 2 5
  match (h.extractLsb' 13 3).toNat with
  | 0 => some (.shImm .slli rd rd (cNzImm6 h))
  | 2 =>
    if rd = 0 then none
    else some (.load .w rd 2
      (0#4 ++ h.extractLsb' 2 2 ++ hbit h 12 ++ h.extractLsb' 4 3 ++ 0#2 : BitVec 12))
  | 3 =>
    if rd = 0 then none
    else some (.load .d rd 2
      (0#3 ++ h.extractLsb' 2 3 ++ hbit h 12 ++ h.extractLsb' 5 2 ++ 0#3 : BitVec 12))
  | 4 =>
    if hbit h 12 = 0 then
      if rs2 = 0 then (if rd = 0 then none else some (.jalr 0 rd 0))
      else some (.alu .add rd 0 rs2)
    else
      if rs2 = 0 then (if rd = 0 then some .ebreak else some (.jalr 1 rd 0))
      else some (.alu .add rd rd rs2)
  | 6 =>
    some (.store .w 2 rs2
      (0#4 ++ h.extractLsb' 7 2 ++ h.extractLsb' 9 4 ++ 0#2 : BitVec 12))
  | 7 =>
    some (.store .d 2 rs2
      (0#3 ++ h.extractLsb' 7 3 ++ h.extractLsb' 10 3 ++ 0#3 : BitVec 12))
  | _ => none

/-- The full operation of a compressed halfword; `none` where RV64C without F and D has none. -/
def Rv.expand (h : BitVec 16) : Option Rv :=
  match (h.extractLsb' 0 2).toNat with
  | 0 => expandC0 h
  | 1 => expandC1 h
  | 2 => expandC2 h
  | _ => none

end Sys2Proof
end

