-- ==== Sys2Proof/WellFormed.lean ====
section
/-! DEFINITION. Well-formed instructions: micro-thread words that pass every check of R131
steps 1 to 4, control-thread words whose fields the encoding admits, and steps whose operands
name units that the package has (R6, R14, R16). -/

namespace Sys2Proof

/-- A full RISC-V operation has an encoding: even branch offsets, a five-bit shift amount in
the W forms. -/
def Rv.wf : Rv → Bool
  | .jal _ off => off.toNat % 2 == 0
  | .branch _ _ _ off => off.toNat % 2 == 0
  | .shImm .slliw _ _ sh | .shImm .srliw _ _ sh | .shImm .sraiw _ _ sh
  | .shImm .roriw _ _ sh => sh.toNat < 32
  | _ => true

/-- The acquire and release bits stand only in LR, SC and AMO. -/
def Rv.hasAqrl : Rv → Bool
  | .lr .. | .sc .. | .amo .. => true
  | _ => false

def RvInstr.wf : RvInstr → Bool
  | .full op aqrl => op.wf && (op.hasAqrl || aqrl == 0)
  | .comp h op => Rv.expand h == some op
  | .reserved w => w.toNat % 4 == 3
  | .reserved16 h => h.toNat % 4 != 3 && Rv.expand h == none

def RegRef.wf : RegRef → Bool
  | .csr core _ => core < 1024
  | .device pa => decide (0x4000000000 ≤ pa ∧ pa < 0x4001000000)

def ErrorSite.wf : ErrorSite → Bool
  | .dramLine key => key < 4 * 256 * 201326592
  | .granLine die off => die < 4 && off < 0x2000000
  | .scratchWord core off => core < 1024 && off < 0x80000
  | .laneWord core lane off => core < 1024 && lane < 32 && off < 2048
  | .mailboxLine core line => core < 1024 && line < 128
  | .bankWord core bank entry => core < 1024 && bank < 8 && entry < 4096
  | .schedulerSram die => die < 4

def Spare.wf : Spare → Bool
  | .tile die t => die < 4 && t < 64
  | .l2Way die slice => die < 4 && slice < 256
  | .channel die ch => die < 4 && ch < 256
  | .row die ch _ => die < 4 && ch < 256

/-- The well-formedness check of every row. -/
def Instr.wf (i : Instr) : Bool :=
  match i.ny? with
  | some (op, f) => checkNy op f == none
  | none =>
    match i with
    | .controlThreadRiscvInstruction r => r.wf
    | .unassignedOpcode w => opRow (w.extractLsb' 86 10).toNat |>.isNone
    | .waitingInstructionCompletes c m | .microthreadIdle c m | .sleepDeadline c m
    | .twaitDeadline c m => c < 1024 && m < 16
    | .ctStallCompletes c | .firingStart c | .stageRebalance c | .trapInterruptTaken c
    | .mtresume c _ | .ctxidCtxWrite c _ | .nbvWrite c _ | .mdrainCompletion c
    | .eventUnitAction c | .rgradCompletion c | .tqArrival c | .rankMessageArrival c
    | .launchCoreStart c | .endOfPart c | .coreGate c | .wakeRequest c | .wakeComplete c
    | .rampDownEnd c | .gatingEntryEnd c => c < 1024
    | .footprintFill c a => c < 1024 && a < 32
    | .registerWrite r _ => r.wf
    | .matrixInstructionApplied c flt => c < 1024 && flt.all (·.1 < 4096)
    | .copyElementComplete c _ | .copyCompletion c _ => c < 1024
    | .limiterStep q => q < 16
    | .linkFlitCrcFail p => p < 32
    | .trrheadWrite r _ | .trrbaseWrite r _ => r < 17
    | .lqdb d _ | .launchQueueEntryRead d | .childLaunchAdmit d | .distributorPlace d
    | .migreqGo d _ | .migrationStream d | .migrationSwitch d | .lockstepMismatch d
    | .cpResume d => d < 4
    | .paddockDefine d p _ => d < 4 && p < 16
    | .paddockKill d p | .paddockUnfence d p => d < 4 && p < 17
    | .uncorrectableError e => e.wf
    | .correctedError d q a => d < 4 && q < 4 && a < 8
    | .undervoltStepUp d q | .uvctlLockClear d q => d < 4 && q < 4
    | .spareBind r => r.wf
    | .incarnationSweep ctx v => ctx < 4096 && v < 256
    | .hopEnd t | .droopDetect t _ | .droopEnd t => t < 256
    | .dramRefresh ch | .dramRefreshEnd ch => ch < 1024
    | .attestationRequest nonce => nonce.length == 32
    | .inboundDma _ _ _ | .applicationCoreAccess _ _ => true
    | _ => true

end Sys2Proof
end

