-- ==== Sys2Proof/Decode.lean ====
section
/-! DEFINITION. Decoding: a micro-thread word into its opcode and fields with the checks of
R131, a control-thread word into an extension or RISC-V instruction (R140, R33), and the
encoder of each, from the same encodings. -/

namespace Sys2Proof

/-! ### Operand fields (R125) -/

/-- The operand a 22-bit field names. A field with a non-zero bit where R125 requires zero
reads as the reserved selector 63, which no instruction accepts. -/
def Operand.ofBits (w : BitVec 22) : Operand :=
  let bad : Operand := .special 63
  match (w.extractLsb' 19 3).toNat with
  | 0 => .vreg (w.extractLsb' 13 6) (w.extractLsb' 10 3) (w.extractLsb' 7 3)
      (w.getLsbD 6) (w.getLsbD 5) (w.extractLsb' 0 5)
  | 1 => if w.extractLsb' 5 9 = 0 then .sreg (w.extractLsb' 14 5) (w.extractLsb' 0 5) else bad
  | 2 => .handle (w.extractLsb' 15 4) (w.extractLsb' 9 6) (w.extractLsb' 0 9)
  | 3 => .imm (w.extractLsb' 0 19)
  | 4 => if w.extractLsb' 11 6 = 0 then .nwin (w.extractLsb' 17 2) (w.extractLsb' 0 11) else bad
  | 5 => .role (w.extractLsb' 11 8) (w.extractLsb' 0 11)
  | 6 => if w.extractLsb' 0 16 = 0 then .stream (w.extractLsb' 16 3) else bad
  | _ => if w.extractLsb' 0 13 = 0 then .special (w.extractLsb' 13 6) else bad

/-- The 22 bits of an operand (R125). -/
def Operand.toBits : Operand → BitVec 22
  | .vreg r sel swz neg abs low =>
    0#3 ++ r ++ sel ++ swz ++ BitVec.ofBool neg ++ BitVec.ofBool abs ++ low
  | .sreg r low => 1#3 ++ r ++ 0#9 ++ low
  | .handle h w off => 2#3 ++ h ++ w ++ off
  | .imm v => 3#3 ++ v
  | .nwin p off => 4#3 ++ p ++ 0#6 ++ off
  | .role r off => 5#3 ++ r ++ off
  | .stream q => 6#3 ++ q ++ 0#16
  | .special x => 7#3 ++ x ++ 0#13

/-! ### Micro-thread words (R118) -/

def IWord.op (w : IWord) : BitVec 10 := w.extractLsb' 86 10
def IWord.ty (w : IWord) : BitVec 4 := w.extractLsb' 82 4

/-- The fields of a word whose TY code names the type `t`. -/
def IWord.fields (w : IWord) (t : Ty) : Ny where
  ty := t
  md := w.extractLsb' 76 6
  guard := ⟨w.getLsbD 75, w.extractLsb' 71 4⟩
  hint := ⟨w.getLsbD 70, w.extractLsb' 67 3, w.getLsbD 66⟩
  a := .ofBits (w.extractLsb' 44 22)
  b := .ofBits (w.extractLsb' 22 22)
  c := .ofBits (w.extractLsb' 0 22)

/-- Decodes a micro-thread word by the checks of R131 steps 1 to 4, answering the first that
fails. An unassigned opcode decodes to its own row of the table (R119). -/
def decodeNy (w : IWord) : Except Reject Instr :=
  match opRow w.op.toNat with
  | none => .ok (.unassignedOpcode w)
  | some _ =>
    match Ty.ofCode w.ty.toNat with
    | none => .error ⟨2, 0⟩
    | some t =>
      let f := w.fields t
      match checkNy w.op.toNat f with
      | some r => .error r
      | none =>
        match Instr.ofOp w.op.toNat f with
        | some i => .ok i
        | none => .error ⟨1, 0⟩

/-- The word of an opcode and fields (R118). -/
def Ny.toWord (op : Nat) (f : Ny) : IWord :=
  BitVec.ofNat 10 op ++ BitVec.ofNat 4 f.ty.code ++ f.md ++
    (BitVec.ofBool f.guard.neg ++ f.guard.reg) ++
    (BitVec.ofBool f.hint.yld ++ f.hint.stl ++ BitVec.ofBool f.hint.keep) ++
    f.a.toBits ++ f.b.toBits ++ f.c.toBits

/-! ### The control extension (R140) -/

/-- An R-type word of custom-0 with funct3 0. -/
def encodeExt (f7 : Nat) (rs2 rs1 rd : BitVec 5) : Word :=
  BitVec.ofNat 7 f7 ++ rs2 ++ rs1 ++ 0#3 ++ rd ++ 0x0B#7

/-- The extension instruction of a custom-0 word: funct3 0, funct7 0 to 13, unused register
fields x0 (R140). -/
def decodeExt (w : Word) : Option Instr :=
  let rd : BitVec 5 := w.extractLsb' 7 5
  let rs1 : BitVec 5 := w.extractLsb' 15 5
  let rs2 : BitVec 5 := w.extractLsb' 20 5
  if w.extractLsb' 12 3 ≠ 0#3 then none
  else
    match (w.extractLsb' 25 7).toNat with
    | 0 => some (.sow rd rs1 rs2)
    | 1 => some (.soww rd rs1 rs2)
    | 2 => if rs2 = 0 then some (.mtstat rd rs1) else none
    | 3 => if rs2 = 0 ∧ rd = 0 then some (.mtstop rs1) else none
    | 4 => if rs2 = 0 ∧ rd = 0 then some (.mtrel rs1) else none
    | 5 => if rs2 = 0 then some (.cmdq rd rs1) else none
    | 6 => if rs2 = 0 then some (.cmdqnb rd rs1) else none
    | 7 => if rs2 = 0 then some (.ctinbx rd rs1) else none
    | 8 => some (.ctcwait rd rs1 rs2)
    | 9 => if rs2 = 0 then some (.cttick rd rs1) else none
    | 10 => if rd = 0 then some (.actfire rs1 rs2) else none
    | 11 => if rs2 = 0 ∧ rd = 0 then some (.bindld rs1) else none
    | 12 => if rs2 = 0 then some (.incarn rd rs1) else none
    | 13 => if rs2 = 0 then some (.reclaim rd rs1) else none
    | _ => none

/-- The word of an extension instruction (R140). -/
def extWord? : Instr → Option Word
  | .sow rd rs1 rs2 => some (encodeExt 0 rs2 rs1 rd)
  | .soww rd rs1 rs2 => some (encodeExt 1 rs2 rs1 rd)
  | .mtstat rd rs1 => some (encodeExt 2 0 rs1 rd)
  | .mtstop rs1 => some (encodeExt 3 0 rs1 0)
  | .mtrel rs1 => some (encodeExt 4 0 rs1 0)
  | .cmdq rd rs1 => some (encodeExt 5 0 rs1 rd)
  | .cmdqnb rd rs1 => some (encodeExt 6 0 rs1 rd)
  | .ctinbx rd rs1 => some (encodeExt 7 0 rs1 rd)
  | .ctcwait rd rs1 rs2 => some (encodeExt 8 rs2 rs1 rd)
  | .cttick rd rs1 => some (encodeExt 9 0 rs1 rd)
  | .actfire rs1 rs2 => some (encodeExt 10 rs2 rs1 0)
  | .bindld rs1 => some (encodeExt 11 0 rs1 0)
  | .incarn rd rs1 => some (encodeExt 12 0 rs1 rd)
  | .reclaim rd rs1 => some (encodeExt 13 0 rs1 rd)
  | _ => none

/-! ### RISC-V (R33; encodings of the family, log 6) -/

def decodeBranch (w : Word) : Option Rv :=
  let off : BitVec 13 :=
    w.extractLsb' 31 1 ++ w.extractLsb' 7 1 ++ w.extractLsb' 25 6 ++ w.extractLsb' 8 4 ++ 0#1
  let mk (c : RvBr) : Option Rv := some (.branch c (w.extractLsb' 15 5) (w.extractLsb' 20 5) off)
  match (w.extractLsb' 12 3).toNat with
  | 0 => mk .eq
  | 1 => mk .ne
  | 4 => mk .lt
  | 5 => mk .ge
  | 6 => mk .ltu
  | 7 => mk .geu
  | _ => none

def decodeLoad (w : Word) : Option Rv :=
  let mk (k : RvLd) : Option Rv :=
    some (.load k (w.extractLsb' 7 5) (w.extractLsb' 15 5) (w.extractLsb' 20 12))
  match (w.extractLsb' 12 3).toNat with
  | 0 => mk .b
  | 1 => mk .h
  | 2 => mk .w
  | 3 => mk .d
  | 4 => mk .bu
  | 5 => mk .hu
  | 6 => mk .wu
  | _ => none

def decodeStore (w : Word) : Option Rv :=
  let mk (k : RvSt) : Option Rv :=
    some (.store k (w.extractLsb' 15 5) (w.extractLsb' 20 5)
      (w.extractLsb' 25 7 ++ w.extractLsb' 7 5))
  match (w.extractLsb' 12 3).toNat with
  | 0 => mk .b
  | 1 => mk .h
  | 2 => mk .w
  | 3 => mk .d
  | _ => none

/-- OP-IMM: immediates, shifts of six bits and the one-register operations of Zbb. -/
def decodeOpImm (w : Word) : Option Rv :=
  let rd : BitVec 5 := w.extractLsb' 7 5
  let rs1 : BitVec 5 := w.extractLsb' 15 5
  let imm : BitVec 12 := w.extractLsb' 20 12
  let sh : BitVec 6 := w.extractLsb' 20 6
  match (w.extractLsb' 12 3).toNat with
  | 0 => some (.opImm .addi rd rs1 imm)
  | 2 => some (.opImm .slti rd rs1 imm)
  | 3 => some (.opImm .sltiu rd rs1 imm)
  | 4 => some (.opImm .xori rd rs1 imm)
  | 6 => some (.opImm .ori rd rs1 imm)
  | 7 => some (.opImm .andi rd rs1 imm)
  | 1 =>
    match imm.toNat with
    | 0x600 => some (.unary .clz rd rs1)
    | 0x601 => some (.unary .ctz rd rs1)
    | 0x602 => some (.unary .cpop rd rs1)
    | 0x604 => some (.unary .sextb rd rs1)
    | 0x605 => some (.unary .sexth rd rs1)
    | _ => if imm.extractLsb' 6 6 = 0#6 then some (.shImm .slli rd rs1 sh) else none
  | _ =>
    match imm.toNat with
    | 0x287 => some (.unary .orcb rd rs1)
    | 0x6B8 => some (.unary .rev8 rd rs1)
    | _ =>
      match (imm.extractLsb' 6 6).toNat with
      | 0x00 => some (.shImm .srli rd rs1 sh)
      | 0x10 => some (.shImm .srai rd rs1 sh)
      | 0x18 => some (.shImm .rori rd rs1 sh)
      | _ => none

/-- OP-IMM-32. -/
def decodeOpImm32 (w : Word) : Option Rv :=
  let rd : BitVec 5 := w.extractLsb' 7 5
  let rs1 : BitVec 5 := w.extractLsb' 15 5
  let imm : BitVec 12 := w.extractLsb' 20 12
  let sh5 : BitVec 6 := 0#1 ++ w.extractLsb' 20 5
  match (w.extractLsb' 12 3).toNat with
  | 0 => some (.opImm .addiw rd rs1 imm)
  | 1 =>
    match imm.toNat with
    | 0x600 => some (.unary .clzw rd rs1)
    | 0x601 => some (.unary .ctzw rd rs1)
    | 0x602 => some (.unary .cpopw rd rs1)
    | _ =>
      if imm.extractLsb' 5 7 = 0#7 then some (.shImm .slliw rd rs1 sh5)
      else if imm.extractLsb' 6 6 = 0x02#6 then some (.shImm .slliuw rd rs1 (w.extractLsb' 20 6))
      else none
  | 5 =>
    match (imm.extractLsb' 5 7).toNat with
    | 0x00 => some (.shImm .srliw rd rs1 sh5)
    | 0x20 => some (.shImm .sraiw rd rs1 sh5)
    | 0x30 => some (.shImm .roriw rd rs1 sh5)
    | _ => none
  | _ => none

/-- The operation of OP by funct7 and funct3. -/
def aluOf : Nat → Nat → Option RvAlu
  | 0x00, 0 => some .add | 0x20, 0 => some .sub | 0x00, 1 => some .sll | 0x00, 2 => some .slt
  | 0x00, 3 => some .sltu | 0x00, 4 => some .xor | 0x00, 5 => some .srl | 0x20, 5 => some .sra
  | 0x00, 6 => some .or | 0x00, 7 => some .and
  | 0x01, 0 => some .mul | 0x01, 1 => some .mulh | 0x01, 2 => some .mulhsu
  | 0x01, 3 => some .mulhu | 0x01, 4 => some .div | 0x01, 5 => some .divu
  | 0x01, 6 => some .rem | 0x01, 7 => some .remu
  | 0x10, 2 => some .sh1add | 0x10, 4 => some .sh2add | 0x10, 6 => some .sh3add
  | 0x20, 7 => some .andn | 0x20, 6 => some .orn | 0x20, 4 => some .xnor
  | 0x05, 4 => some .min | 0x05, 5 => some .minu | 0x05, 6 => some .max | 0x05, 7 => some .maxu
  | 0x30, 1 => some .rol | 0x30, 5 => some .ror
  | _, _ => none

/-- The operation of OP-32 by funct7 and funct3. -/
def alu32Of : Nat → Nat → Option RvAlu
  | 0x00, 0 => some .addw | 0x20, 0 => some .subw | 0x00, 1 => some .sllw
  | 0x00, 5 => some .srlw | 0x20, 5 => some .sraw
  | 0x01, 0 => some .mulw | 0x01, 4 => some .divw | 0x01, 5 => some .divuw
  | 0x01, 6 => some .remw | 0x01, 7 => some .remuw
  | 0x04, 0 => some .adduw | 0x10, 2 => some .sh1adduw | 0x10, 4 => some .sh2adduw
  | 0x10, 6 => some .sh3adduw | 0x30, 1 => some .rolw | 0x30, 5 => some .rorw
  | _, _ => none

/-- OP-32 when `w32`, else OP; zext.h is the OP-32 word with funct7 4, funct3 4, rs2 0. -/
def decodeAlu (w : Word) (w32 : Bool) : Option Rv :=
  let rd : BitVec 5 := w.extractLsb' 7 5
  let rs1 : BitVec 5 := w.extractLsb' 15 5
  let rs2 : BitVec 5 := w.extractLsb' 20 5
  let f7 := (w.extractLsb' 25 7).toNat
  let f3 := (w.extractLsb' 12 3).toNat
  if w32 && f7 == 0x04 && f3 == 4 then (if rs2 = 0 then some (.unary .zexth rd rs1) else none)
  else ((if w32 then alu32Of f7 f3 else aluOf f7 f3)).map (.alu · rd rs1 rs2)

def amoOf : Nat → Option RvAmo
  | 0x01 => some .swap | 0x00 => some .add | 0x04 => some .xor | 0x0C => some .and
  | 0x08 => some .or | 0x10 => some .min | 0x14 => some .max | 0x18 => some .minu
  | 0x1C => some .maxu | _ => none

def decodeAmo (w : Word) : Option Rv :=
  let rd : BitVec 5 := w.extractLsb' 7 5
  let rs1 : BitVec 5 := w.extractLsb' 15 5
  let rs2 : BitVec 5 := w.extractLsb' 20 5
  let f5 := (w.extractLsb' 27 5).toNat
  let go (dbl : Bool) : Option Rv :=
    match f5 with
    | 0x02 => if rs2 = 0 then some (.lr dbl rd rs1) else none
    | 0x03 => some (.sc dbl rd rs1 rs2)
    | _ => (amoOf f5).map (.amo · dbl rd rs1 rs2)
  match (w.extractLsb' 12 3).toNat with
  | 2 => go false
  | 3 => go true
  | _ => none

def decodeSystem (w : Word) : Option Rv :=
  let rd : BitVec 5 := w.extractLsb' 7 5
  let rs1 : BitVec 5 := w.extractLsb' 15 5
  let num : BitVec 12 := w.extractLsb' 20 12
  match (w.extractLsb' 12 3).toNat with
  | 0 =>
    if rd ≠ 0 then none
    else if w.extractLsb' 25 7 = 0x09#7 then some (.sfenceVma rs1 (w.extractLsb' 20 5))
    else if rs1 ≠ 0 then none
    else
      match num.toNat with
      | 0x000 => some .ecall
      | 0x001 => some .ebreak
      | 0x302 => some .mret
      | 0x102 => some .sret
      | 0x105 => some .wfi
      | _ => none
  | 1 => some (.csr .rw false rd rs1 num)
  | 2 => some (.csr .rs false rd rs1 num)
  | 3 => some (.csr .rc false rd rs1 num)
  | 5 => some (.csr .rw true rd rs1 num)
  | 6 => some (.csr .rs true rd rs1 num)
  | 7 => some (.csr .rc true rd rs1 num)
  | _ => none

/-- A 32-bit word outside the extension. FENCE ignores its reserved fields, as the family
does (log 6). -/
def decodeRv (w : Word) : Option Rv :=
  let rd : BitVec 5 := w.extractLsb' 7 5
  let rs1 : BitVec 5 := w.extractLsb' 15 5
  match (w.extractLsb' 0 7).toNat with
  | 0x37 => some (.lui rd (w.extractLsb' 12 20))
  | 0x17 => some (.auipc rd (w.extractLsb' 12 20))
  | 0x6F =>
    some (.jal rd (w.extractLsb' 31 1 ++ w.extractLsb' 12 8 ++ w.extractLsb' 20 1 ++
      w.extractLsb' 21 10 ++ 0#1))
  | 0x67 => if w.extractLsb' 12 3 = 0#3 then some (.jalr rd rs1 (w.extractLsb' 20 12)) else none
  | 0x63 => decodeBranch w
  | 0x03 => decodeLoad w
  | 0x23 => decodeStore w
  | 0x13 => decodeOpImm w
  | 0x1B => decodeOpImm32 w
  | 0x33 => decodeAlu w false
  | 0x3B => decodeAlu w true
  | 0x2F => decodeAmo w
  | 0x0F =>
    match (w.extractLsb' 12 3).toNat with
    | 0 => some .fence
    | 1 => some .fenceI
    | _ => none
  | 0x73 => decodeSystem w
  | _ => none

def RvBr.f3 : RvBr → BitVec 3
  | .eq => 0 | .ne => 1 | .lt => 4 | .ge => 5 | .ltu => 6 | .geu => 7
def RvLd.f3 : RvLd → BitVec 3
  | .b => 0 | .h => 1 | .w => 2 | .d => 3 | .bu => 4 | .hu => 5 | .wu => 6
def RvSt.f3 : RvSt → BitVec 3
  | .b => 0 | .h => 1 | .w => 2 | .d => 3

/-- funct7 and funct3 of a register operation, and whether it is of OP-32. -/
def RvAlu.codes : RvAlu → BitVec 7 × BitVec 3 × Bool
  | .add => (0x00, 0, false) | .sub => (0x20, 0, false) | .sll => (0x00, 1, false)
  | .slt => (0x00, 2, false) | .sltu => (0x00, 3, false) | .xor => (0x00, 4, false)
  | .srl => (0x00, 5, false) | .sra => (0x20, 5, false) | .or => (0x00, 6, false)
  | .and => (0x00, 7, false)
  | .addw => (0x00, 0, true) | .subw => (0x20, 0, true) | .sllw => (0x00, 1, true)
  | .srlw => (0x00, 5, true) | .sraw => (0x20, 5, true)
  | .mul => (0x01, 0, false) | .mulh => (0x01, 1, false) | .mulhsu => (0x01, 2, false)
  | .mulhu => (0x01, 3, false) | .div => (0x01, 4, false) | .divu => (0x01, 5, false)
  | .rem => (0x01, 6, false) | .remu => (0x01, 7, false)
  | .mulw => (0x01, 0, true) | .divw => (0x01, 4, true) | .divuw => (0x01, 5, true)
  | .remw => (0x01, 6, true) | .remuw => (0x01, 7, true)
  | .sh1add => (0x10, 2, false) | .sh2add => (0x10, 4, false) | .sh3add => (0x10, 6, false)
  | .adduw => (0x04, 0, true) | .sh1adduw => (0x10, 2, true) | .sh2adduw => (0x10, 4, true)
  | .sh3adduw => (0x10, 6, true)
  | .andn => (0x20, 7, false) | .orn => (0x20, 6, false) | .xnor => (0x20, 4, false)
  | .max => (0x05, 6, false) | .maxu => (0x05, 7, false) | .min => (0x05, 4, false)
  | .minu => (0x05, 5, false)
  | .rol => (0x30, 1, false) | .ror => (0x30, 5, false)
  | .rolw => (0x30, 1, true) | .rorw => (0x30, 5, true)

/-- The 12-bit immediate, funct3 and opcode of a one-register operation. -/
def RvUn.codes : RvUn → BitVec 12 × BitVec 3 × BitVec 7
  | .clz => (0x600, 1, 0x13) | .ctz => (0x601, 1, 0x13) | .cpop => (0x602, 1, 0x13)
  | .clzw => (0x600, 1, 0x1B) | .ctzw => (0x601, 1, 0x1B) | .cpopw => (0x602, 1, 0x1B)
  | .sextb => (0x604, 1, 0x13) | .sexth => (0x605, 1, 0x13) | .zexth => (0x080, 4, 0x3B)
  | .orcb => (0x287, 5, 0x13) | .rev8 => (0x6B8, 5, 0x13)

/-- The high six bits, funct3 and opcode of a shift by immediate. -/
def RvSh.codes : RvSh → BitVec 6 × BitVec 3 × BitVec 7
  | .slli => (0x00, 1, 0x13) | .srli => (0x00, 5, 0x13) | .srai => (0x10, 5, 0x13)
  | .rori => (0x18, 5, 0x13) | .slliuw => (0x02, 1, 0x1B) | .slliw => (0x00, 1, 0x1B)
  | .srliw => (0x00, 5, 0x1B) | .sraiw => (0x10, 5, 0x1B) | .roriw => (0x18, 5, 0x1B)

def RvImm.codes : RvImm → BitVec 3 × BitVec 7
  | .addi => (0, 0x13) | .slti => (2, 0x13) | .sltiu => (3, 0x13) | .xori => (4, 0x13)
  | .ori => (6, 0x13) | .andi => (7, 0x13) | .addiw => (0, 0x1B)

def RvAmo.f5 : RvAmo → BitVec 5
  | .swap => 0x01 | .add => 0x00 | .xor => 0x04 | .and => 0x0C | .or => 0x08 | .min => 0x10
  | .max => 0x14 | .minu => 0x18 | .maxu => 0x1C

def RvCsr.f3 (k : RvCsr) (useImm : Bool) : BitVec 3 :=
  BitVec.ofBool useImm ++ (match k with | .rw => 1#2 | .rs => 2#2 | .rc => 3#2)

/-- The 32-bit word of a full RISC-V operation. -/
def Rv.toWord (aqrl : BitVec 2) : Rv → Word
  | .lui rd imm => imm ++ rd ++ 0x37#7
  | .auipc rd imm => imm ++ rd ++ 0x17#7
  | .jal rd off =>
    off.extractLsb' 20 1 ++ off.extractLsb' 1 10 ++ off.extractLsb' 11 1 ++
      off.extractLsb' 12 8 ++ rd ++ 0x6F#7
  | .jalr rd rs1 imm => imm ++ rs1 ++ 0#3 ++ rd ++ 0x67#7
  | .branch c rs1 rs2 off =>
    off.extractLsb' 12 1 ++ off.extractLsb' 5 6 ++ rs2 ++ rs1 ++ c.f3 ++
      off.extractLsb' 1 4 ++ off.extractLsb' 11 1 ++ 0x63#7
  | .load k rd rs1 imm => imm ++ rs1 ++ k.f3 ++ rd ++ 0x03#7
  | .store k rs1 rs2 imm =>
    imm.extractLsb' 5 7 ++ rs2 ++ rs1 ++ k.f3 ++ imm.extractLsb' 0 5 ++ 0x23#7
  | .opImm k rd rs1 imm => imm ++ rs1 ++ k.codes.1 ++ rd ++ k.codes.2
  | .shImm k rd rs1 sh => k.codes.1 ++ sh ++ rs1 ++ k.codes.2.1 ++ rd ++ k.codes.2.2
  | .unary k rd rs1 => k.codes.1 ++ rs1 ++ k.codes.2.1 ++ rd ++ k.codes.2.2
  | .alu k rd rs1 rs2 =>
    k.codes.1 ++ rs2 ++ rs1 ++ k.codes.2.1 ++ rd ++ (if k.codes.2.2 then 0x3B#7 else 0x33#7)
  | .lr dbl rd rs1 => 0x02#5 ++ aqrl ++ 0#5 ++ rs1 ++ (if dbl then 3#3 else 2#3) ++ rd ++ 0x2F#7
  | .sc dbl rd rs1 rs2 =>
    0x03#5 ++ aqrl ++ rs2 ++ rs1 ++ (if dbl then 3#3 else 2#3) ++ rd ++ 0x2F#7
  | .amo k dbl rd rs1 rs2 =>
    k.f5 ++ aqrl ++ rs2 ++ rs1 ++ (if dbl then 3#3 else 2#3) ++ rd ++ 0x2F#7
  | .csr k ui rd rs1 num => num ++ rs1 ++ k.f3 ui ++ rd ++ 0x73#7
  | .fence => 0x0FF0000F#32
  | .fenceI => 0x0000100F#32
  | .ecall => 0x00000073#32
  | .ebreak => 0x00100073#32
  | .mret => 0x30200073#32
  | .sret => 0x10200073#32
  | .wfi => 0x10500073#32
  | .sfenceVma rs1 rs2 => 0x09#7 ++ rs2 ++ rs1 ++ 0#3 ++ 0#5 ++ 0x73#7

/-- Decodes the control thread's next instruction from the 32 bits at its pc; a compressed
instruction reads only the low 16. It is total: a word that names no instruction is a
`reserved` one, whose effect is the illegal-instruction exception (R140). -/
def decodeCt (w : Word) : Instr :=
  let h : BitVec 16 := w.extractLsb' 0 16
  if w.extractLsb' 0 2 = 3#2 then
    if w.extractLsb' 0 7 = 0x0B#7 then
      match decodeExt w with
      | some i => i
      | none => .controlThreadRiscvInstruction (.reserved w)
    else
      match decodeRv w with
      | some r =>
        .controlThreadRiscvInstruction (.full r (if r.hasAqrl then w.extractLsb' 25 2 else 0))
      | none => .controlThreadRiscvInstruction (.reserved w)
  else
    match Rv.expand h with
    | some r => .controlThreadRiscvInstruction (.comp h r)
    | none => .controlThreadRiscvInstruction (.reserved16 h)

/-! ### Bytes -/

/-- Little-endian bytes of a number (R2). -/
def leBytes : Nat → Nat → List Byte
  | 0, _ => []
  | n + 1, v => BitVec.ofNat 8 v :: leBytes n (v / 256)

/-- The number little-endian bytes hold (R2). -/
def leNat : List Byte → Nat
  | [] => 0
  | b :: bs => b.toNat + 256 * leNat bs

/-- The bytes of an instruction as memory holds them; a step of the machine has none. -/
def encode (i : Instr) : Option (List Byte) :=
  match i.ny? with
  | some (op, f) => some (leBytes 12 (f.toWord op).toNat)
  | none =>
    match extWord? i with
    | some w => some (leBytes 4 w.toNat)
    | none =>
      match i with
      | .unassignedOpcode w => some (leBytes 12 w.toNat)
      | .controlThreadRiscvInstruction (.full op aqrl) => some (leBytes 4 (op.toWord aqrl).toNat)
      | .controlThreadRiscvInstruction (.comp h _) => some (leBytes 2 h.toNat)
      | .controlThreadRiscvInstruction (.reserved w) => some (leBytes 4 w.toNat)
      | .controlThreadRiscvInstruction (.reserved16 h) => some (leBytes 2 h.toNat)
      | _ => none

/-- The instruction the decoder reads from an instruction whose bits are `w`, numbered as the
opcode table numbers them; above 32 bits the word is a micro-thread's, up to 32 a control
thread's (R141). -/
def decodeTableWord (nbits w : Nat) : Option Instr :=
  if nbits ≤ 32 then
    match decodeCt (BitVec.ofNat 32 (w % 2 ^ nbits)) with
    | .controlThreadRiscvInstruction (.reserved _) => none
    | .controlThreadRiscvInstruction (.reserved16 _) => none
    | i => some i
  else (decodeNy (BitVec.ofNat 96 (w % 2 ^ nbits))).toOption

end Sys2Proof
end

