-- ==== Sys2Proof/Machine/State.lean ====
section
/-! DEFINITION. The state of one package as plain data: 1,024 cores with their control thread,
micro-threads, engines and queues, the memories, the fabric, the command processors and the
power machinery (R14 to R17); the stops; and the state after reset (R319). -/

namespace Sys2Proof.Machine

/-- Why a step stops with a fault. -/
inductive Fault
  /-- Raised by `step` when `turn` names a core or micro-thread that the package does not have.
  Safe: no turn of a real package does. -/
  | noSuchAgent
  /-- Raised by `step` when `turn` offers, as a step without a word, an instruction that has
  one. Safe: such an instruction is executed by its thread only. -/
  | notAnEvent
  deriving DecidableEq, Repr

/-- Why an instruction has no meaning. -/
inductive Refusal
  /-- Raised by `exec` for an instruction that has no meaning yet. Safe: the machine stops. -/
  | notModelled (mnemonic : String)
  deriving DecidableEq, Repr

/-- A sparse array: pairs of index and value, indices rising; an index that is not listed holds
the array's rest value. -/
abbrev Cells (α : Type) := List (Nat × α)

/-- Bytes by address, in the same form, resting at zero (log 4). -/
abbrev Memory := List Host.Cell

/-! ### Trap records (R346, R347) -/

structure TrapRec where
  srck : Nat
  mt : Nat
  core : Nat
  ctx : BitVec 12
  inc : BitVec 8
  late : Bool
  detail : Nat
  code : Nat
  seq : BitVec 16
  memb : Option Nat
  pc : DWord
  addr : DWord
  repcnt : Nat
  rkcnt : Nat
  info : Word
  time : Nat
  aux : BitVec 128
  deriving DecidableEq, Repr

/-! ### Micro-threads (R35 to R41) -/

/-- The states of R38; the codes are those of MTSTAT (R39). -/
inductive MtSt | idle | sown | running | waiting | stopping
  deriving DecidableEq, Repr

/-- A handle's binding (R213). -/
structure Handle where
  qcb : DWord
  key : Nat
  prod : Bool
  spc : Nat
  base : Nat
  nslot : Nat
  slot : Nat
  port : Option Nat
  deriving DecidableEq, Repr

/-- A stream register (R218). `words`: arrived and not read; `fin`: the copy posts no more;
`bad`: it failed. -/
inductive StreamReg
  | idle
  | armed
  | bound (seq : BitVec 16) (words : List Word) (fin bad : Bool)
  deriving DecidableEq, Repr

/-- The seed block a micro-thread holds, with the continuation that BFETCH named (R37). -/
structure SeedBlock where
  base : DWord
  words : List IWord
  cont : Option DWord
  deriving DecidableEq, Repr

/-- A REP run: its n and the steps of the three fields (R116). -/
structure RepRun where
  n : Nat
  sa : Nat
  sb : Nat
  sc : Nat
  deriving DecidableEq, Repr

/-- Gang membership, with the members' core numbers ascending (R53). -/
inductive GangRole
  | leader (members : List Nat)
  | follower (leader : Nat)
  deriving DecidableEq, Repr

/-- A barrier of a launch (R223). -/
structure BarKey where
  scope : Nat
  unit : Nat
  launch : Nat
  id : Nat
  deriving DecidableEq, Repr

structure Mt where
  st : MtSt
  pc : DWord
  /-- Vector registers: index register × 32 + lane. -/
  v : Cells Word
  s : Cells Word
  /-- Predicates: one bit per lane. -/
  p : Cells Word
  h : Cells Handle
  hgen : Cells (BitVec 8)
  q : Cells StreamReg
  block : Option SeedBlock
  repcnt : Nat
  rep : Option RepRun
  rkcnt : Nat
  rsn : Nat
  rsthr : Word
  rsstat : Word
  tdead : Nat
  /-- The predicate of a TWAIT that bounds the next instruction (R202). -/
  bound : Option Nat
  /-- Phase recorded by BARA, index scope × 16 + identifier (R224). -/
  bph : Cells (BarKey × Nat)
  /-- Phase of a BAR that has arrived and waits. -/
  arrived : Option (BarKey × Nat)
  sig : Bool
  rel : Bool
  /-- The record of the trap that holds the thread (R348), and whether its slot was written. -/
  hold : Option (TrapRec × Bool)
  /-- The blocking instruction of a waiting thread (R38). -/
  blocked : Option Instr
  /-- The requests of a paired core's atomic that are on their way: lane and PSEQ (R377). -/
  asked : List (Nat × Nat)
  /-- An MTSTOP has come while such requests are on their way: it acts at the boundary after them (R40). -/
  stopDue : Bool
  gang : Option GangRole
  /-- Actor and index of the firing that runs here (R45). -/
  fire : Option (Nat × Nat)
  /-- Time before which the last stall hint lets nothing issue, and the thread's place in the age
  order, the lowest oldest (R124, R298). -/
  stl : Nat
  age : Nat
  region : BitVec 16
  /-- The next instruction matches no comparator (R363). -/
  resumed : Bool
  /-- Under SYNC, the asynchronous operations of the step that have not completed, by core and
  SEQ (R364). -/
  stepping : List (Nat × BitVec 16)
  /-- The step has ended and its trap waits for those operations. -/
  stepDue : Bool
  deriving DecidableEq, Repr

def Mt.init : Mt where
  st := .idle
  pc := 0
  v := []
  s := []
  p := []
  h := []
  hgen := []
  q := []
  block := none
  repcnt := 0
  rep := none
  rkcnt := 0
  rsn := 4096
  rsthr := 0
  rsstat := 0
  tdead := 0
  bound := none
  bph := []
  arrived := none
  sig := false
  rel := false
  hold := none
  blocked := none
  asked := []
  stopDue := false
  gang := none
  fire := none
  stl := 0
  age := 0
  region := 0
  resumed := false
  stepping := []
  stepDue := false

/-! ### The control thread (R33) -/

inductive Priv | user | supervisor | machine
  deriving DecidableEq, Repr

structure Hart where
  x : Cells DWord
  pc : DWord
  priv : Priv
  mstatus : DWord
  medeleg : DWord
  mideleg : DWord
  mie : DWord
  mip : DWord
  mtvec : DWord
  mcounteren : DWord
  mscratch : DWord
  mepc : DWord
  mcause : DWord
  mtval : DWord
  menvcfg : DWord
  mcountinhibit : DWord
  /-- mcycle less the cycles counted so far while it runs, its value while it is inhibited; and
  minstret (R33). -/
  mcycle : DWord
  minstret : DWord
  stvec : DWord
  scounteren : DWord
  senvcfg : DWord
  sscratch : DWord
  sepc : DWord
  scause : DWord
  stval : DWord
  satp : DWord
  /-- LR reservation: kind and address of the place, whether it is a doubleword. -/
  resv : Option (Nat × Nat × Bool)
  wfi : Bool
  /-- The stalled extension instruction or register write (R254, R76, R110). -/
  stall : Option Instr
  /-- The request whose completion ends the step of a CMDQ under CSTEP and SYNC (R364). -/
  sync : Option (BitVec 16)
  /-- An ECALL with a7 = 0 has ended the core's part (R300). -/
  partEnd : Bool
  /-- PSEQ of the request of a paired core's AMO that is on its way (R377). -/
  asked : Option Nat
  region : BitVec 16
  deriving DecidableEq, Repr

/-- mideleg[17:16] read as 1 (R350); mstatus holds UXL and SXL 2 and MPP 0 (log 6). -/
def Hart.init : Hart where
  x := []
  pc := Config.resetPc
  priv := .machine
  mstatus := 0x0000000A00000000
  medeleg := 0
  mideleg := 0x30000
  mie := 0
  mip := 0
  mtvec := 0
  mcounteren := 0
  mscratch := 0
  mepc := 0
  mcause := 0
  mtval := 0
  menvcfg := 0
  mcountinhibit := 0
  mcycle := 0
  minstret := 0
  stvec := 0
  scounteren := 0
  senvcfg := 0
  sscratch := 0
  sepc := 0
  scause := 0
  stval := 0
  satp := 0
  resv := none
  wfi := false
  stall := none
  sync := none
  partEnd := false
  asked := none
  region := 0

/-! ### Actors (R42 to R46) -/

structure Actor where
  seed : DWord
  ctrl : Word
  inp : List DWord
  outp : List DWord
  foot : List (BitVec 128)
  en : Bool
  /-- The FETCH ranges have been filled for the next firing. -/
  filled : Bool
  deriving DecidableEq, Repr

/-- A firing that has not retired: its stage, those of its micro-threads that are not idle, by
port (0 to 3 input, 4 to 7 output) its queues and reservations, the (micro-thread, handle) pairs
it loaded, and its pinned ranges. -/
structure Firing where
  actor : Nat
  stage : Nat
  mts : List Nat
  keys : Cells Nat
  binds : List (Nat × Nat)
  res : Cells Nat
  pins : List (Nat × Nat)
  deriving DecidableEq, Repr

/-! ### Engines -/

/-- An exact value: NaN, an infinity, or (-1)^neg × mag × 2^e (R95). -/
inductive FVal
  | nan
  | inf (neg : Bool)
  | fin (neg : Bool) (mag : Nat) (e : Int)
  deriving DecidableEq, Repr

/-- A request of four 64-bit words (R247). -/
structure CopyReq where
  w0 : DWord
  w1 : DWord
  w2 : DWord
  w3 : DWord
  deriving DecidableEq, Repr

/-- A copy or gather under way (R249): the elements before `next` are done, and those in `ahead`
with the dense bytes that a stream has not had yet. -/
structure CopyOp where
  req : CopyReq
  mask : Option (BitVec 256)
  mt : Nat
  ct : Bool
  seq : BitVec 16
  stream : Option Nat
  /-- Multicast targets, the group taken for them (R309), and the producer queue with the
  handle's port, resolved when CPY acted (R251, R215). -/
  targets : List Nat
  grp : Nat
  queue : Option (Nat × Option Nat)
  /-- The producer handle of that queue. -/
  qhandle : Nat
  desc : Option (BitVec 512)
  next : Nat
  ahead : List (Nat × List Byte)
  total : Nat
  status : Nat
  offs : Nat
  /-- Bytes of the current dense word not yet posted to the stream. -/
  part : List Byte
  /-- Elements of a reduction not yet sent: line, byte in the line, bytes. -/
  red : List (Nat × Nat × List Byte)
  /-- The copy has been started: it left the dispatch queue (R232). -/
  started : Bool
  /-- Its reads that are still to come, by DRAM channel (R340). -/
  reads : Cells Nat
  /-- What its completion has done: 1 asked for the handle's advance, 2 advanced it, 3 written the
  count of a gather (R215, R253). -/
  stage : Nat
  deriving DecidableEq, Repr

inductive MxKind
  | chbeg (dual : Bool)
  | mma (sparse : Bool) (ty : Ty) (la lb : Word) (sa sb : List Word) (keep : Bool)
  | zero
  | fill (addr : Nat)
  | drain (bf16 : Bool) (addr : Nat) (tag : BitVec 16)
  deriving DecidableEq, Repr

structure MxOp where
  kind : MxKind
  acc : Nat
  mt : Nat
  seq : BitVec 16
  /-- Dispatch number of the CHBEG of the .dual chain it belongs to (R243). -/
  dual : Option (BitVec 16)
  /-- It is a chain's matrix start, and needs a grant (R326). -/
  start : Bool
  /-- Its chain is open or closed after it: a chain of its own closes itself (R241). -/
  lone : Bool
  /-- The numeric behaviour version at its issue (R110). -/
  nbv : BitVec 2
  /-- Its place in the core's issue order (R233). -/
  ord : Nat
  deriving DecidableEq, Repr

/-- The open chain (R241). -/
structure Chain where
  owner : Nat
  seq : BitVec 16
  dual : Bool
  started : Bool
  holds : List Nat
  deriving DecidableEq, Repr

/-- An operand-cache entry (R244): the tag and the tile's bytes in element-index order. -/
structure TileEntry where
  layout : Nat
  ty : Ty
  sparse : Bool
  gen : Nat
  keep : Bool
  data : List Byte
  deriving DecidableEq, Repr

structure Matrix where
  queue : List MxOp
  chain : Option Chain
  cache : List TileEntry
  spgen : BitVec 8
  /-- Ramp entry in force, 0 when quiet (R327). -/
  ramp : Nat
  down : Bool
  granted : Bool
  deriving DecidableEq, Repr

/-- A bank (R233, R263, R264). `shadow`: the second results of a .dual chain with the SEQ of
its CHBEG (R243). -/
structure Bank where
  val : Cells Word
  stw : Cells Word
  modew : Word
  lambda : Word
  theta : Word
  dec : Word
  margin : Word
  wmax : Word
  kl : Option Nat
  shadow : Option (Cells Word × BitVec 16)
  deriving DecidableEq, Repr

def Bank.init : Bank := ⟨[], [], 0, 0, 0, 0, 0, 0, none, none⟩

/-- A declared producer, resolved (R268): role, unit, weight rows. -/
structure Producer where
  role : Nat
  core : Nat
  mt : Option Nat
  cbase : Nat
  nch : Nat
  deriving DecidableEq, Repr

/-- A frontier (R270). -/
inductive Front
  | none
  | at (t : Nat)
  | ended
  deriving DecidableEq, Repr

/-- A held entry: producer index, tick, address or channel, last and sign flags. -/
structure HeldEntry where
  pix : Nat
  tick : Nat
  addr : Nat
  sgn : Bool
  deriving DecidableEq, Repr

structure TimeQueue where
  cfg : Bool
  prods : List Producer
  front : Cells Front
  held : List HeldEntry
  drop : Nat
  /-- Actor and input port the queue is bound to (R271). -/
  act : Option (Nat × Nat)
  deriving DecidableEq, Repr

inductive WindrowSt | unconfigured | opened | cut | finished
  deriving DecidableEq, Repr

structure Windrow where
  st : WindrowSt
  owner : Nat
  prods : List Producer
  front : Cells Front
  held : List HeldEntry
  cutcnt : Nat
  wasCut : Bool
  log : Option Nat
  deriving DecidableEq, Repr

/-- A rank parameter block as read (R280). -/
structure RankBlock where
  wbase : Nat
  rstr : Nat
  sce : Bool
  sbase : Nat
  n0 : Nat
  nw : Nat
  dbase : Nat
  goff : Nat
  rhot : Word
  deriving DecidableEq, Repr

/-- What RGRAD fixes at issue (R283): endpoint and core of the producer, its mailbox word, its
index, weight rows and channels, the log and its length, the block, the type and .tail. -/
structure GradOp where
  ep : Nat
  core : Nat
  word : Nat
  pix : Nat
  cbase : Nat
  nch : Nat
  logb : Nat
  rkcnt : Nat
  blk : RankBlock
  ty : Ty
  tail : Bool
  nbv : BitVec 2
  /-- Its gradient is on its way, and its signal after that; the STATUS, and with one the first byte not
  written. -/
  sent : Bool
  signalled : Bool
  status : Nat
  offs : Nat
  deriving DecidableEq, Repr

/-- An event-unit action with the operands its instruction read (R262). Targets are endpoints;
`solo`: the role names one core. -/
inductive EvKind
  | ncfg (acc : Nat) (modew lambda theta dec margin wmax : Word)
  | nint (acc n0 : Nat) (w : List FVal)
  | nleak (acc : Nat)
  | nfire (solo : Bool) (targets : List Nat) (acc : Nat)
  | send (solo : Bool) (targets : List Nat) (words : List Word)
  | racc (acc n0 k : Nat) (a : FVal) (w : List FVal)
  | rsend (target : Nat) (entries : List Word)
  | rgrad (g : GradOp)
  deriving DecidableEq, Repr

structure EvOp where
  kind : EvKind
  mt : Nat
  seq : BitVec 16
  /-- Its place in the core's issue order (R233). -/
  ord : Nat
  deriving DecidableEq, Repr

/-- An inbox record (R227). -/
structure InboxRec where
  info : Word
  offs : Word
  seq : BitVec 16
  status : Nat
  kind : Nat
  tag : BitVec 16
  deriving DecidableEq, Repr

/-- A dispatch-ring entry (R353). -/
structure DispatchEntry where
  seq : BitVec 16
  pc : BitVec 48
  op : BitVec 10
  mt : Nat
  ct : Bool
  av : Word
  bv : Word
  cv : Word
  deriving DecidableEq, Repr

/-- What raises a trap: cause and DETAIL (R346, R367), ADDR, AUX [127:96] (R368), INFO, and the
AUX of a memory-model exception (R375). -/
structure Exn where
  code : Nat
  detail : Nat
  addr : DWord
  val : Word
  info : Word
  aux : Option (BitVec 128)
  deriving DecidableEq, Repr

/-- A partial of a reduction for one destination line (R109, R250): the copy's core and SEQ,
the slice index where one applies, L, the operation as ATOM numbers it, and elements by byte of
the line. -/
structure Partial where
  core : Nat
  mt : Nat
  ctx : BitVec 12
  inc : BitVec 8
  seq : BitVec 16
  line : Nat
  slice : Option Nat
  slices : Nat
  op : Nat
  ty : Ty
  data : List (Nat × List Byte)
  deriving DecidableEq, Repr

/-- What an atomic does to its place: an ATOM or ATRED of a type, a CAS, a counter's increment, an
AMO of the control thread, the step of a queue's producer or consumer pointer (R219 to R221, R226,
R215). -/
inductive RmwOp
  | atom (aop : Nat) (ty : Ty) (v : Word)
  | cas (c v : Word)
  | counter (inc : Nat) (err : Bool)
  | amo (k : RvAmo) (v : Nat)
  | advance (prod : Bool) (n : Nat)
  deriving DecidableEq, Repr

/-- What a message asks its destination to do (R306). -/
inductive Payload
  | signal (core word : Nat) (value : Word) (dom : Bool)
  | atred (core word aop : Nat) (ty : Ty) (value : Word)
  | nibble (space core addr : Nat) (high : Bool) (value : BitVec 4)
  | event (core sender smt : Nat) (word : Word)
  | rank (core sender smt : Nat) (entries : List Word) (fin : Bool)
  | partialSum (p : Partial)
  /-- A store: its place (kind 0 DRAM, 1 granary, 2 remote, 3 scratchpad) and bytes. -/
  | store (kind at_ : Nat) (data : List Byte)
  /-- An engine's write of some bytes of a word, by their offsets from its first (R249). -/
  | merge (kind at_ : Nat) (data : Cells Byte)
  /-- An atomic of a paired core on such a place, or on a queue home (kind 4), a device register (5) or
  a PCIe window (6) (R377, R378). -/
  | rmw (kind at_ size : Nat) (op : RmwOp)
  /-- A device write of a paired core (R378). -/
  | device (pa n : Nat) (v : DWord)
  /-- An arrival of a paired core at a barrier, with the expected count (R223, R378). -/
  | arrival (key : BarKey) (k : Nat)
  /-- A child launch of a paired core: the SEQ of its request, the request and the level (R256). -/
  | launch (seq : BitVec 16) (req : CopyReq) (level : Nat)
  | trapRecord (rec : TrapRec)
  | notify (node : Nat)
  | marker (core ep cls : Nat)
  deriving DecidableEq, Repr

/-- A message of an agent to memory that is not performed yet: the agent, its region at the issue,
and the payload (R81, R379). -/
structure OwnStore where
  agent : Word
  rsn : BitVec 16
  pl : Payload
  deriving DecidableEq, Repr

/-- A store of a micro-thread to a scratchpad that is performed later (R84): the space (6: NWIN),
the scratchpad's core, the offset, the word, and whether it is a signal write. -/
structure LateStore where
  mt : Nat
  spc : Nat
  pad : Nat
  off : Nat
  data : Word
  full : Bool
  deriving DecidableEq, Repr

/-- A word of a scratchpad that a micro-thread's load has read early (R84). -/
structure EarlyLoad where
  mt : Nat
  spc : Nat
  pad : Nat
  off : Nat
  word : Word
  deriving DecidableEq, Repr

/-- Late stores that are performed and early loads that are forgotten, by core and place in its list,
and words that are read early, by core, micro-thread, whether through .clus, and offset. -/
structure PadMoves where
  done : List (Nat × Nat)
  gone : List (Nat × Nat)
  read : List (Nat × Nat × Bool × Nat)
  deriving DecidableEq, Repr

/-- Power gating of a core (R329, R401): its break-even hold, its entry with whether a wake
request has come, and its place at the in-rush arbiter. -/
inductive Gate
  | on
  | hold (since : Nat)
  | entering (since : Nat) (wake : Bool)
  | gated
  | waiting
  | waking (since : Nat)
  deriving DecidableEq, Repr

/-- The pair a core of a paired launch belongs to (R376, R378). -/
structure PairInfo where
  id : Nat
  twin : Bool
  other : Nat
  pseq : Nat
  deriving DecidableEq, Repr

structure Core where
  ct : Hart
  mts : Cells Mt
  -- memories (R16, R63 to R71)
  scratch : Memory
  lane : Memory
  mbox : Memory
  winFull : Cells Bool
  mboxFull : Cells Bool
  /-- The word was last written from another package (R71). -/
  mboxDom : Cells Bool
  links : Cells (List (Cells Word))
  -- actors and roles
  actors : Cells Actor
  firings : List Firing
  lastFired : Nat
  /-- The micro-thread that issued last (R298). -/
  lastMt : Nat
  stgallot : Cells Nat
  bindtab : Cells Word
  -- context and numeric behaviour
  ctx : BitVec 12
  inc : BitVec 8
  nbv : BitVec 2
  /-- The table in which its micro-threads and engines translate, in the form of satp: that of the
  context when the launch started (R34). -/
  root : DWord
  -- dispatch
  inbox : List InboxRec
  posting : List InboxRec
  fifo : List CopyOp
  seq : BitVec 16
  /-- Operations given to the engines so far (R233). -/
  issued : Nat
  ring : Cells DispatchEntry
  drsel : BitVec 6
  -- engines
  mx : Matrix
  banks : Cells Bank
  copies : List CopyOp
  evq : List EvOp
  tq : TimeQueue
  wr : Windrow
  etick : BitVec 16
  rankF : Cells Word
  rankRho : Cells Word
  rankTail : Cells Word
  mono : Bool
  -- traps and debug (R349, R363)
  trbase : DWord
  trloc : DWord
  late : Bool
  lcnt : Word
  dbgctl : DWord
  dbgpc : Cells DWord
  ctinbhi : DWord
  -- power (R322, R323, R330)
  duty : Nat
  forced : Bool
  pwrreq : DWord
  tallow : Word
  gate : Gate
  /-- A reset of the core waits until it has been woken (R401). -/
  resetDue : Bool
  -- launch membership
  launch : Option Nat
  /-- The core on which its launch placed the context, once a migration has moved it (R361). -/
  origin : Option Nat
  index : Nat
  started : Bool
  ended : Bool
  firedSince : Bool
  sent : Nat
  accepted : Nat
  /-- A migration has frozen the core (R358). -/
  frozen : Bool
  /-- Payloads handed on to the windrow or queue and not yet taken (R270). -/
  arrivals : List Payload
  pair : Option PairInfo
  /-- For a twin: ticket claims of its primary that it has not yet made; for a paired core: the
  results of its atomics by PSEQ (R377). -/
  claims : List Nat
  answers : List (Nat × DWord)
  /-- Messages of its agents to memory that are not yet performed (R81, R89, R379). -/
  ownStores : List OwnStore
  /-- Scratchpad accesses of its micro-threads that are performed later or have been performed
  early, oldest first (R84). -/
  lateStores : List LateStore
  earlyLoads : List EarlyLoad
  deriving DecidableEq, Repr

def Core.init : Core where
  ct := .init
  mts := []
  scratch := []
  lane := []
  mbox := []
  winFull := []
  mboxFull := []
  mboxDom := []
  links := []
  actors := []
  firings := []
  lastFired := 31
  lastMt := 15
  stgallot := []
  bindtab := []
  ctx := 0
  inc := 0
  nbv := 2
  root := 0
  inbox := []
  posting := []
  fifo := []
  seq := 0
  issued := 0
  ring := []
  drsel := 0
  mx := ⟨[], none, [], 0, 0, false, false⟩
  banks := []
  copies := []
  evq := []
  tq := ⟨false, [], [], [], 0, none⟩
  wr := ⟨.unconfigured, 0, [], [], [], 0, false, none⟩
  etick := 0
  rankF := []
  rankRho := []
  rankTail := []
  mono := true
  trbase := 0
  trloc := 0x60000
  late := false
  lcnt := 0
  dbgctl := 0
  dbgpc := []
  ctinbhi := 0
  duty := 16
  forced := false
  pwrreq := 5
  tallow := 0
  gate := .on
  resetDue := false
  launch := none
  origin := none
  index := 0
  started := false
  ended := false
  firedSince := false
  sent := 0
  accepted := 0
  frozen := false
  arrivals := []
  pair := none
  claims := []
  answers := []
  ownStores := []
  lateStores := []
  earlyLoads := []

/-! ### Shared units -/

/-- A queue's live pointers at its home (R212). -/
structure QHome where
  spc : Nat
  unit : Nat
  prod : Word
  cons : Word
  nslot : Nat
  binds : Nat
  deriving DecidableEq, Repr

structure Barrier where
  key : BarKey
  phase : Nat
  count : Nat
  k : Option Nat
  /-- Release time of each completed phase of a wide barrier (R334). -/
  release : Cells Nat
  deriving DecidableEq, Repr

/-- An arrival at a wide barrier on its way to the barrier home: the phase it counts for and
the expected count it carries (R223). That of a pair names its identifier and PSEQ; it is `ready` once
both sides have come, and `void` when it has been withdrawn before (R224, R379). -/
structure Arrival where
  key : BarKey
  phase : Nat
  k : Nat
  ctx : BitVec 12
  inc : BitVec 8
  pair : Option (Nat × Nat)
  ready : Bool
  void : Bool
  deriving DecidableEq, Repr

/-- An open-region record (R373). The agent is in the layout of the record's ID field. -/
structure RegionRec where
  agent : Word
  rsn : BitVec 16
  rmask : BitVec 64
  wmask : BitVec 64
  deriving DecidableEq, Repr

/-- A line's records, oldest first; lines are kept least recently used first (R374). -/
structure LineRec where
  key : Nat
  recs : List RegionRec
  deriving DecidableEq, Repr

/-- A destination line of a reduction (R250): expected slice and buffered partials. -/
structure ReduceLine where
  expect : Nat
  buf : List Partial
  deriving DecidableEq, Repr

/-- Pair tag of a message (R378). -/
structure PairTag where
  id : Nat
  seq : Nat
  twin : Bool
  digest : Word
  deriving DecidableEq, Repr

inductive PacketKind | data | ack | retry | reject
  deriving DecidableEq, Repr

/-- A message (R306). `cls` is its class and `flow` the class of the flow that it belongs to, which
differ in an answer; `moved`: when its head last moved (R393); `grp`: its group's die × 4,096 + its
number, 0 for none (R309). -/
structure Packet where
  kind : PacketKind
  spkg : Nat
  src : Nat
  dst : Nat
  cls : Nat
  flow : Nat
  moved : Nat
  seq : BitVec 16
  ctx : BitVec 12
  inc : BitVec 8
  grp : Nat
  gen : Nat
  esc : Bool
  payload : Payload
  pair : Option PairTag
  deriving DecidableEq, Repr

/-- An unacknowledged copy at its source (R307): the agent that a write is of, when sent, timeouts in
a row, waiting to be resent after RETRY since a time. -/
structure SentCopy where
  pkt : Packet
  who : Option Word
  sentAt : Nat
  timeouts : Nat
  retryAt : Option Nat
  deriving DecidableEq, Repr

/-- A flow (R307). `before`: the endpoint that its source's context had before a migration,
whose messages to this destination go first (R71, R361). -/
structure Flow where
  src : Nat
  dst : Nat
  cls : Nat
  before : Option Nat
  next : BitVec 16
  copies : List SentCopy
  expect : BitVec 16
  window : List Packet
  deriving DecidableEq, Repr

/-- A held paired message with the time its timer started (R379). -/
structure HeldPair where
  pkt : Packet
  since : Nat
  deriving DecidableEq, Repr

/-- A record ring of the interrupt controller (R354, R389). -/
structure Ring where
  base : BitVec 50
  log2n : Nat
  en : Bool
  head : Word
  tail : Word
  ien : Bool
  held : List (List Byte)
  deriving DecidableEq, Repr

def Ring.init : Ring := ⟨0, 0, false, 0, 0, false, []⟩

/-! ### Launches (R286 to R303) -/

inductive NodeSt | waiting | ready | placing | running | ending
  deriving DecidableEq, Repr

/-- A child launch's submitter (R256). -/
structure Child where
  core : Nat
  seq : BitVec 16
  w3 : DWord
  cmpl : Bool
  deriving DecidableEq, Repr

/-- A node slot in use (R287, R288, R290). -/
structure Node where
  st : NodeSt
  counter : Int
  level : Nat
  since : Nat
  recAddr : DWord
  ctx : BitVec 12
  succ : List Nat
  cmpl : DWord
  child : Option Child
  -- the record's fields, read when the entry was checked
  entry : DWord
  coop : Bool
  paired : Bool
  nbv : Nat
  slices : Nat
  allot : List Nat
  count : List Nat
  bindtab : DWord
  actors : DWord
  args : DWord
  btstr : Nat
  atstr : Nat
  items : Nat
  -- placement: cores in launch-index order, twins, tiles taken by die
  cores : List Nat
  twins : List Nat
  tickets : Cells (Nat × Nat)
  /-- Pair identifiers taken for its pairs: die, identifier (R376). -/
  pairIds : List (Nat × Nat)
  status : Nat
  /-- Last sweep: its time, the sum of sent counts when it was clean, and whether it found the
  co-residency condition with no tile freed since (R302, R398). -/
  sweptAt : Nat
  sweep : Option Nat
  stuck : Bool
  deriving DecidableEq, Repr

/-- A migration in progress (R357, R358). -/
structure Migration where
  pairs : List (Nat × Nat)
  streamed : Bool
  deriving DecidableEq, Repr

/-- A multicast group (R309). -/
structure Group where
  members : List Nat
  gen : Nat
  drain : Nat
  taken : Bool
  deriving DecidableEq, Repr

structure Paddock where
  en : Bool
  fen : Bool
  kcnt : Nat
  tr1 : Nat
  tc1 : Nat
  tr0 : Nat
  tc0 : Nat
  /-- Contexts that ran inside at the kill and await a new incarnation (R384). -/
  pending : List Nat
  /-- A kill fenced while dispatch was frozen, whose rest waits for the restart (R382). -/
  owed : Bool
  deriving DecidableEq, Repr

def Paddock.init : Paddock := ⟨false, false, 0, 0, 0, 0, 0, [], false⟩

/-- UVCTL of a quadrant (R388), with the times of the last error and back-off. -/
structure Undervolt where
  lock : Bool
  vmax : BitVec 3
  voff : Nat
  lastError : Nat
  backoff : Nat
  recent : List Nat
  deriving DecidableEq, Repr

structure Die where
  lqTail : BitVec 16
  lqHead : Nat
  /-- Node slots in use, by slot number (R287). -/
  nodes : Cells Node
  /-- Early credits of free slots (R290). -/
  credits : Cells Nat
  /-- Ready nodes: slot and level, in the order in which they entered the level (R292). -/
  ready : List (Nat × Nat)
  childQ : List (Child × DWord × BitVec 12 × Nat)
  notifyQ : List Nat
  groups : Cells Group
  frozen : Bool
  failed : Bool
  rcnt : Nat
  mismatches : List Nat
  migst : Nat
  migwhy : Nat
  migration : Option Migration
  escCnt : Nat
  rsndCnt : Nat
  grpRej : Nat
  lossK : Nat
  pdk : Cells Paddock
  uv : Cells Undervolt
  cec : Cells Nat
  sparesUsed : List Spare
  /-- Channels retired with no spare left; rows, by channel and row, and slices with a retired L2
  way (R387). -/
  retired : List Nat
  deadRows : List (Nat × Nat)
  deadWays : List Nat
  /-- Repairs that wait until their paddocks hold no launch (R387). -/
  repairs : List Spare
  /-- Times of corrected errors at offset 0, by quadrant × 8 + array class (R388). -/
  predict : Cells (List Nat)
  deriving DecidableEq, Repr

def Die.init : Die where
  lqTail := 0
  lqHead := 0
  nodes := []
  credits := []
  ready := []
  childQ := []
  notifyQ := []
  groups := []
  frozen := false
  failed := false
  rcnt := 0
  mismatches := []
  migst := 0
  migwhy := 0
  migration := none
  escCnt := 0
  rsndCnt := 0
  grpRej := 0
  lossK := 0
  pdk := []
  uv := []
  cec := []
  sparesUsed := []
  retired := []
  deadRows := []
  deadWays := []
  repairs := []
  predict := []

/-! ### Power (R320 to R331, R400) -/

structure TileSt where
  en : Bool
  /-- Physical column once a spare is bound; `none` while the configured one holds (R24). -/
  pcol : Option (BitVec 4)
  op : Nat
  hop : Option Nat
  droop : Option Nat
  forced : Option Nat
  temp : Int
  deriving DecidableEq, Repr

/-- A tile at reset. DESIGN CHOICE (log 1): its operating point, OPCUR, to which R323 gives no reset value,
is OP5, the nominal one. -/
def TileSt.init : TileSt := ⟨true, none, 5, none, none, none, 0⟩

/-- Who waits for a DRAM channel: the agent, and the instruction's address or the operation's SEQ; for a
partial at its slice kind 6 with its copy's core, and its line. -/
structure Waiter where
  agent : Word
  mark : Nat
  deriving DecidableEq, Repr

/-- An access that waits for a DRAM channel, and when it came (R340). -/
structure ChanWait where
  since : Nat
  who : Waiter
  deriving DecidableEq, Repr

/-- A DRAM channel (R331). `last`: the start of its last refresh; the phase of the first one
is open. -/
structure Chan where
  temp : Int
  fast : Bool
  last : Option Nat
  busy : Bool
  queue : List ChanWait
  deriving DecidableEq, Repr

def Chan.init : Chan := ⟨0, false, none, false, []⟩

/-- The in-rush arbiter of a quadrant: cores being woken, and cores waiting with the times of their
requests, in order of service. -/
structure Arbiter where
  waking : List Nat
  waiting : List (Nat × Nat)
  deriving DecidableEq, Repr

/-- A forwarding entry of a migrated core (R360): the flows (core, old endpoint, class) whose
marker is still to be sent, and those whose marker is still to be forwarded. -/
structure Forward where
  src : Nat
  dst : Nat
  ctx : BitVec 12
  owed : List (Nat × Nat × Nat)
  awaiting : List (Nat × Nat × Nat)
  deriving DecidableEq, Repr

/-! ### The package -/

/-- The leaf that a walk came to (R73): the entry, its level, and whether it or an entry above it
is global. -/
structure Leaf where
  pte : Nat
  level : Nat
  glob : Bool
  deriving DecidableEq, Repr

/-- A translation that is held (R75): in the L1 TLB of a core (`l1`) or in the translation service
of a die; the address space that it was read for, the leaf, and an address that it maps. -/
structure TlbEntry where
  l1 : Bool
  unit : Nat
  asid : Nat
  va : Nat
  leaf : Leaf
  deriving DecidableEq, Repr

/-- A line of another package that a core's L1D holds (R78): the address of the line, whether its
page is RRO, and the bytes as they were read. -/
structure RemoteLine where
  core : Nat
  line : Nat
  rro : Bool
  data : List Byte
  deriving DecidableEq, Repr

structure State where
  turn : Turn
  /-- The core and micro-thread that issue the instruction `exec` runs. -/
  curCore : Nat
  curMt : Nat
  /-- Counter at which the free values are read (log 3). -/
  free : Nat
  /-- Micro-threads, by core and number, whose instructions could not issue when tried, and the
  count of steps up to which this holds (R298). -/
  tried : List (Nat × Nat)
  triedAt : Nat
  /-- What happens to scratchpad accesses before the next step (log 34). -/
  pads : PadMoves
  /-- Micro-threads, by core and number, that timing keeps from issuing in this step (log 36). -/
  notNow : List (Nat × Nat)
  /-- Agents whose regions end early before the next step (R83), each by whether it is a control
  thread, its core and its micro-thread. -/
  closing : List (Bool × Nat × Nat)
  /-- The package nanosecond counter (R203). -/
  now : Nat
  cores : Cells Core
  dram : Memory
  gran : Memory
  remote : Memory
  /-- Copies that may be older than what they copy (R74, R75, R78). -/
  tlb : List TlbEntry
  remoteLines : List RemoteLine
  poison : List ErrorSite
  lines : List LineRec
  qhomes : Cells QHome
  barriers : List Barrier
  barPending : List Arrival
  partials : Cells ReduceLine
  partialQ : List Partial
  tiles : Cells TileSt
  chans : Cells Chan
  dies : Cells Die
  wire : List Packet
  flows : List Flow
  ports : Cells (Nat × Bool)
  rings : Cells Ring
  trapQ : List TrapRec
  steer : Cells (Bool × Nat)
  incTab : Cells (Nat × List Nat)
  sweeps : Cells Nat
  pairs : List HeldPair
  limiters : Cells (List (Nat × Nat))
  /-- The limiter step after the last one in which a quadrant granted (R326), and the time of the last
  budget tick, none before the first (R321, log 31). -/
  limiterAt : Cells Nat
  budgetAt : Option Nat
  arbiters : Cells Arbiter
  forwards : List Forward
  bootStep : Nat
  reports : List (List Byte)
  deriving DecidableEq, Repr

/-- The machine after the boot sequence of R319: every control thread in machine mode at the
reset entry, every queue empty, every cfg field loaded. -/
def State.reset : State where
  turn := .ct 0
  curCore := 0
  curMt := 0
  free := 0
  tried := []
  triedAt := 0
  pads := ⟨[], [], []⟩
  notNow := []
  closing := []
  now := 0
  cores := []
  dram := []
  gran := []
  remote := []
  tlb := []
  remoteLines := []
  poison := []
  lines := []
  qhomes := []
  barriers := []
  barPending := []
  partials := []
  partialQ := []
  tiles := []
  chans := []
  dies := []
  wire := []
  flows := []
  ports := []
  rings := []
  trapQ := []
  steer := []
  incTab := []
  sweeps := []
  pairs := []
  limiters := []
  limiterAt := []
  budgetAt := none
  arbiters := []
  forwards := []
  bootStep := 4
  reports := []

end Sys2Proof.Machine
end

