-- ==== Sys2Proof/Machine/Mem.lean ====
section
/-! DEFINITION. Sparse arrays, the accessors of the state, memory by byte, physical addresses
(R72, R310, R312), Sv48 translation (R73, R74) and the open-region records (R373, R374). -/

namespace Sys2Proof.Machine

/-! ### Sparse arrays -/

/-- The value at an index, `d` where none is listed. -/
def Cells.look {α : Type} (d : α) : Cells α → Nat → α
  | [], _ => d
  | (a, v) :: t, k => if k < a then d else if k = a then v else Cells.look d t k

/-- Writes a value; writing the rest value `d` removes the entry, so that equal contents are
equal lists. -/
def Cells.put {α : Type} [DecidableEq α] (d : α) : Cells α → Nat → α → Cells α
  | [], k, v => if v = d then [] else [(k, v)]
  | (a, w) :: t, k, v =>
    if k < a then (if v = d then (a, w) :: t else (k, v) :: (a, w) :: t)
    else if k = a then (if v = d then t else (k, v) :: t)
    else (a, w) :: Cells.put d t k v

/-- Writes a value and keeps the entry whatever it is. -/
def Cells.upd {α : Type} : Cells α → Nat → α → Cells α
  | [], k, v => [(k, v)]
  | (a, w) :: t, k, v =>
    if k < a then (k, v) :: (a, w) :: t
    else if k = a then (k, v) :: t
    else (a, w) :: Cells.upd t k v

/-- Removes an entry. -/
def Cells.del {α : Type} (m : Cells α) (k : Nat) : Cells α := m.filter (·.1 != k)

/-- The entry at an index, if one is listed. -/
def Cells.get? {α : Type} (m : Cells α) (k : Nat) : Option α :=
  (m.find? (·.1 == k)).map (·.2)

/-- The canonical form: indices strictly rising, no entry equal to the rest value. -/
def Cells.wf {α : Type} [DecidableEq α] (d : α) : Cells α → Bool
  | [] => true
  | [(_, v)] => decide (v ≠ d)
  | (a, v) :: (b, w) :: t => decide (v ≠ d) && decide (a < b) && Cells.wf d ((b, w) :: t)

/-- Insertion into a list that a comparison sorts, and sorting by it, keeping equal entries in
their order. -/
def insertBy {α : Type} (le : α → α → Bool) (x : α) : List α → List α
  | [] => [x]
  | y :: t => if le x y then x :: y :: t else y :: insertBy le x t

def sortBy {α : Type} (le : α → α → Bool) : List α → List α
  | [] => []
  | x :: t => insertBy le x (sortBy le t)

def sortNat (xs : List Nat) : List Nat := sortBy (fun a b => decide (a ≤ b)) xs

/-! ### Memory -/

/-- What an address that nothing has written reads as (log 4). -/
def Memory.rest : Byte := 0

def Memory.byte (m : Memory) (a : Nat) : Byte := Cells.look Memory.rest m a
def Memory.setByte (m : Memory) (a : Nat) (v : Byte) : Memory := Cells.put Memory.rest m a v
/-- The canonical form of a memory. -/
def Memory.wf (m : Memory) : Bool := Cells.wf Memory.rest m

def Memory.read (m : Memory) (a : Nat) : Nat → List Byte
  | 0 => []
  | n + 1 => Memory.byte m a :: Memory.read m (a + 1) n

def Memory.write (m : Memory) (a : Nat) : List Byte → Memory
  | [] => m
  | b :: bs => Memory.write (Memory.setByte m a b) (a + 1) bs

/-- A 32-bit word, little-endian (R2). -/
def Memory.word (m : Memory) (a : Nat) : Word := BitVec.ofNat 32 (leNat (Memory.read m a 4))
def Memory.setWord (m : Memory) (a : Nat) (v : Word) : Memory :=
  Memory.write m a (leBytes 4 v.toNat)

/-! ### Accessors of the state -/

def State.core (s : State) (c : Nat) : Core := s.cores.look Core.init c
def State.setCore (s : State) (c : Nat) (k : Core) : State := { s with cores := s.cores.upd c k }
def State.modCore (s : State) (c : Nat) (f : Core → Core) : State := s.setCore c (f (s.core c))

def Core.mt (k : Core) (m : Nat) : Mt := k.mts.look Mt.init m
def Core.setMt (k : Core) (m : Nat) (t : Mt) : Core := { k with mts := k.mts.upd m t }
def Core.modMt (k : Core) (m : Nat) (f : Mt → Mt) : Core := k.setMt m (f (k.mt m))

def State.mt (s : State) (c m : Nat) : Mt := (s.core c).mt m
def State.setMt (s : State) (c m : Nat) (t : Mt) : State := s.modCore c (·.setMt m t)
def State.modMt (s : State) (c m : Nat) (f : Mt → Mt) : State := s.setMt c m (f (s.mt c m))

def State.hart (s : State) (c : Nat) : Hart := (s.core c).ct
def State.setHart (s : State) (c : Nat) (h : Hart) : State := s.modCore c fun k => { k with ct := h }
def State.modHart (s : State) (c : Nat) (f : Hart → Hart) : State := s.setHart c (f (s.hart c))

def State.die (s : State) (d : Nat) : Die := s.dies.look Die.init d
def State.setDie (s : State) (d : Nat) (x : Die) : State := { s with dies := s.dies.upd d x }
def State.modDie (s : State) (d : Nat) (f : Die → Die) : State := s.setDie d (f (s.die d))

def State.tile (s : State) (t : Nat) : TileSt := s.tiles.look TileSt.init t
def State.modTile (s : State) (t : Nat) (f : TileSt → TileSt) : State :=
  { s with tiles := s.tiles.upd t (f (s.tile t)) }

def State.chan (s : State) (c : Nat) : Chan := s.chans.look Chan.init c
def State.modChan (s : State) (c : Nat) (f : Chan → Chan) : State :=
  { s with chans := s.chans.upd c (f (s.chan c)) }

def State.ring (s : State) (r : Nat) : Ring := s.rings.look Ring.init r
def State.modRing (s : State) (r : Nat) (f : Ring → Ring) : State :=
  { s with rings := s.rings.upd r (f (s.ring r)) }

def Core.bank (k : Core) (b : Nat) : Bank := k.banks.look Bank.init b
def Core.modBank (k : Core) (b : Nat) (f : Bank → Bank) : Core :=
  { k with banks := k.banks.upd b (f (k.bank b)) }

/-- Rank weight f(k), pass-back weight ρ(k), and TAIL[t], with their reset values (R279). -/
def Core.weight (k : Core) (i : Nat) : Word := k.rankF.look 0 i
def Core.passBack (k : Core) (i : Nat) : Word := k.rankRho.look 0x3F800000 i
def Core.tailSum (k : Core) (i : Nat) : Word := k.rankTail.look 0 i

/-- A control-thread register; x0 reads zero and discards writes. -/
def Hart.reg (h : Hart) (r : BitVec 5) : DWord := if r = 0 then 0 else h.x.look 0 r.toNat
def Hart.setReg (h : Hart) (r : BitVec 5) (v : DWord) : Hart :=
  if r = 0 then h else { h with x := h.x.put 0 r.toNat v }

/-- Registers of a micro-thread. -/
def Mt.vlane (t : Mt) (r l : Nat) : Word := t.v.look 0 (r * 32 + l)
def Mt.setV (t : Mt) (r l : Nat) (w : Word) : Mt := { t with v := t.v.put 0 (r * 32 + l) w }
def Mt.sreg (t : Mt) (r : Nat) : Word := t.s.look 0 r
def Mt.setS (t : Mt) (r : Nat) (w : Word) : Mt := { t with s := t.s.put 0 r w }
def Mt.preg (t : Mt) (r : Nat) : Word := t.p.look 0 r
def Mt.setP (t : Mt) (r : Nat) (w : Word) : Mt := { t with p := t.p.put 0 r w }
def Mt.stream (t : Mt) (q : Nat) : StreamReg := t.q.look .idle q
def Mt.setStream (t : Mt) (q : Nat) (r : StreamReg) : Mt := { t with q := t.q.put .idle q r }

/-! ### Coordinates (R6, R26, R28) -/

def coreX (c : Nat) : Nat := c % 16
def coreY (c : Nat) : Nat := c / 16 % 16
def coreDie (c : Nat) : Nat := c / 256
/-- Tile number of a core. -/
def tileOf (c : Nat) : Nat := coreDie c * 64 + coreY c / 2 * 8 + coreX c / 2
/-- Tile-local index of a core. -/
def localIdx (c : Nat) : Nat := coreY c % 2 * 2 + coreX c % 2
/-- The core of a tile with a tile-local index. -/
def coreAt (tile i : Nat) : Nat :=
  tile / 64 * 256 + (tile % 64 / 8 * 2 + i / 2) * 16 + (tile % 8 * 2 + i % 2)
/-- The four cores of a tile, by tile-local index. -/
def tileCores (tile : Nat) : List Nat := [coreAt tile 0, coreAt tile 1, coreAt tile 2, coreAt tile 3]
/-- Quadrant of a core over the package, die × 4 + quadrant (R28). -/
def quadOf (c : Nat) : Nat := coreDie c * 4 + coreY c / 8 * 2 + coreX c / 8
/-- Physical tile column of a logical tile: the bound spare's, or the configured placement that
skips the row's spare column (R24, R25). -/
def State.pcol (s : State) (tile : Nat) : BitVec 4 :=
  match (s.tile tile).pcol with
  | some p => p
  | none =>
    let tc := tile % 8
    if tc < (Config.spareColumn (tile / 64) (tile % 64 / 8)).val then BitVec.ofNat 4 tc
    else BitVec.ofNat 4 (tc + 1)
/-- The site of a logical core on its die: px = 2 × PCOL + (x mod 2), py = y (R26). Its home slice
and home channel lie beneath it; the fabric and the memories number them by the logical core
(R306). -/
def State.site (s : State) (c : Nat) : Nat × Nat := (2 * (s.pcol (tileOf c)).toNat + coreX c % 2, coreY c)
/-- TILEMAP's EN of the core's tile. -/
def State.present (s : State) (c : Nat) : Bool := decide (c < 1024) && (s.tile (tileOf c)).en
/-- TILEMAP entry of a tile (R25). -/
def State.tilemap (s : State) (tile : Nat) : BitVec 8 :=
  BitVec.ofBool (s.tile tile).en ++ 0#3 ++ s.pcol tile

/-- The core on which a core's context was placed. What its program names by die or tile-local index
stays named from there when a migration moves it (R360, R361). -/
def State.originOf (s : State) (c : Nat) : Nat := (s.core c).origin.getD c

/-- The core of a core's tile that its context knows by a tile-local index: where a context moved to
another index, the two indices are exchanged. -/
def State.tileMate (s : State) (c i : Nat) : Nat :=
  let old := localIdx (s.originOf c)
  let new := localIdx c
  coreAt (tileOf c) (if i = old then new else if i = new then old else i)

/-! ### Places -/

/-- A byte's place once its space and address are resolved (R63). -/
inductive Loc
  | lane (core lane off : Nat)
  | scratch (core off : Nat)
  | mbox (core off : Nat)
  | gran (die off : Nat)
  | dram (key : Nat)
  | remote (pa : Nat)
  | device (pa : Nat)
  | pcie (pa : Nat)
  deriving DecidableEq, Repr

/-- Bytes of a channel (R15). -/
def chanBytes : Nat := 201326592
/-- Populated bytes of a die's 64 GiB (R72). -/
def dieBytes : Nat := 51539607552

/-- The DRAM byte of a local physical address under an interleave (R72). -/
def dramKey (pa ilv : Nat) : Option Nat :=
  let die := pa / 2 ^ 36
  let o := pa % 2 ^ 36
  if dieBytes ≤ o then none
  else if ilv = 0 then some ((die * 256 + o / chanBytes) * chanBytes + o % chanBytes)
  else some ((die * 256 + o / 256 % 256) * chanBytes + (o / 256 / 256 * 256 + o % 256))

/-- A byte of another package: 2^55, its package, and its place under the interleave as in the local
DRAM map (R72, R312). -/
def remoteKey (p pa ilv : Nat) : Option Nat := (dramKey pa ilv).map fun k => 2 ^ 55 + p * 2 ^ 38 + k

/-- What a physical address reaches (R310, R312); `none` is an access fault. -/
def physLoc (pa ilv : Nat) : Option Loc :=
  if pa < 0x4000000000 then (dramKey pa ilv).map .dram
  else if pa < 0x4001000000 then some (.device pa)
  else if 0x4800000000 ≤ pa ∧ pa < 0x8000000000 then some (.pcie pa)
  else if 2 ^ 55 ≤ pa ∧ pa < 2 ^ 56 then
    if pa / 2 ^ 47 % 256 ≠ 0 then none
    else
      let p := pa / 2 ^ 38 % 512
      if 384 ≤ p then none
      else if p = Config.pkgNum then (dramKey (pa % 2 ^ 38) ilv).map .dram
      else (remoteKey p (pa % 2 ^ 38) ilv).map .remote
  else none

/-- Memory bytes at a place; devices are read by `Device.lean`. -/
def State.readLoc (s : State) (l : Loc) (n : Nat) : List Byte :=
  match l with
  | .lane c i o => Memory.read (s.core c).lane (i * 2048 + o) n
  | .scratch c o => Memory.read (s.core c).scratch o n
  | .mbox c o => Memory.read (s.core c).mbox o n
  | .gran d o => Memory.read s.gran (d * 0x2000000 + o) n
  | .dram k => Memory.read s.dram k n
  | .remote pa => Memory.read s.remote pa n
  | .device _ | .pcie _ => []

/-- The 64-byte line, or the word, whose poison a place carries (R385). -/
def Loc.site : Loc → Option ErrorSite
  | .lane c i o => some (.laneWord c i (o / 4 * 4))
  | .scratch c o => some (.scratchWord c (o / 4 * 4))
  | .mbox c o => some (.mailboxLine c (o / 64))
  | .gran d o => some (.granLine d (o / 64 * 64))
  | .dram k => some (.dramLine (k / 64 * 64))
  | .remote _ | .device _ | .pcie _ => none

/-- A write of `n` bytes from a place covers the whole line or word of a site (R385). -/
def siteCovered (e : ErrorSite) (l : Loc) (n : Nat) : Bool :=
  let spans (o at_ size : Nat) : Bool := decide (o ≤ at_ ∧ at_ + size ≤ o + n)
  match e, l with
  | .laneWord c i a, .lane c' i' o => c == c' && i == i' && spans o a 4
  | .scratchWord c a, .scratch c' o => c == c' && spans o a 4
  | .mailboxLine c a, .mbox c' o => c == c' && spans o (64 * a) 64
  | .granLine d a, .gran d' o => d == d' && spans o a 64
  | .dramLine a, .dram o => spans o a 64
  | _, _ => false

/-- Poison is cleared by a write of the whole line or word, and by nothing less (R385). -/
def State.unpoison (s : State) (l : Loc) (n : Nat) : State :=
  { s with poison := s.poison.filter fun e => !siteCovered e l n }

/-- Bytes written at a place. -/
def State.putLoc (s : State) (l : Loc) (bs : List Byte) : State :=
  match l with
  | .lane c i o => s.modCore c fun k => { k with lane := Memory.write k.lane (i * 2048 + o) bs }
  | .scratch c o => s.modCore c fun k => { k with scratch := Memory.write k.scratch o bs }
  | .mbox c o => s.modCore c fun k => { k with mbox := Memory.write k.mbox o bs }
  | .gran d o => { s with gran := Memory.write s.gran (d * 0x2000000 + o) bs }
  | .dram k => { s with dram := Memory.write s.dram k bs }
  | .remote pa => { s with remote := Memory.write s.remote pa bs }
  | .device _ | .pcie _ => s

/-- Kind and 64-byte line of a place that a control thread can reserve. -/
def Loc.resvLine : Loc → Option (Nat × Nat)
  | .dram k => some (0, k / 64)
  | .remote pa => some (2, pa / 64)
  | _ => none

/-- The hart holds a reservation in a line. -/
def Hart.reserves (h : Hart) (line : Nat × Nat) : Bool :=
  match h.resv with
  | some (kd, a, _) => kd == line.1 && a / 64 == line.2
  | none => false

/-- A write to a line ends the reservations in it. -/
def State.dropResv (s : State) (l : Loc) : State :=
  match l.resvLine with
  | none => s
  | some n =>
    if s.cores.any fun e => e.2.ct.reserves n then
      { s with cores := s.cores.map fun e =>
          if e.2.ct.reserves n then (e.1, { e.2 with ct := { e.2.ct with resv := none } }) else e }
    else s

/-- Writes bytes, clears the poison that the write covers, and ends reservations. -/
def State.writeLoc (s : State) (l : Loc) (bs : List Byte) : State :=
  ((s.putLoc l bs).unpoison l bs.length).dropResv l

def State.readW (s : State) (l : Loc) : Word := BitVec.ofNat 32 (leNat (s.readLoc l 4))
def State.writeW (s : State) (l : Loc) (w : Word) : State := s.writeLoc l (leBytes 4 w.toNat)

def State.poisoned (s : State) (l : Loc) : Bool :=
  match l.site with
  | some e => s.poison.contains e
  | none => false

/-! ### Translation (R73, R74) -/

inductive Acc | fetch | read | write
  deriving DecidableEq, Repr

/-- DETAIL of causes 0x06 and 0x07 (R346). -/
def Acc.detail : Acc → Nat
  | .fetch => 0
  | .read => 1
  | .write => 2

inductive XFault | page | access
  deriving DecidableEq, Repr

/-- Who translates: privilege, SUM and MXR, and whether in the address space of the core's
context, as its micro-threads and engines do (R34; privileged 1.12). -/
structure XMode where
  user : Bool
  sum : Bool
  mxr : Bool
  ctx : Bool

def XMode.mt : XMode := ⟨true, false, false, true⟩
/-- The device on a context's behalf (log 8). -/
def XMode.device : XMode := ⟨false, true, false, false⟩

/-- The table of a core that translates for its context or for its control thread (R34). -/
def State.rootOf (s : State) (c : Nat) (ctx : Bool) : DWord :=
  if ctx then (s.core c).root else (s.hart c).satp

/-- The eight bytes of a page-table entry. DESIGN CHOICE (log 8): no page maps the tables, so the
channel interleave serves them, as it does untranslated accesses; a table outside DRAM is an access
fault. -/
def State.readPte (s : State) (pa : Nat) : Option Nat :=
  match physLoc pa 0 with
  | some (.dram k) => some (leNat (s.readLoc (.dram k) 8))
  | some (.remote k) => some (leNat (s.readLoc (.remote k) 8))
  | _ => none

def pteBit (p i : Nat) : Bool := p / 2 ^ i % 2 == 1

/-- A leaf is well formed at its level: superpage alignment, interleave, C64 and RRO (R73,
R74). -/
def Leaf.wellFormed (f : Leaf) : Bool :=
  let ppn := f.pte / 2 ^ 10 % 2 ^ 44
  f.level != 3
  && decide (f.pte / 2 ^ 59 % 4 < 2)
  && ppn % 2 ^ (9 * f.level) == 0
  && (!pteBit f.pte 58 || (f.level == 0 && ppn % 16 == 0))
  && !(pteBit f.pte 61 && pteBit f.pte 2)

/-- A leaf allows the access: A, D and permissions (privileged 1.12). -/
def Leaf.allows (f : Leaf) (m : XMode) (a : Acc) : Bool :=
  let p := f.pte
  pteBit p 6
  && (a != .write || pteBit p 7)
  && (match a with
      | .fetch => pteBit p 3 && (pteBit p 4 == m.user)
      | .read => (pteBit p 1 || (m.mxr && pteBit p 3)) && (if m.user then pteBit p 4 else !pteBit p 4 || m.sum)
      | .write => pteBit p 2 && (if m.user then pteBit p 4 else !pteBit p 4 || m.sum))

/-- Bytes that a leaf maps: a C64 page is 64 KiB (R74). -/
def Leaf.span (f : Leaf) : Nat := if pteBit f.pte 58 then 2 ^ 16 else 2 ^ (12 + 9 * f.level)

/-- Physical address under a leaf. -/
def Leaf.pa (f : Leaf) (va : Nat) : Nat :=
  f.pte / 2 ^ 10 % 2 ^ 44 * 4096 / f.span * f.span + va % f.span

/-- Channel interleave of a leaf (R72). -/
def Leaf.ilv (f : Leaf) : Nat := f.pte / 2 ^ 59 % 4

/-- The page is remote-replicable read-only (R78). -/
def Leaf.rro (f : Leaf) : Bool := pteBit f.pte 61

/-- The walk from a table at physical `base` to a well-formed leaf. D, A and U are reserved in a
non-leaf entry (privileged 1.12). DESIGN CHOICE (log 8): RRO in a non-leaf entry is accepted and has
no effect there. -/
def State.walk (s : State) (va : Nat) (glob : Bool) : Nat → Nat → Except XFault Leaf
  | 0, _ => .error .page
  | level + 1, base =>
    match s.readPte (base + va / 2 ^ (12 + 9 * level) % 512 * 8) with
    | none => .error .access
    | some p =>
      let f : Leaf := ⟨p, level, glob || pteBit p 5⟩
      if !pteBit p 0 || (!pteBit p 1 && pteBit p 2) then .error .page
      else if p / 2 ^ 62 ≠ 0 ∨ p / 2 ^ 54 % 16 ≠ 0 then .error .page
      else if pteBit p 1 || pteBit p 3 then
        if f.wellFormed then .ok f else .error .page
      else if p / 2 ^ 58 % 8 ≠ 0 ∨ pteBit p 4 ∨ pteBit p 6 ∨ pteBit p 7 then .error .page
      else State.walk s va f.glob level (p / 2 ^ 10 % 2 ^ 44 * 4096)

/-- The walk of the table of a satp. -/
def State.walkSatp (s : State) (satp : DWord) (va : Nat) : Except XFault Leaf :=
  s.walk va false 4 (satp.toNat % 2 ^ 44 * 4096)

/-- Address-space number of a satp. -/
def satpAsid (satp : DWord) : Nat := satp.toNat / 2 ^ 44 % 2 ^ 16

/-- A held translation maps an address of an address space. -/
def TlbEntry.maps (e : TlbEntry) (asid va : Nat) : Bool :=
  (e.leaf.glob || e.asid == asid) && e.va / e.leaf.span == va / e.leaf.span

/-- The held translation that answers in the translation service of a die. -/
def State.serviceHit (s : State) (die : Nat) (satp : DWord) (va : Nat) : Option Leaf :=
  (s.tlb.find? fun e => !e.l1 && e.unit == die && e.maps (satpAsid satp) va).map (·.leaf)

/-- The held translation that answers in the L1 TLB of a core. -/
def State.l1Hit (s : State) (core : Nat) (satp : DWord) (va : Nat) : Option Leaf :=
  (s.tlb.find? fun e => e.l1 && e.unit == core && e.maps (satpAsid satp) va).map (·.leaf)

/-- A miss of the L1 TLB: the die's translation service answers, and walks the tables where it
holds no translation (R75). -/
def State.serviceLeaf (s : State) (core : Nat) (satp : DWord) (va : Nat) : Except XFault Leaf :=
  match s.serviceHit (coreDie core) satp va with
  | some f => .ok f
  | none => s.walkSatp satp va

/-- The leaf that translates for a core, from its L1 TLB or past it; for the device itself,
`none`, that of the walk. -/
def State.leafFor (s : State) (who : Option Nat) (satp : DWord) (va : Nat) : Except XFault Leaf :=
  match who with
  | none => s.walkSatp satp va
  | some c =>
    match s.l1Hit c satp va with
    | some f => .ok f
    | none => s.serviceLeaf c satp va

/-- Bits [63:48] all equal bit 47 (R204). -/
def canonical (va : DWord) : Bool :=
  let hi := va.toNat / 2 ^ 47
  hi == 0 || hi == 2 ^ 17 - 1

/-- A page of a retired channel faults (R387). -/
def State.retiredPa (s : State) (pa ilv : Nat) : Bool :=
  match physLoc pa ilv with
  | some (.dram k) =>
    let c := k / chanBytes
    (s.die (c / 256)).retired.contains (c % 256)
  | _ => false

/-- Translates a virtual address under a satp: Sv48, or bare with the channel interleave
(log 8). -/
def State.xlateIn (s : State) (who : Option Nat) (satp : DWord) (m : XMode) (a : Acc) (va : DWord) :
    Except XFault (Nat × Nat) :=
  if satp.toNat / 2 ^ 60 = 9 then
    let v := va.toNat % 2 ^ 48
    if canonical va then
      match s.leafFor who satp v with
      | .ok f =>
        if !f.allows m a || s.retiredPa (f.pa v) f.ilv then .error .page
        else .ok (f.pa v, f.ilv)
      | .error e => .error e
    else .error .page
  else if va.toNat < 2 ^ 56 then .ok (va.toNat, 0)
  else .error .access

/-- Translates for a core. -/
def State.xlate (s : State) (c : Nat) (m : XMode) (a : Acc) (va : DWord) :
    Except XFault (Nat × Nat) := s.xlateIn (some c) (s.rootOf c m.ctx) m a va

/-- Translates and finds the place. -/
def State.xlocIn (s : State) (who : Option Nat) (satp : DWord) (m : XMode) (a : Acc) (va : DWord) :
    Except XFault Loc :=
  match s.xlateIn who satp m a va with
  | .error e => .error e
  | .ok (pa, ilv) =>
    match physLoc pa ilv with
    | none => .error .access
    | some l => .ok l

def State.xloc (s : State) (c : Nat) (m : XMode) (a : Acc) (va : DWord) : Except XFault Loc :=
  s.xlocIn (some c) (s.rootOf c m.ctx) m a va

/-- Reads `n` words of ordinary memory through a translation, word by word as pages may differ;
devices are no memory here. -/
def State.readIn (s : State) (who : Option Nat) (satp : DWord) (m : XMode) (a : Acc) (va : DWord) :
    Nat → Except (XFault × DWord) (List Byte)
  | 0 => .ok []
  | n + 1 =>
    match s.xlocIn who satp m a va with
    | .error e => .error (e, va)
    | .ok (.device _) | .ok (.pcie _) => .error (.access, va)
    | .ok l =>
      match State.readIn s who satp m a (va + 4) n with
      | .error e => .error e
      | .ok bs => .ok (s.readLoc l 4 ++ bs)

def State.readVirt (s : State) (c : Nat) (m : XMode) (a : Acc) (va : DWord) (n : Nat) :
    Except (XFault × DWord) (List Byte) := s.readIn (some c) (s.rootOf c m.ctx) m a va n

/-! ### Held translations (R75) -/

/-- A translation taken in: into an L1 TLB from the service, into the service from the walk. -/
def State.tlbTaken (s : State) (l1 ctx : Bool) (c : Nat) (va : DWord) : Option TlbEntry :=
  let satp := s.rootOf c ctx
  let v := va.toNat % 2 ^ 48
  if satp.toNat / 2 ^ 60 = 9 ∧ canonical va = true then
    match (if l1 then s.serviceLeaf c satp v else s.walkSatp satp v) with
    | .ok f => some ⟨l1, if l1 then c else coreDie c, satpAsid satp, v, f⟩
    | .error _ => none
  else none

/-- Entries of a TLB: 64 in the L1 of a core, 4,096 in the service of a die (R75). -/
def tlbCap (l1 : Bool) : Nat := if l1 then 64 else 4096

/-- A held translation placed before the others; a full TLB lets its last one go. -/
def tlbAdd (ts : List TlbEntry) (e : TlbEntry) : List TlbEntry :=
  let own (x : TlbEntry) : Bool := x.l1 == e.l1 && x.unit == e.unit
  e :: (ts.filter own).take (tlbCap e.l1 - 1) ++ ts.filter (!own ·)

/-- What the TLBs hold after a step: which translations they take in and which they let go is
free (log 3). -/
def State.tlbNext (s : State) : List TlbEntry :=
  let kept := (s.tlb.zipIdx.filter fun e => Config.tlbKeep s.free e.2).map (·.1)
  ((Config.tlbFill s.free).filterMap fun q => s.tlbTaken q.1 q.2.1 q.2.2.1 q.2.2.2).foldl tlbAdd kept

/-- An entry of the die's service matches the operands of SFENCE.VMA: the address, and the address
space unless it is global (R75; privileged 1.12). -/
def TlbEntry.fenced (e : TlbEntry) (va asid : Option Nat) : Bool :=
  (match va with
    | some v => e.va / e.leaf.span == v % 2 ^ 48 / e.leaf.span
    | none => true) &&
  (match asid with
    | some a => !e.leaf.glob && e.asid == a % 2 ^ 16
    | none => true)

/-- SFENCE.VMA on a core: its L1 TLB and the matching entries of its die's service go (R75). -/
def State.sfence (s : State) (c : Nat) (va asid : Option Nat) : State :=
  { s with tlb := s.tlb.filter fun e =>
      if e.l1 then e.unit != c else !(e.unit == coreDie c && e.fenced va asid) }

/-! ### Held lines of other packages (R78) -/

/-- The held line that covers an address of another package. -/
def State.heldLine (s : State) (c pa : Nat) : Option RemoteLine :=
  s.remoteLines.find? fun r => r.core == c && r.line == pa / 64 * 64

/-- A line taken in, through the core's translation or untranslated. -/
def State.lineTaken (s : State) (c : Nat) (ctx bare : Bool) (va : DWord) : Option RemoteLine :=
  let satp := s.rootOf c ctx
  let v := va.toNat % 2 ^ 48
  let at_ : Option (Nat × Nat × Bool) :=
    if bare || satp.toNat / 2 ^ 60 ≠ 9 then some (va.toNat, 0, false)
    else if !canonical va then none
    else
      match s.leafFor (some c) satp v with
      | .ok f => some (f.pa v, f.ilv, f.rro)
      | .error _ => none
  match at_ with
  | none => none
  | some (pa, ilv, rro) =>
    match physLoc (pa / 64 * 64) ilv with
    | some (.remote l) => some ⟨c, l, rro, s.readLoc (.remote l) 64⟩
    | _ => none

/-- A line placed with the others, unless the L1D holds it or is full: 640 KiB are 10,240 lines
(R16). -/
def lineAdd (ls : List RemoteLine) (r : RemoteLine) : List RemoteLine :=
  if (ls.any fun x => x.core == r.core && x.line == r.line) ||
      decide (10240 ≤ (ls.filter (·.core == r.core)).length) then ls
  else r :: ls

/-- The lines of other packages that L1Ds hold after a step: which they take in and which they let
go is free (log 3). -/
def State.linesNext (s : State) : List RemoteLine :=
  let kept := (s.remoteLines.zipIdx.filter fun e => Config.lineKeep s.free e.2).map (·.1)
  ((Config.lineFill s.free).filterMap fun q => s.lineTaken q.1 q.2.1 q.2.2.1 q.2.2.2).foldl lineAdd kept

/-- Bytes with a write laid over them, at addresses of one space. -/
def patch (a : Nat) (bs : List Byte) (b : Nat) (ws : List Byte) : List Byte :=
  bs.zipIdx.map fun x => if b ≤ a + x.2 ∧ a + x.2 < b + ws.length then ws.getD (a + x.2 - b) x.1 else x.1

/-- What a core writes to another package goes into its own copy too, on its way home (R78). -/
def State.throughOwn (s : State) (c : Nat) (l : Loc) (bs : List Byte) : State :=
  match l with
  | .remote pa =>
    { s with remoteLines := s.remoteLines.map fun r =>
        if r.core == c then { r with data := patch r.line r.data pa bs } else r }
  | _ => s

/-- Bytes written at a place by a core. -/
def State.writeBy (s : State) (c : Nat) (l : Loc) (bs : List Byte) : State :=
  (s.writeLoc l bs).throughOwn c l bs

def State.writeWBy (s : State) (c : Nat) (l : Loc) (w : Word) : State :=
  s.writeBy c l (leBytes 4 w.toNat)

/-- Writes words of ordinary memory through a translation; `none` where any word faults, with
nothing written. The core's own copies take what it writes (R78, R350). -/
def State.writeVirt (s : State) (c : Nat) (m : XMode) (va : DWord) : List Word → Option State
  | [] => some s
  | w :: ws =>
    match s.xloc c m .write va with
    | .error _ | .ok (.device _) | .ok (.pcie _) => none
    | .ok l => (State.writeVirt s c m (va + 4) ws).map (·.writeWBy c l w)

/-- An acquire of .dom scope: the core's copies of remote lines go, apart from RRO lines (R78,
R222). -/
def State.acquireDom (s : State) (c : Nat) : State :=
  { s with remoteLines := s.remoteLines.filter fun r => r.core != c || r.rro }

/-- An acquire at a scope, in the codes of group Y. -/
def State.acquireAt (s : State) (c scope : Nat) : State := if scope = 4 then s.acquireDom c else s

/-- The core's copies that lie in the lines of a range go, RRO lines too (R208). -/
def State.dropLines (s : State) (c : Nat) (pas : List Nat) : State :=
  { s with remoteLines := s.remoteLines.filter fun r => r.core != c || !pas.contains r.line }

/-- A core's L1 TLB and L1D become empty (R358, R384). -/
def State.dropCached (s : State) (c : Nat) : State :=
  { s with
    tlb := s.tlb.filter fun e => !(e.l1 && e.unit == c)
    remoteLines := s.remoteLines.filter (·.core != c) }

/-! ### Open-region records (R373, R374) -/

/-- AGENT of a micro-thread, a control thread or an engine (R347, R373). -/
def agentId (srck mt core : Nat) : Word :=
  BitVec.ofNat 32 (srck * 2 ^ 28 + mt * 2 ^ 24 + core)

/-- The 64-byte line of a slice-homed place, with the byte in it. -/
def Loc.line : Loc → Option (Nat × Nat)
  | .dram k => some (k / 64 * 4, k % 64)
  | .gran d o => some ((d * 0x2000000 + o) / 64 * 4 + 1, o % 64)
  | .remote pa => some (pa / 64 * 4 + 2, pa % 64)
  | _ => none

/-- The home slice of a line, by the core above it. -/
def lineSlice (key : Nat) : Nat :=
  if key % 4 = 0 then key / 4 * 64 / chanBytes
  else if key % 4 = 1 then key / 4 * 64 / 0x2000000 * 256 + key / 4 * 64 % 0x2000000 / 256 % 256
  else 1024

/-- The place of a kind and address (R378). -/
def homedLoc (kind a : Nat) : Loc :=
  match kind with
  | 0 => .dram a
  | 1 => .gran (a / 0x2000000) (a % 0x2000000)
  | 2 => .remote a
  | 5 => .device a
  | _ => .pcie a

/-- The core of an agent. -/
def agentCore (agent : Word) : Nat := agent.toNat % 1024

/-- The core is the twin of a pair. -/
def Core.isTwin (k : Core) : Bool :=
  match k.pair with
  | some q => q.twin
  | none => false

/-- The agent has messages to memory that are not performed (R81). -/
def Core.outstanding (k : Core) (agent : Word) : Bool := k.ownStores.any (·.agent == agent)

/-- A region of an agent, or an operation of an engine, has such messages. -/
def State.owes (s : State) (agent : Word) (rsn : BitVec 16) : Bool :=
  (s.core (agentCore agent)).ownStores.any fun x => x.agent == agent && x.rsn == rsn

/-- Records are removed. -/
def State.dropRecs (s : State) (gone : RegionRec → Bool) : State :=
  { s with lines :=
      (s.lines.map fun l => { l with recs := l.recs.filter (!gone ·) }).filter (·.recs != []) }

/-- Steps the region counter that an AGENT names; an engine has none (R373). -/
def State.stepRegion (s : State) (agent : Word) : State :=
  let c := agent.toNat % 1024
  let m := agent.toNat / 2 ^ 24 % 16
  match agent.toNat / 2 ^ 28 % 8 with
  | 0 => s.modMt c m fun t => { t with region := t.region + 1 }
  | 1 => s.modHart c fun h => { h with region := h.region + 1 }
  | _ => s

/-! ### Scratchpad accesses performed later or early (R84) -/

/-- An access of micro-thread `m` through a space to one scratchpad: those of one group are
performed in program order. -/
def LateStore.within (x : LateStore) (m spc pad : Nat) : Bool := x.mt == m && x.spc == spc && x.pad == pad
def EarlyLoad.within (x : EarlyLoad) (m spc pad : Nat) : Bool := x.mt == m && x.spc == spc && x.pad == pad

/-- A store to a scratchpad is performed; a signal write sets the full bit (R70). -/
def State.landStore (s : State) (x : LateStore) : State :=
  let s := s.writeW (.scratch x.pad x.off) x.data
  if x.full then
    s.modCore x.pad fun k => { k with winFull := k.winFull.put false ((x.off - 0x7A000) / 4) true }
  else s

/-- The late stores of a core that `p` names are performed, in their order. -/
def State.landAll (s : State) (c : Nat) (p : LateStore → Bool) : State :=
  let xs := (s.core c).lateStores
  if xs.any p then
    (xs.filter p).foldl State.landStore
      (s.modCore c fun k => { k with lateStores := xs.filter fun x => !p x })
  else s

/-- The early loads of a core that `p` names are forgotten. -/
def State.dropEarly (s : State) (c : Nat) (p : EarlyLoad → Bool) : State :=
  if (s.core c).earlyLoads.any p then
    s.modCore c fun k => { k with earlyLoads := k.earlyLoads.filter fun x => !p x }
  else s

/-- An access of a group is performed now: what the group has outstanding goes before it. -/
def State.padOrder (s : State) (c m spc pad : Nat) : State :=
  (s.landAll c (·.within m spc pad)).dropEarly c (·.within m spc pad)

/-- A store of a micro-thread to a scratchpad, at once or later (log 34). -/
def State.padStore (s : State) (c : Nat) (x : LateStore) : State :=
  if Config.storesLate s.free then
    (s.dropEarly c (·.within x.mt x.spc x.pad)).modCore c fun k =>
      { k with lateStores := k.lateStores ++ [x] }
  else (s.padOrder c x.mt x.spc x.pad).landStore x

/-- A load of a micro-thread from a scratchpad: the word read early, if there is one, after which
no older one of its group is used; else the word as it stands. -/
def State.padLoad (s : State) (c m spc pad off : Nat) : State × Word :=
  let s := s.landAll c (·.within m spc pad)
  let mine (x : EarlyLoad) : Bool := x.within m spc pad
  match (s.core c).earlyLoads.findIdx? fun x => mine x && x.off == off with
  | some i =>
    let xs := (s.core c).earlyLoads
    (s.modCore c fun k =>
      { k with earlyLoads := (xs.take (i + 1)).filter (!mine ·) ++ xs.drop (i + 1) },
      ((xs[i]?).map (·.word)).getD 0)
  | none => (s.dropEarly c mine, s.readW (.scratch pad off))

/-- The state as the micro-thread that issues reads its core's own scratchpad: its stores to it are
performed (R84). -/
def State.padView (s : State) (c : Nat) : State := s.landAll c (·.within s.curMt 1 c)

/-- All that a micro-thread has outstanding goes before a synchronisation operation. -/
def State.settle (s : State) (c m : Nat) : State :=
  (s.landAll c (·.mt == m)).dropEarly c (·.mt == m)

/-- A late store is performed when none of its group is older. -/
def State.landNext (s : State) (q : Nat × Nat) : State :=
  let xs := (s.core q.1).lateStores
  match xs[q.2]? with
  | none => s
  | some x =>
    if (xs.take q.2).any (·.within x.mt x.spc x.pad) then s
    else (s.modCore q.1 fun k => { k with lateStores := xs.eraseIdx q.2 }).landStore x

/-- A word is read early, unless a store of its group is still to be performed. -/
def State.readEarly (s : State) (q : Nat × Nat × Bool × Nat) : State :=
  let (c, m, clus, off) := q
  let pad := if clus then s.tileMate c (off / 0x80000 % 4) else c
  let spc := if clus then 2 else 1
  let o := off % 0x80000 / 4 * 4
  if 1024 ≤ c ∨ 16 ≤ m ∨ (s.core c).lateStores.any (·.within m spc pad) then s
  else s.modCore c fun k =>
    { k with earlyLoads := k.earlyLoads ++ [⟨m, spc, pad, o, s.readW (.scratch pad o)⟩] }

/-- An early load is forgotten. -/
def State.forgetEarly (s : State) (q : Nat × Nat) : State :=
  if (s.core q.1).earlyLoads[q.2]?.isSome then
    s.modCore q.1 fun k => { k with earlyLoads := k.earlyLoads.eraseIdx q.2 }
  else s

/-- What happens to scratchpad accesses between two steps is free (log 34). -/
def State.padsNext (s : State) : State :=
  s.pads.read.foldl State.readEarly (s.pads.gone.foldl State.forgetEarly (s.pads.done.foldl
    State.landNext s))

/-- All that a micro-thread agent has outstanding is performed; other agents have nothing. -/
def State.settleAgent (s : State) (agent : Word) : State :=
  if agent.toNat / 2 ^ 28 % 8 = 0 then s.settle (agent.toNat % 1024) (agent.toNat / 2 ^ 24 % 16) else s

/-- Closes the region of an agent: a synchronisation operation or an early close (R79, R83, R84). While
it has messages that are not performed its records stay: the close is complete with the last (log 33). -/
def State.closeRegion (s : State) (agent : Word) : State :=
  let s := (s.settleAgent agent).stepRegion agent
  s.dropRecs fun q => q.agent == agent && !s.owes agent q.rsn

/-- RSN of an agent's region; engines carry their operation's SEQ (R373). -/
def State.regionNo (s : State) (agent : Word) : BitVec 16 :=
  let c := agentCore agent
  let m := agent.toNat / 2 ^ 24 % 16
  if agent.toNat / 2 ^ 28 % 8 = 0 then (s.mt c m).region else (s.hart c).region

/-- The bytes of a record that an access meets: writes always, reads when it writes. -/
def RegionRec.hit (q : RegionRec) (bytes : BitVec 64) (write : Bool) : BitVec 64 :=
  bytes &&& (q.wmask ||| (if write then q.rmask else 0))

/-- It has messages from an earlier region than its present one: its accesses wait for them (R81,
R83). -/
def State.fencedIn (s : State) (agent : Word) : Bool :=
  (s.core (agentCore agent)).ownStores.any fun x => x.agent == agent && x.rsn != s.regionNo agent

/-- A message of an agent has been performed: the closes that waited for it are complete. An engine's
records go at its operation's end. -/
def State.closesDone (s : State) (agent : Word) : State :=
  if agent.toNat / 2 ^ 28 % 8 ≤ 1 then
    s.dropRecs fun q => q.agent == agent && q.rsn != s.regionNo agent && !s.owes agent q.rsn
  else s

/-- Enters an access into its agent's record (R374). -/
def RegionRec.enter (q : RegionRec) (bytes : BitVec 64) (write : Bool) : RegionRec :=
  if write then { q with wmask := q.wmask ||| bytes } else { q with rmask := q.rmask ||| bytes }

/-- The record is of a region of an agent, or of an operation of an engine. -/
def RegionRec.of (q : RegionRec) (agent : Word) (rsn : BitVec 16) : Bool := q.agent == agent && q.rsn == rsn

/-- The records of a line with an access entered; of two others the older yields, and the second answer
names it. One whose region has messages on their way yields only where no other can, and stays until
they are performed. DESIGN CHOICE (log 33): the older of two open regions is the one whose record on this
line was opened first. -/
def enterRec (owed : RegionRec → Bool) (recs : List RegionRec) (agent : Word) (rsn : BitVec 16)
    (bytes : BitVec 64) (write : Bool) : List RegionRec × Option RegionRec :=
  if recs.any (·.of agent rsn) then
    (recs.map fun q => if q.of agent rsn then q.enter bytes write else q, none)
  else
    let mine := (⟨agent, rsn, 0, 0⟩ : RegionRec).enter bytes write
    if recs.length < 2 then (recs ++ [mine], none)
    else
      match recs.find? (!owed ·) with
      | some a => (recs.erase a ++ [mine], some a)
      | none => (recs ++ [mine], if recs.length = 2 then recs.head? else none)

/-- A slice closes the region of a record early (R83). -/
def State.closeRec (s : State) (q : RegionRec) : State :=
  if q.agent.toNat / 2 ^ 28 % 8 ≤ 1 then s.closeRegion q.agent
  else s.dropRecs fun x => x.of q.agent q.rsn && !s.owes q.agent q.rsn

/-- Makes room for a line in the table of its slice: at 4,096 lines every region of the least
recently used one closes (R374); a line with messages on their way is passed over. -/
def State.lineRoom (s : State) (key : Nat) : State :=
  let same := s.lines.filter fun l => l.key != key && lineSlice l.key == lineSlice key
  if 4096 ≤ same.length then
    match same.find? fun l => l.recs.all fun q => !s.owes q.agent q.rsn with
    | some l =>
      let s := l.recs.foldl (fun s q => s.closeRec q) s
      { s with lines := s.lines.filter (·.key != l.key) }
    | none => s
  else s

/-- The records of a line. -/
def State.lineRecs (s : State) (key : Nat) : List RegionRec :=
  (s.lines.find? (·.key == key)).map (·.recs) |>.getD []

/-- Enters an access of a region into a line (R374). A region that the making of room has closed is
begun anew. -/
def State.enterLine (s : State) (key : Nat) (agent : Word) (rsn : BitVec 16) (bytes : BitVec 64)
    (write : Bool) : State :=
  let s := s.lineRoom key
  let rsn := if agent.toNat / 2 ^ 28 % 8 ≤ 1 then s.regionNo agent else rsn
  let r := enterRec (fun q => s.owes q.agent q.rsn) (s.lineRecs key) agent rsn bytes write
  let s : State := match r.2 with
    | some a => s.closeRec a
    | none => s
  { s with lines := s.lines.filter (·.key != key) ++ [⟨key, r.1⟩] }

/-- What a conflicting access reports (R375). -/
structure Conflict where
  other : RegionRec
  write : Bool
  special : Bool
  deriving Repr

/-- Bytes of the line an access of `n` bytes touches. -/
def lineMask (b n : Nat) : BitVec 64 := BitVec.ofNat 64 ((2 ^ n - 1) * 2 ^ b)

/-- The agent that an access counts for: a twin's accesses count as its primary's (R379). -/
def State.pairAgent (s : State) (agent : Word) : Word :=
  let c := agent.toNat % 1024
  match (s.core c).pair with
  | some q => if q.twin then BitVec.ofNat 32 (agent.toNat - c + q.other) else agent
  | none => agent

/-- Two cores on different sides of the pairs of one launch (R376). -/
def State.acrossPair (s : State) (a b : Nat) : Bool :=
  (s.core a).launch.isSome && (s.core a).launch == (s.core b).launch &&
    (s.core a).isTwin != (s.core b).isTwin

/-- The record is another agent's, or another operation's of an engine; what a pair does as one agent
is no conflict (R79, R379). -/
def State.meets (s : State) (agent : Word) (rsn : BitVec 16) (q : RegionRec) : Bool :=
  if agentCore q.agent = agentCore agent then
    q.agent != agent || (decide (2 ≤ agent.toNat / 2 ^ 28 % 8) && q.rsn != rsn)
  else s.pairAgent q.agent != s.pairAgent agent

/-- The bytes of slice-homed memory that an atomic or an STSB on its way is to write. -/
def Payload.special : Payload → Option (Loc × Nat)
  | .nibble 3 c a .. => some (.gran c a, 1)
  | .nibble 4 _ a .. => some (.dram a, 1)
  | .nibble 5 _ a .. => some (.remote a, 1)
  | .rmw k a n _ => some (homedLoc k a, n)
  | _ => none

/-- Two ranges of slice-homed bytes have one in common. -/
def Loc.overlaps (l : Loc) (n : Nat) (k : Loc) (m : Nat) : Bool :=
  match l.line, k.line with
  | some (x, a), some (y, b) => x == y && lineMask a n &&& lineMask b m != 0
  | _, _ => false

/-- An atomic or an STSB of another agent to bytes of an access is on its way, and they conflict: the
access waits, so that it does not come between the writes of one region (R82, log 33). An STSB is the
special access of one byte. -/
def State.specialAhead (s : State) (agent : Word) (l : Loc) (n : Nat) (special : Bool) : Bool :=
  s.cores.any fun e => e.2.ownStores.any fun x =>
    match x.pl.special with
    | some (k, m) =>
      l.overlaps n k m && !(special && (m == 1) == (n == 1)) &&
        s.pairAgent x.agent != s.pairAgent agent && !s.acrossPair e.1 (agentCore agent)
    | none => false

/-- Checks and records one access (R374). `special`: an atomic, an STSB or a signal write,
checked as a write and not entered. An engine early-closes what it meets, and waits (`none`) for a
region whose messages are on their way. A twin's write counts when its primary issues it (R379). Across
the sides of a paired launch nothing raises: what a side orders, the other may come to later, and an
early close serves (R83, log 33). -/
def State.regionAccess (s : State) (agent : Word) (rsn : BitVec 16) (engine : Bool) (l : Loc)
    (n : Nat) (write special : Bool) : Except (Option Conflict) State :=
  match l.line with
  | none => .ok s
  | some (key, b) =>
    if (write || special) && (s.core (agentCore agent)).isTwin then .ok s
    else
      let bytes := lineMask b n
      let hits := (s.lineRecs key).filter fun q =>
        s.meets agent rsn q && q.hit bytes (write || special) != 0
      let across (q : RegionRec) : Bool := s.acrossPair (agentCore q.agent) (agentCore agent)
      let owed (q : RegionRec) : Bool := s.owes q.agent q.rsn
      let closed := (hits.filter fun q => !owed q && (engine || across q)).foldl State.closeRec s
      let enter (s : State) : State := if special then s else s.enterLine key agent rsn bytes write
      match hits.find? fun q => !across q && (!engine || owed q) with
      | some q => .error (if engine then none else some ⟨q, write, special⟩)
      | none => if s.specialAhead agent l n special then .error none else .ok (enter closed)

end Sys2Proof.Machine
end

