-- ==== Sys2Proof/Machine/Ops.lean ====
section
/-! DEFINITION. The operations that many instructions share: messages into the fabric (R306,
R307), trap records and their delivery (R346 to R355), taking a trap of a micro-thread (R348),
the control thread's exceptions and returns (R33, R356), gangs that disband (R55), inbox and
dispatch numbers (R227, R231), and the kill of a paddock (R384). -/

namespace Sys2Proof.Machine

/-! ### Messages -/

/-- Endpoints (R306). An endpoint of another package is offset by 4,096 × (package + 1). -/
def epSlice (c : Nat) : Nat := 1024 + c
def epCp (d : Nat) : Nat := 2048 + d
def epHost : Nat := 2052
def epRemote (pkg ep : Nat) : Nat := (pkg + 1) * 4096 + ep

/-- Message classes (R305). -/
def clsRequest : Nat := 0
def clsResponse : Nat := 1
def clsEvent : Nat := 2
def clsManagement : Nat := 3

/-- One step of CRC-32C on a byte, bit-reversed form (R378). -/
def crcByte (crc : Word) (b : Byte) : Word :=
  (List.range 8).foldl
    (fun c _ => if c.getLsbD 0 then (c >>> 1) ^^^ 0x82F63B78#32 else c >>> 1)
    (crc ^^^ b.setWidth 32)

/-- CRC-32C, polynomial 0x1EDC_6F41 (R378). -/
def crc32c (bs : List Byte) : Word := ~~~(bs.foldl crcByte 0xFFFFFFFF#32)

/-- The number of an AMO among the operations. -/
def RvAmo.code : RvAmo → Nat
  | .swap => 0 | .add => 1 | .xor => 2 | .and => 3 | .or => 4 | .min => 5 | .max => 6
  | .minu => 7 | .maxu => 8

/-- The type of an atomic among those of set A32. -/
def atomTyCode : Ty → Nat
  | .b32 => 0
  | .s32 => 1
  | .z32 => 2
  | _ => 3

/-- The number, below 64, and the data of an atomic (log 9). -/
def RmwOp.wire : RmwOp → Nat × List Byte
  | .atom aop ty v => (aop + 8 * atomTyCode ty, leBytes 4 v.toNat)
  | .cas c v => (32, leBytes 4 c.toNat ++ leBytes 4 v.toNat)
  | .counter n err => (if err then 34 else 33, leBytes 4 n)
  | .advance prod n => (if prod then 36 else 35, leBytes 4 n)
  | .amo k v => (48 + RvAmo.code k, leBytes 8 v)

/-- The 64 bytes of a record with its ring phase (R347). -/
def TrapRec.bytes (r : TrapRec) (ph : Bool) : List Byte :=
  leBytes 4 ((if ph then 2 ^ 31 else 0) + r.srck * 2 ^ 28 + r.mt * 2 ^ 24 + r.core) ++
  leBytes 4 (r.inc.toNat * 65536 + r.ctx.toNat) ++
  leBytes 4 ((if r.late then 2 ^ 31 else 0) + r.detail * 256 + r.code) ++
  leBytes 2 r.seq.toNat ++
  leBytes 2 (match r.memb with | some m => 32768 + m | none => 0) ++
  leBytes 8 r.pc.toNat ++ leBytes 8 r.addr.toNat ++
  leBytes 2 r.repcnt ++ leBytes 2 r.rkcnt ++
  leBytes 4 r.info.toNat ++ leBytes 8 r.time ++ leBytes 16 r.aux.toNat

/-- The number that stands for OPC, the bytes of ADDR, and the data of a payload. The spec
numbers no OPC (log 9). The sender's number is the header's SRC and no data, and its micro-thread goes
in ADDR, so that 32 entries fill four data flits. -/
def Payload.wire : Payload → Nat × Nat × List Byte
  | .signal c w v _ => (1, c * 0x10000 + w, leBytes 4 v.toNat)
  | .atred c w aop ty v => (2 + aop * 16 + ty.code * 256, c * 0x10000 + w, leBytes 4 v.toNat)
  | .nibble sp c a hi v => (3 + sp * 16 + (if hi then 256 else 0), c * 2 ^ 40 + a, leBytes 1 v.toNat)
  | .event c _ smt w => (4, c * 0x10000 + smt, leBytes 4 w.toNat)
  | .rank c _ smt es fin =>
    (if fin then 6 else 5, c * 0x10000 + smt, es.flatMap fun w => leBytes 4 w.toNat)
  | .partialSum p =>
    (7 + p.op * 16 + p.ty.code * 256, p.line,
      leBytes 4 (p.slice.getD 0 * 4096 + p.slices) ++ leBytes 8 (p.data.map fun x => 2 ^ x.1).sum ++
        (sortBy (fun a b => decide (a.1 ≤ b.1)) p.data).flatMap (·.2))
  | .store kd a d => (8 + kd * 16, a, d)
  | .merge kd a ps => (kd * 16, a, leBytes 1 (ps.map fun x => 2 ^ x.1).sum ++ ps.map (·.2))
  | .rmw kd a n op => (12 + kd * 16 + (if n = 8 then 128 else 0) + op.wire.1 * 256, a, op.wire.2)
  | .device pa n v => (13 + n * 16, pa, leBytes n v.toNat)
  | .arrival k n =>
    (14 + k.scope * 16, k.unit * 2 ^ 36 + k.launch * 16 + k.id, leBytes 4 n)
  | .launch _ r _ =>
    (15, r.w1.toNat, leBytes 8 r.w0.toNat ++ leBytes 8 r.w1.toNat ++ leBytes 8 r.w2.toNat ++
      leBytes 8 r.w3.toNat)
  | .trapRecord r => (9, r.core, r.bytes false)
  | .notify n => (10, n, [])
  | .marker c _ _ => (11, c, [])

/-- Data flits of a payload (R306). -/
def Payload.flits (p : Payload) : Nat := (p.wire.2.2.length + 31) / 32

/-- The package of an endpoint (R306). -/
def epPkg (ep : Nat) : Nat := if ep < 4096 then Config.pkgNum else ep / 4096 - 1

/-- DIG of a paired message: header fields in the order of R378, then the data. -/
def digest (dst ctx : Nat) (p : Payload) : Word :=
  let w := p.wire
  crc32c (leBytes 2 w.1 ++ leBytes 1 p.flits ++ leBytes 6 w.2.1 ++
    leBytes 2 (dst % 4096) ++ leBytes 2 (epPkg dst) ++ leBytes 2 ctx ++ w.2.2)

/-- The header of a message, by the fields of R306, with a paired message's OPX (R378). -/
def Packet.header (p : Packet) : BitVec 256 :=
  let w := p.payload.wire
  let opx : Nat := match p.pair with
    | some t => t.seq * 2 ^ 48 + (if t.twin then 2 ^ 44 else 0) + t.id * 2 ^ 32 + t.digest.toNat
    | none => 0
  BitVec.ofNat 256 (opx * 2 ^ 176 + w.2.1 % 2 ^ 48 * 2 ^ 128 + p.spkg * 2 ^ 105 +
    epPkg p.dst * 2 ^ 96 + p.src % 4096 * 2 ^ 84 + p.dst % 4096 * 2 ^ 72 + p.gen * 2 ^ 68 +
    p.grp % 4096 * 2 ^ 56 + p.inc.toNat * 2 ^ 48 + p.ctx.toNat * 2 ^ 36 + p.seq.toNat * 2 ^ 20 +
    (if p.kind = .data then p.payload.flits else 0) * 2 ^ 17 + (if p.esc then 2 ^ 16 else 0) +
    p.cls * 2 ^ 14 + w.1 % 2 ^ 14)

def Flow.matches (f : Flow) (src dst cls : Nat) : Bool := f.src == src && f.dst == dst && f.cls == cls

def State.flow (s : State) (src dst cls : Nat) : Flow :=
  (s.flows.find? (·.matches src dst cls)).getD ⟨src, dst, cls, none, 0, [], 0, []⟩

def State.setFlow (s : State) (f : Flow) : State :=
  { s with flows :=
      if s.flows.any (·.matches f.src f.dst f.cls) then
        s.flows.map fun g => if g.matches f.src f.dst f.cls then f else g
      else s.flows ++ [f] }

/-- The context's earlier flow to the same destination still holds unacknowledged copies. -/
def State.blocked (s : State) (f : Flow) : Bool :=
  match f.before with
  | some b => (s.flow b f.dst f.cls).copies != []
  | none => false

/-- A copy that is sent again. -/
def SentCopy.resent (c : SentCopy) (now : Nat) : SentCopy := { c with sentAt := now, retryAt := none }

/-- Messages enter the network, on the adaptive channel of their class (R305). -/
def State.putWire (s : State) (ps : List Packet) : State :=
  { s with wire := s.wire ++ ps.map fun p => { p with esc := false, moved := s.now } }

/-- The flows that waited for flow (src, dst, cls) to drain begin to send (R71). -/
def State.unblock (s : State) (src dst cls : Nat) : State :=
  (s.flows.filter fun f => f.before == some src && f.dst == dst && f.cls == cls).foldl
    (fun s f =>
      let on := f.copies.take 64
      let s := s.setFlow { f with
        before := none
        copies := on.map (·.resent s.now) ++ f.copies.drop 64 }
      s.putWire (on.map (·.pkt))) s

/-- Gives a message its place in its flow. The source keeps a copy; the 65th unacknowledged
message waits in the flow (R307). -/
def State.injectFor (s : State) (who : Option Word) (p : Packet) : State :=
  let f := s.flow p.src p.dst p.flow
  let p := { p with seq := f.next }
  let s := s.setFlow { f with
    next := f.next + 1
    copies := f.copies ++ [⟨p, who, s.now, 0, none⟩] }
  if f.copies.length < 64 && !s.blocked f then s.putWire [p] else s

/-- A message that is no write of an agent. -/
def State.inject (s : State) (p : Packet) : State := s.injectFor none p

/-- The message goes to a core's mailbox, queue or windrow (R302). -/
def Payload.counted : Payload → Bool
  | .signal .. | .atred .. | .event .. | .rank .. => true
  | _ => false

/-- A message that each twin sends for itself: one between the cores of a tile, which stays in its own
tile, and the marker of a flow (R360). -/
def Payload.unpaired : Payload → Bool
  | .nibble 2 .. | .marker .. => true
  | _ => false

/-- Sends a message on behalf of a core, as a write of an agent or not, tagged with its context and
incarnation (R76), and with its pair when it is paired and of a compared class (R378). -/
def State.sendAs (s : State) (who : Option Word) (core dst cls grp gen : Nat) (pl : Payload) : State :=
  let k := s.core core
  let tag : Option PairTag :=
    match k.pair with
    | some q =>
      if (cls = clsRequest ∨ cls = clsEvent) ∧ pl.unpaired = false then
        some ⟨q.id, q.pseq, q.twin, digest dst k.ctx.toNat pl⟩
      else none
    | none => none
  let s := if tag.isSome then
      s.modCore core fun k => { k with pair := k.pair.map fun q => { q with pseq := (q.pseq + 1) % 65536 } }
    else s
  let s := if pl.counted then s.modCore core fun k => { k with sent := k.sent + 1 } else s
  s.injectFor who ⟨.data, Config.pkgNum, core, dst, cls, cls, 0, 0, k.ctx, k.inc, grp, gen, false, pl, tag⟩

def State.send (s : State) (core dst cls grp gen : Nat) (pl : Payload) : State :=
  s.sendAs none core dst cls grp gen pl

/-- Sends an agent's message to memory, which is outstanding until it is performed (R81). -/
def State.sendFor (s : State) (agent : Word) (rsn : BitVec 16) (core dst grp gen : Nat)
    (pl : Payload) : State :=
  (s.modCore core fun k => { k with ownStores := k.ownStores ++ [⟨agent, rsn, pl⟩] }).sendAs (some agent)
    core dst clsRequest grp gen pl

/-- A message of the core is performed, or will not be: its agent waits for it no longer, and the closes
of its regions that waited for it are complete (R81, R83). -/
def State.sentDoneOn (s : State) (c : Nat) (pl : Payload) : State :=
  let k := s.core c
  match k.ownStores.find? (·.pl == pl) with
  | some x => (s.setCore c { k with ownStores := k.ownStores.eraseP (·.pl == pl) }).closesDone x.agent
  | none => s

/-- A management message of a command processor or of the host die. -/
def State.sendFrom (s : State) (src dst : Nat) (pl : Payload) : State :=
  s.inject ⟨.data, Config.pkgNum, src, dst, clsManagement, clsManagement, 0, 0, 0, 0, 0, 0, false, pl, none⟩

/-! ### Power gating (R329, R401) -/

def State.setGate (s : State) (c : Nat) (g : Gate) : State := s.modCore c fun k => { k with gate := g }

def State.arbiter (s : State) (q : Nat) : Arbiter := s.arbiters.look ⟨[], []⟩ q
def State.setArbiter (s : State) (q : Nat) (a : Arbiter) : State :=
  { s with arbiters := s.arbiters.put ⟨[], []⟩ q a }

/-- Starts the wakes of waiting cores while fewer than four are being woken, each 100 ns after its
request at the earliest: the arbitration (R329, R402). -/
def State.startWakes (s : State) (q : Nat) : Nat → State
  | 0 => s
  | n + 1 =>
    let a := s.arbiter q
    match a.waiting with
    | (c, t) :: rest =>
      if a.waking.length < 4 ∧ t + 100 ≤ s.now then
        State.startWakes ((s.setArbiter q ⟨a.waking ++ [c], rest⟩).setGate c (.waking s.now)) q n
      else s
    | [] => s

/-- The wakes that can start once time has passed (R329). -/
def State.startAllWakes (s : State) : State :=
  s.arbiters.foldl (fun s e => s.startWakes e.1 4) s

/-- A gated core joins its quadrant's in-rush arbiter, behind the earlier requests and, of those of
this instant, those of lower cores. -/
def State.joinArbiter (s : State) (c : Nat) : State :=
  let q := quadOf c
  let a := s.arbiter q
  let before (x : Nat × Nat) : Bool := decide (x.2 < s.now) || decide (x.1 < c)
  (s.setArbiter q { a with
    waiting := a.waiting.takeWhile before ++ [(c, s.now)] ++ a.waiting.dropWhile before }).setGate c .waiting

/-- A wake request: it cancels a hold, also at the very time at which that ends, is kept during gating
entry, queues at the arbiter, and merges with an earlier request (R401). -/
def State.wake (s : State) (c : Nat) : State :=
  match (s.core c).gate with
  | .on | .waiting | .waking _ => s
  | .hold _ => s.setGate c .on
  | .entering t _ => s.setGate c (if t = s.now then .on else .entering t true)
  | .gated => s.joinArbiter c

/-! ### Trap records -/

/-- Little-endian words of bytes. -/
def bytesToWords : List Byte → List Word
  | a :: b :: c :: d :: t => (d ++ c ++ b ++ a : BitVec 32) :: bytesToWords t
  | _ => []

/-- Virtual address of a slot of the core's trap area (R349). -/
def Core.slotVa (k : Core) (slot : Nat) : DWord := (k.trbase &&& ~~~0xFFF#64) + BitVec.ofNat 64 (64 * slot)

/-- Writes a slot of the trap area through the control thread's translation; answers whether
it was written. A slot write that faults is not made (R349). -/
def State.writeSlot (s : State) (c slot : Nat) (r : TrapRec) : State × Bool :=
  let k := s.core c
  if k.trbase.getLsbD 0 then
    match s.writeVirt c .device (k.slotVa slot) (bytesToWords (r.bytes false)) with
    | some s => (s, true)
    | none => (s, false)
  else (s, false)

/-- Sends the host copy of a record unless TRLOC keeps its code in the core (R349, R355). -/
def State.steerRecord (s : State) (c : Nat) (r : TrapRec) : State :=
  if (s.core c).trloc.getLsbD r.code then s
  else s.send c epHost clsManagement 0 0 (.trapRecord r)

/-- A late or report record: slot 16 + j mod 48, then sip[17], an interrupt that wakes a gated
core (R329, R349, R350, R352). -/
def State.lateRecord (s : State) (c : Nat) (r : TrapRec) : State :=
  let j := (s.core c).lcnt
  let s := (s.writeSlot c (16 + j.toNat % 48) r).1
  let s := s.modCore c fun k => { k with lcnt := j + 1, late := true }
  let s := if (s.core c).ct.mie.getLsbD 17 then s.wake c else s
  s.steerRecord c r

/-- A record with the core's tags and the time, for the caller to fill in. -/
def State.newRecord (s : State) (c : Nat) (srck mt code detail : Nat) (late : Bool) : TrapRec :=
  let k := s.core c
  { srck := srck, mt := mt, core := c, ctx := k.ctx, inc := k.inc, late := late,
    detail := detail, code := code, seq := 0, memb := none, pc := 0, addr := 0,
    repcnt := 0, rkcnt := 0, info := 0, time := s.now, aux := 0 }

/-- A late record of an engine: STATUS, bank, OFFS and tag (R346, R347, R352). -/
def State.engineFault (s : State) (c srck mt code : Nat) (seq : BitVec 16) (info : Word)
    (aux : BitVec 128) : State :=
  s.lateRecord c { s.newRecord c srck mt code 0 true with seq := seq, info := info, aux := aux }

/-! ### Micro-threads that stop -/

/-- What leaving to idle clears: REPCNT, RKCNT, the signal and release bits, the block and all
that belongs to one run (R38, R57). Registers keep their values. -/
def Mt.toIdle (t : Mt) : Mt :=
  { t with
    st := .idle, pc := 0, block := none, repcnt := 0, rep := none, rkcnt := 0,
    bound := none, arrived := none, sig := false, rel := false, hold := none, blocked := none,
    asked := [], stopDue := false, gang := none, fire := none, stl := 0, resumed := false, stepping := [],
    stepDue := false }

/-- A queued instruction is an MMA or MMAS. -/
def MxOp.isMma (o : MxOp) : Bool :=
  match o.kind with
  | .mma .. => true
  | _ => false

/-- Closes the chain that micro-thread `m` owns, as CHEND would (R241). The array ramps down once
every instruction of the chain is applied (R328). -/
def Core.closeChain (k : Core) (m : Nat) : Core :=
  match k.mx.chain with
  | some ch =>
    if ch.owner = m then
      { k with mx := { k.mx with
          chain := none
          down := k.mx.down || (ch.started && k.mx.ramp != 0 && !k.mx.queue.any (·.isMma)) } }
    else k
  | none => k

/-- The limiter of a core's quadrant forgets its request (R326). -/
def State.dropAsk (s : State) (c : Nat) : State :=
  let rs := (s.limiters.look [] (quadOf c)).filter (·.2 != c)
  { s with limiters := s.limiters.put [] (quadOf c) rs }

/-- An arrival that is on its way in a phase of a barrier. -/
def Arrival.counts (a : Arrival) (key : BarKey) (phase : Nat) : Bool :=
  a.key == key && a.phase == phase && !a.void

/-- One arrival fewer in an open phase: on its way, or counted. -/
def State.uncount (s : State) (key : BarKey) (phase : Nat) : State :=
  let mine (a : Arrival) : Bool := a.counts key phase && a.ready
  let pend : Bool := s.barPending.any mine
  let s := { s with barPending := s.barPending.eraseP mine }
  { s with barriers := s.barriers.map fun b =>
      if b.key == key && b.phase == phase then
        let n := if pend then b.count else b.count - 1
        { b with count := n, k := if n = 0 && !(s.barPending.any (·.counts key phase)) then none else b.k }
      else b }

/-- Withdraws the arrival of an abandoned BAR of a core, on its way or counted, while its phase is open
(R224). Of a pair's arrival at a wide barrier the primary's withdrawal counts (R379); one that the twin
has not come to yet is void. -/
def State.withdraw (s : State) (c : Nat) (key : BarKey) (phase : Nat) : State :=
  let k := s.core c
  let own (a : Arrival) : Bool :=
    a.counts key phase && !a.ready && a.pair.map (·.1) == k.pair.map (·.id)
  if 2 ≤ key.scope ∧ k.isTwin = true then s
  else
    match s.barPending.find? own with
    | some a => { s with barPending := s.barPending.replace a { a with void := true } }
    | none => s.uncount key phase

/-- Abandons the blocking instruction of a waiting micro-thread, with no effect (R38). -/
def State.abandon (s : State) (c m : Nat) : State :=
  let t := s.mt c m
  let s : State := match t.arrived with
    | some (key, ph) => s.withdraw c key ph
    | none => s
  s.modMt c m fun t => { t with arrived := none, blocked := none }

/-- The members of the gang that micro-thread `m` of core `c` belongs to, with its leader. -/
def State.gangOf (s : State) (c m : Nat) : Option (Nat × List Nat) :=
  match (s.mt c m).gang with
  | some (.leader ms) => some (c, ms)
  | some (.follower l) =>
    match (s.mt l m).gang with
    | some (.leader ms) => some (l, ms)
    | _ => none
  | none => none

/-- The windrow becomes unconfigured when its owner becomes idle (R276). -/
def Core.ownerIdle (k : Core) (m : Nat) : Core :=
  if k.wr.st ≠ .unconfigured ∧ k.wr.owner = m then
    { k with wr := ⟨.unconfigured, 0, [], [], [], k.wr.cutcnt, false, none⟩ }
  else k

/-- A micro-thread becomes idle. -/
def State.idleMt (s : State) (c m : Nat) : State :=
  (s.setMt c m (s.mt c m).toIdle).modCore c (·.ownerIdle m)

/-- The gang disbands: followers become idle with their chains closed, the leader goes on
(R55, R241). -/
def State.disband (s : State) (c m : Nat) : State :=
  match s.gangOf c m with
  | none => s
  | some (l, ms) =>
    ms.foldl (fun s x =>
      let s := s.modCore x (·.closeChain m)
      if x = l then s.modMt x m fun t => { t with gang := none }
      else s.idleMt x m) s

/-- A micro-thread moves to stopping: its region and its chain close (R38, R79, R241). -/
def State.toStopping (s : State) (c m : Nat) : State :=
  let s := s.closeRegion (agentId 0 m c)
  let s := s.modCore c (·.closeChain m)
  s.modMt c m fun t =>
    { t with
      st := .stopping, block := none, repcnt := 0, rep := none, bound := none,
      hold := none, blocked := none, asked := [], stopDue := false, resumed := false, stepping := []
      stepDue := false }

/-- The members of the gang of a micro-thread, or the micro-thread alone. -/
def State.membersOf (s : State) (c m : Nat) : List Nat :=
  match s.gangOf c m with
  | some (_, ms) => ms
  | none => [c]

/-- The core that issues for a micro-thread: its gang's leader, or its own. -/
def State.issuerOf (s : State) (c m : Nat) : Nat :=
  match s.gangOf c m with
  | some (l, _) => l
  | none => c

/-- MTSTOP on one micro-thread. An atomic whose requests are on their way is no boundary: the stop waits
until it has committed (R40, R55). -/
def State.stopMt (s : State) (c m : Nat) : State :=
  if (s.mt c m).st = .idle then s
  else if (s.membersOf c m).any fun x => !(s.mt x m).asked.isEmpty then
    s.modMt (s.issuerOf c m) m fun t => { t with stopDue := true }
  else
    match s.gangOf c m with
    | some (l, ms) =>
      let s := ms.foldl (fun s x => s.abandon x m) s
      let s := s.disband l m
      s.toStopping l m
    | none => (s.abandon c m).toStopping c m

/-- An instruction boundary: an MTSTOP that waited for it acts (R40). -/
def State.boundary (s : State) (c m : Nat) : State :=
  if (s.mt c m).stopDue then (s.modMt c m fun t => { t with stopDue := false }).stopMt c m else s

/-- The request of a number will not be answered: the atomic is given up, and an MTSTOP that waited for
it acts. -/
def State.unask (s : State) (c seq : Nat) : State :=
  let s : State := if (s.hart c).asked = some seq then s.modHart c fun h => { h with asked := none } else s
  ((List.range 16).filter fun m => (s.mt c m).asked.any (·.2 == seq)).foldl (fun s m =>
    (s.modMt c m fun t => { t with asked := [] }).boundary (s.issuerOf c m) m) s

/-! ### Taking a trap of a micro-thread (R348) -/

/-- AUX of causes 0x01 to 0x0E: the failing value over the instruction word (R368). -/
def Exn.auxOf (e : Exn) (word : IWord) : BitVec 128 :=
  match e.aux with
  | some a => a
  | none => if 0x10 ≤ e.code then 0 else e.val ++ word

/-- The precise trap of micro-thread `m` of core `c` at `pc`, raised by gang member `memb`:
the record is made and goes to slot `m` and to the host, the micro-thread enters the trap
hold, its regions and its chain close and its gang disbands (R55, R83, R241, R348, R349). A stop that
waited for the boundary follows the record (R348). -/
def State.takeTrap (s : State) (c m : Nat) (memb : Option Nat) (pc : DWord) (word : IWord)
    (e : Exn) : State :=
  let t := s.mt c m
  let r : TrapRec :=
    { s.newRecord c 0 m e.code e.detail false with
      memb := memb, pc := pc, addr := e.addr, repcnt := t.repcnt, rkcnt := t.rkcnt,
      info := e.info, aux := e.auxOf word }
  let s : State := match s.gangOf c m with
    | some (_, ms) => ms.foldl (fun s x => s.closeRegion (agentId 0 m x)) s
    | none => s.closeRegion (agentId 0 m c)
  let s := s.disband c m
  let s := s.modCore c (·.closeChain m)
  let w := s.writeSlot c m r
  ((w.1.modMt c m fun t =>
    { t with
      st := .waiting, blocked := none, asked := [], hold := some (r, w.2), pc := pc,
      stepping := [], stepDue := false }).steerRecord c r).boundary c m

/-- MTTRAP.HELD: the micro-threads in the trap hold (R349). -/
def Core.held (k : Core) : List Nat := (List.range 16).filter fun m => (k.mt m).hold.isSome

/-- The value of MTTRAP. -/
def Core.mttrap (k : Core) : DWord := (k.held).foldl (fun a m => a ||| (1#64 <<< m)) 0

/-- The place in the age order of a micro-thread that becomes youngest now. Those that do so in one
step go round-robin, from the number after the one that issued last (R298). -/
def State.youngest (s : State) (c m : Nat) : Nat :=
  (s.free + 1) * 16 + (m + 15 - (s.core c).lastMt % 16) % 16

/-- Resumes a held micro-thread at the PC of its slot, or at the recorded PC where the slot
was not written or cannot be read (R351). It leaves the waiting state as the youngest (R298). -/
def State.resumeMt (s : State) (c m : Nat) : State :=
  match (s.mt c m).hold with
  | none => s
  | some (r, written) =>
    let k := s.core c
    let pc : DWord :=
      if written && k.trbase.getLsbD 0 then
        match s.readVirt c .device .read (k.slotVa m + 16) 2 with
        | .ok bs => BitVec.ofNat 64 (leNat bs)
        | .error _ => r.pc
      else r.pc
    s.modMt c m fun t =>
      { t with st := .running, hold := none, pc := pc, resumed := true, age := s.youngest c m }

/-! ### The control thread: exceptions, interrupts and returns (R33; privileged 1.12, log 6) -/

def Priv.code : Priv → Nat
  | .user => 0
  | .supervisor => 1
  | .machine => 3

def Priv.ofCode : Nat → Priv
  | 0 => .user
  | 1 => .supervisor
  | _ => .machine

/-- A field of a 64-bit register. -/
def fieldOf (v : DWord) (lo n : Nat) : Nat := v.toNat / 2 ^ lo % 2 ^ n
def setField (v : DWord) (lo n x : Nat) : DWord :=
  (v &&& ~~~(BitVec.ofNat 64 ((2 ^ n - 1) * 2 ^ lo))) ||| BitVec.ofNat 64 (x % 2 ^ n * 2 ^ lo)

/-- Handler address: vectored for an interrupt when the mode field is 1. -/
def vectorOf (tvec : DWord) (intr : Bool) (code : Nat) : DWord :=
  let base := tvec &&& ~~~3#64
  if intr && fieldOf tvec 0 2 == 1 then base + BitVec.ofNat 64 (4 * code) else base

def causeOf (intr : Bool) (code : Nat) : DWord :=
  BitVec.ofNat 64 ((if intr then 2 ^ 63 else 0) + code)

/-- Entry into supervisor mode: sepc, scause and stval written, SPP and SPIE saved, SIE
cleared, the pc at stvec. -/
def Hart.enterS (h : Hart) (intr : Bool) (code : Nat) (tval : DWord) : Hart :=
  let st := setField h.mstatus 8 1 (if h.priv = .user then 0 else 1)
  let st := setField st 5 1 (fieldOf h.mstatus 1 1)
  { h with
    mstatus := setField st 1 1 0
    sepc := h.pc, scause := causeOf intr code, stval := tval
    priv := .supervisor, pc := vectorOf h.stvec intr code, wfi := false, stall := none }

/-- Entry into machine mode: mepc, mcause and mtval written, MPP and MPIE saved, MIE cleared,
the pc at mtvec. -/
def Hart.enterM (h : Hart) (intr : Bool) (code : Nat) (tval : DWord) : Hart :=
  let st := setField h.mstatus 11 2 h.priv.code
  let st := setField st 7 1 (fieldOf h.mstatus 3 1)
  { h with
    mstatus := setField st 3 1 0
    mepc := h.pc, mcause := causeOf intr code, mtval := tval
    priv := .machine, pc := vectorOf h.mtvec intr code, wfi := false, stall := none }

/-- An exception or interrupt of the control thread, delegated as medeleg and mideleg say. -/
def Hart.enter (h : Hart) (intr : Bool) (code : Nat) (tval : DWord) : Hart :=
  let deleg := if intr then h.mideleg else h.medeleg
  if h.priv ≠ .machine ∧ deleg.getLsbD code then h.enterS intr code tval
  else h.enterM intr code tval

/-- MRET: privilege and interrupt enable from MPP and MPIE, the pc from mepc. -/
def Hart.mret (h : Hart) : Hart :=
  let p := Priv.ofCode (fieldOf h.mstatus 11 2)
  let st := setField h.mstatus 3 1 (fieldOf h.mstatus 7 1)
  let st := setField st 7 1 1
  let st := setField st 11 2 0
  let st := if p = .machine then st else setField st 17 1 0
  { h with mstatus := st, priv := p, pc := h.mepc }

/-- SRET: privilege and interrupt enable from SPP and SPIE, the pc from sepc. -/
def Hart.sret (h : Hart) : Hart :=
  let p : Priv := if fieldOf h.mstatus 8 1 = 1 then .supervisor else .user
  let st := setField h.mstatus 1 1 (fieldOf h.mstatus 5 1)
  let st := setField st 5 1 1
  let st := setField st 8 1 0
  let st := setField st 17 1 0
  { h with mstatus := st, priv := p, pc := h.sepc }

/-- A synchronous exception of the control thread of core `c` at its pc. -/
def State.ctTrap (s : State) (c code : Nat) (tval : DWord) : State :=
  s.modHart c (·.enter false code tval)

/-- stval of an extension fault (R372). -/
def extTval (cause detail : Nat) : DWord := BitVec.ofNat 64 (detail * 256 + cause)

/-- The extension fault, code 26 (R372). -/
def State.extFault (s : State) (c cause detail : Nat) : State :=
  s.ctTrap c 26 (extTval cause detail)

/-- minstret once an instruction has retired, unless mcountinhibit holds it (R33). -/
def Hart.retired (h : Hart) : DWord := if h.mcountinhibit.getLsbD 2 then h.minstret else h.minstret + 1

/-- An instruction of the control thread retires: the pc moves on, and under DBGCTL.CSTEP one
that began in user mode is followed by exception code 24 into supervisor mode (R364). -/
def State.ctRetire (s : State) (c : Nat) (user : Bool) (npc : DWord) : State :=
  let s := s.modHart c fun h => { h with pc := npc, stall := none, minstret := h.retired }
  if user && (s.core c).dbgctl.getLsbD 17 then s.modHart c (·.enterS false 24 0) else s

/-- sip as the control thread reads it: bit 16 while a hold stands, bit 17 as the late latch
(R350). -/
def Core.ip (k : Core) : DWord :=
  let v := k.ct.mip
  let v := if k.held.isEmpty then v else v ||| 0x10000
  if k.late then v ||| 0x20000 else v

/-- Interrupts that are pending, enabled and not masked in the current mode, highest first:
machine ones before delegated ones, then by the family's order (log 6). -/
def Core.pendingIrq (k : Core) : Option Nat :=
  let h := k.ct
  let on := k.ip &&& h.mie
  let mOn : Bool := h.priv ≠ .machine || fieldOf h.mstatus 3 1 == 1
  let sOn : Bool := h.priv = .user || (h.priv = .supervisor && fieldOf h.mstatus 1 1 == 1)
  let order := [11, 3, 7, 9, 1, 5, 16, 17]
  match order.find? fun i => mOn && on.getLsbD i && !h.mideleg.getLsbD i with
  | some i => some i
  | none => order.find? fun i => sOn && on.getLsbD i && h.mideleg.getLsbD i

/-! ### Dispatch numbers and the inbox (R227, R231, R353) -/

/-- Gives the next operation its SEQ and writes its entry of the dispatch ring. -/
def Core.dispatch (k : Core) (pc : DWord) (op : Nat) (mt : Nat) (ct : Bool) (a b c : Word) : Core :=
  { k with
    seq := k.seq + 1, issued := k.issued + 1
    ring := k.ring.upd (k.seq.toNat % 64)
      ⟨k.seq, if ct then 0 else pc.setWidth 48, BitVec.ofNat 10 op, mt, ct, a, b, c⟩ }

/-- Posts a completion record; with the inbox full the engine holds it in order (R227). -/
def Core.post (k : Core) (r : InboxRec) : Core :=
  if k.inbox.length < 32 ∧ k.posting.isEmpty then { k with inbox := k.inbox ++ [r] }
  else { k with posting := k.posting ++ [r] }

/-- Fills freed inbox entries with the completions that engines hold. -/
def Core.refill (k : Core) : Core :=
  let n := 32 - k.inbox.length
  { k with inbox := k.inbox ++ k.posting.take n, posting := k.posting.drop n }

/-- Takes the oldest record, or the oldest with a tag (R228). -/
def Core.takeRec (k : Core) (tag : Option (BitVec 16)) : Option (InboxRec × Core) :=
  let ok (r : InboxRec) : Bool := match tag with | some t => r.tag == t | none => true
  match k.inbox.find? ok with
  | none => none
  | some r => some (r, { k with inbox := k.inbox.eraseP ok })

/-- The 128 bits of a record (R227). -/
def InboxRec.words (r : InboxRec) : List Word :=
  [BitVec.ofNat 32 (r.status * 2 ^ 20 + r.kind * 2 ^ 16 + r.tag.toNat), r.seq.setWidth 32,
   r.offs, r.info]

/-! ### Nodes -/

/-- A node number is its die × 4,096 + its slot. -/
def State.node? (s : State) (n : Nat) : Option Node := (s.die (n / 4096)).nodes.get? (n % 4096)
def State.setNode (s : State) (n : Nat) (x : Node) : State :=
  s.modDie (n / 4096) fun d => { d with nodes := d.nodes.upd (n % 4096) x }
def State.modNode (s : State) (n : Nat) (f : Node → Node) : State :=
  match s.node? n with
  | some x => s.setNode n (f x)
  | none => s

/-! ### Containment records (R389) -/

/-- Writes a record of bytes at the tail of a ring, as one line write at its place. -/
def State.ringWrite (s : State) (r : Nat) (bytes : Bool → List Byte) : State :=
  let g := s.ring r
  let n := 2 ^ g.log2n
  let ph : Bool := g.tail.toNat / n % 2 == 0
  let pa := g.base.toNat * 64 + g.tail.toNat % n * 64
  let s : State := match physLoc pa 0 with
    | some l => s.writeLoc l (bytes ph)
    | none => s
  s.modRing r fun g => { g with tail := g.tail + 1 }

/-- A ring takes a record while it is in use and not full (R355). -/
def Ring.room (g : Ring) : Bool := g.en && (g.tail - g.head).toNat < 2 ^ g.log2n

/-- Sets the phase bit of a record's first word. -/
def withPhase (bs : List Byte) (ph : Bool) : List Byte :=
  match bs with
  | a :: b :: c :: d :: t => a :: b :: c :: (if ph then d ||| 0x80 else d &&& 0x7F) :: t
  | bs => bs

/-- Delivers a record to a ring, or keeps it for the ring (R355). -/
def State.ringDeliver (s : State) (r : Nat) (bs : List Byte) : State :=
  if (s.ring r).room && (s.ring r).held.isEmpty then s.ringWrite r (withPhase bs)
  else s.modRing r fun g => { g with held := g.held ++ [bs] }

/-- The number of the management ring among the rings (R389). -/
def mgmtRing : Nat := 16

/-- The paddock of a core: 0 to 15, or 16 for the residual paddock of its die (R383). -/
def Paddock.covers (p : Paddock) (tile : Nat) : Bool :=
  let r := tile % 64 / 8
  let c := tile % 8
  p.en && decide (p.tr0 ≤ r ∧ r ≤ p.tr1 ∧ p.tc0 ≤ c ∧ c ≤ p.tc1)

def Die.paddock (d : Die) (p : Nat) : Paddock := d.pdk.look .init p
def Die.modPaddock (d : Die) (p : Nat) (f : Paddock → Paddock) : Die :=
  { d with pdk := d.pdk.upd p (f (d.paddock p)) }

def State.paddockOf (s : State) (c : Nat) : Nat :=
  let d := s.die (coreDie c)
  ((List.range 16).find? fun p => (d.paddock p).covers (tileOf c)).getD 16

def State.fenced (s : State) (c : Nat) : Bool :=
  ((s.die (coreDie c)).paddock (s.paddockOf c)).fen

/-- A containment record (R389). -/
structure Containment where
  type : Nat
  ctxw : Nat
  core0 : Option Nat
  core1 : Option Nat
  addr : Nat
  pairSeq : Nat
  digs : Nat
  pdk : Option (Nat × Nat)
  tail : Nat

def Containment.plain (type : Nat) : Containment := ⟨type, 0, none, none, 0, 0, 0, none, 0⟩

def validCore : Option Nat → Nat
  | some c => 2 ^ 31 + c
  | none => 0

def Containment.bytes (r : Containment) (now : Nat) : List Byte :=
  leBytes 4 r.type ++ leBytes 4 r.ctxw ++ leBytes 4 (validCore r.core0) ++
  leBytes 4 (validCore r.core1) ++ leBytes 8 r.addr ++ leBytes 4 r.pairSeq ++ leBytes 8 r.digs ++
  leBytes 4 (match r.pdk with | some (d, p) => 2 ^ 31 + d * 32 + p | none => 0) ++
  leBytes 8 now ++ leBytes 16 r.tail

def State.contain (s : State) (r : Containment) : State :=
  s.ringDeliver mgmtRing (r.bytes s.now)

/-! ### Groups (R309) -/

def Die.group (d : Die) (g : Nat) : Group := d.groups.look ⟨[], 0, 0, false⟩ g

/-- A message of a group, by its die × 4,096 + its number, is acknowledged, or gone with its sender. -/
def State.dropGroup (s : State) (grp : Nat) : State :=
  if grp = 0 then s
  else
    let g := grp % 4096
    s.modDie (grp / 4096) fun x =>
      { x with groups := x.groups.upd g { x.group g with drain := (x.group g).drain - 1 } }

/-- A copy gives the group it took back. -/
def State.dropCopyGroup (s : State) (o : CopyOp) : State := s.dropGroup o.grp

/-! ### Incarnations (R260) -/

/-- The incarnation table's entry of a context: INC, and the values stale and not reclaimed
(R260). -/
def State.incEntry (s : State) (ctx : Nat) : Nat × List Nat := s.incTab.look (0, []) ctx

/-- A tag of an incarnation that its context no longer has (R77, R386). -/
def State.staleTag (s : State) (ctx : BitVec 12) (inc : BitVec 8) : Bool :=
  BitVec.ofNat 8 (s.incEntry ctx.toNat).1 != inc

/-! ### Cores that are stopped for their launch (R294, R384, R399) -/

/-- The supervisor has the control thread and waits (log 15). -/
def Hart.park (h : Hart) : Hart := { h with priv := .supervisor, wfi := true, stall := none, sync := none }

/-- The queued instructions are gone, with the grant that one had; where they kept a closed chain from its
end, the array ramps down (R326, R328). -/
def Matrix.emptied (x : Matrix) : Matrix :=
  { x with queue := [], granted := false, down := x.down || (x.chain.isNone && x.ramp != 0) }

/-- Queued operations do not start: they are discarded (R358, R384). -/
def State.dropQueued (s : State) (c : Nat) : State :=
  let k := s.core c
  let gone := k.copies.filter (!·.started) ++ k.fifo
  let s := (gone.foldl (fun s o => s.dropCopyGroup o) s).dropAsk c
  s.modCore c fun k =>
    { k with
      copies := k.copies.filter (·.started), fifo := [], evq := []
      mx := k.mx.emptied }

/-- Stops a core as by MTSTOP, and its engines as in the drain phase of a migration. -/
def State.stopCore (s : State) (c : Nat) : State :=
  let s := (List.range 16).foldl (fun s m => s.stopMt c m) s
  let s := s.dropQueued c
  s.modCore c fun k =>
    { k with
      ct := k.ct.park, actors := k.actors.map fun a => (a.1, { a.2 with en := false }) }

/-! ### Paddock kill (R384) -/

/-- Step 2 of R384: the core is reset. What belongs to its tile's power and its site stays. -/
def Core.kill (k : Core) : Core :=
  { Core.init with
    duty := k.duty, tallow := k.tallow, gate := k.gate
    mx := { Core.init.mx with ramp := k.mx.ramp, down := k.mx.ramp != 0 } }

/-- Poison of a core's own memories (cleared by the reset). -/
def siteInCore (e : ErrorSite) (c : Nat) : Bool :=
  match e with
  | .scratchWord x _ | .laneWord x _ _ | .mailboxLine x _ | .bankWord x _ _ => x == c
  | _ => false

/-- Child launches of a core whose requester has been reset are no longer its own. -/
def Die.orphan (x : Die) (c : Nat) : Die :=
  { x with
    childQ := x.childQ.filter fun q => q.1.core != c
    nodes := x.nodes.map fun e =>
      if (e.2.child.map (·.core)) == some c then (e.1, { e.2 with child := none }) else e }

/-- The regions of a core's agents close, and none of its records stays. -/
def State.closeCore (s : State) (c : Nat) : State :=
  (((List.range 16).foldl (fun s m => s.closeRegion (agentId 0 m c)) s).closeRegion
    (agentId 1 0 c)).dropRecs fun q => agentCore q.agent == c

def State.qhome (s : State) (key : Nat) : Option QHome := s.qhomes.get? key

/-- A binding is dropped; with the last, the home writes the pointers back (R212). A twin's own home
writes nothing: its primary's does. -/
def State.unbind (s : State) (key : Nat) : State :=
  match s.qhome key with
  | none => s
  | some q =>
    if 1 < q.binds then { s with qhomes := s.qhomes.upd key { q with binds := q.binds - 1 } }
    else
      let s := { s with qhomes := s.qhomes.del key }
      if 2 ^ 60 ≤ key then s
      else (s.writeW (.dram (key + 16)) q.prod).writeW (.dram (key + 20)) q.cons

/-- The queue homes of a core and of its tile become unconfigured, and its bindings at other homes
are dropped (R212, R384). -/
def State.dropQueues (s : State) (c : Nat) : State :=
  let s := { s with qhomes := s.qhomes.filter fun q =>
    !((q.2.spc == 1 && q.2.unit == c) || (q.2.spc == 2 && q.2.unit == tileOf c)) }
  ((s.core c).mts.flatMap fun t => t.2.h.map (·.2.key)).foldl State.unbind s

/-- A freed tile restarts the test of R398. -/
def Die.tileFreed (x : Die) : Die :=
  { x with nodes := x.nodes.map fun e => (e.1, { e.2 with stuck := false }) }

/-- A tile has become free. -/
def State.tilesFreed (s : State) : State :=
  { s with dies := s.dies.map fun (e : Nat × Die) => (e.1, e.2.tileFreed) }

/-- The reset of a core that has power (R384). -/
def State.resetOn (s : State) (c : Nat) : State :=
  let s := (s.dropQueues c).dropAsk c
  let s := (s.closeCore c).dropCached c
  let s := ((s.core c).copies ++ (s.core c).fifo).foldl (fun s o => s.dropCopyGroup o) s
  let s := s.setCore c { (s.core c).kill with inc := BitVec.ofNat 8 (s.incEntry 0).1 }
  let s := { s with dies := s.dies.map fun (e : Nat × Die) => (e.1, e.2.orphan c) }
  { s with poison := s.poison.filter fun e => !siteInCore e c }

/-- The reset of a core. One without power is woken through the arbiter first (R401). -/
def State.resetCore (s : State) (c : Nat) : State :=
  let s := s.wake c
  match (s.core c).gate with
  | .on | .hold _ => s.resetOn c
  | _ => s.modCore c fun k => { k with resetDue := true }

/-- The cores of a paddock of a die. -/
def State.paddockCores (s : State) (d p : Nat) : List Nat :=
  ((List.range 256).map (d * 256 + ·)).filter fun c => s.paddockOf c == p

/-- Die `d`'s migration has a source or destination among the cores. -/
def Die.migrates (x : Die) (cores : List Nat) : Bool :=
  match x.migration with
  | some m => m.pairs.any fun q => cores.contains q.1 || cores.contains q.2
  | none => false

/-- The cores that a migration of a die with an end among the cores moves. -/
def Die.movesWith (x : Die) (cores : List Nat) : List Nat :=
  if x.migrates cores then (x.migration.map fun m => m.pairs.map (·.1)).getD [] else []

/-- The migrations that touch the cores are abandoned; their sources' contexts die too. -/
def State.abandonMigrations (s : State) (cores : List Nat) : State × List Nat :=
  (List.range 4).foldl (fun r d =>
    let x := r.1.die d
    if x.migrates cores then
      let srcs := x.movesWith cores
      let s := r.1.modDie d fun x => { x with migration := none, migst := 3, migwhy := 1 }
      (srcs.foldl (fun s c => s.modCore c fun k => { k with frozen := false }) s, r.2 ++ srcs)
    else r) (s, [])

/-- A launch is ended with status 4: the cores of it that `inside` does not name are stopped. -/
def State.endLaunch (s : State) (inside : List Nat) (n : Nat) : State :=
  match s.node? n with
  | none => s
  | some x =>
    let s := s.setNode n { x with st := .ending, status := 4 }
    ((x.cores ++ x.twins).filter fun c => !inside.contains c).foldl (fun s c => s.stopCore c) s

/-- The endpoint is a core or a home slice of a paddock. -/
def State.epInside (s : State) (d p ep : Nat) : Bool :=
  decide (ep < 2048) && coreDie (ep % 1024) == d && s.paddockOf (ep % 1024) == p

/-- At a fence, and at the reset of cores that ran on behind it, the flows from the fenced cores and
slices lose their state, and start again at SEQ 0 after it; what they have on the way and the
answers to it are dropped (R384, R392, R396). -/
def State.dropFlows (s : State) (d p : Nat) : State :=
  let gone := s.flows.filter fun f => s.epInside d p f.src
  let s := gone.foldl (fun s f =>
    f.copies.foldl (fun s x => s.dropGroup x.pkt.grp) s) s
  let s := { s with
    flows := s.flows.filter fun f => !s.epInside d p f.src
    wire := s.wire.filter fun q => !s.epInside d p (if q.kind = .data then q.src else q.dst) }
  gone.foldl (fun s f => s.unblock f.src f.dst f.cls) s

/-- Steps 2 and 3 of R384: the cores inside reset; every launch with a core inside is ended
with status 4, its outside cores stopped. -/
def State.killRest (s : State) (d p : Nat) : State :=
  let cores := s.paddockCores d p
  let r := s.abandonMigrations cores
  let s := r.1
  let dying := (cores ++ r.2).filter fun c => (s.core c).launch.isSome
  let nodes := (dying.filterMap fun c => (s.core c).launch).dedup
  let s := nodes.foldl (fun s n => s.endLaunch cores n) s
  let s := cores.foldl (fun s c => s.resetCore c) s
  let s := s.dropFlows d p
  let s := { s with
    forwards := s.forwards.filter fun f => !cores.contains f.src && !cores.contains f.dst }
  let s := s.tilesFreed
  s.modDie d (·.modPaddock p fun x => { x with owed := false })

/-- A paddock that can be killed: the residual one or one that its register defines (R383). -/
def State.defined (s : State) (d p : Nat) : Bool := p == 16 || ((s.die d).paddock p).en

/-- A kill of the paddock has an effect. -/
def State.killable (s : State) (d p : Nat) : Bool := !((s.die d).paddock p).fen && s.defined d p

/-- The contexts that run inside a paddock, or that a migration brings in or out: those that need a new
incarnation before the fence is lifted (R384). -/
def State.contextsIn (s : State) (d p : Nat) : List Nat :=
  let cores := s.paddockCores d p
  let all := cores ++ (List.range 4).flatMap fun e => (s.die e).movesWith cores
  ((all.filter fun c => (s.core c).launch.isSome).map fun c => (s.core c).ctx.toNat).dedup

/-- Kills a paddock: fence, reset, end. A fenced paddock is not killed again. While dispatch
is frozen only the fence is made (R382, R384). -/
def State.killPaddock (s : State) (d p : Nat) : State :=
  if !s.killable d p then s
  else
    let s := s.modDie d (·.modPaddock p fun x =>
      { x with fen := true, kcnt := min 255 (x.kcnt + 1), pending := s.contextsIn d p })
    let s := s.dropFlows d p
    if (s.die d).frozen then s.modDie d (·.modPaddock p fun x => { x with owed := true })
    else s.killRest d p

/-- The physical address of the line of a poisoned place, 0 where it has none. DESIGN CHOICE (log 32):
a DRAM line is named as the channel interleave maps it. -/
def sitePa : ErrorSite → Nat
  | .dramLine k => k / (256 * chanBytes) * 2 ^ 36 + k % (256 * chanBytes)
  | _ => 0

/-- A poisoned value consumed on core `c`: its paddock is killed and a record of type 3 is
written (R385). -/
def State.consumePoison (s : State) (c : Nat) (e : ErrorSite) : State :=
  let k := s.core c
  let p := s.paddockOf c
  let s := s.killPaddock (coreDie c) p
  s.contain { Containment.plain 3 with
    ctxw := k.inc.toNat * 65536 + k.ctx.toNat, core0 := some c, addr := sitePa e,
    pdk := some (coreDie c, p) }

/-! ### Pairs (R377, R379, R380) -/

/-- Cores with the twins of the primaries among them (R377). -/
def State.withTwins (s : State) (cs : List Nat) : List Nat :=
  cs.flatMap fun c => match (s.core c).pair with
    | some q => if q.twin then [c] else [c, q.other]
    | none => [c]

/-- The cores whose agents wait for a message of a context: its sender, wherever that runs now, with its
twin. A message that an old slice relayed is found by its payload. -/
def State.sendersFor (s : State) (src : Nat) (ctx : BitVec 12) (pl : Payload) : List Nat :=
  let holds (k : Core) : Bool := k.ctx == ctx && k.ownStores.any (·.pl == pl)
  if holds (s.core src) then s.withTwins [src]
  else s.withTwins (((s.cores.find? fun e => holds e.2).map (·.1)).toList)

def State.sendersOf (s : State) (p : Packet) : List Nat := s.sendersFor p.src p.ctx p.payload

/-- A message is performed, or will not be: its senders wait for it no longer (R81). -/
def State.sentDoneFor (s : State) (src : Nat) (ctx : BitVec 12) (pl : Payload) : State :=
  (s.sendersFor src ctx pl).foldl (fun s c => s.sentDoneOn c pl) s

def State.sentDone (s : State) (p : Packet) : State := s.sentDoneFor p.src p.ctx p.payload

/-- The core whose agent waits for a message: its sender, wherever that runs now, of its own side of a pair. -/
def State.senderOf (s : State) (p : Packet) : Option Nat :=
  let holds (k : Core) : Bool := k.ctx == p.ctx && k.ownStores.any (·.pl == p.payload) &&
    p.pair.all fun t => t.twin == k.isTwin
  if holds (s.core p.src) then some p.src else (s.cores.find? fun e => holds e.2).map (·.1)

/-- A held message is discarded: it has no effect, and its sender, of one side only, does not wait for it
or its answer any longer. -/
def State.discardPaired (s : State) (p : Packet) : State :=
  match s.senderOf p with
  | some c => (s.sentDoneOn c p.payload).unask c ((p.pair.map (·.seq)).getD 0)
  | none => s

/-- Held messages that `p` names are discarded (R380, R386). -/
def State.discardHeld (s : State) (p : HeldPair → Bool) : State :=
  if s.pairs.any p then
    (s.pairs.filter p).foldl (fun s h => s.discardPaired h.pkt) { s with pairs := s.pairs.filter (!p ·) }
  else s

/-- The pair is aborted on a digest mismatch or a twin timeout: both paddocks are killed, which
ends the launch, held messages of its pairs are discarded, and a record of type 1 or 2 is
written with the PAIRID and PSEQ of the message (R389). -/
def State.pairAbort (s : State) (type : Nat) (a b : Nat) (tag : PairTag) (dig0 dig1 : Word) : State :=
  let k := s.core a
  let ctxw := k.inc.toNat * 65536 + k.ctx.toNat
  let node := k.launch
  let pdk := (coreDie a, s.paddockOf a)
  let ids := ((List.range 1024).filterMap fun c =>
    if (s.core c).launch == node then (s.core c).pair.map (·.id) else none).dedup
  let s := s.killPaddock pdk.1 pdk.2
  let s := s.killPaddock (coreDie b) (s.paddockOf b)
  let s := s.discardHeld fun h => (h.pkt.pair.map (·.id)).any ids.contains
  s.contain { Containment.plain type with
    ctxw := ctxw, core0 := some a, core1 := some b, pairSeq := tag.id * 65536 + tag.seq,
    digs := if type = 1 then dig0.toNat + dig1.toNat * 2 ^ 32 else 0, pdk := some pdk }

/-! ### DRAM channels (R340) -/

/-- An access that came to a channel still wants it: its thread stands at the instruction, its
engine has the operation, or its slice has the partial. -/
def State.stillWaits (s : State) (q : ChanWait) : Bool :=
  let c := agentCore q.who.agent
  let m := q.who.agent.toNat / 2 ^ 24 % 16
  let t := s.mt c m
  let up : Bool := !(s.core c).frozen &&
    (match (s.core c).gate with | .on | .hold _ => true | _ => false)
  match q.who.agent.toNat / 2 ^ 28 % 8 with
  | 0 =>
    up && t.st != .idle && t.st != .stopping && t.hold.isNone && t.pc.toNat == q.who.mark
  | 1 => up && (s.hart c).pc.toNat == q.who.mark
  | 3 => (s.core c).copies.any fun o => o.mt == m && o.seq.toNat == q.who.mark
  | _ => s.partialQ.any fun p => p.core == c && p.line == q.who.mark

/-- The channel of a place that a refresh keeps from serving it. What a cache holds needs no channel:
whether it does is free (log 36). -/
def State.refreshing (s : State) (l : Loc) : Bool :=
  match l with
  | .dram k => (s.chan (k / chanBytes)).busy && !Config.cacheHit s.free (k / 64)
  | _ => false

/-- An access waits for the channel of its place: a refresh is on, or others came before it. -/
def State.channelHeld (s : State) (w : Waiter) (l : Loc) : Bool :=
  match l with
  | .dram k =>
    let x := s.chan (k / chanBytes)
    (x.busy ||
        match x.queue.find? s.stillWaits with
        | some q => q.who != w
        | none => false) && !Config.cacheHit s.free (k / 64)
  | _ => false

/-- An access takes its place at a channel: in arrival order, and at one time in order of the source
endpoints. -/
def State.joinChan (s : State) (w : Waiter) (ch : Nat) : State :=
  s.modChan ch fun x =>
    let q := x.queue.filter s.stillWaits
    let new : ChanWait := ⟨s.now, w⟩
    let before (y : ChanWait) : Bool :=
      decide (y.since < new.since) ||
        (y.since == new.since && decide (agentCore y.who.agent ≤ agentCore w.agent))
    if q.any (·.who == w) then { x with queue := q }
    else { x with queue := q.takeWhile before ++ [new] ++ q.dropWhile before }

/-- The access has been served. -/
def State.leaveChan (s : State) (w : Waiter) (ch : Nat) : State :=
  if (s.chan ch).queue.any (·.who == w) then
    s.modChan ch fun x => { x with queue := x.queue.filter (·.who != w) }
  else s

/-- The channels of places, each once. -/
def chansOf (ls : List Loc) : List Nat :=
  (ls.filterMap fun l => match l with | .dram k => some (k / chanBytes) | _ => none).dedup

/-- Accesses must wait at a channel of their places. -/
def State.mustQueue (s : State) (w : Waiter) (ls : List Loc) : Bool := ls.any (s.channelHeld w)

def State.joinAll (s : State) (w : Waiter) (ls : List Loc) : State :=
  (chansOf ls).foldl (·.joinChan w) s

/-- Who waited has been served, or no longer waits for a channel. -/
def State.leaveAll (s : State) (w : Waiter) : State :=
  if s.chans.any fun e => e.2.queue.any (·.who == w) then
    { s with chans := s.chans.map fun (e : Nat × Chan) =>
        (e.1, { e.2 with queue := e.2.queue.filter (·.who != w) }) }
  else s

/-- Accesses pass the channels of their places together, or wait. -/
def State.viaChannels (s : State) (w : Waiter) (ls : List Loc) : Except State State :=
  if s.mustQueue w ls then .error (s.joinAll w ls) else .ok (s.leaveAll w)

/-- A control thread's instruction as a waiter at a channel. -/
def State.ctWaiter (s : State) (c : Nat) : Waiter := ⟨agentId 1 0 c, (s.hart c).pc.toNat⟩

/-- The instruction being issued, as a waiter at a channel. -/
def State.leader (s : State) : Waiter :=
  ⟨agentId 0 s.curMt s.curCore, (s.mt s.curCore s.curMt).pc.toNat⟩

/-! ### The cycle counter of a control thread (R33) -/

/-- Cycles of a core's clock so far (log 3). -/
def State.coreCycles (s : State) (c : Nat) : DWord :=
  BitVec.ofNat 64 ((List.range s.free).foldl (fun n i => n + Config.cycles c i) 0)

/-- mcycle, which mcountinhibit stops (R33). -/
def State.mcycleOf (s : State) (c : Nat) : DWord :=
  let h := s.hart c
  if h.mcountinhibit.getLsbD 0 then h.mcycle else h.mcycle + s.coreCycles c

/-- A hart whose mcycle is to read as a value. -/
def Hart.withCycle (h : Hart) (sofar v : DWord) : Hart :=
  { h with mcycle := if h.mcountinhibit.getLsbD 0 then v else v - sofar }

end Sys2Proof.Machine
end

