-- ==== Sys2Proof/Machine/Contain.lean ====
section
/-! DEFINITION. Paddock registers and kills, uncorrectable and corrected errors, lockstep command
processors, spares and undervolting (R381 to R389). -/

namespace Sys2Proof.Machine

/-- The outcome type of a meaning. -/
abbrev Out := Host.Outcome State Fault Refusal

/-! ### Paddock registers (R383, R384) -/

/-- PDKp as read: EN, FEN, KCNT and the rectangle. -/
def Paddock.read (p : Paddock) : DWord :=
  BitVec.ofNat 64 ((if p.en then 2 ^ 63 else 0) + (if p.fen then 2 ^ 62 else 0) +
    p.kcnt * 2 ^ 24 + p.tr1 * 2 ^ 11 + p.tc1 * 2 ^ 8 + p.tr0 * 2 ^ 3 + p.tc0)

/-- EN and the rectangle a written value asks for. -/
def Paddock.withRect (p : Paddock) (v : DWord) : Paddock :=
  { p with
    en := v.getLsbD 63, tr1 := fieldOf v 11 3, tc1 := fieldOf v 8 3, tr0 := fieldOf v 3 3
    tc0 := fieldOf v 0 3 }

/-- A tile lies in the rectangle, whatever EN says. -/
def Paddock.inRect (p : Paddock) (tile : Nat) : Bool := ({ p with en := true } : Paddock).covers tile

/-- A launch occupies a core of the tile. -/
def State.tileBusy (s : State) (tile : Nat) : Bool :=
  (tileCores tile).any fun c => (s.core c).launch.isSome

def dieTiles (d : Nat) : List Nat := (List.range 64).map (d * 64 + ·)

/-- The change that a PDK write asks for is legal (R383). -/
def State.pdkLegal (s : State) (d p : Nat) (old new : Paddock) : Bool :=
  decide (new.tr0 ≤ new.tr1 ∧ new.tc0 ≤ new.tc1) &&
  (dieTiles d).all (fun t => !((old.inRect t || new.inRect t) && s.tileBusy t)) &&
  (List.range 16).all fun q =>
    q == p || (dieTiles d).all fun t =>
      !(((s.die d).paddock q).covers t && new.inRect t)

/-- Reset endpoints take up the flows to them where the source's oldest copy stands (log 16). -/
def State.freshReceive (s : State) (d p : Nat) : State :=
  { s with flows := s.flows.map fun f =>
      if s.epInside d p f.dst then
        { f with expect := ((f.copies.head?.map (·.pkt.seq)).getD f.next), window := [] }
      else f }

/-- Lifts the fence when every context that ran inside has a new incarnation (R384) and the
kill is complete. -/
def State.unfence (s : State) (d p : Nat) : State :=
  let x := (s.die d).paddock p
  if x.fen && x.pending.isEmpty && !x.owed then
    (s.freshReceive d p).modDie d (·.modPaddock p fun x => { x with fen := false })
  else s

/-- A write of PDKp: a change of EN or the rectangle that is not legal makes the write have no
effect; then KILL, then UNF. -/
def State.pdkWrite (s : State) (d p : Nat) (v : DWord) : State :=
  let old := (s.die d).paddock p
  let new := old.withRect v
  let changes := old != new
  if changes && !s.pdkLegal d p old new then s
  else
    let s := if changes then s.modDie d (·.modPaddock p fun _ => new) else s
    let s := if v.getLsbD 61 then s.killPaddock d p else s
    if v.getLsbD 60 then s.unfence d p else s

def execPaddockDefine (d p : Nat) (v : DWord) (s : State) : Out := .next (s.pdkWrite d p v)
def execPaddockKill (d p : Nat) (s : State) : Out := .next (s.killPaddock d p)
def execPaddockUnfence (d p : Nat) (s : State) : Out := .next (s.unfence d p)

/-! ### Errors (R382, R385, R388) -/

/-- The command processor of a die fails, once: its nodes complete with status 4 (R382). -/
def State.cpFail (s : State) (d : Nat) : State :=
  if (s.die d).failed then s
  else
    let s := s.modDie d fun x => { x with failed := true }
    let s := ((s.die d).nodes.map fun n => d * 4096 + n.1).foldl (fun s n => s.endLaunch [] n) s
    s.contain (Containment.plain 10)

/-- An uncorrectable error poisons its line or word; in the scheduler SRAM it fails the command
processor (R385). -/
def execUncorrectableError (e : ErrorSite) (s : State) : Out :=
  match e with
  | .schedulerSram d => .next (s.cpFail d)
  | _ => .next { s with poison := if s.poison.contains e then s.poison else s.poison ++ [e] }

/-- The configuration image has filled the fields that firmware reads: step 4 of the boot (R319). -/
def State.cfgFilled (s : State) : Bool := decide (s.bootStep = 4)

/-- The command processors run: step 2 of the boot has started them and put their image into the
protected region of the granaries (R67, R319). -/
def State.cpStarted (s : State) : Bool := decide (2 ≤ s.bootStep)

/-- Lockstep mismatch: dispatch freezes; the third within 1 s fails the processor (R382). -/
def execLockstepMismatch (d : Nat) (s : State) : Out :=
  let x := s.die d
  if x.failed || !s.cpStarted then .next s
  else
    let ms := s.now :: x.mismatches.filter fun t => decide (s.now < t + 1000000000)
    let s := s.modDie d fun x => { x with frozen := true, mismatches := ms }
    .next (if 3 ≤ ms.length then s.cpFail d else s)

/-- Dispatch resumes: RCNT steps, a record of type 5 is written, and kills that were only
fenced are completed (R382). A failed processor does not resume. -/
def execCpResume (d : Nat) (s : State) : Out :=
  let x := s.die d
  if !x.frozen || x.failed then .next s
  else
    let s := s.modDie d fun x => { x with frozen := false, rcnt := min 255 (x.rcnt + 1) }
    let s := (List.range 17).foldl (fun s p =>
      if ((s.die d).paddock p).owed then s.killRest d p else s) s
    .next (s.contain (Containment.plain 5))

/-! ### Corrected errors and undervolting (R388) -/

def Undervolt.start (d q : Nat) : Undervolt := ⟨false, Config.vmax d q, 0, 0, 0, []⟩
def State.uvctl (s : State) (d q : Nat) : Undervolt := (s.die d).uv.look (.start d q) q
def State.modUv (s : State) (d q : Nat) (f : Undervolt → Undervolt) : State :=
  let u := f (s.uvctl d q)
  s.modDie d fun x => { x with uv := x.uv.upd q u }

/-- UVCTLq as read. -/
def Undervolt.read (u : Undervolt) : DWord :=
  BitVec.ofNat 64 ((if u.lock then 2 ^ 31 else 0) + u.vmax.toNat * 256 + u.voff)

/-- A new ceiling: an offset above it is lowered to it at once, VMAX being the largest offset allowed. -/
def Undervolt.withMax (u : Undervolt) (v : BitVec 3) (now : Nat) : Undervolt :=
  if v.toNat < u.voff then { u with vmax := v, voff := v.toNat, lastError := now, recent := [] }
  else { u with vmax := v }

/-- Index of CEC[q][a][o]. -/
def cecIdx (q a o : Nat) : Nat := 64 * q + 8 * a + o

/-- Core `i` of a quadrant of a die. -/
def quadCore (d q i : Nat) : Nat := d * 256 + (q / 2 * 8 + i % 64 / 8) * 16 + (q % 2 * 8 + i % 8)

/-- What part `n` of an array of a quadrant is repaired by: a row for DRAM, a way for L2, and for what
stands at a site, granary bank and register files among it, the tile (R387, log 32). -/
def spareFor (d q a n : Nat) : Spare :=
  let c := quadCore d q n
  match a with
  | 3 => .l2Way d (c % 256)
  | 5 => .row d (c % 256) (n / 64)
  | _ => .tile d (tileOf c % 64)

/-- A corrected error is counted at the offset in force; at offset 0 the array's predictive
count crosses its threshold, a field of the configuration image (R319), with a record of type 6, and a
repair is due. -/
def execCorrectedError (d q a : Nat) (s : State) : Out :=
  let o := (s.uvctl d q).voff
  let n := min 65535 ((s.die d).cec.look 0 (cecIdx q a o) + 1)
  let day := 86400000000000
  let ts := s.now :: ((s.die d).predict.look [] (q * 8 + a)).filter
    fun t => decide (s.now < t + day)
  let s := s.modDie d fun x => { x with cec := x.cec.put 0 (cecIdx q a o) n }
  let s := s.modUv d q fun u => { u with lastError := s.now, recent := s.now :: u.recent }
  if o = 0 && s.cfgFilled then
    let s := s.modDie d fun x => { x with predict := x.predict.upd (q * 8 + a) ts }
    if ts.length = Config.predictiveThreshold + 1 then
      let s := s.modDie d fun x => { x with repairs := x.repairs ++ [spareFor d q a (Config.failing s.free)] }
      .next (s.contain { Containment.plain 6 with tail := n * 65536 + o * 256 + a })
    else .next s
  else .next s

/-- One second without a corrected error at the current offset: VOFF rises by one step, up to
VMAX, unless LOCK holds it. VMAX is a field of the configuration image (R319). -/
def execUndervoltStepUp (d q : Nat) (s : State) : Out :=
  let u := s.uvctl d q
  if s.cfgFilled && !u.lock && decide (u.voff < u.vmax.toNat) && decide (u.lastError + 1000000000 ≤ s.now) then
    .next (s.modUv d q fun u => { u with voff := u.voff + 1, lastError := s.now, recent := [] })
  else .next s

/-- LOCK clears 60 s after the last back-off. -/
def execUvctlLockClear (d q : Nat) (s : State) : Out :=
  let u := s.uvctl d q
  if u.lock && decide (u.backoff + 60000000000 ≤ s.now) then
    .next (s.modUv d q fun u => { u with lock := false })
  else .next s

/-- The back-off of a budget tick: more than GUARD errors at the current offset in 10 ms. -/
def State.backOff (s : State) (d q : Nat) : State :=
  let u := s.uvctl d q
  let n := (u.recent.filter fun t => decide (s.now ≤ t + 10000000)).length
  if 0 < u.voff ∧ Config.guardErrors < n then
    let s := s.modUv d q fun u =>
      { u with voff := u.voff - 1, lock := true, backoff := s.now, lastError := s.now, recent := [] }
    s.contain { Containment.plain 7 with tail := n * 65536 + u.voff * 256 }
  else s

/-! ### Spares (R387) -/

/-- How many spares of the resource's kind are in use beside it. A tile at a spare site has the four
channels under it, which are then no spares. -/
def Spare.usedOf (r : Spare) (used : List Spare) : Nat :=
  (used.map fun u =>
    match r, u with
    | .tile d t, .tile d' t' => if d == d' && t / 8 == t' / 8 then 1 else 0
    | .l2Way d x, .l2Way d' x' => if d == d' && x == x' then 1 else 0
    | .channel d _, .channel d' _ => if d == d' then 1 else 0
    | .channel d _, .tile d' _ => if d == d' then 4 else 0
    | .row d c b, .row d' c' b' => if d == d' && c == c' && b == b' then 1 else 0
    | _, _ => 0).sum

/-- How many spares of the kind there are: one tile per row, one way per slice, the channels
under the 32 spare sites of a die, 64 rows per bank. -/
def Spare.available : Spare → Nat
  | .tile .. => 1
  | .l2Way .. => 1
  | .channel .. => 32
  | .row .. => 64

def Spare.dieOf : Spare → Nat
  | .tile d _ | .l2Way d _ | .channel d _ | .row d _ _ => d

/-- A core of the paddock that the bind holds in reset. -/
def Spare.coreOf : Spare → Nat
  | .tile d t => coreAt (d * 64 + t) 0
  | .l2Way d x | .channel d x | .row d x _ => d * 256 + x

/-- The home channels, by the core above them in the die, that a bind moves to another place (R27). -/
def Spare.moves : Spare → List Nat
  | .tile d t => (tileCores (d * 64 + t)).map (· % 256)
  | .channel _ x => [x]
  | .l2Way .. | .row .. => []

/-- A launch runs in the paddock of a core. -/
def State.paddockBusy (s : State) (c : Nat) : Bool :=
  (s.paddockCores (coreDie c) (s.paddockOf c)).any fun x => (s.core x).launch.isSome

/-- A repair waits for the paddock of a core, in which nothing is placed meanwhile (R387). -/
def State.repairing (s : State) (c : Nat) : Bool :=
  (s.die (coreDie c)).repairs.any fun r => s.paddockOf (Spare.coreOf r) == s.paddockOf c

/-- Channels that come to stand elsewhere: what refreshed there is not what refreshes here, and what
was retired there is not retired here. -/
def State.moveChannels (s : State) (d : Nat) (cs : List Nat) : State :=
  let s := cs.foldl (fun s c => s.modChan (d * 256 + c) fun x => { Chan.init with queue := x.queue }) s
  s.modDie d fun x =>
    { x with
      retired := x.retired.filter (!cs.contains ·)
      deadRows := x.deadRows.filter fun q => !cs.contains q.1
      sparesUsed := x.sparesUsed.filter fun u =>
        match u with
        | .row _ c _ => !cs.contains c
        | _ => true }

/-- The spare is put in place. A tile takes its slices' ways and its channels with it (R27). -/
def State.useSpare (s : State) (r : Spare) : State :=
  let d := Spare.dieOf r
  let s := s.moveChannels d (Spare.moves r)
  let s := s.modDie d fun x => { x with sparesUsed := x.sparesUsed ++ [r] }
  match r with
  | .tile d t =>
    let s := s.modTile (d * 64 + t) fun x => { x with pcol := some (BitVec.ofNat 4 (Config.spareColumn d (t / 8)).val) }
    s.modDie d fun x =>
      { x with
        deadWays := x.deadWays.filter (!(Spare.moves r).contains ·)
        sparesUsed := x.sparesUsed.filter fun u =>
          match u with
          | .l2Way _ c => !(Spare.moves r).contains c
          | _ => true }
  | _ => s

/-- No spare is left: the resource is retired. DESIGN CHOICE (log 1): a tile keeps its PCOL when its
entry loses EN, where R25 gives the field no value. -/
def State.retire (s : State) (r : Spare) : State :=
  match r with
  | .tile d t => s.modTile (d * 64 + t) fun x => { x with en := false }
  | .channel d c => s.modDie d fun x => { x with retired := x.retired ++ [c] }
  | .row d c b => s.modDie d fun x => { x with deadRows := x.deadRows ++ [(c, b)] }
  | .l2Way d c => s.modDie d fun x => { x with deadWays := x.deadWays ++ [c] }

/-- The bind: a kill of the affected paddock, or the kill that an error has made there, then the spare
put in place with a record of type 8; with no spare left a record of type 9 and the resource retired. A
repair of a paddock that is not fenced waits until no launch is in it, and a frozen or failed command
processor binds nothing, nor does one that TILEMAP is not filled for (R319, R382, R387). -/
def execSpareBind (r : Spare) (s : State) : Out :=
  let d := Spare.dieOf r
  let c := Spare.coreOf r
  let x := s.die d
  if x.frozen || x.failed || !s.cfgFilled then .next s
  else if !s.fenced c && s.paddockBusy c then
    .next (s.modDie d fun x => { x with repairs := if x.repairs.contains r then x.repairs else x.repairs ++ [r] })
  else
    let s := s.killPaddock d (s.paddockOf c)
    let s := s.modDie d fun x => { x with repairs := x.repairs.erase r }
    if Spare.usedOf r (s.die d).sparesUsed < Spare.available r then
      .next ((s.useSpare r).contain (Containment.plain 8))
    else .next ((s.retire r).contain (Containment.plain 9))

end Sys2Proof.Machine
end

