-- ==== Sys2Proof/Machine/Num.lean ====
section
/-! DEFINITION. Numbers (R95 to R112): formats as exact values, one rounding of an exact value
under a mode, saturation, L6, the operations on them, and the special functions by integer
enclosures. -/

namespace Sys2Proof.Machine

/-! ### Rounding modes (R102) and formats (R95, R97) -/

inductive Rm | rne | rz | rd | ru | rna
  deriving DecidableEq, Repr

/-- RM code of MOD group R (R121). -/
def Rm.ofCode : Nat → Rm
  | 1 => .rz
  | 2 => .rd
  | 3 => .ru
  | 4 => .rna
  | _ => .rne

/-- A floating format: mantissa and exponent widths, bias, whether the all-ones exponent holds
infinities and NaNs, whether only its last code is a NaN, the largest finite code, the
canonical NaN. -/
structure Fmt where
  m : Nat
  e : Nat
  bias : Nat
  ieee : Bool
  topNan : Bool
  maxFin : Nat
  nan : Nat

def Fmt.fp32 : Fmt := ⟨23, 8, 127, true, false, 0x7F7FFFFF, 0x7FC00000⟩
def Fmt.bf16 : Fmt := ⟨7, 8, 127, true, false, 0x7F7F, 0x7FC0⟩
def Fmt.e4m3 : Fmt := ⟨3, 4, 7, false, true, 0x7E, 0x7F⟩
def Fmt.e5m2 : Fmt := ⟨2, 5, 15, true, false, 0x7B, 0x7E⟩
def Fmt.e2m1 : Fmt := ⟨1, 2, 1, false, false, 0x7, 0⟩

/-- The format of a floating type. -/
def Fmt.of? : Ty → Option Fmt
  | .f32 => some .fp32
  | .bf16 => some .bf16
  | .e4m3 => some .e4m3
  | .e5m2 => some .e5m2
  | .e2m1 => some .e2m1
  | _ => none

def Fmt.signBit (f : Fmt) : Nat := 2 ^ (f.m + f.e)
/-- Exponent of the smallest subnormal. -/
def Fmt.qmin (f : Fmt) : Int := 1 - (f.bias : Int) - f.m
/-- Code of infinity in an IEEE-style format. -/
def Fmt.infCode (f : Fmt) : Nat := (2 ^ f.e - 1) * 2 ^ f.m

/-- The value of a code (R95, R97). -/
def Fmt.value (f : Fmt) (bits : Nat) : FVal :=
  let neg := bits / f.signBit % 2 == 1
  let ef := bits / 2 ^ f.m % 2 ^ f.e
  let mf := bits % 2 ^ f.m
  if f.ieee && ef == 2 ^ f.e - 1 then (if mf = 0 then .inf neg else .nan)
  else if f.topNan && ef == 2 ^ f.e - 1 && mf == 2 ^ f.m - 1 then .nan
  else if ef = 0 then .fin neg mf f.qmin
  else .fin neg (2 ^ f.m + mf) ((ef : Int) + f.qmin - 1)

/-! ### Exact values -/

/-- floor(log2) of mag × 2^e, mag not zero. -/
def ilog (mag : Nat) (e : Int) : Int := (Nat.log2 mag : Int) + e

/-- Rounds mag × 2^e, with more non-zero bits below it when `sticky`, to a multiple of 2^q. -/
def roundQ (rm : Rm) (neg : Bool) (mag : Nat) (e : Int) (sticky : Bool) (q : Int) : Nat :=
  if q ≤ e then
    let k := mag * 2 ^ (e - q).toNat
    if sticky && ((rm == .ru && !neg) || (rm == .rd && neg)) then k + 1 else k
  else
    let d := (q - e).toNat
    let k := mag / 2 ^ d
    let r := mag % 2 ^ d
    let half := 2 ^ (d - 1)
    let more := r != 0 || sticky
    let up : Bool := match rm with
      | .rne => decide (half < r) || (r == half && (sticky || k % 2 == 1))
      | .rna => decide (half ≤ r)
      | .rz => false
      | .rd => neg && more
      | .ru => !neg && more
    if up then k + 1 else k

/-- Rounds to the grid of a format with an unbounded exponent, as a code that may lie beyond
the largest finite one; a carry moves into the exponent. -/
def Fmt.grid (f : Fmt) (rm : Rm) (neg : Bool) (mag : Nat) (e : Int) (sticky : Bool) : Nat :=
  if mag = 0 then (if sticky then roundQ rm neg 0 e true f.qmin else 0)
  else
    let q := max (ilog mag e - f.m) f.qmin
    (q - f.qmin).toNat * 2 ^ f.m + roundQ rm neg mag e sticky q

/-- What an overflow gives in a wide format under a mode (R103). -/
def Fmt.overflow (f : Fmt) (rm : Rm) (neg : Bool) : Nat :=
  match rm with
  | .rne | .rna => f.infCode
  | .rz => f.maxFin
  | .rd => if neg then f.infCode else f.maxFin
  | .ru => if neg then f.maxFin else f.infCode

/-- The format is a wide target (R103). -/
def Fmt.wide (f : Fmt) : Bool := f.e == 8

/-- cvt to a floating target (R103). -/
def Fmt.enc (f : Fmt) (rm : Rm) (sat : Bool) (sticky : Bool) (x : FVal) : Nat :=
  let sgn (neg : Bool) : Nat := if neg then f.signBit else 0
  match x with
  | .nan => f.nan
  | .inf neg =>
    if f.wide then sgn neg + f.infCode
    else if sat then sgn neg + f.maxFin
    else if f.ieee then sgn neg + f.infCode
    else f.nan
  | .fin neg mag e =>
    let k := f.grid rm neg mag e sticky
    if k ≤ f.maxFin then sgn neg + k
    else if f.wide then sgn neg + f.overflow rm neg
    else if sat then sgn neg + f.maxFin
    else if f.ieee then sgn neg + f.infCode
    else f.nan

def roundFp32 (x : FVal) (rm : Rm) : Word := BitVec.ofNat 32 (Fmt.fp32.enc rm true false x)
def roundBf16 (x : FVal) (rm : Rm) : BitVec 16 := BitVec.ofNat 16 (Fmt.bf16.enc rm true false x)
def fp32 (w : Word) : FVal := Fmt.fp32.value w.toNat

/-- The signed integer mag × 2^(e − q), q ≤ e. -/
def scaleInt (neg : Bool) (mag : Nat) (e q : Int) : Int :=
  let k : Int := mag * 2 ^ (e - q).toNat
  if neg then -k else k

def FVal.ofInt (v : Int) (e : Int) : FVal := .fin (decide (v < 0)) v.natAbs e

def FVal.isNan : FVal → Bool
  | .nan => true
  | _ => false
def FVal.isInf : FVal → Bool
  | .inf _ => true
  | _ => false
def FVal.isZero : FVal → Bool
  | .fin _ 0 _ => true
  | _ => false
def FVal.sign : FVal → Bool
  | .nan => false
  | .inf n => n
  | .fin n _ _ => n
def FVal.neg : FVal → FVal
  | .nan => .nan
  | .inf n => .inf !n
  | .fin n m e => .fin (!n) m e
def FVal.zero (neg : Bool) : FVal := .fin neg 0 0

/-- Product, exact; 0 × ∞ is NaN. -/
def FVal.mul : FVal → FVal → FVal
  | .nan, _ => .nan
  | _, .nan => .nan
  | .inf a, .inf b => .inf (a != b)
  | .inf a, .fin b m _ => if m = 0 then .nan else .inf (a != b)
  | .fin a m _, .inf b => if m = 0 then .nan else .inf (a != b)
  | .fin a m e, .fin b n f => .fin (a != b) (m * n) (e + f)

/-- Times 2^n. -/
def FVal.scale : FVal → Int → FVal
  | .fin s m e, n => .fin s m (e + n)
  | x, _ => x

/-- The smallest exponent among finite non-zero values. -/
def minExp (xs : List FVal) : Int :=
  xs.foldl (fun a x => match x with
    | .fin _ m e => if m = 0 then a else min a e
    | _ => a) 1000000

/-- The exact sum of finite values, at exponent `q`. -/
def sumInt (xs : List FVal) (q : Int) : Int :=
  xs.foldl (fun a x => match x with
    | .fin s m e => if m = 0 then a else a + scaleInt s m e q
    | _ => a) 0

/-- The exact sum of two or more values: NaN, infinities, and zero results signed as R173 and
R181 say. -/
def FVal.sum (rm : Rm) (xs : List FVal) : FVal :=
  if xs.any (·.isNan) then .nan
  else
    let infs := xs.filter (·.isInf)
    if infs.any (·.sign) && infs.any (!·.sign) then .nan
    else
      match infs with
      | x :: _ => x
      | [] =>
        let q := minExp xs
        let v := sumInt xs q
        if v = 0 then
          if xs.all fun x => x.isZero && x.sign then .zero true
          else if xs.all fun x => x.isZero && !x.sign then .zero false
          else .zero (rm == .rd)
        else .ofInt v q

def FVal.add (rm : Rm) (x y : FVal) : FVal := FVal.sum rm [x, y]

/-- Exact comparison of non-NaN values, zeros equal: −1, 0 or 1. -/
def FVal.cmp (x y : FVal) : Int :=
  match x, y with
  | .inf a, .inf b => if a = b then 0 else if a then -1 else 1
  | .inf a, _ => if a then -1 else 1
  | _, .inf b => if b then 1 else -1
  | .fin a m e, .fin b n f =>
    let q := min e f
    let d := scaleInt a m e q - scaleInt b n f q
    if d < 0 then -1 else if d = 0 then 0 else 1
  | _, _ => 0

/-- Order with −0 below +0, for FMIN and FMAX (R173). -/
def FVal.leTotal (x y : FVal) : Bool :=
  match FVal.cmp x y with
  | 0 => x.sign || !y.sign
  | c => decide (c < 0)

/-- Rounds to an integer (R103, R176). -/
def FVal.toInteger (rm : Rm) : FVal → Int
  | .fin s m e =>
    let k := roundQ rm s m e false 0
    if s then -(k : Int) else k
  | _ => 0

/-! ### L6 (R99 to R101) -/

/-- L6TAB and its fractional bits, under NBV (R101). -/
def l6Tab (nbv f : Nat) : Nat :=
  if nbv = 1 then
    match f with | 0 => 0x1000 | 1 => 0x1307 | 2 => 0x16A1 | _ => 0x1AE9
  else
    match f with | 0 => 0x10000 | 1 => 0x13070 | 2 => 0x16A0A | _ => 0x1AE8A

def l6Frac (nbv : Nat) : Nat := if nbv = 1 then 12 else 16

/-- l6_mul on codes (R100). -/
def l6Mul (a b : Nat) : Nat :=
  let ma := a % 32
  let mb := b % 32
  let s := (a / 32 + b / 32) % 2
  if ma = 0 ∨ mb = 0 then 0
  else if ma + mb ≤ 16 then 0
  else s * 32 + min 31 (ma + mb - 16)

/-- l6_lin: the linear value of a code (R100). -/
def l6Lin (nbv a : Nat) : FVal :=
  let m := a % 32
  let neg := a / 32 % 2 == 1
  if m = 0 then .zero neg
  else
    let e : Int := (m : Int) - 16
    .fin neg (l6Tab nbv (e % 4).toNat) (e / 4 - l6Frac nbv)

/-- to_l6 (R100). 4·log2|x| is compared through fourth and eighth powers, exactly. -/
def toL6 (rm : Rm) (x : FVal) : Nat :=
  match x with
  | .nan => 0
  | .inf neg => (if neg then 32 else 0) + 31
  | .fin neg mag e =>
    if mag = 0 then 0
    else
      let l4 := ilog (mag ^ 4) (4 * e)
      let up := (rm == .ru && !neg) || (rm == .rd && neg)
      let near := rm == .rne || rm == .rna
      let m : Nat :=
        if 15 ≤ l4 then 31
        else if -15 ≤ l4 then
          let m := (l4 + 16).toNat
          if mag ^ 4 = 2 ^ Nat.log2 (mag ^ 4) then m
          else if near then (if 2 * (m : Int) - 31 ≤ ilog (mag ^ 8) (8 * e) then m + 1 else m)
          else if up then m + 1
          else m
        else if near then (if -19 ≤ l4 then 1 else 0)
        else if up then 1 else 0
      if m = 0 then 0 else (if neg then 32 else 0) + m

end Sys2Proof.Machine

namespace Sys2Proof

open Machine

/-! ### Elements -/

/-- Signed value of the low `w` bits. -/
def sval (w x : Nat) : Int :=
  let y := x % 2 ^ w
  if y < 2 ^ (w - 1) then y else (y : Int) - 2 ^ w

/-- An integer element's value by type (R161). -/
def Ty.int (t : Ty) (x : Nat) : Int := if t.isSigned then sval t.width x else (x % 2 ^ t.width : Nat)

/-- wrap(x): the bits of an element (R161). -/
def Ty.wrap (t : Ty) (v : Int) : Nat := (v % (2 ^ t.width : Nat)).toNat

/-- The ends of a type's integer range. -/
def Ty.lo (t : Ty) : Int := if t.isSigned then -(2 ^ (t.width - 1) : Nat) else 0
def Ty.hi (t : Ty) : Int :=
  if t.isSigned then (2 ^ (t.width - 1) : Nat) - 1 else (2 ^ t.width : Nat) - 1

/-- sat(x) as element bits (R161). -/
def Ty.sat (t : Ty) (v : Int) : Nat := Ty.wrap t (max (Ty.lo t) (min (Ty.hi t) v))

/-- value(): an element as an exact value, b32 as z32, L6 through l6_lin (R177). -/
def Ty.value (nbv : Nat) (t : Ty) (x : Nat) : FVal :=
  match t with
  | .l6 => l6Lin nbv x
  | _ =>
    match Fmt.of? t with
    | some f => f.value x
    | none => .ofInt (Ty.int t x) 0

/-- cvt(x, fmt, rm, sat) as element bits (R103). -/
def Ty.cvt (t : Ty) (rm : Rm) (sat : Bool) (x : FVal) : Nat :=
  match t with
  | .l6 => toL6 rm x
  | _ =>
    match Fmt.of? t with
    | some f => f.enc rm sat false x
    | none =>
      match x with
      | .nan => 0
      | .inf neg => Ty.wrap t (if neg then Ty.lo t else Ty.hi t)
      | x => Ty.sat t (x.toInteger rm)

/-- The bits of an element: an L6 element is the low six bits of its byte (R96). -/
def Ty.own (t : Ty) (x : Nat) : Nat := if t = .l6 then x % 64 else x

/-- Element `i` of a word with all bits of its place (R96). -/
def Ty.elem (t : Ty) (w : Word) (i : Nat) : Nat := w.toNat / 2 ^ (t.width * i) % 2 ^ t.width

/-- Packs elements, element 0 the least significant (R96). -/
def packElems (width : Nat) : List Nat → Nat
  | [] => 0
  | x :: xs => x % 2 ^ width + 2 ^ width * packElems width xs

def Ty.pack (t : Ty) (xs : List Nat) : Word := BitVec.ofNat 32 (packElems t.width xs)

/-- Maps the elements of a word. -/
def Ty.map1 (t : Ty) (f : Nat → Nat) (a : Word) : Word :=
  t.pack ((List.range t.perWord).map fun i => f (t.elem a i))
def Ty.map2 (t : Ty) (f : Nat → Nat → Nat) (a b : Word) : Word :=
  t.pack ((List.range t.perWord).map fun i => f (t.elem a i) (t.elem b i))
def Ty.map3 (t : Ty) (f : Nat → Nat → Nat → Nat) (a b c : Word) : Word :=
  t.pack ((List.range t.perWord).map fun i => f (t.elem a i) (t.elem b i) (t.elem c i))

/-- fadd and the like on elements of a floating type: one rounding of the exact result. -/
def Ty.rnd (t : Ty) (rm : Rm) (x : FVal) : Nat := ((Fmt.of? t).getD .fp32).enc rm true false x
def Ty.fval (t : Ty) (x : Nat) : FVal := ((Fmt.of? t).getD .fp32).value x

/-- FMIN, FMAX (R173): the chosen operand's bits; a lone NaN yields to the other. -/
def Ty.fminmax (t : Ty) (wantMin : Bool) (b c : Nat) : Nat :=
  let x : FVal := t.fval b
  let y : FVal := t.fval c
  if x.isNan && y.isNan then ((Fmt.of? t).getD .fp32).nan
  else if x.isNan then c
  else if y.isNan then b
  else if x.leTotal y == wantMin then b else c

/-- The format has a NaN (R106). -/
def Ty.hasNan : Ty → Bool
  | .e4m3 | .e5m2 => true
  | _ => false

end Sys2Proof

namespace Sys2Proof.Machine

/-! ### acc_chunk (R107, R108) -/

/-- Largest floor(log2 |x|) of the non-zero values. -/
def maxLog (xs : List FVal) : Int :=
  xs.foldl (fun a x => match x with
    | .fin _ m e => if m = 0 then a else max a (ilog m e)
    | _ => a) (-1000000)

/-- A term cut at the window's lsb 2^q: the kept multiple, and whether something was lost. -/
def cutTerm (q : Int) : FVal → Int × Bool
  | .fin s m e =>
    let k : Int := if q ≤ e then m * 2 ^ (e - q).toNat else m / 2 ^ (q - e).toNat
    let lost := decide (e < q) && m % 2 ^ (q - e).toNat != 0
    (if s then -k else k, lost)
  | _ => (0, false)

/-- round_fp32_sticky (R108). -/
def roundSticky (v : Int) (q : Int) (sticky : Bool) : Word :=
  if v = 0 then 0
  else
    let neg := decide (v < 0)
    let g := Fmt.fp32
    let mag := v.natAbs
    let lo := g.grid .rz neg mag q false
    let hi := g.grid (if neg then .rd else .ru) neg mag q false
    -- a tie: half-up and half-even could differ
    let tie := lo != hi && g.grid .rna neg mag q false == hi &&
      (let d := max (ilog mag q - g.m) g.qmin
       decide (q < d) && mag % 2 ^ (d - q).toNat == 2 ^ ((d - q).toNat - 1))
    if sticky && tie then
      BitVec.ofNat 32 ((if neg then g.signBit else 0) + (if hi ≤ g.maxFin then hi else g.infCode))
    else roundFp32 (.ofInt v q) .rne

def accChunk (c : FVal) (ps : List FVal) : Word :=
  let xs := c :: ps
  if xs.any (·.isNan) then 0x7FC00000
  else
    let infs := xs.filter (·.isInf)
    if infs.any (·.sign) && infs.any (!·.sign) then 0x7FC00000
    else
      match infs with
      | x :: _ => roundFp32 x .rne
      | [] =>
        if xs.all (·.isZero) then (if xs.all (·.sign) then 0x80000000 else 0)
        else
          let q := maxLog xs - 61
          let ts := xs.map (cutTerm q)
          roundSticky (ts.foldl (fun a t => a + t.1) 0) q (ts.any (·.2))

/-- The chunk size (R107). -/
def chunkSize (nbv : Nat) : Nat := if nbv = 1 then 16 else 32

/-- The chunks of a list of products, in ascending k. -/
def accChunks (n : Nat) (c : Word) : Nat → List FVal → Word
  | 0, _ => c
  | fuel + 1, ps =>
    match ps with
    | [] => c
    | _ => accChunks n (accChunk (fp32 c) (ps.take n)) fuel (ps.drop n)

/-! ### Block scales (R104, R106) -/

def emax : Ty → Int
  | .e4m3 => 8
  | .e5m2 => 15
  | .e2m1 => 2
  | .s8 => 6
  | .s4 => 2
  | .l6 => 3
  | _ => 0

/-- choose_scale (R106). -/
def chooseScale (t : Ty) (xs : List FVal) : Nat :=
  if !Ty.hasNan t && xs.any (·.isNan) then 255
  else
    let ys := xs.filter fun x => !x.isNan
    if ys.any (·.isInf) then 254
    else if ys.all (·.isZero) then 127
    else (max 0 (min 254 (maxLog ys - emax t + 127))).toNat

/-- A scaled value: × 2^(e − 127), NaN for 0xFF (R104). -/
def scaled (e : Nat) (x : FVal) : FVal := if e = 255 then .nan else x.scale ((e : Int) - 127)

/-! ### Special functions (R182, R183) -/

/-- Integer square root by bits. -/
def isqrtGo : Nat → Nat → Nat → Nat
  | 0, _, r => r
  | k + 1, n, r =>
    let r' := r + 2 ^ k
    if r' * r' ≤ n then isqrtGo k n r' else isqrtGo k n r
def isqrt (n : Nat) : Nat := isqrtGo (Nat.log2 n / 2 + 1) n 0

/-- A positive enclosure lo ≤ y·2^p ≤ hi of a function value, as integers. -/
structure Encl where
  lo : Int
  hi : Int
  p : Nat

/-- Σ z^n / n!, fixed point with `w` fractional bits. -/
def expSeries (w : Nat) (z : Int) : Nat → Nat → Int → Int → Int
  | 0, _, _, acc => acc
  | fuel + 1, n, t, acc =>
    let t := t * z / 2 ^ w / n
    if t = 0 then acc else expSeries w z fuel (n + 1) t (acc + t)

/-- The alternating or plain series of atan(1/k) or atanh(1/k). -/
def invSeries (alt : Bool) (k2 : Int) : Nat → Nat → Int → Int → Int
  | 0, _, _, acc => acc
  | fuel + 1, n, t, acc =>
    if t = 0 then acc
    else
      let u := t / (2 * n + 1)
      invSeries alt k2 fuel (n + 1) (t / k2) (if alt && n % 2 == 1 then acc - u else acc + u)

def atanhInv (w k : Nat) : Int := invSeries false (k * k : Nat) w 0 (2 ^ w / k) 0
def atanInv (w k : Nat) : Int := invSeries true (k * k : Nat) w 0 (2 ^ w / k) 0

/-- ln 2 and π with `w` fractional bits, each within 2^10 units. -/
def ln2Fix (w : Nat) : Int := 18 * atanhInv w 26 - 2 * atanhInv w 4801 + 8 * atanhInv w 8749
def piFix (w : Nat) : Int := 16 * atanInv w 5 - 4 * atanInv w 239

/-- Σ of the sine or cosine series from a first term `t` with factor −z². -/
def trigSeries (w : Nat) (z2 : Int) : Nat → Nat → Int → Int → Int
  | 0, _, _, acc => acc
  | fuel + 1, n, t, acc =>
    let t := -(t * z2 / 2 ^ w) / ((n + 1) * (n + 2) : Nat)
    if t = 0 ∨ t = -1 then acc else trigSeries w z2 fuel (n + 2) t (acc + t)

/-- Σ z^(2n+1)/(2n+1). -/
def atanhSeries (w : Nat) (z2 : Int) : Nat → Nat → Int → Int → Int
  | 0, _, _, acc => acc
  | fuel + 1, n, t, acc =>
    if t = 0 then acc
    else atanhSeries w z2 fuel (n + 1) (t * z2 / 2 ^ w) (acc + t / (2 * n + 1))

/-- mag × 2^e in fixed point, floor. -/
def toFix (w : Nat) (neg : Bool) (mag : Nat) (e : Int) : Int :=
  let s := e + w
  let k : Int := if 0 ≤ s then mag * 2 ^ s.toNat else mag / 2 ^ (-s).toNat
  if neg then -k else k

/-- e^(z) for fixed-point z: 2^k · e^r with r in [0, ln 2); answers k and e^r. -/
def expFix (w : Nat) (z : Int) : Int × Int :=
  let l := ln2Fix w
  let k := z / l
  (k, expSeries w (z - k * l) w 1 (2 ^ w) (2 ^ w))

/-- x · 2^k of a fixed-point number, brought to `p` fractional bits. -/
def reFix (w p : Nat) (x k : Int) : Int :=
  let s := (p : Int) - w + k
  if 0 ≤ s then x * 2 ^ s.toNat else x / 2 ^ (-s).toNat

inductive Sfu | rcp | rsq | sqrt | exp2 | log2 | sin | cos | tanh | sigm
  deriving DecidableEq, Repr

/-- Approximates a transcendental function of a finite non-zero x with `p` fractional bits;
the error is below the enclosure's half width. -/
def sfuFix (fn : Sfu) (p : Nat) (neg : Bool) (mag : Nat) (e : Int) : Int :=
  let w := p + 256
  match fn with
  | .exp2 =>
    let x := toFix w neg mag e
    let i := x / 2 ^ w
    let f := x % 2 ^ w
    reFix w p (expSeries w (f * ln2Fix w / 2 ^ w) w 1 (2 ^ w) (2 ^ w)) i
  | .log2 =>
    let k := ilog mag e
    let m := toFix w false mag (e - k)
    let z := (m - 2 ^ w) * 2 ^ w / (m + 2 ^ w)
    let l := 2 * atanhSeries w (z * z / 2 ^ w) w 0 z 0
    reFix w p (k * 2 ^ w + l * 2 ^ w / ln2Fix w) 0
  | .sin | .cos =>
    let w2 := w + 160
    let x := toFix w2 neg mag e
    let h := piFix w2 / 2
    let q := x / h
    let r := (x - q * h) / 2 ^ 160
    let r2 := r * r / 2 ^ w
    let s := trigSeries w r2 w 1 r r
    let c := trigSeries w r2 w 0 (2 ^ w) (2 ^ w)
    let j := ((q + if fn = .cos then 1 else 0) % 4).toNat
    reFix w p (match j with | 0 => s | 1 => c | 2 => -s | _ => -c) 0
  | .tanh =>
    -- tanh |x| = (1 − t)/(1 + t), t = e^(−2|x|)
    let r := expFix w (-2 * toFix w false mag e)
    let t := reFix w w r.2 r.1
    let y := (2 ^ w - t) * 2 ^ w / (2 ^ w + t)
    reFix w p (if neg then -y else y) 0
  | .sigm =>
    let r := expFix w (-(toFix w false mag e))
    let t := reFix w w r.2 r.1
    let y := if neg then t * 2 ^ w / (2 ^ w + t) else 2 ^ (2 * w) / (2 ^ w + t)
    reFix w p y 0
  | _ => 0

/-- The result grid of a special function: one rounding to the format under VER 2, the 2^(E − 16)
grid first under VER 1 (R182, R183). -/
def sfuRound (nbv : Nat) (g : Fmt) (neg : Bool) (mag : Nat) (e : Int) (sticky : Bool) : Nat :=
  if nbv = 1 then
    if mag = 0 then g.enc .rne true false (.zero neg)
    else
      let q := max (ilog mag e) (-126) - 16
      g.enc .rne true false (.fin neg (roundQ .rne neg mag e sticky q) q)
  else g.enc .rne true sticky (.fin neg mag e)

/-- Raises the precision until both ends of the enclosure round alike. -/
def sfuZiv (fn : Sfu) (nbv : Nat) (g : Fmt) (neg : Bool) (mag : Nat) (e : Int) : List Nat → Nat
  | [] => g.nan
  | p :: ps =>
    let y := sfuFix fn p neg mag e
    let at_ (v : Int) : Nat := sfuRound nbv g (decide (v < 0)) v.natAbs (-(p : Int)) false
    if decide ((y - 4 < 0) ↔ (y + 4 < 0)) && at_ (y - 4) == at_ (y + 4) then at_ y
    else
      match ps with
      | [] => at_ y
      | _ => sfuZiv fn nbv g neg mag e ps

/-- The special inputs of R183, and the exact ones; `none` where the series decide. -/
def sfuSpecial (fn : Sfu) (x : FVal) : Option FVal :=
  match x with
  | .nan => some .nan
  | .inf neg =>
    match fn with
    | .rcp => some (.zero neg)
    | .rsq => some (if neg then .nan else .zero false)
    | .sqrt | .log2 => some (if neg then .nan else .inf false)
    | .exp2 => some (if neg then .zero false else .inf false)
    | .sin | .cos => some .nan
    | .tanh => some (.fin neg 1 0)
    | .sigm => some (if neg then .zero false else .fin false 1 0)
  | .fin neg mag e =>
    if mag = 0 then
      match fn with
      | .rcp | .rsq => some (.inf neg)
      | .sqrt | .sin | .tanh => some (.zero neg)
      | .exp2 | .cos => some (.fin false 1 0)
      | .log2 => some (.inf true)
      | .sigm => some (.fin false 1 (-1))
    else
      match fn with
      | .rsq | .sqrt | .log2 =>
        if neg then some .nan
        else if fn = .log2 ∧ mag = 2 ^ Nat.log2 mag then some (.ofInt (ilog mag e) 0)
        else none
      | .exp2 =>
        -- an integer power, and those far beyond every format
        if 8 ≤ ilog mag e then some (if neg then .fin false 1 (-256) else .fin false 1 256)
        else if 0 ≤ e ∨ mag % 2 ^ (-e).toNat = 0 then
          some (.fin false 1 ((FVal.fin neg mag e).toInteger .rz))
        else none
      | .tanh => if 6 ≤ ilog mag e then some (.fin neg (2 ^ 100 - 1) (-100)) else none
      | .sigm =>
        if 8 ≤ ilog mag e then
          some (if neg then .fin false 1 (-256) else .fin false (2 ^ 100 - 1) (-100))
        else none
      | _ => none

/-- A special function on an element of format `g`. What EXP2 gives exactly is the same under both
versions (R183), below the grid of VER 1 too (DEDUCED, log 39). -/
def sfuElem (fn : Sfu) (nbv : Nat) (g : Fmt) (bits : Nat) : Nat :=
  let x := g.value bits
  match sfuSpecial fn x with
  | some (.fin neg mag e) => sfuRound (if fn = .exp2 then 2 else nbv) g neg mag e false
  | some y => g.enc .rne true false y
  | none =>
    match x with
    | .fin neg mag e =>
      match fn with
      | .rcp =>
        let s : Nat := Nat.log2 mag + 64
        sfuRound nbv g neg (2 ^ s / mag) (-e - s) (2 ^ s % mag != 0)
      | .sqrt =>
        let h : Nat := if e % 2 = 0 then 64 else 65
        let n := mag * 2 ^ h
        let r := isqrt n
        sfuRound nbv g neg r ((e - h) / 2) (r * r != n)
      | .rsq =>
        let s : Nat := 2 * (Nat.log2 mag + 64) + (if e % 2 = 0 then 0 else 1)
        let n := 2 ^ s / mag
        let r := isqrt n
        sfuRound nbv g neg r ((-e - s) / 2) (r * r != n || 2 ^ s % mag != 0)
      | _ => sfuZiv fn nbv g neg mag e [192, 512, 1216]
    | _ => g.nan

end Sys2Proof.Machine
end

