-- ==== Sys2Proof/Machine/Operands.lean ====
section
/-! DEFINITION. Operands of micro-thread instructions (R123, R126 to R129, R159, R160, R412):
sub-fields of a VREG source, the guard, sources in vector and scalar form, stream reads, role
resolution (R50, R51), destinations. -/

namespace Sys2Proof.Machine

/-- Why an instruction does not commit: it waits (R38), with what its arrival has left; it does
not issue (R231), or its request is on its way (R377); its accesses wait for their DRAM channels (R340);
it traps (R365); it read poison (R385). -/
inductive Stop
  | wait (keep : Option State)
  | stall (keep : Option State)
  | channel (ls : List Loc)
  | trap (e : Exn)
  | poison (e : ErrorSite)

/-- The answer of a member's part of an instruction. -/
abbrev Res := Except Stop State

/-- One member of the issuing gang, or the micro-thread alone: core, micro-thread, gang lane
number of its lane 0 (R54), enabled lanes (R123). -/
structure Who where
  core : Nat
  mt : Nat
  base : Nat
  en : Word

def Who.on (w : Who) (l : Nat) : Bool := w.en.getLsbD l
/-- The enabled lanes, ascending. -/
def Who.lanes (w : Who) : List Nat := (List.range 32).filter w.on
def Who.agent (w : Who) : Word := agentId 0 w.mt w.core
def State.self (s : State) (w : Who) : Mt := s.mt w.core w.mt
def State.modSelf (s : State) (w : Who) (f : Mt → Mt) : State := s.modMt w.core w.mt f
def State.home (s : State) (w : Who) : Core := s.core w.core
def State.modHome (s : State) (w : Who) (f : Core → Core) : State := s.modCore w.core f

/-! ### Traps to raise -/

def Exn.mk' (code detail : Nat) : Exn := ⟨code, detail, 0, 0, 0, none⟩
def exn (code detail : Nat) : Stop := .trap (.mk' code detail)
def exnVal (code detail : Nat) (v : Word) : Stop := .trap { Exn.mk' code detail with val := v }
/-- Causes 0x04 to 0x07: the address and the failing lane (R347, R368). -/
def exnAddr (code detail : Nat) (a : DWord) (lane : Nat) : Stop :=
  .trap { Exn.mk' code detail with addr := a, val := BitVec.ofNat 32 lane }

/-- Illegal-operand for a value found out of range when the instruction acts (R367). -/
def outOfRange (v : Word) : Stop := exnVal 3 6 v

def need (ok : Bool) (e : Stop) : Except Stop Unit := if ok then .ok () else .error e

/-! ### Sub-fields (R126) -/

def wbyte (w : Word) (i : Nat) : Byte := w.extractLsb' (8 * i) 8
def whalf (w : Word) (i : Nat) : BitVec 16 := w.extractLsb' (16 * i) 16

def selWord (sel : BitVec 3) (w : Word) : Word :=
  match sel.toNat with
  | 1 => whalf w 0 ++ whalf w 0
  | 2 => whalf w 1 ++ whalf w 1
  | 3 => wbyte w 0 ++ wbyte w 0 ++ wbyte w 0 ++ wbyte w 0
  | 4 => wbyte w 1 ++ wbyte w 1 ++ wbyte w 1 ++ wbyte w 1
  | 5 => wbyte w 2 ++ wbyte w 2 ++ wbyte w 2 ++ wbyte w 2
  | 6 => wbyte w 3 ++ wbyte w 3 ++ wbyte w 3 ++ wbyte w 3
  | _ => w

def swzWord (swz : BitVec 3) (w : Word) : Word :=
  match swz.toNat with
  | 1 => whalf w 0 ++ whalf w 1
  | 2 => wbyte w 0 ++ wbyte w 1 ++ wbyte w 2 ++ wbyte w 3
  | 3 => ((w &&& 0x0F0F0F0F) <<< 4) ||| ((w >>> 4) &&& 0x0F0F0F0F)
  | 4 => whalf w 0 ++ whalf w 0
  | 5 => whalf w 1 ++ whalf w 1
  | 6 => wbyte w 2 ++ wbyte w 1 ++ wbyte w 0 ++ wbyte w 3
  | 7 => wbyte w 0 ++ wbyte w 3 ++ wbyte w 2 ++ wbyte w 1
  | _ => w

/-- ABS, then NEG, of one element: the sign bit of a floating or L6 element, two's complement
of a signed one. -/
def absNegElem (t : Ty) (neg abs : Bool) (x : Nat) : Nat :=
  if t.isFloat then
    let sb := if t = .l6 then 32 else 2 ^ (t.width - 1)
    let y := if abs && x / sb % 2 == 1 then x - sb else x
    if neg then (if y / sb % 2 = 1 then y - sb else y + sb) else y
  else if t.isSigned then
    let v := Ty.int t x
    let v := if abs then Ty.int t (Ty.wrap t (v.natAbs : Int)) else v
    if neg then Ty.wrap t (-v) else Ty.wrap t v
  else x

def absNegWord (t : Ty) (neg abs : Bool) (w : Word) : Word :=
  if neg || abs then t.map1 (absNegElem t neg abs) w else w

/-- A VREG source's word after SEL, SWZ, ABS and NEG. -/
def subFields (t : Ty) (sel swz : BitVec 3) (neg abs : Bool) (w : Word) : Word :=
  absNegWord t neg abs (swzWord swz (selWord sel w))

/-- An IMM as a word: replicated at the element width (R127). -/
def immWord (t : Ty) (v : BitVec 19) : Word :=
  let w : Word := v.signExtend 32
  if t.width = 32 then w
  else t.pack (List.replicate t.perWord (w.toNat % 2 ^ t.width))

/-- The 32-bit value of an IMM (R127, R412). -/
def immWhole (v : BitVec 19) : Word := v.signExtend 32

/-! ### Guard (R123) -/

def Mt.guardMask (t : Mt) (g : Guard) : Word :=
  let p := if g.reg = 15 then 0xFFFFFFFF#32 else t.preg g.reg.toNat
  if g.neg then ~~~p else p

/-! ### Sources -/

/-- Bit `l` of a word as 0 or 1. -/
def bitWord (w : Word) (l : Nat) : Word := if w.getLsbD l then 1 else 0

/-- A SPECIAL source in lane `l` (R129). -/
def State.special (s : State) (w : Who) (sel l : Nat) : Word :=
  if sel < 15 then bitWord ((s.self w).preg sel) l
  else if sel = 40 then BitVec.ofNat 32 (w.base + l)
  else if sel = 41 then BitVec.ofNat 32 w.mt
  else if sel = 42 then BitVec.ofNat 32 (((s.self w).fire.map (·.2)).getD 0)
  else if sel = 43 then BitVec.ofNat 32 ((s.home w).etick.toNat % 1024)
  else 0

/-- A scalar SPECIAL source other than laneid and the predicates gives one word; laneid and a
predicate vary by lane (R129). -/
def State.srcLane (s : State) (w : Who) (t : Ty) (whole : Bool) (o : Operand) (l : Nat) : Word :=
  match o with
  | .vreg r sel swz neg abs _ => subFields t sel swz neg abs ((s.self w).vlane r.toNat l)
  | .sreg r _ => (s.self w).sreg r.toNat
  | .imm v => if whole then immWhole v else immWord t v
  | .special x => s.special w x.toNat l
  | _ => 0

/-- Reading a stream register: its next element, a wait, or the stream exception (R88, R160,
R218). After its last word the register is no longer armed. -/
def Mt.readStream (t : Mt) (q : Nat) : Except Stop (Word × Mt) :=
  match t.stream q with
  | .idle => .error (exnVal 10 2 (BitVec.ofNat 32 q))
  | .armed => .error (.wait none)
  | .bound seq ws fin bad =>
    match ws with
    | x :: rest =>
      if rest.isEmpty && fin && !bad then .ok (x, t.setStream q .idle)
      else .ok (x, t.setStream q (.bound seq rest fin bad))
    | [] =>
      if fin then
        (if bad then .error (exnVal 10 3 (BitVec.ofNat 32 q))
         else .error (exnVal 10 2 (BitVec.ofNat 32 q)))
      else .error (.wait none)

/-- Prefers a trap of the first of two answers, then of the second, then any wait (R365). -/
def firstStop (a b : Except Stop Unit) : Except Stop Unit :=
  match a, b with
  | .error (.trap e), _ => .error (.trap e)
  | _, .error (.trap e) => .error (.trap e)
  | .error e, _ => .error e
  | _, .error e => .error e
  | _, _ => .ok ()

def streamCheck (t : Mt) : Operand → Except Stop Unit
  | .stream q => (t.readStream q.toNat).map fun _ => ()
  | _ => .ok ()

/-- A source as a function of the lane. A STREAM source is read once, acquires its element and
closes the micro-thread's region (R88, R159, R160). -/
def State.src (s : State) (w : Who) (t : Ty) (whole : Bool) (o : Operand) :
    Except Stop (State × (Nat → Word)) :=
  match o with
  | .stream q =>
    match (s.self w).readStream q.toNat with
    | .error e => .error e
    | .ok (x, mt) =>
      let s := s.setMt w.core w.mt mt
      .ok (s.closeRegion w.agent, fun _ => x)
  | _ => .ok (s, s.srcLane w t whole o)

/-- Two sources, B before C; every check precedes a wait (R160, R365). -/
def State.src2 (s : State) (w : Who) (t : Ty) (b c : Operand) (wholeC : Bool) :
    Except Stop (State × (Nat → Word) × (Nat → Word)) :=
  match firstStop (streamCheck (s.self w) b) (streamCheck (s.self w) c) with
  | .error e => .error e
  | .ok () =>
    match s.src w t false b with
    | .error e => .error e
    | .ok (s1, x) =>
      match s1.src w t wholeC c with
      | .error e => .error e
      | .ok (s2, y) => .ok (s2, x, y)

/-- One 32-bit word of a source in scalar use, read whole: an SREG, the value of an IMM, lane 0
otherwise. -/
def State.scalar (s : State) (w : Who) (o : Operand) : Word := s.srcLane w .b32 true o 0

/-! ### Destinations -/

/-- Writes lane words of a VREG in the enabled lanes only. -/
def Mt.writeLanes (t : Mt) (r : Nat) (f : Nat → Word) (lanes : List Nat) : Mt :=
  lanes.foldl (fun t l => t.setV r l (f l)) t

/-- Sets the bits of a predicate in the given lanes. -/
def Mt.writePred (t : Mt) (p : Nat) (f : Nat → Bool) (lanes : List Nat) : Mt :=
  t.setP p (lanes.foldl (fun m l =>
    if f l then m ||| (1#32 <<< l) else m &&& ~~~(1#32 <<< l)) (t.preg p))

/-- Writes a result in vector or scalar form (R159). -/
def State.writeDst (s : State) (w : Who) (o : Operand) (f : Nat → Word) : State :=
  match o with
  | .vreg r .. => s.modSelf w fun t => t.writeLanes r.toNat f w.lanes
  | .sreg r _ => s.modSelf w fun t => t.setS r.toNat (f 0)
  | _ => s

/-- The old word of the destination, for the instructions that read A (R159). -/
def State.oldDst (s : State) (w : Who) (o : Operand) (l : Nat) : Word :=
  match o with
  | .vreg r .. => (s.self w).vlane r.toNat l
  | .sreg r _ => (s.self w).sreg r.toNat
  | _ => 0

/-- A 64-bit value of a register pair, low word first (R204). -/
def Mt.pair (t : Mt) (r : Nat) : DWord := t.sreg (r + 1) ++ t.sreg r
def Mt.setPair (t : Mt) (r : Nat) (v : DWord) : Mt :=
  (t.setS r (v.setWidth 32)).setS (r + 1) ((v >>> 32).setWidth 32)

/-! ### Roles (R50, R51) -/

/-- What a role names. -/
inductive Target
  | mt (core mt : Nat)
  | core (c : Nat)
  | tile (t : Nat)
  | die (d : Nat)
  | pkg
  | remote (pkg level unit mt : Nat)
  deriving DecidableEq, Repr

/-- The BINDTAB entry of a role (R50). -/
def Core.bind (k : Core) (role : Nat) : Word := k.bindtab.look 0 role

/-- The unit exists: its tile's TILEMAP entry reads EN = 1. -/
def State.unitPresent (s : State) : Target → Bool
  | .mt c _ | .core c => s.present c
  | .tile t => decide (t < 256) && (s.tile t).en
  | .die d => decide (d < 4)
  | .pkg | .remote .. => true

/-- Resolves a role: V, LEVEL and presence are checked in this order (R367, cause 0x08). -/
def State.resolve (s : State) (core role : Nat) : Except Stop Target :=
  let e := (s.core core).bind role
  let v := BitVec.ofNat 32 role
  if !e.getLsbD 31 then .error (exnVal 8 1 v)
  else
    let level := e.toNat / 2 ^ 28 % 8
    let mt := e.toNat / 2 ^ 24 % 16
    let pkg := e.toNat / 2 ^ 10 % 512
    let unit := e.toNat % 1024
    if 4 < level then .error (exnVal 8 2 v)
    else if pkg ≠ Config.pkgNum then .ok (.remote pkg level unit mt)
    else
      let tg : Target := match level with
        | 0 => .mt unit mt
        | 1 => .core unit
        | 2 => .tile unit
        | 3 => .die unit
        | _ => .pkg
      if s.unitPresent tg then .ok tg else .error (exnVal 8 3 v)

/-- The core a role names for a mailbox access; tiles, dies and packages are above it. -/
def Target.coreOf : Target → Option Nat
  | .mt c _ | .core c => some c
  | .remote _ l c _ => if l < 2 then some c else none
  | _ => none

/-- The core that a core's roles know it by: for a twin its primary (R376). -/
def State.namedCore (s : State) (core : Nat) : Nat :=
  match (s.core core).pair with
  | some q => if q.twin then q.other else core
  | none => core

/-- The role resolves to a core or to one of its micro-threads (R230's SELF). -/
def Target.isSelf (tg : Target) (core : Nat) : Bool :=
  match tg with
  | .mt c _ | .core c => c == core
  | _ => false

/-- Cores of a launch within a unit, ascending; a twin takes what its primary gets (R221, R272,
R377). DESIGN CHOICE (log 30): in a unit of another package, every core. -/
def State.unitCores (s : State) (core : Nat) (tg : Target) : List Nat :=
  let l := (s.core core).launch
  let same (c : Nat) : Bool := (s.core c).launch == l && !(s.core c).isTwin
  let dieCores (d : Nat) : List Nat := (List.range 256).map (d * 256 + ·)
  match tg with
  | .mt c _ | .core c => [c]
  | .tile t => (sortNat (tileCores t)).filter same
  | .die d => (List.range 1024).filter fun c => same c && coreDie (s.originOf c) == d
  | .pkg => (List.range 1024).filter same
  | .remote _ 2 t _ => sortNat (tileCores (t % 256))
  | .remote _ 3 d _ => dieCores (d % 4)
  | .remote _ 4 _ _ => List.range 1024
  | .remote _ _ c _ => [c]

end Sys2Proof.Machine
end

