-- ==== Sys2Proof/Machine/Issue.lean ====
section
/-! DEFINITION. How a micro-thread instruction issues (R37, R54, R55, R116, R123, R195, R202,
R364, R365): its members, its guard, its commit or trap or wait, and how the program counter
moves. -/

namespace Sys2Proof

open Machine

/-! ### REP stepping (R116, R130) -/

/-- A register field moved by `k` registers. -/
def Operand.step (o : Operand) (k : Int) : Operand :=
  let mv (n : Nat) (r : Nat) : BitVec n := BitVec.ofNat n ((r : Int) + k).toNat
  match o with
  | .vreg r sel swz neg abs low => .vreg (mv 6 r.toNat) sel swz neg abs low
  | .sreg r low => .sreg (mv 5 r.toNat) low
  | .handle h w off => .handle (mv 4 h.toNat) w off
  | .stream q => .stream (mv 3 q.toNat)
  | .special x => if x.toNat < 40 then .special (mv 6 x.toNat) else o
  | o => o

/-- An operand field is unused: its code of zeros names no register, so it ignores its step. -/
def Operand.unused (ks : List Kind) (o : Operand) : Bool := ks.contains .zero && o == Operand.zero

/-- The run with the steps of the fields that an instruction does not use left out (R116). -/
def Machine.RepRun.on (r : RepRun) (op : Nat) (f : Ny) : RepRun :=
  match opRow op with
  | some row =>
    { r with
      sa := if Operand.unused row.a f.a then 0 else r.sa
      sb := if Operand.unused row.b f.b then 0 else r.sb
      sc := if Operand.unused row.c f.c then 0 else r.sc }
  | none => r

/-- The fields `k` repeats on. DESIGN CHOICE (log 12): the checks of R131 are made on the word, and
the run check of R116 on the stepped numbers; the parity of a stepped pair and the v63 rules of CMPRS
and XPND are not checked again. -/
def Ny.stepBy (f : Ny) (k : Int) (r : RepRun) : Ny :=
  { f with
    a := Operand.step f.a (k * r.sa)
    b := Operand.step f.b (k * r.sb)
    c := Operand.step f.c (k * r.sc) }

/-- The limit of a field's kind, for the run check of R116. -/
def Operand.limit : Operand → Option (Nat × Nat)
  | .vreg r .. => some (r.toNat, 63)
  | .sreg r _ => some (r.toNat, 31)
  | .handle h _ _ => some (h.toNat, 15)
  | .stream q => some (q.toNat, 7)
  | .special x =>
    if x.toNat < 15 then some (x.toNat, 14)
    else if 16 ≤ x.toNat ∧ x.toNat < 24 then some (x.toNat, 23)
    else if 24 ≤ x.toNat ∧ x.toNat < 40 then some (x.toNat, 39)
    else none
  | _ => none

def Operand.runOk (o : Operand) (n st : Nat) : Bool :=
  match Operand.limit o with
  | some (r, lim) => decide (r + (n - 1) * st ≤ lim)
  | none => true

/-- The run check of R116 on the fields that step. -/
def Machine.RepRun.fits (r : RepRun) (op : Nat) (f : Ny) : Bool :=
  let q := r.on op f
  f.a.runOk r.n q.sa && f.b.runOk r.n q.sb && f.c.runOk r.n q.sc

/-- The form of an instruction whose operand A is VREG or a predicate is the vector form (R159). -/
def Ny.vec (f : Ny) : Bool :=
  match f.a with
  | .vreg .. | .special _ => true
  | _ => false

end Sys2Proof

namespace Sys2Proof.Machine

/-- The instruction's fields as fetched, with the step of the current repeat undone. -/
def Mt.unstepped (t : Mt) (op : Nat) (f : Ny) : Ny :=
  match t.rep with
  | some r => f.stepBy (-((r.n - t.repcnt : Nat) : Int)) (r.on op f)
  | none => f

/-! ### Moving on -/

/-- Where a committed instruction leaves the stream. -/
inductive Next
  | seq
  | jump (va : DWord)
  | halt

/-- An address is that of an instruction of a seed block. DESIGN CHOICE (log 12): an address within
the block that is no instruction's is not inside it for R37. -/
def SeedBlock.has (b : SeedBlock) (va : DWord) : Bool :=
  let d := (va - b.base).toNat
  decide (d < 12 * b.words.length) && d % 12 == 0

/-- Whether a taken branch may go to `va`: inside the block, or anywhere once BFETCH has
executed (R37, R192). -/
def Mt.mayJump (t : Mt) (va : DWord) : Bool :=
  match t.block with
  | some b => SeedBlock.has b va || b.cont.isSome
  | none => true

/-- STOP of a micro-thread, or of a gang's leader: every member goes to stopping (R55, R196). -/
def State.stopAll (s : State) (c m : Nat) : State :=
  match s.gangOf c m with
  | some (_, ms) =>
    ms.foldl (fun s x => (s.modMt x m fun t => { t with gang := none }).toStopping x m) s
  | none => s.toStopping c m

/-- The program counter moves on: the new state, whether the micro-thread stopped, and whether
a step in the sense of R364 has ended. -/
def State.movePc (s : State) (c m : Nat) (nx : Next) : State × Bool × Bool :=
  let t := s.mt c m
  match nx with
  | .halt => (s.stopAll c m, true, false)
  | .jump va =>
    match t.block with
    | some b =>
      if SeedBlock.has b va then (s.modMt c m fun t => { t with pc := va }, false, false)
      else (s.modMt c m fun t => { t with pc := va, block := none }, false, true)
    | none => (s.modMt c m fun t => { t with pc := va }, false, true)
  | .seq =>
    let va := t.pc + 12
    match t.block with
    | none => (s.modMt c m fun t => { t with pc := va }, false, true)
    | some b =>
      if SeedBlock.has b va then (s.modMt c m fun t => { t with pc := va }, false, false)
      else
        match b.cont with
        | some x => (s.modMt c m fun t => { t with pc := x, block := none }, false, true)
        | none => (s.stopAll c m, true, false)

/-- The step trap (R364): cause 0x12 with the next instruction's address; in a gang the leader
raises it (R55). -/
def State.stepTrap (s : State) (c m : Nat) : State :=
  s.takeTrap c m (if (s.gangOf c m).isSome then some c else none) (s.mt c m).pc 0 (.mk' 0x12 0)

/-- Under SYNC, one of the operations that a step of micro-thread `m` of core `l` waits for has
completed: with the last the step ends (R364). -/
def State.stepDone (s : State) (l m : Nat) (op : Nat × BitVec 16) : State :=
  let t := s.mt l m
  let rest := t.stepping.erase op
  if rest.isEmpty && t.stepDue then
    (s.modMt l m fun t => { t with stepping := [], stepDue := false }).stepTrap l m
  else s.modMt l m fun t => { t with stepping := rest }

/-- The core whose micro-thread `m` waits for an operation: the issuing one, or the leader of its
gang. -/
def State.stepper (s : State) (c m : Nat) (seq : BitVec 16) : Option Nat :=
  if (s.mt c m).stepping.contains (c, seq) then some c
  else (s.cores.find? fun e => (e.2.mt m).stepping.contains (c, seq)).map (·.1)

/-- An asynchronous operation of core `c` issued by micro-thread `m` completes (R364, SYNC). -/
def State.opDone (s : State) (c m : Nat) (seq : BitVec 16) : State :=
  match s.stepper c m seq with
  | some l => s.stepDone l m (c, seq)
  | none => s

/-- A completion record that the inbox has taken ends its operation, whichever micro-thread issued
it. -/
def State.recordDone (s : State) (c : Nat) (seq : BitVec 16) : State :=
  (List.range 16).foldl (fun s m => s.opDone c m seq) s

/-- The inbox fills up from the completions that engines hold, which are posted only then (R227,
R364). -/
def State.refill (s : State) (c : Nat) : State :=
  let ps := (s.core c).posting.take (32 - (s.core c).inbox.length)
  if ps.isEmpty then s else ps.foldl (fun s r => s.recordDone c r.seq) (s.modCore c (·.refill))

/-- An engine posts a completion record, or holds it while the inbox is full. The operation ends for
SYNC when the record is posted (R227, R364). -/
def State.postRecord (s : State) (c : Nat) (r : InboxRec) : State :=
  let k := s.core c
  let s := s.modCore c (·.post r)
  if k.inbox.length < 32 ∧ k.posting.isEmpty then s.recordDone c r.seq else s

/-- Nanoseconds that a stall of `n` cycles lasts at the least: no clock of R20 is faster than
1.5 GHz (R124, R324). -/
def stallNs (n : Nat) : Nat := n * 2 / 3

/-- Micro-thread `m` of core `c` has issued an instruction: it is the last that did (R298). -/
def State.issued (s : State) (c m : Nat) : State := s.modCore c fun k => { k with lastMt := m }

/-- Micro-thread `m` of core `c` commits an instruction: it runs. One that waited becomes the youngest, any
other issues now (R38, R298). -/
def State.committed (s : State) (c m : Nat) : State :=
  let t := s.mt c m
  let s' := s.setMt c m
    { t with
      st := .running, blocked := none, resumed := false
      age := if t.st = .waiting then s.youngest c m else t.age }
  if t.st = .waiting then s' else s'.issued c m

/-- After the instruction at the program counter has committed: one repeat fewer (R116), or the
hints act (R124), the program counter moves and a step trap may follow (R364); then a stop that waited
for the boundary acts (R40). `isRep`: the instruction is REP, which has set the repeats and ends no
step. -/
def State.finish (s : State) (c m : Nat) (h : Hint) (nx : Next) (isRep : Bool) : State :=
  let young := s.youngest c m
  let s := s.committed c m
  let t := s.mt c m
  if 1 < t.repcnt && !isRep then
    (s.modMt c m fun t => { t with repcnt := t.repcnt - 1 }).boundary c m
  else
    let s := s.modMt c m fun t =>
      { t with
        repcnt := if isRep then t.repcnt else 0, rep := if isRep then t.rep else none
        stl := s.now + stallNs h.stl.toNat
        age := if h.yld then young else t.age }
    let r := s.movePc c m nx
    if (s.core c).dbgctl.getLsbD m && r.2.2 && !r.2.1 && !isRep then
      if (r.1.mt c m).stepping != [] then (r.1.modMt c m fun t => { t with stepDue := true }).boundary c m
      else r.1.stepTrap c m
    else r.1.boundary c m

/-! ### TWAIT's bound (R202) -/

/-- Writes the outcome of a bounded instruction into the predicate of every member that TWAIT
bound. -/
def State.setBound (s : State) (m : Nat) (members : List Nat) (v : Bool) : State :=
  members.foldl (fun s x =>
    match (s.mt x m).bound with
    | some p => s.modMt x m fun t => { t.setP p (if v then 0xFFFFFFFF else 0) with bound := none }
    | none => s) s

/-- The earliest deadline that TWAIT set for a member, if one did: in a gang the instruction commits
in all members or in none (R54, log 11). -/
def State.deadline (s : State) (m : Nat) (members : List Nat) : Option Nat :=
  ((members.filter fun x => (s.mt x m).bound.isSome).map fun x => (s.mt x m).tdead).min?

/-- The bounded instruction is abandoned with no effect at its deadline, and execution goes on
after it. -/
def State.giveUp (s : State) (c m : Nat) (h : Hint) : State :=
  let ms := s.membersOf c m
  let s := ms.foldl (fun s x => s.abandon x m) s
  (s.setBound m ms false).finish c m h .seq false

/-! ### Issue -/

/-- The instruction may be bounded by TWAIT (R202). -/
def boundable (op : Nat) (f : Ny) : Bool :=
  let wide (o : Operand) : Bool := match o with
    | .handle .. | .stream _ => true
    | _ => false
  let hs : Bool := (op != 0x308 && op != 0x205 && op != 0x206 && op != 0x207 && op != 0x208 && op != 0x209) &&
    (wide f.a || wide f.b || wide f.c)
  hs || [0x20A, 0x289, 0x28B, 0x188, 0x187, 0x286, 0x287, 0x288, 0x18A, 0x385, 0x388].contains op

/-- A member's view: its gang lane base and its guard. -/
def State.who (s : State) (m : Nat) (members : List Nat) (g : Guard) (c : Nat) : Who :=
  ⟨c, m, 32 * (members.findIdx (· == c)), (s.mt c m).guardMask g⟩

/-- Whether the instruction acts for a member: in vector form some lane is enabled, otherwise
lane 0 (R123, R159). -/
def Who.acts (w : Who) (vec : Bool) : Bool := if vec then w.en != 0 else w.on 0

/-- Operations whose engine accesses memory (R86): MMA, MMAS, MFILL, MDRAIN, CPY, CPYG and RGRAD. -/
def engineAccess (op : Nat) : Bool := [0x300, 0x301, 0x303, 0x304, 0x308, 0x309, 0x38B].contains op

/-- The instruction orders the earlier accesses of its agent before later ones (R79, R81), or before those
of the engine operation that it issues (R86): it waits until the agent's messages are performed. -/
def ordering (op : Nat) (f : Ny) : Bool :=
  let stream (o : Operand) : Bool := match o with | .stream _ => true | _ => false
  let waits (o : Operand) : Bool := match o with | .handle _ n _ => n != 0 | _ => false
  stream f.b || stream f.c || waits f.a || waits f.b || waits f.c ||
  [0x283, 0x284, 0x285, 0x286, 0x287, 0x288, 0x289, 0x28B, 0x20A, 0x206, 0x207, 0x18A, 0x185].contains op ||
  ([0x280, 0x281, 0x282].contains op && decide ((Operand.qual f.a).toNat % 4 ≠ 0)) ||
  engineAccess op

/-- The instruction accesses memory. -/
def accesses (op : Nat) (f : Ny) : Bool :=
  decide (0x200 ≤ op ∧ op < 0x300) ||
  (op == 0x001 && (match f.a with | .nwin .. | .role .. => true | _ => false))

/-- A member's messages to memory hold the instruction back (R81, R83). -/
def State.heldBack (s : State) (op : Nat) (f : Ny) (w : Who) : Bool :=
  (ordering op f && (s.home w).outstanding w.agent) || (accesses op f && s.fencedIn w.agent)

/-- The instruction in which micro-thread `m` of a core waits, itself or as a follower of a leader that
does, and the leader's core. -/
def State.blockedIn (s : State) (c m : Nat) : Option (Nat × Instr) :=
  let l := match (s.mt c m).gang with
    | some (.follower x) => x
    | _ => c
  let t := s.mt l m
  if t.st = .waiting ∧ t.hold = none then t.blocked.map fun i => (l, i) else none

/-- An instruction that waits with micro-thread `m` of a core as leader could complete: `can` holds for
every member for which it acts. -/
def State.couldComplete (s : State) (l m : Nat) (f : Ny) (vec : Bool) (can : Who → Bool) : Bool :=
  let ms := s.membersOf l m
  ((ms.map (s.who m ms f.guard)).filter (·.acts vec)).all can

/-- A lower micro-thread of the core waits in an instruction that `first` names: of two that could take
one thing, it takes it (R410). -/
def State.lowerWaits (s : State) (w : Who) (first : Nat → Nat → Instr → Bool) : Bool :=
  (List.range w.mt).any fun m =>
    match s.blockedIn w.core m with
    | some (l, i) => first l m i
    | none => false

/-- What the members' parts add up to. -/
inductive Verdict
  | commit (s : State)
  | wait (keep : State)
  | stall (keep : State)
  | trap (memb : Nat) (e : Exn)
  | poison (core : Nat) (e : ErrorSite)

/-- Every member's part is tried on the state before the instruction: what traps, what waits, and what
is on its way, which alone is kept: a member whose part would commit leaves nothing while another's does
not (R54). A trap of any member goes before the wait of another (R365). What waits at no channel has no
place there. -/
def tryMembers (body : Who → State → Res) (lead : Waiter) :
    List Who → State → (waits stalls queued : Bool) → Verdict
  | [], s, waits, stalls, queued =>
    let t := if queued then s else s.leaveAll lead
    if waits then .wait t else if stalls then .stall t else .commit s
  | w :: ws, s, waits, stalls, queued =>
    match body w s with
    | .ok _ => tryMembers body lead ws s waits stalls queued
    | .error (.wait k) => tryMembers body lead ws (k.getD s) true stalls queued
    | .error (.stall k) => tryMembers body lead ws (k.getD s) waits true queued
    | .error (.channel ls) => tryMembers body lead ws (s.joinAll lead ls) waits true true
    | .error (.trap e) => .trap w.core e
    | .error (.poison e) => .poison w.core e

/-- The members' parts commit one after the other, in ascending core order. One that an earlier one's
keeps from committing holds all of them back, with nothing done since `s0` (R54). -/
def commitMembers (body : Who → State → Res) (s0 : State) : List Who → State → Verdict
  | [], s => .commit s
  | w :: ws, s =>
    match body w s with
    | .ok s' => commitMembers body s0 ws s'
    | .error (.wait _) => .wait s0
    | .error (.stall _) | .error (.channel _) => .stall s0
    | .error (.trap e) => .trap w.core e
    | .error (.poison e) => .poison w.core e

/-- Runs the members' parts: all commit or none (R54). -/
def runMembers (body : Who → State → Res) (lead : Waiter) (ws : List Who) (s : State) : Verdict :=
  match tryMembers body lead ws s false false false with
  | .commit _ => commitMembers body s ws s
  | v => v

/-- A micro-thread's instruction could not issue: a younger one of the core may issue instead, until
something happens (R298). -/
def State.noIssue (s : State) (c m : Nat) : State :=
  { s with tried := (c, m) :: (if s.triedAt = s.free then s.tried else []), triedAt := s.free + 1 }

/-- The trap of the instruction at the program counter, raised by a member's core (R55, R365). -/
def State.raise (s : State) (op : Nat) (f : Ny) (x : Nat) (e : Exn) : State :=
  let t := s.mt s.curCore s.curMt
  s.takeTrap s.curCore s.curMt
    (if 1 < (s.membersOf s.curCore s.curMt).length then some x else none) t.pc ((t.unstepped op f).toWord op) e

/-- Issues an instruction whose members' parts are `body` and whose successor `nx` reads the
committed state. `vec`: it is lane-wise in this form. Every check comes before a wait (R365). Under a
bound, an instruction whose condition does not hold at the deadline is given up; one whose condition
holds then completes, once nothing else holds it back (R202, R362). -/
def State.issueTo (s : State) (i : Instr) (op : Nat) (f : Ny) (vec : Bool)
    (body : Who → State → Res) (nx : State → Next) (isRep : Bool) : State :=
  let c := s.curCore
  let m := s.curMt
  let ms := s.membersOf c m
  let acting := (ms.map (s.who m ms f.guard)).filter (·.acts vec)
  let dl := s.deadline m ms
  if dl.isSome && !acting.isEmpty && !boundable op f then s.raise op f c (.mk' 1 2)
  else
    let held : Bool := acting.any (s.heldBack op f)
    let due : Bool := match dl with | some d => decide (d ≤ s.now) | none => false
    let done (s' : State) : State :=
      (if dl.isSome then s'.setBound m ms true else s').finish c m f.hint
        (if acting.isEmpty then .seq else nx s') isRep
    match runMembers body s.leader acting s with
    | .trap x e => s.raise op f x e
    | .poison x e => s.consumePoison x e
    | .stall k => (if held then s else k).noIssue c m
    | .commit s' => if held then s.noIssue c m else done s'
    | .wait k =>
      if due then
        -- an arrival of this very issue may have completed its phase (R224)
        match (if held then .wait k else runMembers body s.leader acting k) with
        | .commit s' => done s'
        | _ => s.giveUp c m f.hint
      else if held then s.noIssue c m
      else
        let s' := k.modMt c m fun t => { t with st := .waiting, blocked := some i }
        if (s.mt c m).st = .waiting then s' else s'.issued c m

/-- Issues an instruction that goes on to the next one. -/
def State.issue (s : State) (i : Instr) (op : Nat) (f : Ny) (vec : Bool)
    (body : Who → State → Res) : State :=
  s.issueTo i op f vec body (fun _ => .seq) false

end Sys2Proof.Machine
end

