-- ==== Sys2Proof/Machine/Flags.lean ====
section
/-! DEFINITION. Conditions: what a compare, a classification, a vote or a branch tests and how a
condition is written into a predicate or as element masks (R121 group C, R170, R174, R175,
R189, R192). Nyuth keeps no other flags (R98). -/

namespace Sys2Proof.Machine

/-- A compare code of group C on integers (R170). -/
def intCond (code : Nat) (x y : Int) : Bool :=
  match code with
  | 0 => x == y
  | 1 => x != y
  | 2 => decide (x < y)
  | 3 => decide (x ≤ y)
  | 4 => decide (y < x)
  | _ => decide (y ≤ x)

/-- A compare code of group C on floating values (R174). -/
def floatCond (code : Nat) (x y : FVal) : Bool :=
  let nan := x.isNan || y.isNan
  match code with
  | 0 => !nan && FVal.cmp x y == 0
  | 1 => nan || FVal.cmp x y != 0
  | 2 => !nan && decide (FVal.cmp x y < 0)
  | 3 => !nan && decide (FVal.cmp x y ≤ 0)
  | 4 => !nan && decide (0 < FVal.cmp x y)
  | 5 => !nan && decide (0 ≤ FVal.cmp x y)
  | 6 => !nan
  | _ => nan

/-- The class code of a floating element (R175). -/
def classCode (g : Fmt) (bits : Nat) : Nat :=
  match g.value bits with
  | .nan => 8
  | .inf neg => if neg then 0 else 7
  | .fin neg mag _ =>
    if mag = 0 then (if neg then 3 else 4)
    else if bits / 2 ^ g.m % 2 ^ g.e = 0 then (if neg then 2 else 5)
    else if neg then 1 else 6

/-- All ones of an element width, for a condition that holds (R170). -/
def maskElem (t : Ty) (b : Bool) : Nat := if b then 2 ^ t.width - 1 else 0

/-- The condition holds for every element of the word (R170). -/
def allElems (t : Ty) (g : Nat → Nat → Bool) (x y : Word) : Bool :=
  (List.range t.perWord).all fun i => g (t.elem x i) (t.elem y i)

/-- Writes a compare: a lane bit in a predicate, element masks in a register (R170). -/
def State.writeCond (s : State) (w : Who) (f : Ny) (g : Nat → Nat → Bool) (x y : Nat → Word) :
    State :=
  match f.a with
  | .special p =>
    s.modSelf w fun t => t.writePred p.toNat (fun l => allElems f.ty g (x l) (y l)) w.lanes
  | _ =>
    s.writeDst w f.a fun l => f.ty.map2 (fun a b => maskElem f.ty (g a b)) (x l) (y l)

/-- Lane `l` of a branch or vote operand counts as true: its predicate bit, or a word that is
not zero (R189, R192). -/
def State.truth (s : State) (w : Who) (o : Operand) (l : Nat) : Bool := s.srcLane w .b32 true o l != 0

/-- .any, .all and .none over all lanes of all members (R54, R192). -/
def State.branchCond (s : State) (ws : List Who) (bc : Nat) (o : Operand) : Bool :=
  let holds (w : Who) (l : Nat) : Bool := s.truth w o l
  match bc with
  | 0 => ws.any fun w => (List.range 32).any (holds w)
  | 1 => ws.all fun w => (List.range 32).all (holds w)
  | _ => !(ws.any fun w => (List.range 32).any (holds w))

end Sys2Proof.Machine
end

