-- ==== Sys2Proof/Machine/IntLogic.lean ====
section
/-! DEFINITION. Class 0x000: integer and logic (R161 to R172). -/

namespace Sys2Proof.Machine


/-! ### Element-wise instructions (R159) -/

/-- A := g(B), element by element. -/
def elem1 (f : Ny) (g : Nat → Nat) (w : Who) (s : State) : Res :=
  match s.src w f.ty false f.b with
  | .error e => .error e
  | .ok (s, x) => .ok (s.writeDst w f.a fun l => f.ty.map1 g (x l))

/-- A := g(B, C), element by element. -/
def elem2 (f : Ny) (g : Nat → Nat → Nat) (w : Who) (s : State) : Res :=
  match s.src2 w f.ty f.b f.c false with
  | .error e => .error e
  | .ok (s, x, y) => .ok (s.writeDst w f.a fun l => f.ty.map2 g (x l) (y l))

/-- A := g(A, B, C), element by element. -/
def elem3 (f : Ny) (g : Nat → Nat → Nat → Nat) (w : Who) (s : State) : Res :=
  match s.src2 w f.ty f.b f.c false with
  | .error e => .error e
  | .ok (s, x, y) =>
    let old := s.oldDst w f.a
    .ok (s.writeDst w f.a fun l => f.ty.map3 g (old l) (x l) (y l))

/-- A := g(B) or g(B, C) on whole words (R167). -/
def word1 (f : Ny) (g : Word → Word) (w : Who) (s : State) : Res :=
  match s.src w f.ty false f.b with
  | .error e => .error e
  | .ok (s, x) => .ok (s.writeDst w f.a fun l => g (x l))

def word2 (f : Ny) (g : Word → Word → Word) (w : Who) (s : State) : Res :=
  match s.src2 w f.ty f.b f.c false with
  | .error e => .error e
  | .ok (s, x, y) => .ok (s.writeDst w f.a fun l => g (x l) (y l))

/-- Signed arithmetic of a type on element bits. -/
def arith (t : Ty) (g : Int → Int → Int) (x y : Nat) : Nat := t.wrap (g (t.int x) (t.int y))

/-! ### NOP and MOV -/

/-- NOP (R162). -/
def execNop (f : Ny) (s : State) : Out := .next (s.issue (.nop f) 0x000 f false fun _ s => .ok s)

/-- Core that a neighbour-window operand reaches and the window written there (R69). -/
def State.nwinTarget (s : State) (core peer : Nat) : Nat × Nat :=
  let i := localIdx (s.originOf core)
  let t := if i ≤ peer then peer + 1 else peer
  (s.tileMate core t, if t < i then i - 1 else i)

/-- A signal write to a window word: the data is replaced and the full bit set (R70), at once or
later, in the order of the micro-thread's writes to that window's scratchpad (R84). -/
def State.signalWindow (s : State) (w : Who) (c j word : Nat) (v : Word) : State :=
  s.padStore w.core ⟨w.mt, 6, c, 0x7A000 + j * 0x2000 + 4 * word, v, true⟩

/-- A signal write to a mailbox word leaves as a message to the owner's home slice (R71). -/
def State.signalRole (s : State) (w : Who) (tg : Target) (word : Nat) (v : Word) : State :=
  let send (ep c : Nat) (dom : Bool) : State :=
    s.sendFor w.agent (s.regionNo w.agent) w.core ep 0 0 (.signal c word v dom)
  match tg with
  | .mt c _ | .core c => send (epSlice c) c false
  | .remote p _ c _ => send (epRemote p (epSlice c)) c true
  | _ => s

/-- The words a window or mailbox write covers: one for a scalar source, one per enabled lane
for a VREG. -/
def sigLanes (f : Ny) (w : Who) : List Nat := if f.b.isVreg then w.lanes else [0]

/-- The first offset that passes 2,047 raises illegal-operand (R69, R163). -/
def offsetCheck (base : Nat) (lanes : List Nat) : Except Stop Unit :=
  match lanes.find? fun l => decide (2047 < base + l) with
  | some l => .error (outOfRange (BitVec.ofNat 32 (base + l)))
  | none => .ok ()

/-- MOV's part for a member (R163). -/
def movBody (f : Ny) (w : Who) (s : State) : Res :=
  match f.a with
  | .nwin p off =>
    let ls := sigLanes f w
    match offsetCheck off.toNat ls with
    | .error e => .error e
    | .ok () =>
      match s.src w f.ty false f.b with
      | .error e => .error e
      | .ok (s, x) =>
        let (c, j) := s.nwinTarget w.core p.toNat
        .ok (ls.foldl (fun s l => s.signalWindow w c j (off.toNat + l) (x l)) s)
  | .role r off =>
    let ls := sigLanes f w
    match offsetCheck off.toNat ls with
    | .error e => .error e
    | .ok () =>
      match s.resolve w.core r.toNat with
      | .error e => .error e
      | .ok tg =>
        if tg.coreOf.isNone then .error (exnVal 8 4 (r.setWidth 32))
        else
          match s.src w f.ty false f.b with
          | .error e => .error e
          | .ok (s, x) =>
            .ok (ls.foldl (fun s l => s.signalRole w tg (off.toNat + l) (x l)) s)
  | .special p =>
    match s.src w f.ty false f.b with
    | .error e => .error e
    | .ok (s, x) => .ok (s.modSelf w fun t => t.writePred p.toNat (fun l => x l != 0) w.lanes)
  | _ => word1 f id w s

/-- MOV is lane-wise with a register or predicate destination, and with a VREG source of a
signal write. -/
def movVec (f : Ny) : Bool :=
  match f.a with
  | .nwin .. | .role .. => f.b.isVreg
  | _ => f.vec

def execMov (f : Ny) (s : State) : Out := .next (s.issue (.mov f) 0x001 f (movVec f) (movBody f))

/-- SEL (R164). -/
def execSel (f : Ny) (s : State) : Out :=
  .next (s.issue (.sel f) 0x002 f f.vec (elem3 f fun a b c =>
    f.ty.own (if f.ty.own a ≠ 0 then b else c)))

/-! ### Arithmetic (R165) -/

def execIadd (f : Ny) (s : State) : Out :=
  .next (s.issue (.iadd f) 0x003 f f.vec (elem2 f (arith f.ty (· + ·))))
def execIsub (f : Ny) (s : State) : Out :=
  .next (s.issue (.isub f) 0x004 f f.vec (elem2 f (arith f.ty (· - ·))))
def execImul (f : Ny) (s : State) : Out :=
  .next (s.issue (.imul f) 0x005 f f.vec (elem2 f (arith f.ty (· * ·))))
def execImulh (f : Ny) (s : State) : Out :=
  .next (s.issue (.imulh f) 0x006 f f.vec
    (elem2 f (arith f.ty fun x y => x * y / (2 ^ f.ty.width : Nat))))
def execImad (f : Ny) (s : State) : Out :=
  .next (s.issue (.imad f) 0x007 f f.vec
    (elem3 f fun a b c => f.ty.wrap (f.ty.int a + f.ty.int b * f.ty.int c)))
def execImin (f : Ny) (s : State) : Out :=
  .next (s.issue (.imin f) 0x008 f f.vec (elem2 f (arith f.ty min)))
def execImax (f : Ny) (s : State) : Out :=
  .next (s.issue (.imax f) 0x009 f f.vec (elem2 f (arith f.ty max)))
def execIabs (f : Ny) (s : State) : Out :=
  .next (s.issue (.iabs f) 0x00A f f.vec (elem1 f fun x => f.ty.wrap ((f.ty.int x).natAbs : Int)))
def execIneg (f : Ny) (s : State) : Out :=
  .next (s.issue (.ineg f) 0x00B f f.vec (elem1 f fun x => f.ty.wrap (-(f.ty.int x))))
def execIadds (f : Ny) (s : State) : Out :=
  .next (s.issue (.iadds f) 0x00C f f.vec
    (elem2 f fun x y => f.ty.sat (f.ty.int x + f.ty.int y)))
def execIsubs (f : Ny) (s : State) : Out :=
  .next (s.issue (.isubs f) 0x00D f f.vec
    (elem2 f fun x y => f.ty.sat (f.ty.int x - f.ty.int y)))

/-! ### Shifts (R166) -/

def shl (t : Ty) (x n : Nat) : Nat := t.wrap ((x * 2 ^ (n % t.width) : Nat) : Int)
def shr (t : Ty) (x n : Nat) : Nat := x / 2 ^ (n % t.width)
def sar (t : Ty) (x n : Nat) : Nat := t.wrap (sval t.width x / (2 ^ (n % t.width) : Nat))
def rotl (t : Ty) (x n : Nat) : Nat :=
  let k := n % t.width
  t.wrap ((x * 2 ^ k + x / 2 ^ (t.width - k) : Nat) : Int)

def execShl (f : Ny) (s : State) : Out :=
  .next (s.issue (.shl f) 0x00E f f.vec (elem2 f (shl f.ty)))
def execShr (f : Ny) (s : State) : Out :=
  .next (s.issue (.shr f) 0x00F f f.vec (elem2 f (shr f.ty)))
def execSar (f : Ny) (s : State) : Out :=
  .next (s.issue (.sar f) 0x010 f f.vec (elem2 f (sar f.ty)))
def execRot (f : Ny) (s : State) : Out :=
  .next (s.issue (.rot f) 0x011 f f.vec (elem2 f (rotl f.ty)))

/-! ### Logic (R167) -/

def execAnd (f : Ny) (s : State) : Out :=
  .next (s.issue (.and f) 0x012 f f.vec (word2 f fun x y => x &&& y))
def execOr (f : Ny) (s : State) : Out :=
  .next (s.issue (.or f) 0x013 f f.vec (word2 f fun x y => x ||| y))
def execXor (f : Ny) (s : State) : Out :=
  .next (s.issue (.xor f) 0x014 f f.vec (word2 f fun x y => x ^^^ y))
def execAndn (f : Ny) (s : State) : Out :=
  .next (s.issue (.andn f) 0x015 f f.vec (word2 f fun x y => x &&& ~~~y))
def execNot (f : Ny) (s : State) : Out :=
  .next (s.issue (.not f) 0x016 f f.vec (word1 f fun x => ~~~x))

/-! ### Bits (R111, R168, R169) -/

/-- Bits of an element, least significant first. -/
def elemBits (w x : Nat) : List Bool := (List.range w).map fun i => x / 2 ^ i % 2 == 1
def ofElemBits : List Bool → Nat
  | [] => 0
  | b :: bs => (if b then 1 else 0) + 2 * ofElemBits bs

def clzE (w x : Nat) : Nat := (elemBits w x).reverse.findIdx id
def ffsE (w x : Nat) : Nat := (elemBits w x).findIdx id
def popE (w x : Nat) : Nat := (elemBits w x).countP id
def brevE (w x : Nat) : Nat := ofElemBits (elemBits w x).reverse

def execClz (f : Ny) (s : State) : Out :=
  .next (s.issue (.clz f) 0x017 f f.vec (elem1 f (clzE f.ty.width)))
def execFfs (f : Ny) (s : State) : Out :=
  .next (s.issue (.ffs f) 0x018 f f.vec (elem1 f (ffsE f.ty.width)))
def execPopc (f : Ny) (s : State) : Out :=
  .next (s.issue (.popc f) 0x019 f f.vec (elem1 f (popE f.ty.width)))
def execBrev (f : Ny) (s : State) : Out :=
  .next (s.issue (.brev f) 0x01A f f.vec (elem1 f (brevE f.ty.width)))

/-- BFX of an element under a control word (R169). -/
def bfxE (t : Ty) (c : Word) (x : Nat) : Nat :=
  let pos := c.toNat % 256
  let len := c.toNat / 256 % 256
  if len = 0 ∨ t.width ≤ pos then 0
  else
    let l := min len (t.width - pos)
    let y := x / 2 ^ pos % 2 ^ l
    if t.isSigned then t.wrap (sval l y) else y

/-- BFI of an element under a control word (R169). -/
def bfiE (t : Ty) (c : Word) (a x : Nat) : Nat :=
  let pos := c.toNat % 256
  let len := c.toNat / 256 % 256
  if len = 0 ∨ t.width ≤ pos then a
  else
    let l := min len (t.width - pos)
    a - a / 2 ^ pos % 2 ^ l * 2 ^ pos + x % 2 ^ l * 2 ^ pos

/-- The control word is C's whole lane word (R412). -/
def bfxBody (f : Ny) (w : Who) (s : State) : Res :=
  match s.src2 w f.ty f.b f.c true with
  | .error e => .error e
  | .ok (s, x, y) => .ok (s.writeDst w f.a fun l => f.ty.map1 (bfxE f.ty (y l)) (x l))

def bfiBody (f : Ny) (w : Who) (s : State) : Res :=
  match s.src2 w f.ty f.b f.c true with
  | .error e => .error e
  | .ok (s, x, y) =>
    let old := s.oldDst w f.a
    .ok (s.writeDst w f.a fun l => f.ty.map2 (bfiE f.ty (y l)) (old l) (x l))

def execBfx (f : Ny) (s : State) : Out := .next (s.issue (.bfx f) 0x01B f f.vec (bfxBody f))
def execBfi (f : Ny) (s : State) : Out := .next (s.issue (.bfi f) 0x01C f f.vec (bfiBody f))

/-! ### Compare and predicates (R170, R171) -/

def icmpBody (f : Ny) (w : Who) (s : State) : Res :=
  match s.src2 w f.ty f.b f.c false with
  | .error e => .error e
  | .ok (s, x, y) =>
    .ok (s.writeCond w f (fun a b => intCond f.md.toNat (f.ty.int a) (f.ty.int b)) x y)

def execIcmp (f : Ny) (s : State) : Out := .next (s.issue (.icmp f) 0x01D f f.vec (icmpBody f))

/-- A predicate operand's 32 lane bits. -/
def Mt.predOf (t : Mt) : Operand → Word
  | .special x => t.preg x.toNat
  | _ => 0

def predBody (f : Ny) (g : Bool → Bool → Bool) (w : Who) (s : State) : Res :=
  match f.a with
  | .special p =>
    let t := s.self w
    let b := t.predOf f.b
    let c := t.predOf f.c
    .ok (s.modSelf w fun t =>
      t.writePred p.toNat (fun l => g (b.getLsbD l) (c.getLsbD l)) w.lanes)
  | _ => .ok s

def execPand (f : Ny) (s : State) : Out :=
  .next (s.issue (.pand f) 0x01E f true (predBody f fun x y => x && y))
def execPor (f : Ny) (s : State) : Out :=
  .next (s.issue (.por f) 0x01F f true (predBody f fun x y => x || y))
def execPxor (f : Ny) (s : State) : Out :=
  .next (s.issue (.pxor f) 0x020 f true (predBody f fun x y => x != y))
def execPnot (f : Ny) (s : State) : Out :=
  .next (s.issue (.pnot f) 0x021 f true (predBody f fun x _ => !x))

/-! ### LEA (R172) -/

/-- Bits [63:48] copy bit 47. -/
def signVa (v : DWord) : DWord := (v.setWidth 48).signExtend 64

/-- An offset in one of the first four spaces. -/
def leaOffset (spc core : Nat) (x y : Word) : Word :=
  let v := x + y
  match spc with
  | 0 => v &&& 0x7FF
  | 1 => v &&& 0x7FFFF
  | 2 => BitVec.ofNat 32 (localIdx core * 0x80000) + (v &&& 0x7FFFF)
  | _ => v &&& 0x1FFFFFF

def leaBody (f : Ny) (w : Who) (s : State) : Res :=
  if f.virt then
    match f.a, f.b with
    | .sreg ra _, .sreg rb _ =>
      match s.src w f.ty true f.c with
      | .error e => .error e
      | .ok (s, y) =>
        let v := (s.self w).pair rb.toNat + (y 0).signExtend 64
        .ok (s.modSelf w fun t => t.setPair ra.toNat (signVa v))
    | _, _ => .ok s
  else word2 f (leaOffset f.spc (s.originOf w.core)) w s

def execLea (f : Ny) (s : State) : Out := .next (s.issue (.lea f) 0x022 f f.vec (leaBody f))

end Sys2Proof.Machine
end

