-- ==== Sys2Proof/Machine/Float.lean ====
section
/-! DEFINITION. Class 0x080, floating point and conversion (R173 to R181), and the special
functions and L6 of class 0x100 (R182 to R184). -/

namespace Sys2Proof.Machine

/-- RM of the instruction (R121 group R). -/
def rmOf (f : Ny) : Rm := Rm.ofCode (f.md.toNat % 8)
/-- NOSAT of the instruction. -/
def nosat (f : Ny) : Bool := f.md.toNat / 8 % 2 == 1

/-- One rounding of an exact result of two elements. -/
def farith (f : Ny) (g : FVal → FVal → FVal) (x y : Nat) : Nat :=
  f.ty.rnd (rmOf f) (g (f.ty.fval x) (f.ty.fval y))

def execFadd (f : Ny) (s : State) : Out :=
  .next (s.issue (.fadd f) 0x080 f f.vec (elem2 f (farith f (FVal.add (rmOf f)))))
def execFsub (f : Ny) (s : State) : Out :=
  .next (s.issue (.fsub f) 0x081 f f.vec (elem2 f (farith f fun x y => FVal.add (rmOf f) x y.neg)))
def execFmul (f : Ny) (s : State) : Out :=
  .next (s.issue (.fmul f) 0x082 f f.vec (elem2 f (farith f FVal.mul)))
/-- FFMA: one rounding of B × C + A; 0 × ∞ gives NaN whatever A holds (R173). -/
def execFfma (f : Ny) (s : State) : Out :=
  .next (s.issue (.ffma f) 0x083 f f.vec (elem3 f fun a b c =>
    f.ty.rnd (rmOf f) (FVal.add (rmOf f) ((f.ty.fval b).mul (f.ty.fval c)) (f.ty.fval a))))
def execFmin (f : Ny) (s : State) : Out :=
  .next (s.issue (.fmin f) 0x084 f f.vec (elem2 f (f.ty.fminmax true)))
def execFmax (f : Ny) (s : State) : Out :=
  .next (s.issue (.fmax f) 0x085 f f.vec (elem2 f (f.ty.fminmax false)))

def fcmpBody (f : Ny) (w : Who) (s : State) : Res :=
  match s.src2 w f.ty f.b f.c false with
  | .error e => .error e
  | .ok (s, x, y) =>
    .ok (s.writeCond w f (fun a b => floatCond f.md.toNat (f.ty.fval a) (f.ty.fval b)) x y)

def execFcmp (f : Ny) (s : State) : Out := .next (s.issue (.fcmp f) 0x086 f f.vec (fcmpBody f))

def execFclass (f : Ny) (s : State) : Out :=
  .next (s.issue (.fclass f) 0x087 f f.vec (elem1 f (classCode ((Fmt.of? f.ty).getD .fp32))))

/-- FRND of an element (R176). -/
def frndE (g : Fmt) (rm : Rm) (x : Nat) : Nat :=
  match g.value x with
  | .nan => g.nan
  | .inf _ => x
  | .fin neg mag e => g.enc rm true false (.fin neg (roundQ rm neg mag e false 0) 0)

def execFrnd (f : Ny) (s : State) : Out :=
  .next (s.issue (.frnd f) 0x088 f f.vec
    (elem1 f (frndE ((Fmt.of? f.ty).getD .fp32) (rmOf f))))

/-! ### CVT (R177) -/

/-- One element converted; equal integer and L6 types pass through. -/
def cvtE (nbv : Nat) (src dst : Ty) (rm : Rm) (sat : Bool) (x : Nat) : Nat :=
  if src = dst ∧ !dst.isFloat then x
  else if src = .l6 ∧ dst = .l6 then x % 64
  else dst.cvt rm sat (src.value nbv x)

def cvtWord (nbv : Nat) (src dst : Ty) (rm : Rm) (sat : Bool) (x : Word) : Word :=
  dst.pack ((List.range dst.perWord).map fun i =>
    if i < src.perWord then cvtE nbv src dst rm sat (src.elem x i) else 0)

def cvtBody (f : Ny) (w : Who) (s : State) : Res :=
  let st := srcTy 0x089 f
  match s.src w st false f.b with
  | .error e => .error e
  | .ok (s, x) =>
    let nbv := (s.home w).nbv.toNat
    .ok (s.writeDst w f.a fun l => cvtWord nbv st f.ty (rmOf f) (!nosat f) (x l))

def execCvt (f : Ny) (s : State) : Out := .next (s.issue (.cvt f) 0x089 f f.vec (cvtBody f))

/-! ### QNT and DQNT (R178, R179) -/

/-- Writes all 32 lanes of a VREG, whatever the guard. -/
def State.writeAll (s : State) (w : Who) (r : Nat) (g : Nat → Word) : State :=
  s.modSelf w fun t => t.writeLanes r g (List.range 32)

/-- Words of a list of elements, in element order. -/
def packWords (t : Ty) (xs : List Nat) (l : Nat) : Word :=
  t.pack ((xs.drop (l * t.perWord)).take t.perWord)

def qntBody (f : Ny) (w : Who) (s : State) : Res :=
  let xs := (List.range 32).map fun l => fp32 (s.srcLane w .f32 false f.b l)
  let e := chooseScale f.ty xs
  let qs := xs.map fun x =>
    if e = 255 then 0 else f.ty.cvt (rmOf f) (!nosat f) (x.scale (127 - (e : Int)))
  match f.a, f.c with
  | .vreg r .., .sreg c _ =>
    let s := s.writeAll w r.toNat (packWords f.ty qs)
    .ok (s.modSelf w fun t => t.setS c.toNat (BitVec.ofNat 32 e))
  | _, _ => .ok s

def execQnt (f : Ny) (s : State) : Out := .next (s.issue (.qnt f) 0x08A f false (qntBody f))

/-- DQNT of packed element `i`: NaN for scale 0xFF or a NaN element. -/
def dqntE (nbv : Nat) (t : Ty) (rm : Rm) (e : Nat) (x : Nat) : Word :=
  roundFp32 (scaled e (t.value nbv x)) rm

def dqntBody (f : Ny) (w : Who) (s : State) : Res :=
  let nbv := (s.home w).nbv.toNat
  let e := (s.scalar w f.c).toNat % 256
  let k := f.ty.perWord
  .ok (s.writeDst w f.a fun l =>
    dqntE nbv f.ty (rmOf f) e (f.ty.elem (s.srcLane w f.ty false f.b (l / k)) (l % k)))

def execDqnt (f : Ny) (s : State) : Out := .next (s.issue (.dqnt f) 0x08B f f.vec (dqntBody f))

/-! ### SCLF and FDOT (R180, R181) -/

def sclfBody (f : Ny) (w : Who) (s : State) : Res :=
  match s.src2 w f.ty f.b f.c true with
  | .error e => .error e
  | .ok (s, x, y) =>
    .ok (s.writeDst w f.a fun l =>
      f.ty.map1 (fun b => f.ty.rnd (rmOf f) ((f.ty.fval b).scale (y l).toInt)) (x l))

def execSclf (f : Ny) (s : State) : Out := .next (s.issue (.sclf f) 0x08C f f.vec (sclfBody f))

/-- A product of two elements as FDOT and the matrix unit form it (R107, R181). -/
def product (nbv : Nat) (t : Ty) (x y : Nat) : FVal :=
  if t = .l6 then l6Lin nbv (l6Mul x y) else (t.value nbv x).mul (t.value nbv y)

/-- FDOT of one lane; the sign of an exact zero follows R181. -/
def fdotWord (nbv : Nat) (t : Ty) (rm : Rm) (a b c : Word) : Word :=
  let ps := (List.range t.perWord).map fun i => product nbv t (t.elem b i) (t.elem c i)
  let xs := fp32 a :: ps
  let r := FVal.sum rm xs
  if r.isZero then
    (if xs.all fun x => x.isZero && x.sign then 0x80000000
     else if rm = .rd then 0x80000000 else 0)
  else roundFp32 r rm

def fdotBody (f : Ny) (w : Who) (s : State) : Res :=
  match s.src2 w f.ty f.b f.c false with
  | .error e => .error e
  | .ok (s, x, y) =>
    let nbv := (s.home w).nbv.toNat
    let old := s.oldDst w f.a
    .ok (s.writeDst w f.a fun l => fdotWord nbv f.ty (rmOf f) (old l) (x l) (y l))

def execFdot (f : Ny) (s : State) : Out := .next (s.issue (.fdot f) 0x08D f f.vec (fdotBody f))

/-! ### Special functions (R182, R183) -/

def sfuBody (fn : Sfu) (f : Ny) (w : Who) (s : State) : Res :=
  elem1 f (sfuElem fn (s.home w).nbv.toNat ((Fmt.of? f.ty).getD .fp32)) w s

def execRcp (f : Ny) (s : State) : Out := .next (s.issue (.rcp f) 0x100 f f.vec (sfuBody .rcp f))
def execRsq (f : Ny) (s : State) : Out := .next (s.issue (.rsq f) 0x101 f f.vec (sfuBody .rsq f))
def execSqrt (f : Ny) (s : State) : Out :=
  .next (s.issue (.sqrt f) 0x102 f f.vec (sfuBody .sqrt f))
def execExp2 (f : Ny) (s : State) : Out :=
  .next (s.issue (.exp2 f) 0x103 f f.vec (sfuBody .exp2 f))
def execLog2 (f : Ny) (s : State) : Out :=
  .next (s.issue (.log2 f) 0x104 f f.vec (sfuBody .log2 f))
def execSin (f : Ny) (s : State) : Out := .next (s.issue (.sin f) 0x105 f f.vec (sfuBody .sin f))
def execCos (f : Ny) (s : State) : Out := .next (s.issue (.cos f) 0x106 f f.vec (sfuBody .cos f))
def execTanh (f : Ny) (s : State) : Out :=
  .next (s.issue (.tanh f) 0x107 f f.vec (sfuBody .tanh f))
def execSigm (f : Ny) (s : State) : Out :=
  .next (s.issue (.sigm f) 0x108 f f.vec (sfuBody .sigm f))

/-! ### L6 (R184) -/

def l6addBody (f : Ny) (w : Who) (s : State) : Res :=
  let nbv := (s.home w).nbv.toNat
  elem2 f (fun x y => toL6 (rmOf f) (FVal.add (rmOf f) (l6Lin nbv x) (l6Lin nbv y))) w s

def execL6add (f : Ny) (s : State) : Out :=
  .next (s.issue (.l6add f) 0x109 f f.vec (l6addBody f))
def execL6mul (f : Ny) (s : State) : Out :=
  .next (s.issue (.l6mul f) 0x10A f f.vec (elem2 f l6Mul))

end Sys2Proof.Machine
end

