-- ==== Sys2Proof/Machine/Lanes.lean ====
section
/-! DEFINITION. The lane instructions of class 0x100 (R185 to R191). -/

namespace Sys2Proof.Machine

/-! ### SHUF and BCAST (R186) -/

/-- The lane SHUF reads for lane `l` under count `c`. -/
def shufLane (var l c : Nat) : Nat :=
  match var with
  | 1 => if c ≤ l then l - c else l
  | 2 => if l + c ≤ 31 then l + c else l
  | 3 => l ^^^ c
  | _ => c

def shufBody (f : Ny) (w : Who) (s : State) : Res :=
  match s.src w f.ty true f.c with
  | .error e => .error e
  | .ok (s, y) =>
    let x := s.srcLane w f.ty false f.b
    .ok (s.writeDst w f.a fun l => x (shufLane f.md.toNat l ((y l).toNat % 32)))

def execShuf (f : Ny) (s : State) : Out := .next (s.issue (.shuf f) 0x10B f f.vec (shufBody f))

def bcastBody (f : Ny) (w : Who) (s : State) : Res :=
  match s.src w f.ty true f.c with
  | .error e => .error e
  | .ok (s, y) =>
    let x := s.srcLane w f.ty false f.b ((y 0).toNat % 32)
    .ok (s.writeDst w f.a fun _ => x)

def execBcast (f : Ny) (s : State) : Out :=
  .next (s.issue (.bcast f) 0x10C f f.vec (bcastBody f))

/-! ### RED and SCAN (R187, R188) -/

/-- The operation of a reduction on elements. -/
def redOp (t : Ty) (var : Nat) (x y : Nat) : Nat :=
  match var with
  | 0 =>
    match Fmt.of? t with
    | some _ => t.rnd .rne (FVal.add .rne (t.fval x) (t.fval y))
    | none => t.wrap (t.int x + t.int y)
  | 1 => if t.isFloat then t.fminmax true x y else t.wrap (min (t.int x) (t.int y))
  | 2 => if t.isFloat then t.fminmax false x y else t.wrap (max (t.int x) (t.int y))
  | 3 => x &&& y
  | 4 => x ||| y
  | _ => x ^^^ y

/-- The identity of an operation. -/
def redId (t : Ty) (var : Nat) : Nat :=
  match var with
  | 0 =>
    match Fmt.of? t with
    | some g => g.signBit
    | none => 0
  | 1 =>
    match Fmt.of? t with
    | some g => g.infCode
    | none => t.wrap t.hi
  | 2 =>
    match Fmt.of? t with
    | some g => g.signBit + g.infCode
    | none => t.wrap t.lo
  | 3 => 2 ^ t.width - 1
  | _ => 0

def idWord (t : Ty) (var : Nat) : Word := t.pack (List.replicate t.perWord (redId t var))

/-- One step of the tree: lane l with lane l + n. -/
def redHalve (t : Ty) (var n : Nat) (xs : List Word) : List Word :=
  List.zipWith (t.map2 (redOp t var)) (xs.take n) (xs.drop n)

/-- The tree of R187 over 32 words. -/
def redTree (t : Ty) (var : Nat) (xs : List Word) : Word :=
  ([16, 8, 4, 2, 1].foldl (fun ys n => redHalve t var n ys) xs).headD 0

def redBody (f : Ny) (w : Who) (s : State) : Res :=
  match s.src w f.ty false f.b with
  | .error e => .error e
  | .ok (s, x) =>
    let v := f.md.toNat
    let xs := (List.range 32).map fun l => if w.on l then x l else idWord f.ty v
    let r := redTree f.ty v xs
    .ok (s.writeDst w f.a fun _ => r)

def execRed (f : Ny) (s : State) : Out := .next (s.issue (.red f) 0x10D f f.vec (redBody f))

/-- The running prefix: the value after each of the given lanes. -/
def scanGo (t : Ty) (var : Nat) (x : Nat → Word) : List Nat → Word → List (Nat × Word)
  | [], _ => []
  | l :: ls, r =>
    let r' := t.map2 (redOp t var) r (x l)
    (l, r') :: scanGo t var x ls r'

def scanBody (f : Ny) (w : Who) (s : State) : Res :=
  match s.src w f.ty false f.b with
  | .error e => .error e
  | .ok (s, x) =>
    let out := scanGo f.ty f.md.toNat x w.lanes (idWord f.ty f.md.toNat)
    .ok (s.writeDst w f.a fun l => ((out.find? (·.1 == l)).map (·.2)).getD 0)

def execScan (f : Ny) (s : State) : Out := .next (s.issue (.scan f) 0x10E f f.vec (scanBody f))

/-! ### VOTE (R189) -/

def voteBody (f : Ny) (w : Who) (s : State) : Res :=
  let test := s.truth w f.b
  match f.a with
  | .special p =>
    let r := if f.md = 1 then w.lanes.any test else w.lanes.all test
    .ok (s.modSelf w fun t => t.writePred p.toNat (fun _ => r) w.lanes)
  | _ =>
    let r : Word := w.lanes.foldl (fun m l => if test l then m ||| (1#32 <<< l) else m) 0
    .ok (s.writeDst w f.a fun _ => r)

def execVote (f : Ny) (s : State) : Out := .next (s.issue (.vote f) 0x10F f f.vec (voteBody f))

/-! ### CMPRS and XPND (R112, R190, R191) -/

/-- (n, g) of a variant. -/
def cmprsShape (var : Nat) : Nat × Nat :=
  match var with
  | 0 => (2, 4)
  | 1 => (4, 8)
  | _ => (1, 4)

/-- Rank key of an element: NaN above every number, else its magnitude as a comparable number.
Floating codes without their sign bit order as magnitudes do. -/
def magKey (t : Ty) (x : Nat) : Nat :=
  match t with
  | .l6 => x % 32
  | _ =>
    match Fmt.of? t with
    | some g => if (g.value x).isNan then 2 ^ 32 else x % g.signBit
    | none => (t.int x).natAbs

/-- cmprs_select: the kept indices of a group, ascending (R112). -/
def cmprsSelect (t : Ty) (n : Nat) (xs : List Nat) : List Nat :=
  let keys := xs.map (magKey t)
  let key (i : Nat) : Nat := keys.getD i 0
  (List.range xs.length).filter fun i =>
    decide (((List.range xs.length).countP fun j =>
      decide (key i < key j) || (key i == key j && decide (j < i))) < n)

/-- All elements of a register in element order. -/
def regElems (t : Ty) (x : Nat → Word) : List Nat :=
  (List.range 32).flatMap fun l => (List.range t.perWord).map (t.elem (x l))

/-- Cuts a list into groups of `g`. -/
def groupsOf (g : Nat) : Nat → List Nat → List (List Nat)
  | 0, _ => []
  | fuel + 1, xs => if xs.isEmpty then [] else xs.take g :: groupsOf g fuel (xs.drop g)

/-- Kept values of one group. -/
def keptOf (t : Ty) (n : Nat) (g : List Nat) : List Nat :=
  (cmprsSelect t n g).map fun i => g.getD i 0

/-- The mask bits of a group as a number. -/
def maskOf (t : Ty) (n : Nat) (g : List Nat) : Nat :=
  (cmprsSelect t n g).foldl (fun m i => m + 2 ^ i) 0

/-- CMPRS. DESIGN CHOICE (log 13): an L6 element that it moves keeps all 8 bits, as R190 has moved bits
unchanged, where R96 has the bits 7:6 of every L6 result zero; XPND likewise. -/
def cmprsBody (f : Ny) (w : Who) (s : State) : Res :=
  let (n, g) := cmprsShape f.md.toNat
  let gs := groupsOf g 256 (regElems f.ty (s.srcLane w f.ty false f.b))
  let vals := gs.flatMap (keptOf f.ty n)
  let mask := packElems g (gs.map (maskOf f.ty n))
  match f.a with
  | .vreg r .. =>
    let s := s.writeAll w r.toNat (packWords f.ty vals)
    .ok (s.writeAll w (r.toNat + 1) fun l => BitVec.ofNat 32 (mask / 2 ^ (32 * l)))
  | _ => .ok s

def execCmprs (f : Ny) (s : State) : Out :=
  .next (s.issue (.cmprs f) 0x110 f false (cmprsBody f))

/-- One group of XPND: the first `n` set bits of the mask receive values in turn. -/
def xpndGroup (n g mask : Nat) (vals : List Nat) : List Nat :=
  (List.range g).map fun i =>
    let before := (List.range i).countP fun j => mask / 2 ^ j % 2 == 1
    if mask / 2 ^ i % 2 = 1 ∧ before < n then vals.getD before 0 else 0

/-- XPND, with the choice that `cmprsBody` names. -/
def xpndBody (f : Ny) (w : Who) (s : State) : Res :=
  let (n, g) := cmprsShape f.md.toNat
  let xs := regElems f.ty (s.srcLane w f.ty false f.b)
  let mask := packElems 32 ((List.range 32).map fun l => (s.srcLane w f.ty false f.c l).toNat)
  let out := (List.range (32 * f.ty.perWord / g)).flatMap fun i =>
    xpndGroup n g (mask / 2 ^ (g * i)) ((xs.drop (n * i)).take n)
  match f.a with
  | .vreg r .. => .ok (s.writeAll w r.toNat (packWords f.ty out))
  | _ => .ok s

def execXpnd (f : Ny) (s : State) : Out :=
  .next (s.issue (.xpnd f) 0x111 f false (xpndBody f))

end Sys2Proof.Machine
end

