-- ==== Sys2Proof/Machine/Control.lean ====
section
/-! DEFINITION. Class 0x180: control and micro-threads (R192 to R203), and the fetch of a
micro-thread's words (R37, R118). No instruction here is lane-wise. -/

namespace Sys2Proof.Machine

/-! ### Fetch -/

/-- A word fetched through the micro-thread's translation; a failure names the first byte that
cannot be fetched (R118, R366). -/
def State.fetchWord (s : State) (c : Nat) (va : DWord) : Except (XFault × DWord) IWord :=
  match s.readVirt c .mt .fetch va 3 with
  | .ok bs => .ok (BitVec.ofNat 96 (leNat bs))
  | .error e => .error e

/-- The word at an address of a seed block. -/
def SeedBlock.word (b : SeedBlock) (va : DWord) : Option IWord :=
  if SeedBlock.has b va then b.words[((va - b.base).toNat) / 12]? else none

/-! ### Branches (R192, R194) -/

def immInt : Operand → Int
  | .imm v => v.toInt
  | _ => 0

/-- The target of a branch: its own address plus 4 × IMM (R146). -/
def branchTarget (pc : DWord) (o : Operand) : DWord := pc + BitVec.ofInt 64 (4 * immInt o)

/-- The leader's part of a taken branch: it must be allowed to leave its block. -/
def jumpCheck (t : Mt) (va : DWord) : Except Stop Unit :=
  need (t.mayJump va) (outOfRange (va.setWidth 32))

/-- All members as seen by the instruction. -/
def State.allWho (s : State) (g : Guard) : List Who :=
  let ms := s.membersOf s.curCore s.curMt
  ms.map (s.who s.curMt ms g)

/-- The leader acts: it alone decides whether a branch acts. -/
def State.leadActs (s : State) (g : Guard) : Bool :=
  ((s.mt s.curCore s.curMt).guardMask g).getLsbD 0

def execBra (f : Ny) (s : State) : Out :=
  let t := s.mt s.curCore s.curMt
  let va := branchTarget t.pc f.b
  let taken := s.leadActs f.guard && s.branchCond (s.allWho f.guard) f.md.toNat f.a
  let body (w : Who) (s : State) : Res :=
    if taken && w.core == s.curCore then (jumpCheck t va).map fun _ => s else .ok s
  .next (s.issueTo (.bra f) 0x180 f false body (fun _ => if taken then .jump va else .seq) false)

/-- BRX. DESIGN CHOICE (log 13): of an offset that is misaligned and a target outside the block, the
offset is the VAL. -/
def execBrx (f : Ny) (s : State) : Out :=
  let t := s.mt s.curCore s.curMt
  let off := match f.b with
    | .sreg r _ => t.sreg r.toNat
    | _ => 0
  let va := t.pc + off.signExtend 64
  let taken := s.leadActs f.guard && s.branchCond (s.allWho f.guard) f.md.toNat f.a
  let body (w : Who) (s : State) : Res :=
    if taken && w.core == s.curCore then
      if off.toNat % 4 = 0 then (jumpCheck t va).map fun _ => s else .error (outOfRange off)
    else .ok s
  .next (s.issueTo (.brx f) 0x181 f false body (fun _ => if taken then .jump va else .seq) false)

/-- BFETCH: the continuation of the block; no effect in fetched code (R193). -/
def execBfetch (f : Ny) (s : State) : Out :=
  let va := branchTarget (s.mt s.curCore s.curMt).pc f.a
  let body (w : Who) (s : State) : Res :=
    if w.core == s.curCore then
      .ok (s.modSelf w fun t => { t with block := t.block.map fun b => { b with cont := some va } })
    else .ok s
  .next (s.issue (.bfetch f) 0x182 f false body)

/-- LOOP: every member decrements its counter; the leader's new value decides (R194). -/
def execLoop (f : Ny) (s : State) : Out :=
  let t := s.mt s.curCore s.curMt
  let r := match f.a with
    | .sreg r _ => r.toNat
    | _ => 0
  let va := branchTarget t.pc f.b
  let taken := s.leadActs f.guard && t.sreg r - 1 != 0
  let body (w : Who) (s : State) : Res :=
    let dec := s.modSelf w fun t => t.setS r (t.sreg r - 1)
    if taken && w.core == s.curCore then (jumpCheck t va).map fun _ => dec else .ok dec
  .next (s.issueTo (.loop f) 0x183 f false body (fun _ => if taken then .jump va else .seq) false)

/-! ### REP (R116, R130, R195) -/

/-- The word that follows REP: in its block, at the block's continuation, or in memory; the
outer `none` is a REP that ends a block with no continuation. -/
def State.wordAfter (s : State) (c m : Nat) : Option (Option IWord) :=
  let t := s.mt c m
  let va := t.pc + 12
  match t.block with
  | some b =>
    match SeedBlock.word b va with
    | some w => some (some w)
    | none => b.cont.map fun x => (s.fetchWord c x).toOption
  | none => some (s.fetchWord c va).toOption

/-- An instruction that REP may not repeat (R116). -/
def notRepeatable (op : Nat) : Bool := [0x180, 0x181, 0x182, 0x183, 0x184, 0x185, 0x18D].contains op

/-- The run check and the check of the next instruction: DETAIL 5, then illegal-instruction 1.
DESIGN CHOICE (log 12): a next word that cannot be fetched or fails its own decode passes here, and
raises when it issues. -/
def repCheck (r : RepRun) (next : Option (Option IWord)) : Except Exn Unit :=
  match next with
  | none => .error (.mk' 1 1)
  | some none => .ok ()
  | some (some w) =>
    match decodeNy w with
    | .error _ => .ok ()
    | .ok i =>
      match i.ny? with
      | none => .ok ()
      | some (op, g) =>
        if !r.fits op g then .error (.mk' 3 5)
        else if notRepeatable op then .error (.mk' 1 1)
        else .ok ()

def repRun (f : Ny) : RepRun :=
  let st := (immInt f.b).toNat
  ⟨(immInt f.a).toNat, st % 4, st / 4 % 4, st / 16 % 4⟩

/-- The run begins: the leader holds REPCNT (R54, R195). -/
def repBody (r : RepRun) (lead : Nat) (w : Who) (s : State) : Res :=
  .ok (if w.core == lead then s.modSelf w fun t => { t with repcnt := r.n, rep := some r } else s)

/-- REP: its checks are steps 4 and 5 of R131, before a bound of TWAIT rejects it (R202). -/
def execRep (f : Ny) (s : State) : Out :=
  let r := repRun f
  match repCheck r (s.wordAfter s.curCore s.curMt) with
  | .error e => .next (s.raise 0x184 f s.curCore e)
  | .ok () => .next (s.issueTo (.rep f) 0x184 f false (repBody r s.curCore) (fun _ => .seq) true)

/-! ### STOP, YIELD (R196) -/

/-- STOP ends the stream, in a gang when the leader executes it (R55). -/
def execStop (f : Ny) (s : State) : Out :=
  .next (s.issueTo (.stop f) 0x185 f false (fun _ s => .ok s)
    (fun _ => if s.leadActs f.guard then .halt else .seq) false)

def execYield (f : Ny) (s : State) : Out :=
  .next (s.issue (.yield f) 0x186 f false fun w s =>
    .ok (s.modSelf w fun t => { t with age := s.youngest w.core w.mt }))

/-! ### Link channels (R56, R197) -/

def linkNo : Operand → Nat
  | .special x => x.toNat - 24
  | _ => 0

/-- The 32 lanes a source puts into a channel entry. -/
def State.linkEntry (s : State) (w : Who) (o : Operand) : Cells Word :=
  match o with
  | .vreg .. =>
    (List.range 32).foldl (fun e l => Cells.put 0 e l (s.srcLane w .b32 true o l)) []
  | _ => Cells.put 0 [] 0 (s.srcLane w .b32 true o 0)

def Core.linkQ (k : Core) (ch : Nat) : List (Cells Word) := k.links.look [] ch

/-- Micro-thread `m`, led on core `l`, waits in a LNKW to channel `ch` that could complete. -/
def State.writesLink (s : State) (ch l m : Nat) : Instr → Bool
  | .lnkw g => linkNo g.a == ch &&
      s.couldComplete l m g false fun x => decide (((s.home x).linkQ (linkNo g.a)).length < 4)
  | _ => false

/-- Micro-thread `m`, led on core `l`, waits in a LNKR of channel `ch` that could complete. -/
def State.readsLink (s : State) (ch l m : Nat) : Instr → Bool
  | .lnkr g => linkNo g.b == ch &&
      s.couldComplete l m g g.vec fun x => !((s.home x).linkQ (linkNo g.b)).isEmpty
  | _ => false

/-- LNKW: of two that could write one channel, the lower micro-thread enters first (R56). -/
def lnkwBody (f : Ny) (w : Who) (s : State) : Res :=
  let ch := linkNo f.a
  let q := (s.home w).linkQ ch
  if 4 ≤ q.length ∨ s.lowerWaits w (s.writesLink ch) = true then .error (.wait none)
  else .ok (s.modHome w fun k => { k with links := k.links.put [] ch (q ++ [s.linkEntry w f.b]) })

def execLnkw (f : Ny) (s : State) : Out := .next (s.issue (.lnkw f) 0x187 f false (lnkwBody f))

/-- LNKR: of two that could read one channel, the lower micro-thread takes the head (R56). -/
def lnkrBody (f : Ny) (w : Who) (s : State) : Res :=
  let ch := linkNo f.b
  match (s.home w).linkQ ch with
  | [] => .error (.wait none)
  | e :: rest =>
    if s.lowerWaits w (s.readsLink ch) then .error (.wait none)
    else
      let s := s.modHome w fun k => { k with links := k.links.put [] ch rest }
      match f.a with
      | .vreg r .. => .ok (s.writeAll w r.toNat fun l => Cells.look 0 e l)
      | .sreg r _ => .ok (s.modSelf w fun t => t.setS r.toNat (Cells.look 0 e 0))
      | _ => .ok s

def execLnkr (f : Ny) (s : State) : Out := .next (s.issue (.lnkr f) 0x188 f false (lnkrBody f))

/-! ### CTSIG, CTWAIT (R57, R198) -/

def execCtsig (f : Ny) (s : State) : Out :=
  .next (s.issue (.ctsig f) 0x189 f false fun w s => .ok (s.modSelf w fun t => { t with sig := true }))

def ctwaitBody (w : Who) (s : State) : Res :=
  if (s.self w).rel then
    .ok ((s.modSelf w fun t => { t with rel := false }).closeRegion w.agent)
  else .error (.wait none)

def execCtwait (f : Ny) (s : State) : Out :=
  .next (s.issue (.ctwait f) 0x18A f false fun w s => ctwaitBody w s)

/-! ### TRAP, BRKP (R199) -/

/-- The address at which execution resumes after a TRAP or BRKP. -/
def Mt.nextPc (t : Mt) : DWord :=
  match t.block with
  | some b =>
    if SeedBlock.has b (t.pc + 12) then t.pc + 12
    else
      match b.cont with
      | some x => x
      | none => t.pc + 12
  | none => t.pc + 12

/-- A software trap or breakpoint: nothing commits, and the record's PC is the next
instruction's. A guard that is off makes it a plain advance. DESIGN CHOICE (log 12): under REP the
trap leaves REPCNT and the run as R195 and R351 have it, so that after resumption the next instruction,
at which R199 resumes, runs for the repeats that are left. -/
def State.softTrap (s : State) (i : Instr) (op : Nat) (f : Ny) (code : Nat) : State :=
  let c := s.curCore
  let m := s.curMt
  let t := s.mt c m
  let ms := s.membersOf c m
  match (ms.map (s.who m ms f.guard)).find? (·.acts false), s.deadline m ms with
  | some w, none =>
    let memb : Option Nat := if 1 < ms.length then some w.core else none
    s.takeTrap c m memb t.nextPc 0 { Exn.mk' code 0 with info := BitVec.ofInt 32 (immInt f.a) }
  | _, _ => s.issue i op f false fun _ s => .ok s

def execTrap (f : Ny) (s : State) : Out := .next (s.softTrap (.trap f) 0x18B f 0x10)
def execBrkp (f : Ny) (s : State) : Out := .next (s.softTrap (.brkp f) 0x18C f 0x11)

/-! ### GANG, UNGANG (R53 to R55, R200) -/

/-- The member cores of a width, ascending (R53). -/
def gangCores (core width : Nat) : List Nat :=
  let t := tileOf core
  let cs := match width with
    | 2 => [core - core % 2, core - core % 2 + 1]
    | 4 => tileCores t
    | _ => tileCores t ++ tileCores (t ^^^ 1)
  sortNat cs

/-- Every follower is idle and belongs to the leader's launch on a present core. -/
def State.gangOk (s : State) (c m : Nat) (ms : List Nat) : Bool :=
  (s.mt c m).gang.isNone && (s.core c).launch.isSome &&
  ms.all fun x =>
    s.present x && (s.core x).launch == (s.core c).launch &&
    (x == c || ((s.mt x m).st == .idle && (s.mt x m).gang.isNone))

/-- Writes all 32 lanes of a predicate operand. -/
def State.setPred (s : State) (w : Who) (o : Operand) (v : Bool) : State :=
  match o with
  | .special p => s.modSelf w fun t => t.setP p.toNat (if v then 0xFFFFFFFF else 0)
  | _ => s

def gangBody (f : Ny) (w : Who) (s : State) : Res :=
  let ms := gangCores w.core (immInt f.b).toNat
  if s.gangOk w.core w.mt ms then
    let s := ms.foldl (fun s x =>
      s.modMt x w.mt fun t =>
        if x = w.core then { t with gang := some (.leader ms) }
        else { t with gang := some (.follower w.core), st := .running, block := none }) s
    let s := ms.foldl (fun s x => if x = w.core then s else s.wake x) s
    .ok (s.setPred w f.a true)
  else .ok (s.setPred w f.a false)

def execGang (f : Ny) (s : State) : Out := .next (s.issue (.gang f) 0x18D f false (gangBody f))

/-- UNGANG: the gang disbands when the leader executes it. DESIGN CHOICE (log 11): the leader's guard
alone decides. -/
def execUngang (f : Ny) (s : State) : Out :=
  .next (s.issue (.ungang f) 0x18E f false fun w s =>
    .ok (if w.core == s.curCore then s.disband w.core w.mt else s))

/-! ### SLEEP, TWAIT, TIME (R201 to R203) -/

/-- The issuing micro-thread has met this instruction before and waits in it. -/
def State.again (s : State) : Bool := (s.mt s.curCore s.curMt).blocked.isSome

/-- SLEEP: the first issue sets every member's deadline, and each waits for its own. -/
def sleepBody (f : Ny) (w : Who) (s : State) : Res :=
  if s.again then (if (s.self w).tdead ≤ s.now then .ok s else .error (.wait none))
  else
    let s := ((s.allWho f.guard).filter (·.acts false)).foldl (fun s x =>
      s.modSelf x fun t => { t with tdead := s.now + (s.scalar x f.a).toNat }) s
    if (s.self w).tdead ≤ s.now then .ok s else .error (.wait (some s))

def execSleep (f : Ny) (s : State) : Out := .next (s.issue (.sleep f) 0x18F f false (sleepBody f))

def twaitBody (f : Ny) (w : Who) (s : State) : Res :=
  let d := (s.scalar w f.b).toNat
  let p := match f.a with
    | .special p => p.toNat
    | _ => 0
  .ok (s.modSelf w fun t => { t with tdead := s.now + d, bound := some p })

def execTwait (f : Ny) (s : State) : Out := .next (s.issue (.twait f) 0x190 f false (twaitBody f))

def timeBody (f : Ny) (w : Who) (s : State) : Res :=
  let lo : Word := BitVec.ofNat 32 s.now
  let hi : Word := BitVec.ofNat 32 (s.now / 2 ^ 32)
  match f.a with
  | .vreg r .. =>
    .ok (s.writeAll w r.toNat fun l => match l with | 0 => lo | 1 => hi | _ => 0)
  | .sreg r _ => .ok (s.modSelf w fun t => t.setS r.toNat lo)
  | _ => .ok s

def execTime (f : Ny) (s : State) : Out := .next (s.issue (.time f) 0x191 f false (timeBody f))

end Sys2Proof.Machine
end

