-- ==== Sys2Proof/Machine/Migrate.lean ====
section
/-! DEFINITION. Migration of a core's context (R357 to R361). -/

namespace Sys2Proof.Machine

/-! ### The request (R357) -/

/-- Sets MIGSTAT. -/
def State.migStat (s : State) (d st why : Nat) : State :=
  s.modDie d fun x => { x with migst := st, migwhy := why }

/-- The launch of a core places more than one core in the core's tile: the whole tile moves. -/
def State.tileMove (s : State) (c : Nat) : Bool :=
  decide (1 < ((tileCores (tileOf c)).countP fun x => (s.core x).launch == (s.core c).launch))

/-- Source and destination cores of the request, by tile-local index for a tile move. -/
def State.migPairs (s : State) (src dst : Nat) : List (Nat × Nat) :=
  if s.tileMove src then
    ((tileCores (tileOf src)).zip (tileCores (tileOf dst))).filter fun p =>
      (s.core p.1).launch == (s.core src).launch
  else [(src, dst)]

/-- A core that a migration or its forwarding entry still uses. -/
def State.inMigration (s : State) (c : Nat) : Bool :=
  (s.forwards.any fun f => f.src == c) ||
  (List.range 4).any fun d =>
    match (s.die d).migration with
    | some m => m.pairs.any fun p => p.1 == c || p.2 == c
    | none => false

/-- A destination core is free: present, unfenced, without a launch, not part of another move. -/
def State.migFree (s : State) (c : Nat) : Bool :=
  s.present c && (s.core c).launch.isNone && !s.fenced c && !s.inMigration c

/-- A gang of width 8 joins the tile. -/
def State.gang8 (s : State) (tile : Nat) : Bool :=
  (tileCores tile).any fun c => (List.range 16).any fun m =>
    match s.gangOf c m with
    | some (_, ms) => ms.length == 8
    | none => false

/-- Freeze (R358): the agents stop between instructions and every region closes early. -/
def State.freezeCore (s : State) (c : Nat) : State :=
  (s.closeCore c).modCore c fun k => { k with frozen := true }

/-- A write of MIGREQ in die `d`. A source or destination in a fenced paddock is refused as such, whether or
not its launch still runs (R384); a destination without power is woken (R329). -/
def State.migRequest (s : State) (d : Nat) (v : DWord) : State :=
  let x := s.die d
  let src := fieldOf v 0 10
  let dst := fieldOf v 16 10
  if !v.getLsbD 63 then s
  else if x.frozen || x.migration.isSome then s.migStat d 3 4
  else if s.fenced src || s.fenced dst then s.migStat d 3 1
  else if (s.core src).launch.isNone then s.migStat d 3 3
  else if s.tileMove src && (localIdx src != 0 || localIdx dst != 0) then s.migStat d 3 5
  else
    let ps := s.migPairs src dst
    if !(ps.all fun p => s.migFree p.2) then s.migStat d 3 1
    else if s.gang8 (tileOf src) then s.migStat d 3 2
    else
      let s := ps.foldl (fun s p => (s.freezeCore p.1).wake p.2) s
      let s := s.migStat d 1 0
      s.modDie d fun x => { x with migration := some ⟨ps, false⟩ }

def execMigreqGo (d : Nat) (v : DWord) (s : State) : Out := .next (s.migRequest d v)

/-! ### Stream (R358) -/

/-- The engines of a core have drained: no started request runs, and no RGRAD that the event unit has begun.
DESIGN CHOICE (log 23): one whose producer is frozen, which takes no message now, moves on its way. -/
def State.drained (s : State) (c : Nat) : Bool :=
  let k := s.core c
  (k.copies.all fun o => !o.started) &&
  match k.evq with
  | e :: _ =>
    match e.kind with
    | .rgrad g => !g.sent || (s.core g.core).frozen
    | _ => true
  | [] => true

/-- One cause 0x30 record for each micro-thread that is not idle, ascending. A follower issues first what its
leader does (R54, R403). -/
def State.migRecords (s : State) (src dst : Nat) : State :=
  (List.range 16).foldl (fun s m =>
    let t := s.mt src m
    let lead := s.mt (s.issuerOf src m) m
    if t.st = .idle then s
    else s.lateRecord src
      { s.newRecord src 0 m 0x30 0 false with
        pc := lead.pc, repcnt := lead.repcnt, rkcnt := t.rkcnt, info := BitVec.ofNat 32 dst }) s

/-- The stream begins once the engines have drained; before that the step changes nothing. -/
def execMigrationStream (d : Nat) (s : State) : Out :=
  match (s.die d).migration with
  | some m =>
    if m.streamed || !(m.pairs.all fun p => s.drained p.1) then .next s
    else
      let s := m.pairs.foldl (fun s p => s.migRecords p.1 p.2) s
      .next (s.modDie d fun x => { x with migration := some { m with streamed := true } })
  | none => .next s

/-! ### Switch (R358 to R360) -/

/-- Where a core's context now runs. -/
def moved (ps : List (Nat × Nat)) (c : Nat) : Nat :=
  ((ps.find? (·.1 == c)).map (·.2)).getD c

/-- Where what was in a source's tile now is. -/
def movedTile (ps : List (Nat × Nat)) (t : Nat) : Nat :=
  ((ps.find? fun p => tileOf p.1 == t).map fun p => tileOf p.2).getD t

def movedKey (ps : List (Nat × Nat)) (k : BarKey) : BarKey :=
  match k.scope with
  | 0 => { k with unit := moved ps k.unit }
  | 1 => { k with unit := movedTile ps k.unit }
  | _ => k

def movedGang (ps : List (Nat × Nat)) : GangRole → GangRole
  | .leader ms => .leader (ms.map (moved ps))
  | .follower l => .follower (moved ps l)

def movedMt (ps : List (Nat × Nat)) (t : Mt) : Mt :=
  { t with
    arrived := t.arrived.map fun a => (movedKey ps a.1, a.2)
    bph := t.bph.map fun e => (e.1, (movedKey ps e.2.1, e.2.2))
    stepping := t.stepping.map fun q => (moved ps q.1, q.2)
    gang := t.gang.map (movedGang ps) }

/-- Endpoints of the moved cores and their slices become the destinations'. -/
def movedEp (ps : List (Nat × Nat)) (ep : Nat) : Nat :=
  if ep < 1024 then moved ps ep else if ep < 2048 then epSlice (moved ps (ep - 1024)) else ep

/-- The agent of a moved core. -/
def movedAgent (ps : List (Nat × Nat)) (a : Word) : Word :=
  let c := a.toNat % 1024
  BitVec.ofNat 32 (a.toNat - c + moved ps c)

/-- A message names its sender by where that runs now. -/
def movedSender (ps : List (Nat × Nat)) : Payload → Payload
  | .event c x m w => .event c (moved ps x) m w
  | .rank c x m es fin => .rank c (moved ps x) m es fin
  | .marker c ep cls => .marker (moved ps c) ep cls
  | pl => pl

/-- Queued operations of the launch reach the moved cores where they run now (R360, R361). -/
def movedEv (ps : List (Nat × Nat)) (e : EvOp) : EvOp :=
  { e with kind := match e.kind with
      | .nfire solo ts acc => .nfire solo (ts.map (movedEp ps)) acc
      | .send solo ts ws => .send solo (ts.map (movedEp ps)) ws
      | .rsend t es => .rsend (movedEp ps t) es
      | .rgrad g => .rgrad { g with ep := movedEp ps g.ep, core := moved ps g.core }
      | k => k }

def movedCopy (ps : List (Nat × Nat)) (o : CopyOp) : CopyOp := { o with targets := o.targets.map (movedEp ps) }

/-- What stays at a site when its context leaves: the power state, and an array that ramps down (R328). -/
def Core.leftSite (k : Core) : Core :=
  { Core.init with
    duty := k.duty, forced := k.forced, tallow := k.tallow, gate := k.gate
    mx := { Core.init.mx with ramp := k.mx.ramp, down := k.mx.ramp != 0 } }

/-- The context as it arrives at the destination of source `c`: L1D, TLB and operand cache empty, SPGEN
stepped (R359); the destination keeps its own power state, and its own array's ramp, which has granted
nothing yet (R326, R328). -/
def arrivedCore (ps : List (Nat × Nat)) (c : Nat) (k own : Core) : Core :=
  { k with
    origin := some (k.origin.getD c)
    ownStores := k.ownStores.map fun x => { x with agent := movedAgent ps x.agent }
    mts := k.mts.map fun e => (e.1, movedMt ps e.2)
    mx := { k.mx with
      cache := [], spgen := k.mx.spgen + 1, granted := false, ramp := own.mx.ramp, down := own.mx.down }
    frozen := false, duty := own.duty, forced := own.forced, tallow := own.tallow, gate := own.gate }

def movedSite (ps : List (Nat × Nat)) : ErrorSite → ErrorSite
  | .scratchWord c o => .scratchWord (moved ps c) o
  | .laneWord c l o => .laneWord (moved ps c) l o
  | .mailboxLine c w => .mailboxLine (moved ps c) w
  | .bankWord c b e => .bankWord (moved ps c) b e
  | e => e

/-- A BINDTAB entry after the switch: one that names a source core, or its tile, names the
destination's (R360). -/
def movedBind (ps : List (Nat × Nat)) (e : Word) : Word :=
  let level := e.toNat / 2 ^ 28 % 8
  let unit := e.toNat % 1024
  let u : Nat :=
    if level < 2 then moved ps unit
    else if level = 2 ∧ unit < 256 then movedTile ps unit
    else unit
  if e.getLsbD 31 && e.toNat / 2 ^ 10 % 512 == Config.pkgNum then
    (e &&& ~~~0x3FF#32) ||| BitVec.ofNat 32 u
  else e

def movedProducer (ps : List (Nat × Nat)) (p : Producer) : Producer := { p with core := moved ps p.core }

/-- What changes in every other core of the launch. -/
def launchCoreMoved (ps : List (Nat × Nat)) (k : Core) : Core :=
  { k with
    bindtab := k.bindtab.map fun e => (e.1, movedBind ps e.2)
    arrivals := k.arrivals.map (movedSender ps)
    evq := k.evq.map (movedEv ps)
    copies := k.copies.map (movedCopy ps), fifo := k.fifo.map (movedCopy ps)
    tq := { k.tq with prods := k.tq.prods.map (movedProducer ps) }
    wr := { k.wr with prods := k.wr.prods.map (movedProducer ps) }
    pair := k.pair.map fun q => { q with other := moved ps q.other } }

/-- Child launches stay with the control thread that submitted them. -/
def movedDie (ps : List (Nat × Nat)) (x : Die) : Die :=
  let mv (q : Child) : Child := { q with core := moved ps q.core }
  { x with
    childQ := x.childQ.map fun q => (mv q.1, q.2)
    nodes := x.nodes.map fun e => (e.1, { e.2 with child := e.2.child.map mv }) }

/-- Moves one core's context, its cycle counter's reading with it (R359), and frees its site. A destination
without power is woken (R329). -/
def State.switchCore (s : State) (ps : List (Nat × Nat)) (p : Nat × Nat) : State :=
  let k := s.core p.1
  let own := s.core p.2
  let ct := k.ct.withCycle (s.coreCycles p.2) (s.mcycleOf p.1)
  let s := s.setCore p.2 { arrivedCore ps p.1 k own with ct := ct }
  let s := s.setCore p.1 k.leftSite
  (((s.dropAsk p.1).dropCached p.1).dropCached p.2).wake p.2

/-- What the cores of the tiles have outstanding on scratchpads is performed before these move, and
nothing read early there is kept. -/
def State.settleTiles (s : State) (ps : List (Nat × Nat)) : State :=
  let cs := ps.flatMap fun p => tileCores (tileOf p.1) ++ tileCores (tileOf p.2)
  cs.foldl (fun s c => (s.landAll c fun _ => true).dropEarly c fun _ => true) s

/-- Messages of the context that are on their way, and the entries that wait for its markers, name a moved
sender by where it runs now. -/
def State.renameSenders (s : State) (ps : List (Nat × Nat)) (ctx : BitVec 12) : State :=
  let mv (p : Packet) : Packet := if p.ctx == ctx then { p with payload := movedSender ps p.payload } else p
  let mark (q : Nat × Nat × Nat) : Nat × Nat × Nat := (moved ps q.1, q.2)
  { s with
    wire := s.wire.map mv
    flows := s.flows.map fun f =>
      { f with
        window := f.window.map mv
        copies := f.copies.map fun c =>
          if c.pkt.ctx == ctx then { c with pkt := mv c.pkt, who := c.who.map (movedAgent ps) } else c }
    pairs := s.pairs.map fun h => { h with pkt := mv h.pkt }
    forwards := s.forwards.map fun f =>
      if f.ctx == ctx then { f with owed := f.owed.map mark, awaiting := f.awaiting.map mark } else f }

/-- The flows of the launch's cores, of the moved ones from their old endpoints, to a source's
endpoints: each owes a marker (R360). -/
def State.markerFlows (s : State) (ps : List (Nat × Nat)) (members : List Nat) (src : Nat) :
    List (Nat × Nat × Nat) :=
  ((s.flows.filter fun f =>
    members.contains (moved ps f.src) && (f.dst == src || f.dst == epSlice src)).map
    fun f => (moved ps f.src, f.dst, f.cls)).dedup

/-- Sends the owed markers of flows whose every message has been acknowledged. -/
def State.sendMarkers (s : State) (f : Forward) : State :=
  let done (q : Nat × Nat × Nat) : Bool :=
    let g := s.flow q.1 q.2.1 q.2.2
    g.copies == [] && !s.blocked g
  let go := f.owed.filter done
  let s := { s with forwards := s.forwards.map fun g =>
    if g.src == f.src then { g with owed := g.owed.filter fun q => !done q } else g }
  go.foldl (fun s q => s.send q.1 q.2.1 q.2.2 0 0 (.marker q.1 q.2.1 q.2.2)) s

/-- The destination sends to where its context has messages on the way only after these (R71). -/
def State.flowsMoved (s : State) (p : Nat × Nat) : State :=
  (s.flows.filter fun f => f.src == p.1 && f.copies != []).foldl
    (fun s f => s.setFlow { s.flow p.2 f.dst f.cls with before := some p.1 }) s

/-- The core whose memories or queues a payload names. -/
def Payload.core? : Payload → Option Nat
  | .signal c .. | .atred c .. | .event c .. | .rank c .. => some c
  | .nibble 2 c .. => some c
  | .store 3 a _ | .merge 3 a _ => some (a / 0x80000)
  | _ => none

/-- A message stands in a flow to an entry's old endpoints, for what the entry moves, or as a marker. -/
def Forward.meets (f : Forward) (g : Flow) : Bool :=
  (g.dst == f.src || g.dst == epSlice f.src) &&
    g.copies.any fun c => c.pkt.ctx == f.ctx && (c.pkt.payload.core? == some f.src ||
      (match c.pkt.payload with | .marker .. => true | _ => false))

/-- An entry's drain count is not zero: markers that have not all come through, messages not yet
acknowledged, or an earlier entry of the context that leads to this one (R360). -/
def State.draining (s : State) (f : Forward) : Bool :=
  f.owed != [] || f.awaiting != [] ||
  (s.forwards.any fun g => g.dst == f.src && g.ctx == f.ctx) ||
  s.flows.any fun g => g.copies != [] && ((g.src == epSlice f.src && g.dst == epSlice f.dst) || f.meets g)

/-- The forwarding entries that nothing uses any longer are removed, an earlier one before one that it
leads to (R360). -/
def State.sweepForwards (s : State) : State :=
  (List.range s.forwards.length).foldl (fun s _ =>
    if s.forwards.all s.draining then s
    else { s with forwards := s.forwards.filter s.draining }.tilesFreed) s

def execMigrationSwitch (d : Nat) (s : State) : Out :=
  match (s.die d).migration with
  | some m =>
    if !m.streamed then .next s
    else
      let ps := m.pairs
      let node := ps.head?.bind fun p => (s.core p.1).launch
      let ctx := ((ps.head?.map fun p => (s.core p.1).ctx).getD 0)
      let s := ps.foldl (fun s p => s.switchCore ps p) (s.settleTiles ps)
      let s := { s with
        poison := s.poison.map (movedSite ps)
        qhomes := s.qhomes.map fun q =>
          if q.2.spc = 1 then (q.1, { q.2 with unit := moved ps q.2.unit })
          else if q.2.spc = 2 then (q.1, { q.2 with unit := movedTile ps q.2.unit })
          else q
        barriers := s.barriers.map fun b => { b with key := movedKey ps b.key }
        barPending := s.barPending.map fun a => { a with key := movedKey ps a.key }
        dies := s.dies.map fun e => (e.1, movedDie ps e.2) }
      let s : State := match node with
        | some n => s.modNode n fun x =>
          { x with cores := x.cores.map (moved ps), twins := x.twins.map (moved ps) }
        | none => s
      let members := match node.bind s.node? with
        | some x => x.cores ++ x.twins
        | none => []
      let s := members.foldl (fun s c => s.modCore c (launchCoreMoved ps)) (s.renameSenders ps ctx)
      let s := ps.foldl (fun s p => s.flowsMoved p) s
      let s := { s with
        forwards := s.forwards ++ ps.map fun (p : Nat × Nat) =>
          (⟨p.1, p.2, ctx, s.markerFlows ps members p.1, s.markerFlows ps members p.1⟩ : Forward) }
      let s := (s.forwards.foldl (fun s f => s.sendMarkers f) s).sweepForwards
      let s := s.migStat d 2 0
      .next (s.modDie d fun x => { x with migration := none })
  | none => .next s

end Sys2Proof.Machine
end

