-- ==== Sys2Proof/Machine/Device.lean ====
section
/-! DEFINITION. Device registers by physical address (R311, R354, R357, R382, R383, R388, R389,
R395, R411): reads by byte, writes with their effects. -/

namespace Sys2Proof.Machine

def devBase : Nat := 0x4000000000
/-- The interrupt controller's page. -/
def icBase : Nat := 0x4000080000

/-! ### Rings (R354, R355) -/

/-- Writes the records a ring keeps while it has room. -/
def State.ringDrain (s : State) (r : Nat) : Nat → State
  | 0 => s
  | n + 1 =>
    let g := s.ring r
    match g.held with
    | bs :: rest =>
      if g.room then
        State.ringDrain ((s.modRing r fun g => { g with held := rest }).ringWrite r (withPhase bs)) r n
      else s
    | [] => s

def State.setRingHead (s : State) (r : Nat) (v : Word) : State :=
  (s.modRing r fun g => { g with head := v }).ringDrain r 64

def State.setRingBase (s : State) (r : Nat) (v : DWord) : State :=
  (s.modRing r fun g =>
    { g with base := v.extractLsb' 6 50, log2n := fieldOf v 1 5, en := v.getLsbD 0 }).ringDrain r 64

def Ring.baseReg (g : Ring) : Nat :=
  g.base.toNat * 64 + g.log2n * 2 + (if g.en then 1 else 0)


/-- The ring whose registers lie at an offset of the controller's page. -/
def ringAt (off : Nat) : Option (Nat × Nat) :=
  if off < 0x200 then some (off / 0x20, off % 0x20)
  else if 0x20000 ≤ off ∧ off < 0x20020 then some (mgmtRing, off - 0x20000)
  else none

def execTrrheadWrite (r : Nat) (v : Word) (s : State) : Out := .next (s.setRingHead r v)
def execTrrbaseWrite (r : Nat) (v : DWord) (s : State) : Out := .next (s.setRingBase r v)

/-! ### Reads -/

/-- The 8 bytes of a die's register page from an 8-byte aligned offset, where it is laid out. -/
def Die.page (s : State) (d off : Nat) : Option Nat :=
  let x := s.die d
  match off with
  | 0x00 => some x.lqTail.toNat
  | 0x08 => some 0
  | 0x10 => some (x.migwhy * 16 + x.migst)
  | 0x18 => some (x.rcnt * 2 ^ 24 + (if x.failed then 2 else 0) + (if x.frozen then 1 else 0))
  | 0x20 => some (x.escCnt * 2 ^ 48 + x.rsndCnt * 2 ^ 32 + x.grpRej * 2 ^ 16 + x.lossK)
  | 0x28 => some (if s.bootStep = 4 then Config.pkgNum else 0)
  | _ =>
    if 0x100 ≤ off ∧ off < 0x180 then some (x.paddock ((off - 0x100) / 8)).read.toNat
    else if 0x200 ≤ off ∧ off < 0x220 then some (s.uvctl d ((off - 0x200) / 8)).read.toNat
    else if 0x400 ≤ off ∧ off < 0x600 then
      let i := (off - 0x400) / 2
      some (x.cec.look 0 i + x.cec.look 0 (i + 1) * 2 ^ 16 + x.cec.look 0 (i + 2) * 2 ^ 32 +
        x.cec.look 0 (i + 3) * 2 ^ 48)
    else none

/-- The 8 bytes of a ring's registers from an aligned offset. -/
def Ring.page (g : Ring) (off : Nat) : Nat :=
  match off with
  | 0 => g.baseReg
  | 8 => g.head.toNat + g.tail.toNat * 2 ^ 32
  | 16 => if g.ien then 1 else 0
  | _ => 0

/-- The steering entry of a context (R354). -/
def steerWord (e : Bool × Nat) : Nat := (if e.1 then 2 ^ 31 else 0) + e.2

/-- The 8 bytes at an aligned device address, where the spec lays them out. -/
def State.devPage (s : State) (pa : Nat) : Option Nat :=
  if pa < devBase + 0x40000 then Die.page s ((pa - devBase) / 0x10000) (pa % 0x10000)
  else if icBase ≤ pa then
    let off := pa - icBase
    match ringAt off with
    | some (r, o) => some ((s.ring r).page o)
    | none =>
      if 0x10000 ≤ off ∧ off < 0x14000 then
        let c := (off - 0x10000) / 4
        some (steerWord (s.steer.look (false, 0) c) + steerWord (s.steer.look (false, 0) (c + 1)) * 2 ^ 32)
      else none
  else none

/-- A device read of 4 or 8 bytes: the register where the spec lays it out, else a free value
(log 3). -/
def State.devRead (s : State) (pa n : Nat) : DWord :=
  match s.devPage (pa / 8 * 8) with
  | some v => BitVec.ofNat 64 (v / 2 ^ (8 * (pa % 8)) % 2 ^ (8 * n))
  | none => BitVec.ofNat 64 ((Config.deviceRead s.free).toNat % 2 ^ (8 * n))

/-! ### Writes -/

/-- A value written into `n` bytes at byte `b` of an 8-byte register that reads as `old`. -/
def mergeReg (old : Nat) (b n : Nat) (v : DWord) : DWord :=
  setField (BitVec.ofNat 64 old) (8 * b) (8 * n) v.toNat

/-- A write of a die's register page. -/
def State.pageWrite (s : State) (d off n : Nat) (v : DWord) : State :=
  let b := off % 8
  match off / 8 * 8 with
  | 0x00 =>
    if (s.die d).failed ∨ b ≠ 0 then s
    else s.modDie d fun x => { x with lqTail := v.setWidth 16 }
  | 0x08 => s.migRequest d (mergeReg 0 b n v)
  | o =>
    if 0x100 ≤ o ∧ o < 0x180 then
      let p := (o - 0x100) / 8
      s.pdkWrite d p (mergeReg (((s.die d).paddock p).read.toNat) b n v)
    else if 0x200 ≤ o ∧ o < 0x220 ∧ b = 0 then
      s.modUv d ((o - 0x200) / 8) fun u => u.withMax (v.extractLsb' 8 3) s.now
    else s

/-- A write of a ring's registers. -/
def State.ringRegWrite (s : State) (r off n : Nat) (v : DWord) : State :=
  match off / 8 * 8 with
  | 0 => s.setRingBase r (mergeReg (s.ring r).baseReg (off % 8) n v)
  | 8 => if off % 8 = 0 then s.setRingHead r (v.setWidth 32) else s
  | 16 => if off % 8 = 0 then s.modRing r fun g => { g with ien := v.getLsbD 0 } else s
  | _ => s

/-- One 4-byte steering entry. -/
def State.steerWrite (s : State) (c : Nat) (v : Word) : State :=
  { s with steer := s.steer.put (false, 0) c (v.getLsbD 31, v.toNat % 16) }

/-- A device write of 4 or 8 bytes. An address that the spec lays out no register at, or a
read-only one, keeps its state. -/
def State.devWrite (s : State) (pa n : Nat) (v : DWord) : State :=
  if pa < devBase + 0x40000 then s.pageWrite ((pa - devBase) / 0x10000) (pa % 0x10000) n v
  else if icBase ≤ pa then
    let off := pa - icBase
    match ringAt off with
    | some (r, o) => s.ringRegWrite r o n v
    | none =>
      if 0x10000 ≤ off ∧ off < 0x14000 then
        let c := (off - 0x10000) / 4
        let s := s.steerWrite c (v.setWidth 32)
        if n = 8 then s.steerWrite (c + 1) ((v >>> 32).setWidth 32) else s
      else s
  else s

end Sys2Proof.Machine
end

