-- ==== Sys2Proof/Machine/LdSt.lean ====
section
/-! DEFINITION. Class 0x200: addresses (R204, R205), loads and stores (R206), sub-byte stores
(R89, R207), cache hints (R208), full bits (R209, R210), and the memory-model exception of an
access (R374, R375). -/

namespace Sys2Proof.Machine

/-! ### Addresses -/

/-- One lane's access: the address as the instruction forms it and the place it reaches. -/
structure Access where
  lane : Nat
  va : DWord
  loc : Loc

/-- Bytes of a space that has offsets (R63). -/
def spaceSize (spc : Nat) : Int :=
  match spc with
  | 1 => 0x80000
  | 2 => 0x200000
  | _ => 0x2000000

/-- The place of an offset in a space with offsets (R64 to R67). -/
def State.offsetLoc (s : State) (core lane spc off : Nat) : Loc :=
  match spc with
  | 0 => .lane core lane (off % 2048)
  | 1 => .scratch core off
  | 2 => .scratch (s.tileMate core (off / 0x80000)) (off % 0x80000)
  | _ => .gran (coreDie (s.originOf core)) off

/-- An offset lies in its space, and not in the reserved top of the granary (R67, R204). -/
def offsetOk (spc : Nat) (a : Int) : Bool :=
  if spc = 0 then true
  else if spc = 3 then decide (0 ≤ a ∧ a < 0x1F80000)
  else decide (0 ≤ a ∧ a < spaceSize spc)

/-- The address of a lane as 64 bits: a sign-extended 48-bit address, or an offset. -/
def laneVa (spc : Nat) (a : Int) : DWord :=
  if 4 ≤ spc then signVa (BitVec.ofInt 64 a)
  else if spc = 0 then BitVec.ofInt 64 (a % 2048)
  else BitVec.ofInt 64 a

/-- The page fault of a translation that fails, or the access fault, with its DETAIL (R346). -/
def xStop (e : XFault) (a : Acc) (va : DWord) (lane : Nat) : Stop :=
  exnAddr (match e with | .page => 6 | .access => 7) a.detail va lane

/-- The place of a virtual address; device ranges answer .glnc accesses only (R310). -/
def State.virtLoc (s : State) (core spc : Nat) (a : Acc) (va : DWord) (lane : Nat) :
    Except Stop Loc :=
  match s.xloc core .mt a va with
  | .error e => .error (xStop e a va lane)
  | .ok (.device p) =>
    if spc = 5 ∧ p % 4 = 0 then .ok (.device p) else .error (xStop .access a va lane)
  | .ok (.pcie p) =>
    if spc = 5 ∧ p % 4 = 0 then .ok (.pcie p) else .error (xStop .access a va lane)
  | .ok l => .ok l

/-- Places of word accesses, in lane order. -/
def State.places (s : State) (core spc : Nat) (a : Acc) : List (Nat × Int) →
    Except Stop (List Access)
  | [] => .ok []
  | (l, x) :: rest =>
    let va := laneVa spc x
    let here : Except Stop Loc :=
      if 4 ≤ spc then s.virtLoc core spc a va l
      else if offsetOk spc x then .ok (s.offsetLoc core l spc va.toNat)
      else .error (exnAddr 5 0 va l)
    match here with
    | .error e => .error e
    | .ok p =>
      match State.places s core spc a rest with
      | .error e => .error e
      | .ok ps => .ok (⟨l, va, p⟩ :: ps)

/-- The checks of R204 over raw lane addresses: pairs, alignment, range or translation. Each
entry is a lane, its pair where it has one, and its address. -/
def State.checkAddrs (s : State) (core spc : Nat) (a : Acc) (raws : List (Nat × Option DWord × Int)) :
    Except Stop (List Access) :=
  match raws.find? fun r => match r.2.1 with | some p => !canonical p | none => false with
  | some r => .error (exnAddr 6 a.detail (laneVa spc r.2.2) r.1)
  | none =>
    match raws.find? fun r => r.2.2 % 4 != 0 with
    | some r => .error (exnAddr 4 0 (laneVa spc r.2.2) r.1)
    | none => s.places core spc a (raws.map fun r => (r.1, r.2.2))

/-! ### Handles (R115, R211 to R214) -/

def Mt.handle (t : Mt) (h : Nat) : Option Handle := t.h.get? h
def QHome.filled (q : QHome) : Nat := (q.prod - q.cons).toNat
def QHome.free (q : QHome) : Nat := q.nslot - q.filled

/-- The slot's first byte at the live pointer of the handle's role. -/
def Handle.slotBase (h : Handle) (q : QHome) : Nat :=
  h.base + ((if h.prod then q.prod else q.cons).toNat % h.nslot) * h.slot

/-- The handle of a HANDLE operand, bound and of the instruction's space (R214). -/
def State.useHandle (s : State) (w : Who) (h spc : Nat) : Except Stop (Handle × QHome) :=
  match (s.self w).handle h with
  | none => .error (exnVal 9 1 (BitVec.ofNat 32 h))
  | some x =>
    if x.spc ≠ spc then .error (exnVal 9 6 (BitVec.ofNat 32 h))
    else
      match s.qhome x.key with
      | none => .error (exnVal 9 1 (BitVec.ofNat 32 h))
      | some q => .ok (x, q)

/-- The wait of a HANDLE operand holds (R115): filled slots for a consumer, free ones for a
producer. -/
def Handle.ready (h : Handle) (q : QHome) (wait : Nat) : Bool :=
  decide (wait ≤ if h.prod then q.free else q.filled)

/-- Whether the operand still waits, and the acquire of a wait that passes (R214). -/
def State.handleWait (s : State) (w : Who) (o : Operand) (spc : Nat) : Except Stop State :=
  match o with
  | .handle h n _ =>
    if n = 0 then .ok s
    else
      match s.useHandle w h.toNat spc with
      | .error e => .error e
      | .ok (x, q) =>
        if x.ready q n.toNat then .ok (s.closeRegion w.agent) else .error (.wait none)
  | _ => .ok s

/-! ### Raw lane addresses -/

/-- Lanes of an instruction: the enabled ones in vector form, lane 0 in scalar form. -/
def accLanes (vec : Bool) (w : Who) : List Nat := if vec then w.lanes else [0]

def State.basePair (s : State) (w : Who) : Operand → DWord
  | .sreg r _ => (s.self w).pair r.toNat
  | _ => 0

/-- The slot offset of a HANDLE operand stays within the slot, a check that follows those of R204
(R365, R370). DESIGN CHOICE (log 13): the last byte of each enabled lane's access counts. -/
def State.slotCheck (s : State) (w : Who) (f : Ny) (base : Operand) (ls : List Nat) : Except Stop Unit :=
  match base with
  | .handle h _ o =>
    match s.useHandle w h.toNat f.spc with
    | .error e => .error e
    | .ok (x, _) =>
      need (ls.all fun l => decide (o.toNat * 32 + 4 * l + 4 ≤ x.slot)) (outOfRange (o.setWidth 32))
  | _ => .ok ()

/-- B + C of LD, ST and PREF, with 4 bytes a lane outside .lane; a HANDLE addresses its slot
(R115, R204). DESIGN CHOICE (log 13): an IMM as base B is read as R204 reads B, as z32. -/
def State.ldAddrs (s : State) (w : Who) (f : Ny) (base off : Operand) (ls : List Nat) :
    Except Stop (List (Nat × Option DWord × Int)) :=
  match base with
  | .handle h _ o =>
    match s.useHandle w h.toNat f.spc with
    | .error e => .error e
    | .ok (x, q) =>
      .ok (ls.map fun l => (l, none, ((x.slotBase q + o.toNat * 32 + 4 * l : Nat) : Int)))
  | _ =>
    let c : Int := if off = Operand.zero then 0 else (s.scalar w off).toInt
    let step : Int := if f.spc = 0 then 0 else 4
    if f.virt then
      let p := s.basePair w base
      .ok (ls.map fun l => (l, some p, (p.toNat : Int) + c + step * l))
    else
      let b : Int := (s.scalar w base).toNat
      .ok (ls.map fun l => (l, none, b + c + step * l))

/-- C + B.lane[l] of LDX and STX. -/
def State.ldxAddrs (s : State) (w : Who) (f : Ny) (ls : List Nat) :
    List (Nat × Option DWord × Int) :=
  let off (l : Nat) : Int := (s.srcLane w f.ty false f.b l).toInt
  if f.virt then
    let p := s.basePair w f.c
    ls.map fun l => (l, some p, (p.toNat : Int) + off l)
  else
    let b : Int := (s.scalar w f.c).toNat
    ls.map fun l => (l, none, b + off l)

/-! ### Region checks (R374, R375) -/

/-- OWM or ORM: bit g for a non-zero granule of 16 bytes. -/
def granules (m : BitVec 64) : Nat :=
  (List.range 4).foldl (fun a g => if m.extractLsb' (16 * g) 16 = 0 then a else a + 2 ^ g) 0

/-- The memory-model exception of an access (R375). -/
def conflictExn (s : State) (agent : Word) (spc : Nat) (va : DWord) (bytes : BitVec 64)
    (q : Conflict) : Exn :=
  let detail : Nat :=
    if q.special then 3
    else if !q.write then 0
    else if q.other.wmask &&& bytes = 0 then 1 else 2
  let w : Bool := q.write || q.special
  let aux := spc * 2 ^ 121 + (if w then 2 ^ 120 else 0) + granules q.other.wmask * 2 ^ 116 +
    granules q.other.rmask * 2 ^ 112 + (s.regionNo agent).toNat * 2 ^ 96 +
    q.other.rsn.toNat * 2 ^ 80 + q.other.agent.toNat * 2 ^ 48 + va.toNat % 2 ^ 48
  { Exn.mk' 15 detail with aux := some (BitVec.ofNat 128 aux) }

def Loc.bytesMask (l : Loc) (n : Nat) : BitVec 64 :=
  match l.line with
  | some (_, b) => lineMask b n
  | none => 0

/-- Registers the accesses of a member lane by lane, or raises the memory-model exception. -/
def State.registerAll (s : State) (w : Who) (spc n : Nat) (write special : Bool) :
    List Access → Except Stop State
  | [] => .ok s
  | a :: rest =>
    match s.regionAccess w.agent (s.regionNo w.agent) false a.loc n write special with
    | .error (some q) => .error (.trap (conflictExn s w.agent spc a.va (a.loc.bytesMask n) q))
    | .error none => .error (.stall none)
    | .ok s => State.registerAll s w spc n write special rest

/-- The first poisoned place among the accesses (R385). -/
def State.poisonOf (s : State) (as : List Access) : Except Stop Unit :=
  match as.find? fun a => s.poisoned a.loc with
  | some a =>
    match a.loc.site with
    | some e => .error (.poison e)
    | none => .ok ()
  | none => .ok ()

/-! ### Words at places -/

/-- A word read at a place, devices included. -/
def State.loadWord (s : State) (l : Loc) : Word :=
  match l with
  | .device pa => (s.devRead pa 4).setWidth 32
  | .pcie _ => (Config.deviceRead s.free).setWidth 32
  | l => s.readW l

/-- A word written at a place, devices included. -/
def State.storeWord (s : State) (l : Loc) (v : Word) : State :=
  match l with
  | .device pa => s.devWrite pa 4 (v.setWidth 64)
  | .pcie _ => s
  | l => s.writeW l v

/-! ### Channels and home slices -/

/-- The accesses of the instruction being issued pass their channels, or wait there; a gang waits as its
leader. -/
def State.passChannels (s : State) (as : List Access) : Except Stop State :=
  let ls := as.map (·.loc)
  if s.mustQueue s.leader ls then .error (.channel ls) else .ok (s.leaveAll s.leader)

/-- Kind and address of a slice-homed place, and the endpoint of its home slice. -/
def Loc.homed : Loc → Option (Nat × Nat × Nat)
  | .dram k => some (0, k, epSlice (k / chanBytes))
  | .gran d o => some (1, d * 0x2000000 + o, epSlice (d * 256 + o / 256 % 256))
  | .remote pa => some (2, pa, epRemote (pa / 2 ^ 38 % 512) 1024)
  | _ => none

/-- The core beside the memory of a place: the owner of a scratchpad, or the core of a home slice. -/
def Loc.beside : Loc → Option Nat
  | .scratch c _ | .lane c _ _ | .mbox c _ => some c
  | .dram k => some (k / chanBytes)
  | .gran d o => some (d * 256 + o / 256 % 256)
  | _ => none

/-- A fence stands between a core and a place: the place answers REJECT, or what leaves the core is
discarded (R384). -/
def State.fencedPlace (s : State) (core : Nat) (l : Loc) : Bool :=
  match l.beside with
  | some c =>
    (s.fenced c || s.fenced core) &&
      !(coreDie c == coreDie core && s.paddockOf c == s.paddockOf core)
  | none => l.homed.isSome && s.fenced core

/-- A store of an agent of a core to memory: at once, with no effect behind a fence, or for a paired
core as a paired message to the
home slice (R378). -/
def State.storeBytes (s : State) (agent : Word) (rsn : BitVec 16) (core : Nat) (l : Loc)
    (bs : List Byte) : State :=
  match (s.core core).pair, l.homed with
  | some _, some (kd, a, ep) => s.sendFor agent rsn core ep 0 0 (.store kd a bs)
  | _, _ => if s.fencedPlace core l then s else s.writeBy core l bs

/-- The endpoint that a device address belongs to (R306, R311). -/
def deviceEp (pa : Nat) : Nat := if pa < devBase + 0x40000 then epCp ((pa - devBase) / 0x10000) else epHost

/-- A device write of an agent: of a pair it is a paired message (R378). -/
def State.storeDevice (s : State) (agent : Word) (core pa n : Nat) (v : DWord) : State :=
  if (s.core core).pair.isSome then
    s.sendFor agent (s.regionNo agent) core (deviceEp pa) 0 0 (.device pa n v)
  else s.devWrite pa n v

/-- The place is LQDB's, whose write is a release (R311). -/
def Loc.isLqdb : Loc → Bool
  | .device pa => decide (devBase ≤ pa ∧ pa < devBase + 0x40000) && pa % 0x10000 / 4 == 0
  | _ => false

/-- Kind, address and endpoint of a place outside the scratchpads, where a paired core's accesses go as
messages (R378). -/
def Loc.station (l : Loc) : Option (Nat × Nat × Nat) :=
  match l with
  | .device pa => some (5, pa, deviceEp pa)
  | .pcie pa => some (6, pa, epHost)
  | l => l.homed

/-- A word stored by a micro-thread in a space, devices included: a scratchpad's at once or later
(R84). -/
def State.storeFor (s : State) (w : Who) (spc : Nat) (l : Loc) (v : Word) : State :=
  match l with
  | .scratch c o => s.padStore w.core ⟨w.mt, spc, c, o, v, false⟩
  | .device pa => s.storeDevice w.agent w.core pa 4 (v.setWidth 64)
  | .pcie _ => s
  | l => s.storeBytes w.agent (s.regionNo w.agent) w.core l (leBytes 4 v.toNat)

/-- Bytes at an address with stores to it laid over them, in order. -/
def overlay (kd a : Nat) (bs : List Byte) (sts : List OwnStore) : List Byte :=
  sts.foldl (fun bs x =>
    match x.pl with
    | .store k b ws => if k = kd then patch a bs b ws else bs
    | .merge k b ps => if k = kd then ps.foldl (fun bs p => patch a bs (b + p.1) [p.2]) bs else bs
    | _ => bs) bs

/-- Bytes under the core's own stores that are not yet performed. -/
def State.underOwn (s : State) (core : Nat) (l : Loc) (bs : List Byte) : List Byte :=
  match l.homed with
  | some (kd, a, _) => overlay kd a bs (s.core core).ownStores
  | none => bs

/-- An atomic of the core to bytes of an access is on its way: a load waits for it. -/
def State.rmwAhead (s : State) (core : Nat) (l : Loc) (n : Nat) : Bool :=
  match l.homed with
  | some (kd, a, _) => (s.core core).ownStores.any fun x =>
      match x.pl with
      | .rmw k b m _ => k == kd && decide (b < a + n ∧ a < b + m)
      | _ => false
  | none => false

/-- A load of a core that its home answers. The spec gives a load that a fence rejects no value: it
is free (log 32). -/
def State.loadBytes (s : State) (core : Nat) (l : Loc) (n : Nat) : List Byte :=
  if s.fencedPlace core l then leBytes n (Config.deviceRead s.free).toNat
  else s.underOwn core l (s.readLoc l n)

/-- A load of a core through its L1D: a held line of another package answers for its home
(R78). -/
def State.loadCached (s : State) (core : Nat) (l : Loc) (n : Nat) : List Byte :=
  match l with
  | .remote pa =>
    match s.heldLine core pa with
    | some r => s.underOwn core l ((r.data.drop (pa - r.line)).take n)
    | none => s.loadBytes core l n
  | l => s.loadBytes core l n

/-- A word loaded by a micro-thread in a space, devices included: a scratchpad's now or early (R84);
.glnc bypasses the L1D (R68). -/
def State.loadFor (s : State) (w : Who) (spc : Nat) (l : Loc) : State × Word :=
  match l with
  | .scratch c o => s.padLoad w.core w.mt spc c o
  | l =>
    if l.homed.isSome then
      (s, BitVec.ofNat 32 (leNat (if spc = 5 then s.loadBytes w.core l 4 else s.loadCached w.core l 4)))
    else (s, s.loadWord l)

/-- Words loaded in lane order. -/
def State.loadWords (s : State) (w : Who) (spc : Nat) : List Access → State × List (Nat × Word)
  | [] => (s, [])
  | a :: rest =>
    let r := s.loadFor w spc a.loc
    let q := State.loadWords r.1 w spc rest
    (q.1, (a.lane, r.2) :: q.2)

/-- The value of lane `l` among loaded words. -/
def laneOf (vs : List (Nat × Word)) (l : Nat) : Word := ((vs.find? (·.1 == l)).map (·.2)).getD 0

/-- Accesses that are performed now, after what their groups have outstanding (R84). -/
def State.padOrderAll (s : State) (w : Who) (spc : Nat) (as : List Access) : State :=
  as.foldl (fun s a =>
    match a.loc with
    | .scratch c _ => s.padOrder w.core w.mt spc c
    | _ => s) s

/-! ### LD, ST, LDX, STX (R206) -/

/-- Loads through checked accesses into A. -/
def State.loadAll (s : State) (w : Who) (f : Ny) (as : List Access) : Res :=
  match s.poisonOf as with
  | .error e => .error e
  | .ok () =>
    match s.registerAll w f.spc 4 false false as with
    | .error e => .error e
    | .ok s =>
      if as.any fun a => s.rmwAhead w.core a.loc 4 then .error (.stall none)
      else
        (s.passChannels as).map fun s =>
          let r := s.loadWords w f.spc as
          r.1.writeDst w f.a fun l => laneOf r.2 l

/-- A write of LQDB is a release at .pkg scope, by whatever instruction: it waits for the agent's earlier
messages (R311). -/
def State.doorbellCheck (s : State) (w : Who) (as : List Access) : Except Stop Unit :=
  if as.any (·.loc.isLqdb) && (s.home w).outstanding w.agent then .error (.stall none) else .ok ()

/-- The release closes the region (R79). -/
def State.doorbell (s : State) (w : Who) (as : List Access) : State :=
  if as.any (·.loc.isLqdb) then s.closeRegion w.agent else s

/-- The place some bytes further on. -/
def Loc.plus (l : Loc) (n : Nat) : Loc :=
  match l with
  | .lane c i o => .lane c i (o + n)
  | .scratch c o => .scratch c (o + n)
  | .mbox c o => .mbox c (o + n)
  | .gran d o => .gran d (o + n)
  | .dram k => .dram (k + n)
  | .remote pa => .remote (pa + n)
  | .device pa => .device (pa + n)
  | .pcie pa => .pcie (pa + n)

/-- The first words of the lines that words at places cover as a whole. -/
def wholeLines (ls : List Loc) : List Loc :=
  (ls.filter fun l => l.line.any (·.2 == 0) && (List.range 16).all fun i => ls.contains (l.plus (4 * i))).dedup

/-- The line at a place holds the word at another. -/
def Loc.holds (h l : Loc) : Bool := (List.range 16).any fun i => h.plus (4 * i) == l

/-- The last of the words stored at a place (R205). -/
def lastAt (ws : List (Loc × Word)) (l : Loc) : Word := ((ws.reverse.find? (·.1 == l)).map (·.2)).getD 0

/-- Words stored in lane order; those that make up a line are written as one, which clears its poison
(R205, R385). -/
def State.storeWords (s : State) (w : Who) (spc : Nat) (ws : List (Loc × Word)) : State :=
  let heads := wholeLines (ws.map (·.1))
  let s := (ws.filter fun x => !heads.any (·.holds x.1)).foldl (fun s x => s.storeFor w spc x.1 x.2) s
  heads.foldl (fun s h =>
    s.storeBytes w.agent (s.regionNo w.agent) w.core h
      ((List.range 16).flatMap fun i => leBytes 4 (lastAt ws (h.plus (4 * i))).toNat)) s

/-- Stores A through checked accesses, ascending lanes (R205). A paired core's are performed later. -/
def State.storeAll (s : State) (w : Who) (f : Ny) (as : List Access) : Res :=
  match s.registerAll w f.spc 4 true false as with
  | .error e => .error e
  | .ok s =>
    match s.passChannels as with
    | .error e => .error e
    | .ok s =>
      (s.doorbellCheck w as).map fun _ =>
        (s.doorbell w as).storeWords w f.spc (as.map fun a => (a.loc, s.oldDst w f.a a.lane))

/-- The checked accesses of LD, ST and PREF with a base and an offset operand. -/
def State.ldAccess (s : State) (w : Who) (f : Ny) (a : Acc) (base off : Operand) (vec : Bool) :
    Except Stop (List Access) :=
  match s.ldAddrs w f base off (accLanes vec w) with
  | .error e => .error e
  | .ok raws =>
    match s.checkAddrs w.core f.spc a raws with
    | .error e => .error e
    | .ok as => (s.slotCheck w f base (accLanes vec w)).map fun _ => as

def ldBody (f : Ny) (w : Who) (s : State) : Res :=
  match s.ldAccess w f .read f.b f.c f.vec with
  | .error e => .error e
  | .ok as =>
    match s.handleWait w f.b f.spc with
    | .error e => .error e
    | .ok s => s.loadAll w f as

def execLd (f : Ny) (s : State) : Out := .next (s.issue (.ld f) 0x200 f f.vec (ldBody f))

def stBody (f : Ny) (w : Who) (s : State) : Res :=
  match s.ldAccess w f .write f.b f.c f.vec with
  | .error e => .error e
  | .ok as =>
    match s.handleWait w f.b f.spc with
    | .error e => .error e
    | .ok s => s.storeAll w f as

def execSt (f : Ny) (s : State) : Out := .next (s.issue (.st f) 0x201 f f.vec (stBody f))

def ldxBody (f : Ny) (w : Who) (s : State) : Res :=
  match s.checkAddrs w.core f.spc .read (s.ldxAddrs w f w.lanes) with
  | .error e => .error e
  | .ok as => s.loadAll w f as

def execLdx (f : Ny) (s : State) : Out := .next (s.issue (.ldx f) 0x202 f f.vec (ldxBody f))

def stxBody (f : Ny) (w : Who) (s : State) : Res :=
  match s.checkAddrs w.core f.spc .write (s.ldxAddrs w f w.lanes) with
  | .error e => .error e
  | .ok as => s.storeAll w f as

def execStx (f : Ny) (s : State) : Out := .next (s.issue (.stx f) 0x203 f f.vec (stxBody f))

/-! ### STSB (R89, R207) -/

/-- The lane's nibble: its byte address and half. -/
structure Nibble where
  lane : Nat
  va : DWord
  loc : Loc
  high : Bool

/-- Places of bytes, in lane order; no alignment applies. -/
def State.nibbles (s : State) (core spc : Nat) : List (Nat × Int) → Except Stop (List Nibble)
  | [] => .ok []
  | (l, n) :: rest =>
    let x := n / 2
    let va := laneVa spc x
    let here : Except Stop Loc :=
      if 4 ≤ spc then
        match s.xloc core .mt .write va with
        | .error e => .error (xStop e .write va l)
        | .ok (.device p) => if spc = 5 then .ok (.device p) else .error (xStop .access .write va l)
        | .ok (.pcie p) => if spc = 5 then .ok (.pcie p) else .error (xStop .access .write va l)
        | .ok p => .ok p
      else if offsetOk spc x then .ok (s.offsetLoc core l spc va.toNat)
      else .error (exnAddr 5 0 va l)
    match here with
    | .error e => .error e
    | .ok p =>
      match State.nibbles s core spc rest with
      | .error e => .error e
      | .ok ps => .ok (⟨l, va, p, n % 2 == 1⟩ :: ps)

/-- A nibble of a device register is written. -/
def State.nibbleDevice (s : State) (pa : Nat) (high : Bool) (v : BitVec 4) : State :=
  let at_ := pa / 4 * 4
  let old := s.devRead at_ 4
  s.devWrite at_ 4
    (mergeReg old.toNat 0 4 (setField old (8 * (pa % 4) + if high then 4 else 0) 4 v.toNat))

/-- The message that carries a nibble to its owner. -/
def State.sendNibble (s : State) (w : Who) (l : Loc) (high : Bool) (v : BitVec 4) : State :=
  let send (ep : Nat) (pl : Payload) : State := s.sendFor w.agent (s.regionNo w.agent) w.core ep 0 0 pl
  match l with
  | .scratch c o => send c (.nibble 2 c o high v)
  | .gran d o => send (epSlice (d * 256 + o / 256 % 256)) (.nibble 3 d o high v)
  | .dram k => send (epSlice (k / chanBytes)) (.nibble 4 0 k high v)
  | .remote pa => send (epRemote (pa / 2 ^ 38 % 512) 1024) (.nibble 5 0 pa high v)
  | .device pa =>
    if (s.home w).pair.isSome then send (deviceEp pa) (.nibble 6 0 pa high v) else s.nibbleDevice pa high v
  | _ => s

def stsbBody (f : Ny) (w : Who) (s : State) : Res :=
  let p := s.basePair w f.b
  let b : Int := if f.virt then p.toNat else (s.scalar w f.b).toNat
  let n0 : Int := 2 * b + (s.scalar w f.c).toInt
  if f.virt && !canonical p then
    let l := (accLanes f.vec w).headD 0
    .error (exnAddr 6 2 (laneVa f.spc ((n0 + l) / 2)) l)
  else
    match s.nibbles w.core f.spc ((accLanes f.vec w).map fun l => (l, n0 + l)) with
    | .error e => .error e
    | .ok ns =>
      let as := ns.map fun n => ⟨n.lane, n.va, n.loc⟩
      match s.registerAll w f.spc 1 true true as with
      | .error e => .error e
      | .ok s =>
        let data (l : Nat) : Word := s.srcLane w f.ty false f.a l
        (s.doorbellCheck w as).map fun _ =>
          ns.foldl (fun t n => t.sendNibble w n.loc n.high ((data n.lane).setWidth 4)) (s.doorbell w as)

def execStsb (f : Ny) (s : State) : Out := .next (s.issue (.stsb f) 0x20C f f.vec (stsbBody f))

/-! ### PREF, WBACK, INVAL (R208) -/

/-- PREF changes no value that an agent reads, and no translation of it faults; a HANDLE base is
checked as any HANDLE operand is, and waits (R128, R370). -/
def prefBody (f : Ny) (w : Who) (s : State) : Res :=
  match s.slotCheck w f f.b [0] with
  | .error e => .error e
  | .ok () => s.handleWait w f.b f.spc

def execPref (f : Ny) (s : State) : Out := .next (s.issue (.pref f) 0x204 f false (prefBody f))

def lengthCheck (n : Word) : Except Stop Unit :=
  need (decide (1 ≤ n.toNat ∧ n.toNat ≤ 1048576)) (outOfRange n)

def wbackBody (f : Ny) (w : Who) (s : State) : Res :=
  (lengthCheck (s.scalar w f.c)).map fun _ => s

def execWback (f : Ny) (s : State) : Out := .next (s.issue (.wback f) 0x20D f false (wbackBody f))

/-- The first page of a range that cannot be translated, stepping by 4 KiB. -/
def State.untranslated (s : State) (core : Nat) (va : DWord) : Nat → Option DWord
  | 0 => none
  | n + 1 =>
    match s.xlate core .mt .read va with
    | .error _ => some va
    | .ok _ => State.untranslated s core ((va &&& ~~~0xFFF#64) + 4096) n

/-- The lines of other packages in a range of bytes. -/
def State.remoteIn (s : State) (core : Nat) (va : DWord) (n : Nat) : List Nat :=
  (List.range ((va.toNat % 64 + n + 63) / 64)).filterMap fun i =>
    match s.xloc core .mt .read ((va &&& ~~~63#64) + BitVec.ofNat 64 (64 * i)) with
    | .ok (.remote pa) => some (pa / 64 * 64)
    | _ => none

/-- INVAL drops what the core holds of the range. -/
def invalBody (f : Ny) (w : Who) (s : State) : Res :=
  let n := s.scalar w f.c
  let p := s.basePair w f.b
  match lengthCheck n with
  | .error e => .error e
  | .ok () =>
    if !canonical p then .error (exnAddr 6 1 p 0)
    else
      match s.untranslated w.core p ((p.toNat % 4096 + n.toNat + 4095) / 4096) with
      | some va => .error (exnAddr 6 1 va 0)
      | none => .ok (s.dropLines w.core (s.remoteIn w.core p n.toNat))

def execInval (f : Ny) (s : State) : Out := .next (s.issue (.inval f) 0x20E f false (invalBody f))

/-! ### Full bits (R70, R71, R209, R210) -/

/-- Words with full bits that an operation names: windows of the scratchpad by word from
0x7_A000, or mailbox words. -/
inductive FullSet
  | window (ws : List (Nat × Nat))
  | mailbox (ws : List (Nat × Nat))

/-- The lanes' words of LDF's address operands: the window form within 0x7_A000 to 0x7_FFFC, the
mailbox form within 2,047 and through a role that resolves to the issuing core. -/
def State.fullWords (s : State) (w : Who) (base off : Operand) (lanes : List Nat) :
    Except Stop FullSet :=
  match base with
  | .role r o =>
    match offsetCheck o.toNat lanes with
    | .error e => .error e
    | .ok () =>
      match s.resolve w.core r.toNat with
      | .error e => .error e
      | .ok tg =>
        if tg.isSelf (s.namedCore w.core) then .ok (.mailbox (lanes.map fun l => (l, o.toNat + l)))
        else .error (exnVal 8 5 (r.setWidth 32))
  | _ =>
    let b : Int := (s.scalar w base).toNat
    let c : Int := if off = Operand.zero then 0 else (s.scalar w off).toInt
    match s.checkAddrs w.core 1 .read (lanes.map fun l => (l, none, b + c + 4 * l)) with
    | .error e => .error e
    | .ok as =>
      match as.find? fun a => decide (a.va.toNat < 0x7A000) with
      | some a => .error (outOfRange (a.va.setWidth 32))
      | none => .ok (.window (as.map fun a => (a.lane, (a.va.toNat - 0x7A000) / 4)))

def Core.isFull (k : Core) : FullSet → Bool
  | .window ws => ws.all fun x => k.winFull.look false x.2
  | .mailbox ws => ws.all fun x => k.mboxFull.look false x.2

def Core.clearFull (k : Core) : FullSet → Core
  | .window ws => { k with winFull := ws.foldl (fun m x => m.put false x.2 false) k.winFull }
  | .mailbox ws => { k with mboxFull := ws.foldl (fun m x => m.put false x.2 false) k.mboxFull }

/-- A word was written from another package: LDF acquires it at .dom scope (R71, R314). -/
def Core.fromAfar (k : Core) : FullSet → Bool
  | .window _ => false
  | .mailbox ws => ws.any fun x => k.mboxDom.look false x.2

/-- The places of the words. -/
def FullSet.accesses (core : Nat) : FullSet → List Access
  | .window ws => ws.map fun x => ⟨x.1, 0, .scratch core (0x7A000 + 4 * x.2)⟩
  | .mailbox ws => ws.map fun x => ⟨x.1, 0, .mbox core (4 * x.2)⟩

def ldfBody (f : Ny) (w : Who) (s : State) : Res :=
  match s.fullWords w f.b f.c (accLanes f.vec w) with
  | .error e => .error e
  | .ok ws =>
    if (s.home w).isFull ws then
      let s := s.settle w.core w.mt
      let as := ws.accesses w.core
      match s.poisonOf as with
      | .error e => .error e
      | .ok () =>
        let vs := as.map fun a => (a.lane, s.readW a.loc)
        let far := (s.home w).fromAfar ws
        let s := (s.modHome w (·.clearFull ws)).closeRegion w.agent
        let s := if far then s.acquireDom w.core else s
        .ok (s.writeDst w f.a fun l => laneOf vs l)
    else .error (.wait none)

def execLdf (f : Ny) (s : State) : Out := .next (s.issue (.ldf f) 0x20A f f.vec (ldfBody f))

/-- A run of `n` words from the first: within the mailbox, or within one window. -/
def runOk (first n : Nat) (mailbox : Bool) : Bool :=
  decide (1 ≤ n ∧ n ≤ 2048) &&
  (if mailbox then decide (first + n ≤ 2048)
   else decide (first + n ≤ 6144) && first / 2048 == (first + n - 1) / 2048)

/-- FBCLR: the checks of R204 on the first word, the count and the run, then the mailbox role
(R370). -/
def fbclrBody (f : Ny) (w : Who) (s : State) : Res :=
  let n := s.scalar w f.c
  let run (first : Nat) : List (Nat × Nat) := (List.range n.toNat).map fun i => (i, first + i)
  match f.a with
  | .role _ o =>
    if !runOk o.toNat n.toNat true then .error (outOfRange n)
    else
      match s.fullWords w f.a f.b [0] with
      | .error e => .error e
      | .ok _ => .ok (s.modHome w (·.clearFull (.mailbox (run o.toNat))))
  | _ =>
    match s.fullWords w f.a f.b [0] with
    | .error e => .error e
    | .ok (.window ws) =>
      let first := (ws.headD (0, 0)).2
      if runOk first n.toNat false then .ok (s.modHome w (·.clearFull (.window (run first))))
      else .error (outOfRange n)
    | .ok (.mailbox _) => .ok s

def execFbclr (f : Ny) (s : State) : Out := .next (s.issue (.fbclr f) 0x20B f false (fbclrBody f))

end Sys2Proof.Machine
end

