-- ==== Sys2Proof/Machine/Queues.lean ====
section
/-! DEFINITION. Handles and queues (R211 to R216) and stream registers (R218). -/

namespace Sys2Proof.Machine

/-! ### Queue homes (R212) -/

/-- Slice of a queue control block's line. -/
def qcbSlice (key : Nat) : Nat := key / chanBytes

/-- The number of the home of a queue: its block's, but for a twin's home in its own core or tile, which
is not its primary's (R212, R376). -/
def State.homeKey (s : State) (core spc key : Nat) : Nat :=
  if spc < 3 && (s.core core).isTwin then key + 2 ^ 60 else key

/-- The unit whose agents may bind: the core, the tile, the die of the home slice, or the
package (log 14). -/
def homeUnit (core spc key : Nat) : Nat :=
  match spc with
  | 1 => core
  | 2 => tileOf core
  | 3 => qcbSlice key / 256
  | _ => 0

/-- The binder lies in the unit of the home (R212). -/
def State.mayBind (s : State) (core spc key : Nat) (q : Option QHome) : Bool :=
  (match q with
   | some q => q.spc == spc && q.unit == homeUnit core spc key
   | none => true) &&
  (spc != 3 || coreDie (s.originOf core) == qcbSlice key / 256)

/-- Queues at the home where a queue of this space and control block would live. -/
def State.homeLoad (s : State) (core spc key : Nat) : Nat :=
  s.qhomes.countP fun e =>
    if spc = 1 ∨ spc = 2 then e.2.spc == spc && e.2.unit == homeUnit core spc key
    else 3 ≤ e.2.spc && qcbSlice e.1 == qcbSlice key

def homeCap (spc : Nat) : Nat := if spc = 2 then 64 else 32

/-- A queue control block as read (R211). -/
structure Qcb where
  spc : Nat
  base : Nat
  n : Nat
  slot : Nat
  prod : Word
  cons : Word

/-- End of a space for R213. -/
def spaceEnd (spc : Nat) : Nat := if 4 ≤ spc then 2 ^ 48 else (spaceSize spc).toNat

/-- Reads a block's bytes; `none` where a reserved bit is set, SPC is reserved, BASE is not
32-byte aligned or the buffer passes the end of its space (R211, R213). -/
def parseQcb (bs : List Byte) : Option Qcb :=
  let buf := leNat (bs.take 8)
  let geom := leNat ((bs.drop 8).take 4)
  let spc := buf / 2 ^ 48 % 8
  let base := buf % 2 ^ 48
  let slot := (geom / 2 ^ 16 % 512 + 1) * 32
  let n := geom % 4096 + 1
  let clean := buf / 2 ^ 51 = 0 ∧ geom / 2 ^ 25 = 0 ∧ geom / 2 ^ 12 % 16 = 0 ∧
    leNat ((bs.drop 12).take 4) = 0 ∧ leNat (bs.drop 24) = 0
  if clean ∧ 1 ≤ spc ∧ spc ≤ 5 ∧ base % 32 = 0 ∧ base + n * slot ≤ spaceEnd spc then
    some ⟨spc, base, n, slot, BitVec.ofNat 32 (leNat ((bs.drop 16).take 4)),
      BitVec.ofNat 32 (leNat ((bs.drop 20).take 4))⟩
  else none

/-- Drops the handle of a micro-thread; nothing where it is unbound (R216). -/
def State.dropHandle (s : State) (c m h : Nat) : State :=
  match (s.mt c m).handle h with
  | none => s
  | some x => (s.modMt c m fun t => { t with h := t.h.del h }).unbind x.key

/-- Adds a binding of a queue: the first reads the pointers (R212). -/
def State.addBind (s : State) (core key : Nat) (q : Qcb) : State :=
  let h : QHome := match s.qhome key with
    | some h => { h with binds := h.binds + 1 }
    | none => ⟨q.spc, homeUnit core q.spc key, q.prod, q.cons, q.n, 1⟩
  { s with qhomes := s.qhomes.upd key h }

def Mt.stepHgen (t : Mt) (h : Nat) : Mt := { t with hgen := t.hgen.put 0 h (t.hgen.look 0 h + 1) }

/-- Binds handle `h` to a block that has been read and checked (R213). -/
def State.bindHandle (s : State) (c m h : Nat) (qcb : DWord) (key : Nat) (prod : Bool)
    (port : Option Nat) (q : Qcb) : State :=
  let s := (s.dropHandle c m h).addBind c key q
  s.modMt c m fun t =>
    { (t.stepHgen h) with
      h := t.h.upd h ⟨qcb, key, prod, q.spc, q.base, q.n, q.slot, port⟩ }

/-- The block of a queue as a core sees it, where it is valid, with the number of its home. While the
queue is bound the pointers are the home's (R212). -/
def State.readQcb (s : State) (core key : Nat) : Option (Nat × Qcb) :=
  (parseQcb (s.readLoc (.dram key) 64)).map fun q =>
    let hk := s.homeKey core q.spc key
    match s.qhome hk with
    | some h => (hk, { q with prod := h.prod, cons := h.cons })
    | none => (hk, q)

/-! ### HBIND (R213) -/

def handleNo : Operand → Nat
  | .handle h _ _ => h.toNat
  | _ => 0

def queueStop (detail h : Nat) : Stop := exnVal 9 detail (BitVec.ofNat 32 h)

def hbindBody (f : Ny) (w : Who) (s : State) : Res :=
  let h := handleNo f.a
  let p := s.basePair w f.b
  let prod : Bool := immInt f.c = 1
  if !canonical p then .error (exnAddr 6 1 p 0)
  else
    match s.virtLoc w.core 4 .read p 0 with
    | .error e => .error e
    | .ok (.dram key) =>
      if p.toNat % 64 ≠ 0 then .error (queueStop 3 h)
      else if s.poisoned (.dram key) then .error (.poison (.dramLine (key / 64 * 64)))
      else
        match s.readQcb w.core key with
        | none => .error (queueStop 3 h)
        | some (hk, q) =>
          if !s.mayBind w.core q.spc key (s.qhome hk) then .error (queueStop 4 h)
          else if (s.qhome hk).isNone && homeCap q.spc ≤ s.homeLoad w.core q.spc key then
            .error (queueStop 5 h)
          else
            let a : Access := ⟨0, p, .dram key⟩
            match s.registerAll w 4 64 false false [a] with
            | .error e => .error e
            | .ok s => (s.passChannels [a]).map fun s => s.bindHandle w.core w.mt h p hk prod none q
    | .ok _ => .error (queueStop 3 h)

def execHbind (f : Ny) (s : State) : Out := .next (s.issue (.hbind f) 0x205 f false (hbindBody f))

/-! ### Requests of a paired core that are answered (R377, R378) -/

/-- Requests leave, each of a lane to an endpoint, with their answers awaited, by PSEQ. -/
def State.ask (s : State) (w : Who) (ms : List (Nat × Nat × Payload)) : State :=
  let seq := ((s.home w).pair.map (·.pseq)).getD 0
  (ms.foldl (fun s m => s.sendFor w.agent (s.regionNo w.agent) w.core m.2.1 0 0 m.2.2) s).modSelf w fun t =>
    { t with asked := ms.zipIdx.map fun m => (m.1.1, (seq + m.2) % 65536) }

/-- The answers to what a paired core's micro-thread has under way, if anything is. -/
def State.answered (s : State) (w : Who) : Option (Except Stop (State × List (Nat × Word))) :=
  let qs := (s.self w).asked
  let find (n : Nat) : Option DWord := ((s.home w).answers.find? (·.1 == n)).map (·.2)
  if qs.isEmpty then none
  else if qs.all fun q => (find q.2).isSome then
    let vs := qs.map fun q => (q.1, ((find q.2).getD 0).setWidth 32)
    let s := s.modHome w fun k =>
      { k with answers := k.answers.filter fun a => !qs.any fun q => q.2 == a.1 }
    some (.ok (s.modSelf w fun t => { t with asked := [] }, vs))
  else some (.error (.stall none))

/-! ### ADVP and ADVC (R215) -/

/-- A port's reservation of the firing that runs in the micro-thread falls by `n` (R43). -/
def State.unreserve (s : State) (c m port n : Nat) : State :=
  match (s.mt c m).fire with
  | none => s
  | some (a, _) =>
    s.modCore c fun k => { k with firings := k.firings.map fun r =>
      if r.actor == a && r.mts.contains m then
        { r with res := r.res.put 0 port (r.res.look 0 port - n) }
      else r }

/-- The pointer update at the home; `none` where it overruns. -/
def QHome.advance (q : QHome) (prod : Bool) (n : Nat) : Option QHome :=
  if prod then
    if q.nslot < q.filled + n then none else some { q with prod := q.prod + BitVec.ofNat 32 n }
  else if q.filled < n then none
  else some { q with cons := q.cons + BitVec.ofNat 32 n }

/-- The pointer has moved: the handle's generation steps, and a reservation falls. -/
def State.advanced (s : State) (w : Who) (h : Nat) (x : Handle) (n : Nat) : State :=
  let s := s.modSelf w fun t => t.stepHgen h
  match x.port with
  | some p => s.unreserve w.core w.mt p n
  | none => s

/-- The home of a queue in shared memory, for a paired core's message: its kind, address and slice
(R378). -/
def QHome.station (q : QHome) (key : Nat) : Option (Nat × Nat × Nat) :=
  if q.spc < 3 then none else some (4, key, epSlice (qcbSlice key))

/-- ADVP and ADVC. A paired core's update of a queue in shared memory is a message, and both twins wait for
the answer (R377, R378). -/
def advBody (f : Ny) (prod : Bool) (w : Who) (s : State) : Res :=
  let h := handleNo f.a
  let n := s.scalar w f.b
  if n = 0 then .error (outOfRange n)
  else
    match (s.self w).handle h with
    | none => .error (queueStop 1 h)
    | some x =>
      match s.answered w with
      | some (.error e) => .error e
      | some (.ok (s, old)) =>
        if laneOf old 0 = 0 then .ok (s.advanced w h x n.toNat) else .error (queueStop 7 h)
      | none =>
        match s.qhome x.key with
        | none => .error (queueStop 1 h)
        | some q =>
          if x.prod != prod then .error (queueStop 2 h)
          else
            match (if (s.home w).pair.isSome then q.station x.key else none) with
            | some (kd, a, ep) =>
              .error (.stall (some ((s.closeRegion w.agent).ask w
                [(0, ep, .rmw kd a 4 (.advance prod n.toNat))])))
            | none =>
              match q.advance prod n.toNat with
              | none => .error (queueStop 7 h)
              | some q =>
                let s := s.closeRegion w.agent
                .ok ({ s with qhomes := s.qhomes.upd x.key q }.advanced w h x n.toNat)

def execAdvp (f : Ny) (s : State) : Out := .next (s.issue (.advp f) 0x206 f false (advBody f true))
def execAdvc (f : Ny) (s : State) : Out := .next (s.issue (.advc f) 0x207 f false (advBody f false))

/-! ### Streams and drops (R216, R218) -/

def qbindBody (f : Ny) (w : Who) (s : State) : Res :=
  match f.a with
  | .stream q => .ok (s.modSelf w fun t => t.setStream q.toNat .armed)
  | _ => .ok s

def execQbind (f : Ny) (s : State) : Out := .next (s.issue (.qbind f) 0x208 f false (qbindBody f))

def qdropBody (f : Ny) (w : Who) (s : State) : Res :=
  match f.a with
  | .stream q => .ok (s.modSelf w fun t => t.setStream q.toNat .idle)
  | .handle h _ _ => .ok (s.dropHandle w.core w.mt h.toNat)
  | _ => .ok s

def execQdrop (f : Ny) (s : State) : Out := .next (s.issue (.qdrop f) 0x209 f false (qdropBody f))

end Sys2Proof.Machine
end

