-- ==== Sys2Proof/Machine/Sync.lean ====
section
/-! DEFINITION. Class 0x280: atomics (R219 to R221), fences (R222), barriers (R223, R224, R334),
counters (R225, R226), the inbox (R228), tickets (R229, R296, R297) and roles (R230). -/

namespace Sys2Proof

/-- The next register after a register operand, the high half of a pair. -/
def Operand.succ : Operand → Operand
  | .vreg r sel swz neg abs low => .vreg (r + 1) sel swz neg abs low
  | .sreg r low => .sreg (r + 1) low
  | o => o

/-- QORD of the qualifier has an acquire or a release, or a release (R122). -/
def Ny.ordered (f : Ny) : Bool := (Operand.qual f.a).toNat % 4 != 0
def Ny.acquires (f : Ny) : Bool := (Operand.qual f.a).toNat % 2 == 1
def Ny.releases (f : Ny) : Bool := 2 ≤ (Operand.qual f.a).toNat % 4
def Ny.qscope (f : Ny) : Nat := (Operand.qual f.a).toNat / 4

end Sys2Proof

namespace Sys2Proof.Machine

/-! ### Releases of .dom scope (R222, R313) -/

/-- Some write of the agent to another package is not acknowledged. -/
def State.unackedRemote (s : State) (agent : Word) : Bool :=
  s.flows.any fun f => decide (4096 ≤ f.dst) && f.copies.any (·.who == some agent)

/-- A release of .dom scope does not issue before those acknowledgements. -/
def State.releaseCheck (s : State) (agent : Word) (scope : Nat) : Except Stop Unit :=
  if scope = 4 ∧ s.unackedRemote agent then .error (.stall none) else .ok ()

/-! ### Atomics -/

/-- The combination of ATOM and ATRED (R219). -/
def atomOp (t : Ty) (aop : Nat) (m v : Word) : Word :=
  if aop = 6 then v else BitVec.ofNat 32 (redOp t aop m.toNat v.toNat)

/-- Raw addresses of an atomic's operand B; a VREG source has its sub-fields applied by the type
(R126). -/
def State.atomRaws (s : State) (w : Who) (f : Ny) (b : Operand) (ls : List Nat) :
    List (Nat × Option DWord × Int) :=
  match b with
  | .vreg .. =>
    if f.virt then
      ls.map fun l =>
        let p : DWord := s.srcLane w f.ty false (Operand.succ b) l ++ s.srcLane w f.ty false b l
        (l, some p, (p.toNat : Int))
    else ls.map fun l => (l, none, ((s.srcLane w f.ty false b l).toNat : Int))
  | _ =>
    if f.virt then
      let p := s.basePair w b
      ls.map fun l => (l, some p, (p.toNat : Int))
    else ls.map fun l => (l, none, ((s.scalar w b).toNat : Int))

/-- The places of an atomic against the regions and poison. -/
def State.atomAccess (s : State) (w : Who) (f : Ny) (as : List Access) : Except Stop State :=
  match s.registerAll w f.spc 4 true true as with
  | .error e => .error e
  | .ok s => (s.poisonOf as).map fun _ => s

/-- Read-modify-writes in ascending lane order, with the old words. Behind a fence nothing is
performed, and the word is free (R384, log 32). -/
def State.rmwAll (s : State) (core : Nat) (g : Nat → Word → Word) :
    List Access → State × List (Nat × Word)
  | [] => (s, [])
  | a :: rest =>
    if s.fencedPlace core a.loc then
      let r := State.rmwAll s core g rest
      (r.1, (a.lane, (Config.deviceRead s.free).setWidth 32) :: r.2)
    else
      let m := s.loadWord a.loc
      let s : State := match a.loc with
        | .device _ | .pcie _ => s.storeWord a.loc (g a.lane m)
        | l => s.writeWBy core l (g a.lane m)
      let r := State.rmwAll s core g rest
      (r.1, (a.lane, m) :: r.2)

/-- The requests of an atomic of a paired core, one for each lane (R378). -/
def rmwRequests (op : Nat → RmwOp) (as : List Access) : List (Nat × Nat × Payload) :=
  as.filterMap fun a => a.loc.station.map fun q => (a.lane, q.2.2, .rmw q.1 q.2.1 4 (op a.lane))

/-- An atomic orders: by its qualifier, or as a write of LQDB (R219, R311). -/
def atomOrders (f : Ny) (as : List Access) : Bool := f.ordered || as.any (·.loc.isLqdb)

/-- Before its accesses an atomic that orders closes the region; another follows what its groups have
outstanding (R79, R84). -/
def State.atomOpen (s : State) (w : Who) (f : Ny) (as : List Access) : State :=
  if atomOrders f as then s.closeRegion w.agent else s.padOrderAll w f.spc as

/-- Performs an atomic that `op` says, `g` on each lane's word. A paired core's, outside the
scratchpads, leaves as paired messages, and both twins wait for the answers (R377, R378). -/
def State.performRmw (s : State) (w : Who) (f : Ny) (as : List Access) (op : Nat → RmwOp)
    (g : Nat → Word → Word) : Except Stop (State × List (Nat × Word)) :=
  match s.passChannels as with
  | .error e => .error e
  | .ok s =>
    match s.doorbellCheck w as with
    | .error e => .error e
    | .ok () =>
      let s := s.atomOpen w f as
      if (s.home w).pair.isSome && decide (3 ≤ f.spc) then
        .error (.stall (some (s.ask w (rmwRequests op as))))
      else .ok (s.rmwAll w.core g as)

/-- An acquire acquires at its scope (R219). -/
def State.acquired (s : State) (f : Ny) (w : Who) : State :=
  s.acquireAt w.core (if f.acquires then f.qscope else 0)

/-- The old words arrive: an acquire acts, and A is written. -/
def State.atomDone (s : State) (w : Who) (f : Ny) (old : List (Nat × Word)) : State :=
  (s.acquired f w).writeDst w f.a fun l => laneOf old l

/-- The checks of an atomic: addresses, a stream that has failed, then regions and poison (R365); the
places. -/
def State.atomCheck (s : State) (w : Who) (f : Ny) : Except Stop (State × List Access) :=
  match s.checkAddrs w.core f.spc .write (s.atomRaws w f f.b (accLanes f.vec w)) with
  | .error e => .error e
  | .ok as =>
    match streamCheck (s.self w) f.c with
    | .error (.trap e) => .error (.trap e)
    | _ => (s.atomAccess w f as).map fun s => (s, as)

def atomBody (f : Ny) (w : Who) (s : State) : Res :=
  match s.answered w with
  | some r => r.map fun q => q.1.atomDone w f q.2
  | none =>
    match s.atomCheck w f with
    | .error e => .error e
    | .ok (s, as) =>
      match s.src w f.ty false f.c with
      | .error e => .error e
      | .ok (s, v) =>
        match s.releaseCheck w.agent (if f.releases then f.qscope else 0) with
        | .error e => .error e
        | .ok () =>
          (s.performRmw w f as (fun l => .atom f.aop f.ty (v l)) fun l m =>
            atomOp f.ty f.aop m (v l)).map fun q => q.1.atomDone w f q.2

def execAtom (f : Ny) (s : State) : Out := .next (s.issue (.atom f) 0x280 f f.vec (atomBody f))

def casBody (f : Ny) (w : Who) (s : State) : Res :=
  match s.answered w with
  | some r => r.map fun q => q.1.atomDone w f q.2
  | none =>
    match s.atomCheck w f with
    | .error e => .error e
    | .ok (s, as) =>
      let c := s.srcLane w f.ty false f.c
      let v := s.srcLane w f.ty false (Operand.succ f.c)
      match s.releaseCheck w.agent (if f.releases then f.qscope else 0) with
      | .error e => .error e
      | .ok () =>
        (s.performRmw w f as (fun l => .cas (c l) (v l)) fun l m =>
          if m = c l then v l else m).map fun q => q.1.atomDone w f q.2

def execCas (f : Ny) (s : State) : Out := .next (s.issue (.cas f) 0x281 f f.vec (casBody f))

/-! ### Groups (R309) -/

/-- Takes the lowest group with no message in flight; its generation steps when it is taken
again. It holds its members' endpoints, and `drain` messages drain it. With no free group the taker waits. -/
def State.takeGroup (s : State) (d : Nat) (members : List Nat) (drain : Nat) :
    Option (Nat × Nat × State) :=
  match ((List.range 4095).map (· + 1)).find? fun g => ((s.die d).group g).drain == 0 with
  | none => none
  | some g =>
    let x := (s.die d).group g
    let gen := if x.taken then (x.gen + 1) % 16 else x.gen
    some (g, gen, s.modDie d fun y => { y with groups := y.groups.upd g ⟨members, gen, drain, true⟩ })

/-- Messages to one core, or under a group to every core of a unit: of the event unit, or of an
agent to memory. -/
def State.sendUnit (s : State) (core : Nat) (agent : Option Word) (cs : List Nat) (solo : Bool)
    (ep : Nat → Nat) (pls : Nat → List Payload) : Option State :=
  let one (s : State) (c g gen : Nat) (p : Payload) : State :=
    match agent with
    | some a => s.sendFor a (s.regionNo a) core (ep c) g gen p
    | none => s.send core (ep c) clsEvent g gen p
  let all (s : State) (g gen : Nat) : State :=
    cs.foldl (fun s c => (pls c).foldl (fun s p => one s c g gen p) s) s
  if solo then some (all s 0 0)
  else
    match s.takeGroup (coreDie core) (cs.map ep) (cs.map fun c => (pls c).length).sum with
    | none => none
    | some (g, gen, s) => some (all s (coreDie core * 4096 + g) gen)

/-- A target is one core, and not a unit above it. -/
def Target.solo (tg : Target) : Bool := tg.coreOf.isSome

/-- Endpoint of a target core's home slice, in this package or another. -/
def Target.slice (tg : Target) (c : Nat) : Nat :=
  match tg with
  | .remote p _ _ _ => epRemote p (epSlice c)
  | _ => epSlice c

/-- ATRED to a role: one operation on each mailbox (R221). -/
def State.atredRole (s : State) (f : Ny) (w : Who) (r off : Nat) : Res :=
  let ls := accLanes f.vec w
  match s.resolve w.core r with
  | .error e => .error e
  | .ok tg =>
    match offsetCheck off ls with
    | .error e => .error e
    | .ok () =>
      let v := s.srcLane w f.ty false f.a
      let pls (c : Nat) : List Payload := ls.map fun l => .atred c (off + l) f.aop f.ty (v l)
      match s.releaseCheck w.agent (if f.releases then f.qscope else 0) with
      | .error e => .error e
      | .ok () =>
        let cs := s.unitCores w.core tg
        match (s.atomOpen w f []).sendUnit w.core (some w.agent) cs tg.solo tg.slice pls with
        | none => .error (.stall none)
        | some s => .ok (s.acquired f w)

/-- ATRED at checked places. A paired core's requests leave as messages that nothing waits for. -/
def State.atredAt (s : State) (f : Ny) (w : Who) (as : List Access) : State :=
  let v := s.srcLane w f.ty false f.a
  let s := s.atomOpen w f as
  if (s.home w).pair.isSome && decide (3 ≤ f.spc) then
    (rmwRequests (fun l => .atom f.aop f.ty (v l)) as).foldl (fun s m =>
      s.sendFor w.agent (s.regionNo w.agent) w.core m.2.1 0 0 m.2.2) s
  else (s.rmwAll w.core (fun l m => atomOp f.ty f.aop m (v l)) as).1

def atredBody (f : Ny) (w : Who) (s : State) : Res :=
  match f.b with
  | .role r off => s.atredRole f w r.toNat off.toNat
  | _ =>
    match s.atomCheck w f with
    | .error e => .error e
    | .ok (s, as) =>
      match s.releaseCheck w.agent (if f.releases then f.qscope else 0) with
      | .error e => .error e
      | .ok () =>
        match s.passChannels as with
        | .error e => .error e
        | .ok s => (s.doorbellCheck w as).map fun _ => (s.atredAt f w as).acquired f w

def execAtred (f : Ny) (s : State) : Out := .next (s.issue (.atred f) 0x282 f f.vec (atredBody f))

/-! ### Fences (R222) -/

def fenceBody (f : Ny) (rel acq : Bool) (w : Who) (s : State) : Res :=
  (s.releaseCheck w.agent (if rel then f.md.toNat else 0)).map fun _ =>
    (s.closeRegion w.agent).acquireAt w.core (if acq then f.md.toNat else 0)

def execFence (f : Ny) (s : State) : Out :=
  .next (s.issue (.fence f) 0x283 f false (fenceBody f true true))
def execAcq (f : Ny) (s : State) : Out :=
  .next (s.issue (.acq f) 0x284 f false (fenceBody f false true))
def execRel (f : Ny) (s : State) : Out :=
  .next (s.issue (.rel f) 0x285 f false (fenceBody f true false))

/-! ### Barriers -/

/-- The barrier that a core names by scope and identifier; a wide one of a twin is its primary's (R223,
R379). -/
def State.barKey (s : State) (c scope id : Nat) : BarKey :=
  let unit := match scope with
    | 0 => c
    | 1 => tileOf c
    | 2 => coreDie (s.originOf (s.namedCore c))
    | _ => 0
  ⟨scope, unit, ((s.core c).launch.map (· + 1)).getD 0, id⟩

def State.barrier (s : State) (k : BarKey) : Barrier :=
  (s.barriers.find? (·.key == k)).getD ⟨k, 0, 0, none, []⟩

def State.setBarrier (s : State) (b : Barrier) : State :=
  { s with barriers :=
      if s.barriers.any (·.key == b.key) then
        s.barriers.map fun x => if x.key == b.key then b else x
      else s.barriers ++ [b] }

/-- Arrivals of a phase on their way. -/
def State.underway (s : State) (k : BarKey) (ph : Nat) : List Arrival :=
  s.barPending.filter (·.counts k ph)

/-- The expected count that a phase has, if any arrival of it was made. -/
def State.phaseK (s : State) (b : Barrier) (ph : Nat) : Option Nat :=
  if ph = b.phase then b.k else (s.underway b.key ph).head?.map (·.k)

/-- The first phase from `ph` on whose arrivals are not all made. -/
def State.openPhase (s : State) (b : Barrier) : Nat → Nat → Nat
  | 0, ph => ph
  | fuel + 1, ph =>
    let n := (if ph = b.phase then b.count else 0) + (s.underway b.key ph).length
    match s.phaseK b ph with
    | some k => if k ≤ n then State.openPhase s b fuel (ph + 1) else ph
    | none => ph

/-- The first limiter step boundary at or after a time: steps last 4 cycles of 1.3 GHz, which
is 40/13 ns (R20, R326). -/
def stepBoundary (t : Nat) : Nat :=
  let k := (t * 13 + 39) / 40
  (k * 40 + 12) / 13

/-- One arrival counted at the home; at K the phase completes, and a wide barrier stamps the
release (R223, R334). -/
def State.countArrival (s : State) (b : Barrier) (k : Nat) : State :=
  if b.count + 1 < k then s.setBarrier { b with count := b.count + 1, k := some k }
  else
    let next := (s.underway b.key (b.phase + 1)).head?.map (·.k)
    s.setBarrier { b with
      phase := b.phase + 1, count := 0, k := next
      release :=
        if b.key.scope < 2 then b.release
        else b.release.upd b.phase (stepBoundary (s.now + Config.rskew b.key.scope)) }

/-- The slice of a wide barrier: the home slice of the launch's lowest core on the die or in the package
(R223). -/
def State.barHome (s : State) (core : Nat) (key : BarKey) : Nat :=
  epSlice ((s.unitCores core (if key.scope = 2 then .die key.unit else .pkg)).headD core)

/-- The arrival of a pair that its other side has made already. -/
def State.pairArrival (s : State) (k : Core) : Option Arrival :=
  match k.pair with
  | some q => s.barPending.find? fun a => a.pair == some (q.id, q.pseq)
  | none => none

/-- An arrival at a wide barrier is on its way; a pair's is one of both sides, by paired messages
(R378). -/
def State.sendArrival (s : State) (w : Who) (key : BarKey) (k ph : Nat) : State :=
  let x := s.home w
  let a : Arrival := ⟨key, ph, k, x.ctx, x.inc, x.pair.map fun q => (q.id, q.pseq), x.pair.isNone, false⟩
  let s : State := if (s.pairArrival x).isSome then s else { s with barPending := s.barPending ++ [a] }
  if x.pair.isSome then s.send w.core (s.barHome w.core key) clsRequest 0 0 (.arrival key k) else s

/-- An arrival at a barrier: the state and the phase that it counts for. The arrivals of .core
and .tile barriers are counted at once, the others on their way to the home. The region closes. -/
def State.arrive (s : State) (w : Who) (scope id : Nat) (k : Word) : Except Stop (State × Nat) :=
  if k.toNat < 1 ∨ 65535 < k.toNat then .error (outOfRange k)
  else
    let key := s.barKey w.core scope id
    let b := s.barrier key
    match (if scope < 2 then none else s.pairArrival (s.home w)) with
    | some a => .ok ((s.closeRegion w.agent).sendArrival w key k.toNat a.phase, a.phase)
    | none =>
      let ph := s.openPhase b (s.barPending.length + 1) b.phase
      let bad : Bool := match s.phaseK b ph with
        | some k' => k' != k.toNat
        | none => false
      if bad then .error (exnVal 12 1 (BitVec.ofNat 32 id))
      else
        let s := s.closeRegion w.agent
        if scope < 2 then .ok (s.countArrival b k.toNat, ph)
        else
          let s := if ph = b.phase then s.setBarrier { b with k := some k.toNat } else s
          .ok (s.sendArrival w key k.toNat ph, ph)

/-- The phase has completed and its release has been made. A barrier whose launch has ended is
gone, and nothing waits on it. -/
def State.departed (s : State) (key : BarKey) (ph : Nat) : Bool :=
  match s.barriers.find? (·.key == key) with
  | none => true
  | some b => decide (ph < b.phase) && (b.release.get? ph).isNone

def barId (f : Ny) : Nat := (immInt f.a).toNat

/-- BAR: the first issue arrives, which closes the region, and waits; the wait ends with the phase, and
acquires (R224). -/
def barBody (f : Ny) (w : Who) (s : State) : Res :=
  match (s.self w).arrived with
  | some (key, ph) =>
    if s.departed key ph then
      .ok ((s.modSelf w fun t => { t with arrived := none }).acquireAt w.core f.md.toNat)
    else .error (.wait none)
  | none =>
    let key := s.barKey w.core f.md.toNat (barId f)
    match s.arrive w f.md.toNat (barId f) (s.scalar w f.b) with
    | .error e => .error e
    | .ok (s, ph) =>
      .error (.wait (some (s.modSelf w fun t => { t with arrived := some (key, ph) })))

def execBar (f : Ny) (s : State) : Out := .next (s.issue (.bar f) 0x286 f false (barBody f))

def bphIdx (f : Ny) : Nat := f.md.toNat * 16 + barId f

def baraBody (f : Ny) (w : Who) (s : State) : Res :=
  match s.arrive w f.md.toNat (barId f) (s.scalar w f.b) with
  | .error e => .error e
  | .ok (s, ph) =>
    let key := s.barKey w.core f.md.toNat (barId f)
    .ok (s.modSelf w fun t => { t with bph := t.bph.upd (bphIdx f) (key, ph) })

def execBara (f : Ny) (s : State) : Out := .next (s.issue (.bara f) 0x287 f false (baraBody f))

def barwBody (f : Ny) (w : Who) (s : State) : Res :=
  match (s.self w).bph.get? (bphIdx f) with
  | none => .ok (s.closeRegion w.agent)
  | some (key, ph) =>
    if s.departed key ph then
      .ok (((s.modSelf w fun t => { t with bph := t.bph.del (bphIdx f) }).closeRegion w.agent).acquireAt
        w.core f.md.toNat)
    else .error (.wait none)

def execBarw (f : Ny) (s : State) : Out := .next (s.issue (.barw f) 0x288 f false (barwBody f))

/-- BARRIER_ARRIVAL: arrival `n` reaches its home and is counted in its phase (R223). An
arrival for a later phase stays on its way until that phase is open. -/
def execBarrierArrival (n : Nat) (s : State) : Out :=
  match s.barPending[n]? with
  | none => .next s
  | some a =>
    let b := s.barrier a.key
    if b.phase = a.phase ∧ a.ready = true then
      let s := { s with barPending := s.barPending.eraseIdx n }
      .next (s.countArrival b a.k)
    else .next s

/-- BARRIER_RELEASE: the oldest stamped release of barrier `n` reaches its waiters, at its
release time or later (R334). -/
def execBarrierRelease (n : Nat) (s : State) : Out :=
  match s.barriers[n]? with
  | none => .next s
  | some b =>
    match b.release with
    | (ph, tr) :: _ =>
      if tr ≤ s.now then .next (s.setBarrier { b with release := b.release.del ph }) else .next s
    | [] => .next s

/-! ### Counters (R87, R225, R226) -/

def counterMax : Nat := 2 ^ 62 - 1

/-- The new value of a counter: saturating add, bit 62 zero, bit 63 sticky. -/
def counterNext (m inc : Nat) (err : Bool) : Nat :=
  let x := m % 2 ^ 62 + inc
  let e := err || pteBit m 63 || decide (counterMax < x)
  min x counterMax + (if e then 2 ^ 63 else 0)

/-- Adds to the counter at a place. -/
def State.counterAdd (s : State) (l : Loc) (inc : Nat) (err : Bool) : State :=
  s.writeLoc l (leBytes 8 (counterNext (leNat (s.readLoc l 8)) inc err))

/-- Scope of the acquire of a counter in another package is .dom (R87). -/
def State.acquireCounter (s : State) (c : Nat) (l : Loc) : State :=
  match l with
  | .remote _ => s.acquireDom c
  | _ => s

/-- Bytes at a place, devices included. -/
def State.bytesAt (s : State) (l : Loc) (n : Nat) : List Byte :=
  match l with
  | .device pa => leBytes n (s.devRead pa n).toNat
  | .pcie _ => leBytes n (Config.deviceRead s.free).toNat
  | l => s.readLoc l n

/-- An agent's increment of a counter: of a paired core a message outside the scratchpads (R378), with
no effect behind a fence (R384). -/
def State.countAt (s : State) (agent : Word) (rsn : BitVec 16) (core : Nat) (l : Loc) (inc : Nat)
    (err : Bool) : State :=
  if s.fencedPlace core l then s
  else
    match (s.core core).pair, l.station with
    | some _, some (kd, a, ep) => s.sendFor agent rsn core ep 0 0 (.rmw kd a 8 (.counter inc err))
    | _, _ =>
      match l with
      | .device pa => s.devWrite pa 8 (BitVec.ofNat 64 (counterNext (leNat (s.bytesAt l 8)) inc err))
      | .pcie _ => s
      | l => s.writeBy core l (leBytes 8 (counterNext (leNat (s.readLoc l 8)) inc err))

/-- The checked place of a counter: those of R204, then multiple of 8 (R365). -/
def State.counterPlace (s : State) (w : Who) (f : Ny) (a : Acc) : Except Stop Access :=
  let p := s.basePair w f.a
  let x : Int := if f.virt then p.toNat else (s.scalar w f.a).toNat
  if f.virt && !canonical p then .error (exnAddr 6 a.detail p 0)
  else if x % 4 ≠ 0 then .error (exnAddr 4 0 (laneVa f.spc x) 0)
  else
    match s.places w.core f.spc a [(0, x)] with
    | .error e => .error e
    | .ok (q :: _) => if x % 8 ≠ 0 then .error (exnAddr 4 0 q.va 0) else .ok q
    | .ok [] => .error (.stall none)

/-- Poison of either word of a counter. -/
def State.counterPoison (s : State) (q : Access) : Except Stop Unit :=
  let hi : Loc := match q.loc with
    | .scratch c o => .scratch c (o + 4)
    | l => l
  s.poisonOf [q, { q with loc := hi }]

def cwaitBody (f : Ny) (w : Who) (s : State) : Res :=
  match s.counterPlace w f .read with
  | .error e => .error e
  | .ok q =>
    match s.counterPoison q with
    | .error e => .error e
    | .ok () =>
      match s.registerAll w f.spc 8 false false [q] with
      | .error e => .error e
      | .ok s =>
        let hi := if f.c = Operand.zero then 0 else (s.scalar w f.c).toNat % 2 ^ 30
        let target := (s.scalar w f.b).toNat + hi * 2 ^ 32
        match s.passChannels [q] with
        | .error e => .error e
        | .ok s =>
          let s := s.padOrderAll w f.spc [q]
          if target ≤ leNat (s.bytesAt q.loc 8) % 2 ^ 62 then
            .ok ((s.closeRegion w.agent).acquireCounter w.core q.loc)
          else .error (.wait none)

def execCwait (f : Ny) (s : State) : Out := .next (s.issue (.cwait f) 0x289 f false (cwaitBody f))

def caddBody (f : Ny) (w : Who) (s : State) : Res :=
  match s.counterPlace w f .write with
  | .error e => .error e
  | .ok q =>
    match s.counterPoison q with
    | .error e => .error e
    | .ok () =>
      match s.registerAll w f.spc 8 true true [q] with
      | .error e => .error e
      | .ok s =>
        let err : Bool := immInt f.c = 1
        let inc := (s.scalar w f.b).toNat
        match s.passChannels [q] with
        | .error e => .error e
        | .ok s =>
          (s.doorbellCheck w [q]).map fun _ =>
            let s := (s.doorbell w [q]).padOrderAll w f.spc [q]
            s.countAt w.agent (s.regionNo w.agent) w.core q.loc inc err

def execCadd (f : Ny) (s : State) : Out := .next (s.issue (.cadd f) 0x28A f false (caddBody f))

/-! ### Inbox (R228) -/

/-- The tag that an INBX asks for. -/
def State.inbxTag (s : State) (w : Who) (f : Ny) : Option (BitVec 16) :=
  if f.b = Operand.zero then none else some ((s.scalar w f.b).setWidth 16)

/-- The record that an INBX would take now. -/
def State.inbxRec (s : State) (w : Who) (f : Ny) : Option InboxRec :=
  ((s.home w).takeRec (s.inbxTag w f)).map (·.1)

/-- The record that the control thread's stalled CTINBX would take now (R257). -/
def Core.ctinbxRec (k : Core) : Option InboxRec :=
  match k.ct.stall with
  | some (.ctinbx _ rs1) =>
    let v := k.ct.reg rs1
    (k.takeRec (if v.getLsbD 16 then some (v.setWidth 16) else none)).map (·.1)
  | _ => none

/-- Micro-thread `m` of a core, led on core `l`, waits in an INBX that could take record `r`. -/
def State.takesRec (s : State) (core : Nat) (r : InboxRec) (l m : Nat) : Instr → Bool
  | .inbx g => s.inbxRec ⟨core, m, 0, 0⟩ g == some r &&
      s.couldComplete l m g g.vec fun x => (s.inbxRec x g).isSome && !(s.home x).outstanding x.agent
  | _ => false

/-- INBX: of several that could take one record, the control thread's CTINBX takes it, else the lower
micro-thread's (R228, R410). -/
def inbxBody (f : Ny) (w : Who) (s : State) : Res :=
  match (s.home w).takeRec (s.inbxTag w f) with
  | none => .error (.wait none)
  | some (r, k) =>
    if (s.home w).ctinbxRec == some r || s.lowerWaits w (s.takesRec w.core r) then .error (.wait none)
    else
      let s := ((s.setCore w.core k).closeRegion w.agent).writeDst w f.a fun l => r.words.getD l 0
      .ok (s.refill w.core)

def execInbx (f : Ny) (s : State) : Out := .next (s.issue (.inbx f) 0x28B f f.vec (inbxBody f))

def inbpBody (f : Ny) (w : Who) (s : State) : Res :=
  let n : Word := BitVec.ofNat 32 (s.home w).inbox.length
  .ok (s.writeDst w f.a fun _ => n)

def execInbp (f : Ny) (s : State) : Out := .next (s.issue (.inbp f) 0x28C f f.vec (inbpBody f))

/-! ### Tickets (R296, R297) -/

/-- The exhausted value of R229. -/
def exhausted : Nat := 0xFFFFFFFF

def remaining (r : Nat × Nat) : Nat := r.2 - r.1

/-- The die counter with the most indices left, ties to the lower die. -/
def fullest : Cells (Nat × Nat) → Option (Nat × Nat × Nat)
  | [] => none
  | (d, r) :: t =>
    match fullest t with
    | some (d', r') => if remaining r' ≤ remaining r then some (d, r) else some (d', r')
    | none => some (d, r)

/-- Steals the upper half of the fullest counter into an empty one. -/
def steal (ts : Cells (Nat × Nat)) (d : Nat) : Cells (Nat × Nat) :=
  match fullest ts with
  | none => ts
  | some (v, r) =>
    let n := (remaining r + 1) / 2
    (ts.upd v (r.1, r.2 - n)).upd d (r.2 - n, r.2)

/-- A claim at the counter of die `d`: the counters after it and the first index. -/
def claim (ts : Cells (Nat × Nat)) (d k : Nat) : Cells (Nat × Nat) × Nat :=
  let ts := if remaining (ts.look (0, 0) d) = 0 then steal ts d else ts
  let r := ts.look (0, 0) d
  if remaining r = 0 then (ts, exhausted) else (ts.upd d (r.1 + min k (remaining r), r.2), r.1)

/-- A claim by a core: its launch's counter, unless its pull permission is withdrawn (RSV = 1,
R330). A twin takes what its primary's claim returned; `none` while that has not been made
(R377). -/
def State.claimTicket (s : State) (c k : Nat) : Option (State × Nat) :=
  let x := s.core c
  match x.pair with
  | some ⟨_, true, _, _⟩ =>
    match x.claims with
    | [] => none
    | v :: rest => some (s.setCore c { x with claims := rest }, v)
  | pr =>
    let r : State × Nat :=
      match x.launch.bind s.node?, x.launch with
      | some n, some id =>
        if x.pwrreq.getLsbD 8 then (s, exhausted)
        else
          let q := claim n.tickets (coreDie c) k
          (s.setNode id { n with tickets := q.1 }, q.2)
      | _, _ => (s, exhausted)
    match pr with
    | some p => some (r.1.modCore p.other fun y => { y with claims := y.claims ++ [r.2] }, r.2)
    | none => some r

def ticketBody (f : Ny) (w : Who) (s : State) : Res :=
  let k : Word := if f.b = Operand.zero then 1 else s.scalar w f.b
  if k.toNat < 1 ∨ 64 < k.toNat then .error (outOfRange k)
  else
    match s.claimTicket w.core k.toNat with
    | none => .error (.stall none)
    | some (s, v) => .ok (s.writeDst w f.a fun _ => BitVec.ofNat 32 v)

def execTicket (f : Ny) (s : State) : Out := .next (s.issue (.ticket f) 0x28D f false (ticketBody f))

/-! ### ROLEQ (R230) -/

/-- The entry of a role with ABSENT, SELF and the reserved bits replaced. -/
def State.roleWord (s : State) (core role : Nat) : Word :=
  let e := (s.core core).bind role &&& ~~~0x00F80000#32
  match s.resolve core role with
  | .ok tg => if tg.isSelf (s.namedCore core) then e ||| 0x400000 else e
  | .error (.trap x) => if x.detail = 3 then e ||| 0x800000 else e
  | .error _ => e

def roleqBody (f : Ny) (w : Who) (s : State) : Res :=
  let ls := accLanes f.vec w
  let role (l : Nat) : Word := s.srcLane w .b32 true f.b l
  match ls.find? fun l => decide (255 < (role l).toNat) with
  | some l => .error (outOfRange (role l))
  | none => .ok (s.writeDst w f.a fun l => s.roleWord w.core (role l).toNat)

def execRoleq (f : Ny) (s : State) : Out := .next (s.issue (.roleq f) 0x28E f f.vec (roleqBody f))

end Sys2Proof.Machine
end

