-- ==== Sys2Proof/Machine/Matrix.lean ====
section
/-! DEFINITION. The matrix unit (R231 to R245): issue of class 0x300, the application of queued
instructions, drains, and the limiter's grants (R326 to R328). -/

namespace Sys2Proof.Machine

/-! ### Dispatch by a micro-thread (R231, R353, R364) -/

/-- Gives an operation of a member its SEQ. The member's earlier stores are performed before it (R86).
Under SYNC the step in progress, the leader's in a gang, waits for the operation (R364). -/
def State.dispatchOp (s : State) (w : Who) (op : Nat) (a b c : Word) (posts : Bool) :
    State × BitVec 16 :=
  let s := s.settle w.core w.mt
  let k := s.home w
  let lead := s.core s.curCore
  let pc := (lead.mt s.curMt).pc
  let s := s.setCore w.core (k.dispatch pc op w.mt false a b c)
  let waits := posts && lead.dbgctl.getLsbD w.mt && lead.dbgctl.getLsbD 16
  (if waits then
    s.modMt s.curCore w.mt fun t => { t with stepping := t.stepping ++ [(w.core, k.seq)] }
   else s, k.seq)

/-! ### Layout words and tiles (R234 to R236, R238) -/

def accNo : Operand → Nat
  | .special x => x.toNat - 16
  | _ => 0

def layBase (l : Word) : Nat := fieldOf (l.setWidth 64) 0 14 * 32
def laySpan (l : Word) : Nat := 16 * 2 ^ fieldOf (l.setWidth 64) 14 3
def laySwe (l : Word) : Bool := l.getLsbD 17
def layTrn (l : Word) : Bool := l.getLsbD 18
def laySel (l : Word) : Nat := fieldOf (l.setWidth 64) 19 2
def layPair (l : Word) : Nat := fieldOf (l.setWidth 64) 21 5
def laySce (l : Word) : Bool := l.getLsbD 26

/-- Bytes of a dense tile (R234). -/
def tileBytes (t : Ty) : Nat :=
  match t with
  | .bf16 => 8192
  | .e2m1 => 2048
  | _ => 4096

/-- Bytes of the tile an A operand names, compressed or dense. -/
def operandBytes (t : Ty) (sparse : Bool) : Nat :=
  if sparse then tileBytes t / 2 + 512 else tileBytes t

/-- The swizzled offset of a logical offset (R236). -/
def swizzle (swe : Bool) (span o : Nat) : Nat :=
  if swe then o ^^^ (o / span % (span / 16) * 16) else o

/-- Where the bytes of an operand lie: 16-byte granules with the metadata unswizzled. -/
def tileGranules (l : Word) (t : Ty) (sparse : Bool) : List Nat :=
  let vals := if sparse then tileBytes t / 2 else tileBytes t
  ((List.range (vals / 16)).map fun g => swizzle (laySwe l) (laySpan l) (layBase l + 16 * g)) ++
  (if sparse then (List.range 32).map fun g => layBase l + vals + 16 * g else [])

/-- A tile's bytes in element-index order (R244). -/
def Core.readTile (k : Core) (l : Word) (t : Ty) (sparse : Bool) : List Byte :=
  (tileGranules l t sparse).flatMap fun o => Memory.read k.scratch o 16

/-- Elements of bytes by type: 16, 8 or 4 bits, low nibble first (R235). -/
def codes (t : Ty) : List Byte → List Nat
  | a :: b :: rest =>
    match t with
    | .bf16 => (a.toNat + 256 * b.toNat) :: codes t rest
    | .e2m1 => [a.toNat % 16, a.toNat / 16, b.toNat % 16, b.toNat / 16] ++ codes t rest
    | _ => a.toNat :: b.toNat :: codes t rest
  | _ => []

/-- Cuts a list into rows of `n`. -/
def rowsOf {α : Type} (n : Nat) : Nat → List α → List (List α)
  | 0, _ => []
  | fuel + 1, xs => xs.take n :: rowsOf n fuel (xs.drop n)

def transposed {α : Type} (d : α) (n : Nat) (rows : List (List α)) : List (List α) :=
  (List.range n).map fun i => rows.map fun r => r.getD i d

/-- One group of a compressed row: two values for the set bits of a mask (R238). -/
def expandGroup (mask : Nat) (vs : List Nat) : List (Option Nat) :=
  (List.range 4).map fun i =>
    let before := (List.range i).countP fun j => mask / 2 ^ j % 2 == 1
    if mask / 2 ^ i % 2 = 1 then vs[before]? else none

/-- Rows of the A tile: `none` where a compressed tile holds no value. -/
def aRows (t : Ty) (l : Word) (sparse : Bool) (bs : List Byte) : List (List (Option Nat)) :=
  if sparse then
    let n := tileBytes t / 2
    let vals := rowsOf 32 64 (codes t (bs.take n))
    let metas := rowsOf 8 64 (bs.drop n)
    (vals.zip metas).map fun r =>
      let m := leNat r.2
      ((rowsOf 2 16 r.1).zipIdx).flatMap fun g => expandGroup (m / 2 ^ (4 * g.2) % 16) g.1
  else
    let rows := (rowsOf 64 64 (codes t bs)).map fun r => r.map some
    if layTrn l then transposed none 64 rows else rows

/-- Columns of the B tile. -/
def bCols (t : Ty) (l : Word) (bs : List Byte) : List (List (Option Nat)) :=
  let rows := (rowsOf 64 64 (codes t bs)).map fun r => r.map some
  if layTrn l then rows else transposed none 64 rows

/-- The scale of row or column `r` in K-block `b`, of the words read at issue; 127 stands for
no scale (R105). -/
def scaleOf (l : Word) (ws : List Word) (r b : Nat) : Nat :=
  if laySce l then (wbyte (ws.getD r 0) ((laySel l + b) % 4)).toNat else 127

/-- The product of one position: +0 where A holds no value. -/
def mmaProduct (nbv : Nat) (t : Ty) (a b : Option Nat) (ea eb : Nat) : FVal :=
  match a with
  | none => FVal.zero false
  | some x => scaled eb (scaled ea (product nbv t x (b.getD 0)))

/-- The scales of a row or column, for K-blocks 0 and 1. -/
def scalePair (l : Word) (ws : List Word) (r : Nat) : Nat × Nat := (scaleOf l ws r 0, scaleOf l ws r 1)

/-- One cell: the chunks of 64 products over its old value (R237, R238). -/
def mmaCell (nbv : Nat) (t : Ty) (c : Word) (row col : List (Option Nat)) (sa sb : Nat × Nat) : Word :=
  let pick (p : Nat × Nat) (k : Nat) : Nat := if k < 32 then p.1 else p.2
  let ps := ((row.zip col).zipIdx).map fun x =>
    mmaProduct nbv t x.1.1 x.1.2 (pick sa x.2) (pick sb x.2)
  accChunks (chunkSize nbv) c 4 ps

/-- The 4,096 new values of a bank. -/
def mmaBank (nbv : Nat) (t : Ty) (old : List Word) (rows cols : List (List (Option Nat)))
    (sa sb : Nat → Nat × Nat) : List Word :=
  (rows.zipIdx.zip (rowsOf 64 64 old)).flatMap fun x =>
    (cols.zipIdx.zip x.2).map fun y => mmaCell nbv t y.2 x.1.1 y.1.1 (sa x.1.2) (sb y.1.2)

/-- The values of a bank in order, and a bank's values from a list. -/
def bankList (v : Cells Word) : List Word := (List.range 4096).map fun i => Cells.look 0 v i
def bankCells (ws : List Word) : Cells Word :=
  (ws.zipIdx.map fun x => (x.2, x.1)).filter fun x => x.2 != 0

/-! ### Issue -/

/-- The chain's bank list holds a bank, or a queued chain of its own does (R241). -/
def Core.bankHeld (k : Core) (acc : Nat) : Bool :=
  (match k.mx.chain with
   | some ch => ch.holds.contains acc
   | none => false) ||
  k.mx.queue.any fun o => o.lone && o.acc == acc

/-- Another micro-thread's chain is open (R241). -/
def Core.chainOther (k : Core) (m : Nat) : Bool :=
  match k.mx.chain with
  | some ch => ch.owner != m
  | none => false

def Core.mxFull (k : Core) : Bool := decide (16 ≤ k.mx.queue.length)
def Core.pushMx (k : Core) (o : MxOp) : Core := { k with mx := { k.mx with queue := k.mx.queue ++ [o] } }

/-- R239's check of one layout word. -/
def layOk (t : Ty) (l : Word) (noTrn : Bool) : Bool :=
  l.toNat / 2 ^ 27 == 0 && !(laySce l && t == .bf16) && !(noTrn && layTrn l)

/-- A range of scratchpad bytes ends below the neighbour windows. -/
def belowWindows (off n : Nat) : Bool := decide (off + n ≤ 0x7A000)

/-- The 64 words that hold an operand's scales (R105). -/
def Mt.scaleWords (t : Mt) (l : Word) : List Word :=
  if laySce l then
    (List.range 64).map fun r => t.vlane (2 * layPair l + r / 32) (r % 32)
  else []

/-- The instruction being issued is under no REP, or at its last repeat: its hints act (R124). -/
def State.lastRepeat (s : State) : Bool := decide ((s.mt s.curCore s.curMt).repcnt ≤ 1)

def mmaBody (f : Ny) (sparse : Bool) (op : Nat) (w : Who) (s : State) : Res :=
  let t := s.self w
  let la := s.scalar w f.b
  let lb := s.scalar w f.c
  if !layOk f.ty la sparse then .error (outOfRange la)
  else if !layOk f.ty lb false then .error (outOfRange lb)
  else if !belowWindows (layBase la) (operandBytes f.ty sparse) then
    .error (exnAddr 5 0 (BitVec.ofNat 64 (layBase la)) 0)
  else if !belowWindows (layBase lb) (tileBytes f.ty) then
    .error (exnAddr 5 0 (BitVec.ofNat 64 (layBase lb)) 0)
  else
    let k := s.home w
    if k.mxFull || k.chainOther w.mt then .error (.stall none)
    else
      let acc := accNo f.a
      let kind : MxKind := .mma sparse f.ty la lb (t.scaleWords la) (t.scaleWords lb) (f.hint.keep && s.lastRepeat)
      let r := s.dispatchOp w op (BitVec.ofNat 32 acc) la lb true
      let o : MxOp := match k.mx.chain with
        | some ch =>
          ⟨kind, acc, w.mt, r.2, if ch.dual then some ch.seq else none, !ch.started, false, k.nbv, k.issued⟩
        | none => ⟨kind, acc, w.mt, r.2, none, true, true, k.nbv, k.issued⟩
      .ok (r.1.modHome w fun k =>
        { (k.pushMx o) with mx := { (k.pushMx o).mx with
            chain := k.mx.chain.map fun ch =>
              { ch with started := true, holds := (ch.holds ++ [acc]).dedup } } })

def execMma (f : Ny) (s : State) : Out := .next (s.issue (.mma f) 0x300 f false (mmaBody f false 0x300))
def execMmas (f : Ny) (s : State) : Out := .next (s.issue (.mmas f) 0x301 f false (mmaBody f true 0x301))

/-- Queues a bank instruction. -/
def State.queueMx (s : State) (w : Who) (op : Nat) (kind : MxKind) (acc : Nat) (a b c : Word) : Res :=
  if (s.home w).mxFull then .error (.stall none)
  else
    let r := s.dispatchOp w op a b c true
    let k := s.home w
    .ok (r.1.modHome w (·.pushMx ⟨kind, acc, w.mt, r.2, none, false, false, k.nbv, k.issued⟩))

def mzeroBody (f : Ny) (w : Who) (s : State) : Res :=
  s.queueMx w 0x302 .zero (accNo f.a) (BitVec.ofNat 32 (accNo f.a)) 0 0

def execMzero (f : Ny) (s : State) : Out := .next (s.issue (.mzero f) 0x302 f false (mzeroBody f))

/-- The checks of a bank's memory image (R240). -/
def imageCheck (off : Word) (n : Nat) : Except Stop Unit :=
  let a : DWord := off.setWidth 64
  if off.toNat % 32 ≠ 0 then .error (exnAddr 4 0 a 0)
  else need (belowWindows off.toNat n) (exnAddr 5 0 a 0)

def mfillBody (f : Ny) (w : Who) (s : State) : Res :=
  let off := s.scalar w f.b
  match imageCheck off 16384 with
  | .error e => .error e
  | .ok () => s.queueMx w 0x303 (.fill off.toNat) (accNo f.a) (BitVec.ofNat 32 (accNo f.a)) off 0

def execMfill (f : Ny) (s : State) : Out := .next (s.issue (.mfill f) 0x303 f false (mfillBody f))

def mdrainBody (f : Ny) (w : Who) (s : State) : Res :=
  let off := s.scalar w f.a
  let bf : Bool := f.ty = .bf16
  match imageCheck off (if bf then 8192 else 16384) with
  | .error e => .error e
  | .ok () =>
    let tag : BitVec 16 := BitVec.ofInt 16 (immInt f.c)
    s.queueMx w 0x304 (.drain bf off.toNat tag) (accNo f.b) off (BitVec.ofNat 32 (accNo f.b))
      (tag.setWidth 32)

def execMdrain (f : Ny) (s : State) : Out := .next (s.issue (.mdrain f) 0x304 f false (mdrainBody f))

def chbegBody (f : Ny) (w : Who) (s : State) : Res :=
  let k := s.home w
  match k.mx.chain with
  | some ch => if ch.owner = w.mt then .error (exnVal 13 1 0) else .error (.stall none)
  | none =>
    if k.mxFull then .error (.stall none)
    else
      let dual : Bool := f.md = 1
      let r := s.dispatchOp w 0x305 0 0 0 false
      let o : MxOp := ⟨.chbeg dual, 0, w.mt, r.2, none, false, false, k.nbv, k.issued⟩
      .ok (r.1.modHome w fun k =>
        { (k.pushMx o) with mx := { (k.pushMx o).mx with chain := some ⟨w.mt, r.2, dual, false, []⟩ } })

def execChbeg (f : Ny) (s : State) : Out := .next (s.issue (.chbeg f) 0x305 f false (chbegBody f))

def execChend (f : Ny) (s : State) : Out :=
  .next (s.issue (.chend f) 0x306 f false fun w s => .ok (s.modHome w (·.closeChain w.mt)))

/-- SPFENCE stalls while an earlier instruction has not read its operands, then steps SPGEN. -/
def spfenceBody (w : Who) (s : State) : Res :=
  if (s.home w).mx.queue.isEmpty then
    .ok (s.modHome w fun k => { k with mx := { k.mx with spgen := k.mx.spgen + 1, cache := [] } })
  else .error (.stall none)

def execSpfence (f : Ny) (s : State) : Out :=
  .next (s.issue (.spfence f) 0x307 f false fun w s => spfenceBody w s)

/-! ### The unit at work (R232, R237, R243, R244) -/

def TileEntry.is (e : TileEntry) (l : Word) (t : Ty) (sparse : Bool) (gen : Nat) : Bool :=
  e.layout == l.toNat % 2 ^ 19 && e.ty == t && e.sparse == sparse && e.gen == gen

/-- A full cache loses its least recently used entry without KEEP, else its least recently used.
Entries are kept least recently used first. -/
def evict (es : List TileEntry) : List TileEntry :=
  if es.length < 16 then es
  else if es.any (!·.keep) then es.eraseP (!·.keep) else es.drop 1

/-- A fetch through the cache: the bytes and the cache after it. -/
def Core.fetchTile (k : Core) (l : Word) (t : Ty) (sparse keep : Bool) : List Byte × Core :=
  let hit (e : TileEntry) : Bool := e.is l t sparse k.mx.spgen.toNat
  match k.mx.cache.find? hit with
  | some e =>
    (e.data, { k with mx := { k.mx with
        cache := k.mx.cache.eraseP hit ++ [{ e with keep := e.keep || keep }] } })
  | none =>
    let d := k.readTile l t sparse
    let e : TileEntry := ⟨l.toNat % 2 ^ 19, t, sparse, k.mx.spgen.toNat, keep, d⟩
    (d, { k with mx := { k.mx with cache := evict k.mx.cache ++ [e] } })

/-- Poison that a missing fetch of a tile would read. -/
def State.tilePoison (s : State) (c : Nat) (l : Word) (t : Ty) (sparse : Bool) : Option ErrorSite :=
  let k := s.core c
  if k.mx.cache.any fun e => e.is l t sparse k.mx.spgen.toNat then none
  else
    ((tileGranules l t sparse).flatMap fun o => [o, o + 4, o + 8, o + 12]).findSome? fun o =>
      if s.poison.contains (.scratchWord c o) then some (.scratchWord c o) else none

/-- Poison of a bank's words. -/
def State.bankPoison (s : State) (c b : Nat) : Option ErrorSite :=
  s.poison.find? fun e => match e with
    | .bankWord x y _ => x == c && y == b
    | _ => false

/-- A write of every value of a bank clears its poison (R385). -/
def State.cleanBank (s : State) (c b : Nat) : State :=
  { s with poison := s.poison.filter fun e => match e with
    | .bankWord x y _ => !(x == c && y == b)
    | _ => true }

/-- The ramp entry in force once a run of work (in eighths of a full cycle) is done: each entry
lasts 4 cycles (R327). -/
def rampAfter (e work : Nat) : Nat → Nat
  | 0 => e
  | fuel + 1 => if 8 ≤ e then 8 else if work ≤ 4 * e then e else rampAfter (e + 1) (work - 4 * e) fuel

/-- Full cycles of an instruction's work, in eighths (R19, R238, R243). -/
def mmaWork (t : Ty) (sparse dual : Bool) : Nat :=
  let full := match t with
    | .bf16 => 64
    | .e4m3 | .e5m2 => 32
    | _ => 16
  8 * full / (if sparse then 2 else 1) * (if dual then 2 else 1)

/-- The chain of the instruction just applied is over: it stood alone, or its chain has closed
and no instruction of it is left. -/
def Matrix.chainOver (x : Matrix) (o : MxOp) : Bool :=
  match x.queue.find? (·.isMma) with
  | some p => p.start
  | none => o.lone || (match x.chain with
    | some ch => !ch.started
    | none => true)

/-- Applies one MMA or MMAS to its bank, and to the shadow of a redundant chain with the errors
of its second half (R237, R243). -/
def Core.applyMma (k : Core) (o : MxOp) (sparse : Bool) (t : Ty) (la lb : Word) (sa sb : List Word)
    (keep : Bool) (flt : List (Nat × Word)) : Core :=
  let a := k.fetchTile la t sparse keep
  let b := a.2.fetchTile lb t false keep
  let k := b.2
  let rows := aRows t la sparse a.1
  let cols := bCols t lb b.1
  let run (old : Cells Word) : List Word :=
    mmaBank o.nbv.toNat t (bankList old) rows cols (scalePair la sa) (scalePair lb sb)
  let bank := k.bank o.acc
  let shadow : Option (Cells Word × BitVec 16) := match o.dual with
    | none => none
    | some q =>
      let old := match bank.shadow with
        | some (v, q') => if q = q' then v else bank.val
        | none => bank.val
      let v := bankCells (run old)
      some (flt.foldl (fun v x => v.put 0 x.1 (v.look 0 x.1 ^^^ x.2)) v, q)
  let k := k.modBank o.acc fun bk => { bk with val := bankCells (run bank.val), shadow := shadow }
  let ramp := rampAfter (max 1 k.mx.ramp) (mmaWork t sparse o.dual.isSome) 8
  { k with mx := { k.mx with
      granted := false, ramp := ramp, down := k.mx.chainOver o } }

/-- An event-unit action that issued earlier still has to write the bank (R233). -/
def Core.evBefore (k : Core) (o : MxOp) : Bool :=
  k.evq.any fun e => decide (e.ord < o.ord) &&
    (match e.kind with
     | .ncfg a .. | .nint a .. | .nleak a | .nfire _ _ a | .racc a .. => a == o.acc
     | _ => false)

/-- The limiter step that begins at or after now: steps last 4 cycles of OP5, 1.3 GHz, and count
from package reset (R326). -/
def State.nextLimiterStep (s : State) : Nat := (s.now * 13 + 39) / 40

/-- The core's matrix start waits for a grant: it asks its quadrant's limiter (R326), with the first
step that may grant it. -/
def State.askGrant (s : State) (c : Nat) : State :=
  let q := quadOf c
  let rs := s.limiters.look [] q
  if rs.any (·.2 == c) then s
  else { s with limiters := s.limiters.put [] q (rs ++ [(s.nextLimiterStep, c)]) }

/-- A matrix start that still waits for its grant is at the head of the core's queue. -/
def Core.wantsGrant (k : Core) : Bool :=
  match k.mx.queue with
  | o :: _ => o.isMma && o.start && !k.mx.granted && !k.mx.down
  | [] => false

def Matrix.pop (x : Matrix) : Matrix := { x with queue := x.queue.drop 1 }

/-- MATRIX_INSTRUCTION_APPLIED: the head of the queue is executed and applied as a whole. A
drain is completed by its own step; a frozen core starts nothing (R358). -/
def execMatrixInstructionApplied (c : Nat) (flt : List (Nat × Word)) (s : State) : Out :=
  let k := s.core c
  match k.mx.queue with
  | [] => .next s
  | o :: _ =>
    if k.frozen || k.evBefore o then .next s
    else
      let popped := s.modCore c fun k => { k with mx := k.mx.pop }
      match o.kind with
      | .chbeg _ => .next popped
      | .drain .. => .next s
      | .zero =>
        let s := popped.modCore c (·.modBank o.acc fun b => { b with val := [], shadow := none })
        .next ((s.cleanBank c o.acc).opDone c o.mt o.seq)
      | .fill off =>
        match ((List.range 4096).map fun i => ErrorSite.scratchWord c (off + 4 * i)).find?
            fun e => s.poison.contains e with
        | some e => .next (s.consumePoison c e)
        | none =>
          let v := bankCells ((List.range 4096).map fun i => Memory.word k.scratch (off + 4 * i))
          let s := popped.modCore c (·.modBank o.acc fun b => { b with val := v, shadow := none })
          .next ((s.cleanBank c o.acc).opDone c o.mt o.seq)
      | .mma sparse t la lb sa sb keep =>
        if o.start && !k.mx.granted && !k.mx.down then .next (s.askGrant c)
        else
          match (s.tilePoison c la t sparse).or ((s.tilePoison c lb t false).or (s.bankPoison c o.acc)) with
          | some e => .next (s.consumePoison c e)
          | none =>
            let s := popped.modCore c fun k => k.applyMma o sparse t la lb sa sb keep flt
            .next (s.opDone c o.mt o.seq)

/-- The words that a drain writes (R240). -/
def drainWords (bf : Bool) (v : List Word) : List Word :=
  if bf then
    (rowsOf 2 2048 v).map fun p =>
      (roundBf16 (fp32 (p.getD 1 0)) .rne ++ roundBf16 (fp32 (p.getD 0 0)) .rne : BitVec 32)
  else v

/-- Words written from a scratchpad offset. -/
def State.writeScratch (s : State) (c : Nat) : Nat → List Word → State
  | _, [] => s
  | off, w :: ws => State.writeScratch (s.writeW (.scratch c off) w) c (off + 4) ws

/-- The shadow of a bank differs from its values: the SEQ of the CHBEG (R243). -/
def Bank.mismatch (b : Bank) : Option (BitVec 16) :=
  match b.shadow with
  | some (v, q) => if v = b.val then none else some q
  | none => none

/-- What a .dual mismatch reports: the late fault, the containment record and one count against
the core's matrix array (R381). -/
def State.dualMismatch (s : State) (c m acc : Nat) (q : BitVec 16) : State :=
  let k := s.core c
  let s := s.engineFault c 2 m 0x21 q (BitVec.ofNat 32 (5 + acc * 256)) 0
  let s := s.contain { Containment.plain 4 with
    ctxw := k.inc.toNat * 65536 + k.ctx.toNat, core0 := some c }
  match execCorrectedError (coreDie c) (quadOf c % 4) 7 s with
  | .next s => s
  | _ => s

/-- MDRAIN_COMPLETION: the drain at the head of the queue writes its bank and posts its record,
or reports a mismatch (R240, R243, R381). -/
def execMdrainCompletion (c : Nat) (s : State) : Out :=
  let k := s.core c
  match k.mx.queue with
  | o :: _ =>
    match o.kind with
    | .drain bf off tag =>
      if k.frozen || k.evBefore o then .next s
      else
        match s.bankPoison c o.acc with
        | some e => .next (s.consumePoison c e)
        | none =>
          let s := s.modCore c fun k => { k with mx := k.mx.pop }
          let b := k.bank o.acc
          match b.mismatch with
          | some q =>
            .next ((s.dualMismatch c o.mt o.acc q).postRecord c ⟨0, 0, o.seq, 5, 2, tag⟩)
          | none =>
            let s := s.writeScratch c off (drainWords bf (bankList b.val))
            .next (s.postRecord c ⟨0, 0, o.seq, 0, 2, tag⟩)
    | _ => .next s
  | [] => .next s

/-! ### The limiter (R326, R328) -/

/-- Order of requests: by step, then by core number. -/
def askBefore (a b : Nat × Nat) : Bool := decide (a.1 < b.1) || (a.1 == b.1 && decide (a.2 ≤ b.2))

/-- The limiter grants a core's request: its unit begins to ramp at entry 1. -/
def Core.grant (k : Core) : Core := { k with mx := { k.mx with granted := true, ramp := 1, down := false } }

/-- The requests that a step of a quadrant's limiter serves, oldest first: those of starts that still
wait, made up to the boundary at which the step began. -/
def State.grantable (s : State) (q : Nat) : List (Nat × Nat) :=
  (sortBy askBefore (s.limiters.look [] q)).filter fun r =>
    decide (r.1 < s.nextLimiterStep) && (s.core r.2).wantsGrant

/-- LIMITER_STEP: a step grants at most the two oldest requests of its quadrant, and each step of 4
cycles grants once. It runs after every request of its boundary has been made. -/
def execLimiterStep (q : Nat) (s : State) : Out :=
  if s.nextLimiterStep ≤ s.limiterAt.look 0 q then .next s
  else
    let rs := (s.grantable q).take 2
    let s :=
      { s with
        limiters := s.limiters.put [] q ((s.limiters.look [] q).filter fun r =>
          !rs.contains r && (s.core r.2).wantsGrant)
        limiterAt := s.limiterAt.put 0 q s.nextLimiterStep }
    .next (rs.foldl (fun s r => s.modCore r.2 Core.grant) s)

/-- The fillers of the entry in force run out: the next lower entry follows, and after entry 1 the
unit is quiet (R328). -/
def Matrix.rampDown (x : Matrix) : Matrix :=
  if x.down then
    if x.ramp ≤ 1 then { x with down := false, ramp := 0 } else { x with ramp := x.ramp - 1 }
  else x

/-- RAMP_DOWN_END: an entry's fillers run out after their four cycles (log 36). -/
def execRampDownEnd (c : Nat) (s : State) : Out :=
  .next (s.modCore c fun k => { k with mx := k.mx.rampDown })

end Sys2Proof.Machine
end

