-- ==== Sys2Proof/Machine/Copy.lean ====
section
/-! DEFINITION. The tensor copy engine (R247 to R253): requests and their checks, CPY and CPYG,
the walk of the box, reduce-on-store (R109, R250), completions (R86 to R88, R215, R352). -/

namespace Sys2Proof.Machine

/-! ### Request fields (R247) -/

def CopyReq.opc (r : CopyReq) : Nat := fieldOf r.w0 0 4
def CopyReq.dir (r : CopyReq) : Bool := r.w0.getLsbD 4
def CopyReq.sspc (r : CopyReq) : Nat := fieldOf r.w0 5 3
def CopyReq.dspc (r : CopyReq) : Nat := fieldOf r.w0 8 3
def CopyReq.cmpl (r : CopyReq) : Bool := r.w0.getLsbD 11
def CopyReq.fill (r : CopyReq) : Nat := fieldOf r.w0 12 2
def CopyReq.swz (r : CopyReq) : Bool := r.w0.getLsbD 14
def CopyReq.span (r : CopyReq) : Nat := 16 * 2 ^ fieldOf r.w0 15 3
def CopyReq.phe (r : CopyReq) : Bool := r.w0.getLsbD 18
def CopyReq.ph (r : CopyReq) : Nat := fieldOf r.w0 19 4
def CopyReq.sle (r : CopyReq) : Bool := r.w0.getLsbD 23
def CopyReq.slice (r : CopyReq) : Nat := fieldOf r.w0 24 12
def CopyReq.descSpc (r : CopyReq) : Nat := fieldOf r.w1 48 3
def CopyReq.descAddr (r : CopyReq) : Nat := fieldOf r.w1 0 48
def CopyReq.rmask (r : CopyReq) : Word := r.w2.setWidth 32
def CopyReq.doff (r : CopyReq) : Nat := fieldOf r.w2 32 19
def CopyReq.rbase (r : CopyReq) : Nat := fieldOf r.w2 51 8
def CopyReq.inc (r : CopyReq) : Nat := fieldOf r.w3 51 13
def CopyReq.ctrSpc (r : CopyReq) : Nat := fieldOf r.w3 48 3
def CopyReq.ctrAddr (r : CopyReq) : Nat := fieldOf r.w3 0 48
def CopyReq.tag (r : CopyReq) : BitVec 16 := if r.cmpl then 0 else r.w3.setWidth 16
/-- Reduce-on-store. -/
def CopyReq.isRed (r : CopyReq) : Bool := r.opc == 2 || r.opc == 3 || r.opc == 4
/-- Spaces of the dense side and of the tensor side. -/
def CopyReq.denseSpc (r : CopyReq) : Nat := if r.dir then r.sspc else r.dspc
def CopyReq.tensorSpc (r : CopyReq) : Nat := if r.dir then r.dspc else r.sspc

def CopyReq.ofBytes (bs : List Byte) : CopyReq :=
  let w (i : Nat) : DWord := BitVec.ofNat 64 (leNat ((bs.drop (8 * i)).take 8))
  ⟨w 0, w 1, w 2, w 3⟩

/-- Role numbers that RMASK names. -/
def CopyReq.roles (r : CopyReq) : List Nat :=
  ((List.range 32).filter fun i => r.rmask.getLsbD i).map (r.rbase + ·)

def spaceOk (n : Nat) : Bool := decide (1 ≤ n ∧ n ≤ 5)

/-! ### The precise checks (R252, R256; DETAIL by R367) -/

/-- Word 3: the counter's space, or zeros above the tag. -/
def CopyReq.doneOk (r : CopyReq) : Bool :=
  if r.cmpl then spaceOk r.ctrSpc else fieldOf r.w3 16 48 == 0

/-- The counter's address is aligned. -/
def CopyReq.ctrAligned (r : CopyReq) : Bool := !(r.cmpl && r.ctrAddr % 8 != 0)

/-- Reserved bits and codes. -/
def CopyReq.codesOk (r : CopyReq) : Bool :=
  fieldOf r.w0 36 28 == 0 && (r.opc == 0 || r.opc == 1 || r.isRed) && spaceOk r.sspc &&
  spaceOk r.dspc && r.fill != 3 && fieldOf r.w1 51 13 == 0 &&
  (r.descSpc == 1 || r.descSpc == 4) &&
  (if r.opc = 1 then fieldOf r.w2 59 5 == 0
   else decide (r.denseSpc < 4) || canonical r.w2) && r.doneOk

/-- The requirements of R250 and R251 that the request fixes. -/
def CopyReq.needsOk (r : CopyReq) : Bool :=
  if r.isRed then r.dir && r.fill == 0 && decide (3 ≤ r.dspc)
  else if r.opc = 1 then !r.dir && r.dspc == 1 && r.roles.all fun x => decide (x < 256)
  else true

def CopyReq.alignedOk (r : CopyReq) : Bool :=
  r.descAddr % 64 == 0 && !(r.opc == 1 && r.doff % 32 != 0) && r.ctrAligned

/-- The handle of PHE, bound as producer. -/
def Mt.producer (t : Mt) (h : Nat) : Option Handle :=
  match t.handle h with
  | some x => if x.prod then some x else none
  | none => none

/-- Multicast targets, by the endpoints of their home slices: every role at core level or below
(R251). -/
def State.copyTargets (s : State) (core : Nat) : List Nat → Except Stop (List Nat)
  | [] => .ok []
  | r :: rs =>
    match s.resolve core r with
    | .error e => .error e
    | .ok tg =>
      match tg.coreOf with
      | none => .error (exnVal 8 4 (BitVec.ofNat 32 r))
      | some c =>
        match State.copyTargets s core rs with
        | .error e => .error e
        | .ok eps => .ok (tg.slice c :: eps)

/-- L of the core's launch; with no launch there is no slice. -/
def State.slicesOf (s : State) (core : Nat) : Nat :=
  (((s.core core).launch.bind s.node?).map (·.slices)).getD 0

/-- The checks of a request before those of a stream: its targets. `mt`: the micro-thread whose
handles PHE names, none for the control thread. -/
def State.copyCheck (s : State) (core : Nat) (t : Option Mt) (r : CopyReq) :
    Except Stop (List Nat) :=
  if !r.codesOk then .error (exn 11 1)
  else if !r.needsOk then .error (exn 11 2)
  else if !r.alignedOk then .error (exn 11 7)
  else if r.swz && decide (2 < r.denseSpc) then .error (exn 11 3)
  else
    let handle : Except Stop Unit := match t with
      | none => need (!r.phe) (exn 11 8)
      | some t => need (!r.phe || (t.producer r.ph).isSome) (queueStop 8 r.ph)
    match handle with
    | .error e => .error e
    | .ok () => if r.opc = 1 then s.copyTargets core r.roles else .ok []

/-- The last check: SLICE below L. -/
def State.sliceCheck (s : State) (core : Nat) (r : CopyReq) : Except Stop Unit :=
  need (!r.sle || decide (r.slice < s.slicesOf core)) (exn 11 6)

/-! ### The dispatch queue (R231, R232, R256) -/

/-- Requests that have not started. -/
def Core.waitingCopies (k : Core) : Nat := k.copies.countP (!·.started)

/-- The dispatch queue takes FIFO entries while it has room, unless a migration holds it. -/
def Core.pullFifo (k : Core) : Core :=
  let n := 16 - k.waitingCopies
  if k.frozen then k else { k with copies := k.copies ++ k.fifo.take n, fifo := k.fifo.drop n }

/-- A request before it has started. -/
def CopyOp.new (r : CopyReq) (mask : Option (BitVec 256)) (mt : Nat) (ct : Bool)
    (seq : BitVec 16) (stream : Option Nat) (targets : List Nat) (grp : Nat)
    (queue : Option (Nat × Option Nat)) : CopyOp :=
  { req := r, mask := mask, mt := mt, ct := ct, seq := seq, stream := stream, targets := targets
    grp := grp, queue := queue, qhandle := r.ph, desc := none, next := 0, total := 0, status := 0
    offs := 0, ahead := [], part := [], red := [], started := false, reads := [], stage := 0 }

/-- The group that a multicast takes for its targets, and holds until it completes (R309). -/
def State.copyGroup (s : State) (core : Nat) (r : CopyReq) (targets : List Nat) : Option (Nat × State) :=
  if r.opc = 1 then
    (s.takeGroup (coreDie core) targets 1).map fun x => (coreDie core * 4096 + x.1, x.2.2)
  else some (0, s)

/-- Reads a request in the core's scratchpad (R252). -/
def State.readRequest (s : State) (core : Nat) (off : Word) : Except Stop CopyReq :=
  let a : DWord := off.setWidth 64
  if off.toNat % 32 ≠ 0 then .error (exnAddr 4 0 a 0)
  else if 0x7FFE0 < off.toNat then .error (exnAddr 5 0 a 0)
  else
    let s := s.padView core
    match (List.range 8).find? fun i => s.poisoned (.scratch core (off.toNat + 4 * i)) with
    | some i => .error (.poison (.scratchWord core (off.toNat + 4 * i)))
    | none => .ok (.ofBytes (s.readLoc (.scratch core off.toNat) 32))

/-- Queues a checked request of a micro-thread. -/
def State.queueCopy (s : State) (w : Who) (op : Nat) (r : CopyReq) (mask : Option (BitVec 256))
    (stream : Option Nat) (targets : List Nat) (off b : Word) : Res :=
  let k := s.home w
  if 16 ≤ k.waitingCopies ∨ k.fifo ≠ [] then .error (.stall none)
  else
    match s.copyGroup w.core r targets with
    | none => .error (.stall none)
    | some (g, s) =>
      let queue := if r.phe then ((s.self w).producer r.ph).map fun h => (h.key, h.port) else none
      let d := s.dispatchOp w op off b 0 true
      let o := CopyOp.new r mask w.mt false d.2 stream targets g queue
      let s := d.1.modHome w fun k => { k with copies := k.copies ++ [o] }
      .ok (match stream with
        | some q => s.modSelf w fun t => t.setStream q (.bound d.2 [] false false)
        | none => s)

/-- The stream operand of CPY: an armed register and a copy that can feed it. -/
def streamOk (t : Mt) (r : CopyReq) : Operand → Except Stop (Option Nat)
  | .stream q =>
    if t.stream q.toNat ≠ .armed then .error (exnVal 10 1 (q.setWidth 32))
    else if r.dir || r.opc != 0 || r.fill == 0 then .error (exnVal 11 4 (q.setWidth 32))
    else .ok (some q.toNat)
  | _ => .ok none

def cpyBody (f : Ny) (w : Who) (s : State) : Res :=
  let off := s.scalar w f.a
  match s.readRequest w.core off with
  | .error e => .error e
  | .ok r =>
    match s.copyCheck w.core (some (s.self w)) r with
    | .error e => .error e
    | .ok tgs =>
      match streamOk (s.self w) r f.b with
      | .error e => .error e
      | .ok q =>
        match s.sliceCheck w.core r with
        | .error e => .error e
        | .ok () => s.queueCopy w 0x308 r none q tgs off (BitVec.ofNat 32 (q.getD 0))

def execCpy (f : Ny) (s : State) : Out := .next (s.issue (.cpy f) 0x308 f false (cpyBody f))

/-- The 256-bit row mask of CPYG: bit i is bit i mod 32 of lane i div 32. -/
def State.rowMask (s : State) (w : Who) (o : Operand) : BitVec 256 :=
  BitVec.ofNat 256 (packElems 32 ((List.range 8).map fun l => (s.srcLane w .b32 true o l).toNat))

def cpygBody (f : Ny) (w : Who) (s : State) : Res :=
  let off := s.scalar w f.a
  match s.readRequest w.core off with
  | .error e => .error e
  | .ok r =>
    if r.opc ≠ 0 ∨ r.dir then .error (exn 11 5)
    else
      match s.copyCheck w.core (some (s.self w)) r with
      | .error e => .error e
      | .ok tgs =>
        match s.sliceCheck w.core r with
        | .error e => .error e
        | .ok () =>
          s.queueCopy w 0x309 r (some (s.rowMask w f.b)) none tgs off (s.srcLane w .b32 true f.b 0)

def execCpyg (f : Ny) (s : State) : Out := .next (s.issue (.cpyg f) 0x309 f false (cpygBody f))

/-! ### The descriptor (R248) -/

abbrev Desc := BitVec 512

def Desc.bits (d : Desc) (lo n : Nat) : Nat := d.toNat / 2 ^ lo % 2 ^ n
def signed (w x : Nat) : Int := if 2 ^ (w - 1) ≤ x then (x : Int) - 2 ^ w else x
def Desc.ndim (d : Desc) : Nat := Desc.bits d 52 3 + 1
def Desc.extent (d : Desc) (i : Nat) : Nat := Desc.bits d (472 + 8 * i) 8 + 1
def Desc.origin (d : Desc) (i : Nat) : Int := signed 25 (Desc.bits d (344 + 25 * i) 25)
def Desc.stride (d : Desc) (i : Nat) : Int := signed 40 (Desc.bits d (184 + 40 * (i - 1)) 40)
def Desc.size (d : Desc) (i : Nat) : Nat := Desc.bits d (64 + 24 * i) 24 + 1
def Desc.base (d : Desc) : Nat := Desc.bits d 0 48
def Desc.ety (d : Desc) : Option Ty := Ty.ofCode (Desc.bits d 48 4)
/-- Bytes of an element; the 4-bit types count bytes. -/
def elemSize (t : Ty) : Nat := if 32 ≤ t.width then 4 else if 16 ≤ t.width then 2 else 1
def Desc.dims (d : Desc) : List Nat := List.range (Desc.ndim d)

/-- Rows that a gather selects, ascending. -/
def CopyOp.rows (o : CopyOp) (d : Desc) : Option (List Nat) :=
  o.mask.map fun m => (List.range (Desc.extent d 1)).filter fun i => m.getLsbD i

/-- Dense elements of the walk. -/
def CopyOp.elems (o : CopyOp) (d : Desc) : Nat :=
  match o.rows d with
  | some rs => rs.length * Desc.extent d 0
  | none => ((Desc.dims d).map (Desc.extent d)).prod

/-- A descriptor that is valid when read: reserved bits and codes, BASE and strides in multiples
of z, and what OPC, CPYG and a stream ask of it (R248, R250, R252, R253). -/
def CopyOp.descOk (o : CopyOp) (d : Desc) : Bool :=
  match Desc.ety d with
  | none => false
  | some t =>
    let z := elemSize t
    Desc.bits d 469 3 == 0 && Desc.bits d 55 9 == 0 && decide (Desc.ndim d ≤ 5) &&
    Desc.base d % z == 0 &&
    ((Desc.dims d).all fun i => i == 0 || Desc.stride d i % z == 0) &&
    (!o.req.isRed || [Ty.b32, .s32, .z32, .f32, .bf16].contains t) &&
    (o.mask.isNone || Desc.ndim d == 2) &&
    (o.stream.isNone || o.elems d * z % 4 == 0)

/-! ### Places of the engine's accesses -/

/-- STATUS of a translation fault (R352). -/
def XFault.status : XFault → Nat
  | .page => 2
  | .access => 3

/-- The place of an address of a space, or the STATUS (R248, R252): an offset must lie in its
space with the `n` bytes from it; a virtual address is taken modulo 2^48 and reaches memory
only. -/
def State.enginePlace (s : State) (core spc : Nat) (a : Acc) (x : Int) (n : Nat) : Except Nat Loc :=
  if 4 ≤ spc then
    match s.xloc core .mt a (signVa (BitVec.ofInt 64 x)) with
    | .error e => .error e.status
    | .ok (.device _) | .ok (.pcie _) => .error 3
    | .ok l => .ok l
  else if 0 ≤ x ∧ x + n ≤ (if spc = 3 then 0x1F80000 else spaceSize spc) then
    .ok (s.offsetLoc core 0 spc x.toNat)
  else .error 7

/-- Bytes read at chunks, with the STATUS of an uncorrectable error or a fence. -/
def State.engineRead (s : State) (core : Nat) (ls : List (Loc × Nat)) : Except Nat (List Byte) :=
  if ls.any fun p => s.poisoned p.1 then .error 1
  else if ls.any fun p => s.fencedPlace core p.1 then .error 6
  else .ok (ls.flatMap fun p => s.readLoc p.1 p.2)

/-- The agent that an engine's copy is (R86, R373). -/
def CopyOp.agent (o : CopyOp) (core : Nat) : Word := agentId 3 o.mt core

/-- An engine access enters its region and early-closes what it meets (R374), or waits for a region whose
messages are on their way. -/
def State.engineRegion (s : State) (core : Nat) (o : CopyOp) (write : Bool)
    (ls : List (Loc × Nat)) : Except (Option Nat) State :=
  ls.foldlM (fun s p =>
    (s.regionAccess (o.agent core) o.seq true p.1 p.2 write false).mapError fun _ => none) s

/-- Writes bytes at a place: of a paired core by a paired message (R378). -/
def State.engineWrite (s : State) (core : Nat) (o : CopyOp) (l : Loc) (bs : List Byte) : State :=
  match (s.core core).pair, l.homed with
  | some _, some (kd, a, ep) => s.sendFor (o.agent core) o.seq core ep 0 0 (.store kd a bs)
  | _, _ => s.writeLoc l bs

/-- Bytes by offset leave no gap from 0 on. -/
def solid (ps : Cells Byte) : Bool := ps.length == (ps.getLast?.map (·.1 + 1)).getD 0

/-- Writes bytes of one destination word by their offsets from a place, together (R249). -/
def State.writeParts (s : State) (core : Nat) (o : CopyOp) (l : Loc) (ps : Cells Byte) : State :=
  if solid ps then s.engineWrite core o l (ps.map (·.2))
  else
    match (s.core core).pair, l.homed with
    | some _, some (kd, a, ep) => s.sendFor (o.agent core) o.seq core ep 0 0 (.merge kd a ps)
    | _, _ => ps.foldl (fun s p => s.writeLoc (l.plus p.1) [p.2]) s

/-! ### The walk (R249) -/

/-- Coordinates of an element number in a box of extents. -/
def boxCoords : List Nat → Nat → List Nat
  | [], _ => []
  | e :: es, n => n % e :: boxCoords es (n / e)

/-- Box indexes of dense element `n`: a gather packs its rows. -/
def CopyOp.index (o : CopyOp) (d : Desc) (n : Nat) : List Nat :=
  match o.rows d with
  | some rs => [n % Desc.extent d 0, rs.getD (n / Desc.extent d 0) 0]
  | none => boxCoords ((Desc.dims d).map (Desc.extent d)) n

/-- Tensor coordinates of dense element `n`. -/
def CopyOp.coords (o : CopyOp) (d : Desc) (n : Nat) : List (Nat × Int) :=
  ((o.index d n).zipIdx).map fun p => (p.2, Desc.origin d p.2 + p.1)

def Desc.inBounds (d : Desc) (cs : List (Nat × Int)) : Bool :=
  cs.all fun c => decide (0 ≤ c.2 ∧ c.2 < Desc.size d c.1)

/-- taddr of R249. -/
def Desc.taddr (d : Desc) (z : Nat) (cs : List (Nat × Int)) : Int :=
  let term (c : Nat × Int) : Int := if c.1 = 0 then c.2 * z else c.2 * Desc.stride d c.1
  (cs.map term).foldl (· + ·) (Desc.base d : Int)

/-- dadr of R249 for a byte offset of the dense box. -/
def CopyReq.dadr (r : CopyReq) (off : Nat) : Int :=
  let a : Int := if r.opc = 1 then r.doff + off
    else if 4 ≤ r.denseSpc then (r.w2.toNat % 2 ^ 48 : Nat) + off
    else r.w2.toNat + off
  if r.swz ∧ 0 ≤ a then swizzle true r.span a.toNat else a

/-- The fill value of an element: zero bytes, or the canonical NaN of ETY (R97). -/
def fillBytes (fill : Nat) (t : Ty) : List Byte :=
  if fill = 1 then List.replicate (elemSize t) 0
  else
    let n := t.cvt .rne true .nan
    leBytes (elemSize t) (if t.width = 4 then n * 16 + n else n)

/-- A message of a multicast to the home slice at an endpoint (R71, R251, R309). -/
def State.sendTarget (s : State) (core : Nat) (o : CopyOp) (x : Nat) (ps : Cells Byte) (ep : Nat) : State :=
  let (d, g) := (o.grp / 4096, o.grp % 4096)
  let x := (ep % 4096 - 1024) * 0x80000 + x
  let s := s.modDie d fun y =>
    { y with groups := y.groups.upd g { y.group g with drain := (y.group g).drain + 1 } }
  s.sendFor (o.agent core) o.seq core ep o.grp ((s.die d).group g).gen
    (if solid ps then .store 3 x (ps.map (·.2)) else .merge 3 x ps)

/-- Writes bytes of one word, by their offsets from an address, in a space or at every target. -/
def State.writeWordAt (s : State) (core : Nat) (o : CopyOp) (spc : Nat) (x : Int) (ps : Cells Byte) :
    Except (Option Nat) State :=
  let n : Nat := (ps.getLast?.map (·.1 + 1)).getD 0
  if o.req.opc = 1 then
    if 0 ≤ x ∧ x + n ≤ 0x80000 then
      .ok (o.targets.foldl (fun s ep => s.sendTarget core o x.toNat ps ep) s)
    else .error (some 7)
  else
    match s.enginePlace core spc .write x n with
    | .error e => .error (some e)
    | .ok l =>
      if s.fencedPlace core l then .error (some 6)
      else
        (s.engineRegion core o true (if solid ps then [(l, n)] else ps.map fun p => (l.plus p.1, 1))).map
          fun s => s.writeParts core o l ps

/-- The bytes of element `n` for the dense side: from the tensor, of the fill, or none. -/
def State.tensorBytes (s : State) (core : Nat) (o : CopyOp) (d : Desc) (t : Ty) (n : Nat) :
    Except (Option Nat) (State × List Byte) :=
  let z := elemSize t
  let cs := o.coords d n
  if Desc.inBounds d cs then
    match s.enginePlace core o.req.sspc .read (Desc.taddr d z cs) z with
    | .error e => .error (some e)
    | .ok l =>
      match s.engineRead core [(l, z)] with
      | .error e => .error (some e)
      | .ok bs => (s.engineRegion core o false [(l, z)]).map fun s => (s, bs)
  else .ok (s, if o.req.fill = 0 then [] else fillBytes o.req.fill t)

/-- What a step of the walk did: the state, bytes for a stream, elements of a reduction, elements of
the tensor side that are done, and where it failed: the dense offset of the first byte not written and
the STATUS, none where the step has to wait. -/
structure Moved where
  s : State
  dense : List Byte
  red : List (Nat × Nat × List Byte)
  done : List Nat
  fail : Option (Nat × Option Nat)

/-- The bytes from `lo` to `hi` of the dense box that elements hold, by dense offset, up to the first
that cannot be read. -/
def State.gatherIn (s : State) (core : Nat) (o : CopyOp) (d : Desc) (t : Ty) (lo hi : Nat) :
    List Nat → State × Cells Byte × Option (Nat × Option Nat)
  | [] => (s, [], none)
  | n :: ns =>
    let z := elemSize t
    let a := max lo (n * z)
    match s.tensorBytes core o d t n with
    | .error e => (s, [], some (a, e))
    | .ok (s, bs) =>
      let part := (bs.drop (a - n * z)).take (min hi (n * z + z) - a)
      let r := State.gatherIn s core o d t lo hi ns
      (r.1, (part.zipIdx.map fun p => (a + p.2, p.1)) ++ r.2.1, r.2.2)

/-- Moves the bytes from `lo` to `hi` of the dense box, which lie in one destination word, out of the
elements that hold them. -/
def State.moveIn (s : State) (core : Nat) (o : CopyOp) (d : Desc) (t : Ty) (lo hi : Nat) (ns : List Nat) :
    Moved :=
  let g := s.gatherIn core o d t lo hi ns
  match g.2.1 with
  | [] => ⟨g.1, [], [], [], g.2.2⟩
  | (a, _) :: _ =>
    match g.1.writeWordAt core o o.req.dspc (o.req.dadr a) (g.2.1.map fun p => (p.1 - a, p.2)) with
    | .error e => ⟨g.1, [], [], [], some (a, e)⟩
    | .ok s => ⟨s, g.2.1.map (·.2), [], [], g.2.2⟩

/-- Where the bytes of an element lie on the dense side: a place where it is aligned, else each byte
where R236 maps it. -/
def State.densePlaces (s : State) (core : Nat) (r : CopyReq) (off z : Nat) :
    Except Nat (List (Loc × Nat)) :=
  if r.dadr off % z = 0 then (s.enginePlace core r.sspc .read (r.dadr off) z).map fun l => [(l, z)]
  else (List.range z).mapM fun i : Nat =>
    (s.enginePlace core r.sspc .read (r.dadr (off + i)) 1).map fun l => (l, 1)

/-- The bytes of one element of the dense side with the address that they go to, or what a reduction
gathers of it. -/
def State.denseBytes (s : State) (core : Nat) (o : CopyOp) (d : Desc) (t : Ty) (n : Nat) :
    Except (Option Nat) (State × List (Int × List Byte) × List (Nat × Nat × List Byte)) :=
  let z := elemSize t
  let cs := o.coords d n
  let x := Desc.taddr d z cs
  if !Desc.inBounds d cs then .ok (s, [], [])
  else
    match s.densePlaces core o.req (n * z) z, s.enginePlace core o.req.dspc .write x z with
    | .error e, _ => .error (some e)
    | _, .error e => .error (some e)
    | .ok src, .ok dst =>
      match s.engineRead core src with
      | .error e => .error (some e)
      | .ok bs =>
        if s.fencedPlace core dst then .error (some 6)
        else
          match s.engineRegion core o false src with
          | .error e => .error e
          | .ok s =>
            if o.req.isRed then
              if s.poisoned dst then .error (some 1)
              else
                (s.engineRegion core o true [(dst, z)]).map fun s =>
                  (s, [], (dst.line.map fun l => (l.1, l.2, bs)).toList)
            else .ok (s, [(x, bs)], [])

/-- The bytes that elements give to one word of the tensor side, by address, with those that a
reduction gathers, up to the first that fails. -/
def State.gatherOut (s : State) (core : Nat) (o : CopyOp) (d : Desc) (t : Ty) :
    List Nat → Moved × List (Int × List Byte)
  | [] => (⟨s, [], [], [], none⟩, [])
  | n :: ns =>
    match s.denseBytes core o d t n with
    | .error e => (⟨s, [], [], [], some (n * elemSize t, e)⟩, [])
    | .ok (s, xs, red) =>
      let m := State.gatherOut s core o d t ns
      ({ m.1 with red := red ++ m.1.red, done := n :: m.1.done }, xs ++ m.2)

/-- Moves elements that share a word of the tensor side; of two for one place the later in dense order
stays. -/
def State.moveOut (s : State) (core : Nat) (o : CopyOp) (d : Desc) (t : Ty) (ns : List Nat) : Moved :=
  let g := s.gatherOut core o d t ns
  match g.2 with
  | [] => g.1
  | (x, _) :: _ =>
    let word := x / 4 * 4
    let put (ps : Cells Byte) (y : Int × List Byte) : Cells Byte :=
      y.2.zipIdx.foldl (fun ps b => ps.upd ((y.1 - word).toNat + b.2) b.1) ps
    let ps := g.2.foldl put []
    let lo := (ps.head?.map (·.1)).getD 0
    match g.1.s.writeWordAt core o o.req.dspc (word + lo) (ps.map fun p => (p.1 - lo, p.2)) with
    | .error e => { g.1 with done := [], fail := some ((ns.headD 0) * elemSize t, e) }
    | .ok s => { g.1 with s := s }

/-- Bytes of the dense side's first word that lie before it: the walk of DIR = 0 goes by the words of
the destination. -/
def CopyReq.lead (r : CopyReq) : Nat := if r.opc = 1 then 0 else r.w2.toNat % 4

/-- Steps of the walk: words of a dense destination, or elements. -/
def CopyOp.steps (o : CopyOp) (d : Desc) (t : Ty) : Nat :=
  let n := o.elems d
  if o.req.dir || n == 0 then n else (o.req.lead + n * elemSize t + 3) / 4

/-- The elements not yet done whose word of the tensor side is that of element `n`: a destination
word is written as a whole (R249). -/
def CopyOp.sharing (o : CopyOp) (d : Desc) (t : Ty) (n : Nat) : List Nat :=
  let z := elemSize t
  let word (m : Nat) : Int := Desc.taddr d z (o.coords d m) / 4
  if 4 ≤ z then [n]
  else
    (List.range o.total).filter fun m =>
      m == n || (decide (o.next ≤ m) && !o.ahead.any (·.1 == m) && word m == word n)

/-- Step `n` of a walk of DIR = 0: the dense bytes of the destination word, and the elements that hold
them. -/
def CopyOp.span (o : CopyOp) (d : Desc) (t : Ty) (n : Nat) : Nat × Nat × List Nat :=
  let z := elemSize t
  let lo := 4 * n - o.req.lead
  let hi := min (4 * n + 4 - o.req.lead) (o.elems d * z)
  (lo, hi, (List.range ((hi + z - 1) / z)).drop (lo / z))

/-- One step of the walk. -/
def State.moveStep (s : State) (core : Nat) (o : CopyOp) (d : Desc) (t : Ty) (n : Nat) : Moved :=
  if o.req.dir then s.moveOut core o d t (o.sharing d t n)
  else
    let r := o.span d t n
    { s.moveIn core o d t r.1 r.2.1 r.2.2 with done := [n] }

/-- The places that step `n` of the walk reads. -/
def State.stepReads (s : State) (core : Nat) (o : CopyOp) (d : Desc) (t : Ty) (n : Nat) : List Loc :=
  let z := elemSize t
  let tens (e : Nat) : Option Loc :=
    if Desc.inBounds d (o.coords d e) then
      (s.enginePlace core o.req.sspc .read (Desc.taddr d z (o.coords d e)) z).toOption
    else none
  if o.req.dir then
    if Desc.inBounds d (o.coords d n) then
      (((s.densePlaces core o.req (n * z) z).toOption).getD []).map (·.1)
    else []
  else (o.span d t n).2.2.filterMap tens

/-- The place that step `n` of the walk writes at once. -/
def State.stepWrites (s : State) (core : Nat) (o : CopyOp) (d : Desc) (t : Ty) (n : Nat) : Option Loc :=
  if o.req.opc = 1 || o.req.isRed || (s.core core).pair.isSome then none
  else
    (s.enginePlace core o.req.dspc .write
      (if o.req.dir then Desc.taddr d (elemSize t) (o.coords d n) else o.req.dadr (o.span d t n).1)
      1).toOption

/-! ### Streams (R88, R218) -/

/-- Posts dense words to the register that the copy is bound to. -/
def State.postStream (s : State) (core : Nat) (o : CopyOp) (ws : List Word) : State :=
  match o.stream with
  | none => s
  | some q =>
    s.modMt core o.mt fun t =>
      match t.stream q with
      | .bound seq xs fin bad =>
        if seq = o.seq then t.setStream q (.bound seq (xs ++ ws) fin bad) else t
      | _ => t

/-- The copy posts no more. A register whose last word has been read is no longer armed. -/
def State.endStream (s : State) (core : Nat) (o : CopyOp) (bad : Bool) : State :=
  match o.stream with
  | none => s
  | some q =>
    s.modMt core o.mt fun t =>
      match t.stream q with
      | .bound seq xs _ _ =>
        if seq = o.seq then
          t.setStream q (if xs.isEmpty && !bad then .idle else .bound seq xs true bad)
        else t
      | _ => t

/-! ### Reductions (R109, R250) -/

/-- The endpoint of a line's home slice. -/
def lineEp (key : Nat) : Nat :=
  if key % 4 = 2 then epRemote (key / 4 * 64 / 2 ^ 38 % 512) 1024 else epSlice (lineSlice key)

/-- An element joins the first of some messages that has no other for its place. -/
def joinRound (x : Nat × List Byte) : List (List (Nat × List Byte)) → List (List (Nat × List Byte))
  | [] => [[x]]
  | r :: rs => if r.any (·.1 == x.1) then r :: joinRound x rs else (r ++ [x]) :: rs

/-- Sends what a copy has gathered, one partial to each line: two elements for one place go in two
messages, so that each has at most the 64 bytes of its line (R306). A line's first element gives it its
place. -/
def State.sendPartials (s : State) (core : Nat) (o : CopyOp) (t : Ty) : State :=
  let mk (key : Nat) (xs : List (Nat × List Byte)) : Partial :=
    { core := core, mt := o.mt, ctx := (s.core core).ctx, inc := (s.core core).inc, seq := o.seq
      line := key, slice := if o.req.sle then some o.req.slice else none
      slices := s.slicesOf core, op := o.req.opc - 2, ty := t, data := xs }
  let ofLine (key : Nat) : List Partial :=
    (((o.red.filter (·.1 == key)).foldl (fun rs x => joinRound x.2 rs) []).map (mk key))
  (((o.red.map (·.1)).dedup).flatMap ofLine).foldl
    (fun s p => s.sendFor (o.agent core) o.seq core (lineEp p.line) 0 0 (.partialSum p)) s

/-- The place of a byte of a line. -/
def lineLoc (key b : Nat) : Loc :=
  match key % 4 with
  | 0 => .dram (key / 4 * 64 + b)
  | 1 => .gran (key / 4 * 64 / 0x2000000) (key / 4 * 64 % 0x2000000 + b)
  | _ => .remote (key / 4 * 64 + b)

/-- The engine's agent whose operation sent a partial. -/
def Partial.agent (p : Partial) : Word := agentId 3 p.mt p.core

/-- M := op(M, p) for each element of a partial, after the early close of what its access meets (R83,
R374). -/
def State.applyPartial (s : State) (p : Partial) : State :=
  p.data.foldl (fun s x =>
    let l := lineLoc p.line x.1
    let n := x.2.length
    let s : State := match s.regionAccess p.agent p.seq true l n true true with
      | .ok s => s
      | .error _ => s
    s.writeLoc l (leBytes n (redOp p.ty p.op (leNat (s.readLoc l n)) (leNat x.2)))) s

def State.reduceLine (s : State) (key : Nat) : ReduceLine := s.partials.look ⟨0, []⟩ key

/-- Applies what the line holds of the indexes it comes to expect. -/
def State.applyHeld (s : State) (key : Nat) : Nat → State
  | 0 => s
  | fuel + 1 =>
    let r := s.reduceLine key
    let mine := r.buf.filter fun p => p.slice == some r.expect
    match mine with
    | [] => s
    | p :: _ =>
      let s := mine.foldl (fun s p => s.applyPartial p) s
      let r : ReduceLine :=
        ⟨(r.expect + 1) % max 1 p.slices, r.buf.filter fun p => p.slice != some r.expect⟩
      State.applyHeld { s with partials := s.partials.put ⟨0, []⟩ key r } key fuel

/-- A partial reaches its line: it is combined in slice order or buffered. -/
def State.takePartial (s : State) (p : Partial) : State :=
  match p.slice with
  | none => s.applyPartial p
  | some i =>
    let r := s.reduceLine p.line
    if i = r.expect then
      let s := s.applyPartial p
      let r : ReduceLine := { r with expect := (i + 1) % max 1 p.slices }
      ({ s with partials := s.partials.put ⟨0, []⟩ p.line r }).applyHeld p.line (r.buf.length + 1)
    else
      { s with partials := s.partials.put ⟨0, []⟩ p.line { r with buf := r.buf ++ [p] } }

/-- Partials that a slice buffers. -/
def State.bufferedAt (s : State) (slice : Nat) : Nat :=
  (s.partials.map fun e => if lineSlice e.1 = slice then e.2.buf.length else 0).sum +
  s.partialQ.countP fun p => lineSlice p.line == slice

/-- A slice can take a partial: the expected index needs no buffer. -/
def State.partialRoom (s : State) (p : Partial) : Bool :=
  p.slice.isNone ||
  (p.slice == some (s.reduceLine p.line).expect &&
    !(s.partialQ.any fun q => q.line == p.line)) ||
  decide (s.bufferedAt (lineSlice p.line) < 512)

/-- A partial comes to its line in its turn. -/
def State.expects (s : State) (p : Partial) : Bool := p.slice.all (· == (s.reduceLine p.line).expect)

/-- A partial, or one that its line holds, would meet a region whose messages are on their way: it
waits. -/
def State.partialMeets (s : State) (p : Partial) : Bool :=
  (p :: (s.reduceLine p.line).buf).any fun q => q.data.any fun x =>
    (s.regionAccess q.agent q.seq true (lineLoc q.line x.1) x.2.length true true).toOption.isNone

/-- An accepted partial is in its slice's buffer, or applied: its copy waits for it no longer (R109). -/
def State.partialDone (s : State) (p : Partial) : State := s.sentDoneFor p.core p.ctx (.partialSum p)

/-- REDUCE_PARTIAL_ARRIVAL: accepted partial `n` reaches its line, after those that came to the
line before it. One of a stale incarnation is discarded (R386). -/
def execReducePartialArrival (n : Nat) (s : State) : Out :=
  match s.partialQ[n]? with
  | none => .next s
  | some p =>
    let t := { s with partialQ := s.partialQ.eraseIdx n }
    if (s.partialQ.take n).any fun q => q.line == p.line then .next s
    else if s.staleTag p.ctx p.inc then .next (t.partialDone p)
    else if s.expects p then
      match s.viaChannels ⟨agentId 6 0 p.core, p.line⟩ [lineLoc p.line 0] with
      | .error s => .next s
      | .ok s =>
        .next (if s.partialMeets p then s
          else (({ s with partialQ := s.partialQ.eraseIdx n }).takePartial p).partialDone p)
    else .next ((t.takePartial p).partialDone p)

/-! ### COPY_ELEMENT_COMPLETE -/

def Core.setCopy (k : Core) (i : Nat) (o : CopyOp) : Core := { k with copies := k.copies.set i o }

/-- A request may start: those before it have, fewer than 16 run, no migration holds it, and the
messages of the control thread that pushed it have been performed (R86). -/
def Core.mayStart (k : Core) (c i : Nat) : Bool :=
  !k.frozen && ((k.copies.take i).all (·.started)) && decide (k.copies.countP (·.started) < 16) &&
  !(((k.copies[i]?).map (·.ct)).getD false && k.outstanding (agentId 1 0 c))

/-- The places of the descriptor's words, or the STATUS. -/
def State.descPlaces (s : State) (core : Nat) (r : CopyReq) : Except Nat (List (Loc × Nat)) :=
  (List.range 16).mapM fun i =>
    (s.enginePlace core r.descSpc .read (r.descAddr + 4 * i : Nat) 4).map fun l => (l, 4)

/-- Reads the descriptor: its value, or the STATUS (R252). -/
def State.readDesc (s : State) (core : Nat) (r : CopyReq) : Except Nat Desc :=
  match s.descPlaces core r with
  | .error e => .error e
  | .ok ls => (s.engineRead core ls).map fun bs => BitVec.ofNat 512 (leNat bs)

/-- The engine has started a request: the descriptor has been read, and it is checked. -/
def CopyOp.start (o : CopyOp) : Except Nat Desc → CopyOp
  | .error e => { o with started := true, status := e }
  | .ok d =>
    match Desc.ety d with
    | some t =>
      if o.descOk d then { o with started := true, desc := some d, total := o.steps d t }
      else { o with started := true, status := 4 }
    | none => { o with started := true, status := 4 }

/-- The engine's operation as a waiter at a channel. -/
def CopyOp.waiter (o : CopyOp) (core : Nat) : Waiter := ⟨o.agent core, o.seq.toNat⟩

/-- The reads of the walk by DRAM channel. -/
def State.countReads (s : State) (core : Nat) (o : CopyOp) : Cells Nat :=
  match o.desc.bind fun d => (Desc.ety d).map fun t => (d, t) with
  | none => []
  | some (d, t) =>
    (List.range o.total).foldl (fun m n =>
      (chansOf (s.stepReads core o d t n)).foldl (fun m ch => m.put 0 ch (m.look 0 ch + 1)) m) []

/-- The engine starts a request: it reads the descriptor, an access of its operation (R374). The reads
of the walk reach their channels together (R340). -/
def State.startCopy (s : State) (core i : Nat) (o : CopyOp) : State :=
  let begun (s : State) (r : Except Nat Desc) : State :=
    let o := o.start r
    let o := { o with reads := s.countReads core o }
    (o.reads.foldl (fun s x => s.joinChan (o.waiter core) x.1) s).modCore core fun k =>
      (k.setCopy i o).pullFifo
  match s.descPlaces core o.req with
  | .error e => begun s (.error e)
  | .ok ls =>
    match s.viaChannels (o.waiter core) (ls.map (·.1)) with
    | .error s => s
    | .ok t =>
      match t.engineRegion core o false ls with
      | .error _ => s
      | .ok s => begun s (s.readDesc core o.req)

/-- Cuts complete words off the bytes of the dense stream. -/
def takeWords (bs : List Byte) : List Word × List Byte :=
  let n := bs.length / 4 * 4
  (bytesToWords (bs.take n), bs.drop n)

/-- The step of the walk that the engine takes next: any that is not done. The engine of a paired core
goes in dense order, as its twin does, so that their messages pair (log 37). -/
def CopyOp.pick (o : CopyOp) (paired : Bool) (v : Nat) : Nat :=
  let n := if paired then o.next else o.next + v % (o.total - o.next)
  if o.ahead.any (·.1 == n) then o.next else n

/-- Moves on past the steps that are done, and gives their dense bytes in dense order. -/
def CopyOp.catchUp (o : CopyOp) : Nat → CopyOp × List Byte
  | 0 => (o, [])
  | fuel + 1 =>
    match o.ahead.find? (·.1 == o.next) with
    | none => (o, [])
    | some x =>
      let r := CopyOp.catchUp
        { o with next := o.next + 1, ahead := o.ahead.filter (·.1 != o.next) } fuel
      (r.1, x.2 ++ r.2)

/-- Steps are done; their dense bytes are kept where a stream waits for them. -/
def CopyOp.finish (o : CopyOp) (ns : List Nat) (bs : List Byte) : CopyOp × List Byte :=
  let o := { o with ahead := o.ahead ++ ns.map fun n => (n, if o.stream.isSome then bs else []) }
  CopyOp.catchUp o (o.ahead.length + 1)

/-- A byte of the dense box cannot be written: STATUS and OFFS are those of the lowest (R227). -/
def CopyOp.failAt (o : CopyOp) (offs status : Nat) : CopyOp :=
  if o.status = 0 ∨ offs < o.offs then { o with status := status, offs := offs } else o

/-- Step `n` has failed at a byte of the dense box: the walk ends there, once everything below is done
(R252, R385; log 24). -/
def CopyOp.cut (o : CopyOp) (n z offs status : Nat) : CopyOp :=
  let n := if o.req.dir then offs / z else n
  { o.failAt offs status with total := n, ahead := o.ahead.filter fun x => decide (x.1 < n) }

/-- Reads have been served: what is still to come, by channel. -/
def CopyOp.served (o : CopyOp) (chs : List Nat) : CopyOp :=
  { o with reads := chs.foldl (fun m ch => m.put 0 ch (m.look 0 ch - 1)) o.reads }

/-- The operation leaves the channels from which it reads no more; at the end of its walk it leaves them
all. -/
def State.leaveServed (s : State) (core : Nat) (o : CopyOp) (chs : List Nat) : State :=
  let gone :=
    if o.total ≤ o.next then chs ++ o.reads.map (·.1) else chs.filter fun ch => o.reads.look 0 ch == 0
  gone.foldl (fun s ch => s.leaveChan (o.waiter core) ch) s

/-- One step of the walk, in any order, and at its end the partials. A stream has its words in dense
order. The reads of the operation are served together at a channel; a write waits for a refresh only
(R340, log 36). -/
def State.stepCopy (s : State) (core i : Nat) (o : CopyOp) (d : Desc) (t : Ty) : State :=
  let n := o.pick (s.core core).pair.isSome (Config.copyPick s.free)
  let steps := if o.req.dir then o.sharing d t n else [n]
  let places := steps.map (s.stepReads core o d t)
  if s.mustQueue (o.waiter core) places.flatten then s.joinAll (o.waiter core) places.flatten
  else if (s.stepWrites core o d t n).any s.refreshing then s
  else
    let m := s.moveStep core o d t n
    let rest := o.req.dir && m.fail.isSome
    let o := { o with red := o.red ++ m.red }
    match m.fail with
    | some (_, none) => s
    | f =>
      let o : CopyOp := match f with
        | some (a, some e) => o.cut n (elemSize t) a e
        | _ => o
      let r := o.finish m.done m.dense
      let w := takeWords (o.part ++ r.2)
      let chs := (if rest then places.take m.done.length else places).flatMap chansOf
      let o : CopyOp := { r.1 with part := w.2 }.served chs
      let s := (m.s.leaveServed core o chs).postStream core o w.1
      if o.next < o.total then s.modCore core (·.setCopy i o)
      else (s.sendPartials core o t).modCore core (·.setCopy i { o with red := [] })

/-- COPY_ELEMENT_COMPLETE: copy `i` of the core starts, or completes a step of its walk. -/
def execCopyElementComplete (core i : Nat) (s : State) : Out :=
  match (s.core core).copies[i]? with
  | none => .next s
  | some o =>
    if !o.started then
      if (s.core core).mayStart core i then .next (s.startCopy core i o) else .next s
    else
      match o.desc with
      | none => .next s
      | some d =>
        match Desc.ety d with
        | none => .next s
        | some t =>
          if o.next < o.total then .next (s.stepCopy core i o d t) else .next s

/-! ### COPY_COMPLETION (R86, R215, R252, R352) -/

/-- The walk is over, and every message of it has been performed, partials among them: those have been
applied or are in their slices' buffers (R86, R109, R251). -/
def State.copyDone (s : State) (core : Nat) (o : CopyOp) : Bool :=
  o.started && decide (o.total ≤ o.next) && !s.owes (o.agent core) o.seq

/-- A fault that comes last leaves an earlier STATUS. -/
def CopyOp.fault (o : CopyOp) (e : Nat) : CopyOp := if o.status = 0 then { o with status := e } else o

/-- The handle that the copy advances has a new generation, and a reservation falls. -/
def State.handleMoved (s : State) (core : Nat) (o : CopyOp) (port : Option Nat) : State :=
  let s := s.modMt core o.mt (·.stepHgen o.qhandle)
  match port with
  | some p => s.unreserve core o.mt p 1
  | none => s

/-- A message is one of step `n` of a walk. -/
def State.isMessage (s : State) (core : Nat) (o : CopyOp) (d : Desc) (t : Ty) (pl : Payload) (n : Nat) : Bool :=
  let x : Int := if o.req.dir then Desc.taddr d (elemSize t) (o.coords d n) else o.req.dadr (o.span d t n).1
  let l : Option Loc :=
    if o.req.opc = 1 then none else (s.enginePlace core o.req.dspc .write x 1).toOption
  match pl with
  | .partialSum p => ((l.bind Loc.line).map (·.1)) == some p.line
  | .store 3 a _ | .merge 3 a _ => decide (x / 4 = (a % 0x80000 / 4 : Nat))
  | .store kd a _ | .merge kd a _ => ((l.bind Loc.homed).map fun h => (h.1, h.2.1 / 4)) == some (kd, a / 4)
  | _ => false

/-- A message of the copy is given up: the first byte of it is not written (R227, R352). -/
def State.rejectCopy (s : State) (core : Nat) (o : CopyOp) (pl : Payload) : CopyOp :=
  match o.desc.bind fun d => (Desc.ety d).map fun t => (d, t) with
  | none => o.failAt 0 6
  | some (d, t) =>
    match (List.range (o.steps d t)).find? (s.isMessage core o d t pl) with
    | some n => o.failAt (if o.req.dir then n * elemSize t else (o.span d t n).1) 6
    | none => o.failAt (o.elems d * elemSize t) 6

/-- The producer queue moves on by one slot, as by ADVP; where that cannot be, STATUS 8 (R215). A paired
core asks the home (R378). -/
def State.copyAdvance (s : State) (core : Nat) (o : CopyOp) : State × CopyOp :=
  match o.queue, o.stage with
  | none, 0 => (s, { o with stage := 2 })
  | some (key, port), 0 =>
    match (if (s.core core).pair.isSome then (s.qhome key).bind (·.station key) else none) with
    | some (kd, a, ep) =>
      (s.sendFor (o.agent core) o.seq core ep 0 0 (.rmw kd a 4 (.advance true 1)), { o with stage := 1 })
    | none =>
      match (s.qhome key).bind fun q => q.advance true 1 with
      | none => (s, { o.fault 8 with stage := 2 })
      | some q =>
        ({ s with qhomes := s.qhomes.upd key q }.handleMoved core o port, { o with stage := 2 })
  | some (_, port), 1 => (s.handleMoved core o port, { o with stage := 2 })
  | _, _ => (s, o)

/-- Rows that a gather packed. -/
def CopyOp.count (o : CopyOp) : Nat :=
  match o.desc.bind o.rows with
  | some rs => rs.length
  | none => 0

/-- The place of `n` bytes at the counter of a request, some bytes on, or the STATUS. -/
def State.counterLoc (s : State) (core : Nat) (r : CopyReq) (off n : Nat) : Except Nat Loc :=
  match s.enginePlace core r.ctrSpc .write (r.ctrAddr + off : Nat) n with
  | .error e => .error e
  | .ok l => if s.fencedPlace core l then .error 6 else .ok l

/-- An access of a completion to its counter passes the channel and its region, or waits (`error`). -/
def State.counterAccess (s : State) (core : Nat) (o : CopyOp) (l : Loc) (n : Nat) (special : Bool) :
    Except State State :=
  match s.viaChannels (o.waiter core) [l] with
  | .error s => .error s
  | .ok t =>
    match t.regionAccess (o.agent core) o.seq true l n true special with
    | .error _ => .error s
    | .ok s => .ok s

/-- The count of a gather is written at its counter's address + 8, before the increment (R253). -/
def State.copyCount (s : State) (core : Nat) (o : CopyOp) : Except State (State × CopyOp) :=
  if o.stage = 2 then
    if o.req.cmpl && o.mask.isSome then
      match s.counterLoc core o.req 8 4 with
      | .error e => .ok (s, { o.fault e with stage := 3 })
      | .ok l =>
        (s.counterAccess core o l 4 false).map fun s =>
          (s.engineWrite core o l (leBytes 4 (o.count % 2 ^ 32)), { o with stage := 3 })
    else .ok (s, { o with stage := 3 })
  else .ok (s, o)

/-- The completion: a counter's increment or an inbox record. A counter that cannot be reached changes
the STATUS. -/
def State.copyPost (s : State) (core : Nat) (o : CopyOp) : Except State (State × CopyOp) :=
  let r := o.req
  if r.cmpl then
    match s.counterLoc core r 0 8 with
    | .error e => .ok (s, o.fault e)
    | .ok l =>
      (s.counterAccess core o l 8 true).map fun s =>
        (s.countAt (o.agent core) o.seq core l r.inc (o.status != 0), o)
  else
    let info := if o.mask.isSome then BitVec.ofNat 32 o.count else 0
    let offs := if o.status = 0 then 0 else BitVec.ofNat 32 o.offs
    let kind := if o.mask.isSome then 1 else 0
    .ok (s.postRecord core ⟨info, offs, o.seq, o.status, kind, r.tag⟩, o)

/-- Closes the records of one operation of an engine. -/
def State.closeEngine (s : State) (agent : Word) (seq : BitVec 16) : State :=
  s.dropRecs fun q => q.of agent seq

/-- The operation has completed: what it held is given back, and a failure is reported. -/
def State.retireCopy (s : State) (core i : Nat) (o : CopyOp) : State :=
  let s : State :=
    if o.status = 0 then s
    else s.engineFault core 3 o.mt 0x20 o.seq (BitVec.ofNat 32 o.status)
      (BitVec.ofNat 128 (o.offs % 2 ^ 32 + o.req.tag.toNat * 2 ^ 32))
  let s := s.endStream core o (o.status != 0)
  let s := s.closeEngine (o.agent core) o.seq
  let s := s.dropCopyGroup o
  let s := s.modCore core fun k => ({ k with copies := k.copies.eraseIdx i }).pullFifo
  if o.req.cmpl then s.opDone core o.mt o.seq else s

/-- The parts of a completion, in their order: each waits for the messages of the one before it, and for
a channel. -/
def State.completeCopy (s : State) (core i : Nat) (o : CopyOp) : State :=
  let keep (s : State) (o : CopyOp) : State := s.modCore core (·.setCopy i o)
  let owes (s : State) : Bool := s.owes (o.agent core) o.seq
  let (s, o) := s.copyAdvance core o
  if owes s then keep s o
  else
    match s.copyCount core o with
    | .error s => keep s o
    | .ok (s, o) =>
      if owes s then keep s o
      else
        match s.copyPost core o with
        | .error s => keep s o
        | .ok (s, o) => s.retireCopy core i o

/-- COPY_COMPLETION of copy `i` of the core. -/
def execCopyCompletion (core i : Nat) (s : State) : Out :=
  match (s.core core).copies[i]? with
  | none => .next s
  | some o => .next (if s.copyDone core o then s.completeCopy core i o else s)

end Sys2Proof.Machine
end

