-- ==== Sys2Proof/Machine/Events.lean ====
section
/-! DEFINITION. Class 0x380: bank modes and neurons (R263 to R266), events and the time-stamped
queue (R267 to R272), rank streams and the windrow (R273 to R278), weights, margin and gradient
(R279 to R283), the state registers (R284, R285), and the event unit at work (R262). -/

namespace Sys2Proof.Machine

/-! ### Operand reads of the class (R262) -/

/-- An event exception; VAL names a bank or nothing (R368). -/
def evStop (detail : Nat) : Stop := exn 14 detail
def bankStop (acc : Nat) : Stop := exnVal 14 1 (BitVec.ofNat 32 acc)

/-- The first poisoned scratchpad word of a range of bytes. -/
def State.scratchPoison (s : State) (c off n : Nat) : Option ErrorSite :=
  ((List.range ((off % 4 + n + 3) / 4)).map fun i =>
    ErrorSite.scratchWord c (off / 4 * 4 + 4 * i)).find? fun e => s.poison.contains e

/-- Alignment and range of an offset that the class reads or writes. -/
def offsetCheck262 (off n al : Nat) : Except Stop Unit :=
  let a : DWord := BitVec.ofNat 64 off
  if off % al ≠ 0 then .error (exnAddr 4 0 a 0)
  else need (belowWindows off n) (exnAddr 5 0 a 0)

/-- An ordinary .core read of the issuing micro-thread. -/
def State.readCore (s : State) (c off n al : Nat) : Except Stop (List Byte) :=
  match offsetCheck262 off n al with
  | .error e => .error e
  | .ok () =>
    let s := s.padView c
    match s.scratchPoison c off n with
    | some e => .error (.poison e)
    | none => .ok (Memory.read (s.core c).scratch off n)

/-- Words of a range. -/
def State.readWords (s : State) (c off n : Nat) : Except Stop (List Word) :=
  (s.readCore c off (4 * n) 4).map bytesToWords

/-! ### The dispatch queue (R231, R262) -/

/-- A bank instruction of the event class issues: not while the queue is full, nor while a chain
holds the bank (R233). -/
def Core.evReady (k : Core) (acc : Option Nat) : Except Stop Unit :=
  let held : Bool := match acc with
    | some a => k.bankHeld a
    | none => false
  need (decide (k.evq.length < 16) && !held) (.stall none)

/-- An instruction that acts itself waits until the event unit has applied every earlier one. -/
def Core.evIdle (k : Core) : Except Stop Unit := need k.evq.isEmpty (.stall none)

/-- Queues an action under the next SEQ. -/
def State.queueEv (s : State) (w : Who) (op : Nat) (kind : EvKind) (a b c : Word) : Res :=
  let r := s.dispatchOp w op a b c true
  .ok (r.1.modHome w fun k => { k with evq := k.evq ++ [⟨kind, w.mt, r.2, (s.home w).issued⟩] })

/-- An instruction that acts at once takes its SEQ. -/
def State.actEv (s : State) (w : Who) (op : Nat) (a b c : Word) : State :=
  (s.dispatchOp w op a b c false).1

/-- The value that a destination register of an instruction that acts at once held at its issue, for
the dispatch ring (R353). -/
def State.heldValue (s : State) (w : Who) (o : Operand) : Word :=
  match o with
  | .special x => (s.self w).preg x.toNat
  | o => s.oldDst w o 0

/-- Bank mode once the queued NCFGs have acted: 0 matrix, 1 neuron, 2 rank. -/
def Core.bankMode (k : Core) (acc : Nat) : Nat :=
  let m := k.evq.foldl (fun m e => match e.kind with
    | .ncfg a mw .. => if a = acc then mw else m
    | _ => m) (k.bank acc).modew
  m.toNat % 4

def accWord (n : Nat) : Word := BitVec.ofNat 32 n

/-! ### NCFG (R263) -/

def wfield (w : Word) (lo n : Nat) : Nat := w.toNat / 2 ^ lo % 2 ^ n

/-- x is greater than y, both non-NaN. -/
def FVal.gt (x y : FVal) : Bool := !x.isNan && !y.isNan && decide (0 < FVal.cmp x y)
def FVal.ge (x y : FVal) : Bool := !x.isNan && !y.isNan && decide (0 ≤ FVal.cmp x y)

def ncfgOk (ws : List Word) : Bool :=
  let w (i : Nat) : Word := ws.getD i 0
  let mode := wfield (w 0) 0 2
  let ndec := wfield (w 4) 16 12 + 1
  wfield (w 0) 16 16 == 0 && wfield (w 0) 3 5 == 0 && w 3 == 0 && w 7 == 0 &&
  wfield (w 4) 12 4 == 0 && wfield (w 4) 28 4 == 0 && mode != 3 &&
  (mode != 2 || (decide (2 ≤ ndec ∧ wfield (w 4) 0 12 + ndec ≤ 4096) &&
    FVal.ge (fp32 (w 6)) (FVal.zero false)))

def ncfgBody (f : Ny) (w : Who) (s : State) : Res :=
  let acc := accNo f.a
  let off := s.scalar w f.b
  match s.readCore w.core off.toNat 32 32 with
  | .error e => .error e
  | .ok bs =>
    let ws := bytesToWords bs
    if !ncfgOk ws then .error (evStop 2)
    else
      match (s.home w).evReady (some acc) with
      | .error e => .error e
      | .ok () =>
        let x (i : Nat) : Word := ws.getD i 0
        s.queueEv w 0x380 (.ncfg acc (x 0) (x 1) (x 2) (x 4) (x 5) (x 6)) (accWord acc) off 0

def execNcfg (f : Ny) (s : State) : Out := .next (s.issue (.ncfg f) 0x380 f false (ncfgBody f))

/-! ### Rank parameter block and weights (R280) -/

/-- Bytes of a weight. -/
def weightSize (t : Ty) : Nat := if t = .bf16 then 2 else 1

def blockOk (ws : List Word) (t : Ty) : Bool :=
  let w (i : Nat) : Word := ws.getD i 0
  let z := weightSize t
  let nw := wfield (w 3) 16 12 + 1
  let sce : Bool := (w 2).getLsbD 31
  [0, 1, 4, 5].all (fun i => wfield (w i) 19 13 == 0) && wfield (w 2) 19 12 == 0 &&
  wfield (w 3) 12 4 == 0 && wfield (w 3) 28 4 == 0 && w 7 == 0 && (w 0).toNat % z == 0 &&
  (w 1).toNat % z == 0 && decide (wfield (w 3) 0 12 + nw ≤ 4096) &&
  !(sce && (t == .bf16 || nw % 32 != 0))

def RankBlock.ofWords (ws : List Word) : RankBlock :=
  let w (i : Nat) : Word := ws.getD i 0
  { wbase := (w 0).toNat, rstr := (w 1).toNat, sce := (w 2).getLsbD 31, sbase := wfield (w 2) 0 19
    n0 := wfield (w 3) 0 12, nw := wfield (w 3) 16 12 + 1, dbase := (w 4).toNat
    goff := (w 5).toNat, rhot := w 6 }

/-- Reads and checks a rank parameter block. -/
def State.rankBlock (s : State) (c : Nat) (off : Word) (t : Ty) : Except Stop RankBlock :=
  match s.readCore c off.toNat 32 32 with
  | .error e => .error e
  | .ok bs =>
    let ws := bytesToWords bs
    if blockOk ws t then .ok (.ofWords ws) else .error (evStop 9)

/-- Offsets and lengths that weight row `r` reads. -/
def RankBlock.ranges (b : RankBlock) (t : Ty) (r : Nat) : List (Nat × Nat) :=
  (b.wbase + r * b.rstr, b.nw * weightSize t) ::
  if b.sce then [(b.sbase + r * (b.nw / 32), b.nw / 32)] else []

/-- wv(r, j) for every j of the window, by a numeric behaviour version (R110). -/
def Core.weights (k : Core) (nbv : Nat) (b : RankBlock) (t : Ty) (r : Nat) : List FVal :=
  let z := weightSize t
  let at_ := b.wbase + r * b.rstr
  (List.range b.nw).map fun j =>
    let x := leNat (Memory.read k.scratch (at_ + j * z) z)
    let v := t.value nbv x
    if b.sce then scaled (Memory.byte k.scratch (b.sbase + r * (b.nw / 32) + j / 32)).toNat v else v

/-- A weight row read at issue, with the checks of R262. -/
def State.weightRow (s : State) (c : Nat) (b : RankBlock) (t : Ty) (r : Nat) :
    Except Stop (List FVal) :=
  match (b.ranges t r).mapM fun p => s.readCore c p.1 p.2 1 with
  | .error e => .error e
  | .ok _ => .ok (((s.padView c).core c).weights (s.core c).nbv.toNat b t r)

/-! ### Neurons (R264 to R266) -/

/-- lam_pow: binary exponentiation from the low bit. -/
def lamPowGo : Nat → Nat → FVal → FVal → FVal
  | 0, _, _, r => r
  | fuel + 1, e, b, r =>
    if e = 0 then r
    else
      let r := if e % 2 = 1 then fp32 (roundFp32 (r.mul b) .rne) else r
      let b := if e / 2 = 0 then b else fp32 (roundFp32 (b.mul b) .rne)
      lamPowGo fuel (e / 2) b r

def lamPow (lambda : Word) (d : Nat) : FVal := lamPowGo 17 d (fp32 lambda) (fp32 0x3F800000)

/-- A state word: SPK, REF, LTICK. -/
def stWord (spk : Bool) (ref : Nat) (ltick : BitVec 16) : Word :=
  BitVec.ofNat 32 ((if spk then 2 ^ 24 else 0) + ref % 256 * 65536 + ltick.toNat)

def Bank.v (b : Bank) (n : Nat) : Word := b.val.look 0 n
def Bank.st (b : Bank) (n : Nat) : Word := b.stw.look 0 n
def Bank.setV (b : Bank) (n : Nat) (v : Word) : Bank := { b with val := b.val.put 0 n v }
def Bank.setSt (b : Bank) (n : Nat) (v : Word) : Bank := { b with stw := b.stw.put 0 n v }
def Bank.ref (b : Bank) (n : Nat) : Nat := wfield (b.st n) 16 8

/-- The lazy leak of one entry (R265). -/
def Bank.touch (b : Bank) (etick : BitVec 16) (n : Nat) : Bank :=
  let w := b.st n
  let d := (etick - w.setWidth 16).toNat
  if d = 0 then b
  else
    let v := roundFp32 ((fp32 (b.v n)).mul (lamPow b.lambda d)) .rne
    (b.setV n v).setSt n (stWord (w.getLsbD 24) (b.ref n - d) etick)

/-- Adds one weight to an entry that is not refractory. -/
def Bank.integrate (b : Bank) (etick : BitVec 16) (n : Nat) (w : FVal) : Bank :=
  let b := b.touch etick n
  if b.ref n = 0 then b.setV n (roundFp32 (FVal.add .rne (fp32 (b.v n)) w) .rne) else b

/-- NFIRE on one entry: the bank, and whether it fired. -/
def Bank.fire (b : Bank) (etick : BitVec 16) (n : Nat) : Bank × Bool :=
  let b := b.touch etick n
  let th := fp32 b.theta
  if b.ref n = 0 ∧ FVal.ge (fp32 (b.v n)) th then
    let v := if b.modew.getLsbD 2 then roundFp32 (FVal.add .rne (fp32 (b.v n)) th.neg) .rne else 0
    ((b.setV n v).setSt n (stWord true (wfield b.modew 8 8) etick), true)
  else (b.setSt n (stWord false (b.ref n) etick), false)

/-- NFIRE on entries from `n` up: the bank and those that fired, ascending. -/
def Bank.fireAll (etick : BitVec 16) : Nat → Nat → Bank → Bank × List Nat
  | 0, _, b => (b, [])
  | m + 1, n, b =>
    let r := b.fire etick n
    let q := Bank.fireAll etick m (n + 1) r.1
    (q.1, if r.2 then n :: q.2 else q.2)

/-- An event word (R267). -/
def eventWord (tick : BitVec 16) (kind addr : Nat) : Word :=
  tick ++ BitVec.ofNat 16 (kind * 4096 + addr)

/-- A NaN-aware event word check: reserved bits, KIND 3, KIND 0 with the reserved tick. -/
def eventOk (v : Word) : Bool :=
  wfield v 14 2 == 0 && wfield v 12 2 != 3 && !(wfield v 12 2 == 0 && wfield v 16 16 == 0xFFFF)

def nintBody (f : Ny) (w : Who) (s : State) : Res :=
  let acc := accNo f.a
  let k := s.home w
  if k.bankMode acc ≠ 1 then .error (bankStop acc)
  else
    let off := s.scalar w f.c
    match s.rankBlock w.core off f.ty with
    | .error e => .error e
    | .ok b =>
      let ev := s.scalar w f.b
      match s.weightRow w.core b f.ty (wfield ev 0 12) with
      | .error e => .error e
      | .ok ws =>
        match k.evReady (some acc) with
        | .error e => .error e
        | .ok () => s.queueEv w 0x381 (.nint acc b.n0 ws) (accWord acc) ev off

def execNint (f : Ny) (s : State) : Out := .next (s.issue (.nint f) 0x381 f false (nintBody f))

def nleakBody (f : Ny) (w : Who) (s : State) : Res :=
  let acc := accNo f.a
  let k := s.home w
  if k.bankMode acc ≠ 1 then .error (bankStop acc)
  else
    match k.evReady (some acc) with
    | .error e => .error e
    | .ok () => s.queueEv w 0x382 (.nleak acc) (accWord acc) 0 0

def execNleak (f : Ny) (s : State) : Out := .next (s.issue (.nleak f) 0x382 f false (nleakBody f))

/-! ### Events (R267 to R269) -/

def roleNo : Operand → Nat
  | .role r _ => r.toNat
  | _ => 0
def roleOff : Operand → Nat
  | .role _ o => o.toNat
  | _ => 0

/-- Endpoints of the cores whose queues a role names. -/
def State.evTargets (s : State) (core role : Nat) : Except Stop (Bool × List Nat) :=
  (s.resolve core role).map fun tg => (tg.solo, (s.unitCores core tg).map tg.slice)

def nfireBody (f : Ny) (w : Who) (s : State) : Res :=
  let acc := accNo f.b
  let k := s.home w
  match s.evTargets w.core (roleNo f.a) with
  | .error e => .error e
  | .ok (solo, ts) =>
    if k.bankMode acc ≠ 1 then .error (bankStop acc)
    else if k.etick = 0xFFFE then .error (evStop 6)
    else
      match k.evReady (some acc) with
      | .error e => .error e
      | .ok () =>
        s.queueEv w 0x383 (.nfire solo ts acc) (BitVec.ofNat 32 (roleNo f.a)) (accWord acc) 0

def execNfire (f : Ny) (s : State) : Out := .next (s.issue (.nfire f) 0x383 f false (nfireBody f))

/-- EVSEND. DESIGN CHOICE (log 12): an event word given as an IMM is checked with the others, when EVSEND
acts and after its role, with the event exception of R371. -/
def evsendBody (f : Ny) (w : Who) (s : State) : Res :=
  match s.evTargets w.core (roleNo f.a) with
  | .error e => .error e
  | .ok (solo, ts) =>
    let ls := accLanes (Operand.isVreg f.b) w
    let ws := ls.map (s.srcLane w .b32 true f.b)
    if !ws.all eventOk then .error (evStop 6)
    else
      match (s.home w).evReady none with
      | .error e => .error e
      | .ok () =>
        s.queueEv w 0x384 (.send solo ts ws) (BitVec.ofNat 32 (roleNo f.a)) (ws.getD 0 0) 0

def execEvsend (f : Ny) (s : State) : Out :=
  .next (s.issue (.evsend f) 0x384 f (Operand.isVreg f.b) (evsendBody f))

/-! ### Frontiers and the release rule (R270) -/

def Front.reaches : Front → Nat → Bool
  | .none, _ => false
  | .at u, t => decide (t ≤ u)
  | .ended, _ => true
def Front.passes : Front → Nat → Bool
  | .none, _ => false
  | .at u, t => decide (t < u)
  | .ended, _ => true
def Front.below : Front → Nat → Bool
  | .none, _ => false
  | .at u, t => decide (t < u)
  | .ended, _ => false

def frontOf (fr : Cells Front) (p : Nat) : Front := Cells.look .none fr p
def allEnded (np : Nat) (fr : Cells Front) : Bool :=
  (List.range np).all fun p => frontOf fr p == .ended

/-- The entry that is first in merged order: tick, then producer, then the producer's order. -/
def firstHeld : List HeldEntry → Option HeldEntry
  | [] => none
  | e :: t =>
    match firstHeld t with
    | none => some e
    | some x => if x.tick < e.tick ∨ (x.tick = e.tick ∧ x.pix < e.pix) then some x else some e

/-- The release rule for an entry. Producer roles ascend with their index. -/
def releasable (np : Nat) (fr : Cells Front) (e : HeldEntry) : Bool :=
  (List.range np).all fun p =>
    if p < e.pix then (frontOf fr p).passes e.tick else (frontOf fr p).reaches e.tick

/-- The entry that may leave, and those that stay. -/
def release (np : Nat) (fr : Cells Front) (held : List HeldEntry) :
    Option (HeldEntry × List HeldEntry) :=
  match firstHeld held with
  | none => none
  | some e => if releasable np fr e then some (e, held.erase e) else none

/-- Entries that the rule lets leave in succession. -/
def releasedCount (np : Nat) (fr : Cells Front) : Nat → List HeldEntry → Nat
  | 0, _ => 0
  | fuel + 1, held =>
    match release np fr held with
    | none => 0
    | some (_, rest) => releasedCount np fr fuel rest + 1

/-- The producer that a sender is. -/
def producerOf (ps : List Producer) (core smt : Nat) : Option Nat :=
  ps.findIdx? fun p => p.core == core && (p.mt.isNone || p.mt == some smt)

def TimeQueue.fin (q : TimeQueue) : Bool := q.cfg && allEnded q.prods.length q.front && q.held.isEmpty
def TimeQueue.dropped (q : TimeQueue) (n : Nat) : TimeQueue := { q with drop := min 31 (q.drop + n) }

/-- One event word from producer `p` (R270). -/
def TimeQueue.take (q : TimeQueue) (p : Nat) (v : Word) : TimeQueue :=
  let t := wfield v 16 16
  match wfield v 12 2 with
  | 2 => { q with front := q.front.put .none p .ended }
  | kind =>
    if (frontOf q.front p).below t ∨ frontOf q.front p = .ended then q.dropped 1
    else
      let q := { q with front := q.front.put .none p (.at t) }
      if kind = 0 then { q with held := q.held ++ [⟨p, t, wfield v 0 12, false⟩] } else q

/-! ### The windrow (R276) -/

/-- It finishes when every producer has ended and nothing is held. -/
def Windrow.settle (x : Windrow) : Windrow :=
  if (x.st = .opened ∨ x.st = .cut) ∧ allEnded x.prods.length x.front ∧ x.held = [] then
    { x with st := .finished }
  else x

/-- The cut: held entries are discarded and counted. -/
def Windrow.cutOff (x : Windrow) : Windrow :=
  if x.st = .opened then
    ({ x with st := .cut, wasCut := true, cutcnt := x.cutcnt + x.held.length, held := [] }).settle
  else x

/-- One rank entry from producer `p`, with the entries dropped (R270). -/
def Windrow.take (p : Nat) (r : Windrow × Nat) (e : Word) : Windrow × Nat :=
  let t := wfield e 16 10
  if (frontOf r.1.front p).below t then (r.1, r.2 + 1)
  else
    ({ r.1 with
        front := r.1.front.put .none p (.at t)
        held := r.1.held ++ [⟨p, t, wfield e 0 12, e.getLsbD 12⟩] }, r.2)

/-- A message of entries from producer `p`; `fin`: it carries the producer's end. -/
def Windrow.message (x : Windrow) (p : Nat) (es : List Word) (fin : Bool) : Windrow × Nat :=
  let r : Windrow × Nat :=
    if x.st = .cut then ({ x with cutcnt := x.cutcnt + es.length }, 0)
    else es.foldl (Windrow.take p) (x, 0)
  (({ r.1 with front := if fin then r.1.front.put .none p .ended else r.1.front }).settle, r.2)

/-! ### Arrivals (R268, R270, R271, R276) -/

/-- Events and rank entries on their way into the core's queues from a producer. -/
def pendingFrom (ps : List Producer) (rank : Bool) (p : Nat) (as : List Payload) : Nat :=
  (as.map fun a => match a with
    | .event _ c m v =>
      if !rank && producerOf ps c m == some p && wfield v 12 2 == 0 then 1 else 0
    | .rank _ c m es _ => if rank && producerOf ps c m == some p then es.length else 0
    | _ => 0).sum

/-- The producer's end is on its way. -/
def pendingEnd (ps : List Producer) (p : Nat) (as : List Payload) : Bool :=
  as.any fun a => match a with
    | .rank _ c m _ true => producerOf ps c m == some p
    | _ => false

/-- The queue has an entry for an event word: one is kept for each producer that holds none. -/
def Core.eventRoom (k : Core) (sender smt : Nat) (v : Word) : Bool :=
  let q := k.tq
  let holds (p : Nat) : Nat :=
    q.held.countP (·.pix == p) + pendingFrom q.prods false p k.arrivals
  q.cfg &&
  match producerOf q.prods sender smt with
  | none => true
  | some p =>
    wfield v 12 2 != 0 || holds p == 0 ||
    (let ps := List.range q.prods.length
     decide ((ps.map holds).sum + ps.countP (fun x => holds x == 0) < 256))

/-- The windrow takes a message: it is open or cut, the producer's stream has not ended, and
its 256 entries suffice. -/
def Core.rankRoom (k : Core) (sender smt : Nat) (es : List Word) : Bool :=
  let x := k.wr
  (x.st == .opened || x.st == .cut) &&
  match producerOf x.prods sender smt with
  | none => true
  | some p =>
    frontOf x.front p != .ended && !pendingEnd x.prods p k.arrivals &&
    (x.st == .cut || decide (x.held.countP (·.pix == p) +
      pendingFrom x.prods true p k.arrivals + es.length ≤ 256))

/-- The core that sent an event or a rank message. -/
def Payload.sender? : Payload → Option Nat
  | .event _ c .. | .rank _ c .. => some c
  | _ => none

/-- Takes the first arrival that may enter out of the list, after the earlier ones of its sender. -/
def takeFirst (pick enters : Payload → Bool) (behind : List (Option Nat)) :
    List Payload → Option (Payload × List Payload)
  | [] => none
  | a :: t =>
    if pick a && enters a && !behind.contains a.sender? then some (a, t)
    else
      (takeFirst pick enters (if pick a then a.sender? :: behind else behind) t).map fun r => (r.1, a :: r.2)

/-- An event word that has been handed on finds an entry, whatever TQCFG has done since (R271). -/
def TimeQueue.fits (q : TimeQueue) (p : Nat) (v : Word) : Bool :=
  let holds (p : Nat) : Nat := q.held.countP (·.pix == p)
  wfield v 12 2 != 0 || holds p == 0 ||
    decide (q.held.length + (List.range q.prods.length).countP (fun x => holds x == 0) < 256)

/-- A message that has been handed on finds its stream open and its entries (R276). -/
def Windrow.fits (x : Windrow) (p : Nat) (es : List Word) : Bool :=
  frontOf x.front p != .ended &&
    (x.st == .cut || decide (x.held.countP (·.pix == p) + es.length ≤ 256))

/-- What has been handed on may enter its queue now: of a sender that is not declared it is dropped. -/
def Core.enters (k : Core) : Payload → Bool
  | .event _ c m v => k.tq.cfg && (producerOf k.tq.prods c m).all fun p => k.tq.fits p v
  | .rank _ c m es _ =>
    (k.wr.st == .opened || k.wr.st == .cut) && (producerOf k.wr.prods c m).all fun p => k.wr.fits p es
  | _ => false

/-- TQ_ARRIVAL: the oldest event word handed on to the core that finds room enters its queue. -/
def execTqArrival (c : Nat) (s : State) : Out :=
  let k := s.core c
  let isEvent (a : Payload) : Bool := match a with | .event .. => true | _ => false
  match takeFirst isEvent k.enters [] k.arrivals with
  | some (.event _ sender smt v, rest) =>
    let q := match producerOf k.tq.prods sender smt with
      | none => k.tq.dropped 1
      | some p => k.tq.take p v
    .next (s.setCore c { k with arrivals := rest, tq := q })
  | _ => .next s

/-- RANK_MESSAGE_ARRIVAL: the oldest rank message handed on to the core that finds room enters its
windrow. -/
def execRankMessageArrival (c : Nat) (s : State) : Out :=
  let k := s.core c
  let isRank (a : Payload) : Bool := match a with | .rank .. => true | _ => false
  match takeFirst isRank k.enters [] k.arrivals with
  | some (.rank _ sender smt es fin, rest) =>
    match producerOf k.wr.prods sender smt with
    | none => .next (s.setCore c { k with arrivals := rest, tq := k.tq.dropped (max 1 es.length) })
    | some p =>
      let r := k.wr.message p es fin
      .next (s.setCore c { k with arrivals := rest, wr := r.1, tq := k.tq.dropped r.2 })
  | _ => .next s

/-! ### TQCFG (R268) -/

/-- The block's words: CTL, LOG, reserved, and pairs of producer words. -/
def tqEntry (ws : List Word) (p : Nat) : Word × Word := (ws.getD (4 + 2 * p) 0, ws.getD (5 + 2 * p) 0)
def tqCount (ws : List Word) : Nat := wfield (ws.getD 0 0) 0 4 + 1
def tqRoles (ws : List Word) : List Nat :=
  (List.range (tqCount ws)).map fun p => wfield (tqEntry ws p).1 0 8

def ascending : List Nat → Bool
  | a :: b :: t => decide (a < b) && ascending (b :: t)
  | _ => true

def tqOk (rank : Bool) (ws : List Word) : Bool :=
  let ctl := ws.getD 0 0
  let log := ws.getD 1 0
  let np := tqCount ws
  wfield ctl 16 16 == 0 && wfield ctl 4 4 == 0 && wfield log 19 12 == 0 &&
  ws.getD 2 0 == 0 && ws.getD 3 0 == 0 &&
  ((List.range 16).all fun p =>
    let e := tqEntry ws p
    if p < np then
      wfield e.1 8 8 == 0 && wfield e.1 28 4 == 0 && wfield e.2 12 20 == 0 &&
      decide (wfield e.1 16 12 + wfield e.2 0 12 ≤ 4095)
    else e.1 == 0 && e.2 == 0) &&
  ascending (tqRoles ws) && !(rank && ctl.getLsbD 15) && !(!rank && log.getLsbD 31) &&
  !(log.getLsbD 31 && !belowWindows (wfield log 0 19) (np * 1024))

/-- Resolves the producers' roles in order. -/
def State.tqProducers (s : State) (core : Nat) (ws : List Word) : List Nat →
    Except Stop (List Producer)
  | [] => .ok []
  | p :: rest =>
    let e := tqEntry ws p
    let role := wfield e.1 0 8
    match s.resolve core role with
    | .error x => .error x
    | .ok tg =>
      let unit : Option (Nat × Option Nat) := match tg with
        | .mt c m => some (c, some m)
        | .core c => some (c, none)
        | .remote p 0 c m => some ((p + 1) * 4096 + c, some m)
        | .remote p 1 c _ => some ((p + 1) * 4096 + c, none)
        | _ => none
      match unit with
      | none => .error (exnVal 8 4 (BitVec.ofNat 32 role))
      | some (c, m) =>
        (State.tqProducers s core ws rest).map fun ps =>
          ⟨role, c, m, wfield e.1 16 12, wfield e.2 0 12 + 1⟩ :: ps

/-- Installs the time-stamped queue. -/
def TimeQueue.install (ws : List Word) (ps : List Producer) : TimeQueue :=
  let ctl := ws.getD 0 0
  ⟨true, ps, [], [], 0,
    if ctl.getLsbD 15 then some (wfield ctl 8 5, wfield ctl 13 2) else none⟩

/-- Installs the windrow for its owner. -/
def Windrow.install (ws : List Word) (ps : List Producer) (m : Nat) : Windrow :=
  let log := ws.getD 1 0
  ⟨.opened, m, ps, [], [], 0, false, if log.getLsbD 31 then some (wfield log 0 19) else none⟩

def tqcfgBody (f : Ny) (w : Who) (s : State) : Res :=
  let rank : Bool := f.md = 1
  let off := s.scalar w f.a
  match s.readCore w.core off.toNat 144 16 with
  | .error e => .error e
  | .ok bs =>
    let ws := bytesToWords bs
    if !tqOk rank ws then .error (evStop 3)
    else
      match s.tqProducers w.core ws (List.range (tqCount ws)) with
      | .error e => .error e
      | .ok ps =>
        let k := s.home w
        match k.evIdle with
        | .error e => .error e
        | .ok () =>
          if rank then
            if k.wr.st = .opened ∨ k.wr.st = .cut then .error (.wait none)
            else
              let s := (s.actEv w 0x38F off 0 0).modHome w fun k =>
                { k with wr := .install ws ps w.mt, tq := { k.tq with drop := 0 } }
              .ok (s.modSelf w fun t => { t with rkcnt := 0 })
          else
            .ok ((s.actEv w 0x38F off 0 0).modHome w fun k => { k with tq := .install ws ps })

def execTqcfg (f : Ny) (s : State) : Out := .next (s.issue (.tqcfg f) 0x38F f false (tqcfgBody f))

/-! ### EVRECV (R271, R272) -/

/-- An EVRECV on the queue that an actor's port reads counts as ADVC by 1 on its reservation (R271). -/
def State.countEvent (s : State) (w : Who) : State :=
  match (s.home w).tq.act, (s.self w).fire with
  | some (a, p), some (x, _) => if a = x then s.unreserve w.core w.mt p 1 else s
  | _, _ => s

def evrecvBody (f : Ny) (w : Who) (s : State) : Res :=
  let k := s.home w
  match k.evIdle with
  | .error e => .error e
  | .ok () =>
    if k.tq.fin then
      .ok (((s.actEv w 0x385 (s.heldValue w f.a) 0 0).countEvent w).writeDst w f.a fun _ => 0xFFFFFFFF)
    else
      match release k.tq.prods.length k.tq.front k.tq.held with
      | none => .error (.wait none)
      | some (e, rest) =>
        let v : Word := BitVec.ofNat 32 (e.tick * 65536 + e.pix * 4096 + e.addr)
        let s := (s.actEv w 0x385 (s.heldValue w f.a) 0 0).modHome w fun k =>
          { k with tq := { k.tq with held := rest }, etick := BitVec.ofNat 16 e.tick }
        .ok ((s.countEvent w).writeDst w f.a fun _ => v)

def execEvrecv (f : Ny) (s : State) : Out := .next (s.issue (.evrecv f) 0x385 f false (evrecvBody f))

/-! ### RSORT (R273, R274) -/

/-- |x| and the sign bit of an element; comparisons under .mag are on |x|. -/
def absBits (t : Ty) (x : Nat) : Nat := x % 2 ^ (t.width - 1)
def signBitOf (t : Ty) (x : Nat) : Bool := x / 2 ^ (t.width - 1) % 2 == 1

/-- The emission key: bits [14:5] of |x| as BF16, rounded toward zero. -/
def rankKey (t : Ty) (x : Nat) : Nat :=
  let a := absBits t x
  let v := t.fval a
  if v.isZero then 0
  else
    let b := if t = .bf16 then a else (roundBf16 v .rz).toNat
    b / 32 % 1024

/-- Channels that take part, in the order of emission. -/
def rankOrder (t : Ty) (mag : Bool) (thr : Word) (xs : List Nat) : List (Nat × Nat) :=
  let key (x : Nat) : FVal := t.fval (if mag then absBits t x else x)
  let cand : List (Nat × Nat) := (xs.zipIdx.map fun p => (p.2, p.1)).filter fun p =>
    !(t.fval p.2).isNan && (mag || FVal.gt (t.fval p.2) (fp32 thr))
  sortBy (fun a b => decide (0 ≤ FVal.cmp (key a.2) (key b.2))) cand

/-- The entries of an ordered list, ticks kept from falling. -/
def rankEntries (t : Ty) (mag : Bool) : Option Nat → List (Nat × Nat) → List Word
  | _, [] => []
  | prev, (c, x) :: rest =>
    let tk := 1023 - rankKey t x
    let tk := match prev with
      | some p => max tk p
      | none => tk
    let w : Word := BitVec.ofNat 32 (tk * 65536 + (if rest = [] then 2 ^ 13 else 0) +
      (if mag && signBitOf t x then 2 ^ 12 else 0) + c)
    w :: rankEntries t mag (some tk) rest

def rsortBody (f : Ny) (w : Who) (s : State) : Res :=
  let k := s.scalar w f.c
  if k.toNat < 1 ∨ 256 < k.toNat then .error (outOfRange k)
  else
    let t := s.self w
    let dst := s.scalar w f.a
    let src := s.scalar w f.b
    let n := t.rsn
    let words := if f.ty = .f32 then n else (n + 1) / 2
    match s.readWords w.core src.toNat words with
    | .error e => .error e
    | .ok ws =>
      let xs := ((ws.flatMap fun v => (List.range f.ty.perWord).map (f.ty.elem v))).take n
      let nan := xs.countP fun x => (f.ty.fval x).isNan
      let mag : Bool := f.md = 1
      let es := rankEntries f.ty mag none ((rankOrder f.ty mag t.rsthr xs).take k.toNat)
      match (if es = [] then .ok () else offsetCheck262 dst.toNat (4 * es.length) 4) with
      | .error e => .error e
      | .ok () =>
        let s := (s.padOrder w.core w.mt 1 w.core).writeScratch w.core dst.toNat es
        .ok (s.modSelf w fun t => { t with rsstat := BitVec.ofNat 32 (nan * 65536 + es.length) })

def execRsort (f : Ny) (s : State) : Out := .next (s.issue (.rsort f) 0x386 f false (rsortBody f))

/-! ### RSEND (R275) -/

/-- Reserved bits are zero and ticks do not decrease. -/
def entriesOk : List Word → Bool
  | [] => true
  | [a] => wfield a 26 6 == 0 && wfield a 14 2 == 0
  | a :: b :: t =>
    wfield a 26 6 == 0 && wfield a 14 2 == 0 && decide (wfield a 16 10 ≤ wfield b 16 10) &&
    entriesOk (b :: t)

/-- The scanning form: entries up to the first with LST. -/
def State.scanEntries (s : State) (c off : Nat) : Nat → Except Stop (List Word)
  | 0 => .error (evStop 8)
  | fuel + 1 =>
    match s.readWords c off 1 with
    | .error e => .error e
    | .ok ws =>
      let e := ws.getD 0 0
      if e.getLsbD 13 then .ok [e]
      else (State.scanEntries s c (off + 4) fuel).map fun es => e :: es

def State.rankList (s : State) (w : Who) (f : Ny) : Except Stop (List Word) :=
  let off := (s.scalar w f.b).toNat
  if f.c = Operand.zero then s.scanEntries w.core off 256
  else
    let n := s.scalar w f.c
    if 256 < n.toNat then .error (outOfRange n)
    else if n = 0 then .ok []
    else s.readWords w.core off n.toNat

/-- The endpoint that a role at core level or below names. -/
def State.coreRole (s : State) (core role : Nat) : Except Stop (Nat × Target) :=
  match s.resolve core role with
  | .error e => .error e
  | .ok tg =>
    match tg.coreOf with
    | some c => .ok (tg.slice c, tg)
    | none => .error (exnVal 8 4 (BitVec.ofNat 32 role))

def rsendBody (f : Ny) (w : Who) (s : State) : Res :=
  match s.coreRole w.core (roleNo f.a) with
  | .error e => .error e
  | .ok (ep, _) =>
    match s.rankList w f with
    | .error e => .error e
    | .ok es =>
      if !entriesOk es then .error (evStop 7)
      else
        match (s.home w).evReady none with
        | .error e => .error e
        | .ok () =>
          s.queueEv w 0x387 (.rsend ep es) (BitVec.ofNat 32 (roleNo f.a)) (s.scalar w f.b)
            (s.scalar w f.c)

def execRsend (f : Ny) (s : State) : Out := .next (s.issue (.rsend f) 0x387 f false (rsendBody f))

/-! ### RRECV (R277) -/

/-- The arrival word of an entry at rank `k`; `last`: the merged stream ends with it. -/
def arrivalWord (k : Nat) (e : HeldEntry) (last : Bool) : Word :=
  BitVec.ofNat 32 (k % 4096 * 2 ^ 18 + e.pix * 2 ^ 14 + (if last then 2 ^ 13 else 0) +
    (if e.sgn then 2 ^ 12 else 0) + e.addr)

def rrecvBody (f : Ny) (w : Who) (s : State) : Res :=
  let k := s.home w
  let x := k.wr
  if x.st = .unconfigured then .error (evStop 5)
  else if x.owner ≠ w.mt then .error (evStop 4)
  else
    let n := (s.self w).rkcnt
    let old := s.heldValue w f.a
    let logCheck : Except Stop Unit := match x.st, x.log with
      | .opened, some b => offsetCheck262 (b + 4 * n) 4 4
      | _, _ => .ok ()
    match logCheck.bind fun _ => k.evIdle with
    | .error e => .error e
    | .ok () =>
      if x.st = .opened then
        match release x.prods.length x.front x.held with
        | none => .error (.wait none)
        | some (e, rest) =>
          let ends := allEnded x.prods.length x.front
          if rest = [] ∧ !ends then .error (.wait none)
          else
            let v := arrivalWord n e (rest.isEmpty && ends)
            let s := (s.actEv w 0x388 old 0 0).modHome w fun k =>
              { k with wr := ({ x with held := rest }).settle }
            let s := s.modSelf w fun t => { t with rkcnt := n + 1 }
            let s : State := match x.log with
              | some b => s.writeScratch w.core (b + 4 * n) [v]
              | none => s
            .ok (s.writeDst w f.a fun _ => v)
      else .ok ((s.actEv w 0x388 old 0 0).writeDst w f.a fun _ => 0xFFFFFFFF)

def execRrecv (f : Ny) (s : State) : Out := .next (s.issue (.rrecv f) 0x388 f false (rrecvBody f))

/-! ### RACC (R281) -/

/-- The arrival word names a declared producer and one of its channels. -/
def Windrow.arrivalOk (x : Windrow) (v : Word) : Bool :=
  wfield v 30 2 == 0 &&
  match x.prods[wfield v 14 4]? with
  | some p => decide (wfield v 0 12 < p.nch)
  | none => false

def raccBody (f : Ny) (w : Who) (s : State) : Res :=
  let acc := accNo f.a
  let k := s.home w
  if k.bankMode acc ≠ 2 then .error (bankStop acc)
  else if k.wr.st = .unconfigured then .error (evStop 5)
  else
    let off := s.scalar w f.c
    match s.rankBlock w.core off f.ty with
    | .error e => .error e
    | .ok b =>
      let v := s.scalar w f.b
      if v = 0xFFFFFFFF then
        (k.evReady (some acc)).map fun _ => s.actEv w 0x389 (accWord acc) v off
      else if !k.wr.arrivalOk v then .error (evStop 12)
      else
        let rank := wfield v 18 12
        let base := ((k.wr.prods[wfield v 14 4]?).map (·.cbase)).getD 0
        let row : Except Stop (List FVal) :=
          if rank < 256 then s.weightRow w.core b f.ty (base + wfield v 0 12) else .ok []
        match row with
        | .error e => .error e
        | .ok ws =>
          match k.evReady (some acc) with
          | .error e => .error e
          | .ok () =>
            let a := fp32 (k.weight rank)
            let a := if v.getLsbD 12 then a.neg else a
            s.queueEv w 0x389 (.racc acc b.n0 rank a ws) (accWord acc) v off

def execRacc (f : Ny) (s : State) : Out := .next (s.issue (.racc f) 0x389 f false (raccBody f))

/-! ### RMARG (R282) -/

/-- The two largest values. -/
def topTwo (vs : List FVal) : FVal × FVal :=
  let ord := sortBy (fun a b => decide (0 ≤ FVal.cmp a b)) vs
  (ord.getD 0 .nan, ord.getD 1 .nan)

/-- D of R282, exact. -/
def topGap (vs : List FVal) : FVal :=
  let t := topTwo vs
  if FVal.cmp t.1 t.2 = 0 then FVal.zero false else FVal.add .rne t.1 t.2.neg

/-- sure and set of a bank in rank mode. -/
def Core.margin (k : Core) (b : Bank) : Bool × Bool :=
  let dec0 := wfield b.dec 0 12
  let vs := (List.range (wfield b.dec 16 12 + 1)).map fun i => fp32 (b.v (dec0 + i))
  if vs.any (·.isNan) then (false, false)
  else
    let d := topGap vs
    let t := match b.kl with
      | none => 0
      | some n => min (n + 1) 256
    let bound := ((fp32 b.wmax).mul (fp32 (k.tailSum t))).scale 1
    (k.mono && FVal.gt d bound, FVal.gt d (fp32 b.margin))

/-- Every earlier write of the bank has been applied (R233). -/
def Core.bankSettled (k : Core) (acc : Nat) : Bool :=
  k.evq.isEmpty && !(k.mx.queue.any fun o => o.acc == acc)

def rmargBody (f : Ny) (w : Who) (s : State) : Res :=
  let acc := accNo f.b
  let k := s.home w
  if k.bankMode acc ≠ 2 then .error (bankStop acc)
  else if !k.bankSettled acc then .error (.stall none)
  else
    match s.bankPoison w.core acc with
    | some e => .error (.poison e)
    | none =>
      let m := k.margin (k.bank acc)
      let p : Bool := match f.md.toNat % 4 with
        | 0 => m.1 || m.2
        | 1 => m.1
        | _ => m.2
      let cut : Bool := p && f.md.getLsbD 2
      if cut && !(k.wr.st != .unconfigured && k.wr.owner == w.mt) then .error (evStop 4)
      else
        let s := (s.actEv w 0x38A (s.heldValue w f.a) (accWord acc) 0).setPred w f.a p
        .ok (if cut then s.modHome w fun k => { k with wr := k.wr.cutOff } else s)

def execRmarg (f : Ny) (s : State) : Out := .next (s.issue (.rmarg f) 0x38A f false (rmargBody f))

/-! ### RGRAD (R283) -/

/-- The declared producer of a target's unit: a micro-thread's own entry before its core's. -/
def gradProducer (ps : List Producer) (tg : Target) : Option Nat :=
  match tg with
  | .mt c m =>
    (ps.findIdx? fun p => p.core == c && p.mt == some m).or
      (ps.findIdx? fun p => p.core == c && p.mt.isNone)
  | .core c =>
    (ps.findIdx? fun p => p.core == c && p.mt.isNone).or (ps.findIdx? fun p => p.core == c)
  | .remote q l c m =>
    let x := (q + 1) * 4096 + c
    let own := ps.findIdx? fun p => p.core == x && (l != 0 || p.mt == some m)
    own.or (ps.findIdx? fun p => p.core == x)
  | _ => none

def rgradBody (f : Ny) (w : Who) (s : State) : Res :=
  let k := s.home w
  let x := k.wr
  match s.coreRole w.core (roleNo f.a) with
  | .error e => .error e
  | .ok (ep, tg) =>
    if x.st = .unconfigured ∨ x.owner ≠ w.mt then .error (evStop 4)
    else
      match x.log, (gradProducer x.prods tg).bind fun i => (x.prods[i]?).map fun p => (i, p) with
      | some logb, some (i, p) =>
        let off := s.scalar w f.b
        match s.rankBlock w.core off f.ty with
        | .error e => .error e
        | .ok b =>
          if b.goff % 4 ≠ 0 ∨ !belowWindows b.goff (4 * p.nch) then .error (evStop 11)
          else
            match k.evReady none with
            | .error e => .error e
            | .ok () =>
              let g : GradOp :=
                { ep := ep, core := tg.coreOf.getD 0, word := roleOff f.a, pix := i
                  cbase := p.cbase, nch := p.nch, logb := logb, rkcnt := (s.self w).rkcnt
                  blk := b, ty := f.ty, tail := f.md == 1, nbv := k.nbv, sent := false, signalled := false
                  status := 0, offs := 0 }
              s.queueEv w 0x38B (.rgrad g) (BitVec.ofNat 32 (roleNo f.a)) off 0
      | some _, none => .error (exnVal 14 10 (BitVec.ofNat 32 (roleNo f.a)))
      | none, _ => .error (evStop 10)

def execRgrad (f : Ny) (s : State) : Out := .next (s.issue (.rgrad f) 0x38B f false (rgradBody f))

/-- mk of R283: the rank of the last log word of a channel. -/
def lastRank (log : List Word) (pix c : Nat) : Option Nat :=
  (log.reverse.find? fun u => wfield u 14 4 == pix && wfield u 0 12 == c).map fun u => wfield u 18 12

/-- The gradient of one channel. -/
def Core.gradient (k : Core) (g : GradOp) (log delta : List Word) (c : Nat) : Word :=
  let ws := k.weights g.nbv.toNat g.blk g.ty (g.cbase + c)
  let d := fp32 (roundFp32 (FVal.sum .rne ((delta.zip ws).map fun p => (fp32 p.1).mul p.2)) .rne)
  let tail : Word := if g.tail then roundFp32 ((fp32 g.blk.rhot).mul d) .rne else 0
  match lastRank log g.pix c with
  | some r => if r < 256 then roundFp32 ((fp32 (k.passBack r)).mul d) .rne else tail
  | none => tail

/-- STATUS of a read of scratchpad ranges: 7 outside the space, 1 at poison (R352). -/
def State.rangeStatus (s : State) (c : Nat) (rs : List (Nat × Nat)) : Nat :=
  if !(rs.all fun r => belowWindows r.1 r.2) then 7
  else if rs.any fun r => (s.scratchPoison c r.1 r.2).isSome then 1
  else 0

/-- STATUS of an RGRAD's reads when it acts, and the channels whose gradient can be formed: those below
the first that fails. -/
def State.gradCheck (s : State) (c : Nat) (g : GradOp) : Nat × Nat :=
  let st := if g.logb % 4 != 0 || g.blk.dbase % 4 != 0 then 7
    else s.rangeStatus c [(g.logb, 4 * g.rkcnt), (g.blk.dbase, 4 * g.blk.nw)]
  let row (ch : Nat) : Nat := s.rangeStatus c (g.blk.ranges g.ty (g.cbase + ch))
  if st ≠ 0 then (st, 0)
  else
    match (List.range g.nch).find? fun ch => row ch != 0 with
    | some ch => (row ch, ch)
    | none => (0, g.nch)

/-- The agent that an RGRAD is (R373). -/
def EvOp.agent (e : EvOp) (c : Nat) : Word := agentId 4 e.mt c

/-- The gradient of the first `n` channels leaves for the producer's home slice, a line's worth of words
in a message (R71). -/
def State.gradSend (s : State) (c : Nat) (e : EvOp) (g : GradOp) (n : Nat) : State :=
  let k := s.core c
  let log := bytesToWords (Memory.read k.scratch g.logb (4 * g.rkcnt))
  let delta := bytesToWords (Memory.read k.scratch g.blk.dbase (4 * g.blk.nw))
  let out := (List.range n).map (k.gradient g log delta)
  ((rowsOf 16 256 out).zipIdx.filter (·.1 != [])).foldl (fun s r =>
    s.sendFor (e.agent c) e.seq c g.ep 0 0
      (.store 3 (g.core * 0x80000 + g.blk.goff + 64 * r.2) (r.1.flatMap fun v => leBytes 4 v.toNat))) s

/-- The signal, once the gradient has been performed: the release before it (R283). -/
def State.gradSignal (s : State) (c : Nat) (e : EvOp) (g : GradOp) : State :=
  s.sendFor (e.agent c) e.seq c g.ep 0 0
    (.signal g.core g.word (BitVec.ofNat 32 g.nch) (decide (4096 ≤ g.ep)))

/-- The RGRAD at the head has come further. -/
def State.setGrad (s : State) (c : Nat) (e : EvOp) (g : GradOp) : State :=
  s.modCore c fun k => { k with evq := { e with kind := .rgrad g } :: k.evq.drop 1 }

/-- The RGRAD at the head is over: its record is posted, and a fault is late (R352). -/
def State.gradDone (s : State) (c : Nat) (e : EvOp) (g : GradOp) : State :=
  let offs := if g.status = 0 then 0 else g.offs
  let s := s.modCore c fun k => { k with evq := k.evq.drop 1 }
  let s : State :=
    if g.status = 0 then s
    else s.engineFault c 4 e.mt 0x22 e.seq (BitVec.ofNat 32 g.status) (BitVec.ofNat 128 offs)
  s.postRecord c ⟨0, BitVec.ofNat 32 offs, e.seq, g.status, 4, 0⟩

/-- A message of an RGRAD is given up: the first byte of it is not written, or all are when it is the
signal (R227, R352). -/
def GradOp.rejected (g : GradOp) (pl : Payload) : GradOp :=
  let x := match pl with
    | .store _ a _ => a % 0x80000 - g.blk.goff
    | _ => 4 * g.nch
  if g.status = 0 ∨ x < g.offs then { g with status := 6, offs := x } else g

/-- RGRAD_COMPLETION: the RGRAD at the head of the event unit's queue runs: it sends the gradient, once
that has been performed the signal, and completes (R86, R283). With a fault it sends no signal. -/
def execRgradCompletion (c : Nat) (s : State) : Out :=
  let k := s.core c
  match k.evq with
  | e :: _ =>
    match e.kind with
    | .rgrad g =>
      if s.owes (e.agent c) e.seq then .next s
      else if !g.sent then
        if k.frozen then .next s
        else
          let r := s.gradCheck c g
          let g := { g with sent := true, status := r.1, offs := 4 * r.2 }
          if r.2 = 0 ∧ r.1 ≠ 0 then .next (s.gradDone c e g)
          else .next ((s.setGrad c e g).gradSend c e g r.2)
      else if g.status = 0 ∧ g.signalled = false then
        let g := { g with signalled := true }
        .next ((s.setGrad c e g).gradSignal c e g)
      else .next (s.gradDone c e g)
    | _ => .next s
  | [] => .next s

/-! ### RWTAB (R279) -/

/-- TAIL[t] downwards, each sum rounded up. -/
def tailSums : List Word → List Word
  | [] => [0]
  | f :: rest =>
    let ts := tailSums rest
    roundFp32 (FVal.add .ru (fp32 (ts.getD 0 0)) (fp32 f)) .ru :: ts

def monotone : List Word → Bool
  | a :: b :: t => FVal.ge (fp32 a) (fp32 b) && monotone (b :: t)
  | _ => true

/-- MONO: every weight non-negative, none NaN, none rising. -/
def monoOf (f : List Word) : Bool :=
  (f.all fun x => FVal.ge (fp32 x) (FVal.zero false)) && monotone f

/-- A table from its words. -/
def tableOf (rest : Word) (ws : List Word) : Cells Word :=
  (ws.zipIdx.map fun x => (x.2, x.1)).filter fun x => x.2 != rest

def rwtabBody (f : Ny) (w : Who) (s : State) : Res :=
  let a := s.scalar w f.a
  let b := s.scalar w f.b
  match s.readWords w.core a.toNat 256 with
  | .error e => .error e
  | .ok ws =>
    let rho : Except Stop (List Word) :=
      if f.b = Operand.zero then .ok [] else s.readWords w.core b.toNat 256
    match rho with
    | .error e => .error e
    | .ok rs =>
      match (s.home w).evIdle with
      | .error e => .error e
      | .ok () =>
        .ok ((s.actEv w 0x38C a (if f.b = Operand.zero then 0 else b) 0).modHome w fun k =>
          { k with
            rankF := tableOf 0 ws, rankRho := tableOf 0x3F800000 rs
            rankTail := tableOf 0 (tailSums ws), mono := monoOf ws })

def execRwtab (f : Ny) (s : State) : Out := .next (s.issue (.rwtab f) 0x38C f false (rwtabBody f))

/-! ### State registers (R284, R285) -/

def endedMask (np : Nat) (fr : Cells Front) : Nat :=
  ((List.range np).map fun p => if frontOf fr p = .ended then 2 ^ p else 0).sum

def TimeQueue.stat (q : TimeQueue) : Word :=
  BitVec.ofNat 32 (endedMask q.prods.length q.front * 2 ^ 16 + (if q.cfg then 2 ^ 15 else 0) +
    (if q.fin then 2 ^ 14 else 0) + q.drop * 2 ^ 9 + q.held.length)

def Windrow.stat (x : Windrow) : Word :=
  BitVec.ofNat 32 (endedMask x.prods.length x.front * 2 ^ 16 +
    (if x.st = .unconfigured then 0 else 2 ^ 15) + (if x.st = .finished then 2 ^ 14 else 0) +
    (if x.wasCut then 2 ^ 13 else 0) + min 8191 x.cutcnt)

def State.stateReg (s : State) (w : Who) (n : Int) : Word :=
  let t := s.self w
  let k := s.home w
  match n.toNat with
  | 0 => BitVec.ofNat 32 t.repcnt
  | 1 => BitVec.ofNat 32 t.rkcnt
  | 2 => BitVec.ofNat 32 t.rsn
  | 3 => t.rsthr
  | 4 => t.rsstat
  | 5 => k.etick.setWidth 32
  | 6 => k.tq.stat
  | _ => k.wr.stat

/-- Reads and writes of ETICK keep the event unit's order. -/
def etickOrder (k : Core) (n : Int) : Except Stop Unit := if n = 5 then k.evIdle else .ok ()

def csrrBody (f : Ny) (w : Who) (s : State) : Res :=
  match etickOrder (s.home w) (immInt f.b) with
  | .error e => .error e
  | .ok () =>
    let v := s.stateReg w (immInt f.b)
    .ok (s.writeDst w f.a fun _ => v)

def execCsrr (f : Ny) (s : State) : Out := .next (s.issue (.csrr f) 0x38D f f.vec (csrrBody f))

def csrwBody (f : Ny) (w : Who) (s : State) : Res :=
  match s.src w .b32 true f.b with
  | .error e => .error e
  | .ok (s', g) =>
    let v := g 0
    let n := immInt f.a
    if n = 2 ∧ (v = 0 ∨ 4096 < v.toNat) then .error (outOfRange v)
    else
      match etickOrder (s.home w) n with
      | .error e => .error e
      | .ok () =>
        .ok (if n = 2 then s'.modSelf w fun t => { t with rsn := v.toNat }
          else if n = 3 then s'.modSelf w fun t => { t with rsthr := v }
          else s'.modHome w fun k => { k with etick := v.setWidth 16 })

def execCsrw (f : Ny) (s : State) : Out := .next (s.issue (.csrw f) 0x38E f false (csrwBody f))

/-! ### The event unit at work (R262) -/

/-- The bank that an action reads or writes. -/
def EvKind.bank : EvKind → Option Nat
  | .ncfg a .. | .nint a .. | .nleak a | .nfire _ _ a | .racc a .. => some a
  | _ => none

/-- A matrix operation that issued earlier still has to act on the bank (R233). -/
def Core.mxBefore (k : Core) (e : EvOp) : Bool :=
  match e.kind.bank with
  | some a => k.mx.queue.any fun o => o.acc == a && decide (o.ord < e.ord)
  | none => false

/-- Sends words of one sender to the queues of its targets; `none` while no group is free. -/
def State.sendEvents (s : State) (c m : Nat) (solo : Bool) (eps : List Nat) (ws : List Word) :
    Option State :=
  s.sendUnit c none eps solo id fun ep =>
    ws.map fun v => .event (ep % 4096 - 1024) c m v

/-- Messages of up to 32 entries, the last with end. -/
def rankMessages (core c m : Nat) : Nat → List Word → List Payload
  | 0, _ => []
  | fuel + 1, es =>
    if es.length ≤ 32 then [.rank core c m es true]
    else .rank core c m (es.take 32) false :: rankMessages core c m fuel (es.drop 32)

/-- NCFG's effect on its bank: values unchanged, state words set, KL none. -/
def Bank.configure (b : Bank) (etick : BitVec 16) (modew lambda theta dec margin wmax : Word) :
    Bank :=
  { b with
    modew := modew, lambda := lambda, theta := theta, dec := dec, margin := margin, wmax := wmax
    kl := none
    stw := if modew.toNat % 4 = 1 then
        bankCells (List.replicate 4096 (stWord false 0 etick))
      else [] }

/-- RACC's sum over the window. -/
def Bank.accumulate (b : Bank) (a : FVal) : Nat → List FVal → Bank
  | _, [] => b
  | n, w :: ws =>
    Bank.accumulate (b.setV n (roundFp32 (FVal.add .rne (fp32 (b.v n)) (a.mul w)) .rne)) a (n + 1) ws

/-- Integrates a window of weights. -/
def Bank.integrateAll (b : Bank) (etick : BitVec 16) : Nat → List FVal → Bank
  | _, [] => b
  | n, w :: ws => Bank.integrateAll (b.integrate etick n w) etick (n + 1) ws

/-- The effect of an action on its core; `none` while it must wait for a group. -/
def State.evAct (s : State) (c : Nat) (e : EvOp) : Option State :=
  let k := s.core c
  let bank (acc : Nat) (g : Bank → Bank) : Option State := some (s.modCore c (·.modBank acc g))
  match e.kind with
  | .ncfg acc mw la th de ma wm => bank acc fun b => b.configure k.etick mw la th de ma wm
  | .nint acc n0 ws => bank acc fun b => b.integrateAll k.etick n0 ws
  | .nleak acc => bank acc fun b => (List.range 4096).foldl (fun b n => b.touch k.etick n) b
  | .nfire solo ts acc =>
    let r := Bank.fireAll k.etick 4096 0 (k.bank acc)
    let t := k.etick + 1
    (s.modCore c (·.modBank acc fun _ => r.1)).sendEvents c e.mt solo ts
      (r.2.map (eventWord t 0) ++ [eventWord t 1 0])
  | .send solo ts ws => s.sendEvents c e.mt solo ts ws
  | .racc acc n0 rank a ws =>
    bank acc fun b => { (b.accumulate a n0 ws) with kl := some rank }
  | .rsend ep es =>
    some ((rankMessages (ep % 4096 - 1024) c e.mt 9 es).foldl
      (fun s p => s.send c ep clsEvent 0 0 p) s)
  | .rgrad _ => none

/-- EVENT_UNIT_ACTION: the head of the event unit's queue acts, after the matrix operations on its
bank that issued earlier; an action on a poisoned bank ends with STATUS 1 and no kill (R385). An
RGRAD is completed by its own step. -/
def execEventUnitAction (c : Nat) (s : State) : Out :=
  let k := s.core c
  match k.evq with
  | [] => .next s
  | e :: _ =>
    if k.frozen || k.mxBefore e then .next s
    else
      if ((e.kind.bank).bind (s.bankPoison c)).isSome then
        let s := s.modCore c fun k => { k with evq := k.evq.drop 1 }
        .next ((s.engineFault c 4 e.mt 0x22 e.seq 1 0).opDone c e.mt e.seq)
      else
        match s.evAct c e with
        | none => .next s
        | some s =>
          let s := s.modCore c fun k => { k with evq := k.evq.drop 1 }
          .next (s.opDone c e.mt e.seq)

end Sys2Proof.Machine
end

