-- ==== Sys2Proof/Machine/CtMem.lean ====
section
/-! DEFINITION. The memory accesses of a control thread (R33, R73, R310, R372, R374): its
translation, loads, stores, reservations and atomics, and the exceptions they raise. -/

namespace Sys2Proof.Machine

/-- Why an instruction of the control thread does not complete: an exception with its code and
stval, poison, or a stall, with the state it leaves where that differs. -/
inductive CtStop
  | exc (code : Nat) (tval : DWord)
  | poison (e : ErrorSite)
  | stall (keep : Option State)

/-- The answer of an instruction of the control thread. -/
abbrev CtRes := Except CtStop State

/-- The control thread as an agent (R373). -/
def ctAgent (c : Nat) : Word := agentId 1 0 c

/-- The privilege of an access: MPRV lends MPP to machine mode's loads and stores. -/
def Hart.effPriv (h : Hart) (a : Acc) : Priv :=
  if a ≠ .fetch ∧ h.priv = .machine ∧ h.mstatus.getLsbD 17 then Priv.ofCode (fieldOf h.mstatus 11 2)
  else h.priv

/-- Translation of the control thread: none in machine mode, else that of satp. -/
def State.ctXlate (s : State) (c : Nat) (a : Acc) (va : DWord) : Except XFault (Nat × Nat) :=
  let h := s.hart c
  match h.effPriv a with
  | .machine => if va.toNat < 2 ^ 56 then .ok (va.toNat, 0) else .error .access
  | p => s.xlate c ⟨p == .user, h.mstatus.getLsbD 18, h.mstatus.getLsbD 19, false⟩ a va

def State.ctLoc (s : State) (c : Nat) (a : Acc) (va : DWord) : Except XFault Loc :=
  match s.ctXlate c a va with
  | .error e => .error e
  | .ok (pa, ilv) =>
    match physLoc pa ilv with
    | none => .error .access
    | some l => .ok l

/-- Exception codes of a failed translation (privileged 1.12). -/
def excCode (e : XFault) (a : Acc) : Nat :=
  match e, a with
  | .page, .fetch => 12
  | .page, .read => 13
  | .page, .write => 15
  | .access, .fetch => 1
  | .access, .read => 5
  | .access, .write => 7

/-- The chunks of an access: whole where it is aligned, else byte by byte. Devices take aligned
accesses of 4 or 8 bytes (R310). -/
def State.ctChunks (s : State) (c : Nat) (a : Acc) (va : DWord) (n : Nat) :
    Except CtStop (List (Loc × Nat)) :=
  let one (va : DWord) (n : Nat) : Except CtStop (Loc × Nat) :=
    match s.ctLoc c a va with
    | .error e => .error (.exc (excCode e a) va)
    | .ok (.device p) | .ok (.pcie p) =>
      if (n = 4 ∨ n = 8) ∧ p % n = 0 ∧ a ≠ .fetch then
        .ok (if p < 0x4800000000 then .device p else .pcie p, n)
      else .error (.exc (excCode .access a) va)
    | .ok l => .ok (l, n)
  if va.toNat % n = 0 then (one va n).map fun x => [x]
  else (List.range n).mapM fun i => one (va + BitVec.ofNat 64 i) 1

/-- A poisoned place among the chunks. -/
def State.ctPoison (s : State) (ls : List (Loc × Nat)) : Except CtStop Unit :=
  match ls.find? fun p => s.poisoned p.1 with
  | some p =>
    match p.1.site with
    | some e => .error (.poison e)
    | none => .ok ()
  | none => .ok ()

/-- The open-region checks of an access of the control thread; a conflict is the extension fault
with cause 0x0F (R372, R374). -/
def State.ctRegion (s : State) (c : Nat) (write special : Bool) : List (Loc × Nat) → CtRes
  | [] => .ok s
  | (l, n) :: rest =>
    match s.regionAccess (ctAgent c) (s.hart c).region false l n write special with
    | .ok s => State.ctRegion s c write special rest
    | .error none => .error (.stall none)
    | .error (some q) =>
      let e := conflictExn s (ctAgent c) 4 0 (l.bytesMask n) q
      .error (.exc 26 (extTval 15 e.detail))

/-- The control thread's messages to memory hold an access back: some were issued in an earlier region
(R81, R83), or an atomic of the core to these bytes is on its way. -/
def State.ctHeld (s : State) (c : Nat) (ls : List (Loc × Nat)) : Bool :=
  s.fencedIn (ctAgent c) || ls.any fun p => s.rmwAhead c p.1 p.2

/-- The accesses pass their channels and come after the control thread's earlier messages, or the
instruction stalls (R340, R81). -/
def State.ctPass (s : State) (c : Nat) (ls : List (Loc × Nat)) : CtRes :=
  if s.ctHeld c ls then .error (.stall none)
  else
    match s.viaChannels (s.ctWaiter c) (ls.map (·.1)) with
    | .error k => .error (.stall (some k))
    | .ok s => .ok s

/-- Bytes read at chunks. -/
def State.ctRead (s : State) (c : Nat) (ls : List (Loc × Nat)) : List Byte :=
  ls.flatMap fun p => match p.1 with
    | .device pa => leBytes p.2 (s.devRead pa p.2).toNat
    | .pcie _ => leBytes p.2 (Config.deviceRead s.free).toNat
    | l => s.loadCached c l p.2

/-- Bytes written at chunks. -/
def State.ctWrite (s : State) (c : Nat) : List (Loc × Nat) → List Byte → State
  | [], _ => s
  | (l, n) :: ls, bs =>
    let d := bs.take n
    let s : State := match l with
      | .device pa => s.storeDevice (ctAgent c) c pa n (BitVec.ofNat 64 (leNat d))
      | .pcie _ => s
      | l => s.storeBytes (ctAgent c) (s.hart c).region c l d
    State.ctWrite s c ls (bs.drop n)

/-- A load of `n` bytes: the state and the value. -/
def State.ctLoad (s : State) (c : Nat) (va : DWord) (n : Nat) : Except CtStop (State × Nat) :=
  match s.ctChunks c .read va n with
  | .error e => .error e
  | .ok ls =>
    match s.ctPoison ls with
    | .error e => .error e
    | .ok () =>
      match s.ctRegion c false false ls with
      | .error e => .error e
      | .ok s => (s.ctPass c ls).map fun s => (s, leNat (s.ctRead c ls))

/-- A write of LQDB is a release: it waits for the control thread's messages and closes its region
(R311). -/
def State.ctDoorbell (s : State) (c : Nat) (ls : List (Loc × Nat)) : CtRes :=
  if ls.any (·.1.isLqdb) then
    if (s.core c).outstanding (ctAgent c) then .error (.stall none) else .ok (s.closeRegion (ctAgent c))
  else .ok s

/-- A store of `n` bytes. -/
def State.ctStore (s : State) (c : Nat) (va : DWord) (n v : Nat) : CtRes :=
  match s.ctChunks c .write va n with
  | .error e => .error e
  | .ok ls =>
    match s.ctRegion c true false ls with
    | .error e => .error e
    | .ok s =>
      match s.ctPass c ls with
      | .error e => .error e
      | .ok s => (s.ctDoorbell c ls).map fun s => s.ctWrite c ls (leBytes n v)

/-- The place of an LR, SC or AMO: aligned, and not a device (R310). -/
def State.ctAtomLoc (s : State) (c : Nat) (a : Acc) (va : DWord) (n : Nat) : Except CtStop Loc :=
  if va.toNat % n ≠ 0 then .error (.exc (if a = .read then 4 else 6) va)
  else
    match s.ctLoc c a va with
    | .error e => .error (.exc (excCode e a) va)
    | .ok (.device _) | .ok (.pcie _) => .error (.exc (excCode .access a) va)
    | .ok l => .ok l

/-- LR: the value, and the reservation. -/
def State.ctLr (s : State) (c : Nat) (va : DWord) (dbl : Bool) : Except CtStop (State × Nat) :=
  let n := if dbl then 8 else 4
  match s.ctAtomLoc c .read va n with
  | .error e => .error e
  | .ok l =>
    match s.ctPoison [(l, n)] with
    | .error e => .error e
    | .ok () =>
      match s.ctRegion c false false [(l, n)] with
      | .error e => .error e
      | .ok s => (s.ctPass c [(l, n)]).map fun s =>
        (s.modHart c fun h => { h with resv := l.homed.map fun x => (x.1, x.2.1, dbl) },
          leNat (s.loadBytes c l n))

/-- SC: stores under a reservation that still stands; 0 says that it did. -/
def State.ctSc (s : State) (c : Nat) (va : DWord) (dbl : Bool) (v : Nat) :
    Except CtStop (State × Nat) :=
  let n := if dbl then 8 else 4
  match s.ctAtomLoc c .write va n with
  | .error e => .error e
  | .ok l =>
    let held := (s.hart c).resv == l.homed.map fun x => (x.1, x.2.1, dbl)
    let clear (s : State) : State := s.modHart c fun h => { h with resv := none }
    if held then
      match s.ctRegion c true true [(l, n)] with
      | .error e => .error e
      | .ok s => (s.ctPass c [(l, n)]).map fun s => (clear (s.ctWrite c [(l, n)] (leBytes n v)), 0)
    else .ok (clear s, 1)

/-- AMO on a value of `n` bytes. -/
def amoOp (k : RvAmo) (n : Nat) (m v : Nat) : Nat :=
  let w := 8 * n
  let sg (x : Nat) : Int := signed w x
  match k with
  | .swap => v
  | .add => (m + v) % 2 ^ w
  | .xor => m ^^^ v
  | .and => m &&& v
  | .or => m ||| v
  | .min => if sg m ≤ sg v then m else v
  | .max => if sg v ≤ sg m then m else v
  | .minu => min m v
  | .maxu => max m v

/-- The answer to the AMO that a paired core's control thread has under way, if one is (R377). -/
def State.ctAnswered (s : State) (c : Nat) : Option (Except CtStop (State × Nat)) :=
  (s.hart c).asked.map fun q =>
    match (s.core c).answers.find? (·.1 == q) with
    | none => .error (.stall none)
    | some a =>
      let s := s.modCore c fun k => { k with answers := k.answers.filter (·.1 != q) }
      .ok (s.modHart c fun h => { h with asked := none }, a.2.toNat)

/-- aq acquires at every scope. -/
def State.ctAcquire (s : State) (c : Nat) (aqrl : BitVec 2) : State :=
  if aqrl.getLsbD 1 then s.acquireAt c 4 else s

/-- An access with aq or rl is a synchronisation operation of the control thread (R79). -/
def State.ctClose (s : State) (c : Nat) (aqrl : BitVec 2) : State :=
  if aqrl = 0 then s else s.closeRegion (ctAgent c)

/-- AMO at a place: at once, with a free value behind a fence (R384, log 32), or for a paired core as
a message whose answer it awaits (R378). -/
def State.ctAmoAt (s : State) (c : Nat) (l : Loc) (k : RvAmo) (n v : Nat) : Except CtStop (State × Nat) :=
  match (s.core c).pair, l.homed with
  | some q, some (kd, a, ep) =>
    let s := s.sendFor (ctAgent c) (s.hart c).region c ep 0 0 (.rmw kd a n (.amo k v))
    .error (.stall (some (s.modHart c fun h => { h with asked := some q.pseq })))
  | _, _ =>
    let old := leNat (s.loadBytes c l n)
    .ok (if s.fencedPlace c l then s else s.writeBy c l (leBytes n (amoOp k n old v)), old)

/-- AMO: the old value. Its region closes when it leaves, and it acquires with its answer. -/
def State.ctAmo (s : State) (c : Nat) (va : DWord) (k : RvAmo) (dbl : Bool) (aqrl : BitVec 2) (v : Nat) :
    Except CtStop (State × Nat) :=
  let n := if dbl then 8 else 4
  let acquired (r : State × Nat) : State × Nat := (r.1.ctAcquire c aqrl, r.2)
  match s.ctAnswered c with
  | some r => r.map acquired
  | none =>
    match s.ctAtomLoc c .write va n with
    | .error e => .error e
    | .ok l =>
      match s.ctPoison [(l, n)] with
      | .error e => .error e
      | .ok () =>
        match s.ctRegion c true true [(l, n)] with
        | .error e => .error e
        | .ok s =>
          match s.ctPass c [(l, n)] with
          | .error e => .error e
          | .ok s => ((s.ctClose c aqrl).ctAmoAt c l k n (v % 2 ^ (8 * n))).map acquired

/-- Finishes instruction `i` of the control thread of core `c`, which began in `s`: it retires to
`npc`, or takes its exception, or the control thread stalls in it. An ECALL from user mode with
a7 = 0 ends the core's part (R300). -/
def State.ctFinish (s : State) (i : Instr) (c : Nat) (npc : DWord) (r : CtRes) : State :=
  match r with
  | .ok t => t.ctRetire c ((s.hart c).priv == .user) npc
  | .error (.exc code tval) =>
    let s := if code = 26 ∧ tval.toNat % 256 = 15 then s.closeRegion (ctAgent c) else s
    let ends : Bool := code = 8 ∧ (s.hart c).reg 17 = 0
    (if ends then s.modHart c fun h => { h with partEnd := true } else s).ctTrap c code tval
  | .error (.poison e) => s.consumePoison c e
  | .error (.stall keep) => (keep.getD (s.leaveAll (s.ctWaiter c))).modHart c fun h => { h with stall := some i }

/-- The place lies in a device's registers or behind a PCIe port. -/
def Loc.inIo : Loc → Bool
  | .device _ | .pcie _ => true
  | _ => false

/-- The words of a block that an extension instruction reads, in memory only (R310). -/
def State.ctBlock (s : State) (c : Nat) (va : DWord) : Nat → Except CtStop (List (Loc × Nat))
  | 0 => .ok []
  | n + 1 =>
    match s.ctChunks c .read va 4 with
    | .error e => .error e
    | .ok ls =>
      if ls.any (·.1.inIo) then .error (.exc (excCode .access .read) va)
      else (State.ctBlock s c (va + 4) n).map (ls ++ ·)

/-- The `n` words that an extension instruction reads at a virtual address, by accesses of the control
thread. -/
def State.ctBytes (s : State) (c : Nat) (va : DWord) (n : Nat) : Except CtStop (State × List Byte) :=
  match s.ctBlock c va n with
  | .error e => .error e
  | .ok ls =>
    match s.ctPoison ls with
    | .error e => .error e
    | .ok () =>
      match s.ctRegion c false false ls with
      | .error e => .error e
      | .ok s => (s.ctPass c ls).map fun s => (s, s.ctRead c ls)

end Sys2Proof.Machine
end

