-- ==== Sys2Proof/Machine/Csr.lean ====
section
/-! DEFINITION. The control-and-status registers of a control thread: the standard ones of the
RISC-V privileged specification 1.12 (R33, log 6) and the part's own (R76, R110, R257, R322,
R323, R330, R349, R353, R363), and the writes that wait (R76, R110) or resume (R351). -/

namespace Sys2Proof.Machine

/-! ### Idle conditions -/

/-- Every micro-thread is idle. -/
def Core.mtsIdle (k : Core) : Bool := (List.range 16).all fun m => (k.mt m).st == .idle

/-- The copy engine, matrix unit and event unit have no operation outstanding. -/
def Core.enginesIdle (k : Core) : Bool :=
  k.copies.isEmpty && k.fifo.isEmpty && k.mx.queue.isEmpty && k.evq.isEmpty && k.posting.isEmpty

/-- A write of CTXID.CTX, which waits; INC becomes the context's current incarnation (R76). -/
def State.ctxidWrite (s : State) (c : Nat) (v : DWord) : Option State :=
  let k := s.core c
  if k.mtsIdle && k.enginesIdle then
    let ctx := fieldOf v 0 12
    some (s.setCore c { k with
      ctx := BitVec.ofNat 12 ctx, inc := BitVec.ofNat 8 (s.incEntry ctx).1 })
  else none

/-- A write of NBV, which waits; VER 0 and 3 leave it unchanged (R110). -/
def State.nbvWrite (s : State) (c : Nat) (v : DWord) : Option State :=
  let k := s.core c
  if k.mtsIdle && k.mx.chain.isNone then
    let x := fieldOf v 0 2
    some (if x = 1 ∨ x = 2 then s.setCore c { k with nbv := BitVec.ofNat 2 x } else s)
  else none

/-- MTRESUME: each held micro-thread named in the mask resumes (R351). -/
def State.mtresume (s : State) (c : Nat) (mask : DWord) : State :=
  ((List.range 16).filter fun m => mask.getLsbD m).foldl (fun s m => s.resumeMt c m) s

/-! ### Writable fields -/

/-- The bits of `mask` from `v`, the others from `old`. -/
def merge (mask old v : DWord) : DWord := (old &&& ~~~mask) ||| (v &&& mask)

/-- SIE, MIE, SPIE, MPIE, SPP, MPP, MPRV, SUM, MXR, TVM, TW, TSR. -/
def mstatusMask : DWord := 0x00000000007E19AA
/-- SIE, SPIE, SPP, SUM, MXR. -/
def sstatusMask : DWord := 0x00000000000C0122
/-- UXL as well. -/
def sstatusRead : DWord := 0x00000003000C0122
def mieMask : DWord := 0x30AAA
def sMask : DWord := 0x30222
/-- Exceptions that can be delegated: 0 to 9, 12, 13, 15, 24 and 26. -/
def medelegMask : DWord := 0x0500B3FF

/-- mstatus after a write: MPP = 2 is no mode and keeps the old value. -/
def mstatusNext (mask old v : DWord) : DWord :=
  let n := merge mask old v
  if fieldOf n 11 2 = 2 then setField n 11 2 (fieldOf old 11 2) else n

/-- A vector base: the mode is 0 or 1. -/
def tvecOf (v : DWord) : DWord := v &&& ~~~2#64

/-- satp after a write: bare or Sv48, other modes leave it unchanged. -/
def satpNext (old v : DWord) : DWord :=
  if fieldOf v 60 4 = 0 ∨ fieldOf v 60 4 = 9 then v else old

/-! ### Reads -/

def misaValue : DWord := 0x8000000000141105

/-- Counters that a mode may read (mcounteren, scounteren). -/
def Hart.counterOk (h : Hart) (i : Nat) : Bool :=
  match h.priv with
  | .machine => true
  | .supervisor => h.mcounteren.getLsbD i
  | .user => h.mcounteren.getLsbD i && h.scounteren.getLsbD i

/-- Standard registers of supervisor and machine mode; a migration leaves mhartid as it was (R361). -/
def Core.stdCsr (k : Core) (core num : Nat) : Option DWord :=
  let h := k.ct
  match num with
  | 0x100 => some (h.mstatus &&& sstatusRead)
  | 0x104 => some (h.mie &&& h.mideleg)
  | 0x105 => some h.stvec
  | 0x106 => some h.scounteren
  | 0x10A => some h.senvcfg
  | 0x140 => some h.sscratch
  | 0x141 => some h.sepc
  | 0x142 => some h.scause
  | 0x143 => some h.stval
  | 0x144 => some (k.ip &&& h.mideleg)
  | 0x180 => some h.satp
  | 0x300 => some h.mstatus
  | 0x301 => some misaValue
  | 0x302 => some h.medeleg
  | 0x303 => some h.mideleg
  | 0x304 => some h.mie
  | 0x305 => some h.mtvec
  | 0x306 => some h.mcounteren
  | 0x30A => some h.menvcfg
  | 0x320 => some h.mcountinhibit
  | 0x340 => some h.mscratch
  | 0x341 => some h.mepc
  | 0x342 => some h.mcause
  | 0x343 => some h.mtval
  | 0x344 => some k.ip
  | 0xF11 | 0xF12 | 0xF13 | 0xF15 => some 0
  | 0xF14 => some (BitVec.ofNat 64 core)
  | _ =>
    if (0x323 ≤ num ∧ num ≤ 0x33F) ∨ (0x3A0 ≤ num ∧ num ≤ 0x3EF) then some 0 else none

/-- The dispatch-ring entry that DRSEL names (R353). -/
def Core.ringEntry (k : Core) : DispatchEntry :=
  k.ring.look ⟨0, 0, 0, 0, false, 0, 0, 0⟩ k.drsel.toNat

/-- The part's own registers; OPCUR is the operating point of the core's tile (R323). -/
def State.ownCsr (s : State) (c num : Nat) : Option DWord :=
  let k := s.core c
  let e := k.ringEntry
  match num with
  | 0x5C0 => some k.trbase
  | 0x5C1 => some 0
  | 0x5C2 => some k.dbgctl
  | 0x5C3 => some k.trloc
  | 0x5C4 | 0x5C5 | 0x5C6 | 0x5C7 => some (k.dbgpc.look 0 (num - 0x5C4))
  | 0x5C8 => some (k.drsel.setWidth 64)
  | 0x5C9 => some (BitVec.ofNat 64 (k.inc.toNat * 4096 + k.ctx.toNat))
  | 0x5CA => some (k.nbv.setWidth 64)
  | 0x8C0 => some k.pwrreq
  | 0xCC0 => some k.ctinbhi
  | 0xCC1 => some (BitVec.ofNat 64 k.duty)
  | 0xCC2 => some (k.tallow.setWidth 64)
  | 0xCC3 => some (BitVec.ofNat 64 (s.tile (tileOf c)).op)
  | 0xDC0 => some (k.lcnt.setWidth 64)
  | 0xDC1 => some k.mttrap
  | 0xDC2 => some (e.seq ++ e.pc : BitVec 64)
  | 0xDC3 =>
    some (BitVec.ofNat 64 (e.op.toNat * 2 ^ 54 + e.mt * 2 ^ 50 + (if e.ct then 2 ^ 49 else 0) +
      e.av.toNat))
  | 0xDC4 => some (e.cv ++ e.bv : BitVec 64)
  | _ => none

/-- The counters: cycles and retired instructions, and a free value for the others (log 3). -/
def State.counterOf (s : State) (c n : Nat) : DWord :=
  match n with
  | 0xB00 | 0xC00 => s.mcycleOf c
  | 0xB02 | 0xC02 => (s.hart c).minstret
  | _ => Config.counterRead s.free

/-- A register as read; `none` names no register. -/
def State.csrRead (s : State) (c : Nat) (num : BitVec 12) : Option DWord :=
  let n := num.toNat
  match s.ownCsr c n with
  | some v => some v
  | none =>
    match (s.core c).stdCsr (s.originOf c) n with
    | some v => some v
    | none =>
      if (0xC00 ≤ n ∧ n < 0xC20 ∧ (s.hart c).counterOk (n - 0xC00)) ∨ n = 0xB00 ∨
          (0xB02 ≤ n ∧ n < 0xB20) then
        some (s.counterOf c n)
      else none

/-! ### Writes -/

/-- The standard registers of a hart after a write; a number without writable state leaves it. -/
def Hart.stdWrite (h : Hart) (num : Nat) (v : DWord) : Hart :=
  match num with
  | 0x100 => { h with mstatus := mstatusNext sstatusMask h.mstatus v }
  | 0x104 => { h with mie := merge (h.mideleg &&& sMask) h.mie v }
  | 0x105 => { h with stvec := tvecOf v }
  | 0x106 => { h with scounteren := v &&& 0xFFFFFFFF }
  | 0x10A => { h with senvcfg := v &&& 1 }
  | 0x140 => { h with sscratch := v }
  | 0x141 => { h with sepc := v &&& ~~~1#64 }
  | 0x142 => { h with scause := v }
  | 0x143 => { h with stval := v }
  | 0x144 => { h with mip := merge (h.mideleg &&& 2) h.mip v }
  | 0x180 => { h with satp := satpNext h.satp v }
  | 0x300 => { h with mstatus := mstatusNext mstatusMask h.mstatus v }
  | 0x302 => { h with medeleg := v &&& medelegMask }
  | 0x303 => { h with mideleg := (v &&& 0x222) ||| 0x30000 }
  | 0x304 => { h with mie := v &&& mieMask }
  | 0x305 => { h with mtvec := tvecOf v }
  | 0x306 => { h with mcounteren := v &&& 0xFFFFFFFF }
  | 0x30A => { h with menvcfg := v &&& 1 }
  | 0x320 => { h with mcountinhibit := v &&& 0xFFFFFFFD }
  | 0x340 => { h with mscratch := v }
  | 0x341 => { h with mepc := v &&& ~~~1#64 }
  | 0x342 => { h with mcause := v }
  | 0x343 => { h with mtval := v }
  | 0x344 => { h with mip := merge 0x222 h.mip v }
  | 0xB02 => { h with minstret := v }
  | _ => h

/-- Software clears the late latch by writing 0 to bit 17 of sip or mip (R350). -/
def Core.clearLate (k : Core) (num : Nat) (v : DWord) : Core :=
  if num = 0x144 ∨ num = 0x344 then { k with late := k.late && v.getLsbD 17 } else k

/-- The part's own registers without a wait. -/
def Core.ownWrite (k : Core) (num : Nat) (v : DWord) : Core :=
  match num with
  | 0x5C0 => { k with trbase := v &&& 0xFFFFFFFFFFFFF001 }
  | 0x5C2 => { k with dbgctl := v &&& 0x3FFFF }
  | 0x5C3 => { k with trloc := v }
  | 0x5C4 | 0x5C5 | 0x5C6 | 0x5C7 =>
    { k with dbgpc := k.dbgpc.put 0 (num - 0x5C4) (v &&& 0xFFFFFFFFFFFD) }
  | 0x5C8 => { k with drsel := v.setWidth 6 }
  | 0x8C0 => { k with pwrreq := v &&& 0x107 }
  | _ => k

/-- A write of a register; `none` while it waits. -/
def State.csrWrite (s : State) (c : Nat) (num : BitVec 12) (v : DWord) : Option State :=
  let n := num.toNat
  if n = 0x5C9 then s.ctxidWrite c v
  else if n = 0x5CA then s.nbvWrite c v
  else if n = 0x5C1 then some (s.mtresume c v)
  else
    let k := ((s.core c).ownWrite n v).clearLate n v
    let cyc := s.mcycleOf c
    let h := k.ct.stdWrite n v
    let h := if n = 0xB00 then h.withCycle (s.coreCycles c) v
      else if n = 0x320 then h.withCycle (s.coreCycles c) cyc else h
    some (s.setCore c { k with ct := h })

/-! ### The steps that write registers -/

/-- A write that waits leaves its step as the control thread's stall. -/
def State.orStall (s : State) (c : Nat) (i : Instr) (r : Option State) : State :=
  match r with
  | some t => t.modHart c fun h => { h with stall := if h.stall = some i then none else h.stall }
  | none => s.modHart c fun h => { h with stall := some i }

def execCtxidCtxWrite (c : Nat) (v : DWord) (s : State) : Out :=
  .next (s.orStall c (.ctxidCtxWrite c v) (s.ctxidWrite c v))

def execNbvWrite (c : Nat) (v : DWord) (s : State) : Out :=
  .next (s.orStall c (.nbvWrite c v) (s.nbvWrite c v))

def execMtresume (c : Nat) (mask : DWord) (s : State) : Out := .next (s.mtresume c mask)

/-- REGISTER_WRITE: a CSR of a control thread, or a device register (R8). -/
def execRegisterWrite (r : RegRef) (v : DWord) (s : State) : Out :=
  match r with
  | .csr c num =>
    -- a read-only register discards the write
    if num.toNat / 1024 = 3 then .next s
    else .next (s.orStall c (.registerWrite r v) (s.csrWrite c num v))
  | .device pa => .next (s.devWrite pa 8 v)

end Sys2Proof.Machine
end

