-- ==== Sys2Proof/Machine/Riscv.lean ====
section
/-! DEFINITION. The control thread's RISC-V instructions: RV64IMAC, Zicsr, Zifencei, Zba, Zbb and
the privileged ones (R33, R140, R356, R364, log 6). -/

namespace Sys2Proof.Machine

/-! ### Arithmetic -/

def lowW (a : DWord) : Word := a.setWidth 32
def sextW (a : Word) : DWord := a.signExtend 64
def zextW (a : DWord) : DWord := (lowW a).setWidth 64
def boolD (b : Bool) : DWord := if b then 1 else 0

/-- Division and remainder with RISC-V's results for a zero divisor. -/
def divS {n : Nat} (a b : BitVec n) : BitVec n := if b = 0 then BitVec.allOnes n else a.sdiv b
def divU {n : Nat} (a b : BitVec n) : BitVec n := if b = 0 then BitVec.allOnes n else a / b
def remS {n : Nat} (a b : BitVec n) : BitVec n := a.srem b
def remU {n : Nat} (a b : BitVec n) : BitVec n := if b = 0 then a else a % b

def mulHigh (a b : BitVec 128) : DWord := (a * b).extractLsb' 64 64

def rvAlu (k : RvAlu) (a b : DWord) : DWord :=
  let sh := b.toNat % 64
  let shw := b.toNat % 32
  match k with
  | .add => a + b
  | .sub => a - b
  | .sll => a <<< sh
  | .slt => boolD (a.slt b)
  | .sltu => boolD (a.ult b)
  | .xor => a ^^^ b
  | .srl => a >>> sh
  | .sra => a.sshiftRight sh
  | .or => a ||| b
  | .and => a &&& b
  | .addw => sextW (lowW a + lowW b)
  | .subw => sextW (lowW a - lowW b)
  | .sllw => sextW (lowW a <<< shw)
  | .srlw => sextW (lowW a >>> shw)
  | .sraw => sextW ((lowW a).sshiftRight shw)
  | .mul => a * b
  | .mulh => mulHigh (a.signExtend 128) (b.signExtend 128)
  | .mulhsu => mulHigh (a.signExtend 128) (b.setWidth 128)
  | .mulhu => mulHigh (a.setWidth 128) (b.setWidth 128)
  | .div => divS a b
  | .divu => divU a b
  | .rem => remS a b
  | .remu => remU a b
  | .mulw => sextW (lowW a * lowW b)
  | .divw => sextW (divS (lowW a) (lowW b))
  | .divuw => sextW (divU (lowW a) (lowW b))
  | .remw => sextW (remS (lowW a) (lowW b))
  | .remuw => sextW (remU (lowW a) (lowW b))
  | .sh1add => b + (a <<< 1)
  | .sh2add => b + (a <<< 2)
  | .sh3add => b + (a <<< 3)
  | .adduw => b + zextW a
  | .sh1adduw => b + (zextW a <<< 1)
  | .sh2adduw => b + (zextW a <<< 2)
  | .sh3adduw => b + (zextW a <<< 3)
  | .andn => a &&& ~~~b
  | .orn => a ||| ~~~b
  | .xnor => ~~~(a ^^^ b)
  | .max => if a.slt b then b else a
  | .maxu => if a.ult b then b else a
  | .min => if a.slt b then a else b
  | .minu => if a.ult b then a else b
  | .rol => a.rotateLeft sh
  | .ror => a.rotateRight sh
  | .rolw => sextW ((lowW a).rotateLeft shw)
  | .rorw => sextW ((lowW a).rotateRight shw)

def rvImmOp (k : RvImm) (a imm : DWord) : DWord :=
  match k with
  | .addi => a + imm
  | .slti => boolD (a.slt imm)
  | .sltiu => boolD (a.ult imm)
  | .xori => a ^^^ imm
  | .ori => a ||| imm
  | .andi => a &&& imm
  | .addiw => sextW (lowW a + lowW imm)

def rvShift (k : RvSh) (a : DWord) (sh : Nat) : DWord :=
  match k with
  | .slli => a <<< sh
  | .srli => a >>> sh
  | .srai => a.sshiftRight sh
  | .rori => a.rotateRight sh
  | .slliuw => zextW a <<< sh
  | .slliw => sextW (lowW a <<< (sh % 32))
  | .srliw => sextW (lowW a >>> (sh % 32))
  | .sraiw => sextW ((lowW a).sshiftRight (sh % 32))
  | .roriw => sextW ((lowW a).rotateRight (sh % 32))

/-- Leading zeros, trailing zeros and set bits of the low `n` bits. -/
def leadZ (n x : Nat) : Nat := if x = 0 then n else n - 1 - Nat.log2 x
def trailZ (n x : Nat) : Nat := ((List.range n).findIdx? fun i => pteBit x i).getD n
def popCount (n x : Nat) : Nat := (List.range n).countP fun i => pteBit x i

def bytesOf (f : Nat → Nat) : DWord :=
  BitVec.ofNat 64 (leNat ((List.range 8).map fun i => BitVec.ofNat 8 (f i)))

def rvUnary (k : RvUn) (a : DWord) : DWord :=
  let byteAt (i : Nat) : Nat := a.toNat / 256 ^ i % 256
  match k with
  | .clz => BitVec.ofNat 64 (leadZ 64 a.toNat)
  | .ctz => BitVec.ofNat 64 (trailZ 64 a.toNat)
  | .cpop => BitVec.ofNat 64 (popCount 64 a.toNat)
  | .clzw => BitVec.ofNat 64 (leadZ 32 (lowW a).toNat)
  | .ctzw => BitVec.ofNat 64 (trailZ 32 (lowW a).toNat)
  | .cpopw => BitVec.ofNat 64 (popCount 32 (lowW a).toNat)
  | .sextb => (a.setWidth 8).signExtend 64
  | .sexth => (a.setWidth 16).signExtend 64
  | .zexth => (a.setWidth 16).setWidth 64
  | .orcb => bytesOf fun i => if byteAt i = 0 then 0 else 255
  | .rev8 => bytesOf fun i => byteAt (7 - i)

def rvTaken (k : RvBr) (a b : DWord) : Bool :=
  match k with
  | .eq => a == b
  | .ne => a != b
  | .lt => a.slt b
  | .ge => !a.slt b
  | .ltu => a.ult b
  | .geu => !a.ult b

def loadSize : RvLd → Nat
  | .b | .bu => 1
  | .h | .hu => 2
  | .w | .wu => 4
  | .d => 8

def loadExtend (k : RvLd) (v : Nat) : DWord :=
  match k with
  | .b => (BitVec.ofNat 8 v).signExtend 64
  | .h => (BitVec.ofNat 16 v).signExtend 64
  | .w => (BitVec.ofNat 32 v).signExtend 64
  | _ => BitVec.ofNat 64 v

def storeSize : RvSt → Nat
  | .b => 1
  | .h => 2
  | .w => 4
  | .d => 8

/-- The result of an atomic in rd: a word is sign-extended. -/
def atomResult (dbl : Bool) (v : Nat) : DWord :=
  if dbl then BitVec.ofNat 64 v else (BitVec.ofNat 32 v).signExtend 64

/-! ### Execution -/

def State.setX (s : State) (c : Nat) (rd : BitVec 5) (v : DWord) : State :=
  s.modHart c (·.setReg rd v)

/-- Illegal instruction, with the word as tval. -/
def illegal (w : DWord) : CtRes := .error (.exc 2 w)

/-- The part's own read-only registers: CTINBHI, FDUTY, TALLOW, OPCUR, LCNT, MTTRAP and DRDATA. -/
def ownReadOnly (num : Nat) : Bool :=
  decide (0xCC0 ≤ num ∧ num ≤ 0xCC3) || decide (0xDC0 ≤ num ∧ num ≤ 0xDC4)

/-- The CSR may be accessed: it exists for the mode, a write needs a writable number, and TVM
keeps supervisor mode from satp. A write of one of the part's own read-only registers is ignored (R8). -/
def Hart.csrAllowed (h : Hart) (num : BitVec 12) (write : Bool) : Bool :=
  decide (num.toNat / 256 % 4 ≤ h.priv.code) &&
  !(write && num.toNat / 1024 == 3 && !ownReadOnly num.toNat) &&
  !(num == 0x180 && h.priv == .supervisor && h.mstatus.getLsbD 20)

/-- A CSR instruction. A write with no effect on the register is not made when rs1 is x0. -/
def State.csrInstr (s : State) (c : Nat) (k : RvCsr) (useImm : Bool) (rd rs1 : BitVec 5)
    (num : BitVec 12) (word : DWord) : CtRes :=
  let h := s.hart c
  let src : DWord := if useImm then rs1.setWidth 64 else h.reg rs1
  let write : Bool := match k with
    | .rw => true
    | _ => rs1 != 0
  if !h.csrAllowed num write then illegal word
  else
    match s.csrRead c num with
    | none => illegal word
    | some old =>
      let new : DWord := match k with
        | .rw => src
        | .rs => old ||| src
        | .rc => old &&& ~~~src
      -- the instruction retires after it has written minstret, and is not counted in it
      let new := if num = 0xB02 ∧ h.mcountinhibit.getLsbD 2 = false then new - 1 else new
      if !write then .ok (s.setX c rd old)
      else
        match s.csrWrite c num new with
        | none => .error (.stall none)
        | some s => .ok (s.setX c rd old)

/-- One operation of the control thread of core `c`, of length `len`: its result and the next
pc. -/
def State.rvExec (s : State) (c : Nat) (aqrl : BitVec 2) (len : Nat) (word : DWord) (op : Rv) :
    CtRes × DWord :=
  let h := s.hart c
  let next := h.pc + BitVec.ofNat 64 len
  let x (r : BitVec 5) : DWord := h.reg r
  match op with
  | .lui rd imm => (.ok (s.setX c rd ((imm ++ 0#12 : BitVec 32).signExtend 64)), next)
  | .auipc rd imm => (.ok (s.setX c rd (h.pc + (imm ++ 0#12 : BitVec 32).signExtend 64)), next)
  | .jal rd off => (.ok (s.setX c rd next), h.pc + off.signExtend 64)
  | .jalr rd rs1 imm => (.ok (s.setX c rd next), (x rs1 + imm.signExtend 64) &&& ~~~1#64)
  | .branch k a b off => (.ok s, if rvTaken k (x a) (x b) then h.pc + off.signExtend 64 else next)
  | .load k rd rs1 imm =>
    ((s.ctLoad c (x rs1 + imm.signExtend 64) (loadSize k)).map fun r => r.1.setX c rd (loadExtend k r.2), next)
  | .store k rs1 rs2 imm =>
    (s.ctStore c (x rs1 + imm.signExtend 64) (storeSize k) ((x rs2).toNat % 2 ^ (8 * storeSize k)), next)
  | .opImm k rd rs1 imm => (.ok (s.setX c rd (rvImmOp k (x rs1) (imm.signExtend 64))), next)
  | .shImm k rd rs1 sh => (.ok (s.setX c rd (rvShift k (x rs1) sh.toNat)), next)
  | .unary k rd rs1 => (.ok (s.setX c rd (rvUnary k (x rs1))), next)
  | .alu k rd a b => (.ok (s.setX c rd (rvAlu k (x a) (x b))), next)
  | .lr dbl rd rs1 =>
    ((s.ctLr c (x rs1) dbl).map fun r => ((r.1.setX c rd (atomResult dbl r.2)).ctClose c aqrl).ctAcquire c aqrl, next)
  | .sc dbl rd rs1 rs2 =>
    ((s.ctSc c (x rs1) dbl (x rs2).toNat).map fun r =>
      ((r.1.setX c rd (BitVec.ofNat 64 r.2)).ctClose c aqrl).ctAcquire c aqrl, next)
  | .amo k dbl rd rs1 rs2 =>
    ((s.ctAmo c (x rs1) k dbl aqrl (if dbl then (x rs2).toNat else (lowW (x rs2)).toNat)).map fun r =>
      r.1.setX c rd (atomResult dbl r.2), next)
  | .csr k useImm rd rs1 num => (s.csrInstr c k useImm rd rs1 num word, next)
  | .fence => (.ok ((s.closeRegion (ctAgent c)).acquireDom c), next)
  | .fenceI => (.ok s, next)
  | .ecall =>
    (.error (.exc (match h.priv with | .user => 8 | .supervisor => 9 | .machine => 11) 0), next)
  | .ebreak => (.error (.exc 3 h.pc), next)
  | .mret => if h.priv = .machine then (.ok (s.setHart c h.mret), h.mret.pc) else (illegal word, next)
  | .sret =>
    if h.priv = .user ∨ (h.priv = .supervisor ∧ h.mstatus.getLsbD 22) then (illegal word, next)
    else (.ok (s.setHart c h.sret), h.sret.pc)
  | .wfi =>
    if h.priv ≠ .machine ∧ h.mstatus.getLsbD 21 then (illegal word, next)
    else (.ok (s.modHart c fun h => { h with wfi := true }), next)
  | .sfenceVma rs1 rs2 =>
    if h.priv = .user ∨ (h.priv = .supervisor ∧ h.mstatus.getLsbD 20) then (illegal word, next)
    else
      (.ok (s.sfence c (if rs1 = 0 then none else some (x rs1).toNat)
        (if rs2 = 0 then none else some (x rs2).toNat)), next)

/-- The instruction orders the control thread's earlier accesses before later ones: it waits for its
messages (R81). One that has left and waits for its answer does not. -/
def rvWaits (op : Rv) (aqrl : BitVec 2) : Bool :=
  match op with
  | .fence => true
  | .lr .. | .sc .. | .amo .. => aqrl != 0
  | _ => false

/-- One operation, once the messages that it orders are performed. -/
def State.rvRun (s : State) (c : Nat) (aqrl : BitVec 2) (len : Nat) (word : DWord) (op : Rv) :
    CtRes × DWord :=
  if rvWaits op aqrl && (s.hart c).asked.isNone && (s.core c).outstanding (ctAgent c) then
    (.error (.stall none), 0)
  else s.rvExec c aqrl len word op

/-- CONTROL_THREAD_RISCV_INSTRUCTION. -/
def execControlThreadRiscvInstruction (r : RvInstr) (s : State) : Out :=
  let c := s.curCore
  let i : Instr := .controlThreadRiscvInstruction r
  let fin (x : CtRes × DWord) : Out := .next (s.ctFinish i c x.2 x.1)
  match r with
  | .full op aqrl => fin (s.rvRun c aqrl 4 ((op.toWord aqrl).setWidth 64) op)
  | .comp h op => fin (s.rvRun c 0 2 (h.setWidth 64) op)
  | .reserved w => fin (illegal (w.setWidth 64), 0)
  | .reserved16 h => fin (illegal (h.setWidth 64), 0)

end Sys2Proof.Machine
end

