-- ==== Sys2Proof/Machine/CtExt.lean ====
section
/-! DEFINITION. The control-thread extension (R254 to R260): sowing (R35, R36, R114), status
reads (R255), commands (R256), records, counters and tickets (R257, R258), actors (R42, R45,
R259), the binding table (R51) and incarnations (R260). -/

namespace Sys2Proof.Machine

/-! ### The frame of an extension instruction -/

/-- An instruction of the extension: its part, then retirement, exception or stall (R254). -/
def State.ctExt (s : State) (i : Instr) (part : Nat → Hart → CtRes) : Out :=
  let c := s.curCore
  let h := s.hart c
  .next (s.ctFinish i c (h.pc + 4) (part c h))

/-- A register value that R254 restricts: code 2, with the instruction word as stval. -/
def badValue (i : Instr) : CtStop := .exc 2 (((extWord? i).getD 0).setWidth 64)

/-- The extension fault of R372. -/
def extStop (cause detail : Nat) : CtStop := .exc 26 (extTval cause detail)

/-- An address that must be a multiple of `n`. -/
def aligned (va : DWord) (n : Nat) : Except CtStop Unit :=
  if va.toNat % n = 0 then .ok () else .error (extStop 4 0)

def demand (ok : Bool) (e : CtStop) : Except CtStop Unit := if ok then .ok () else .error e

/-- The members of a mask register. -/
def mtsIn (v : DWord) : List Nat := (List.range 16).filter fun m => v.getLsbD m

/-- A check of a request as the control thread sees it (R256, R372). -/
def ofStop {α : Type} (r : Except Stop α) : Except CtStop α :=
  match r with
  | .ok a => .ok a
  | .error (.trap e) => .error (extStop e.code e.detail)
  | .error (.poison e) => .error (.poison e)
  | .error _ => .error (.stall none)

/-! ### Sowing (R35, R36, R41) -/

/-- The instruction words of a block's bytes. -/
def wordsOf : Nat → List Byte → List IWord
  | 0, _ => []
  | n + 1, bs => BitVec.ofNat 96 (leNat (bs.take 12)) :: wordsOf n (bs.drop 12)

/-- A micro-thread receives a seed block. -/
def Mt.sow (t : Mt) (base : DWord) (ws : List IWord) (age : Nat) : Mt :=
  { t with st := .sown, pc := base, block := some ⟨base, ws, none⟩, stl := 0, age := age }

def State.sow (s : State) (c : Nat) (base : DWord) (ws : List IWord) (ms : List Nat) : State :=
  ms.foldl (fun s m => s.modMt c m fun t => t.sow base ws (s.youngest c m)) s

def Core.isIdle (k : Core) (m : Nat) : Bool := (k.mt m).st == .idle

/-- SOW and SOWW; `wait` for SOWW. -/
def State.sowPart (s : State) (i : Instr) (rd rs1 rs2 : BitVec 5) (wait : Bool) (c : Nat) (h : Hart) :
    CtRes := do
  let v := h.reg rs2
  let base := h.reg rs1
  demand (v.toNat / 2 ^ 19 == 0) (badValue i)
  aligned base 4
  let n := fieldOf v 16 3 + 1
  let (s, bs) ← s.ctBytes c base (3 * n)
  let k := s.core c
  let busy := (mtsIn v).filter fun m => !k.isIdle m
  if wait && !busy.isEmpty then .error (.stall none)
  else
    let skipped : Nat := (busy.map fun m => 2 ^ m).sum
    .ok ((s.sow c base (wordsOf n bs) ((mtsIn v).filter k.isIdle)).setX c rd
      (BitVec.ofNat 64 skipped))

def execSow (rd rs1 rs2 : BitVec 5) (s : State) : Out :=
  s.ctExt (.sow rd rs1 rs2) (s.sowPart (.sow rd rs1 rs2) rd rs1 rs2 false)

def execSoww (rd rs1 rs2 : BitVec 5) (s : State) : Out :=
  s.ctExt (.soww rd rs1 rs2) (s.sowPart (.soww rd rs1 rs2) rd rs1 rs2 true)

/-! ### Status (R39, R57, R255) -/

def MtSt.code : MtSt → Nat
  | .idle => 0
  | .sown => 1
  | .running => 2
  | .waiting => 3
  | .stopping => 4

/-- A bit per micro-thread. -/
def bits16 (f : Nat → Bool) : Nat := ((List.range 16).map fun m => if f m then 2 ^ m else 0).sum

/-- MTSTAT's value of R39. -/
def Core.states (k : Core) : Nat :=
  ((List.range 16).map fun m =>
    (MtSt.code (k.mt m).st + (if (k.mt m).gang.isSome then 8 else 0)) * 2 ^ (4 * m)).sum

/-- The queues' occupancy. -/
def Core.occupancy (k : Core) : Nat :=
  k.mx.queue.length + k.waitingCopies * 2 ^ 8 + k.fifo.length * 2 ^ 16 + k.inbox.length * 2 ^ 24

def State.clearSignals (s : State) (c : Nat) : State :=
  (List.range 16).foldl (fun s m =>
    if (s.mt c m).sig then s.modMt c m fun t => { t with sig := false } else s) s

/-- What a selector names, with the state after the read. -/
def State.mtstat (s : State) (c sel : Nat) : Option (Nat × State) :=
  let k := s.core c
  match sel with
  | 0 => some (k.states, s)
  | 1 => some (bits16 fun m => (k.mt m).sig, s.clearSignals c)
  | 2 => some (bits16 fun m => (k.mt m).rel, s)
  | 3 => some (k.occupancy, s)
  | _ =>
    if 0x100 ≤ sel ∧ sel < 0x140 then
      some ((s.tilemap (coreDie c * 64 + (sel - 0x100))).toNat, s)
    else none

def execMtstat (rd rs1 : BitVec 5) (s : State) : Out :=
  s.ctExt (.mtstat rd rs1) fun c h =>
    match s.mtstat c (h.reg rs1).toNat with
    | some (v, s) => .ok (s.setX c rd (BitVec.ofNat 64 v))
    | none => .error (badValue (.mtstat rd rs1))

def execMtstop (rs1 : BitVec 5) (s : State) : Out :=
  s.ctExt (.mtstop rs1) fun c h => do
    demand ((h.reg rs1).toNat / 2 ^ 16 == 0) (badValue (.mtstop rs1))
    .ok ((mtsIn (h.reg rs1)).foldl (fun s m => s.stopMt c m) s)

def execMtrel (rs1 : BitVec 5) (s : State) : Out :=
  s.ctExt (.mtrel rs1) fun c h => do
    demand ((h.reg rs1).toNat / 2 ^ 16 == 0) (badValue (.mtrel rs1))
    demand (!(s.core c).outstanding (ctAgent c)) (.stall none)
    let on := (mtsIn (h.reg rs1)).filter fun m => !(s.core c).isIdle m
    .ok (on.foldl (fun s m => s.modMt c m fun t => { t with rel := true })
      (s.closeRegion (ctAgent c)))

/-! ### Commands (R256) -/

/-- A child launch's request (OPC 8) holds zero in the fields it does not use, and a word 3 as R247
has it. -/
def CopyReq.childOk (r : CopyReq) : Bool :=
  r.w0.toNat == 8 + (if r.cmpl then 2 ^ 11 else 0) && fieldOf r.w1 48 16 == 0 && r.w2 == 0 && r.doneOk

/-- A request at a virtual address, read and checked: the request and its multicast targets. -/
def State.cmdRequest (s : State) (c : Nat) (va : DWord) :
    Except CtStop (State × CopyReq × List Nat) := do
  aligned va 32
  let (s, bs) ← s.ctBytes c va 8
  let r := CopyReq.ofBytes bs
  if r.opc = 8 then
    demand r.childOk (extStop 11 1)
    demand r.ctrAligned (extStop 11 7)
    .ok (s, r, [])
  else
    let tgs ← ofStop (s.copyCheck c none r)
    let _ ← ofStop (s.sliceCheck c r)
    .ok (s, r, tgs)

/-- The level of the launch that runs on a core. -/
def State.levelOf (s : State) (c : Nat) : Nat :=
  (((s.core c).launch.bind s.node?).map (·.level)).getD 0

/-- A child launch's request comes to the command processor of a die (R256). -/
def State.childIn (s : State) (d core : Nat) (ctx : BitVec 12) (seq : BitVec 16) (r : CopyReq)
    (level : Nat) : State :=
  s.modDie d fun x =>
    { x with childQ := x.childQ ++ [(⟨core, seq, r.w3, r.cmpl⟩, signVa r.w1, ctx, level)] }

/-- Pushes a checked request, which takes its SEQ; `none` while a multicast finds no group. A pair's child
launch is a paired message to the command processor, and its completion goes to both (R377, R378, log
23). -/
def State.cmdPush (s : State) (c : Nat) (va : DWord) (r : CopyReq) (tgs : List Nat) : Option State :=
  let seq := (s.core c).seq
  let number (s : State) : State :=
    s.modCore c fun k => k.dispatch 0 0x308 0 true (va.setWidth 32) 0 0
  if r.opc = 8 then
    let d := coreDie (s.namedCore c)
    if (s.core c).pair.isSome then
      some ((number s).send c (epCp d) clsRequest 0 0 (.launch seq r (s.levelOf c)))
    else some ((number s).childIn d c (s.core c).ctx seq r (s.levelOf c))
  else
    match s.copyGroup c r tgs with
    | none => none
    | some (g, s) =>
      let o := CopyOp.new r none 0 true seq none tgs g none
      some ((number s).modCore c fun k => ({ k with fifo := k.fifo ++ [o] }).pullFifo)

def Core.fifoFull (k : Core) : Bool := decide (8 ≤ k.fifo.length)

/-- A pushed request under CSTEP and SYNC holds the step until it completes (R364). -/
def State.ctPushed (s : State) (i : Instr) (c : Nat) (seq : BitVec 16) (r : CtRes) : State :=
  let h := s.hart c
  match r with
  | .ok t =>
    if h.priv = .user ∧ (s.core c).dbgctl.getLsbD 17 ∧ (s.core c).dbgctl.getLsbD 16 then
      t.modHart c fun h' => { h' with pc := h.pc + 4, stall := none, sync := some seq }
    else s.ctFinish i c (h.pc + 4) r
  | .error _ => s.ctFinish i c (h.pc + 4) r

def execCmdq (rd rs1 : BitVec 5) (s : State) : Out :=
  let c := s.curCore
  let va := (s.hart c).reg rs1
  let seq := (s.core c).seq
  let r : CtRes := do
    let (s, r, tgs) ← s.cmdRequest c va
    if (s.core c).fifoFull then .error (.stall none)
    else
      match s.cmdPush c va r tgs with
      | some t => .ok (t.setX c rd (seq.setWidth 64))
      | none => .error (.stall none)
  .next (s.ctPushed (.cmdq rd rs1) c seq r)

def execCmdqnb (rd rs1 : BitVec 5) (s : State) : Out :=
  let c := s.curCore
  let va := (s.hart c).reg rs1
  let i : Instr := .cmdqnb rd rs1
  match s.cmdRequest c va with
  | .error e => .next (s.ctFinish i c ((s.hart c).pc + 4) (.error e))
  | .ok (u, r, tgs) =>
    let pushed : Option State := if (u.core c).fifoFull then none else u.cmdPush c va r tgs
    match pushed with
    | some t => .next (s.ctPushed i c (s.core c).seq (.ok (t.setX c rd 0)))
    | none => .next (s.ctFinish i c ((s.hart c).pc + 4) (.ok (u.setX c rd 1)))

/-! ### Records, counters and tickets (R257, R258, R254) -/

/-- 64 bits from two words. -/
def dwordOf (lo hi : Word) : DWord := hi ++ lo

def execCtinbx (rd rs1 : BitVec 5) (s : State) : Out :=
  s.ctExt (.ctinbx rd rs1) fun c h => do
    let v := h.reg rs1
    demand (v.toNat / 2 ^ 17 == 0) (badValue (.ctinbx rd rs1))
    match (s.core c).takeRec (if v.getLsbD 16 then some (v.setWidth 16) else none) with
    | none => .error (.stall none)
    | some (r, k) =>
      let w := r.words
      let s := (s.setCore c { k with ctinbhi := dwordOf (w.getD 2 0) (w.getD 3 0) }).refill c
      .ok ((s.closeRegion (ctAgent c)).setX c rd (dwordOf (w.getD 0 0) (w.getD 1 0)))

/-- The chunks of a counter in a space: an offset of the core's spaces, or an address under the
control thread's translation. -/
def State.ctCounter (s : State) (c spc x : Nat) : Except CtStop (List (Loc × Nat)) :=
  if 4 ≤ spc then
    match s.ctChunks c .read (signVa (BitVec.ofNat 64 x)) 8 with
    | .error e => .error e
    | .ok ls =>
      if ls.any (·.1.inIo) then
        .error (.exc 5 (signVa (BitVec.ofNat 64 x)))
      else .ok ls
  else if (x : Int) + 8 ≤ (if spc = 3 then 0x1F80000 else spaceSize spc) then
    .ok [(s.offsetLoc c 0 spc x, 8)]
  else .error (extStop 5 0)

def execCtcwait (rd rs1 rs2 : BitVec 5) (s : State) : Out :=
  s.ctExt (.ctcwait rd rs1 rs2) fun c h => do
    let i : Instr := .ctcwait rd rs1 rs2
    let loc := h.reg rs1
    let target := (h.reg rs2).toNat
    demand (fieldOf loc 51 13 == 0 && spaceOk (fieldOf loc 48 3) && decide (target < 2 ^ 62)) (badValue i)
    demand (loc.toNat % 8 == 0) (extStop 4 0)
    let ls ← s.ctCounter c (fieldOf loc 48 3) (fieldOf loc 0 48)
    s.ctPoison ls
    let s ← s.ctRegion c false false ls
    let s ← s.ctPass c ls
    let v := leNat (ls.flatMap fun p => s.loadBytes c p.1 p.2)
    if target ≤ v % 2 ^ 62 then
      let s := (s.closeRegion (ctAgent c)).acquireCounter c ((ls.map (·.1)).headD (.scratch c 0))
      .ok (s.setX c rd (BitVec.ofNat 64 v))
    else .error (.stall none)

def execCttick (rd rs1 : BitVec 5) (s : State) : Out :=
  s.ctExt (.cttick rd rs1) fun c h => do
    let k : Nat := if rs1 = 0 then 1 else (h.reg rs1).toNat
    demand (decide (1 ≤ k ∧ k ≤ 64)) (badValue (.cttick rd rs1))
    match s.claimTicket c k with
    | none => .error (.stall none)
    | some (s, v) => .ok (s.setX c rd (BitVec.ofNat 64 v))

/-! ### Actors (R42, R45, R259) -/

/-- A descriptor's 8-byte and 4-byte fields. -/
def descD (bs : List Byte) (o : Nat) : DWord := BitVec.ofNat 64 (leNat ((bs.drop o).take 8))
def descW (bs : List Byte) (o : Nat) : Word := BitVec.ofNat 32 (leNat ((bs.drop o).take 4))

def Actor.inOn (a : Actor) (i : Nat) : Bool := a.ctrl.getLsbD (9 + i)
def Actor.outOn (a : Actor) (i : Nat) : Bool := a.ctrl.getLsbD (13 + i)
/-- Port 0 to 3 input, 4 to 7 output. -/
def Actor.portOn (a : Actor) (p : Nat) : Bool := if p < 4 then a.inOn p else a.outOn (p - 4)
def Actor.port (a : Actor) (p : Nat) : DWord := (a.inp ++ a.outp).getD p 0
def Actor.ports (a : Actor) : List Nat := (List.range 8).filter a.portOn
def Actor.stage (a : Actor) : Nat := fieldOf (a.ctrl.setWidth 64) 6 3
def Actor.len (a : Actor) : Nat := fieldOf (a.ctrl.setWidth 64) 3 3 + 1
def Actor.fpn (a : Actor) : Nat := fieldOf (a.ctrl.setWidth 64) 17 3
/-- The port whose word holds NMT. -/
def Actor.nmtPort (a : Actor) : Nat := if a.inOn 0 then 0 else 4
def Actor.nmt (a : Actor) : Nat := fieldOf (a.port a.nmtPort) 60 4
def portRate (w : DWord) : Nat := fieldOf w 52 8
def portHandle (w : DWord) : Nat := fieldOf w 48 4
def portQcb (w : DWord) : DWord := signVa w
/-- The footprint ranges in use. -/
def Actor.ranges (a : Actor) : List (BitVec 128) := a.foot.take a.fpn
def rangeFetch (r : BitVec 128) : Bool := r.getLsbD 96
def rangeBase (r : BitVec 128) : Nat := r.toNat / 2 ^ 64 % 2 ^ 14 * 32
def rangeSize (r : BitVec 128) : Nat := (r.toNat / 2 ^ 82 % 2 ^ 14 + 1) * 32
def rangeSrc (r : BitVec 128) : DWord := signVa (r.setWidth 64)

/-- An actor as its descriptor gives it. -/
def Actor.ofBytes (bs : List Byte) (en : Bool) : Actor where
  seed := descD bs 0
  ctrl := descW bs 8
  inp := (List.range 4).map fun i => descD bs (0x10 + 8 * i)
  outp := (List.range 4).map fun i => descD bs (0x30 + 8 * i)
  foot := (List.range 4).map fun i => descD bs (0x58 + 16 * i) ++ descD bs (0x50 + 16 * i)
  en := en
  filled := false

def rangeOk (r : BitVec 128) : Bool :=
  r.toNat / 2 ^ 97 == 0 && r.toNat / 2 ^ 78 % 16 == 0 && r.toNat / 2 ^ 48 % 2 ^ 16 == 0

/-- The descriptor is not rejected (R45). -/
def actorOk (bs : List Byte) : Bool :=
  let a := Actor.ofBytes bs false
  fieldOf (a.ctrl.setWidth 64) 21 11 == 0 && fieldOf (a.ctrl.setWidth 64) 0 3 == 0 &&
  descW bs 12 == 0 && leNat (bs.drop 0x90) == 0 &&
  decide (a.fpn ≤ 4) && a.foot.all rangeOk && (a.inOn 0 || a.outOn 0) &&
  (List.range 8).all (fun p => p == a.nmtPort || fieldOf (a.port p) 60 4 == 0) &&
  a.ports.all fun p => portRate (a.port p) != 0

def Core.setActor (k : Core) (i : Nat) (a : Actor) : Core := { k with actors := k.actors.upd i a }

/-- Sets an entry's enable; an entry that was never loaded has nothing to enable. -/
def Core.enableActor (k : Core) (i : Nat) (en : Bool) : Core :=
  match k.actors.get? i with
  | some a => k.setActor i { a with en := en, filled := a.filled && en }
  | none => k

def execActfire (rs1 rs2 : BitVec 5) (s : State) : Out :=
  s.ctExt (.actfire rs1 rs2) fun c h => do
    let v := h.reg rs2
    demand ((v &&& ~~~0x31F#64) == 0) (badValue (.actfire rs1 rs2))
    if v.getLsbD 9 then
      aligned (h.reg rs1) 32
      let (s, bs) ← s.ctBytes c (h.reg rs1) 40
      demand (actorOk bs) (extStop 3 8)
      .ok (s.modCore c (·.setActor (fieldOf v 0 5) (.ofBytes bs (v.getLsbD 8))))
    else .ok (s.modCore c (·.enableActor (fieldOf v 0 5) (v.getLsbD 8)))

/-! ### The binding table (R51) -/

/-- A table from its 1 KiB image. -/
def bindCells (bs : List Byte) : Cells Word :=
  (List.range 256).foldl (fun t r => t.put 0 r (descW bs (4 * r))) []

def execBindld (rs1 : BitVec 5) (s : State) : Out :=
  s.ctExt (.bindld rs1) fun c h => do
    aligned (h.reg rs1) 64
    let (s, bs) ← s.ctBytes c (h.reg rs1) 256
    if (s.core c).mtsIdle then .ok (s.modCore c fun k => { k with bindtab := bindCells bs })
    else .error (.stall none)

/-! ### Incarnations (R260, R384, R386) -/

/-- The queued requests of a context's earlier incarnations are discarded without effect: partials at
the slices and arrivals at barriers (R77, R386). -/
def State.dropStale (s : State) (ctx : Nat) : State :=
  let other (x : BitVec 12) : Bool := x.toNat != ctx
  let s := (s.partialQ.filter fun p => !other p.ctx).foldl (fun s p => s.partialDone p) s
  { s with
    partialQ := s.partialQ.filter fun p => other p.ctx
    partials := (s.partials.map fun e =>
      (e.1, { e.2 with buf := e.2.buf.filter fun p => other p.ctx })).filter (·.2 != ⟨0, []⟩)
    barPending := s.barPending.filter fun a => other a.ctx }

/-- A new incarnation of a context: the new value, or none while it is stale. Its held paired
messages are discarded, and it no longer keeps a paddock fenced. Every core of the context, one that
nothing has touched among them, has the new value. -/
def State.incarn (s : State) (ctx : Nat) : Option (Nat × State) :=
  let e := s.incEntry ctx
  let n := (e.1 + 1) % 256
  if e.2.contains n then none
  else
    let mine := (List.range 1024).filter fun c => (s.core c).ctx.toNat == ctx
    let s := mine.foldl (fun s c => s.modCore c fun k => { k with inc := BitVec.ofNat 8 n }) s
    let s := (s.dropStale ctx).discardHeld fun h => h.pkt.ctx.toNat == ctx
    some (n, { s with
      incTab := s.incTab.upd ctx (n, e.1 :: e.2)
      dies := s.dies.map fun d => (d.1, { d.2 with
        pdk := d.2.pdk.map fun p => (p.1, { p.2 with pending := p.2.pending.filter (· != ctx) }) }) })

/-- INCARN and RECLAIM run in machine or supervisor mode only (R33). -/
def notUser (h : Hart) (i : Instr) : Except CtStop Unit := demand (h.priv != .user) (badValue i)

def execIncarn (rd rs1 : BitVec 5) (s : State) : Out :=
  s.ctExt (.incarn rd rs1) fun c h => do
    notUser h (.incarn rd rs1)
    demand ((h.reg rs1).toNat / 2 ^ 12 == 0) (badValue (.incarn rd rs1))
    match s.incarn (h.reg rs1).toNat with
    | none => .ok (s.setX c rd (BitVec.ofNat 64 (2 ^ 63)))
    | some (n, s) => .ok (s.setX c rd (BitVec.ofNat 64 n))

/-- Index of a reclaim among the sweep counts. -/
def sweepIdx (ctx v : Nat) : Nat := ctx * 256 + v

/-- RECLAIM: the result, or a stall that counts clean sweeps from its start. -/
def State.reclaim (s : State) (ctx v : Nat) : Except State (Nat × State) :=
  let e := s.incEntry ctx
  if v = e.1 then .ok (1, s)
  else if !e.2.contains v then .ok (0, s)
  else
    match s.sweeps.get? (sweepIdx ctx v) with
    | none => .error { s with sweeps := s.sweeps.upd (sweepIdx ctx v) 0 }
    | some n =>
      if n < 2 then .error s
      else .ok (0, { s with
        incTab := s.incTab.upd ctx (e.1, e.2.filter (· != v))
        sweeps := s.sweeps.del (sweepIdx ctx v) })

def execReclaim (rd rs1 : BitVec 5) (s : State) : Out :=
  let c := s.curCore
  let h := s.hart c
  let i : Instr := .reclaim rd rs1
  let v := h.reg rs1
  if h.priv = .user ∨ v.toNat / 2 ^ 20 ≠ 0 then
    .next (s.ctFinish i c (h.pc + 4) (.error (badValue i)))
  else
    match s.reclaim (fieldOf v 0 12) (fieldOf v 12 8) with
    | .ok (x, t) => .next (s.ctFinish i c (h.pc + 4) (.ok (t.setX c rd (BitVec.ofNat 64 x))))
    | .error t => .next (t.ctFinish i c (h.pc + 4) (.error (.stall none)))

/-- A global sweep counts the traffic tagged with a context and value (R386). -/
def State.tagged (s : State) (ctx v : Nat) : Nat :=
  let is (p : Packet) : Bool := p.ctx.toNat == ctx && p.inc.toNat == v
  let old (c : BitVec 12) (i : BitVec 8) : Bool := c.toNat == ctx && i.toNat == v
  s.wire.countP is + s.pairs.countP (fun h => is h.pkt) +
  s.partialQ.countP (fun p => old p.ctx p.inc) + s.barPending.countP (fun a => old a.ctx a.inc) +
  (s.partials.map fun e => e.2.buf.countP fun p => old p.ctx p.inc).sum +
  (s.flows.map fun f => f.copies.countP (fun c => is c.pkt) + f.window.countP is).sum

def execIncarnationSweep (ctx v : Nat) (s : State) : Out :=
  match s.sweeps.get? (sweepIdx ctx v) with
  | none => .next s
  | some n =>
    let n' := if s.tagged ctx v = 0 then n + 1 else 0
    .next { s with sweeps := s.sweeps.upd (sweepIdx ctx v) n' }

end Sys2Proof.Machine
end

