-- ==== Sys2Proof/Machine/Firing.lean ====
section
/-! DEFINITION. Actors at work (R42 to R48): the counting view, firing, footprint fills,
rebalancing, and a micro-thread that becomes idle with the firing it ends (R38, R43). -/

namespace Sys2Proof.Machine

/-! ### The counting view (R43, R48) -/

/-- Reservations that the firings of a core hold on a queue, in one direction. -/
def Core.reserved (k : Core) (key : Nat) (prod : Bool) : Nat :=
  (k.firings.map fun r =>
    (r.keys.map fun e =>
      if e.2 == key && decide (4 ≤ e.1) == prod then r.res.look 0 e.1 else 0).sum).sum

/-- The cores that share a counting view: the tile for a .clus queue, else the core alone. -/
def viewCores (c spc : Nat) : List Nat := if spc = 2 then tileCores (tileOf c) else [c]

def State.reservedOn (s : State) (c : Nat) (q : Qcb) (key : Nat) (prod : Bool) : Nat :=
  ((viewCores c q.spc).map fun x => (s.core x).reserved key prod).sum

/-- What the scheduler sees at a port: the queue with its home and its control block, the view of filled or free
slots, and the capacity. -/
structure PortView where
  queue : Option (DWord × Nat × Qcb)
  view : Nat
  cap : Nat

/-- The place of a control block, under the core's translation. -/
def State.qcbKey (s : State) (c : Nat) (va : DWord) : Option Nat :=
  if va.toNat % 64 ≠ 0 then none
  else
    match s.xloc c .mt .read va with
    | .ok (.dram key) => some key
    | _ => none

/-- A port whose QCB field is zero reads the time-stamped queue where that is bound to it
(R271). -/
def State.eventPort (s : State) (c a p : Nat) : Option PortView :=
  let q := (s.core c).tq
  if q.cfg && q.act == some (a, p) then
    some ⟨none, releasedCount q.prods.length q.front q.held.length q.held -
      ((s.core c).firings.map fun r => if r.actor = a then r.res.look 0 p else 0).sum, 256⟩
  else none

/-- The view of port `p` of actor `a`; `none` where its queue cannot be read or bound. DESIGN CHOICE (log
26): a firing reports no such queue, and the actor does not fire while one of its ports has one. -/
def State.portView (s : State) (c a : Nat) (x : Actor) (p : Nat) : Option PortView :=
  let w := x.port p
  let prod := decide (4 ≤ p)
  if fieldOf w 0 48 = 0 then s.eventPort c a p
  else
    match s.qcbKey c (portQcb w) with
    | none => none
    | some key =>
      match s.readQcb c key with
      | none => none
      | some (hk, q) =>
        if !s.mayBind c q.spc key (s.qhome hk) ||
            ((s.qhome hk).isNone && decide (homeCap q.spc ≤ s.homeLoad c q.spc key)) then none
        else
          let filled := (q.prod - q.cons).toNat
          let avail := if prod then q.n - filled else filled
          some ⟨some (portQcb w, hk, q), avail - s.reservedOn c q hk prod, q.n⟩

/-! ### Conditions (R44, R46) -/

/-- The queues of the ports, each by its control block and space. -/
def State.portQueues (s : State) (c a : Nat) (x : Actor) : List (Nat × Nat) :=
  (x.ports.filterMap fun p =>
    match s.portView c a x p with
    | some ⟨some (_, key, q), _, _⟩ => some (key, q.spc)
    | _ => none).dedup

/-- Two queues bound by one core have one home (R212). -/
def sameHome (a b : Nat × Nat) : Bool :=
  if a.2 < 3 then a.2 == b.2 else decide (3 ≤ b.2) && qcbSlice a.1 == qcbSlice b.1

/-- The homes have room for all the queues that a firing binds. -/
def State.homesFit (s : State) (c a : Nat) (x : Actor) : Bool :=
  let new := (s.portQueues c a x).filter fun q => (s.qhome q.1).isNone
  new.all fun q => decide (s.homeLoad c q.2 q.1 + new.countP (sameHome q) ≤ homeCap q.2)

/-- Conditions 1 and 2, with every port's binding possible. -/
def State.portsOk (s : State) (c a : Nat) (x : Actor) : Bool :=
  (x.ports.all fun p =>
    match s.portView c a x p with
    | some v => decide (portRate (x.port p) ≤ v.view)
    | none => false) && s.homesFit c a x

/-! ### Mobile actors (R48) -/

def Actor.mobile (x : Actor) : Bool := x.ctrl.getLsbD 20

/-- The entries were loaded with the same descriptor. -/
def Actor.same (x y : Actor) : Bool :=
  x.seed == y.seed && x.ctrl == y.ctrl && x.inp == y.inp && x.outp == y.outp && x.foot == y.foot

/-- The other cores of the tile, of the same launch, that hold an entry identical to a mobile actor's
at its index. -/
def State.twinsOf (s : State) (c a : Nat) (x : Actor) : List Nat :=
  if x.mobile then
    (tileCores (tileOf c)).filter fun d => d != c && (s.core d).launch == (s.core c).launch &&
      (match (s.core d).actors.get? a with
       | some y => x.same y
       | none => false)
  else []

/-- The actor is enabled: on its core, or as a mobile actor whose queues all lie in cluster-shared
memory on another core of the tile. -/
def State.enabled (s : State) (c a : Nat) (x : Actor) : Bool :=
  x.en ||
  ((s.portQueues c a x).all (·.2 == 2) &&
    (s.twinsOf c a x).any fun d => ((s.core d).actors.get? a).any (·.en))

def overlaps (a b : Nat × Nat) : Bool := decide (a.1 < b.1 + b.2 ∧ b.1 < a.1 + a.2)
def Actor.pins (x : Actor) : List (Nat × Nat) := x.ranges.map fun r => (rangeBase r, rangeSize r)

/-- Condition 5. -/
def Core.pinsFree (k : Core) (x : Actor) : Bool :=
  !(x.pins.any fun p => k.firings.any fun r => r.pins.any (overlaps p))

/-- Conditions 1, 2 and 5, which a fill needs. -/
def State.mayFill (s : State) (c a : Nat) (x : Actor) : Bool :=
  s.enabled c a x && s.portsOk c a x && (s.core c).pinsFree x

def Actor.needsFill (x : Actor) : Bool := x.ranges.any rangeFetch

/-- The micro-threads that a waiting SOWW sows now: all that it names are idle (R41). -/
def Core.sowing (k : Core) : List Nat :=
  match k.ct.stall with
  | some (.soww _ _ rs2) =>
    let ms := mtsIn (k.ct.reg rs2)
    if ms.all k.isIdle then ms else []
  | _ => []

/-- The micro-threads that a firing may take: those that are idle and not about to be sown (R41). -/
def Core.idleMts (k : Core) : List Nat := (List.range 16).filter fun m => k.isIdle m && !k.sowing.contains m

/-- Micro-threads that firings of a stage occupy. -/
def Core.occupied (k : Core) (stage : Nat) : Nat :=
  (k.firings.map fun r => if r.stage = stage then r.mts.length else 0).sum

/-- STGALLOT[s]; 16 where no launch has set it (R288). -/
def Core.allotment (k : Core) (stage : Nat) : Nat := k.stgallot.look 16 stage

/-- The actor may fire. -/
def State.mayFire (s : State) (c a : Nat) (x : Actor) : Bool :=
  let k := s.core c
  s.mayFill c a x && (x.filled || !x.needsFill) &&
  decide (x.nmt + 1 ≤ k.idleMts.length) &&
  decide (k.occupied x.stage + (x.nmt + 1) ≤ k.allotment x.stage)

/-- Lowest stage, then the next index after the one that fired last. -/
def fireBefore (last : Nat) (p q : Nat × Actor) : Bool :=
  let turn (i : Nat) : Nat := (i + 63 - last) % 32
  decide (p.2.stage < q.2.stage) || (p.2.stage == q.2.stage && decide (turn p.1 ≤ turn q.1))

/-- BINDLD waits: no firing starts (R51). -/
def Hart.binding (h : Hart) : Bool :=
  match h.stall with
  | some (.bindld _) => true
  | _ => false

/-- The core runs: present, with power, and not frozen by a migration. -/
def State.coreRuns (s : State) (c : Nat) : Bool :=
  s.bootStep == 4 && s.present c && !(s.core c).frozen &&
  (match (s.core c).gate with | .on | .hold _ => true | _ => false)

/-- Every core whose micro-thread issues with this one's runs (R54). -/
def State.gangRuns (s : State) (c m : Nat) : Bool := (s.membersOf c m).all s.coreRuns

/-! ### FIRING_START (R45) -/

/-- Loads the port bindings of a firing into micro-thread `m`. -/
def State.loadPorts (s : State) (c a m : Nat) (x : Actor) : State :=
  x.ports.foldl (fun s p =>
    match s.portView c a x p with
    | some ⟨some (va, key, q), _, _⟩ =>
      s.bindHandle c m (portHandle (x.port p)) va key (decide (4 ≤ p)) (some p) q
    | _ => s) s

/-- The queue keys of the ports, by port. -/
def State.portKeys (s : State) (c a : Nat) (x : Actor) : Cells Nat :=
  x.ports.filterMap fun p =>
    match s.portView c a x p with
    | some ⟨some (_, key, _), _, _⟩ => some (p, key)
    | _ => none

/-- The seed block cannot be read: the actor is disabled, where it was enabled, and a late record is
written. -/
def State.firingFault (s : State) (c a : Nat) (e : XFault) (va : DWord) : State :=
  let ds := match (s.core c).actors.get? a with
    | some x => if x.en then [c] else s.twinsOf c a x
    | none => []
  let s := ds.foldl (fun s d => s.modCore d (·.enableActor a false)) s
  s.lateRecord c
    { s.newRecord c 1 0 0x23 (match e with | .page => 0 | .access => 1) true with
      addr := va, info := BitVec.ofNat 32 a }

/-- The firing starts on its micro-threads, which end a hold before gating (R329). -/
def State.fireOn (s : State) (c a : Nat) (x : Actor) (ws : List IWord) : State :=
  let ms := (s.core c).idleMts.take (x.nmt + 1)
  let keys := s.portKeys c a x
  let hs := (x.ports.filter fun p => (keys.get? p).isSome).map fun p => portHandle (x.port p)
  let f : Firing :=
    { actor := a, stage := x.stage, mts := ms, keys := keys
      res := x.ports.map fun p => (p, portRate (x.port p))
      binds := ms.flatMap fun m => hs.map fun h => (m, h)
      pins := x.pins }
  let s := ms.foldl (fun s m => s.loadPorts c a m x) s
  let s := ms.zipIdx.foldl (fun s p =>
    (s.closeRegion (agentId 0 p.1 c)).modMt c p.1 fun t =>
      { t.sow x.seed ws (s.youngest c p.1) with fire := some (a, p.2) }) s
  (s.wake c).modCore c fun k =>
    { k.setActor a { x with filled := false } with
      firings := k.firings ++ [f], lastFired := a, firedSince := true }

/-- A fill whose conditions lapsed is discarded, in the step in which they lapse. -/
def State.discardFills (s : State) (c : Nat) : State :=
  s.modCore c fun k =>
    { k with actors := k.actors.map fun e =>
        if e.2.filled && !s.mayFill c e.1 e.2 then (e.1, { e.2 with filled := false }) else e }

/-- Discards the lapsed fills of every core (R44). -/
def State.discardAll (s : State) : State :=
  s.cores.foldl (fun s e => if e.2.actors.any (·.2.filled) then s.discardFills e.1 else s) s

/-- The first poisoned place that a read of words meets. -/
def State.virtPoison (s : State) (c : Nat) (va : DWord) (n : Nat) : Option ErrorSite :=
  (List.range n).findSome? fun i =>
    match s.xloc c .mt .read (va + BitVec.ofNat 64 (4 * i)) with
    | .ok l => if s.poisoned l then l.site else none
    | .error _ => none

/-- FIRING_START: the scheduler starts the first actor that may fire. DESIGN CHOICE (log 26): the block
is read and sown at SEED as it is, a multiple of 4 or not; poison in it counts as loaded by the core. -/
def execFiringStart (c : Nat) (s : State) : Out :=
  if !s.coreRuns c || (s.hart c).binding then .next s
  else
    let s := s.discardFills c
    let ready := (s.core c).actors.filter fun e => s.mayFire c e.1 e.2
    match sortBy (fireBefore (s.core c).lastFired) ready with
    | [] => .next s
    | (a, x) :: _ =>
      match s.readVirt c .mt .read x.seed (3 * x.len) with
      | .error (e, va) => .next (s.firingFault c a e va)
      | .ok bs =>
        match s.virtPoison c x.seed (3 * x.len) with
        | some e => .next (s.consumePoison c e)
        | none => .next (s.fireOn c a x (wordsOf x.len bs))

/-! ### FOOTPRINT_FILL (R44) -/

/-- The words of a range whose source words are poisoned: poison travels with the data (R385). -/
def State.poisonFill (s : State) (c : Nat) (r : BitVec 128) : List ErrorSite :=
  ((List.range (rangeSize r / 4)).filter fun i =>
    (s.virtPoison c (rangeSrc r + BitVec.ofNat 64 (4 * i)) 1).isSome && decide (rangeBase r + 4 * i < 0x80000)).map
      fun i => .scratchWord c (rangeBase r + 4 * i)

/-- Fills one range from its source; `none` where the source cannot be read. DESIGN CHOICE (log 26): SRC
is read as it is, a multiple of 32 or not; what lies past the scratchpad's end is not written. -/
def State.fillRange (s : State) (c : Nat) (r : BitVec 128) : Option State :=
  match s.readVirt c .mt .read (rangeSrc r) (rangeSize r / 4) with
  | .error _ => none
  | .ok bs =>
    let bad := s.poisonFill c r
    let t := s.writeLoc (.scratch c (rangeBase r)) (bs.take (0x80000 - rangeBase r))
    some { t with poison := t.poison ++ bad }

/-- FOOTPRINT_FILL: the FETCH ranges of an actor are filled for its next firing. -/
def execFootprintFill (c a : Nat) (s : State) : Out :=
  match (s.core c).actors.get? a with
  | none => .next s
  | some x =>
    if x.filled || !x.needsFill || !s.coreRuns c || !s.mayFill c a x then .next s
    else
      match (x.ranges.filter rangeFetch).foldlM (fun s r => State.fillRange s c r) s with
      | none => .next s
      | some s => .next (s.modCore c (·.setActor a { x with filled := true }))

/-! ### STAGE_REBALANCE (R47) -/

/-- Views of a stage's input or output queues, over its enabled actors. -/
def State.stageViews (s : State) (c stage : Nat) (prod : Bool) : List PortView :=
  ((s.core c).actors.filter fun e => e.2.en && e.2.stage == stage).flatMap fun e =>
    (e.2.ports.filter fun p => decide (4 ≤ p) == prod).filterMap fun p => s.portView c e.1 e.2 p

def State.gaining (s : State) (c stage : Nat) : Bool :=
  let ins := s.stageViews c stage false
  !ins.isEmpty && ins.all (fun v => decide (3 * v.cap ≤ 4 * v.view)) &&
  (s.stageViews c stage true).all fun v => decide (0 < v.view)

/-- Filled slots and capacity of a stage's input queues. DESIGN CHOICE (log 26): the occupancy of a
stage with several input queues is the sum of their views over the sum of their capacities. -/
def State.occupancyOf (s : State) (c stage : Nat) : Nat × Nat :=
  let ins := s.stageViews c stage false
  ((ins.map (·.view)).sum, (ins.map (·.cap)).sum)

/-- The stage of lowest occupancy among others with input queues, if that is at most 1/4. -/
def State.donor (s : State) (c gain : Nat) : Option Nat :=
  let cands := (List.range 8).filter fun t => t != gain && !(s.stageViews c t false).isEmpty
  let le (t u : Nat) : Bool :=
    let x := s.occupancyOf c t
    let y := s.occupancyOf c u
    decide (x.1 * y.2 ≤ y.1 * x.2)
  match sortBy le cands with
  | t :: _ => if 4 * (s.occupancyOf c t).1 ≤ (s.occupancyOf c t).2 then some t else none
  | [] => none

def Core.setAllot (k : Core) (stage n : Nat) : Core := { k with stgallot := k.stgallot.put 16 stage n }

/-- One stage gains up to 2, and the donor keeps 1. -/
def State.transfer (s : State) (c gain : Nat) : State :=
  if !s.gaining c gain then s
  else
    match s.donor c gain with
    | none => s
    | some d =>
      let k := s.core c
      let n := min 2 (k.allotment d - 1)
      s.setCore c ((k.setAllot d (k.allotment d - n)).setAllot gain (k.allotment gain + n))

def execStageRebalance (c : Nat) (s : State) : Out :=
  .next ((List.range 8).foldl (fun s t => s.transfer c t) s)

/-! ### MICROTHREAD_IDLE (R38, R43, R216) -/

/-- Drops a binding that a firing loaded, where the handle still has it and no other firing has
loaded the handle since. -/
def State.dropLoaded (s : State) (c : Nat) (p : Nat × Nat) : State :=
  let others := (s.core c).firings.any fun r => r.binds.contains p
  match (s.mt c p.1).handle p.2 with
  | some h => if h.port.isSome && !others then s.dropHandle c p.1 p.2 else s
  | none => s

/-- Micro-thread `m` leaves its firing; with the last one the firing retires, and its
reservations, pins and bindings end. -/
def State.leaveFiring (s : State) (c m : Nat) : State :=
  let k := s.core c
  let fs := k.firings.map fun r => { r with mts := r.mts.filter (· != m) }
  let done := fs.filter (·.mts.isEmpty)
  let s := s.setCore c { k with firings := fs.filter fun r => !r.mts.isEmpty }
  done.foldl (fun s r => r.binds.foldl (fun s p => s.dropLoaded c p) s) s

/-- MICROTHREAD_IDLE: a stopping micro-thread has drained: its requests have been accepted (R38). -/
def execMicrothreadIdle (c m : Nat) (s : State) : Out :=
  if (s.mt c m).st = .stopping ∧ (s.core c).outstanding (agentId 0 m c) = false then .next ((s.idleMt c m).leaveFiring c m) else .next s

end Sys2Proof.Machine
end

