-- ==== Sys2Proof/Machine/Reissue.lean ====
section
/-! DEFINITION. Instructions that are run again: a waiting micro-thread's blocking instruction
when its condition comes true or its deadline passes (R38, R201, R202, R325), and a stalled
control thread's (R254). -/

namespace Sys2Proof.Machine

/-- The meaning of a micro-thread's instruction, for one that blocked. -/
def rerunMt (i : Instr) (s : State) : Out :=
  match i with
  | .nop f => execNop f s
  | .mov f => execMov f s
  | .sel f => execSel f s
  | .iadd f => execIadd f s
  | .isub f => execIsub f s
  | .imul f => execImul f s
  | .imulh f => execImulh f s
  | .imad f => execImad f s
  | .imin f => execImin f s
  | .imax f => execImax f s
  | .iabs f => execIabs f s
  | .ineg f => execIneg f s
  | .iadds f => execIadds f s
  | .isubs f => execIsubs f s
  | .shl f => execShl f s
  | .shr f => execShr f s
  | .sar f => execSar f s
  | .rot f => execRot f s
  | .and f => execAnd f s
  | .or f => execOr f s
  | .xor f => execXor f s
  | .andn f => execAndn f s
  | .not f => execNot f s
  | .clz f => execClz f s
  | .ffs f => execFfs f s
  | .popc f => execPopc f s
  | .brev f => execBrev f s
  | .bfx f => execBfx f s
  | .bfi f => execBfi f s
  | .icmp f => execIcmp f s
  | .pand f => execPand f s
  | .por f => execPor f s
  | .pxor f => execPxor f s
  | .pnot f => execPnot f s
  | .lea f => execLea f s
  | .fadd f => execFadd f s
  | .fsub f => execFsub f s
  | .fmul f => execFmul f s
  | .ffma f => execFfma f s
  | .fmin f => execFmin f s
  | .fmax f => execFmax f s
  | .fcmp f => execFcmp f s
  | .fclass f => execFclass f s
  | .frnd f => execFrnd f s
  | .cvt f => execCvt f s
  | .qnt f => execQnt f s
  | .dqnt f => execDqnt f s
  | .sclf f => execSclf f s
  | .fdot f => execFdot f s
  | .rcp f => execRcp f s
  | .rsq f => execRsq f s
  | .sqrt f => execSqrt f s
  | .exp2 f => execExp2 f s
  | .log2 f => execLog2 f s
  | .sin f => execSin f s
  | .cos f => execCos f s
  | .tanh f => execTanh f s
  | .sigm f => execSigm f s
  | .l6add f => execL6add f s
  | .l6mul f => execL6mul f s
  | .shuf f => execShuf f s
  | .bcast f => execBcast f s
  | .red f => execRed f s
  | .scan f => execScan f s
  | .vote f => execVote f s
  | .cmprs f => execCmprs f s
  | .xpnd f => execXpnd f s
  | .bra f => execBra f s
  | .brx f => execBrx f s
  | .bfetch f => execBfetch f s
  | .loop f => execLoop f s
  | .rep f => execRep f s
  | .stop f => execStop f s
  | .yield f => execYield f s
  | .lnkw f => execLnkw f s
  | .lnkr f => execLnkr f s
  | .ctsig f => execCtsig f s
  | .ctwait f => execCtwait f s
  | .trap f => execTrap f s
  | .brkp f => execBrkp f s
  | .gang f => execGang f s
  | .ungang f => execUngang f s
  | .sleep f => execSleep f s
  | .twait f => execTwait f s
  | .time f => execTime f s
  | .ld f => execLd f s
  | .st f => execSt f s
  | .ldx f => execLdx f s
  | .stx f => execStx f s
  | .pref f => execPref f s
  | .hbind f => execHbind f s
  | .advp f => execAdvp f s
  | .advc f => execAdvc f s
  | .qbind f => execQbind f s
  | .qdrop f => execQdrop f s
  | .ldf f => execLdf f s
  | .fbclr f => execFbclr f s
  | .stsb f => execStsb f s
  | .wback f => execWback f s
  | .inval f => execInval f s
  | .atom f => execAtom f s
  | .cas f => execCas f s
  | .atred f => execAtred f s
  | .fence f => execFence f s
  | .acq f => execAcq f s
  | .rel f => execRel f s
  | .bar f => execBar f s
  | .bara f => execBara f s
  | .barw f => execBarw f s
  | .cwait f => execCwait f s
  | .cadd f => execCadd f s
  | .inbx f => execInbx f s
  | .inbp f => execInbp f s
  | .ticket f => execTicket f s
  | .roleq f => execRoleq f s
  | .mma f => execMma f s
  | .mmas f => execMmas f s
  | .mzero f => execMzero f s
  | .mfill f => execMfill f s
  | .mdrain f => execMdrain f s
  | .chbeg f => execChbeg f s
  | .chend f => execChend f s
  | .spfence f => execSpfence f s
  | .cpy f => execCpy f s
  | .cpyg f => execCpyg f s
  | .ncfg f => execNcfg f s
  | .nint f => execNint f s
  | .nleak f => execNleak f s
  | .nfire f => execNfire f s
  | .evsend f => execEvsend f s
  | .evrecv f => execEvrecv f s
  | .rsort f => execRsort f s
  | .rsend f => execRsend f s
  | .rrecv f => execRrecv f s
  | .racc f => execRacc f s
  | .rmarg f => execRmarg f s
  | .rgrad f => execRgrad f s
  | .rwtab f => execRwtab f s
  | .csrr f => execCsrr f s
  | .csrw f => execCsrw f s
  | .tqcfg f => execTqcfg f s
  | _ => .next s

/-- The meaning of a control thread's instruction or register write, for one that stalled. -/
def rerunCt (i : Instr) (s : State) : Out :=
  match i with
  | .sow rd rs1 rs2 => execSow rd rs1 rs2 s
  | .soww rd rs1 rs2 => execSoww rd rs1 rs2 s
  | .mtstat rd rs1 => execMtstat rd rs1 s
  | .mtstop rs1 => execMtstop rs1 s
  | .mtrel rs1 => execMtrel rs1 s
  | .cmdq rd rs1 => execCmdq rd rs1 s
  | .cmdqnb rd rs1 => execCmdqnb rd rs1 s
  | .ctinbx rd rs1 => execCtinbx rd rs1 s
  | .ctcwait rd rs1 rs2 => execCtcwait rd rs1 rs2 s
  | .cttick rd rs1 => execCttick rd rs1 s
  | .actfire rs1 rs2 => execActfire rs1 rs2 s
  | .bindld rs1 => execBindld rs1 s
  | .incarn rd rs1 => execIncarn rd rs1 s
  | .reclaim rd rs1 => execReclaim rd rs1 s
  | .controlThreadRiscvInstruction r => execControlThreadRiscvInstruction r s
  | .ctxidCtxWrite c v => execCtxidCtxWrite c v s
  | .nbvWrite c v => execNbvWrite c v s
  | .registerWrite r v => execRegisterWrite r v s
  | _ => .next s

/-- The blocking instruction of a waiting micro-thread, run again. -/
def State.runBlocked (s : State) (c m : Nat) : Out :=
  let t := s.mt c m
  match t.blocked with
  | some i =>
    if t.st = .waiting && t.hold.isNone && s.gangRuns c m then
      rerunMt i { s with curCore := c, curMt := m }
    else .next s
  | none => .next s

/-- A micro-thread's blocking instruction raises a trap now. -/
def State.trapsNow (s : State) (c m : Nat) : Bool :=
  match s.runBlocked c m with
  | .next t => (t.mt c m).hold.isSome && (s.mt c m).hold.isNone
  | _ => false

/-- Runs the blocking instruction of a waiting micro-thread again; traps of several micro-threads are
recorded in ascending number (R348, R410). -/
def State.rerun (s : State) (c m : Nat) : Out :=
  if s.trapsNow c m && (List.range m).any (s.trapsNow c) then .next s else s.runBlocked c m

def execWaitingInstructionCompletes (c m : Nat) (s : State) : Out := s.rerun c m

/-- SLEEP_DEADLINE: SLEEP leaves once the counter has reached TDEAD, in a gang that of every member. -/
def execSleepDeadline (c m : Nat) (s : State) : Out :=
  match (s.mt c m).blocked with
  | some (.sleep _) => if (s.mt c m).tdead ≤ s.now then s.rerun c m else .next s
  | _ => .next s

/-- TWAIT_DEADLINE: at the deadline a bounded instruction completes, or is abandoned. -/
def execTwaitDeadline (c m : Nat) (s : State) : Out :=
  match s.deadline m (s.membersOf c m) with
  | some d => if d ≤ s.now then s.rerun c m else .next s
  | none => .next s

/-- A write that no instruction holds: it keeps interrupts back. -/
def Hart.writing (h : Hart) : Bool :=
  match h.stall with
  | some (.ctxidCtxWrite ..) | some (.nbvWrite ..) | some (.registerWrite ..) => true
  | _ => false

def execCtStallCompletes (c : Nat) (s : State) : Out :=
  match (s.hart c).stall with
  | some i => if s.coreRuns c then rerunCt i { s with curCore := c } else .next s
  | none => .next s

end Sys2Proof.Machine
end

