-- ==== Sys2Proof/Machine/Power.lean ====
section
/-! DEFINITION. Power gating (R329, R401), the budget tick with its sensors, refresh, rotation,
operating points and duty (R321 to R324, R330), DRAM refresh (R331, R340) and droop (R400). -/

namespace Sys2Proof.Machine

/-! ### Gating (R329, R401) -/

/-- A core is gateable. -/
def Core.gateable (k : Core) : Bool :=
  k.ct.wfi && k.mtsIdle && k.enginesIdle && k.actors.all (fun a => !a.2.en) &&
  !k.tq.cfg && k.wr.st == .unconfigured

/-- CORE_GATE: the break-even hold begins, ends after 2 µs with gating entry, or is given up
when the core is no longer gateable. -/
def execCoreGate (c : Nat) (s : State) : Out :=
  let k := s.core c
  match k.gate with
  | .on => .next (if k.gateable && !k.frozen then s.setGate c (.hold s.now) else s)
  | .hold t =>
    if !k.gateable || k.frozen then .next (s.setGate c .on)
    else if t + 2000 ≤ s.now then .next (s.setGate c (.entering s.now false))
    else .next s
  | _ => .next s

/-- GATING_ENTRY_END: the logic is off 50 ns after the entry began, and a request that came
meanwhile joins the arbiter. -/
def execGatingEntryEnd (c : Nat) (s : State) : Out :=
  match (s.core c).gate with
  | .entering t w =>
    if t + 50 ≤ s.now then
      let s := s.setGate c .gated
      .next (if w then s.joinArbiter c else s)
    else .next s
  | _ => .next s

def execWakeRequest (c : Nat) (s : State) : Out := .next (s.wake c)

/-- WAKE_COMPLETE: a wake ends after 250 ns, and the arbiter starts the next. A core of a killed paddock
is reset then (R401). -/
def execWakeComplete (c : Nat) (s : State) : Out :=
  match (s.core c).gate with
  | .waking t =>
    if t + 250 ≤ s.now then
      let q := quadOf c
      let a := s.arbiter q
      let s := ((s.setArbiter q { a with waking := a.waking.filter (· != c) }).setGate c .on).startWakes q 4
      .next (if (s.core c).resetDue then s.resetOn c else s)
    else .next s
  | _ => .next s

/-! ### Sensors, refresh and TALLOW (R330, R331) -/

/-- Samples the sensors. -/
def State.sample (s : State) (env : TickInput) : State :=
  let s := env.tileTemp.foldl (fun s x => s.modTile x.1 fun t => { t with temp := x.2 }) s
  env.chanTemp.foldl (fun s x => s.modChan x.1 fun t => { t with temp := x.2 }) s

/-- The refresh interval of a channel in nanoseconds. -/
def Chan.interval (x : Chan) : Nat := if x.fast then 1950 else 3900

/-- A channel's refresh starts. -/
def Chan.refresh (x : Chan) (now : Nat) : Chan := { x with last := some now, busy := true }

/-- A refresh lasts 350 ns (R331). -/
def Chan.inRefresh (x : Chan) (now : Nat) : Bool :=
  x.busy && (match x.last with | some t => decide (now < t + 350) | none => false)

/-- Its interval has passed since the last refresh. The first refresh comes at any time. -/
def Chan.due (x : Chan) (now : Nat) : Bool :=
  match x.last with
  | some t => decide (t + x.interval ≤ now)
  | none => true

/-- The interval halves above 85 °C, counted from the last refresh, and doubles at 83 °C or
below. -/
def Chan.retime (x : Chan) (now : Nat) : Chan :=
  let y : Chan := { x with fast := if 340 < x.temp then true else if x.temp ≤ 332 then false else x.fast }
  if y.fast && !x.fast && y.last.isSome && y.due now && !y.inRefresh now then y.refresh now else y

/-- HEAD in quarter degrees, from the tile's and the home channel's temperature. -/
def headroom (tile chan : Int) : Nat := min 1023 (min (420 - tile) (340 - chan)).toNat

def tallowOf (fast : Bool) (head : Nat) : Word := BitVec.ofNat 32 ((if fast then 2 ^ 31 else 0) + head)

/-- HEAD as TALLOW holds it. -/
def Core.head (k : Core) : Nat := k.tallow.toNat % 1024

def State.sense (s : State) (env : TickInput) : State :=
  let s := s.sample env
  let s := { s with chans := s.chans.map fun e => (e.1, e.2.retime s.now) }
  (List.range 1024).foldl (fun s c =>
    let x := s.chan c
    s.modCore c fun k => { k with tallow := tallowOf x.fast (headroom (s.tile (tileOf c)).temp x.temp) }) s

/-! ### Rotation (R330) -/

def Core.reserve (k : Core) : Bool := k.pwrreq.getLsbD 8
def Core.setReserve (k : Core) (b : Bool) : Core := { k with pwrreq := setField k.pwrreq 8 1 b.toNat }

/-- Exchanges pull permission between hot cores, coldest headroom first, and the reserves left. -/
def State.rotate (s : State) : List Nat → List Nat → State
  | h :: hot, r :: res =>
    State.rotate (((s.modCore h (·.setReserve true)).modCore r (·.setReserve false)).wake r) hot res
  | _, _ => s

/-- Rotation of one launch. -/
def State.rotateNode (s : State) (x : Node) : State :=
  let head (c : Nat) : Nat := (s.core c).head
  let hot := x.cores.filter fun c => !(s.core c).reserve && decide (head c < Config.rotLo)
  let res := x.cores.filter fun c => (s.core c).reserve && decide (Config.rotHi ≤ head c)
  s.rotate
    (sortBy (fun a b => decide (head a < head b) || (head a == head b && decide (a ≤ b))) hot)
    (sortBy (fun a b => decide (head b < head a) || (head a == head b && decide (a ≤ b))) res)

/-- Every running launch that is not cooperative. -/
def State.rotation (s : State) : State :=
  ((List.range 4).flatMap fun d => (s.die d).nodes.map (·.2)).foldl (fun s x =>
    if (x.st == .running || x.st == .placing) && !x.coop then s.rotateNode x else s) s

/-! ### The budget tree, operating points and duty (R321, R323) -/

/-- Requested operating point. -/
def Core.opreq (k : Core) : Nat := k.pwrreq.toNat % 8

/-- The allowances of all cores, in units of 1 / (16 × total demand) milliwatts: every level of
the tree gives the floors and divides the rest in proportion to demand. -/
structure Budget where
  total : Nat
  rest : Nat
  dem : Cells Nat

def Budget.of (s : State) (env : TickInput) : Budget :=
  let on := (List.range 1024).filter s.present
  let dem : Cells Nat := env.demand.foldl (fun m x =>
    if s.present x.1 then Cells.put 0 m x.1 (min 16 x.2) else m) []
  let floors := (on.map fun c => Config.floorDuty * Config.pf (s.tile (tileOf c)).op).sum
  { total := max 1 (dem.map (·.2)).sum
    rest := 16 * Config.pkgBudget - floors
    dem := dem }

def Budget.allowance (b : Budget) (s : State) (c : Nat) : Nat :=
  if s.present c then
    Config.floorDuty * Config.pf (s.tile (tileOf c)).op * b.total + b.rest * b.dem.look 0 c
  else 0

/-- OPCAP: the highest operating point at which four cores at duty 8 fit the tile's share. -/
def Budget.opcap (b : Budget) (s : State) (tile : Nat) : Nat :=
  let share := ((tileCores tile).map (b.allowance s)).sum
  ((List.range 8).reverse.find? fun op =>
    decide (32 * Config.pf op * b.total ≤ share)).getD 0

/-- The tile's next operating point. -/
def Budget.nextOp (b : Budget) (s : State) (tile : Nat) : Nat :=
  min ((tileCores tile).foldl (fun m c => max m (s.core c).opreq) 0) (b.opcap s tile)

/-- FDUTY.DUTY from an allowance. -/
def Budget.dutyOf (b : Budget) (a op : Nat) : Nat :=
  min 16 (max Config.floorDuty (a / (Config.pf op * b.total)))

/-- Applies a tick to one tile: a change of operating point is a hop. -/
def Budget.setTile (b : Budget) (s0 s : State) (tile : Nat) : State :=
  let op := b.nextOp s0 tile
  let s := s.modTile tile fun t =>
    { t with op := op, hop := if op = t.op then t.hop else some s0.now }
  (tileCores tile).foldl (fun s c =>
    s.modCore c fun k => { k with duty := b.dutyOf (b.allowance s0 c) op }) s

def State.budget (s : State) (env : TickInput) : State :=
  let b := Budget.of s env
  (List.range 256).foldl (fun t tile => b.setTile s t tile) s

/-- A budget tick comes 10 µs after the one before; when the first comes is free (log 31). -/
def State.tickDue (s : State) : Bool :=
  decide (s.bootStep = 4) && s.budgetAt.all fun t => decide (t + 10000 ≤ s.now)

/-- BUDGET_TICK, 10 µs after the one before or later, and not before the configuration image has filled
the fields that it reads (R319). -/
def execBudgetTick (env : TickInput) (s : State) : Out :=
  if !s.tickDue then .next s
  else
    let s := { s with budgetAt := some s.now }.sense env
    let s := s.rotation
    let s := s.budget env
    .next ((List.range 16).foldl (fun s q => s.backOff (q / 4) (q % 4)) s)

/-- HOP_END: the new clock takes over after 1 µs. -/
def execHopEnd (t : Nat) (s : State) : Out :=
  match (s.tile t).hop with
  | some h => .next (if h + 1000 ≤ s.now then s.modTile t fun x => { x with hop := none } else s)
  | none => .next s

/-! ### DRAM refresh (R331, R340) -/

def execDramRefresh (ch : Nat) (s : State) : Out :=
  let x := s.chan ch
  .next (if !x.inRefresh s.now && x.due s.now then s.modChan ch fun x => x.refresh s.now else s)

def execDramRefreshEnd (ch : Nat) (s : State) : Out :=
  match (s.chan ch).last with
  | some t =>
    .next (if t + 350 ≤ s.now then s.modChan ch fun x => { x with busy := false } else s)
  | none => .next s

/-! ### Droop (R400) -/

/-- Forces or frees the fetch of a tile's cores. -/
def State.forceTile (s : State) (t : Nat) (b : Bool) : State :=
  (tileCores t).foldl (fun s c => s.modCore c fun k => { k with forced := b }) s

/-- DROOP_DETECT: a stretch of the tile's clock, or a forced microsecond during a hop or a
handshake; a detection during it restarts it. -/
def execDroopDetect (t : Nat) (handshake : Bool) (s : State) : Out :=
  let x := s.tile t
  if x.hop.isSome || handshake then
    .next ((s.modTile t fun x => { x with forced := some s.now }).forceTile t true)
  else
    .next (s.modTile t fun x =>
      { x with droop := some s.now, forced := x.forced.map fun _ => s.now })

/-- DROOP_END: the stretch ends after 200 ns, the forced microsecond after 1 µs. -/
def execDroopEnd (t : Nat) (s : State) : Out :=
  let past (p : Option Nat) (n : Nat) : Bool :=
    match p with
    | some x => decide (x + n ≤ s.now)
    | none => false
  let x := s.tile t
  let s : State := if past x.droop 200 then s.modTile t fun x => { x with droop := none } else s
  .next (if past x.forced 1000 then
      (s.modTile t fun x => { x with forced := none }).forceTile t false
    else s)

end Sys2Proof.Machine
end

