-- ==== Sys2Proof/Machine/Fabric.lean ====
section
/-! DEFINITION. Messages at their destination and answers at their source (R306 to R309, R315,
R355, R360, R376 to R380, R386, R390 to R397, R404). -/

namespace Sys2Proof.Machine

/-! ### Answers -/

/-- A packet that answers another: of the response class (R305), with the SEQ of its flow. -/
def Packet.answer (p : Packet) (k : PacketKind) : Packet :=
  { p with kind := k, spkg := epPkg p.dst, src := p.dst, dst := p.src, cls := clsResponse, pair := none }

def State.reply (s : State) (p : Packet) (k : PacketKind) : State := s.putWire [p.answer k]

/-- The packet leaves the wire. -/
def State.unwire (s : State) (n : Nat) : State := { s with wire := s.wire.eraseIdx n }

/-- The core beside a core or slice endpoint of this package. -/
def epCore (ep : Nat) : Option Nat := if ep < 2048 then some (ep % 1024) else none

/-- The die whose FABSTAT counts for an endpoint (R395). -/
def epDie (ep : Nat) : Option Nat :=
  if ep < 2048 then some (coreDie (ep % 1024)) else if ep < 2052 then some (ep - 2048) else none

/-- Steps a count of the die of an endpoint. -/
def State.count (s : State) (ep : Nat) (f : Die → Die) : State :=
  match epDie ep with
  | some d => s.modDie d f
  | none => s

def sat16 (n : Nat) : Nat := min 65535 (n + 1)
def State.countResend (s : State) (ep : Nat) : State :=
  s.count ep fun x => { x with rsndCnt := sat16 x.rsndCnt }

/-! ### Fences, generations and incarnations (R384, R386, R397) -/

inductive Gatekeep | pass | drop | reject
  deriving DecidableEq, Repr

def State.fencedEp (s : State) (ep : Nat) : Bool :=
  match epCore ep with
  | some c => s.fenced c
  | none => false

/-- Two endpoints of one paddock. -/
def State.samePaddock (s : State) (a b : Nat) : Bool :=
  match epCore a, epCore b with
  | some x, some y => coreDie x == coreDie y && s.paddockOf x == s.paddockOf y
  | _, _ => false

/-- What the fence of a paddock does with a message: out it is discarded, in it is rejected, and
inside it is dropped. -/
def State.fenceCheck (s : State) (p : Packet) : Gatekeep :=
  if s.fencedEp p.dst then (if s.samePaddock p.src p.dst then .drop else .reject)
  else if s.fencedEp p.src then .drop
  else .pass

/-- The message was sent under a generation that its group no longer has. -/
def State.staleGen (s : State) (p : Packet) : Bool :=
  p.grp != 0 && ((s.die (p.grp / 4096)).group (p.grp % 4096)).gen != p.gen

/-- Its incarnation is stale for its context. Markers are the device's own. -/
def State.staleInc (s : State) (p : Packet) : Bool :=
  decide (p.src < 2048) &&
  (match p.payload with | .marker .. => false | _ => true) &&
  s.staleTag p.ctx p.inc

/-! ### Where a message acts (R360) -/

/-- Where the context that ran on a core runs now, along the forwarding entries. -/
def State.follow (s : State) (ctx : BitVec 12) : Nat → Nat → Nat
  | 0, c => c
  | fuel + 1, c =>
    match s.forwards.find? fun f => f.src == c && f.ctx == ctx with
    | some f => State.follow s ctx fuel f.dst
    | none => c

/-- The way from core `a` along the forwarding entries comes to core `c`. -/
def State.comesTo (s : State) (ctx : BitVec 12) (c : Nat) : Nat → Nat → Bool
  | 0, a => a == c
  | fuel + 1, a => a == c ||
    match s.forwards.find? fun f => f.src == a && f.ctx == ctx with
    | some f => State.comesTo s ctx c fuel f.dst
    | none => false

/-- The forwarding entry that a message of a migrated context meets at a core's slice. -/
def State.forwardOf (s : State) (p : Packet) : Option Forward :=
  match p.payload.core? with
  | some c => s.forwards.find? fun f => f.src == c && f.ctx == p.ctx
  | none => none

/-- The core on which a message acts, after redirection. -/
def State.targetOf (s : State) (p : Packet) : Option Nat :=
  (p.payload.core?.or (if p.dst < 1024 then some p.dst else none)).map (s.follow p.ctx s.forwards.length)

/-- A mailbox message or a marker at an old slice is relayed to the next one. -/
def State.relayed (s : State) (p : Packet) : Option Forward :=
  if p.cls = clsRequest ∧ 1024 ≤ p.dst ∧ p.dst < 2048 then
    match p.payload with
    | .marker .. => s.forwards.find? fun f => epSlice f.src == p.dst && f.ctx == p.ctx
    | _ => s.forwardOf p
  else none

/-- Where the sender of a message runs now: the core itself, or the one that came from there. -/
def State.senderNow (s : State) (p : Packet) : Nat :=
  ((s.cores.find? fun e => e.2.ctx == p.ctx && e.2.launch.isSome &&
    (e.1 == p.src || e.2.origin == some p.src)).map (·.1)).getD p.src

/-- A direct message waits until its sender's markers have come through the entries that lead to its core. -/
def State.behindMarker (s : State) (p : Packet) : Bool :=
  match p.payload.core? with
  | some c => s.forwards.any fun f =>
      f.ctx == p.ctx && (f.awaiting.any fun q => q.1 == s.senderNow p) &&
      s.comesTo p.ctx c s.forwards.length f.dst
  | none => false

/-- The freeze of its core refuses a message: one to the core's endpoint, its mailbox, queues or windrow
(R358). Writes of a copy to a scratchpad go on. -/
def State.refused (s : State) (p : Packet) : Bool :=
  let refusable : Bool := decide (p.dst < 1024) ||
    match p.payload with
    | .store .. | .merge .. => false
    | _ => true
  decide (p.dst < 4096) && refusable && !s.staleInc p && (s.relayed p).isNone &&
    (s.targetOf p).any fun c => (s.core c).frozen

/-! ### Room (R250, R271, R276, R355, R358, R382) -/

/-- The ring that a record goes to. -/
def State.ringOf (s : State) (r : TrapRec) : Nat :=
  let e := s.steer.look (false, 0) r.ctx.toNat
  if e.1 then e.2 else 0

/-- The controller holds up to 64 records for a ring that is full or not in use. -/
def State.recordRoom (s : State) (r : TrapRec) : Bool :=
  let n := s.ringOf r
  let g := s.ring n
  let coming := s.trapQ.countP fun x => s.ringOf x == n
  (g.room && g.held.isEmpty && coming == 0) || decide (g.held.length + coming < 64)

/-- The destination can take the payload. -/
def State.payloadRoom (s : State) (p : Packet) : Bool :=
  match p.payload with
  | .event c sender smt v =>
    (s.withTwins [(s.targetOf p).getD c]).all fun x => (s.core x).eventRoom sender smt v
  | .rank c sender smt es _ =>
    (s.withTwins [(s.targetOf p).getD c]).all fun x => (s.core x).rankRoom sender smt es
  | .partialSum q => s.partialRoom q
  | .trapRecord r => s.recordRoom r
  | .notify n => !(s.die (n / 4096)).frozen
  | _ => true

/-- A message for another package needs no room here. -/
def Packet.leaves (p : Packet) : Bool := decide (4096 ≤ p.dst)

/-- The message can be handed on. -/
def State.takes (s : State) (p : Packet) : Bool :=
  s.staleInc p || p.leaves || (s.relayed p).isSome ||
  (!s.refused p && !s.behindMarker p && s.payloadRoom p)

/-! ### Performing a message -/

/-- A message to a core's mailbox, queue or windrow has been accepted (R302). -/
def Core.accept (k : Core) : Core := { k with accepted := k.accepted + 1 }

/-- A word of the mailbox is written, from another package or not (R71). -/
def State.writeMbox (s : State) (c word : Nat) (v : Word) (far : Bool) : State :=
  (s.writeW (.mbox c (4 * word)) v).modCore c fun k =>
    ({ k with mboxDom := k.mboxDom.put false word far } : Core).accept

def State.putMailbox (s : State) (c word : Nat) (v : Word) (far : Bool) : State :=
  (s.writeMbox c word v far).modCore c fun k => { k with mboxFull := k.mboxFull.put false word true }

/-- The read-modify-write leaves the full bit (R221). -/
def State.atredMailbox (s : State) (c word aop : Nat) (ty : Ty) (v : Word) (far : Bool) : State :=
  s.writeMbox c word (atomOp ty aop (s.readW (.mbox c (4 * word))) v) far

def withNibble (b : Byte) (high : Bool) (v : BitVec 4) : Byte :=
  if high then v ++ b.extractLsb' 0 4 else b.extractLsb' 4 4 ++ v

def State.putNibble (s : State) (src : Nat) (l : Loc) (high : Bool) (v : BitVec 4) : State :=
  s.writeBy src l [withNibble ((s.readLoc l 1).headD 0) high v]

def nibbleLoc (sp c a : Nat) : Loc :=
  match sp with
  | 2 => .scratch c a
  | 3 => .gran c a
  | 4 => .dram a
  | _ => .remote a

/-- A message goes on under another payload. -/
def Core.renameSent (k : Core) (a b : Payload) : Core :=
  match k.ownStores.find? (·.pl == a) with
  | some x => { k with ownStores := k.ownStores.set (k.ownStores.findIdx (·.pl == a)) { x with pl := b } }
  | none => k

/-- What an atomic leaves at its place, of `n` bytes (R219 to R221, R226). -/
def RmwOp.apply (op : RmwOp) (n m : Nat) : Nat :=
  match op with
  | .atom aop ty v => (atomOp ty aop (BitVec.ofNat 32 m) v).toNat
  | .cas c v => if m = c.toNat then v.toNat else m
  | .counter inc err => counterNext m inc err
  | .amo k v => amoOp k n m v
  | .advance .. => m

/-- The core waits for the answer to its request of a number. -/
def Core.awaits (k : Core) (seq : Nat) : Bool :=
  k.ct.asked == some seq || k.mts.any fun e => e.2.asked.any (·.2 == seq)

/-- The answer to an atomic, for both twins; one of another incarnation is discarded (R377, R386). -/
def State.answerRmw (s : State) (p : Packet) (old : Nat) : State :=
  let seq := (p.pair.map (·.seq)).getD 0
  (s.sendersOf p).foldl (fun s c => s.modCore c fun k =>
    if k.awaits seq && k.inc == p.inc then { k with answers := k.answers ++ [(seq, BitVec.ofNat 64 old)] }
    else k) s

/-- Bytes written at a place by a message, devices included. -/
def State.writeAt (s : State) (src : Nat) (l : Loc) (bs : List Byte) : State :=
  match l with
  | .device pa => s.devWrite pa bs.length (BitVec.ofNat 64 (leNat bs))
  | .pcie _ => s
  | l => s.writeBy src l bs

/-- The queue could not be moved on: an engine's operation that asked ends with STATUS 8 (R215). -/
def State.overrun (s : State) (p : Packet) : State :=
  (s.sendersOf p).foldl (fun s c => s.modCore c fun k =>
    match k.ownStores.find? (·.pl == p.payload) with
    | some x =>
      let asked (o : CopyOp) : Bool := o.agent c == x.agent && o.seq == x.rsn
      { k with copies := k.copies.map fun o => if asked o then { o.fault 8 with stage := 2 } else o }
    | none => k) s

/-- A read-modify-write of a pair is performed once, and its answer is for both twins (R377, R378). -/
def State.rmwAt (s : State) (p : Packet) (kd a n : Nat) (op : RmwOp) : State :=
  match op with
  | .advance prod k =>
    match (s.qhome a).bind (·.advance prod k) with
    | some q => { s with qhomes := s.qhomes.upd a q }.answerRmw p 0
    | none => (s.overrun p).answerRmw p 1
  | op =>
    let old := leNat (s.bytesAt (homedLoc kd a) n)
    (s.writeAt p.src (homedLoc kd a) (leBytes n (op.apply n old))).answerRmw p old

/-- A message to memory is performed at its place. -/
def State.performAt (s : State) (p : Packet) : State :=
  match p.payload with
  | .store kd a bs => s.writeBy p.src (homedLoc kd a) bs
  | .merge kd a ps => ps.foldl (fun s x => s.writeBy p.src ((homedLoc kd a).plus x.1) [x.2]) s
  | .rmw kd a n op => s.rmwAt p kd a n op
  | _ => s

/-- The arrival of a pair at a barrier has come to the barrier's home. One that has been withdrawn meanwhile
is gone (R223, R378). -/
def State.arrivalIn (s : State) (p : Packet) : State :=
  let mine (a : Arrival) : Bool := p.pair.any fun t => a.pair == some (t.id, t.seq)
  { s with barPending := (s.barPending.filter fun a => !(mine a && a.void)).map fun a =>
      if mine a then { a with ready := true, pair := none } else a }

/-- The primary or the twin of a pair of a context. -/
def State.pairCore (s : State) (ctx : BitVec 12) (id : Nat) (twin : Bool) : Option Nat :=
  (s.cores.find? fun e => e.2.ctx == ctx &&
    match e.2.pair with
    | some q => q.id == id && q.twin == twin
    | none => false).map (·.1)

/-- The marker of a flow has come through: the entry awaits one fewer. -/
def State.markerDone (s : State) (q : Nat × Nat × Nat) : State :=
  { s with forwards := s.forwards.map fun f => { f with awaiting := f.awaiting.filter (· != q) } }

/-- A payload for the core that its addressee has moved to. -/
def Payload.movedTo (pl : Payload) (c : Nat) : Payload :=
  match pl with
  | .signal _ w v d => .signal c w v d
  | .atred _ w aop ty v => .atred c w aop ty v
  | .event _ x m w => .event c x m w
  | .rank _ x m es fin => .rank c x m es fin
  | .nibble 2 _ a hi v => .nibble 2 c a hi v
  | .store 3 a bs => .store 3 (c * 0x80000 + a % 0x80000) bs
  | .merge 3 a ps => .merge 3 (c * 0x80000 + a % 0x80000) ps
  | pl => pl

/-- Relays a message for a core's mailbox or scratchpad on the old slice's own flow to the new slice,
where it is still to be performed (R360). -/
def State.relay (s : State) (p : Packet) (f : Forward) : State :=
  let pl := p.payload.movedTo f.dst
  let s := (s.sendersOf p).foldl (fun s c => s.modCore c (·.renameSent p.payload pl)) s
  s.inject { p with
    src := epSlice f.src, dst := epSlice f.dst, flow := p.cls, grp := 0, gen := 0, pair := none, payload := pl }

/-- Performs a message of this package. -/
def State.perform (s : State) (p : Packet) : State :=
  let ts (c : Nat) : List Nat := s.withTwins [(s.targetOf p).getD c]
  let far : Bool := p.spkg != Config.pkgNum
  match p.payload with
  | .signal c w v _ => (ts c).foldl (fun s x => s.putMailbox x w v far) s
  | .atred c w aop ty v => (ts c).foldl (fun s x => s.atredMailbox x w aop ty v far) s
  | .nibble 2 c a hi v => (ts c).foldl (fun s x => s.putNibble p.src (.scratch x a) hi v) s
  | .nibble 6 _ a hi v => s.nibbleDevice a hi v
  | .nibble sp c a hi v => s.putNibble p.src (nibbleLoc sp c a) hi v
  | .event c .. | .rank c .. =>
    (ts c).foldl (fun s x =>
      s.modCore x fun k => { k with arrivals := k.arrivals ++ [p.payload], accepted := k.accepted + 1 }) s
  | .partialSum q => { s with partialQ := s.partialQ ++ [q] }
  | .store 3 a bs => (ts (a / 0x80000)).foldl (fun s x => s.writeLoc (.scratch x (a % 0x80000)) bs) s
  | .merge 3 a ps =>
    (ts (a / 0x80000)).foldl (fun s x =>
      ps.foldl (fun s b => s.writeLoc (.scratch x (a % 0x80000 + b.1)) [b.2]) s) s
  | .store .. | .merge .. | .rmw .. => s.performAt p
  | .device pa n v => s.devWrite pa n v
  | .arrival .. => s.arrivalIn p
  | .launch seq req level =>
    let c := (p.pair.bind fun t => s.pairCore p.ctx t.id false).getD p.src
    s.childIn (p.dst - epCp 0) c p.ctx seq req level
  | .trapRecord r => { s with trapQ := s.trapQ ++ [r] }
  | .notify n => s.modDie (n / 4096) fun x => { x with notifyQ := x.notifyQ ++ [n] }
  | .marker c ep cls => s.markerDone (c, ep, cls)

/-- What a message does in another package, as far as this package's agents see it (R314). -/
def State.performAway (s : State) (p : Packet) : State :=
  match p.payload with
  | .nibble _ _ a hi v => s.putNibble p.src (.remote a) hi v
  | .store 3 _ _ | .merge 3 _ _ => s
  | .store .. | .merge .. | .rmw .. => s.performAt p
  | .partialSum q => { s with partialQ := s.partialQ ++ [q] }
  | _ => s

/-- A message has been performed. A partial is only accepted: it is performed when its line takes it
(R109). -/
def State.performed (s : State) (p : Packet) : State :=
  match p.payload with
  | .partialSum _ => s
  | _ => s.sentDone p

/-- Hands a message on: a stale one does nothing. -/
def State.deliver (s : State) (p : Packet) : State :=
  if s.staleInc p then s.sentDone p
  else if p.leaves then (s.performAway p).performed p
  else
    match s.relayed p with
    | some f => s.relay p f
    | none => (s.perform p).performed p

/-! ### Paired messages (R378, R379) -/

/-- A message as it would be sent now: to where its addressee has moved (R360, R361). -/
def State.rerouted (s : State) (p : Packet) : Packet :=
  if (s.forwardOf p).isSome then
    let c := (s.targetOf p).getD p.dst
    { p with
      dst := if p.dst < 1024 then c else if p.dst < 2048 then epSlice c else p.dst
      payload := p.payload.movedTo c }
  else p

/-- The held message of the other side. -/
def State.partner (s : State) (p : Packet) : Option HeldPair :=
  match p.pair with
  | some t => s.pairs.find? fun h =>
      match h.pkt.pair with
      | some u =>
        (s.rerouted h.pkt).dst == (s.rerouted p).dst && u.id == t.id && u.seq == t.seq && u.twin != t.twin
      | none => false
  | none => none

/-- Where messages to an endpoint are matched: the home slice of a core, the slice, or what else the
endpoint is (R379). -/
def matchPlace (ep : Nat) : Nat := if ep < 2048 then ep % 1024 else ep

def Packet.digestOf (p : Packet) : Word := match p.pair with | some t => t.digest | none => 0

/-- The digest to compare: of a message to an old endpoint, that of the message sent now, so that twins
match over a migration between their sends. -/
def State.digestNow (s : State) (p : Packet) : Word :=
  if (s.forwardOf p).isSome then
    let q := s.rerouted p
    digest q.dst q.ctx.toNat q.payload
  else p.digestOf

/-- A paired message can be taken: its incarnation is stale, its partner is held and the
destination has room or the digests differ, or the slice has room to hold it. -/
def State.takesPaired (s : State) (p : Packet) : Bool :=
  s.staleInc p ||
  match s.partner p with
  | some h => s.digestNow p != s.digestNow h.pkt || (s.takes p && !s.behindMarker h.pkt)
  | none => decide (s.pairs.countP (fun h => matchPlace h.pkt.dst == matchPlace p.dst) < 256)

def Packet.isTwin (p : Packet) : Bool := match p.pair with | some t => t.twin | none => false

/-- Matching: held, performed once with the primary as sender and both answered, or reported. -/
def State.pairIn (s : State) (p : Packet) : State :=
  if s.staleInc p then (s.discardPaired p).reply p .ack
  else
    match s.partner p with
    | none => { s with pairs := s.pairs ++ [⟨p, s.now⟩] }
    | some h =>
      let prim := if p.isTwin then h.pkt else p
      let twin := if p.isTwin then p else h.pkt
      if s.digestNow prim = s.digestNow twin then
        let s := { s with pairs := s.pairs.erase h }
        ((s.deliver prim).reply prim .ack).reply twin .ack
      else
        let at_ (p : Packet) (twin : Bool) : Nat :=
          ((p.pair.bind fun t => s.pairCore p.ctx t.id twin)).getD p.src
        s.pairAbort 1 (at_ prim false) (at_ twin true) (prim.pair.getD ⟨0, 0, false, 0⟩)
          prim.digestOf twin.digestOf

/-- TWIN_TIMEOUT: a message held for 50 µs. One whose pair is gone is discarded: its launch has been
ended (R380). -/
def execTwinTimeout (n : Nat) (s : State) : Out :=
  match s.pairs[n]? with
  | none => .next s
  | some h =>
    if h.since + 50000 ≤ s.now then
      let gone := { s with pairs := s.pairs.eraseIdx n }.discardPaired h.pkt
      match h.pkt.pair with
      | none => .next gone
      | some t =>
        match s.pairCore h.pkt.ctx t.id false, s.pairCore h.pkt.ctx t.id true with
        | some a, some b => .next (s.pairAbort 2 a b t 0 0)
        | _, _ => .next gone
    else .next s

/-! ### Reception (R307, R308, R390) -/

/-- A message in its place in the flow: taken and answered, or refused. -/
def State.takeInOrder (s : State) (p : Packet) : Option State :=
  if p.pair.isSome then (if s.takesPaired p then some (s.pairIn p) else none)
  else if s.takes p then some (s.deliver p) else none

def State.modFlow (s : State) (src dst cls : Nat) (f : Flow → Flow) : State :=
  s.setFlow (f (s.flow src dst cls))

/-- Hands on what the window holds, in SEQ order. -/
def State.handOn (s : State) (src dst cls : Nat) : Nat → State
  | 0 => s
  | fuel + 1 =>
    let f := s.flow src dst cls
    match f.window.find? (·.seq == f.expect) with
    | none => s
    | some p =>
      let t := s.setFlow { f with expect := f.expect + 1, window := f.window.erase p }
      match t.takeInOrder p with
      | some t => State.handOn t src dst cls fuel
      | none => s

/-- The message is held in a slice for its partner, or waits there in its flow's window. -/
def State.heldPaired (s : State) (p : Packet) : Bool :=
  p.pair.isSome && s.pairs.any fun h =>
    h.pkt.src == p.src && h.pkt.dst == p.dst && h.pkt.flow == p.flow && h.pkt.seq == p.seq

/-- The window of the destination: duplicates are answered again, a message out of order is kept,
one in order is taken or refused. A paired message is answered when it is performed. While the
addressee is frozen a duplicate, too, is refused (R358, R405). -/
def State.receive (s : State) (p : Packet) : State :=
  let f := s.flow p.src p.dst p.flow
  let off := (p.seq - f.expect).toNat
  if 64 ≤ off ∧ off < 65536 - 64 then s
  else if s.refused p then s.reply p .retry
  else if 65536 - 64 ≤ off then (if s.heldPaired p then s else s.reply p .ack)
  else if f.window.any (·.seq == p.seq) then (if p.pair.isSome then s else s.reply p .ack)
  else if off = 0 then
    let t := s.setFlow { f with expect := f.expect + 1 }
    match t.takeInOrder p with
    | some t =>
      (if p.pair.isSome then t else t.reply p .ack).handOn p.src p.dst p.flow f.window.length
    | none => s.reply p .retry
  else
    let s := s.setFlow { f with window := f.window ++ [p] }
    if p.pair.isSome then s else s.reply p .ack

/-- A stale generation: answered with REJECT, its SEQ consumed. -/
def State.rejectGen (s : State) (p : Packet) : State :=
  let s := (s.reply p .reject).count p.dst fun x => { x with grpRej := sat16 x.grpRej }
  let f := s.flow p.src p.dst p.flow
  if f.expect = p.seq then s.setFlow { f with expect := f.expect + 1 } else s

/-- The destination core of a core endpoint is gated: the message is refused and wakes it. -/
def State.gateCheck (s : State) (p : Packet) : Option State :=
  if p.dst < 1024 then
    let c := (s.targetOf p).getD p.dst
    match (s.core c).gate with
    | .on => none
    | .hold _ => none
    | _ => some ((s.reply p .retry).wake c)
  else none

/-- A message reaches its destination. One of a stale incarnation is taken, whatever else would keep
it out, and performs nothing (R308). -/
def State.packetIn (s : State) (p : Packet) : State :=
  match s.fenceCheck p with
  | .drop => s
  | g =>
    if s.staleInc p then s.receive p
    else if g = .reject then s.reply p .reject
    else if s.staleGen p then s.rejectGen p
    else
      match s.gateCheck p with
      | some s => s
      | none =>
        let s := if p.dst < 1024 then s.wake ((s.targetOf p).getD p.dst) else s
        s.receive p

/-! ### Doresh ports (R313, R315) -/

/-- The ports that are up. -/
def State.portsUp (s : State) : List Nat := (List.range 32).filter fun i => !(s.ports.look (0, false) i).2

/-- The port of a flow between packages: by a hash of its source endpoint and its destination package,
over the ports that are up (R313). -/
def State.portOf (s : State) (p : Packet) : Option Nat :=
  let up := s.portsUp
  if p.leaves || decide (4096 ≤ p.src) then
    up[Config.portHash (p.src % 4096) (epPkg p.dst) % up.length]?
  else none

/-- A message between packages came over without an error: its port's retries are not in succession
(R315). -/
def State.linkGood (s : State) (p : Packet) : State :=
  match s.portOf p with
  | some i => { s with ports := s.ports.put (0, false) i (0, false) }
  | none => s

/-- The place in slice-homed memory that a message writes. -/
def Payload.place : Payload → Option Loc
  | .store kd a _ | .merge kd a _ => if kd < 3 then some (homedLoc kd a) else none
  | pl => pl.special.map (·.1)

/-- Packet `n` of the wire, if it can arrive: one between packages crosses while a port is up, and a write
that its channel's refresh keeps from its place stays on its way (R340). -/
def State.arriving (s : State) (n : Nat) : Option Packet :=
  s.wire[n]?.filter fun p =>
    ((!p.leaves && decide (p.src < 4096)) || (s.portOf p).isSome) &&
    !(p.kind == .data && p.payload.place.any s.refreshing)

/-- FABRIC_MESSAGE_ARRIVAL: packet `n` of the wire. A bad check discards any packet (R390); a
paired message comes by its own step. -/
def execFabricMessageArrival (n : Nat) (badCheck : Bool) (s : State) : Out :=
  match s.arriving n with
  | none => .next s
  | some p =>
    if badCheck then .next (s.unwire n)
    else if p.kind = .data ∧ p.pair.isNone then .next (((s.unwire n).linkGood p).packetIn p)
    else .next s

def execPairedMessageArrival (n : Nat) (s : State) : Out :=
  match s.arriving n with
  | none => .next s
  | some p =>
    if p.kind = .data ∧ p.pair.isSome then .next (((s.unwire n).linkGood p).packetIn p) else .next s

/-! ### Answers at the source (R307, R308, R391) -/

/-- The copies that a flow has on the wire. -/
def State.sentPart (s : State) (f : Flow) : List SentCopy := if s.blocked f then [] else f.copies.take 64

/-- The source frees a copy: the next that waited is sent, and what waited for the flow to drain
goes on. -/
def State.freeCopy (s : State) (src dst cls : Nat) (seq : BitVec 16) : State :=
  let f := s.flow src dst cls
  let on := s.sentPart f
  match on.find? (·.pkt.seq == seq) with
  | none => s
  | some c =>
    let rest := f.copies.erase c
    let s := s.dropGroup c.pkt.grp
    let s : State := match rest[63]? with
      | some x =>
        (s.setFlow { f with copies := rest.set 63 (x.resent s.now) }).putWire [x.pkt]
      | none => s.setFlow { f with copies := rest }
    let s := if rest.isEmpty then s.unblock src dst cls else s
    (s.forwards.foldl (fun s f => s.sendMarkers f) s).sweepForwards

def execAckArrival (n : Nat) (s : State) : Out :=
  match s.arriving n with
  | none => .next s
  | some p =>
    if p.kind = .ack then .next (((s.unwire n).linkGood p).freeCopy p.dst p.src p.flow p.seq)
    else .next s

/-- Changes the copies of a flow with a SEQ. -/
def State.modCopies (s : State) (src dst cls : Nat) (seq : BitVec 16) (g : SentCopy → SentCopy) : State :=
  s.modFlow src dst cls fun f =>
    { f with copies := f.copies.map fun c => if c.pkt.seq == seq then g c else c }

/-- RETRY: the copy is sent again later; timeouts do not count (R308). -/
def execRetry (n : Nat) (s : State) : Out :=
  match s.arriving n with
  | none => .next s
  | some p =>
    if p.kind = .retry then
      .next (((s.unwire n).linkGood p).modCopies p.dst p.src p.flow p.seq fun c =>
        { c with retryAt := some s.now, timeouts := 0 })
    else .next s

/-- RETRY_RESEND: 256 fabric cycles at 1.8 GHz after the RETRY the copy is sent again. What the
destination's window holds is handed on when it can be. -/
def execRetryResend (i : Nat) (s : State) : Out :=
  match s.flows[i]? with
  | none => .next s
  | some f =>
    let due (c : SentCopy) : Bool := match c.retryAt with
      | some t => decide (t + 143 ≤ s.now)
      | none => false
    let s : State := match (s.sentPart f).find? due with
      | some c =>
        ((s.modCopies f.src f.dst f.cls c.pkt.seq (·.resent s.now)).countResend f.src).putWire [c.pkt]
      | none => s
    .next (s.handOn f.src f.dst f.cls f.window.length)

/-- A rejected message gives the copy or the RGRAD that sent it STATUS 6, with the first byte that it does
not write in OFFS (R227, R352, R384). -/
def State.rejectedOn (s : State) (c : Nat) (x : OwnStore) : State :=
  let m := x.agent.toNat / 2 ^ 24 % 16
  match x.agent.toNat / 2 ^ 28 % 8 with
  | 3 => s.modCore c fun k => { k with copies := k.copies.map fun o =>
      if o.mt = m ∧ o.seq = x.rsn ∧ o.started then s.rejectCopy c o x.pl else o }
  | 4 => s.modCore c fun k => { k with evq := k.evq.map fun e =>
      match e.kind with
      | .rgrad g => if e.mt = m ∧ e.seq = x.rsn then { e with kind := .rgrad (g.rejected x.pl) } else e
      | _ => e }
  | _ => s

/-- The answer to an atomic that has been rejected is free, and the same for both twins (log 32). -/
def State.answerFree (s : State) (c : Nat) (p : Packet) : State :=
  match p.pair, p.payload with
  | some t, .rmw .. => s.modCore c fun k =>
      if k.awaits t.seq then { k with answers := k.answers ++ [(t.seq, Config.deviceRead t.seq)] } else k
  | _, _ => s

/-- The sender of a message that is given up is told, and waits for it no longer. -/
def State.rejectOwn (s : State) (p : Packet) : State :=
  match s.senderOf p with
  | none => s
  | some c =>
    match (s.core c).ownStores.find? (·.pl == p.payload) with
    | some x => ((s.rejectedOn c x).answerFree c p).sentDoneOn c p.payload
    | none => s

/-- The source gives a message up. -/
def State.giveUpCopy (s : State) (src dst cls : Nat) (seq : BitVec 16) : State :=
  let f := s.flow src dst cls
  let s : State := match (s.sentPart f).find? (·.pkt.seq == seq) with
    | some c => s.rejectOwn c.pkt
    | none => s
  s.freeCopy src dst cls seq

def execReject (n : Nat) (s : State) : Out :=
  match s.arriving n with
  | none => .next s
  | some p =>
    if p.kind = .reject then .next (((s.unwire n).linkGood p).giveUpCopy p.dst p.src p.flow p.seq)
    else .next s

/-- The resend timeout of a flow in nanoseconds. -/
def resendAfter (dst : Nat) : Nat := if 4096 ≤ dst then 32000 else 4000

/-- RESEND_TIMEOUT: a copy of the flow is resent; at the sixteenth timeout in a row of a flow to
a core or slice the destination's paddock is killed and the copy rejected (R391). -/
def execResendTimeout (i : Nat) (s : State) : Out :=
  match s.flows[i]? with
  | none => .next s
  | some f =>
    let due (c : SentCopy) : Bool := c.retryAt.isNone && decide (c.sentAt + resendAfter f.dst ≤ s.now)
    match (s.sentPart f).find? due with
    | none => .next s
    | some c =>
      match (if c.timeouts = 15 then epCore f.dst else none) with
      | some x =>
        let (d, p) := (coreDie x, s.paddockOf x)
        let s := if s.killable d p then s.count f.src fun y => { y with lossK := sat16 y.lossK } else s
        let s := s.killPaddock d p
        .next (s.giveUpCopy f.src f.dst f.cls c.pkt.seq)
      | none =>
        let s := s.modCopies f.src f.dst f.cls c.pkt.seq fun c =>
          { c.resent s.now with timeouts := c.timeouts + 1 }
        .next ((s.countResend f.src).putWire [c.pkt])

/-- ESCAPE_TIMEOUT: a message that has not moved for 20 µs moves to the escape channel of its class,
on a die that counts it (R393, R395). Where its head stands is free (log 30). -/
def execEscapeTimeout (n : Nat) (s : State) : Out :=
  match s.wire[n]? with
  | none => .next s
  | some p =>
    if p.esc || decide (s.now < p.moved + 20000) then .next s
    else
      let s := { s with wire := s.wire.set n { p with esc := true, moved := s.now } }
      .next (s.modDie (Config.escapeDie s.free).val fun x => { x with escCnt := sat16 x.escCnt })

/-- LINK_FLIT_CRC_FAIL: the port retries; with 8 retries in succession it is taken down and the
management ring reports it. -/
def execLinkFlitCrcFail (port : Nat) (s : State) : Out :=
  let x := s.ports.look (0, false) port
  if x.2 || decide (32 ≤ port) then .next s
  else
    let n := x.1 + 1
    let s := { s with ports := s.ports.put (0, false) port (if n = 8 then (0, true) else (n, false)) }
    .next (if n = 8 then s.contain (Containment.plain Config.portRecordType.toNat) else s)

/-! ### Trap records at the interrupt controller (R355) -/

/-- TRAP_RECORD_ARRIVAL: record `n` at the controller goes to its ring, after the earlier ones
for it. -/
def execTrapRecordArrival (n : Nat) (s : State) : Out :=
  match s.trapQ[n]? with
  | none => .next s
  | some r =>
    let g := s.ringOf r
    if (s.trapQ.take n).any fun x => s.ringOf x == g then .next s
    else .next (({ s with trapQ := s.trapQ.eraseIdx n }).ringDeliver g (r.bytes false))

end Sys2Proof.Machine
end

