-- ==== Sys2Proof/Machine/Sched.lean ====
section
/-! DEFINITION. Launches: queue entries and records (R286 to R289), nodes and their counters
(R290, R291), placement and start (R292 to R295, R376), and how a launch ends (R300 to R303,
R384, R398, R399). -/

namespace Sys2Proof.Machine

/-! ### The launch record (R288, R289) -/

/-- A little-endian field of bytes. -/
def leField (bs : List Byte) (o n : Nat) : Nat := leNat ((bs.drop o).take n)

/-- The counts of the used levels, lowest first: mt, core, tile, die, pkg, dom. -/
def usedCounts (count : List Nat) : List Nat := (count.take 6).filter (· != 0)

/-- Each used count divides the next lower one. -/
def divides : List Nat → Bool
  | a :: b :: rest => a % b == 0 && divides (b :: rest)
  | _ => true

/-- Core count, die groups, and tiles of a launch. -/
def coresOf (count : List Nat) : Nat :=
  let used (i : Nat) : Nat := count.getD i 0
  if used 1 ≠ 0 then used 1 else if used 2 ≠ 0 then used 2 else if used 3 ≠ 0 then used 3 else 1
def dieGroups (count : List Nat) : Nat := max 1 (count.getD 3 0)

/-- The limits of R289 on a count for each unit of the level above it, also where that level is not
used: the launch's cores are then as R289 counts them, and its tiles and cores lie on its dies. -/
def countsOk (count : List Nat) : Bool :=
  let n (i : Nat) : Nat := count.getD i 0
  let dies := dieGroups count
  decide (n 4 ≤ 1 ∧ n 5 ≤ 384 ∧ dies ≤ 4) && divides (usedCounts count) &&
  decide (n 0 ≤ 16 * coresOf count ∧ n 1 ≤ (if n 2 = 0 then 256 * dies else 4 * n 2) ∧ n 2 ≤ 64 * dies)

/-- The fields of a record that need no memory beyond it. -/
def recordOk (bs : List Byte) : Bool :=
  let f := leField bs 8 4
  leField bs 0 8 != 0 && leField bs 0 8 % 2 == 0 &&
  f % 4 + f / 16 % 4 * 16 == f && f / 16 % 4 != 3 &&
  leField bs 0x0C 4 < 4096 &&
  ((bs.drop 0x10).take 8).all (fun b => decide (b.toNat ≤ 16)) &&
  countsOk ((List.range 6).map fun i => leField bs (0x18 + 4 * i) 4) &&
  leField bs 0x30 8 % 64 == 0 && leField bs 0x38 8 % 32 == 0 &&
  leField bs 0x40 8 != 0 && leField bs 0x40 8 % 8 == 0 &&
  leField bs 0x48 4 % 1024 == 0 && leField bs 0x4C 4 % 32 == 0 &&
  leNat (bs.drop 0x50) == 0

/-- The device reads memory in a context's address space. -/
def State.readCtx (s : State) (ctx : Nat) (va : DWord) (n : Nat) : Option (List Byte) :=
  match s.readIn none (Config.contextRoot ctx) .device .read va n with
  | .ok bs => some bs
  | .error _ => none

/-- A node before its record is read: it ends at once with status 1. -/
def Node.bad (va : DWord) (ctx : BitVec 12) (level : Nat) (succ : List Nat) (cmpl : DWord)
    (child : Option Child) : Node where
  st := .ending
  counter := 0
  level := level
  since := 0
  recAddr := va
  ctx := ctx
  succ := succ
  cmpl := cmpl
  child := child
  entry := 0
  coop := false
  paired := false
  nbv := 2
  slices := 1
  allot := []
  count := []
  bindtab := 0
  actors := 0
  args := 0
  btstr := 0
  atstr := 0
  items := 0
  cores := []
  twins := []
  tickets := []
  pairIds := []
  status := 1
  sweptAt := 0
  sweep := none
  stuck := false

/-- The fields of a checked record and of its argument block. -/
def Node.withRecord (x : Node) (bs : List Byte) (items : Nat) : Node :=
  let f := leField bs 8 4
  let al := ((bs.drop 0x10).take 8).map (·.toNat)
  { x with
    status := 0
    entry := BitVec.ofNat 64 (leField bs 0 8)
    coop := f % 2 == 1
    paired := f / 2 % 2 == 1
    nbv := if f / 16 % 4 = 0 then 2 else f / 16 % 4
    slices := leField bs 0x0C 4 + 1
    allot := if al.all (· == 0) then List.replicate 8 16 else al
    count := (List.range 6).map fun i => leField bs (0x18 + 4 * i) 4
    bindtab := BitVec.ofNat 64 (leField bs 0x30 8)
    actors := BitVec.ofNat 64 (leField bs 0x38 8)
    args := BitVec.ofNat 64 (leField bs 0x40 8)
    btstr := leField bs 0x48 4
    atstr := leField bs 0x4C 4
    items := items }

/-- Reads and checks the record and the argument block. -/
def State.readRecord (s : State) (x : Node) : Option Node :=
  if x.recAddr.toNat % 64 ≠ 0 then none
  else
    match s.readCtx x.ctx.toNat x.recAddr 32 with
    | none => none
    | some bs =>
      if !recordOk bs then none
      else
        match s.readCtx x.ctx.toNat (BitVec.ofNat 64 (leField bs 0x40 8)) 2 with
        | none => none
        | some ar =>
          if leField ar 4 4 ≠ 0 ∨ leField ar 0 4 = 0xFFFFFFFF then none
          else some (x.withRecord bs (leField ar 0 4))

/-! ### Shape of a placement (R293) -/

def ceilDiv (a b : Nat) : Nat := (a + b - 1) / b

def Node.total (x : Node) : Nat := coresOf x.count
def Node.groups (x : Node) : Nat := dieGroups x.count
/-- Cores of one die group, and its tiles. -/
def Node.groupCores (x : Node) : Nat := x.total / x.groups
def Node.groupTiles (x : Node) : Nat :=
  if x.count.getD 2 0 ≠ 0 then x.count.getD 2 0 / x.groups else ceilDiv x.groupCores 4
/-- Cores that tile `j` of a group takes. -/
def Node.perTile (x : Node) (j : Nat) : Nat :=
  if x.count.getD 2 0 ≠ 0 then
    (if x.count.getD 1 0 ≠ 0 then x.groupCores / x.groupTiles else 1)
  else if j + 1 = x.groupTiles then x.groupCores - 4 * (x.groupTiles - 1)
  else 4
/-- The dies of the groups in order: the node's die first. -/
def Node.dies (x : Node) (d : Nat) : List Nat :=
  (d :: (List.range 4).filter (· != d)).take x.groups

/-- Every core of the launch has been placed, twins included. -/
def Node.placed (x : Node) : Bool :=
  x.cores.length == x.total && (!x.paired || x.twins.length == x.total)

/-! ### Completion (R291, R303) -/

/-- A place behind a fence, which answers a command processor with REJECT (R384). -/
def State.fencedLoc (s : State) (l : Loc) : Bool := (l.beside.map s.fenced).getD false

/-- The completion of a node: its status word and counter, or a child's record, for both twins of a
pair (R377), or counter. -/
def State.postCmpl (s : State) (x : Node) : State :=
  let count (s : State) (l : Loc) (inc : Nat) : State :=
    if s.fencedLoc l then s else s.counterAdd l inc (x.status != 0)
  match x.child with
  | some q =>
    if q.cmpl then
      match s.enginePlace q.core (fieldOf q.w3 48 3) .write (fieldOf q.w3 0 48) 8 with
      | .ok l => count s l (fieldOf q.w3 51 13)
      | .error _ => s
    else
      (s.withTwins [q.core]).foldl
        (fun s c => s.postRecord c ⟨0, 0, q.seq, x.status, 0, q.w3.setWidth 16⟩) s
  | none =>
    if x.cmpl = 0 then s
    else
      let va := signVa x.cmpl
      let place (a : DWord) : Option Loc :=
        match s.xlocIn none (Config.contextRoot x.ctx.toNat) .device .write a with
        | .ok (.device _) | .ok (.pcie _) | .error _ => none
        | .ok l => some l
      let s : State := match place (va + 8) with
        | some l => if s.fencedLoc l then s else s.writeW l (BitVec.ofNat 32 x.status)
        | none => s
      match place va with
      | some l => count s l (fieldOf x.cmpl 51 13)
      | none => s

/-- A core leaves its launch: its actors are disabled, and a pair is no more. -/
def Core.leave (k : Core) : Core :=
  { k with
    launch := none, origin := none, started := false, ended := false, pair := none, claims := [], answers := []
    actors := k.actors.map fun a => (a.1, { a.2 with en := false }) }

/-- The identifiers of a launch's pairs go back to the die's table (R376). -/
def State.freePairs (s : State) (x : Node) : State :=
  x.pairIds.foldl (fun s g => s.dropGroup (g.1 * 4096 + g.2)) s

/-- Node `n` completes with its status: its completion is posted, its successors are notified in
order, its cores and its slot become free. Its barriers, with the phase numbers that it leaves (R345),
are discarded at the beginning of the next step (R223). The regions of its cores close, which orders every
access of the node before those of its successors (R291). -/
def State.complete (s : State) (n : Nat) (x : Node) : State :=
  let d := n / 4096
  let s := s.postCmpl x
  let s := x.succ.foldl (fun s m => s.sendFrom (epCp d) (epCp (m / 4096)) (.notify m)) s
  let s := s.freePairs x
  let s := (x.cores ++ x.twins).foldl (fun s c =>
    if (s.core c).launch = some n then (s.closeCore c).modCore c Core.leave else s) s
  s.tilesFreed.modDie d fun y => { y with nodes := y.nodes.del (n % 4096), ready := y.ready.filter (·.1 != n % 4096) }

/-! ### Admission (R286, R287, R290) -/

/-- Tiles of a die that TILEMAP enables. -/
def State.tilesOn (s : State) (d : Nat) : Nat := ((dieTiles d).filter fun t => (s.tile t).en).length

/-- A cooperative launch that the package could never place (R294, R376). -/
def State.tooLarge (s : State) (d : Nat) (x : Node) : Bool :=
  let n := x.groupTiles * (if x.paired then 2 else 1)
  x.coop && (x.dies d).any fun e => decide (s.tilesOn e < n)

/-- A node becomes ready and enters the queue of its level. -/
def State.toReady (s : State) (n : Nat) : State :=
  let s := s.modNode n fun x => { x with st := .ready, since := s.now }
  match s.node? n with
  | some x => s.modDie (n / 4096) fun y => { y with ready := y.ready ++ [(n % 4096, x.level)] }
  | none => s

/-- A node enters its slot: it waits, is ready, or completes at once. -/
def State.enterNode (s : State) (n : Nat) (x : Node) (npred : Nat) : State :=
  let d := n / 4096
  match s.readRecord x with
  | none => s.complete n x
  | some y =>
    if s.tooLarge d y then s.complete n { y with status := 2 }
    else
      let cr := (s.die d).credits.look 0 (n % 4096)
      let y := { y with st := .waiting, counter := (npred : Int) - cr }
      let s := (s.setNode n y).modDie d fun z => { z with credits := z.credits.del (n % 4096) }
      if y.counter ≤ 0 then s.toReady n else s

/-- Dispatch runs: not frozen, not failed, and the boot has completed. -/
def State.dispatches (s : State) (d : Nat) : Bool :=
  s.bootStep == 4 && !(s.die d).frozen && !(s.die d).failed

/-- LQDB: the doorbell, ignored once the processor has failed (R311, R382). -/
def execLqdb (d : Nat) (v : Word) (s : State) : Out := .next (s.pageWrite d 0 4 (v.setWidth 64))

/-- The 64 bytes of a launch queue entry. -/
def State.queueEntry (s : State) (d i : Nat) : List Byte :=
  match physLoc (Config.launchQueueBase d + 64 * i) 0 with
  | some l => s.readLoc l 64
  | none => []

/-- The entry is well-formed and names a free slot of the die (R287). -/
def State.entryOk (s : State) (d : Nat) (bs : List Byte) : Bool :=
  let ctl := leField bs 8 4
  let n := leField bs 0x0E 2
  let k := ctl % 16
  let succ := (List.range 8).map fun i => leField bs (0x10 + 2 * i) 2
  let cm := leField bs 0x20 8
  bs.length == 64 && leField bs 0 8 % 64 == 0 &&
  ctl / 2 ^ 28 == 0 && ctl / 16 % 1024 == 0 && decide (k ≤ 8) &&
  n / 4096 == d && ((s.die d).nodes.get? (n % 4096)).isNone &&
  (succ.take k).all (fun m => decide (m < 16384)) && (succ.drop k).all (· == 0) &&
  (cm == 0 || ((cm / 2 ^ 48 % 8 == 4 || cm / 2 ^ 48 % 8 == 5) && cm % 8 == 0)) &&
  leNat (bs.drop 0x28) == 0

/-- The node of an entry. -/
def entryNode (bs : List Byte) : Node :=
  let ctl := leField bs 8 4
  .bad (BitVec.ofNat 64 (leField bs 0 8)) (BitVec.ofNat 12 (ctl / 65536)) (ctl / 2 ^ 14 % 4)
    (((List.range 8).map fun i => leField bs (0x10 + 2 * i) 2).take (min 8 (ctl % 16)) |>.map (· % 16384))
    (BitVec.ofNat 64 (leField bs 0x20 8)) none

/-- An invalid entry completes at once; it leaves the slots as they are. -/
def State.badEntry (s : State) (d : Nat) (x : Node) : State :=
  let s := s.postCmpl x
  x.succ.foldl (fun s m => s.sendFrom (epCp d) (epCp (m / 4096)) (.notify m)) s

/-- LAUNCH_QUEUE_ENTRY_READ: the next entry in ring order. -/
def execLaunchQueueEntryRead (d : Nat) (s : State) : Out :=
  let n := Config.launchQueueSize d
  let x := s.die d
  if !s.dispatches d ∨ x.lqHead = x.lqTail.toNat % n then .next s
  else
    let bs := s.queueEntry d x.lqHead
    let s := s.modDie d fun x => { x with lqHead := (x.lqHead + 1) % n }
    .next (if s.entryOk d bs then s.enterNode (leField bs 0x0E 2) (entryNode bs) (leField bs 0x0C 2)
      else s.badEntry d (entryNode bs))

/-- The lowest free slot of a die. -/
def Die.freeSlot (x : Die) : Option Nat := (List.range 4096).find? fun i => (x.nodes.get? i).isNone

/-- CHILD_LAUNCH_ADMIT: the oldest held request takes a slot. -/
def execChildLaunchAdmit (d : Nat) (s : State) : Out :=
  if !s.dispatches d then .next s
  else
    match (s.die d).childQ, (s.die d).freeSlot with
    | (q, va, ctx, level) :: rest, some i =>
      let s := s.modDie d fun x => { x with childQ := rest }
      .next (s.enterNode (d * 4096 + i) (.bad va ctx level [] 0 (some q)) 0)
    | _, _ => .next s

/-- NODE_NOTIFICATION: the oldest notification that the die holds. -/
def execNodeNotification (d : Nat) (s : State) : Out :=
  if !s.dispatches d then .next s
  else
    match (s.die d).notifyQ with
    | [] => .next s
    | n :: rest =>
      let s := s.modDie d fun x => { x with notifyQ := rest }
      match s.node? n with
      | none =>
        .next (s.modDie d fun x =>
          { x with credits := x.credits.put 0 (n % 4096) (x.credits.look 0 (n % 4096) + 1) })
      | some x =>
        let s := s.setNode n { x with counter := x.counter - 1 }
        .next (if x.st = .waiting ∧ x.counter = 1 then s.toReady n else s)

/-- READY_PRIORITY_AGING: 256 µs at one level without placing (R292). -/
def execReadyPriorityAging (n : Nat) (s : State) : Out :=
  match s.node? n with
  | some x =>
    if s.dispatches (n / 4096) && x.st == .ready && decide (x.level < 3) &&
        decide (x.since + 256000 ≤ s.now) then
      let s := s.setNode n { x with level := x.level + 1, since := s.now }
      .next (s.modDie (n / 4096) fun y =>
        { y with ready := (y.ready.filter (·.1 != n % 4096)) ++ [(n % 4096, x.level + 1)] })
    else .next s
  | none => .next s

/-! ### Placement (R292 to R295, R376) -/

/-- The head of the highest level that is not empty. -/
def Die.headReady (x : Die) : Option Nat :=
  (([3, 2, 1, 0]).findSome? fun l => (x.ready.find? (·.2 == l)).map (·.1))

/-- A tile is free: none of its cores runs a launch, or belongs to a context that is moving or to its
forwarding entry (R357, R360), none waits for the reset of a kill (R401), and no repair waits for its
paddock (R387). -/
def State.tileFree (s : State) (t : Nat) : Bool :=
  (s.tile t).en && (tileCores t).all fun c =>
    (s.core c).launch.isNone && !(s.core c).resetDue && !s.inMigration c && !s.repairing c

/-- The smallest HEAD of a tile's cores. -/
def State.tileHead (s : State) (t : Nat) : Nat :=
  ((tileCores t).map fun c => (s.core c).head).foldl min 1023

def tileColour (t : Nat) : Nat := (t % 64 / 8 + t % 8) % 2

/-- Tiles by descending headroom, ties to the lower number. -/
def State.byHeadroom (s : State) (ts : List Nat) : List Nat :=
  sortBy (fun a b =>
    decide (s.tileHead b < s.tileHead a) || (s.tileHead a == s.tileHead b && decide (a ≤ b))) ts

/-- The order in which free tiles of a die are taken for `n`: one colour when it holds enough. -/
def State.tileOrder (s : State) (d n : Nat) : List Nat :=
  let free := (dieTiles d).filter s.tileFree
  let col (k : Nat) : List Nat := s.byHeadroom (free.filter fun t => tileColour t == k)
  let sum (ts : List Nat) : Nat := ((ts.take n).map s.tileHead).sum
  let full (ts : List Nat) : Bool := decide (n ≤ ts.length)
  let a := col 0
  let b := col 1
  if full a && (!full b || decide (sum b ≤ sum a)) then a
  else if full b then b
  else s.byHeadroom free

/-- A core is taken for launch index `i` of a node. -/
def Core.take (k : Core) (n i : Nat) : Core :=
  { k with
    launch := some n, origin := none, index := i, started := false, ended := false, firedSince := false
    sent := 0, accepted := 0 }

/-- A tile's cores are taken as primaries. -/
def State.takeTile (s : State) (n t count : Nat) : State :=
  (List.range count).foldl (fun s j =>
    let c := coreAt t j
    match s.node? n with
    | some x =>
      ((s.wake c).modCore c (·.take n x.cores.length)).setNode n { x with cores := x.cores ++ [c] }
    | none => s) s

/-- A pair identifier that no pair of the package holds, from the die's table. -/
def State.takePairId (s : State) (d : Nat) : Option (Nat × State) :=
  let held := s.cores.filterMap fun e => e.2.pair.map (·.id)
  match ((List.range 4095).map (· + 1)).find? fun g =>
      ((s.die d).group g).drain == 0 && !held.contains g with
  | none => none
  | some g =>
    some (g, s.modDie d fun x => { x with groups := x.groups.upd g { x.group g with drain := 1 } })

/-- Core `b` becomes the twin of the launch's primary of its index. -/
def State.takeTwin (s : State) (n b : Nat) : State :=
  match s.node? n with
  | none => s
  | some x =>
    match x.cores[x.twins.length]?, s.takePairId (n / 4096) with
    | some a, some (g, s) =>
      let s := s.modCore a fun k => { k with pair := some ⟨g, false, b, 0⟩, claims := [], answers := [] }
      let s := (s.wake b).modCore b fun k =>
        { k.take n x.twins.length with pair := some ⟨g, true, a, 0⟩, claims := [], answers := [] }
      s.setNode n { x with twins := x.twins ++ [b], pairIds := x.pairIds ++ [(n / 4096, g)] }
    | _, _ => s

def State.takeTwinTile (s : State) (n t count : Nat) : State :=
  (List.range count).foldl (fun s j => s.takeTwin n (coreAt t j)) s

/-- Tiles that share an edge or a corner, or are the same. -/
def tilesTouch (a b : Nat) : Bool :=
  a / 64 == b / 64 &&
  decide (a % 64 / 8 ≤ b % 64 / 8 + 1 ∧ b % 64 / 8 ≤ a % 64 / 8 + 1) &&
  decide (a % 8 ≤ b % 8 + 1 ∧ b % 8 ≤ a % 8 + 1)

/-- Tiles already taken on a die, in order of taking. -/
def tilesTaken (cores : List Nat) (d : Nat) : List Nat :=
  ((cores.filter fun c => coreDie c == d).map tileOf).eraseDups

/-- The node that a die's distributor works on: one it is placing, else the head that is ready. -/
def State.placingNode (s : State) (d : Nat) : Option Nat :=
  match (s.die d).nodes.find? fun e => e.2.st == .placing && !e.2.placed with
  | some e => some e.1
  | none => (s.die d).headReady

/-- A node still takes tiles of a die, for cores or for twins. -/
def Node.wantsTiles (x : Node) (e : Nat) : Bool :=
  decide ((tilesTaken x.cores e).length < x.groupTiles) ||
  (x.paired && decide ((tilesTaken x.twins e).length < x.groupTiles))

/-- The tiles of a die are reserved for the node that its distributor works on, against one of another die
(R292). DESIGN CHOICE (log 27): of two that each need tiles of a die, the one that has waited longer at its
level is served first, and at one time that of the lower die. -/
def State.reserved (s : State) (n e : Nat) : Bool :=
  match s.placingNode e, s.node? n with
  | some i, some x =>
    let m := e * 4096 + i
    match s.node? m with
    | some y =>
      m != n && y.wantsTiles e &&
        !(decide (x.since < y.since) || (x.since == y.since && decide (n / 4096 < e)))
    | none => false
  | _, _ => false

/-- Takes tiles of one die for a group's primaries, as far as tiles are free for the node. -/
def State.placeGroup (s : State) (n d : Nat) : State :=
  match s.node? n with
  | none => s
  | some x =>
    let j := (tilesTaken x.cores d).length
    let m := if s.reserved n d then 0 else x.groupTiles - j
    ((s.tileOrder d m).take m).zipIdx.foldl (fun s q => s.takeTile n q.1 (x.perTile (j + q.2))) s

/-- The order in which tiles are tried for `m` tiles of a node's twins: that of R293, and then the other free
tiles, since the fallow pattern is only preferred. -/
def State.twinOrder (s : State) (n d m : Nat) : List Nat :=
  if s.reserved n d then []
  else s.tileOrder d m ++ s.byHeadroom ((dieTiles d).filter s.tileFree)

/-- Takes tiles of one die, in an order, for the twins of a group's primaries (R376). -/
def State.placeTwins (s : State) (n d : Nat) (order : List Nat) : Nat → State
  | 0 => s
  | fuel + 1 =>
    match s.node? n with
    | none => s
    | some x =>
      let j := (tilesTaken x.twins d).length
      -- twins follow the order of their primaries over all dies
      let next := (x.cores[x.twins.length]?).map tileOf
      match next with
      | some p =>
        if p / 64 = d then
          match order.find? fun t => s.tileFree t && !tilesTouch t p with
          | some t => State.placeTwins (s.takeTwinTile n t (x.perTile j)) n d order fuel
          | none => s
        else s
      | none => s

/-- The ranges of the dies' ticket counters (R295). -/
def splitItems (items total per : Nat) (dies : List Nat) : Cells (Nat × Nat) :=
  let ds := sortNat dies
  let base := items * per / total
  let extra := items - base * ds.length
  ((ds.zipIdx).foldl (fun (r : Cells (Nat × Nat) × Nat) q =>
    let n := base + if q.2 < extra then 1 else 0
    (r.1.upd q.1 (r.2, r.2 + n), r.2 + n)) ([], 0)).1

/-- Places what can be placed of a node now. -/
def State.placeAll (s : State) (d n : Nat) (x : Node) : State :=
  let s := (x.dies d).foldl (fun s e => s.placeGroup n e) s
  match s.node? n with
  | some y =>
    if y.paired ∧ y.cores.length = y.total then
      -- each pass may finish one die's run of primaries
      (List.range y.groups).foldl (fun s _ =>
        (x.dies d).foldl (fun s e =>
          let m := y.groupTiles - (((s.node? n).map fun z => (tilesTaken z.twins e).length).getD 0)
          s.placeTwins n e (s.twinOrder n e m) 64) s) s
    else s
  | none => s

/-- DISTRIBUTOR_PLACE: tiles for the node at the head; a cooperative one takes all or none. -/
def execDistributorPlace (d : Nat) (s : State) : Out :=
  if !s.dispatches d then .next s
  else
    match s.placingNode d with
    | none => .next s
    | some i =>
      let n := d * 4096 + i
      match s.node? n with
      | none => .next s
      | some x =>
        let y : Node :=
          if x.st = .ready then
            { x with
              st := .placing, sweptAt := s.now, sweep := none, stuck := false
              tickets := splitItems x.items x.total x.groupCores (x.dies d) }
          else x
        let t := ((s.setNode n y).modDie d fun z => { z with ready := z.ready.filter (·.1 != i) }).placeAll d n y
        match t.node? n with
        | some z => .next (if (x.coop && !z.placed) || z.cores.isEmpty then s else t)
        | none => .next s

/-! ### Start (R294) -/

/-- Loads the actors of an image's load mask; `none` where it cannot be read or is rejected. -/
def State.loadActors (s : State) (c : Nat) (va : DWord) (en load : Nat) : List Nat → Option (Cells Actor)
  | [] => some []
  | i :: is =>
    if load / 2 ^ i % 2 = 0 then State.loadActors s c va en load is
    else
      match s.readVirt c .device .read (va + BitVec.ofNat 64 (0x20 + 160 * i)) 40 with
      | .error _ => none
      | .ok bs =>
        if actorOk bs then
          (State.loadActors s c va en load is).map fun t =>
            (i, Actor.ofBytes bs (decide (en / 2 ^ i % 2 = 1))) :: t
        else none

def State.actorImage (s : State) (c : Nat) (va : DWord) : Option (Cells Actor) :=
  if va = 0 then some []
  else
    match s.readVirt c .device .read va 2 with
    | .error _ => none
    | .ok bs => s.loadActors c va (leField bs 0 4) (leField bs 4 4) (List.range 32)

def State.bindImage (s : State) (c : Nat) (va : DWord) : Option (Cells Word) :=
  if va = 0 then some []
  else
    match s.readVirt c .device .read va 256 with
    | .error _ => none
    | .ok bs => some (bindCells bs)

/-- The address of a per-core image; 0 stays 0. -/
def imageVa (base : DWord) (i str : Nat) : DWord := if base = 0 then 0 else base + BitVec.ofNat 64 (i * str)

/-- The control thread enters the launch in user mode. -/
def Hart.enterLaunch (h : Hart) (x : Node) (i : Nat) : Hart :=
  { (((h.setReg 10 (BitVec.ofNat 64 i)).setReg 11 x.args).setReg 12 (BitVec.ofNat 64 x.items)) with
    pc := x.entry, priv := .user, wfi := false, stall := none, sync := none, resv := none
    partEnd := false }

/-- The moves that cores of a node have made. -/
def State.movesOf (s : State) (x : Node) : List (Nat × Nat) :=
  (x.cores ++ x.twins).filterMap fun c => (s.core c).origin.map (·, c)

/-- The supervisor loads a core and enters the launch; `none` where a table fails. A binding that names where
a core of the launch was names where it runs now (R360, R406). -/
def State.startCore (s : State) (x : Node) (c : Nat) : Option State :=
  let i := (s.core c).index
  let ps := s.movesOf x
  let s := s.modHart c fun h => { h with satp := Config.contextRoot x.ctx.toNat }
  match s.bindImage c (imageVa x.bindtab i x.btstr), s.actorImage c (imageVa x.actors i x.atstr) with
  | some bt, some ac =>
    some (s.modCore c fun k =>
      { k with
        ctx := x.ctx, inc := BitVec.ofNat 8 (s.incEntry x.ctx.toNat).1, nbv := BitVec.ofNat 2 x.nbv
        root := Config.contextRoot x.ctx.toNat
        bindtab := bt.map (fun e => (e.1, movedBind ps e.2)), actors := ac.foldl (fun t e => t.upd e.1 e.2) k.actors, lastFired := 31
        stgallot := (x.allot.zipIdx).foldl (fun t q => t.put 16 q.2 q.1) []
        mts := k.mts.map fun e => (e.1, { e.2 with bph := [] })
        started := true, ct := k.ct.enterLaunch x i })
  | _, _ => none

/-- Stops the placed cores of a node, which then ends with a status. -/
def State.stopNode (s : State) (n status : Nat) : State :=
  match s.node? n with
  | none => s
  | some x =>
    (x.cores ++ x.twins).foldl (fun s c => s.stopCore c)
      (s.setNode n { x with st := .ending, status := status })

/-- Every core of a node has started, or has ended its part. -/
def State.allStarted (s : State) (x : Node) : Bool := (x.cores ++ x.twins).all fun c => (s.core c).started
def State.allEnded (s : State) (x : Node) : Bool := (x.cores ++ x.twins).all fun c => (s.core c).ended

/-- Moves a node on: placing to running with its last start, running to ending with its last
end. -/
def State.advanceNode (s : State) (n : Nat) : State :=
  let s := s.modNode n fun x =>
    if x.st = .placing ∧ x.placed ∧ s.allStarted x then { x with st := .running } else x
  s.modNode n fun x => if x.st = .running ∧ s.allEnded x then { x with st := .ending } else x

/-- The core, with its twin where it has one. -/
def State.starters (s : State) (x : Node) (c : Nat) : List Nat :=
  match (s.core c).pair with
  | some q => [c, q.other]
  | none => if x.paired then [] else [c]

/-- LAUNCH_CORE_START: a placed core starts, a primary together with its twin. -/
def execLaunchCoreStart (c : Nat) (s : State) : Out :=
  let k := s.core c
  match k.launch with
  | none => .next s
  | some n =>
    match s.node? n with
    | none => .next s
    | some x =>
      let cs := s.starters x c
      if k.started || x.st != .placing || !x.cores.contains c || cs.isEmpty ||
          !s.dispatches (n / 4096) || !cs.all s.coreRuns then .next s
      else
        match cs.foldlM (fun s c => State.startCore s x c) s with
        | none => .next (s.stopNode n 1)
        | some t => .next (t.advanceNode n)

/-! ### End (R300 to R303) -/

/-- END_OF_PART: the control thread has executed an ECALL from user mode with a7 = 0. While the node's
dispatch is frozen, its command processor takes no notice yet (R382). -/
def execEndOfPart (c : Nat) (s : State) : Out :=
  let k := s.core c
  match k.launch with
  | some n =>
    if k.started && !k.ended && k.ct.partEnd && s.coreRuns c && s.dispatches (n / 4096) then
      let s := s.modCore c fun k => { k with ended := true, ct := { k.ct.park with partEnd := false } }
      .next (s.advanceNode n)
    else .next s
  | none => .next s

/-- Every message of the core has been acknowledged, at the endpoints of its context too. -/
def State.acked (s : State) (c : Nat) : Bool :=
  !(s.flows.any fun f => f.copies != [] &&
    (f.src == c || s.forwards.any fun q => q.dst == c && f.src == q.src))

/-- A core is quiet. -/
def State.quiet (s : State) (c : Nat) : Bool :=
  (s.core c).mtsIdle && (s.core c).enginesIdle && s.acked c

/-- A core is passive. -/
def Core.passive (k : Core) : Bool :=
  k.actors.any (fun a => a.2.en) || k.tq.cfg || k.wr.st != .unconfigured

/-- NODE_COMPLETE: the main path (R301). -/
def execNodeComplete (n : Nat) (s : State) : Out :=
  match s.node? n with
  | some x =>
    let cs := x.cores ++ x.twins
    if s.dispatches (n / 4096) && x.st == .ending && x.status == 0 &&
        cs.all (fun c => !(s.core c).passive && s.quiet c) then .next (s.complete n x)
    else .next s
  | none => .next s

/-! ### Sweeps (R302, R398, R399) -/

/-- A micro-thread that can do nothing by itself. -/
def Mt.stuck (t : Mt) : Bool :=
  t.st == .idle ||
  (t.st == .waiting && t.bound.isNone &&
    (match t.blocked with | some (.sleep _) => false | _ => true))

/-- A stall that waits on micro-threads, engines, a record or a counter: those of R254, of BINDLD, and
of writes of CTXID.CTX and NBV. -/
def stuckStall : Instr → Bool
  | .soww .. | .cmdq .. | .ctinbx .. | .ctcwait .. | .bindld .. | .reclaim .. | .ctxidCtxWrite ..
  | .nbvWrite .. | .registerWrite .. | .controlThreadRiscvInstruction (.full (.csr ..) _) => true
  | _ => false

/-- A core that runs its launch is stuck (R398). -/
def Core.stuckCore (k : Core) : Bool :=
  k.started &&
  (List.range 16).all (fun m => (k.mt m).stuck) && (k.ct.wfi || k.ct.stall.any stuckStall) &&
  k.enginesIdle && k.firings.isEmpty && !k.firedSince

/-- The report of R399: to the slots of the control thread that asked for the child, or to the
host ring of the context. -/
def State.reportStuck (s : State) (n : Nat) (x : Node) : State :=
  let r (c : Nat) : TrapRec :=
    { s.newRecord c 5 0 0x31 0 false with ctx := x.ctx, inc := BitVec.ofNat 8 (s.incEntry x.ctx.toNat).1 }
  match x.child with
  | some q => s.lateRecord q.core (r q.core)
  | none => s.sendFrom (epCp (n / 4096)) epHost (.trapRecord (r ((x.cores.headD 0))))

/-- The test of a node that is not yet wholly placed. -/
def State.sweepStuck (s : State) (n : Nat) (x : Node) : State :=
  let found : Bool := !x.cores.isEmpty && (x.cores ++ x.twins).all fun c => (s.core c).stuckCore
  if found && x.stuck then (s.stopNode n 3).reportStuck n x
  else s.modNode n fun y => { y with stuck := found }

/-- The test of a passive launch whose cores have all ended. -/
def State.sweepEnd (s : State) (n : Nat) (x : Node) : State :=
  let cs := x.cores ++ x.twins
  let sent := (cs.map fun c => (s.core c).sent).sum
  let acc := (cs.map fun c => (s.core c).accepted).sum
  let clean : Bool :=
    cs.all (fun c => s.quiet c && (s.core c).firings.isEmpty && !(s.core c).firedSince) && sent == acc
  if clean && x.sweep == some sent then s.complete n x
  else s.modNode n fun y => { y with sweep := if clean then some sent else none }

/-- TERMINATION_SWEEP: at least 2 µs after the node's last sweep. -/
def execTerminationSweep (n : Nat) (s : State) : Out :=
  match s.node? n with
  | none => .next s
  | some x =>
    if !s.dispatches (n / 4096) || decide (s.now < x.sweptAt + 2000) then .next s
    else
      let s1 := s.setNode n { x with sweptAt := s.now }
      let s2 : State :=
        if x.st = .placing && !x.coop && !x.placed then s1.sweepStuck n { x with sweptAt := s.now }
        else if x.st = .ending && x.status == 0 &&
            (x.cores ++ x.twins).any (fun c => (s.core c).passive) then
          s1.sweepEnd n { x with sweptAt := s.now }
        else s1
      .next ((x.cores ++ x.twins).foldl (fun s c =>
        s.modCore c fun k => { k with firedSince := false }) s2)

/-- The report record of R384 for a core that a kill stopped from outside. -/
def State.killRecord (s : State) (c : Nat) : State :=
  s.lateRecord c (s.newRecord c 1 0 0x32 0 false)

/-- KILLED_LAUNCH_DRAINED: the stopped cores of an ended launch have drained. -/
def execKilledLaunchDrained (n : Nat) (s : State) : Out :=
  match s.node? n with
  | some x =>
    let cs := (x.cores ++ x.twins).filter fun c => (s.core c).launch == some n
    if x.st == .ending && x.status != 0 && (!(s.die (n / 4096)).frozen || (s.die (n / 4096)).failed) &&
        cs.all (fun c => (s.core c).mtsIdle && s.drained c) then
      let s := if x.status = 4 then cs.foldl (fun s c => s.killRecord c) s else s
      .next (s.complete n x)
    else .next s
  | none => .next s

end Sys2Proof.Machine
end

