-- ==== Sys2Proof/Machine/Misc.lean ====
section
/-! DEFINITION. Package reset and attestation (R319, R320), the host die's accesses (R316, R317),
unassigned opcodes (R119) and the trap interrupt (R350). -/

namespace Sys2Proof.Machine

/-! ### Boot and attestation -/

/-- Why an image stops the boot: 1 its signature, 2 its version. -/
def imageFault (i : Nat) : Nat :=
  if !Config.imageSigned i then 1 else if !Config.imageCurrent i then 2 else 0

/-- Boot steps that complete in order. -/
def bootSteps (bad : Nat → Bool) : Nat :=
  if bad 1 then 0 else if bad 2 then 1 else if bad 3 then 2 else if bad 4 then 3 else 4

/-- A die before the configuration image has filled its fields: no undervolting (R10, R319). -/
def Die.unfilled (d : Nat) : Die :=
  { Die.init with uv := (List.range 4).map fun q => (q, { Undervolt.start d q with vmax := 0 }) }

/-- The package before step 4: TILEMAP enables no tile. DESIGN CHOICE (log 1): PCOL then reads 0. -/
def State.unfilled (s : State) : State :=
  { s with
    tiles := (List.range 256).map fun t => (t, { TileSt.init with en := false, pcol := some 0 })
    dies := (List.range 4).map fun d => (d, Die.unfilled d) }

/-- The state after a boot that completed `n` of its four steps. DRAM and what lies outside the
package keep their contents; a boot that stops is reported through the management port, by its step and
the cause (log 3). -/
def State.booted (s : State) (n cause : Nat) : State :=
  let r : State := if n = 4 then State.reset else State.reset.unfilled
  { r with
    turn := s.turn, free := s.free, dram := s.dram, remote := s.remote, bootStep := n
    reports := if n = 4 then s.reports else s.reports ++ [[BitVec.ofNat 8 (n + 1), BitVec.ofNat 8 cause]] }

/-- PACKAGE_RESET. -/
def execPackageReset (s : State) : Out :=
  let n := bootSteps fun i => imageFault i != 0
  .next (s.booted n (imageFault (n + 1)))

/-- What the report says: digests, nonce, TILEMAP of every die and serial number. -/
def State.attested (s : State) (nonce : List Byte) : List Byte :=
  (List.range 4).flatMap (fun i => leBytes 32 (Config.imageDigest (i + 1)).toNat) ++ nonce ++
  (List.range 256).map s.tilemap ++ leBytes 8 Config.serial.toNat

/-- The report with its signature, of 7,856 bytes as those of the images. -/
def State.attestation (s : State) (nonce : List Byte) : List Byte :=
  let r := s.attested nonce
  r ++ (List.range 7856).map (Config.signatureByte r)

/-- ATTESTATION_REQUEST: the report leaves through the management port. -/
def execAttestationRequest (nonce : List Byte) (s : State) : Out :=
  .next { s with reports := s.reports ++ [s.attestation nonce] }

/-! ### The host die -/

/-- The places of an inbound request's bytes, translated through the IOMMU's Sv48 table at
`root`; only memory answers. -/
def State.dmaPlaces (s : State) (root : Nat) (a : Acc) (va : Nat) : Nat → Option (List Loc)
  | 0 => some []
  | n + 1 =>
    let v := va % 2 ^ 48
    match (if canonical (BitVec.ofNat 64 va) then s.walk v false 4 root else .error .page) with
    | .error _ => none
    | .ok f =>
      match (if f.allows .mt a && !s.retiredPa (f.pa v) f.ilv then physLoc (f.pa v) f.ilv else none) with
      | some (.dram k) => (State.dmaPlaces s root a (va + 1) n).map fun ls => .dram k :: ls
      | some (.remote p) => (State.dmaPlaces s root a (va + 1) n).map fun ls => .remote p :: ls
      | _ => none

/-- Every byte of a site is among the places. -/
def siteWithin (e : ErrorSite) (ls : List Loc) : Bool :=
  match e with
  | .dramLine k => (List.range 64).all fun i => ls.contains (.dram (k + i))
  | _ => false

/-- The bytes of an inbound write at their places; whole lines among them lose their poison. -/
def State.dmaWrite (s : State) (ls : List Loc) (bs : List Byte) : State :=
  let t := (ls.zip bs).foldl (fun s p => s.writeLoc p.1 [p.2]) s
  { t with poison := t.poison.filter fun e => !siteWithin e ls }

/-- The host die runs: step 1 of the boot has started its firmware (R319). -/
def State.hostRuns (s : State) : Bool := decide (1 ≤ s.bootStep)

/-- INBOUND_DMA: a write lands where the tables allow it, and not at all where they do not; a
read changes nothing. -/
def execInboundDma (va root : Nat) (data : Option (List Byte)) (s : State) : Out :=
  match (if s.hostRuns then data else none) with
  | none => .next s
  | some bs =>
    match s.dmaPlaces root .write va bs.length with
    | none => .next s
    | some ls => .next (s.dmaWrite ls bs)

/-- An application core's load, store or atomic at physical address `pa`. Poison raises the
core's own exception and changes nothing; so does an address that reaches nothing (R385). -/
def execApplicationCoreAccess (pa : Nat) (op : HostOp) (s : State) : Out :=
  match (if s.hostRuns then physLoc pa 0 else none) with
  | none => .next s
  | some (.device a) =>
    match op with
    | .store bs => .next (s.devWrite a bs.length (BitVec.ofNat 64 (leNat bs)))
    | _ => .next s
  | some l =>
    match op with
    | .load _ => .next s
    | .store bs => .next (s.writeLoc l bs)
    | .amoAdd v => if s.poisoned l then .next s else .next (s.writeW l (s.readW l + v))

/-! ### Unassigned opcodes (R119) -/

/-- A trap of the instruction that the current micro-thread issues; in a gang the leader raises
it. -/
def State.issueTrap (s : State) (e : Exn) (word : IWord) : State :=
  let c := s.curCore
  let m := s.curMt
  let memb : Option Nat := if 1 < (s.membersOf c m).length then some c else none
  s.takeTrap c m memb (s.mt c m).pc word e

/-- UNASSIGNED_OPCODE: illegal instruction, whatever the guard. -/
def execUnassignedOpcode (w : IWord) (s : State) : Out := .next (s.issueTrap (.mk' 1 0) w)

/-! ### Interrupts (R350) -/

/-- The control thread takes an interrupt: a stalled instruction is begun again later. The slots that it has
to see have been written in the core's own copies too (`State.writeVirt`). -/
def State.takeIrq (s : State) (c i : Nat) : State :=
  s.modHart c fun h => { h.enter true i 0 with wfi := false, stall := none }

/-- TRAP_INTERRUPT_TAKEN: interrupt 16 or 17 is pending, enabled and not outranked. -/
def execTrapInterruptTaken (c : Nat) (s : State) : Out :=
  if s.coreRuns c && !(s.hart c).writing && (s.hart c).asked.isNone then
    match (s.core c).pendingIrq with
    | some i => if i = 16 ∨ i = 17 then .next (s.takeIrq c i) else .next s
    | none => .next s
  else .next s

end Sys2Proof.Machine
end

