-- ==== Sys2Proof/Machine/Fetch.lean ====
section
/-! DEFINITION. What stands before an instruction: which agent may step, interrupts and WFI of a
control thread (R33, R350), comparators (R363), seed blocks and fetched code of a micro-thread
(R37, R119, R131), repeats (R116), and the passing of time. -/

namespace Sys2Proof.Machine

/-- What a turn comes to before the meaning runs: an instruction, or a state without one. -/
inductive Fetched
  | run (i : Instr) (s : State)
  | done (s : State)

/-- The hardware may end any agent's region at a boundary between two of its accesses (R83); here
that is between two steps. -/
def State.closeEarly (s : State) : State :=
  s.closing.foldl (fun s q =>
    if q.2.1 < 1024 ∧ q.2.2 < 16 then
      s.closeRegion (if q.1 then agentId 1 0 q.2.1 else agentId 0 q.2.2 q.2.1)
    else s) { s with closing := [] }

/-- The barriers of launches that have ended are discarded (R223). -/
def State.dropBarriers (s : State) : State :=
  let live (k : BarKey) : Bool := k.launch == 0 || (s.node? (k.launch - 1)).isSome
  { s with
    barriers := s.barriers.filter fun b => live b.key
    barPending := s.barPending.filter fun a => live a.key }

/-! ### Time -/

/-- The micro-thread takes part in issue, and its stall hint has expired (R298). -/
def State.mtReady (s : State) (c m : Nat) : Bool :=
  let t := s.mt c m
  s.gangRuns c m && (t.st == .sown || t.st == .running) && !t.stepDue && decide (t.stl ≤ s.now) &&
  (match t.gang with | some (.follower _) => false | _ => true)

/-- A micro-thread's bounded instruction waits, or is still to issue and was not tried in this step. -/
def State.boundPending (s : State) (c m : Nat) : Bool :=
  let t := s.mt c m
  (t.st == .waiting && t.hold.isNone && s.gangRuns c m) ||
  (s.mtReady c m && !(s.triedAt == s.free + 1 && s.tried.contains (c, m)))

/-- The deadlines of such instructions (R202). -/
def State.deadlines (s : State) : List Nat :=
  s.cores.flatMap fun e => e.2.mts.filterMap fun q =>
    if s.boundPending e.1 q.1 then s.deadline q.1 (s.membersOf e.1 q.1) else none

/-- The time after a step. It does not pass a deadline at which a bounded instruction is still to be tried,
completed or given up: whether its condition holds is judged then (R202). -/
def State.later (s : State) : Nat :=
  s.deadlines.foldl (fun t d => if s.now ≤ d then min t d else t) (s.now + Config.elapsed s.free)

/-- Time passes, caches take in and let go, and the next turn is drawn, with the scratchpad accesses
that are performed late or early before it, and the regions that end early (log 2, log 3, log 34). -/
def State.tick (s : State) : State :=
  let s := s.discardAll.startAllWakes
  { s with
    pads := ⟨Config.lateDone s.free, Config.earlyGone s.free, Config.earlyRead s.free⟩
    closing := Config.earlyClose s.free, notNow := Config.notNow s.free
    tlb := s.tlbNext, remoteLines := s.linesNext
    turn := Config.nextTurn s.free, now := s.later, free := s.free + 1 }

/-! ### The control thread -/

/-- The 16 bits at an address of code; poison there is consumed by the fetch. -/
def State.ctHalf (s : State) (c : Nat) (va : DWord) : Except CtStop (BitVec 16) :=
  match s.ctLoc c .fetch va with
  | .error e => .error (.exc (excCode e .fetch) va)
  | .ok (.device _) | .ok (.pcie _) => .error (.exc 1 va)
  | .ok l =>
    if s.poisoned l then
      match l.site with
      | some e => .error (.poison e)
      | none => .ok 0
    else .ok (BitVec.ofNat 16 (leNat (s.readLoc l 2)))

/-- The instruction word at the pc: 16 bits, or 32 when the low two are ones. -/
def State.ctWord (s : State) (c : Nat) (pc : DWord) : Except CtStop Word :=
  match s.ctHalf c pc with
  | .error e => .error e
  | .ok lo =>
    if lo.extractLsb' 0 2 = 3#2 then
      match s.ctHalf c (pc + 2) with
      | .error e => .error e
      | .ok hi => .ok (hi ++ lo)
    else .ok (lo.setWidth 32)

/-- A request of the control thread, child launches among them, is still outstanding, or its record is
not in the inbox yet. -/
def State.requestOut (s : State) (c : Nat) (seq : BitVec 16) : Bool :=
  let k := s.core c
  let p := s.namedCore c
  (k.copies ++ k.fifo).any (fun o => o.ct && o.seq == seq) || k.posting.any (fun r => r.seq == seq) ||
  (s.dies.any fun d =>
    d.2.childQ.any (fun q => q.1.core == p && q.1.seq == seq) ||
    d.2.nodes.any fun e =>
      match e.2.child with
      | some q => q.core == p && q.seq == seq
      | none => false)

/-- Fetches and decodes at the pc. -/
def State.ctFetchAt (s : State) (c : Nat) : Fetched :=
  let s : State := match (s.core c).gate with
    | .hold _ => s.setGate c .on
    | _ => s
  match s.ctWord c (s.hart c).pc with
  | .ok w => .run (decodeCt w) { s with curCore := c }
  | .error (.exc code tval) => .done (s.ctTrap c code tval)
  | .error (.poison e) => .done (s.consumePoison c e)
  | .error _ => .done s

/-- The turn of a control thread: an interrupt, which an AMO on its way holds back (R378), a wait, the
end of a step under SYNC (R364), or the instruction at the pc. -/
def State.ctFetch (s : State) (c : Nat) : Fetched :=
  let h := s.hart c
  if !s.coreRuns c then .done s
  else
    match (if h.writing || h.asked.isSome then none else (s.core c).pendingIrq) with
    | some i => .done (s.takeIrq c i)
    | none =>
      if h.wfi then
        if (s.core c).ip &&& h.mie = 0 ∧ ¬(h.priv = .user ∧ Config.wfiEnds s.free) then .done s
        else (s.modHart c fun h => { h with wfi := false }).ctFetchAt c
      else if h.stall.isSome then .done s
      else
        match (if h.priv = .user then h.sync else none) with
        | some seq =>
          if s.requestOut c seq then .done s
          else .done (s.modHart c fun h => { (h.enterS false 24 0) with sync := none })
        | none => s.ctFetchAt c

/-! ### Micro-threads -/

/-- Its next instruction cannot issue: it was tried and nothing has happened since, or timing does
not let it (log 36). -/
def State.cannotIssue (s : State) (c m : Nat) : Bool :=
  (s.triedAt == s.free && s.tried.contains (c, m)) || s.notNow.contains (c, m)

/-- The selector's choice: the micro-thread is ready, and every older one that is ready cannot issue
(R298). -/
def State.selected (s : State) (c m : Nat) : Bool :=
  s.mtReady c m && !s.notNow.contains (c, m) &&
  (s.core c).mts.all fun e =>
    !decide (e.2.age < (s.mt c m).age) || !s.mtReady c e.1 || s.cannotIssue c e.1

/-- Nothing has happened: what was tried still cannot issue. -/
def State.idleTurn (s : State) : State :=
  if s.triedAt = s.free then { s with triedAt := s.free + 1 } else s

/-- The comparator that stops the instruction at the pc, if one does. -/
def State.comparator (s : State) (c m : Nat) : Option Nat :=
  let t := s.mt c m
  let again : Bool := match t.rep with
    | some r => decide (t.repcnt < r.n)
    | none => false
  if t.resumed || again then none
  else
    (List.range 4).find? fun i =>
      let v := (s.core c).dbgpc.look 0 i
      v.getLsbD 0 && v.extractLsb' 2 46 == t.pc.extractLsb' 2 46

/-- The word of a block at an address in it. -/
def SeedBlock.wordAt (b : SeedBlock) (va : DWord) : IWord := b.words.getD ((va - b.base).toNat / 12) 0

/-- The first poisoned word of an instruction's three, if the fetch meets one. -/
def State.fetchPoison (s : State) (c : Nat) (pc : DWord) : Option ErrorSite :=
  (List.range 3).findSome? fun i =>
    match s.xloc c .mt .fetch (pc + BitVec.ofNat 64 (4 * i)) with
    | .ok l => if s.poisoned l then l.site else none
    | .error _ => none

/-- The instruction with its fields stepped for the current repeat (R116). -/
def Mt.repeated (t : Mt) (i : Instr) : Instr :=
  match t.rep, i.ny? with
  | some r, some (op, f) => (Instr.ofOp op (f.stepBy (r.n - t.repcnt : Nat) (r.on op f))).getD i
  | _, _ => i

/-- Decodes a word and runs it, or takes the trap of the check it fails (R131). -/
def State.mtDecode (s : State) (c m : Nat) (w : IWord) : Fetched :=
  let s := { s with curCore := c, curMt := m }
  match decodeNy w with
  | .ok i => .run ((s.mt c m).repeated i) s
  | .error r => .done (s.issueTrap (.mk' r.cause r.detail) w)

/-- The instruction at the pc in memory. -/
def State.mtFromMemory (s : State) (c m : Nat) (pc : DWord) : Fetched :=
  let s := { s with curCore := c, curMt := m }
  match s.readVirt c .mt .fetch pc 3 with
  | .error (e, va) =>
    .done (s.issueTrap { Exn.mk' (match e with | .page => 6 | .access => 7) 0 with addr := va } 0)
  | .ok bs =>
    match s.fetchPoison c pc with
    | some e => .done (s.consumePoison c e)
    | none => s.mtDecode c m (BitVec.ofNat 96 (leNat bs))

/-- The instruction at the pc, from the held block or from memory. -/
def State.mtFetchAt (s : State) (c m : Nat) : Fetched :=
  let pc := (s.mt c m).pc
  match (s.mt c m).block with
  | some b =>
    if b.has pc then s.mtDecode c m (b.wordAt pc)
    else if pc = b.base + BitVec.ofNat 64 (12 * b.words.length) && b.cont.isNone then
      .done (s.stopAll c m)
    else (s.modMt c m fun t => { t with block := none }).mtFromMemory c m pc
  | none => s.mtFromMemory c m pc

/-- The turn of a micro-thread, which issues where the selector chooses it. -/
def State.mtFetch (s : State) (c m : Nat) : Fetched :=
  if !s.selected c m then .done s.idleTurn
  else
    match s.comparator c m with
    | some i => .done ({ s with curCore := c, curMt := m }.issueTrap (.mk' 0x11 (i + 1)) 0)
    | none => s.mtFetchAt c m

/-! ### Placing an instruction where the next step fetches it -/

/-- Micro-thread `m` of core `c` holds a seed block of one word. -/
def State.withSeed (s : State) (c m : Nat) (w : IWord) : State :=
  s.modMt c m fun t => t.sow 0 [w] 0

/-- The word of an instruction at the pc of the control thread of core `c`. -/
def State.withCode (s : State) (c : Nat) (w : Word) : State :=
  match s.ctLoc c .fetch (s.hart c).pc with
  | .ok l => s.writeW l w
  | .error _ => s

end Sys2Proof.Machine
end

