-- ==== Sys2Proof/Machine/Dispatch.lean ====
section
/-! DEFINITION. The meaning of every instruction: one arm per constructor. -/

namespace Sys2Proof.Machine

def exec (i : Instr) (s : State) : Host.Outcome State Fault Refusal :=
  match i with
  | .nop f => Sys2Proof.Machine.execNop f s
  | .mov f => Sys2Proof.Machine.execMov f s
  | .sel f => Sys2Proof.Machine.execSel f s
  | .iadd f => Sys2Proof.Machine.execIadd f s
  | .isub f => Sys2Proof.Machine.execIsub f s
  | .imul f => Sys2Proof.Machine.execImul f s
  | .imulh f => Sys2Proof.Machine.execImulh f s
  | .imad f => Sys2Proof.Machine.execImad f s
  | .imin f => Sys2Proof.Machine.execImin f s
  | .imax f => Sys2Proof.Machine.execImax f s
  | .iabs f => Sys2Proof.Machine.execIabs f s
  | .ineg f => Sys2Proof.Machine.execIneg f s
  | .iadds f => Sys2Proof.Machine.execIadds f s
  | .isubs f => Sys2Proof.Machine.execIsubs f s
  | .shl f => Sys2Proof.Machine.execShl f s
  | .shr f => Sys2Proof.Machine.execShr f s
  | .sar f => Sys2Proof.Machine.execSar f s
  | .rot f => Sys2Proof.Machine.execRot f s
  | .and f => Sys2Proof.Machine.execAnd f s
  | .or f => Sys2Proof.Machine.execOr f s
  | .xor f => Sys2Proof.Machine.execXor f s
  | .andn f => Sys2Proof.Machine.execAndn f s
  | .not f => Sys2Proof.Machine.execNot f s
  | .clz f => Sys2Proof.Machine.execClz f s
  | .ffs f => Sys2Proof.Machine.execFfs f s
  | .popc f => Sys2Proof.Machine.execPopc f s
  | .brev f => Sys2Proof.Machine.execBrev f s
  | .bfx f => Sys2Proof.Machine.execBfx f s
  | .bfi f => Sys2Proof.Machine.execBfi f s
  | .icmp f => Sys2Proof.Machine.execIcmp f s
  | .pand f => Sys2Proof.Machine.execPand f s
  | .por f => Sys2Proof.Machine.execPor f s
  | .pxor f => Sys2Proof.Machine.execPxor f s
  | .pnot f => Sys2Proof.Machine.execPnot f s
  | .lea f => Sys2Proof.Machine.execLea f s
  | .fadd f => Sys2Proof.Machine.execFadd f s
  | .fsub f => Sys2Proof.Machine.execFsub f s
  | .fmul f => Sys2Proof.Machine.execFmul f s
  | .ffma f => Sys2Proof.Machine.execFfma f s
  | .fmin f => Sys2Proof.Machine.execFmin f s
  | .fmax f => Sys2Proof.Machine.execFmax f s
  | .fcmp f => Sys2Proof.Machine.execFcmp f s
  | .fclass f => Sys2Proof.Machine.execFclass f s
  | .frnd f => Sys2Proof.Machine.execFrnd f s
  | .cvt f => Sys2Proof.Machine.execCvt f s
  | .qnt f => Sys2Proof.Machine.execQnt f s
  | .dqnt f => Sys2Proof.Machine.execDqnt f s
  | .sclf f => Sys2Proof.Machine.execSclf f s
  | .fdot f => Sys2Proof.Machine.execFdot f s
  | .rcp f => Sys2Proof.Machine.execRcp f s
  | .rsq f => Sys2Proof.Machine.execRsq f s
  | .sqrt f => Sys2Proof.Machine.execSqrt f s
  | .exp2 f => Sys2Proof.Machine.execExp2 f s
  | .log2 f => Sys2Proof.Machine.execLog2 f s
  | .sin f => Sys2Proof.Machine.execSin f s
  | .cos f => Sys2Proof.Machine.execCos f s
  | .tanh f => Sys2Proof.Machine.execTanh f s
  | .sigm f => Sys2Proof.Machine.execSigm f s
  | .l6add f => Sys2Proof.Machine.execL6add f s
  | .l6mul f => Sys2Proof.Machine.execL6mul f s
  | .shuf f => Sys2Proof.Machine.execShuf f s
  | .bcast f => Sys2Proof.Machine.execBcast f s
  | .red f => Sys2Proof.Machine.execRed f s
  | .scan f => Sys2Proof.Machine.execScan f s
  | .vote f => Sys2Proof.Machine.execVote f s
  | .cmprs f => Sys2Proof.Machine.execCmprs f s
  | .xpnd f => Sys2Proof.Machine.execXpnd f s
  | .bra f => Sys2Proof.Machine.execBra f s
  | .brx f => Sys2Proof.Machine.execBrx f s
  | .bfetch f => Sys2Proof.Machine.execBfetch f s
  | .loop f => Sys2Proof.Machine.execLoop f s
  | .rep f => Sys2Proof.Machine.execRep f s
  | .stop f => Sys2Proof.Machine.execStop f s
  | .yield f => Sys2Proof.Machine.execYield f s
  | .lnkw f => Sys2Proof.Machine.execLnkw f s
  | .lnkr f => Sys2Proof.Machine.execLnkr f s
  | .ctsig f => Sys2Proof.Machine.execCtsig f s
  | .ctwait f => Sys2Proof.Machine.execCtwait f s
  | .trap f => Sys2Proof.Machine.execTrap f s
  | .brkp f => Sys2Proof.Machine.execBrkp f s
  | .gang f => Sys2Proof.Machine.execGang f s
  | .ungang f => Sys2Proof.Machine.execUngang f s
  | .sleep f => Sys2Proof.Machine.execSleep f s
  | .twait f => Sys2Proof.Machine.execTwait f s
  | .time f => Sys2Proof.Machine.execTime f s
  | .ld f => Sys2Proof.Machine.execLd f s
  | .st f => Sys2Proof.Machine.execSt f s
  | .ldx f => Sys2Proof.Machine.execLdx f s
  | .stx f => Sys2Proof.Machine.execStx f s
  | .pref f => Sys2Proof.Machine.execPref f s
  | .hbind f => Sys2Proof.Machine.execHbind f s
  | .advp f => Sys2Proof.Machine.execAdvp f s
  | .advc f => Sys2Proof.Machine.execAdvc f s
  | .qbind f => Sys2Proof.Machine.execQbind f s
  | .qdrop f => Sys2Proof.Machine.execQdrop f s
  | .ldf f => Sys2Proof.Machine.execLdf f s
  | .fbclr f => Sys2Proof.Machine.execFbclr f s
  | .stsb f => Sys2Proof.Machine.execStsb f s
  | .wback f => Sys2Proof.Machine.execWback f s
  | .inval f => Sys2Proof.Machine.execInval f s
  | .atom f => Sys2Proof.Machine.execAtom f s
  | .cas f => Sys2Proof.Machine.execCas f s
  | .atred f => Sys2Proof.Machine.execAtred f s
  | .fence f => Sys2Proof.Machine.execFence f s
  | .acq f => Sys2Proof.Machine.execAcq f s
  | .rel f => Sys2Proof.Machine.execRel f s
  | .bar f => Sys2Proof.Machine.execBar f s
  | .bara f => Sys2Proof.Machine.execBara f s
  | .barw f => Sys2Proof.Machine.execBarw f s
  | .cwait f => Sys2Proof.Machine.execCwait f s
  | .cadd f => Sys2Proof.Machine.execCadd f s
  | .inbx f => Sys2Proof.Machine.execInbx f s
  | .inbp f => Sys2Proof.Machine.execInbp f s
  | .ticket f => Sys2Proof.Machine.execTicket f s
  | .roleq f => Sys2Proof.Machine.execRoleq f s
  | .mma f => Sys2Proof.Machine.execMma f s
  | .mmas f => Sys2Proof.Machine.execMmas f s
  | .mzero f => Sys2Proof.Machine.execMzero f s
  | .mfill f => Sys2Proof.Machine.execMfill f s
  | .mdrain f => Sys2Proof.Machine.execMdrain f s
  | .chbeg f => Sys2Proof.Machine.execChbeg f s
  | .chend f => Sys2Proof.Machine.execChend f s
  | .spfence f => Sys2Proof.Machine.execSpfence f s
  | .cpy f => Sys2Proof.Machine.execCpy f s
  | .cpyg f => Sys2Proof.Machine.execCpyg f s
  | .ncfg f => Sys2Proof.Machine.execNcfg f s
  | .nint f => Sys2Proof.Machine.execNint f s
  | .nleak f => Sys2Proof.Machine.execNleak f s
  | .nfire f => Sys2Proof.Machine.execNfire f s
  | .evsend f => Sys2Proof.Machine.execEvsend f s
  | .evrecv f => Sys2Proof.Machine.execEvrecv f s
  | .rsort f => Sys2Proof.Machine.execRsort f s
  | .rsend f => Sys2Proof.Machine.execRsend f s
  | .rrecv f => Sys2Proof.Machine.execRrecv f s
  | .racc f => Sys2Proof.Machine.execRacc f s
  | .rmarg f => Sys2Proof.Machine.execRmarg f s
  | .rgrad f => Sys2Proof.Machine.execRgrad f s
  | .rwtab f => Sys2Proof.Machine.execRwtab f s
  | .csrr f => Sys2Proof.Machine.execCsrr f s
  | .csrw f => Sys2Proof.Machine.execCsrw f s
  | .tqcfg f => Sys2Proof.Machine.execTqcfg f s
  | .sow rd rs1 rs2 => Sys2Proof.Machine.execSow rd rs1 rs2 s
  | .soww rd rs1 rs2 => Sys2Proof.Machine.execSoww rd rs1 rs2 s
  | .mtstat rd rs1 => Sys2Proof.Machine.execMtstat rd rs1 s
  | .mtstop rs1 => Sys2Proof.Machine.execMtstop rs1 s
  | .mtrel rs1 => Sys2Proof.Machine.execMtrel rs1 s
  | .cmdq rd rs1 => Sys2Proof.Machine.execCmdq rd rs1 s
  | .cmdqnb rd rs1 => Sys2Proof.Machine.execCmdqnb rd rs1 s
  | .ctinbx rd rs1 => Sys2Proof.Machine.execCtinbx rd rs1 s
  | .ctcwait rd rs1 rs2 => Sys2Proof.Machine.execCtcwait rd rs1 rs2 s
  | .cttick rd rs1 => Sys2Proof.Machine.execCttick rd rs1 s
  | .actfire rs1 rs2 => Sys2Proof.Machine.execActfire rs1 rs2 s
  | .bindld rs1 => Sys2Proof.Machine.execBindld rs1 s
  | .incarn rd rs1 => Sys2Proof.Machine.execIncarn rd rs1 s
  | .reclaim rd rs1 => Sys2Proof.Machine.execReclaim rd rs1 s
  | .waitingInstructionCompletes core mt => Sys2Proof.Machine.execWaitingInstructionCompletes core mt s
  | .ctStallCompletes core => Sys2Proof.Machine.execCtStallCompletes core s
  | .microthreadIdle core mt => Sys2Proof.Machine.execMicrothreadIdle core mt s
  | .firingStart core => Sys2Proof.Machine.execFiringStart core s
  | .footprintFill core actor => Sys2Proof.Machine.execFootprintFill core actor s
  | .stageRebalance core => Sys2Proof.Machine.execStageRebalance core s
  | .trapInterruptTaken core => Sys2Proof.Machine.execTrapInterruptTaken core s
  | .mtresume core mask => Sys2Proof.Machine.execMtresume core mask s
  | .ctxidCtxWrite core value => Sys2Proof.Machine.execCtxidCtxWrite core value s
  | .nbvWrite core value => Sys2Proof.Machine.execNbvWrite core value s
  | .registerWrite r value => Sys2Proof.Machine.execRegisterWrite r value s
  | .matrixInstructionApplied core flt => Sys2Proof.Machine.execMatrixInstructionApplied core flt s
  | .mdrainCompletion core => Sys2Proof.Machine.execMdrainCompletion core s
  | .limiterStep quad => Sys2Proof.Machine.execLimiterStep quad s
  | .copyElementComplete core op => Sys2Proof.Machine.execCopyElementComplete core op s
  | .copyCompletion core op => Sys2Proof.Machine.execCopyCompletion core op s
  | .eventUnitAction core => Sys2Proof.Machine.execEventUnitAction core s
  | .rgradCompletion core => Sys2Proof.Machine.execRgradCompletion core s
  | .tqArrival core => Sys2Proof.Machine.execTqArrival core s
  | .rankMessageArrival core => Sys2Proof.Machine.execRankMessageArrival core s
  | .reducePartialArrival n => Sys2Proof.Machine.execReducePartialArrival n s
  | .barrierArrival n => Sys2Proof.Machine.execBarrierArrival n s
  | .barrierRelease n => Sys2Proof.Machine.execBarrierRelease n s
  | .sleepDeadline core mt => Sys2Proof.Machine.execSleepDeadline core mt s
  | .twaitDeadline core mt => Sys2Proof.Machine.execTwaitDeadline core mt s
  | .fabricMessageArrival n badCheck => Sys2Proof.Machine.execFabricMessageArrival n badCheck s
  | .ackArrival n => Sys2Proof.Machine.execAckArrival n s
  | .retry n => Sys2Proof.Machine.execRetry n s
  | .retryResend flow => Sys2Proof.Machine.execRetryResend flow s
  | .reject n => Sys2Proof.Machine.execReject n s
  | .resendTimeout flow => Sys2Proof.Machine.execResendTimeout flow s
  | .escapeTimeout n => Sys2Proof.Machine.execEscapeTimeout n s
  | .pairedMessageArrival n => Sys2Proof.Machine.execPairedMessageArrival n s
  | .twinTimeout n => Sys2Proof.Machine.execTwinTimeout n s
  | .linkFlitCrcFail port => Sys2Proof.Machine.execLinkFlitCrcFail port s
  | .trapRecordArrival n => Sys2Proof.Machine.execTrapRecordArrival n s
  | .trrheadWrite ring value => Sys2Proof.Machine.execTrrheadWrite ring value s
  | .lqdb die value => Sys2Proof.Machine.execLqdb die value s
  | .launchQueueEntryRead die => Sys2Proof.Machine.execLaunchQueueEntryRead die s
  | .childLaunchAdmit die => Sys2Proof.Machine.execChildLaunchAdmit die s
  | .nodeNotification n => Sys2Proof.Machine.execNodeNotification n s
  | .readyPriorityAging node => Sys2Proof.Machine.execReadyPriorityAging node s
  | .distributorPlace die => Sys2Proof.Machine.execDistributorPlace die s
  | .launchCoreStart core => Sys2Proof.Machine.execLaunchCoreStart core s
  | .endOfPart core => Sys2Proof.Machine.execEndOfPart core s
  | .nodeComplete node => Sys2Proof.Machine.execNodeComplete node s
  | .terminationSweep node => Sys2Proof.Machine.execTerminationSweep node s
  | .migreqGo die value => Sys2Proof.Machine.execMigreqGo die value s
  | .migrationStream die => Sys2Proof.Machine.execMigrationStream die s
  | .migrationSwitch die => Sys2Proof.Machine.execMigrationSwitch die s
  | .paddockDefine die pdk value => Sys2Proof.Machine.execPaddockDefine die pdk value s
  | .paddockKill die pdk => Sys2Proof.Machine.execPaddockKill die pdk s
  | .killedLaunchDrained node => Sys2Proof.Machine.execKilledLaunchDrained node s
  | .paddockUnfence die pdk => Sys2Proof.Machine.execPaddockUnfence die pdk s
  | .uncorrectableError at_ => Sys2Proof.Machine.execUncorrectableError at_ s
  | .correctedError die quad array => Sys2Proof.Machine.execCorrectedError die quad array s
  | .undervoltStepUp die quad => Sys2Proof.Machine.execUndervoltStepUp die quad s
  | .spareBind r => Sys2Proof.Machine.execSpareBind r s
  | .lockstepMismatch die => Sys2Proof.Machine.execLockstepMismatch die s
  | .cpResume die => Sys2Proof.Machine.execCpResume die s
  | .incarnationSweep ctx value => Sys2Proof.Machine.execIncarnationSweep ctx value s
  | .budgetTick env => Sys2Proof.Machine.execBudgetTick env s
  | .hopEnd tile => Sys2Proof.Machine.execHopEnd tile s
  | .dramRefresh chan => Sys2Proof.Machine.execDramRefresh chan s
  | .dramRefreshEnd chan => Sys2Proof.Machine.execDramRefreshEnd chan s
  | .coreGate core => Sys2Proof.Machine.execCoreGate core s
  | .wakeRequest core => Sys2Proof.Machine.execWakeRequest core s
  | .wakeComplete core => Sys2Proof.Machine.execWakeComplete core s
  | .droopDetect tile handshake => Sys2Proof.Machine.execDroopDetect tile handshake s
  | .droopEnd tile => Sys2Proof.Machine.execDroopEnd tile s
  | .packageReset => Sys2Proof.Machine.execPackageReset s
  | .attestationRequest nonce => Sys2Proof.Machine.execAttestationRequest nonce s
  | .controlThreadRiscvInstruction r => Sys2Proof.Machine.execControlThreadRiscvInstruction r s
  | .unassignedOpcode w => Sys2Proof.Machine.execUnassignedOpcode w s
  | .rampDownEnd core => Sys2Proof.Machine.execRampDownEnd core s
  | .gatingEntryEnd core => Sys2Proof.Machine.execGatingEntryEnd core s
  | .trrbaseWrite ring value => Sys2Proof.Machine.execTrrbaseWrite ring value s
  | .inboundDma va root data => Sys2Proof.Machine.execInboundDma va root data s
  | .applicationCoreAccess pa op => Sys2Proof.Machine.execApplicationCoreAccess pa op s
  | .uvctlLockClear die quad => Sys2Proof.Machine.execUvctlLockClear die quad s

end Sys2Proof.Machine
end

