-- ==== Sys2Proof/Machine/Step.lean ====
section
/-! DEFINITION. One step of the package: the turn's agent fetches and runs its next instruction,
or a step that carries no word happens (log 2). -/

namespace Sys2Proof.Machine

/-- After a meaning has run, time passes. -/
def afterExec : Host.Outcome State Fault Refusal → Host.Outcome State Fault Refusal
  | .next s => .next s.tick
  | r => r

/-- Runs what a turn came to. -/
def runFetched : Fetched → Host.Outcome State Fault Refusal
  | .run i s => afterExec (exec i s)
  | .done s => .next s.tick

/-- The turn of a state. -/
def State.takeTurn (s : State) : Host.Outcome State Fault Refusal :=
  match s.turn with
  | .ct c => if c < 1024 then runFetched (s.ctFetch c) else .fault .noSuchAgent
  | .mt c m => if c < 1024 ∧ m < 16 then runFetched (s.mtFetch c m) else .fault .noSuchAgent
  | .event i => if (encode i).isSome then .fault .notAnEvent else afterExec (exec i s)

/-- What comes before a turn: the barriers of launches that have ended are discarded (R223), scratchpad
accesses are late or early, and regions end early (R83, R84). -/
def State.begun (s : State) : State := s.dropBarriers.padsNext.closeEarly

/-- The turn is taken. -/
def step (s : State) : Host.Outcome State Fault Refusal := s.begun.takeTurn

/-- `s` with an instruction where the next step fetches it: a control thread's at the pc of the
current core, a micro-thread's in a seed block of micro-thread 0 of that core. -/
def State.withFetchWord (s : State) (nbits w : Nat) : State :=
  if nbits ≤ 32 then
    { s.withCode s.curCore (BitVec.ofNat 32 (w % 2 ^ nbits)) with
      turn := .ct s.curCore, closing := [], pads := ⟨[], [], []⟩ }
  else
    { s.withSeed s.curCore 0 (BitVec.ofNat 96 (w % 2 ^ nbits)) with
      turn := .mt s.curCore 0, closing := [], notNow := [], pads := ⟨[], [], []⟩ }

end Sys2Proof.Machine
end

