-- ==== Sys2Proof/Safety.lean ====
section
/-! DEFINITION. What the statements speak of: a step that stops with no fault, memory in its
canonical form, and the circumstances in which a micro-thread's or a control thread's instruction
acts. -/

namespace Sys2Proof.Machine

/-- The machine does not stop at this state. -/
def State.Goes (s : State) : Prop := ∃ t, step s = .next t

/-- A core's scratchpad, lane slices and mailbox are in canonical form. -/
def Core.MemOk (k : Core) : Prop :=
  Memory.wf k.scratch = true ∧ Memory.wf k.lane = true ∧ Memory.wf k.mbox = true

/-- Every memory is in canonical form: DRAM, granary, the memory of other packages, and those of
every core. -/
def State.MemOk (s : State) : Prop :=
  Memory.wf s.dram = true ∧ Memory.wf s.gran = true ∧ Memory.wf s.remote = true ∧
  ∀ c, (s.core c).MemOk

/-- The byte at place `b` is one of the `n` bytes from place `a` on. -/
def Loc.among (b a : Loc) (n : Nat) : Prop :=
  match b, a with
  | .lane c i o, .lane d j p => c = d ∧ j * 2048 + p ≤ i * 2048 + o ∧ i * 2048 + o < j * 2048 + p + n
  | .scratch c o, .scratch d p => c = d ∧ p ≤ o ∧ o < p + n
  | .mbox c o, .mbox d p => c = d ∧ p ≤ o ∧ o < p + n
  | .gran c o, .gran d p =>
    d * 0x2000000 + p ≤ c * 0x2000000 + o ∧ c * 0x2000000 + o < d * 0x2000000 + p + n
  | .dram o, .dram p => p ≤ o ∧ o < p + n
  | .remote o, .remote p => p ≤ o ∧ o < p + n
  | _, _ => False

/-- Every byte of every memory reads in `t` as in `s`, but for those that `out` names. -/
def State.SameBytes (s t : State) (out : Loc → Prop) : Prop :=
  ∀ b, ¬ out b → t.readLoc b 1 = s.readLoc b 1

/-- Micro-thread `m` of core `c` may differ between `s` and `t`, and the open-region records with
the region counters, and what the core's selector knows: the last that issued, and those that could not;
everything else of the package is the same: the memories, the engines, the
special registers and full bits of every core, every other micro-thread and control thread. -/
def State.SameBut (s t : State) (c m : Nat) : Prop :=
  { t with cores := [], lines := [], tried := [], triedAt := 0 } =
    { s with cores := [], lines := [], tried := [], triedAt := 0 } ∧
  (∀ e, { t.core e with mts := [], ct := Hart.init, lastMt := if e = c then 0 else (t.core e).lastMt } =
    { s.core e with mts := [], ct := Hart.init, lastMt := if e = c then 0 else (s.core e).lastMt }) ∧
  (∀ e, { t.hart e with region := 0 } = { s.hart e with region := 0 }) ∧
  (∀ e n, (e, n) ≠ (c, m) → { t.mt e n with region := 0 } = { s.mt e n with region := 0 })

/-- The turn names an agent of the package, or a step that carries no word. -/
def State.TurnOk (s : State) : Prop :=
  match s.turn with
  | .ct c => c < 1024
  | .mt c m => c < 1024 ∧ m < 16
  | .event i => (encode i).isNone = true

/-! ### A micro-thread that issues -/

/-- The micro-thread that issues. -/
def State.cur (s : State) : Mt := s.mt s.curCore s.curMt

/-- It issues alone, and no TWAIT bounds its instruction (R54, R202). -/
def State.Alone (s : State) : Prop := s.cur.gang = none ∧ s.cur.bound = none

/-- It as the one member, with the lanes that the instruction's guard enables (R123). -/
def State.me (s : State) (f : Ny) : Who := ⟨s.curCore, s.curMt, 0, s.cur.guardMask f.guard⟩

/-- No message of its agent to memory that is still to be performed holds the instruction back: where
it orders accesses there is none, and where it accesses memory none is of an earlier region (R81,
R83, R89). -/
def State.Clear (s : State) (i : Instr) : Prop :=
  ∀ op f, i.ny? = some (op, f) → s.heldBack op f (s.me f) = false

/-- The instruction acts: some lane is enabled in lane-wise form, else lane 0 is (R123), and nothing
holds it back. -/
def State.Acts (s : State) (i : Instr) (f : Ny) (vec : Bool) : Prop :=
  s.Alone ∧ (s.me f).acts vec = true ∧ s.Clear i

/-- The instruction has no effect under its guard (R123). -/
def State.Idles (s : State) (f : Ny) (vec : Bool) : Prop := s.Alone ∧ (s.me f).acts vec = false

/-- Once the effect of the issuing instruction has led from `s` to `t`, one repeat fewer remains
or the program counter moves on (R37, R116, R364). -/
def State.onward (s t : State) (f : Ny) : State := t.finish s.curCore s.curMt f.hint .seq false

/-- The instruction waits: the micro-thread is in the waiting state with it as the blocking
instruction (R38), and with no place at a channel. Where it did not wait before, it has issued (R298). -/
def State.blockedOn (s t : State) (i : Instr) : State :=
  let t := (t.leaveAll s.leader).modMt s.curCore s.curMt fun x => { x with st := .waiting, blocked := some i }
  if s.cur.st = .waiting then t else t.issued s.curCore s.curMt

/-- The word that a trap record holds of the issuing instruction (R368). -/
def State.wordOf (s : State) (op : Nat) (f : Ny) : IWord := (s.cur.unstepped op f).toWord op

/-- The instruction cannot issue now: the micro-thread keeps running with it, and a younger one may
issue instead (R298). It has no place at a channel. -/
def State.notYet (s : State) : State := (s.leaveAll s.leader).noIssue s.curCore s.curMt

/-- The precise trap of the issuing instruction (R348). -/
def State.trapped (s : State) (op : Nat) (f : Ny) (e : Exn) : State :=
  s.takeTrap s.curCore s.curMt none s.cur.pc (s.wordOf op f) e

/-- What BRA and BRX test in operand A of a micro-thread that issues alone (R192). -/
def State.branchHolds (s : State) (f : Ny) : Bool :=
  match f.md.toNat with
  | 0 => (List.range 32).any (s.truth (s.me f) f.a)
  | 1 => (List.range 32).all (s.truth (s.me f) f.a)
  | _ => !(List.range 32).any (s.truth (s.me f) f.a)

/-- The branch to `va` is taken, or raises illegal-operand where the block may not be left (R37,
R192). -/
def State.branched (s t : State) (op : Nat) (f : Ny) (va : DWord) : State :=
  if s.cur.mayJump va then t.finish s.curCore s.curMt f.hint (.jump va) false
  else s.trapped op f { Exn.mk' 3 6 with val := va.setWidth 32 }

/-- The micro-thread runs on through fetched code or its block: no step trap follows (R364), and no stop
waits for the boundary (R40). -/
def State.Runs (s : State) (c m : Nat) : Prop :=
  (s.core c).dbgctl.getLsbD m = false ∧ (s.mt c m).stopDue = false ∧
  match (s.mt c m).block with
  | none => True
  | some b => b.has ((s.mt c m).pc + 12) = true

/-! ### A control thread that issues -/

/-- The control thread of the core that issues. -/
def State.curHart (s : State) : Hart := s.hart s.curCore

/-- It stalls in its instruction, with no place at a channel (R254). -/
def State.ctStalled (s : State) (i : Instr) : State :=
  (s.leaveAll (s.ctWaiter s.curCore)).modHart s.curCore fun h => { h with stall := some i }

/-- Its instruction of `len` bytes retires with the effect `t` (R33, R364). -/
def State.retired (s t : State) (len : Nat) : State :=
  t.ctRetire s.curCore (s.curHart.priv == .user) (s.curHart.pc + BitVec.ofNat 64 len)

end Sys2Proof.Machine
end

