-- ==== Sys2Proof/Certificates/Slice0/Obligations.lean ====
section
/-! DEFINITION. The statements about the machine, each a rule of the spec or a consequence of its
rules. The tables list instructions of one shape with the operation that each performs. -/

namespace Sys2Proof.Machine

/-! ### Tables of instructions of one shape -/

/-- A := g(B, C), element by element (R165, R166, R173, R184). -/
def twoOperandTable (f : Ny) (nbv : Nat) : List (Instr × (Nat → Nat → Nat)) :=
  let t := f.ty
  [ (.iadd f, fun x y => t.wrap (t.int x + t.int y)),
    (.isub f, fun x y => t.wrap (t.int x - t.int y)),
    (.imul f, fun x y => t.wrap (t.int x * t.int y)),
    (.imulh f, fun x y => t.wrap (t.int x * t.int y / (2 ^ t.width : Nat))),
    (.imin f, fun x y => t.wrap (min (t.int x) (t.int y))),
    (.imax f, fun x y => t.wrap (max (t.int x) (t.int y))),
    (.iadds f, fun x y => t.sat (t.int x + t.int y)),
    (.isubs f, fun x y => t.sat (t.int x - t.int y)),
    (.shl f, fun x n => t.wrap ((x * 2 ^ (n % t.width) : Nat) : Int)),
    (.shr f, fun x n => x / 2 ^ (n % t.width)),
    (.sar f, fun x n => t.wrap (sval t.width x / (2 ^ (n % t.width) : Nat))),
    (.rot f, fun x n =>
      t.wrap ((x * 2 ^ (n % t.width) + x / 2 ^ (t.width - n % t.width) : Nat) : Int)),
    (.fadd f, fun x y => t.rnd (rmOf f) (FVal.add (rmOf f) (t.fval x) (t.fval y))),
    (.fsub f, fun x y => t.rnd (rmOf f) (FVal.add (rmOf f) (t.fval x) (t.fval y).neg)),
    (.fmul f, fun x y => t.rnd (rmOf f) ((t.fval x).mul (t.fval y))),
    (.fmin f, fun x y => t.fminmax true x y),
    (.fmax f, fun x y => t.fminmax false x y),
    (.l6add f, fun x y => toL6 (rmOf f) (FVal.add (rmOf f) (l6Lin nbv x) (l6Lin nbv y))),
    (.l6mul f, fun x y => l6Mul x y) ]

/-- A := g(B), element by element (R165, R168, R175, R176, R182, R183). -/
def oneOperandTable (f : Ny) (nbv : Nat) : List (Instr × (Nat → Nat)) :=
  let t := f.ty
  let g := (Fmt.of? t).getD .fp32
  [ (.iabs f, fun x => t.wrap ((t.int x).natAbs : Int)),
    (.ineg f, fun x => t.wrap (-(t.int x))),
    (.clz f, fun x => (elemBits t.width x).reverse.findIdx id),
    (.ffs f, fun x => (elemBits t.width x).findIdx id),
    (.popc f, fun x => (elemBits t.width x).countP id),
    (.brev f, fun x => ofElemBits (elemBits t.width x).reverse),
    (.fclass f, classCode g),
    (.frnd f, frndE g (rmOf f)),
    (.rcp f, sfuElem .rcp nbv g),
    (.rsq f, sfuElem .rsq nbv g),
    (.sqrt f, sfuElem .sqrt nbv g),
    (.exp2 f, sfuElem .exp2 nbv g),
    (.log2 f, sfuElem .log2 nbv g),
    (.sin f, sfuElem .sin nbv g),
    (.cos f, sfuElem .cos nbv g),
    (.tanh f, sfuElem .tanh nbv g),
    (.sigm f, sfuElem .sigm nbv g) ]

/-- A := g(A, B, C), element by element (R164, R165, R173). -/
def threeOperandTable (f : Ny) : List (Instr × (Nat → Nat → Nat → Nat)) :=
  let t := f.ty
  [ (.sel f, fun a b c => t.own (if t.own a ≠ 0 then b else c)),
    (.imad f, fun a b c => t.wrap (t.int a + t.int b * t.int c)),
    (.ffma f, fun a b c =>
      t.rnd (rmOf f) (FVal.add (rmOf f) ((t.fval b).mul (t.fval c)) (t.fval a))) ]

/-- Words of A from whole words of B and C (R167). -/
def wordTable (f : Ny) : List (Instr × (Word → Word → Word)) :=
  [ (.and f, fun x y => x &&& y),
    (.or f, fun x y => x ||| y),
    (.xor f, fun x y => x ^^^ y),
    (.andn f, fun x y => x &&& ~~~y) ]

/-- Instructions whose result reads B, C as a whole word, and A's old word: the word of a lane
(R169, R180, R181). -/
def controlTable (f : Ny) (nbv : Nat) : List (Instr × Bool × (Word → Word → Word → Word)) :=
  let t := f.ty
  [ (.bfx f, true, fun _ x y => t.map1 (bfxE t y) x),
    (.bfi f, true, fun a x y => t.map2 (bfiE t y) a x),
    (.sclf f, true, fun _ x y =>
      t.map1 (fun b => t.rnd (rmOf f) ((t.fval b).scale y.toInt)) x),
    (.fdot f, false, fun a x y => fdotWord nbv t (rmOf f) a x y) ]

/-- Compares with the condition on two elements (R170, R174). -/
def compareTable (f : Ny) : List (Instr × (Nat → Nat → Bool)) :=
  [ (.icmp f, fun x y => intCond f.md.toNat (f.ty.int x) (f.ty.int y)),
    (.fcmp f, fun x y => floatCond f.md.toNat (f.ty.fval x) (f.ty.fval y)) ]

/-- Predicate logic (R171). -/
def predTable (f : Ny) : List (Instr × (Bool → Bool → Bool)) :=
  [ (.pand f, fun x y => x && y),
    (.por f, fun x y => x || y),
    (.pxor f, fun x y => x != y),
    (.pnot f, fun x _ => !x) ]

/-- The control thread's operation as a 32-bit instruction, or as a compressed one. -/
def rvForm (r : RvInstr) (op : Rv) (aqrl : BitVec 2) (len : Nat) : Prop :=
  (r = .full op aqrl ∧ len = 4) ∨ (∃ h, r = .comp h op ∧ aqrl = 0 ∧ len = 2)

/-- Instructions that compute registers and predicates from registers. -/
def registerInstrs (f : Ny) : List Instr :=
  List.append
    [.mov f, .sel f, .iadd f, .isub f, .imul f, .imulh f, .imad f, .imin f, .imax f, .iabs f,
      .ineg f, .iadds f, .isubs f, .shl f, .shr f, .sar f, .rot f, .and f, .or f, .xor f, .andn f,
      .not f, .clz f, .ffs f, .popc f, .brev f, .bfx f, .bfi f, .icmp f, .pand f, .por f, .pxor f,
      .pnot f, .lea f]
    [.fadd f, .fsub f, .fmul f, .ffma f, .fmin f, .fmax f, .fcmp f, .fclass f, .frnd f, .cvt f,
      .qnt f, .dqnt f, .fdot f, .sclf f, .rcp f, .rsq f, .sqrt f, .exp2 f, .log2 f, .sin f, .cos f,
      .tanh f, .sigm f, .l6add f, .l6mul f, .shuf f, .bcast f, .red f, .scan f, .vote f, .cmprs f,
      .xpnd f, .time f]

/-- Those that write every lane of their vector destination. -/
def wholeRegister (f : Ny) : List Instr := [.qnt f, .cmprs f, .xpnd f, .time f]

/-- Their destinations: vector, scalar and predicate registers. QNT writes its scale to C, CMPRS its
masks to the next register, LEA of a virtual address a pair. -/
def registerDst (f : Ny) (i : Instr) : List Nat × List Nat × List Nat :=
  let more : List Nat := match i with
    | .cmprs _ => [1]
    | _ => []
  let pair : List Nat := match i with
    | .lea _ => if f.virt then [1] else []
    | _ => []
  let scale : List Nat := match f.c with
    | .sreg c _ => (match i with
      | .qnt _ => [c.toNat]
      | _ => [])
    | _ => []
  match f.a with
  | .vreg r .. => (r.toNat :: more.map (r.toNat + ·), scale, [])
  | .sreg r _ => ([], r.toNat :: pair.map (r.toNat + ·), [])
  | .special p => ([], [], [p.toNat])
  | _ => ([], [], [])

/-- The register a RISC-V operation of registers writes, if it writes one. -/
def rvDest : Rv → Option (BitVec 5)
  | .alu _ rd _ _ | .opImm _ rd _ _ | .shImm _ rd _ _ | .unary _ rd _ | .lui rd _ | .auipc rd _
  | .jal rd _ | .jalr rd _ _ => some rd
  | _ => none

end Sys2Proof.Machine

open Sys2Proof Sys2Proof.Machine

/-! ### Class 0x000 to 0x100 -/

/-- R159, R165, R166, R173, R184: each element-wise instruction of two sources writes its operation
of every element pair of B and C to A in the enabled lanes, and moves on. -/
def Says.TwoOperandElements : Prop :=
  ∀ (f : Ny) (s s1 : State) (x y : Nat → Word) (i : Instr) (g : Nat → Nat → Nat),
    (i, g) ∈ twoOperandTable f (s.core s.curCore).nbv.toNat → s.Acts i f f.vec →
    s.src2 (s.me f) f.ty f.b f.c false = .ok (s1, x, y) →
    exec i s = .next (s.onward
      (s1.writeDst (s.me f) f.a fun l => f.ty.map2 g (x l) (y l)) f)

/-- R159, R165, R168, R175, R176, R182, R183: the same for the instructions of one source. -/
def Says.OneOperandElements : Prop :=
  ∀ (f : Ny) (s s1 : State) (x : Nat → Word) (i : Instr) (g : Nat → Nat),
    (i, g) ∈ oneOperandTable f (s.core s.curCore).nbv.toNat → s.Acts i f f.vec →
    s.src (s.me f) f.ty false f.b = .ok (s1, x) →
    exec i s = .next (s.onward (s1.writeDst (s.me f) f.a fun l => f.ty.map1 g (x l)) f)

/-- R159, R164, R165, R173: the same for those that read A too. -/
def Says.ThreeOperandElements : Prop :=
  ∀ (f : Ny) (s s1 : State) (x y : Nat → Word) (i : Instr) (g : Nat → Nat → Nat → Nat),
    (i, g) ∈ threeOperandTable f → s.Acts i f f.vec →
    s.src2 (s.me f) f.ty f.b f.c false = .ok (s1, x, y) →
    exec i s = .next (s.onward
      (s1.writeDst (s.me f) f.a fun l =>
        f.ty.map3 g (s1.oldDst (s.me f) f.a l) (x l) (y l)) f)

/-- R163, R167, R169, R180, R181: logic on whole words, NOT and MOV to a register; bit fields,
SCLF and FDOT. -/
def Says.WholeWords : Prop :=
  ∀ (f : Ny) (s s1 : State) (x y : Nat → Word),
    (∀ i g, (i, g) ∈ wordTable f → s.Acts i f f.vec → s.src2 (s.me f) f.ty f.b f.c false = .ok (s1, x, y) →
      exec i s = .next (s.onward (s1.writeDst (s.me f) f.a fun l => g (x l) (y l)) f)) ∧
    (∀ i wh g, (i, wh, g) ∈ controlTable f (s1.core s.curCore).nbv.toNat →
      s.Acts i f f.vec → s.src2 (s.me f) f.ty f.b f.c wh = .ok (s1, x, y) →
      exec i s = .next (s.onward (s1.writeDst (s.me f) f.a fun l =>
        g (s1.oldDst (s.me f) f.a l) (x l) (y l)) f)) ∧
    (s.Acts (.not f) f f.vec → s.src (s.me f) f.ty false f.b = .ok (s1, x) →
      exec (.not f) s = .next (s.onward (s1.writeDst (s.me f) f.a fun l => ~~~(x l)) f))

/-- R170, R174: a compare writes, for every enabled lane, whether the condition holds for all
elements to a predicate, or element masks to a register. -/
def Says.Compares : Prop :=
  ∀ (f : Ny) (s s1 : State) (x y : Nat → Word) (i : Instr) (g : Nat → Nat → Bool),
    (i, g) ∈ compareTable f → s.Acts i f f.vec →
    s.src2 (s.me f) f.ty f.b f.c false = .ok (s1, x, y) →
    exec i s = .next (s.onward (match f.a with
      | .special p => s1.modSelf (s.me f) fun t => t.writePred p.toNat
          (fun l => (List.range f.ty.perWord).all fun j => g (f.ty.elem (x l) j) (f.ty.elem (y l) j))
          (s.me f).lanes
      | a => s1.writeDst (s.me f) a fun l =>
          f.ty.map2 (fun u v => if g u v then 2 ^ f.ty.width - 1 else 0) (x l) (y l)) f)

/-- R171: predicate logic acts on the lane bits of the enabled lanes. -/
def Says.PredicateLogic : Prop :=
  ∀ (f : Ny) (s : State) (i : Instr) (g : Bool → Bool → Bool) (p : BitVec 6),
    (i, g) ∈ predTable f → s.Acts i f true → f.a = .special p →
    exec i s = .next (s.onward (s.modSelf (s.me f) fun t => t.writePred p.toNat
      (fun l => g ((s.cur.predOf f.b).getLsbD l) ((s.cur.predOf f.c).getLsbD l)) (s.me f).lanes) f)

/-- R177 to R179: CVT converts the elements; QNT writes the scaled codes of a register to all lanes
of A and the scale to C; DQNT writes the values. -/
def Says.Conversions : Prop :=
  ∀ (f : Ny) (s : State),
    (∀ s1 x, s.Acts (.cvt f) f f.vec → s.src (s.me f) (srcTy 0x089 f) false f.b = .ok (s1, x) →
      exec (.cvt f) s = .next (s.onward (s1.writeDst (s.me f) f.a fun l =>
        cvtWord (s1.core s.curCore).nbv.toNat (srcTy 0x089 f) f.ty (rmOf f) (!nosat f) (x l)) f)) ∧
    (∀ r sel swz neg abs low c clow, s.Acts (.qnt f) f false → f.a = .vreg r sel swz neg abs low →
      f.c = .sreg c clow →
      let xs := (List.range 32).map fun l => fp32 (s.srcLane (s.me f) .f32 false f.b l)
      let e := chooseScale f.ty xs
      exec (.qnt f) s = .next (s.onward ((s.writeAll (s.me f) r.toNat
        (packWords f.ty (xs.map fun x => if e = 255 then 0
          else f.ty.cvt (rmOf f) (!nosat f) (x.scale (127 - (e : Int)))))).modSelf (s.me f)
            fun t => t.setS c.toNat (BitVec.ofNat 32 e)) f)) ∧
    (s.Acts (.dqnt f) f f.vec →
      exec (.dqnt f) s = .next (s.onward (s.writeDst (s.me f) f.a fun l =>
        dqntE (s.core s.curCore).nbv.toNat f.ty (rmOf f) ((s.scalar (s.me f) f.c).toNat % 256)
          (f.ty.elem (s.srcLane (s.me f) f.ty false f.b (l / f.ty.perWord)) (l % f.ty.perWord))) f))

/-- R163: MOV to a register, to a predicate, to a neighbour window, and to a mailbox through a
role. Every lane that a window or mailbox write covers must stay within 2,047. -/
def Says.Moves : Prop :=
  ∀ (f : Ny) (s s1 : State) (x : Nat → Word), s.Acts (.mov f) f (movVec f) →
    s.src (s.me f) f.ty false f.b = .ok (s1, x) →
    match f.a with
    | .nwin p off => (∀ l ∈ sigLanes f (s.me f), off.toNat + l ≤ 2047) →
      exec (.mov f) s = .next (s.onward ((sigLanes f (s.me f)).foldl (fun s' l =>
        s'.signalWindow (s.me f) (s1.nwinTarget s.curCore p.toNat).1
          (s1.nwinTarget s.curCore p.toNat).2 (off.toNat + l) (x l)) s1) f)
    | .role r off => (∀ l ∈ sigLanes f (s.me f), off.toNat + l ≤ 2047) →
      ∀ tg, s.resolve s.curCore r.toNat = .ok tg → tg.coreOf.isSome = true →
      exec (.mov f) s = .next (s.onward ((sigLanes f (s.me f)).foldl (fun s' l =>
        s'.signalRole (s.me f) tg (off.toNat + l) (x l)) s1) f)
    | .special p => exec (.mov f) s = .next (s.onward (s1.modSelf (s.me f) fun t =>
        t.writePred p.toNat (fun l => x l != 0) (s.me f).lanes) f)
    | a => exec (.mov f) s = .next (s.onward (s1.writeDst (s.me f) a x) f)

/-- R172: LEA of a space with offsets keeps the offset in its space; of a virtual address it adds
C, sign-extended, to the pair in B and writes the canonical sum to the pair in A. -/
def Says.EffectiveAddress : Prop :=
  ∀ (f : Ny) (s s1 : State) (x y : Nat → Word), s.Acts (.lea f) f f.vec →
    (f.virt = false → s.src2 (s.me f) f.ty f.b f.c false = .ok (s1, x, y) →
      exec (.lea f) s = .next (s.onward (s1.writeDst (s.me f) f.a fun l =>
        leaOffset f.spc (s.originOf s.curCore) (x l) (y l)) f)) ∧
    (∀ ra la rb lb, f.virt = true → f.a = .sreg ra la → f.b = .sreg rb lb →
      s.src (s.me f) f.ty true f.c = .ok (s1, y) →
      exec (.lea f) s = .next (s.onward (s1.modSelf (s.me f) fun t => t.setPair ra.toNat
        ((((s1.mt s.curCore s.curMt).sreg (rb.toNat + 1) ++ (s1.mt s.curCore s.curMt).sreg rb.toNat
          : BitVec 64) + (y 0).signExtend 64).setWidth 48 |>.signExtend 64)) f))

/-- R186 to R189: SHUF and BCAST pick lanes, RED writes the tree's result, SCAN the running
prefixes, VOTE the enabled lanes that are true. -/
def Says.LaneExchange : Prop :=
  ∀ (f : Ny) (s s1 : State) (x : Nat → Word),
    (s.src (s.me f) f.ty true f.c = .ok (s1, x) →
      (s.Acts (.shuf f) f f.vec → exec (.shuf f) s = .next (s.onward (s1.writeDst (s.me f) f.a fun l =>
        s1.srcLane (s.me f) f.ty false f.b (shufLane f.md.toNat l ((x l).toNat % 32))) f)) ∧
      (s.Acts (.bcast f) f f.vec → exec (.bcast f) s = .next (s.onward (s1.writeDst (s.me f) f.a fun _ =>
        s1.srcLane (s.me f) f.ty false f.b ((x 0).toNat % 32)) f))) ∧
    (s.src (s.me f) f.ty false f.b = .ok (s1, x) →
      (s.Acts (.red f) f f.vec → exec (.red f) s = .next (s.onward (s1.writeDst (s.me f) f.a fun _ =>
        redTree f.ty f.md.toNat ((List.range 32).map fun l =>
          if (s.me f).on l then x l else idWord f.ty f.md.toNat)) f)) ∧
      (s.Acts (.scan f) f f.vec → exec (.scan f) s = .next (s.onward (s1.writeDst (s.me f) f.a fun l =>
        (((scanGo f.ty f.md.toNat x (s.me f).lanes (idWord f.ty f.md.toNat)).find? (·.1 == l)).map
          (·.2)).getD 0) f))) ∧
    (s.Acts (.vote f) f f.vec → exec (.vote f) s = .next (s.onward (match f.a with
      | .special p => s.modSelf (s.me f) fun t => t.writePred p.toNat
          (fun _ => if f.md = 1 then (s.me f).lanes.any (s.truth (s.me f) f.b)
            else (s.me f).lanes.all (s.truth (s.me f) f.b)) (s.me f).lanes
      | a => s.writeDst (s.me f) a fun _ => (s.me f).lanes.foldl
          (fun m l => if s.truth (s.me f) f.b l then m ||| (1#32 <<< l) else m) 0) f))

/-- R112, R190, R191: CMPRS writes the kept values to A and the masks to the next register, XPND
puts the values back where the masks stand. -/
def Says.CompressExpand : Prop :=
  ∀ (f : Ny) (s : State) (r : BitVec 6) (sel swz : BitVec 3) (neg abs : Bool) (low : BitVec 5),
    f.a = .vreg r sel swz neg abs low →
    let n := (cmprsShape f.md.toNat).1
    let g := (cmprsShape f.md.toNat).2
    let xs := regElems f.ty (s.srcLane (s.me f) f.ty false f.b)
    let gs := groupsOf g 256 xs
    let mask := packElems 32 ((List.range 32).map fun l =>
      (s.srcLane (s.me f) f.ty false f.c l).toNat)
    (s.Acts (.cmprs f) f false → exec (.cmprs f) s = .next (s.onward ((s.writeAll (s.me f) r.toNat
        (packWords f.ty (gs.flatMap (keptOf f.ty n)))).writeAll (s.me f) (r.toNat + 1)
          fun l => BitVec.ofNat 32 (packElems g (gs.map (maskOf f.ty n)) / 2 ^ (32 * l))) f)) ∧
    (s.Acts (.xpnd f) f false → exec (.xpnd f) s = .next (s.onward (s.writeAll (s.me f) r.toNat (packWords f.ty
      ((List.range (32 * f.ty.perWord / g)).flatMap fun i =>
        xpndGroup n g (mask / 2 ^ (g * i)) ((xs.drop (n * i)).take n)))) f))

/-! ### Class 0x180 -/

/-- R192, R194: BRA, BRX and LOOP go to their target when they are taken, and on when not. A target that
the block may not be left for raises the illegal-operand exception of R368 and R369. The model's choices:
its VAL is the low 32 bits of the target (log 13), and an address of the block at which no instruction
starts counts as outside it (log 12). -/
def Says.Branches : Prop :=
  ∀ (f : Ny) (s : State),
    (s.Acts (.bra f) f false → exec (.bra f) s = .next (if s.branchHolds f
      then s.branched s 0x180 f (s.cur.pc + BitVec.ofInt 64 (4 * immInt f.b))
      else s.onward s f)) ∧
    (∀ r low, s.Acts (.brx f) f false → f.b = .sreg r low →
      exec (.brx f) s = .next (if s.branchHolds f then
        (if (s.cur.sreg r.toNat).toNat % 4 = 0
          then s.branched s 0x181 f (s.cur.pc + (s.cur.sreg r.toNat).signExtend 64)
          else s.trapped 0x181 f { Exn.mk' 3 6 with val := s.cur.sreg r.toNat })
        else s.onward s f)) ∧
    (∀ r low, s.Acts (.loop f) f false → f.a = .sreg r low →
      let t := s.modSelf (s.me f) fun t => t.setS r.toNat (t.sreg r.toNat - 1)
      exec (.loop f) s = .next (if s.cur.sreg r.toNat - 1 != 0
        then s.branched t 0x183 f (s.cur.pc + BitVec.ofInt 64 (4 * immInt f.b))
        else s.onward t f))

/-- R162, R196, R193, R57, R198: NOP only moves on; YIELD makes the micro-thread the youngest;
BFETCH names the continuation of the block that runs; CTSIG sets the signal bit; CTWAIT clears the
release bit and closes the region, or waits for it; STOP ends the run. -/
def Says.SimpleControl : Prop :=
  ∀ (f : Ny) (s : State),
    (s.Acts (.nop f) f false → exec (.nop f) s = .next (s.onward s f)) ∧
    (s.Acts (.yield f) f false → exec (.yield f) s = .next (s.onward
      (s.modSelf (s.me f) fun t => { t with age := s.youngest s.curCore s.curMt }) f)) ∧
    (s.Acts (.bfetch f) f false → exec (.bfetch f) s = .next (s.onward (s.modSelf (s.me f) fun t =>
      { t with block := t.block.map fun b =>
        { b with cont := some (s.cur.pc + BitVec.ofInt 64 (4 * immInt f.a)) } }) f)) ∧
    (s.Acts (.ctsig f) f false → exec (.ctsig f) s =
      .next (s.onward (s.modSelf (s.me f) fun t => { t with sig := true }) f)) ∧
    (s.Acts (.ctwait f) f false → exec (.ctwait f) s = .next (if s.cur.rel
      then s.onward ((s.modSelf (s.me f) fun t => { t with rel := false }).closeRegion
        (s.me f).agent) f
      else s.blockedOn s (.ctwait f))) ∧
    (s.Acts (.stop f) f false →
      exec (.stop f) s = .next (s.finish s.curCore s.curMt f.hint .halt false))

/-- R116, R195: a REP whose run passes its checks sets REPCNT to n and the steps of the fields. A cycle
of its stall hint lasts 2/3 ns (log 36). -/
def Says.RepeatBegins : Prop :=
  ∀ (f : Ny) (s : State), s.Acts (.rep f) f false → s.Runs s.curCore s.curMt →
    repCheck (repRun f) (s.wordAfter s.curCore s.curMt) = .ok () →
    ∃ t, exec (.rep f) s = .next t ∧
      t.cur = { s.cur with
        st := .running, blocked := none, resumed := false, pc := s.cur.pc + 12
        repcnt := (immInt f.a).toNat
        rep := some ⟨(immInt f.a).toNat, (immInt f.b).toNat % 4, (immInt f.b).toNat / 4 % 4,
          (immInt f.b).toNat / 16 % 4⟩
        stl := s.now + stallNs f.hint.stl.toNat
        age := if f.hint.yld ∨ s.cur.st = .waiting then s.youngest s.curCore s.curMt
          else s.cur.age }

/-- R56, R197: LNKW puts its 32 lanes into the channel or waits while it holds four entries; LNKR
takes the oldest entry or waits while there is none. Either lets a lower micro-thread that waits for the
same go first. -/
def Says.LinkChannels : Prop :=
  ∀ (f : Ny) (s : State),
    let q (o : Operand) : List (Cells Word) := Cells.look [] (s.core s.curCore).links (linkNo o)
    (s.Acts (.lnkw f) f false → exec (.lnkw f) s = .next (if (q f.a).length < 4 ∧
        s.lowerWaits (s.me f) (s.writesLink (linkNo f.a)) = false
      then s.onward (s.modHome (s.me f) fun k => { k with
        links := k.links.put [] (linkNo f.a) (q f.a ++ [s.linkEntry (s.me f) f.b]) }) f
      else s.blockedOn s (.lnkw f))) ∧
    (s.Acts (.lnkr f) f false → q f.b = [] → exec (.lnkr f) s = .next (s.blockedOn s (.lnkr f))) ∧
    (s.Acts (.lnkr f) f false → s.lowerWaits (s.me f) (s.readsLink (linkNo f.b)) = true →
      exec (.lnkr f) s = .next (s.blockedOn s (.lnkr f))) ∧
    (∀ e rest, s.Acts (.lnkr f) f false → q f.b = e :: rest →
      s.lowerWaits (s.me f) (s.readsLink (linkNo f.b)) = false →
      let t := s.modHome (s.me f) fun k => { k with links := k.links.put [] (linkNo f.b) rest }
      (∀ r sel swz neg abs low, f.a = .vreg r sel swz neg abs low →
        exec (.lnkr f) s = .next (s.onward
          (t.writeAll (s.me f) r.toNat fun l => Cells.look 0 e l) f)) ∧
      (∀ r low, f.a = .sreg r low →
        exec (.lnkr f) s = .next (s.onward
          (t.modSelf (s.me f) fun x => x.setS r.toNat (Cells.look 0 e 0)) f)))

/-- R199: TRAP takes cause 0x10 and BRKP cause 0x11, with their code in INFO and the address of the
next instruction as the PC of the record. -/
def Says.SoftwareTraps : Prop :=
  ∀ (f : Ny) (s : State), s.Alone → (s.me f).on 0 = true →
    let e (code : Nat) : Exn := { Exn.mk' code 0 with info := BitVec.ofInt 32 (immInt f.a) }
    exec (.trap f) s = .next (s.takeTrap s.curCore s.curMt none s.cur.nextPc 0 (e 0x10)) ∧
    exec (.brkp f) s = .next (s.takeTrap s.curCore s.curMt none s.cur.nextPc 0 (e 0x11))

/-- R53, R55, R200: GANG joins the cores of its width when every follower is idle and of the
launch, wakes those that are gated, and says so in its predicate; UNGANG of a leader disbands its gang.
The model's choice (log 11): the predicate of the leader alone is written, and the leader's guard alone
decides UNGANG. -/
def Says.Gangs : Prop :=
  ∀ (f : Ny) (s : State),
    (∀ p, s.Acts (.gang f) f false → f.a = .special p →
      let ms := gangCores s.curCore (immInt f.b).toNat
      let joined := ms.foldl (fun s' x => s'.modMt x s.curMt fun t =>
        if x = s.curCore then { t with gang := some (.leader ms) }
        else { t with gang := some (.follower s.curCore), st := .running, block := none }) s
      let awake := ms.foldl (fun s' x => if x = s.curCore then s' else s'.wake x) joined
      exec (.gang f) s = .next (if s.gangOk s.curCore s.curMt ms
        then s.onward (awake.modSelf (s.me f) fun t => t.setP p.toNat 0xFFFFFFFF) f
        else s.onward (s.modSelf (s.me f) fun t => t.setP p.toNat 0) f)) ∧
    (∀ ms, s.cur.gang = some (.leader ms) → s.deadline s.curMt ms = none → s.curCore ∈ ms → ms.Nodup →
      (s.me f).on 0 = true →
      (∀ x ∈ ms, s.heldBack 0x18E f (s.who s.curMt ms f.guard x) = false) →
      exec (.ungang f) s = .next (s.onward (s.disband s.curCore s.curMt) f))

/-- R54, R123, R159: what a leader issues acts in every member of its gang, each with its own registers,
guard lanes and gang lane numbers. With no lane of any member enabled it only moves on, REP apart; an
element-wise instruction writes its result in each member that it acts for. -/
def Says.GangResults : Prop :=
  ∀ (i : Instr) (op : Nat) (f : Ny) (s : State) (ms : List Nat),
    let m := s.curMt
    let w (x : Nat) : Who := s.who m ms f.guard x
    i.ny? = some (op, f) → s.cur.gang = some (.leader ms) → ms.Nodup → s.curCore ∈ ms →
    s.deadline m ms = none →
    (op ≠ 0x184 → (∀ x ∈ ms, (s.mt x m).guardMask f.guard = 0) → exec i s = .next (s.onward s f)) ∧
    (∀ n, (∀ x ∈ ms, (s.core x).nbv.toNat = n) → (∀ x ∈ ms, s.heldBack op f (w x) = false) →
      (∀ q, f.b ≠ .stream q ∧ f.c ≠ .stream q) →
      let wrote (res : Who → Nat → Word) : Prop := ∃ t, exec i s = .next t ∧ ∀ x ∈ ms,
        let y := if (w x).acts f.vec then (s.writeDst (w x) f.a (res (w x))).mt x m else s.mt x m
        (t.mt x m).v = y.v ∧ (t.mt x m).s = y.s
      let b (w : Who) : Nat → Word := s.srcLane w f.ty false f.b
      let c (w : Who) : Nat → Word := s.srcLane w f.ty false f.c
      (∀ g, (i, g) ∈ oneOperandTable f n → wrote fun w l => f.ty.map1 g (b w l)) ∧
      (∀ g, (i, g) ∈ twoOperandTable f n → wrote fun w l => f.ty.map2 g (b w l) (c w l)) ∧
      (∀ g, (i, g) ∈ threeOperandTable f →
        wrote fun w l => f.ty.map3 g (s.oldDst w f.a l) (b w l) (c w l)))

/-- R201, R203: SLEEP sets TDEAD and waits until the package counter reaches it; TIME writes the
counter. -/
def Says.SleepAndTime : Prop :=
  ∀ (f : Ny) (s : State),
    let d := (s.scalar (s.me f) f.a).toNat
    let t := s.modSelf (s.me f) fun t => { t with tdead := s.now + d }
    (s.Acts (.sleep f) f false → s.cur.blocked = none →
      exec (.sleep f) s = .next (if d = 0 then s.onward t f else s.blockedOn t (.sleep f))) ∧
    (s.Acts (.sleep f) f false → s.cur.blocked = some (.sleep f) →
      exec (.sleep f) s = .next (if s.cur.tdead ≤ s.now then s.onward s f
        else s.blockedOn s (.sleep f))) ∧
    (∀ r sel swz neg abs low, s.Acts (.time f) f false → f.a = .vreg r sel swz neg abs low →
      exec (.time f) s = .next (s.onward (s.writeAll (s.me f) r.toNat fun l =>
        match l with
        | 0 => BitVec.ofNat 32 s.now
        | 1 => BitVec.ofNat 32 (s.now / 2 ^ 32)
        | _ => 0) f)) ∧
    (∀ r low, s.Acts (.time f) f false → f.a = .sreg r low →
      exec (.time f) s = .next (s.onward
        (s.modSelf (s.me f) fun t => t.setS r.toNat (BitVec.ofNat 32 s.now)) f))

/-- R202, R362: TWAIT sets the deadline and binds the next instruction. A bound CTWAIT whose condition
holds when it is judged sets the predicate to ones; one whose condition does not hold at the deadline
is given up, with zeros; before it, it waits. -/
def Says.TimedWait : Prop :=
  ∀ (f : Ny) (s : State) (p : Nat),
    (∀ q, s.Acts (.twait f) f false → f.a = .special q →
      exec (.twait f) s = .next (s.onward (s.modSelf (s.me f) fun t =>
        { t with tdead := s.now + (s.scalar (s.me f) f.b).toNat, bound := some q.toNat }) f)) ∧
    (s.cur.gang = none → s.cur.bound = some p → (s.me f).on 0 = true → s.Clear (.ctwait f) →
      let give (t : State) (v : Word) : State :=
        t.modMt s.curCore s.curMt fun x => { x.setP p v with bound := none }
      (s.cur.rel = true →
        exec (.ctwait f) s = .next (s.onward (give ((s.modSelf (s.me f) fun t =>
          { t with rel := false }).closeRegion (s.me f).agent) 0xFFFFFFFF) f)) ∧
      (s.cur.rel = false → s.cur.tdead ≤ s.now →
        exec (.ctwait f) s = .next (s.onward (give (s.abandon s.curCore s.curMt) 0) f)) ∧
      (s.cur.rel = false → s.now < s.cur.tdead →
        exec (.ctwait f) s = .next (s.blockedOn s (.ctwait f))))

/-! ### Class 0x200 -/

/-- R205, R206, R214, R340, R374, R385: loads and stores whose addresses pass their checks, whose
handle does not wait, which meet no poison and no conflict, and whose channels are free, move their
words. A load waits for an atomic of its own core on the same bytes; a store to LQDB is a release, which
waits for the agent's messages; words that make up a line are stored as one. -/
def Says.LoadsAndStores : Prop :=
  ∀ (f : Ny) (s s1 s2 s3 : State) (as : List Access),
    let w := s.me f
    let loaded : State :=
      (s3.loadWords w f.spc as).1.writeDst w f.a fun l => laneOf (s3.loadWords w f.spc as).2 l
    let stored : State :=
      (s3.doorbell w as).storeWords w f.spc (as.map fun a => (a.loc, s3.oldDst w f.a a.lane))
    let loads : Prop := s1.poisonOf as = .ok () ∧ s1.registerAll w f.spc 4 false false as = .ok s2 ∧
      (∀ a ∈ as, s2.rmwAhead s.curCore a.loc 4 = false) ∧ s2.passChannels as = .ok s3
    let stores : Prop := s1.registerAll w f.spc 4 true false as = .ok s2 ∧
      s2.passChannels as = .ok s3 ∧ s3.doorbellCheck w as = .ok ()
    (s.Acts (.ld f) f f.vec → s.ldAccess w f .read f.b f.c f.vec = .ok as →
      s.handleWait w f.b f.spc = .ok s1 → loads → exec (.ld f) s = .next (s.onward loaded f)) ∧
    (s.Acts (.st f) f f.vec → s.ldAccess w f .write f.b f.c f.vec = .ok as →
      s.handleWait w f.b f.spc = .ok s1 → stores → exec (.st f) s = .next (s.onward stored f)) ∧
    (s.Acts (.ldx f) f f.vec → s1 = s →
      s.checkAddrs s.curCore f.spc .read (s.ldxAddrs w f w.lanes) = .ok as → loads →
      exec (.ldx f) s = .next (s.onward loaded f)) ∧
    (s.Acts (.stx f) f f.vec → s1 = s →
      s.checkAddrs s.curCore f.spc .write (s.ldxAddrs w f w.lanes) = .ok as → stores →
      exec (.stx f) s = .next (s.onward stored f))

/-- R64, R84, R204, R206: a scalar LD or ST in the space of the core's own scratchpad: the address is
the base register plus the offset; it must be a multiple of 4 and lie below 512 KiB; with nothing of
the core outstanding the word is read there; it is written there at once, or after the micro-thread's
later accesses through other spaces, and no other byte of the scratchpad changes. -/
def Says.ScratchpadWord : Prop :=
  ∀ (f : Ny) (s : State) (ra rb : BitVec 5) (la lb : BitVec 5) (v : BitVec 19),
    f.spc = 1 → f.a = .sreg ra la → f.b = .sreg rb lb → f.c = .imm v →
    s.Runs s.curCore s.curMt → s.cur.repcnt ≤ 1 → s.poison = [] →
    Memory.wf (s.core s.curCore).scratch = true →
    (s.core s.curCore).lateStores = [] → (s.core s.curCore).earlyLoads = [] →
    let a : Int := (s.cur.sreg rb.toNat).toNat + v.toInt
    let k := s.core s.curCore
    (s.Acts (.ld f) f false →
      (a % 4 ≠ 0 → exec (.ld f) s = .next (s.trapped 0x200 f
        { Exn.mk' 4 0 with addr := BitVec.ofInt 64 a })) ∧
      (a % 4 = 0 → ¬(0 ≤ a ∧ a < 0x80000) → exec (.ld f) s = .next (s.trapped 0x200 f
        { Exn.mk' 5 0 with addr := BitVec.ofInt 64 a })) ∧
      (a % 4 = 0 → 0 ≤ a → a < 0x80000 →
        ∃ t, exec (.ld f) s = .next t ∧ t.cur.sreg ra.toNat = Memory.word k.scratch a.toNat ∧
          t.cur.pc = s.cur.pc + 12 ∧ (t.core s.curCore).scratch = k.scratch)) ∧
    (s.Acts (.st f) f false → a % 4 = 0 → 0 ≤ a → a < 0x80000 →
      ∃ t, exec (.st f) s = .next t ∧ t.cur.pc = s.cur.pc + 12 ∧
        ((Memory.word (t.core s.curCore).scratch a.toNat = s.cur.sreg ra.toNat ∧
          (t.core s.curCore).lateStores = [] ∧
          ∀ b, ¬(a.toNat ≤ b ∧ b < a.toNat + 4) →
            Memory.byte (t.core s.curCore).scratch b = Memory.byte k.scratch b) ∨
        ((t.core s.curCore).scratch = k.scratch ∧ (t.core s.curCore).lateStores =
          [⟨s.curMt, 1, s.curCore, a.toNat, s.cur.sreg ra.toNat, false⟩])))

/-- R89, R207: STSB sends each enabled lane's low four bits to the owner of its nibble, whose number
is twice the base plus the offset plus the lane. One in LQDB is a release (R311). -/
def Says.NibbleStores : Prop :=
  ∀ (f : Ny) (s s1 : State) (ns : List Nibble), s.Acts (.stsb f) f f.vec →
    let w := s.me f
    let b : Int := if f.virt then (s.basePair w f.b).toNat else (s.scalar w f.b).toNat
    (f.virt && !canonical (s.basePair w f.b)) = false →
    s.nibbles s.curCore f.spc ((accLanes f.vec w).map fun l =>
      (l, 2 * b + (s.scalar w f.c).toInt + l)) = .ok ns →
    let as : List Access := ns.map fun n => ⟨n.lane, n.va, n.loc⟩
    s.registerAll w f.spc 1 true true as = .ok s1 → s1.doorbellCheck w as = .ok () →
    exec (.stsb f) s = .next (s.onward (ns.foldl (fun t n =>
      t.sendNibble w n.loc n.high
        ((s1.srcLane w f.ty false f.a n.lane).setWidth 4)) (s1.doorbell w as)) f)

/-- R70, R71, R209, R210, R314: LDF reads words whose full bits are all set and clears the bits, or
waits while one is clear; a word written from another package is acquired at .dom scope. FBCLR clears
the bits of a run. -/
def Says.FullBits : Prop :=
  ∀ (f : Ny) (s : State) (ws : FullSet),
    (s.Acts (.ldf f) f f.vec →
      s.fullWords (s.me f) f.b f.c (accLanes f.vec (s.me f)) = .ok ws →
      let as := ws.accesses s.curCore
      let t := s.settle s.curCore s.curMt
      let u := (t.modHome (s.me f) (·.clearFull ws)).closeRegion (s.me f).agent
      ((s.core s.curCore).isFull ws = false →
        exec (.ldf f) s = .next (s.blockedOn s (.ldf f))) ∧
      ((s.core s.curCore).isFull ws = true → t.poisonOf as = .ok () →
        exec (.ldf f) s = .next (s.onward
          ((if (t.core s.curCore).fromAfar ws then u.acquireDom s.curCore else u).writeDst (s.me f)
            f.a fun l => laneOf (as.map fun a => (a.lane, t.readW a.loc)) l) f))) ∧
    (∀ x n, s.Acts (.fbclr f) f false →
      s.fullWords (s.me f) f.a f.b [0] = .ok (.mailbox [(0, x)]) →
      (s.scalar (s.me f) f.c).toNat = n → 1 ≤ n → x + n ≤ 2048 →
      exec (.fbclr f) s = .next (s.onward (s.modHome (s.me f) (·.clearFull
        (.mailbox ((List.range n).map fun i => (i, x + i))))) f)) ∧
    (∀ x n, s.Acts (.fbclr f) f false →
      s.fullWords (s.me f) f.a f.b [0] = .ok (.window [(0, x)]) →
      (s.scalar (s.me f) f.c).toNat = n → 1 ≤ n → n ≤ 2048 → x < 6144 →
      (x + n - 1) / 2048 = x / 2048 →
      exec (.fbclr f) s = .next (s.onward (s.modHome (s.me f) (·.clearFull
        (.window ((List.range n).map fun i => (i, x + i))))) f))

/-- R208: PREF and WBACK change no value that an agent reads: where their checks pass they only move
on. A HANDLE base of PREF, with its slot offset, is checked and waits as in a load: the model's reading
(log 20) beside R370, by which PREF never faults, with the VAL of log 13. INVAL drops the core's copies of lines
of other packages in its range, RRO lines too. -/
def Says.CacheHints : Prop :=
  ∀ (f : Ny) (s : State),
    let n := s.scalar (s.me f) f.c
    let p := s.basePair (s.me f) f.b
    (s.Acts (.pref f) f false → (∀ h w o, f.b ≠ .handle h w o) → exec (.pref f) s = .next (s.onward s f)) ∧
    (∀ h w o x q, s.Acts (.pref f) f false → f.b = .handle h w o →
      s.useHandle (s.me f) h.toNat f.spc = .ok (x, q) →
      (x.slot < o.toNat * 32 + 4 → exec (.pref f) s = .next (s.trapped 0x204 f
        { Exn.mk' 3 6 with val := o.setWidth 32 })) ∧
      (o.toNat * 32 + 4 ≤ x.slot → exec (.pref f) s = .next (if w = 0 then s.onward s f
        else if x.ready q w.toNat then s.onward (s.closeRegion (s.me f).agent) f
        else s.blockedOn s (.pref f)))) ∧
    (s.Acts (.wback f) f false → 1 ≤ n.toNat → n.toNat ≤ 1048576 → exec (.wback f) s = .next (s.onward s f)) ∧
    (s.Acts (.inval f) f false → 1 ≤ n.toNat → n.toNat ≤ 1048576 → canonical p = true →
      s.untranslated s.curCore p ((p.toNat % 4096 + n.toNat + 4095) / 4096) = none →
      exec (.inval f) s = .next (s.onward { s with remoteLines := s.remoteLines.filter fun r =>
        r.core != s.curCore || !(s.remoteIn s.curCore p n.toNat).contains r.line } f))

/-- R211 to R213: HBIND of a valid control block that the micro-thread may bind, with room at the
home and a free channel, binds the handle; the first binding reads the pointers. -/
def Says.HandleBinding : Prop :=
  ∀ (f : Ny) (s s1 s2 : State) (key hk : Nat) (q : Qcb), s.Acts (.hbind f) f false →
    let p := s.basePair (s.me f) f.b
    canonical p = true → p.toNat % 64 = 0 → s.virtLoc s.curCore 4 .read p 0 = .ok (.dram key) →
    s.poisoned (.dram key) = false → s.readQcb s.curCore key = some (hk, q) →
    s.mayBind s.curCore q.spc key (s.qhome hk) = true →
    ((s.qhome hk).isNone && decide (homeCap q.spc ≤ s.homeLoad s.curCore q.spc key)) = false →
    s.registerAll (s.me f) 4 64 false false [⟨0, p, .dram key⟩] = .ok s1 →
    s1.passChannels [⟨0, p, .dram key⟩] = .ok s2 →
    exec (.hbind f) s = .next (s.onward (s2.bindHandle s.curCore s.curMt (handleNo f.a) p hk
      (decide (immInt f.c = 1)) none q) f)

/-- R215: ADVP on a producer's handle adds n to PROD where n slots are free, ADVC on a consumer's
adds n to CONS where n are filled; either is a release, steps HGEN and gives back the port's
reservation. Past the limit the queue exception with DETAIL 7 is raised. A paired core sends its update
of a queue in shared memory as a message and waits for the answer (R378). -/
def Says.QueuePointers : Prop :=
  ∀ (f : Ny) (s : State) (x : Handle) (prod : Bool),
    s.cur.handle (handleNo f.a) = some x →
    let w := s.me f
    let n := s.scalar w f.b
    n ≠ 0 →
    let i : Instr := if prod then .advp f else .advc f
    s.Acts i f false →
    let faulted := s.trapped (if prod then 0x206 else 0x207) f
      { Exn.mk' 9 7 with val := BitVec.ofNat 32 (handleNo f.a) }
    let moved (t : State) : State :=
      let t := t.modSelf w fun t => t.stepHgen (handleNo f.a)
      match x.port with
      | some p => t.unreserve s.curCore s.curMt p n.toNat
      | none => t
    (∀ q, s.cur.asked = [] → s.qhome x.key = some q → x.prod = prod →
      let q' : QHome := if prod then { q with prod := q.prod + n } else { q with cons := q.cons + n }
      let room := if prod then q.nslot - q.filled else q.filled
      let t := s.closeRegion w.agent
      ((s.core s.curCore).pair = none ∨ q.spc < 3 →
        (n.toNat ≤ room →
          exec i s = .next (s.onward (moved { t with qhomes := t.qhomes.upd x.key q' }) f)) ∧
        (q.filled ≤ q.nslot → room < n.toNat → exec i s = .next faulted)) ∧
      ((s.core s.curCore).pair.isSome = true → 3 ≤ q.spc →
        exec i s = .next (((t.ask w [(0, epSlice (qcbSlice x.key),
          .rmw 4 x.key 4 (.advance prod n.toNat))]).leaveAll s.leader).noIssue s.curCore s.curMt))) ∧
    (∀ t old, s.answered w = some (.ok (t, old)) →
      exec i s = .next (if laneOf old 0 = 0 then s.onward (moved t) f else faulted))

/-- R216, R218: QBIND arms a stream register; QDROP of a stream register disarms it, of a handle
drops its binding. -/
def Says.StreamRegisters : Prop :=
  ∀ (f : Ny) (s : State),
    (∀ q, f.a = .stream q →
      (s.Acts (.qbind f) f false → exec (.qbind f) s = .next (s.onward
        (s.modSelf (s.me f) fun t => t.setStream q.toNat .armed) f)) ∧
      (s.Acts (.qdrop f) f false → exec (.qdrop f) s = .next (s.onward
        (s.modSelf (s.me f) fun t => t.setStream q.toNat .idle) f))) ∧
    (∀ h w o, s.Acts (.qdrop f) f false → f.a = .handle h w o →
      exec (.qdrop f) s = .next (s.onward (s.dropHandle s.curCore s.curMt h.toNat) f))

/-! ### Class 0x280 -/

/-- R219 to R221, R79: with no release held back and the channels free, ATOM, CAS and ATRED of places
that pass their checks replace the word of each lane in ascending lane order; ATOM and CAS write the old
words to A; with an order they close the region first, and an acquire of .dom scope drops the core's
copies of remote lines. Without one, what the micro-thread has outstanding in the groups of the places
goes first (R84). An atomic of a paired core in shared memory sends a request for each lane and waits
for the answers; ATRED waits for none (R378). -/
def Says.Atomics : Prop :=
  ∀ (f : Ny) (s s1 s2 s3 : State) (as : List Access) (v : Nat → Word),
    let w := s.me f
    let qual := (Operand.qual f.a).toNat
    s.atomCheck w f = .ok (s1, as) → s.cur.asked = [] →
    ¬(2 ≤ qual % 4 ∧ qual / 4 = 4 ∧ s2.unackedRemote w.agent = true) →
    s2.passChannels as = .ok s3 → s3.doorbellCheck w as = .ok () →
    let u : State := if qual % 4 ≠ 0 ∨ (as.any (·.loc.isLqdb)) = true then s3.closeRegion w.agent
      else s3.padOrderAll w f.spc as
    let far : Bool := (u.core s.curCore).pair.isSome && decide (3 ≤ f.spc)
    let acquired (t : State) : State :=
      if qual % 2 = 1 ∧ qual / 4 = 4 then t.acquireDom s.curCore else t
    let out (op : Nat → RmwOp) (g : Nat → Word → Word) : State :=
      let r := u.rmwAll s.curCore g as
      if far then ((u.ask w (rmwRequests op as)).leaveAll s.leader).noIssue s.curCore s.curMt
      else s.onward ((acquired r.1).writeDst w f.a fun l => laneOf r.2 l) f
    (s.Acts (.atom f) f f.vec → s1.src w f.ty false f.c = .ok (s2, v) →
      exec (.atom f) s = .next (out (fun l => .atom f.aop f.ty (v l))
        fun l m => atomOp f.ty f.aop m (v l))) ∧
    (s.Acts (.cas f) f f.vec → s2 = s1 →
      let c := s1.srcLane w f.ty false f.c
      let x := s1.srcLane w f.ty false f.c.succ
      exec (.cas f) s = .next (out (fun l => .cas (c l) (x l)) fun l m => if m = c l then x l else m)) ∧
    (s.Acts (.atred f) f f.vec → s2 = s1 → (∀ r o, f.b ≠ .role r o) →
      let y := s3.srcLane w f.ty false f.a
      exec (.atred f) s = .next (s.onward (acquired (if far
        then (rmwRequests (fun l => .atom f.aop f.ty (y l)) as).foldl (fun t m =>
          t.sendFor w.agent (t.regionNo w.agent) s.curCore m.2.1 0 0 m.2.2) u
        else (u.rmwAll s.curCore (fun l m => atomOp f.ty f.aop m (y l)) as).1)) f))

/-- R219: a scalar ATOM on the core's own scratchpad: the word at the address becomes the
combination of itself and operand C, and A takes what it was. -/
def Says.AtomicWord : Prop :=
  ∀ (f : Ny) (s : State) (ra rb rc : BitVec 5) (la lb lc : BitVec 5),
    s.Acts (.atom f) f false → f.spc = 1 → f.a = .sreg ra la → f.b = .sreg rb lb →
    f.c = .sreg rc lc → s.cur.asked = [] → (s.core s.curCore).lateStores = [] →
    f.ty = .s32 ∨ f.ty = .b32 → f.aop < 7 → (Operand.qual f.a).toNat / 4 ≠ 4 →
    s.Runs s.curCore s.curMt → s.cur.repcnt ≤ 1 → s.poison = [] →
    (s.core s.curCore).pair = none → Memory.wf (s.core s.curCore).scratch = true →
    let a := (s.cur.sreg rb.toNat).toNat
    let m := Memory.word (s.core s.curCore).scratch a
    let x := s.cur.sreg rc.toNat
    a % 4 = 0 → a < 0x80000 →
    ∃ t, exec (.atom f) s = .next t ∧ t.cur.sreg ra.toNat = m ∧
      Memory.word (t.core s.curCore).scratch a = (match f.aop with
        | 0 => m + x
        | 1 => if f.ty = .s32 then (if m.sle x then m else x) else (if m ≤ x then m else x)
        | 2 => if f.ty = .s32 then (if m.sle x then x else m) else (if m ≤ x then x else m)
        | 3 => m &&& x
        | 4 => m ||| x
        | 5 => m ^^^ x
        | _ => x) ∧
      ∀ b, ¬(a ≤ b ∧ b < a + 4) →
        Memory.byte (t.core s.curCore).scratch b = Memory.byte (s.core s.curCore).scratch b

/-- R222, R313, R78: FENCE, ACQ and REL close the region; a release of .dom scope does not issue
while a write of its agent to another package is unacknowledged; an acquire of .dom scope invalidates the core's
copies of remote lines, apart from RRO lines. -/
def Says.Fences : Prop :=
  ∀ (f : Ny) (s : State),
    let u := s.closeRegion (s.me f).agent
    let v : State := if f.md.toNat = 4
      then { u with remoteLines := u.remoteLines.filter fun r => r.core != s.curCore || r.rro } else u
    let held : Bool := f.md.toNat == 4 && s.unackedRemote (s.me f).agent
    (s.Acts (.acq f) f false → exec (.acq f) s = .next (s.onward v f)) ∧
    (s.Acts (.fence f) f false →
      exec (.fence f) s = .next (if held then s.notYet else s.onward v f)) ∧
    (s.Acts (.rel f) f false → exec (.rel f) s = .next (if held then s.notYet else s.onward u f))

/-- R223, R224: BAR arrives once and waits, and goes on when its phase is over; BARA arrives and
keeps its phase; BARW waits for the phase that BARA kept. BAR closes the region as it arrives, BARW as it
goes on. -/
def Says.Barriers : Prop :=
  ∀ (f : Ny) (s s1 : State) (ph : Nat) (key : BarKey),
    let w := s.me f
    let arrives := s.arrive w f.md.toNat (barId f) (s.scalar w f.b) = .ok (s1, ph)
    let acquired (t : State) : State := if f.md.toNat = 4 then t.acquireDom s.curCore else t
    (s.Acts (.bar f) f false → s.cur.arrived = none → arrives → exec (.bar f) s = .next (s.blockedOn (s1.modSelf w fun t =>
      { t with arrived := some (s.barKey s.curCore f.md.toNat (barId f), ph) }) (.bar f))) ∧
    (s.Acts (.bar f) f false → s.cur.arrived = some (key, ph) → exec (.bar f) s = .next (if s.departed key ph
      then s.onward (acquired (s.modSelf w fun t => { t with arrived := none })) f
      else s.blockedOn s (.bar f))) ∧
    (s.Acts (.bara f) f false → arrives → exec (.bara f) s = .next (s.onward
      (s1.modSelf w fun t => { t with
        bph := t.bph.upd (bphIdx f) (s1.barKey s.curCore f.md.toNat (barId f), ph) }) f)) ∧
    (s.Acts (.barw f) f false → s.cur.bph.get? (bphIdx f) = none →
      exec (.barw f) s = .next (s.onward (s.closeRegion w.agent) f)) ∧
    (s.Acts (.barw f) f false → s.cur.bph.get? (bphIdx f) = some (key, ph) →
      exec (.barw f) s = .next (if s.departed key ph
        then s.onward (acquired ((s.modSelf w fun t =>
          { t with bph := t.bph.del (bphIdx f) }).closeRegion w.agent)) f
        else s.blockedOn s (.barw f)))

/-- R223: an arrival at a .core or .tile barrier is counted at once; the K-th ends the phase. One
with another K than the phase's raises the barrier exception; a K outside 1 to 65,535 is illegal. -/
def Says.BarrierArrivals : Prop :=
  ∀ (f : Ny) (s : State) (k : Nat), s.Acts (.bara f) f false → f.md.toNat < 2 →
    s.scalar (s.me f) f.b = BitVec.ofNat 32 k → k < 2 ^ 32 →
    let w := s.me f
    let key := s.barKey s.curCore f.md.toNat (barId f)
    let b := s.barrier key
    s.barPending = [] →
    (k < 1 ∨ 65535 < k → exec (.bara f) s = .next (s.trapped 0x287 f
      { Exn.mk' 3 6 with val := BitVec.ofNat 32 k })) ∧
    (1 ≤ k → k ≤ 65535 → ∀ k', b.k = some k' → b.count < k' → k' ≠ k →
      exec (.bara f) s = .next (s.trapped 0x287 f
        { Exn.mk' 12 1 with val := BitVec.ofNat 32 (barId f) })) ∧
    (1 ≤ k → k ≤ 65535 → b.k = none ∨ b.k = some k ∧ b.count < k →
      exec (.bara f) s = .next (s.onward (((s.closeRegion w.agent).setBarrier
        (if b.count + 1 < k then { b with count := b.count + 1, k := some k }
        else { b with phase := b.phase + 1, count := 0, k := none })).modSelf w fun t =>
          { t with bph := t.bph.upd (bphIdx f) (key, b.phase) }) f))

/-- R87, R225, R226: CWAIT goes on once bits 61 to 0 of the counter have reached its target, and
waits until then; CADD adds, saturates, and keeps the error bit. A paired core's increment outside its
scratchpads is a message (R378). The model's choice (log 21): CWAIT is checked and entered in its region
as a read. -/
def Says.Counters : Prop :=
  ∀ (f : Ny) (s s1 s2 : State) (q : Access),
    let w := s.me f
    (s.Acts (.cwait f) f false → s.counterPlace w f .read = .ok q → s.counterPoison q = .ok () →
      s.registerAll w f.spc 8 false false [q] = .ok s1 → s1.passChannels [q] = .ok s2 →
      let hi := if f.c = Operand.zero then 0 else (s1.scalar w f.c).toNat % 2 ^ 30
      let u := s2.padOrderAll w f.spc [q]
      exec (.cwait f) s =
        .next (if (s1.scalar w f.b).toNat + hi * 2 ^ 32 ≤ leNat (u.bytesAt q.loc 8) % 2 ^ 62
          then s.onward ((u.closeRegion w.agent).acquireCounter s.curCore q.loc) f
          else s.blockedOn s (.cwait f))) ∧
    (s.Acts (.cadd f) f false → s.counterPlace w f .write = .ok q → s.counterPoison q = .ok () →
      s.registerAll w f.spc 8 true true [q] = .ok s1 → s1.passChannels [q] = .ok s2 →
      s2.doorbellCheck w [q] = .ok () →
      let u := (s2.doorbell w [q]).padOrderAll w f.spc [q]
      u.fencedPlace s.curCore q.loc = false →
      let m := leNat (u.bytesAt q.loc 8)
      let sum := m % 2 ^ 62 + (s1.scalar w f.b).toNat
      let err : Bool := decide (immInt f.c = 1) || pteBit m 63 || decide (2 ^ 62 - 1 < sum)
      let n := min sum (2 ^ 62 - 1) + if err then 2 ^ 63 else 0
      exec (.cadd f) s = .next (s.onward (match (u.core s.curCore).pair, q.loc.station with
        | some _, some (kd, a, ep) => u.sendFor w.agent (u.regionNo w.agent) s.curCore ep 0 0
            (.rmw kd a 8 (.counter (s1.scalar w f.b).toNat (decide (immInt f.c = 1))))
        | _, _ => match q.loc with
          | .device pa => u.devWrite pa 8 (BitVec.ofNat 64 n)
          | .pcie _ => u
          | l => u.writeBy s.curCore l (leBytes 8 n)) f))

/-- R228, R227: INBX takes the oldest record that fits its tag into the enabled lanes, and waits while
there is none, or while the control thread or a lower micro-thread waits for the same record; a
completion that waited for room takes its place. INBP counts the records. The model's choice (log 13): the
vector form of INBX and INBP. -/
def Says.Inbox : Prop :=
  ∀ (f : Ny) (s : State),
    let w := s.me f
    let tag : Option (BitVec 16) :=
      if f.b = Operand.zero then none else some ((s.scalar w f.b).setWidth 16)
    (s.Acts (.inbx f) f f.vec →
      ((s.core s.curCore).takeRec tag = none →
        exec (.inbx f) s = .next (s.blockedOn s (.inbx f))) ∧
      (∀ r k, (s.core s.curCore).takeRec tag = some (r, k) →
        let later : Bool := (s.core s.curCore).ctinbxRec == some r ||
          s.lowerWaits w (s.takesRec s.curCore r)
        exec (.inbx f) s = .next (if later then s.blockedOn s (.inbx f) else
          s.onward ((((s.setCore s.curCore k).closeRegion w.agent).writeDst w
            f.a fun l => r.words.getD l 0).refill s.curCore) f))) ∧
    (s.Acts (.inbp f) f f.vec →
      exec (.inbp f) s = .next (s.onward (s.writeDst w f.a fun _ =>
        BitVec.ofNat 32 (s.core s.curCore).inbox.length) f))

/-- R229, R296, R330: TICKET of a core that is no twin, in a launch, takes min(k, indices left)
from the counter of its die, or the exhausted value while its pull permission is withdrawn; k
outside 1 to 64 is illegal. -/
def Says.Tickets : Prop :=
  ∀ (f : Ny) (s : State) (k n : Nat) (x : Node) (i e : Nat), s.Acts (.ticket f) f false →
    let w := s.me f
    (if f.b = Operand.zero then 1 else s.scalar w f.b) = BitVec.ofNat 32 k → k < 2 ^ 32 →
    (k < 1 ∨ 64 < k → exec (.ticket f) s = .next (s.trapped 0x28D f
      { Exn.mk' 3 6 with val := BitVec.ofNat 32 k })) ∧
    (1 ≤ k → k ≤ 64 → (s.core s.curCore).pair = none → (s.core s.curCore).launch = some n →
      s.node? n = some x →
      ((s.core s.curCore).pwrreq.getLsbD 8 = true → exec (.ticket f) s = .next
        (s.onward (s.writeDst w f.a fun _ => 0xFFFFFFFF) f)) ∧
      ((s.core s.curCore).pwrreq.getLsbD 8 = false →
        Cells.look (0, 0) x.tickets (coreDie s.curCore) = (i, e) → i < e →
        exec (.ticket f) s = .next (s.onward ((s.setNode n { x with
          tickets := x.tickets.upd (coreDie s.curCore) (i + min k (e - i), e) }).writeDst w f.a
            fun _ => BitVec.ofNat 32 i) f)))

/-- R230: ROLEQ writes the entry of each lane's role, or is illegal for a role above 255. -/
def Says.Roles : Prop :=
  ∀ (f : Ny) (s : State), s.Acts (.roleq f) f f.vec →
    let w := s.me f
    let role (l : Nat) : Nat := (s.srcLane w .b32 true f.b l).toNat
    (∀ l ∈ accLanes f.vec w, role l ≤ 255) →
    exec (.roleq f) s = .next (s.onward
      (s.writeDst w f.a fun l => s.roleWord s.curCore (role l)) f)

/-! ### Class 0x300 -/

/-- R231, R233, R239 to R241: a matrix instruction whose operands pass their checks takes a
sequence number and joins the core's matrix queue; CHBEG opens a chain, raises the matrix exception where
the micro-thread has one open, and does not issue while another has; CHEND closes the micro-thread's own.
SPFENCE steps the scratchpad generation once the queue is empty. With a full queue they do not issue. -/
def Says.MatrixIssue : Prop :=
  ∀ (f : Ny) (s : State),
    let w := s.me f
    let k := s.core s.curCore
    let acc (o : Operand) : Word := BitVec.ofNat 32 (accNo o)
    let put (op : Nat) (kind : MxKind) (n : Nat) (a b c : Word) : State :=
      let r := s.dispatchOp w op a b c true
      s.onward (r.1.modHome w
        (·.pushMx ⟨kind, n, w.mt, r.2, none, false, false, k.nbv, k.issued⟩)) f
    let off (o : Operand) (n : Nat) : Prop :=
      (s.scalar w o).toNat % 32 = 0 ∧ (s.scalar w o).toNat + n ≤ 0x7A000
    let tag : BitVec 16 := BitVec.ofInt 16 (immInt f.c)
    let chained : State :=
      let r := s.dispatchOp w 0x305 0 0 0 false
      let o : MxOp := ⟨.chbeg (f.md = 1), 0, w.mt, r.2, none, false, false, k.nbv, k.issued⟩
      r.1.modHome w fun k => { (k.pushMx o) with mx := { (k.pushMx o).mx with
        chain := some ⟨w.mt, r.2, f.md = 1, false, []⟩ } }
    let issued (t : State) : State := if k.mx.queue.length < 16 then t else s.notYet
    (s.Acts (.mzero f) f false →
      exec (.mzero f) s = .next (issued (put 0x302 .zero (accNo f.a) (acc f.a) 0 0))) ∧
    (s.Acts (.mfill f) f false → off f.b 16384 → exec (.mfill f) s = .next (issued
      (put 0x303 (.fill (s.scalar w f.b).toNat) (accNo f.a) (acc f.a) (s.scalar w f.b) 0))) ∧
    (s.Acts (.mdrain f) f false → off f.a (if f.ty = .bf16 then 8192 else 16384) →
      exec (.mdrain f) s = .next (issued (put 0x304 (.drain (f.ty = .bf16) (s.scalar w f.a).toNat tag)
        (accNo f.b) (s.scalar w f.a) (acc f.b) (tag.setWidth 32)))) ∧
    (s.Acts (.chbeg f) f false → exec (.chbeg f) s = .next (match k.mx.chain with
      | none => issued (s.onward chained f)
      | some ch => if ch.owner = s.curMt then s.trapped 0x305 f { Exn.mk' 13 1 with val := 0 }
          else s.notYet)) ∧
    (s.Acts (.chend f) f false →
      exec (.chend f) s = .next (s.onward (s.modHome w (·.closeChain s.curMt)) f)) ∧
    (s.Acts (.spfence f) f false → exec (.spfence f) s = .next (if k.mx.queue.isEmpty
      then s.onward (s.modHome w fun k =>
        { k with mx := { k.mx with spgen := k.mx.spgen + 1, cache := [] } }) f
      else s.notYet))

/-- R231, R233, R235, R239, R241: MMA and MMAS of two layout words that pass their checks join the queue
with the scale words read at issue: outside a chain each is a chain of its own, in the micro-thread's own
chain it joins the chain, and the chain's first starts it. They do not issue with a full queue, or while another
micro-thread has a chain open. KEEP acts at the last repeat (R124). -/
def Says.MatrixProducts : Prop :=
  ∀ (f : Ny) (s : State) (sparse : Bool),
    let i : Instr := if sparse then .mmas f else .mma f
    s.Acts i f false →
    let w := s.me f
    let k := s.core s.curCore
    let la := s.scalar w f.b
    let lb := s.scalar w f.c
    let op := if sparse then 0x301 else 0x300
    layOk f.ty la sparse = true → layOk f.ty lb false = true →
    layBase la + operandBytes f.ty sparse ≤ 0x7A000 → layBase lb + tileBytes f.ty ≤ 0x7A000 →
    let keep : Bool := f.hint.keep && decide (s.cur.repcnt ≤ 1)
    let kind : MxKind := .mma sparse f.ty la lb (s.cur.scaleWords la) (s.cur.scaleWords lb) keep
    let r := s.dispatchOp w op (BitVec.ofNat 32 (accNo f.a)) la lb true
    (k.mx.queue.length < 16 →
      (k.mx.chain = none → exec i s = .next (s.onward (r.1.modHome w
        (·.pushMx ⟨kind, accNo f.a, w.mt, r.2, none, true, true, k.nbv, k.issued⟩)) f)) ∧
      (∀ ch, k.mx.chain = some ch → ch.owner = s.curMt →
        let o : MxOp := ⟨kind, accNo f.a, w.mt, r.2, if ch.dual then some ch.seq else none,
          !ch.started, false, k.nbv, k.issued⟩
        exec i s = .next (s.onward (r.1.modHome w fun k =>
          { (k.pushMx o) with mx := { (k.pushMx o).mx with chain := some { ch with
              started := true, holds := (ch.holds ++ [accNo f.a]).dedup } } }) f))) ∧
    (16 ≤ k.mx.queue.length ∨ (∃ ch, k.mx.chain = some ch ∧ ch.owner ≠ s.curMt) →
      exec i s = .next s.notYet)

/-- R231, R247, R251 to R253, R309: CPY and CPYG of a request in the core's own scratchpad that passes its
checks take a sequence number and join the copy engine's queue; a stream register of CPY is bound to the
copy, and a multicast takes a group for its targets. With a full queue, or no free group, they do not
issue. The model's choice (log 37): BV of a CPY that names a stream register is its number. -/
def Says.CopyIssue : Prop :=
  ∀ (f : Ny) (s : State) (r : CopyReq) (tgs : List Nat),
    let w := s.me f
    let k := s.core s.curCore
    let off := s.scalar w f.a
    let home := if r.phe then (s.cur.producer r.ph).map fun h => (h.key, h.port) else none
    let put (u : State) (op : Nat) (b : Word) (mask : Option (BitVec 256)) (q : Option Nat) (g : Nat) :
        State :=
      let d := u.dispatchOp w op off b 0 true
      let t := d.1.modHome w fun k => { k with
        copies := k.copies ++ [CopyOp.new r mask w.mt false d.2 q tgs g home] }
      match q with
      | some q => t.modSelf w fun t => t.setStream q (.bound d.2 [] false false)
      | none => t
    s.readRequest s.curCore off = .ok r → s.copyCheck s.curCore (some s.cur) r = .ok tgs →
    s.sliceCheck s.curCore r = .ok () →
    (k.waitingCopies < 16 → k.fifo = [] →
      (s.Acts (.cpy f) f false → (∀ q, f.b ≠ .stream q) → r.opc ≠ 1 →
        exec (.cpy f) s = .next (s.onward (put s 0x308 0 none none 0) f)) ∧
      (s.Acts (.cpy f) f false → (∀ q, f.b ≠ .stream q) → r.opc = 1 →
        exec (.cpy f) s = .next (match s.takeGroup (coreDie s.curCore) tgs 1 with
          | some (g, _, u) => s.onward (put u 0x308 0 none none (coreDie s.curCore * 4096 + g)) f
          | none => s.notYet)) ∧
      (∀ q, s.Acts (.cpy f) f false → f.b = .stream q → s.cur.stream q.toNat = .armed → r.dir = false →
        r.opc = 0 → r.fill ≠ 0 →
        exec (.cpy f) s = .next (s.onward (put s 0x308 (q.setWidth 32) none (some q.toNat) 0) f)) ∧
      (s.Acts (.cpyg f) f false → r.opc = 0 → r.dir = false → exec (.cpyg f) s = .next (s.onward
        (put s 0x309 (s.srcLane w .b32 true f.b 0) (some (s.rowMask w f.b)) none 0) f))) ∧
    (s.Acts (.cpy f) f false → 16 ≤ k.waitingCopies ∨ k.fifo ≠ [] → (∀ q, f.b ≠ .stream q) →
      exec (.cpy f) s = .next s.notYet)

/-- R251: the targets of a multicast that passes its checks are the home slices of the cores that its
roles name, in the order of RMASK; another copy has none. -/
def Says.CopyTargets : Prop :=
  ∀ (s : State) (c : Nat) (t : Option Mt) (r : CopyReq) (tgs : List Nat),
    s.copyCheck c t r = .ok tgs →
    (r.opc ≠ 1 → tgs = []) ∧
    (r.opc = 1 → List.Forall₂ (fun role ep => ∃ tg x, s.resolve c role = .ok tg ∧ tg.coreOf = some x ∧
      ep = tg.slice x) r.roles tgs)

/-! ### Class 0x380 -/

/-- R231, R262 to R266, R269, R275, R280, R281, R283: an instruction of the event unit whose
operands pass their checks, with room in the queue and its bank held by no chain, reads its
operands, takes a sequence number and joins the event unit's queue. -/
def Says.EventIssue : Prop :=
  ∀ (f : Ny) (s : State),
    let w := s.me f
    let c := s.curCore
    let k := s.core c
    let put (op : Nat) (kind : EvKind) (x y z : Word) : State :=
      s.onward (let r := s.dispatchOp w op x y z true
        r.1.modHome w fun x => { x with evq := x.evq ++ [⟨kind, w.mt, r.2, k.issued⟩] }) f
    let acc := accNo f.a
    let free (a : Nat) : Prop := k.evq.length < 16 ∧ k.bankHeld a = false
    let role := BitVec.ofNat 32 (roleNo f.a)
    let word (ws : List Word) (i : Nat) : Word := ws.getD i 0
    (∀ bs, s.Acts (.ncfg f) f false → free acc → s.readCore c (s.scalar w f.b).toNat 32 32 = .ok bs →
      ncfgOk (bytesToWords bs) = true →
      let x := word (bytesToWords bs)
      exec (.ncfg f) s = .next (put 0x380 (.ncfg acc (x 0) (x 1) (x 2) (x 4) (x 5) (x 6))
        (accWord acc) (s.scalar w f.b) 0)) ∧
    (∀ b ws, s.Acts (.nint f) f false → free acc → k.bankMode acc = 1 →
      s.rankBlock c (s.scalar w f.c) f.ty = .ok b →
      s.weightRow c b f.ty (wfield (s.scalar w f.b) 0 12) = .ok ws →
      exec (.nint f) s = .next (put 0x381 (.nint acc b.n0 ws)
        (accWord acc) (s.scalar w f.b) (s.scalar w f.c))) ∧
    (s.Acts (.nleak f) f false → free acc → k.bankMode acc = 1 →
      exec (.nleak f) s = .next (put 0x382 (.nleak acc) (accWord acc) 0 0)) ∧
    (∀ solo ts, s.Acts (.nfire f) f false → free (accNo f.b) → k.bankMode (accNo f.b) = 1 → k.etick ≠ 0xFFFE →
      s.evTargets c (roleNo f.a) = .ok (solo, ts) →
      exec (.nfire f) s = .next (put 0x383 (.nfire solo ts (accNo f.b))
        role (accWord (accNo f.b)) 0)) ∧
    (∀ ep tg es, s.Acts (.rsend f) f false → k.evq.length < 16 → s.coreRole c (roleNo f.a) = .ok (ep, tg) →
      s.rankList w f = .ok es → entriesOk es = true →
      exec (.rsend f) s = .next (put 0x387 (.rsend ep es)
        role (s.scalar w f.b) (s.scalar w f.c))) ∧
    (∀ b p ws, let v := s.scalar w f.b
      s.Acts (.racc f) f false → free acc → k.bankMode acc = 2 → k.wr.st ≠ .unconfigured →
      s.rankBlock c (s.scalar w f.c) f.ty = .ok b → k.wr.arrivalOk v = true →
      k.wr.prods[wfield v 14 4]? = some p → wfield v 18 12 < 256 →
      s.weightRow c b f.ty (p.cbase + wfield v 0 12) = .ok ws →
      exec (.racc f) s = .next (put 0x389 (.racc acc b.n0 (wfield v 18 12)
        (if v.getLsbD 12 then (fp32 (k.weight (wfield v 18 12))).neg
          else fp32 (k.weight (wfield v 18 12))) ws) (accWord acc) v (s.scalar w f.c))) ∧
    (∀ ep tg i p logb b, s.Acts (.rgrad f) f false → k.evq.length < 16 → s.coreRole c (roleNo f.a) = .ok (ep, tg) →
      k.wr.st ≠ .unconfigured → k.wr.owner = s.curMt → k.wr.log = some logb →
      gradProducer k.wr.prods tg = some i → k.wr.prods[i]? = some p →
      s.rankBlock c (s.scalar w f.b) f.ty = .ok b → b.goff % 4 = 0 → b.goff + 4 * p.nch ≤ 0x7A000 →
      exec (.rgrad f) s = .next (put 0x38B (.rgrad
        { ep := ep, core := tg.coreOf.getD 0, word := roleOff f.a, pix := i, cbase := p.cbase
          nch := p.nch, logb := logb, rkcnt := s.cur.rkcnt, blk := b, ty := f.ty
          tail := f.md == 1, nbv := k.nbv, sent := false, signalled := false, status := 0
          offs := 0 }) role (s.scalar w f.b) 0))

/-- R267, R269: EVSEND checks the words of its enabled lanes and queues them for the role's
queues. -/
def Says.EventSend : Prop :=
  ∀ (f : Ny) (s : State) (solo : Bool) (ts : List Nat), s.Acts (.evsend f) f (Operand.isVreg f.b) →
    let w := s.me f
    let ws := (accLanes (Operand.isVreg f.b) w).map (s.srcLane w .b32 true f.b)
    s.evTargets s.curCore (roleNo f.a) = .ok (solo, ts) → ws.all eventOk = true →
    (s.core s.curCore).evq.length < 16 →
    exec (.evsend f) s = .next (s.onward
      (let r := s.dispatchOp w 0x384 (BitVec.ofNat 32 (roleNo f.a)) (ws.getD 0 0) 0 true
       r.1.modHome w fun k => { k with
         evq := k.evq ++ [⟨.send solo ts ws, w.mt, r.2, (s.core s.curCore).issued⟩] }) f)

/-- R268, R271, R276: TQCFG installs the queue or the windrow from a block that passes its checks,
and waits while a windrow is open or cut; EVRECV takes the entry that the release rule lets leave,
answers all ones once the queue has finished, and waits otherwise; where it does not wait it counts for
the actor's port that reads the queue. -/
def Says.EventQueue : Prop :=
  ∀ (f : Ny) (s : State), (s.core s.curCore).evq = [] →
    let w := s.me f
    let k := s.core s.curCore
    (∀ bs ps, let ws := bytesToWords bs
      let off := s.scalar w f.a
      let t := s.actEv w 0x38F off 0 0
      s.Acts (.tqcfg f) f false → s.readCore s.curCore off.toNat 144 16 = .ok bs → tqOk (f.md = 1) ws = true →
      s.tqProducers s.curCore ws (List.range (tqCount ws)) = .ok ps →
      exec (.tqcfg f) s = .next (if f.md = 1 then
          (if k.wr.st = .opened ∨ k.wr.st = .cut then s.blockedOn s (.tqcfg f)
          else s.onward ((t.modHome w fun k =>
            { k with wr := .install ws ps w.mt, tq := { k.tq with drop := 0 } }).modSelf w fun t =>
              { t with rkcnt := 0 }) f)
        else s.onward (t.modHome w fun k => { k with tq := .install ws ps }) f)) ∧
    (s.Acts (.evrecv f) f false → k.tq.fin = true → exec (.evrecv f) s = .next (s.onward
      (((s.actEv w 0x385 (s.heldValue w f.a) 0 0).countEvent w).writeDst w f.a fun _ => 0xFFFFFFFF) f)) ∧
    (s.Acts (.evrecv f) f false → k.tq.fin = false →
      release k.tq.prods.length k.tq.front k.tq.held = none →
      exec (.evrecv f) s = .next (s.blockedOn s (.evrecv f))) ∧
    (∀ e rest, s.Acts (.evrecv f) f false → k.tq.fin = false →
      release k.tq.prods.length k.tq.front k.tq.held = some (e, rest) →
      exec (.evrecv f) s = .next (s.onward ((((s.actEv w 0x385 (s.heldValue w f.a) 0 0).modHome w fun k =>
        { k with tq := { k.tq with held := rest }, etick := BitVec.ofNat 16 e.tick }).countEvent
          w).writeDst w f.a fun _ =>
            BitVec.ofNat 32 (e.tick * 65536 + e.pix * 4096 + e.addr)) f))

/-- R277: RRECV of the owner takes the windrow's next entry as an arrival word, logs it, and counts
it in RKCNT; it answers all ones once the windrow is cut or finished; another micro-thread's, or
one of no windrow, raises the event exception. -/
def Says.RankReceive : Prop :=
  ∀ (f : Ny) (s : State), s.Acts (.rrecv f) f false →
    let w := s.me f
    let k := s.core s.curCore
    (k.wr.st = .unconfigured →
      exec (.rrecv f) s = .next (s.trapped 0x388 f (Exn.mk' 14 5))) ∧
    (k.wr.st ≠ .unconfigured → k.wr.owner ≠ s.curMt →
      exec (.rrecv f) s = .next (s.trapped 0x388 f (Exn.mk' 14 4))) ∧
    (k.wr.owner = s.curMt → k.evq = [] → k.wr.st = .cut ∨ k.wr.st = .finished →
      exec (.rrecv f) s = .next (s.onward
        ((s.actEv w 0x388 (s.heldValue w f.a) 0 0).writeDst w f.a fun _ => 0xFFFFFFFF) f)) ∧
    (∀ b e rest, let n := s.cur.rkcnt
      let ends := allEnded k.wr.prods.length k.wr.front
      k.wr.owner = s.curMt → k.evq = [] → k.wr.st = .opened → k.wr.log = some b →
      (b + 4 * n) % 4 = 0 → b + 4 * n + 4 ≤ 0x7A000 →
      release k.wr.prods.length k.wr.front k.wr.held = some (e, rest) → rest ≠ [] ∨ ends = true →
      let v := arrivalWord n e (rest.isEmpty && ends)
      exec (.rrecv f) s = .next (s.onward
        (((((s.actEv w 0x388 (s.heldValue w f.a) 0 0).modHome w fun k' =>
          { k' with wr := ({ k.wr with held := rest }).settle }).modSelf w fun t =>
            { t with rkcnt := n + 1 }).writeScratch s.curCore (b + 4 * n) [v]).writeDst w f.a
              fun _ => v) f))

/-- R273, R274: RSORT of readable elements writes the entries of at most k channels, by falling
size, and RSSTAT. -/
def Says.RankSort : Prop :=
  ∀ (f : Ny) (s : State) (ws : List Word), s.Acts (.rsort f) f false →
    let w := s.me f
    let k := (s.scalar w f.c).toNat
    let mag : Bool := decide (f.md = 1)
    let n := s.cur.rsn
    let dst := (s.scalar w f.a).toNat
    s.readWords s.curCore (s.scalar w f.b).toNat (if f.ty = .f32 then n else (n + 1) / 2) = .ok ws →
    let xs := (ws.flatMap fun v => (List.range f.ty.perWord).map (f.ty.elem v)).take n
    let es := rankEntries f.ty mag none ((rankOrder f.ty mag s.cur.rsthr xs).take k)
    1 ≤ k → k ≤ 256 → dst % 4 = 0 → dst + 4 * es.length ≤ 0x7A000 →
    exec (.rsort f) s = .next (s.onward
      (((s.padOrder s.curCore s.curMt 1 s.curCore).writeScratch s.curCore dst es).modSelf w fun t =>
      { t with rsstat :=
        BitVec.ofNat 32 (xs.countP (fun x => (f.ty.fval x).isNan) * 65536 + es.length) }) f)

/-- R279, R282: RWTAB loads the weight table and derives TAIL and MONO; RMARG writes its predicate
from the margin of its bank and, with .cut, cuts the windrow that the micro-thread owns. -/
def Says.RankTables : Prop :=
  ∀ (f : Ny) (s : State), (s.core s.curCore).evq = [] →
    let w := s.me f
    let k := s.core s.curCore
    (∀ ws rs, let a := s.scalar w f.a
      let b := s.scalar w f.b
      s.Acts (.rwtab f) f false → s.readWords s.curCore a.toNat 256 = .ok ws →
      (if f.b = Operand.zero then rs = [] else s.readWords s.curCore b.toNat 256 = .ok rs) →
      exec (.rwtab f) s = .next (s.onward
        ((s.actEv w 0x38C a (if f.b = Operand.zero then 0 else b) 0).modHome w fun k =>
          { k with
            rankF := tableOf 0 ws, rankRho := tableOf 0x3F800000 rs
            rankTail := tableOf 0 (tailSums ws), mono := monoOf ws }) f)) ∧
    (let acc := accNo f.b
      let m := k.margin (k.bank acc)
      let p : Bool := match f.md.toNat % 4 with
        | 0 => m.1 || m.2
        | 1 => m.1
        | _ => m.2
      s.Acts (.rmarg f) f false → k.bankMode acc = 2 → (k.mx.queue.any fun o => o.acc == acc) = false →
      s.bankPoison s.curCore acc = none →
      (f.md.getLsbD 2 = true → k.wr.st ≠ .unconfigured ∧ k.wr.owner = s.curMt) →
      let t := (s.actEv w 0x38A (s.heldValue w f.a) (accWord acc) 0).setPred w f.a p
      exec (.rmarg f) s = .next (s.onward (if p && f.md.getLsbD 2
        then t.modHome w fun k => { k with wr := k.wr.cutOff } else t) f))

/-- R284, R285: CSRR reads a state register into A; CSRW writes RSN, RSTHR or ETICK, and RSN takes
1 to 4,096 only. ETICK is read and written with the event unit idle. -/
def Says.StateRegisters : Prop :=
  ∀ (f : Ny) (s : State),
    let w := s.me f
    (s.Acts (.csrr f) f f.vec → immInt f.b ≠ 5 ∨ (s.core s.curCore).evq = [] →
      exec (.csrr f) s = .next (s.onward
        (s.writeDst w f.a fun _ => s.stateReg w (immInt f.b)) f)) ∧
    (∀ s1 g, s.Acts (.csrw f) f false → s.src w .b32 true f.b = .ok (s1, g) →
      (immInt f.a = 2 → g 0 ≠ 0 → (g 0).toNat ≤ 4096 → exec (.csrw f) s = .next
        (s.onward (s1.modSelf w fun t => { t with rsn := (g 0).toNat }) f)) ∧
      (immInt f.a = 2 → g 0 = 0 ∨ 4096 < (g 0).toNat → exec (.csrw f) s = .next
        (s.trapped 0x38E f { Exn.mk' 3 6 with val := g 0 })) ∧
      (immInt f.a = 3 → exec (.csrw f) s = .next
        (s.onward (s1.modSelf w fun t => { t with rsthr := g 0 }) f)) ∧
      (immInt f.a = 5 → (s.core s.curCore).evq = [] → exec (.csrw f) s = .next
        (s.onward (s1.modHome w fun k => { k with etick := (g 0).setWidth 16 }) f)))

/-! ### The control-thread extension -/

/-- R35, R36, R114: SOW gives a copy of the seed block to every idle micro-thread of its mask and
answers the others; SOWW does so once all of them are idle, and stalls before. -/
def Says.Sowing : Prop :=
  ∀ (rd rs1 rs2 : BitVec 5) (s u : State) (bs : List Byte),
    let c := s.curCore
    let h := s.curHart
    let base := h.reg rs1
    let v := h.reg rs2
    let n := v.toNat / 2 ^ 16 % 8 + 1
    let ms := (List.range 16).filter fun m => v.getLsbD m
    let free := ms.filter fun m => (u.mt c m).st = .idle
    let busy := ms.filter fun m => !decide ((u.mt c m).st = .idle)
    let sown := u.sow c base (wordsOf n bs) free
    v.toNat / 2 ^ 19 = 0 → base.toNat % 4 = 0 → s.ctBytes c base (3 * n) = .ok (u, bs) →
    exec (.sow rd rs1 rs2) s = .next (s.retired
      (sown.setX c rd (BitVec.ofNat 64 (busy.map fun m => 2 ^ m).sum)) 4) ∧
    exec (.soww rd rs1 rs2) s = .next (if busy = [] then s.retired (sown.setX c rd 0) 4
      else s.ctStalled (.soww rd rs1 rs2))

/-- R39, R40, R57, R255: MTSTAT reads the states, the signal bits, which it clears, the release bits
or the occupancy; MTSTOP stops the micro-threads of its mask; MTREL sets the release bits of those
that are not idle, as a release of the control thread, which waits for its messages (the model's reading,
log 21). -/
def Says.MtControl : Prop :=
  ∀ (rd rs1 : BitVec 5) (s : State),
    let c := s.curCore
    let k := s.core c
    let v := s.curHart.reg rs1
    let ms := (List.range 16).filter fun m => v.getLsbD m
    let got (t : State) (x : Nat) : State := s.retired (t.setX c rd (BitVec.ofNat 64 x)) 4
    (v = 0 → exec (.mtstat rd rs1) s = .next (got s k.states)) ∧
    (v = 1 → exec (.mtstat rd rs1) s = .next (got (s.clearSignals c) (bits16 fun m => (k.mt m).sig))) ∧
    (v = 2 → exec (.mtstat rd rs1) s = .next (got s (bits16 fun m => (k.mt m).rel))) ∧
    (v = 3 → exec (.mtstat rd rs1) s = .next (got s k.occupancy)) ∧
    (v.toNat / 2 ^ 16 = 0 →
      exec (.mtstop rs1) s = .next (s.retired (ms.foldl (fun s m => s.stopMt c m) s) 4) ∧
      exec (.mtrel rs1) s = .next (if k.outstanding (agentId 1 0 c)
        then s.ctStalled (.mtrel rs1)
        else s.retired ((ms.filter fun m => (s.mt c m).st != .idle).foldl
          (fun s m => s.modMt c m fun t => { t with rel := true })
          (s.closeRegion (agentId 1 0 c))) 4))

/-- R256: CMDQ pushes a request that passes its checks and answers its sequence number; with a full
command FIFO it stalls, where CMDQNB answers 1 and pushes nothing. -/
def Says.Commands : Prop :=
  ∀ (rd rs1 : BitVec 5) (s u t : State) (r : CopyReq) (tgs : List Nat),
    let c := s.curCore
    let va := s.curHart.reg rs1
    s.cmdRequest c va = .ok (u, r, tgs) →
    s.curHart.priv ≠ .user ∨ (s.core c).dbgctl.getLsbD 17 = false →
    ((u.core c).fifo.length < 8 → u.cmdPush c va r tgs = some t →
      exec (.cmdq rd rs1) s = .next (s.retired (t.setX c rd ((s.core c).seq.setWidth 64)) 4) ∧
      exec (.cmdqnb rd rs1) s = .next (s.retired (t.setX c rd 0) 4)) ∧
    (8 ≤ (u.core c).fifo.length →
      exec (.cmdq rd rs1) s = .next (s.ctStalled (.cmdq rd rs1)) ∧
      exec (.cmdqnb rd rs1) s = .next (s.retired (u.setX c rd 1) 4))

/-- R227, R257, R258, R296: CTINBX takes the oldest record that fits, its upper half into CTINBHI, and
stalls while there is none; a completion that waited for room takes its place; CTCWAIT answers a counter that has reached its target, and stalls
before; CTTICK claims k tickets. -/
def Says.CtReceives : Prop :=
  ∀ (rd rs1 rs2 : BitVec 5) (s : State),
    let c := s.curCore
    let h := s.curHart
    let v := h.reg rs1
    let tag : Option (BitVec 16) := if v.getLsbD 16 then some (v.setWidth 16) else none
    (v.toNat / 2 ^ 17 = 0 →
      ((s.core c).takeRec tag = none → exec (.ctinbx rd rs1) s = .next
        (s.ctStalled (.ctinbx rd rs1))) ∧
      (∀ r k, (s.core c).takeRec tag = some (r, k) → exec (.ctinbx rd rs1) s = .next (s.retired
        ((((s.setCore c { k with ctinbhi := dwordOf (r.words.getD 2 0) (r.words.getD 3 0) }).refill
          c).closeRegion (agentId 1 0 c)).setX c rd (dwordOf (r.words.getD 0 0) (r.words.getD 1 0))) 4))) ∧
    (∀ ls s1 s2, v.toNat / 2 ^ 51 = 0 → 1 ≤ v.toNat / 2 ^ 48 → v.toNat / 2 ^ 48 ≤ 5 → v.toNat % 8 = 0 →
      (h.reg rs2).toNat < 2 ^ 62 →
      s.ctCounter c (v.toNat / 2 ^ 48) (v.toNat % 2 ^ 48) = .ok ls → s.ctPoison ls = .ok () →
      s.ctRegion c false false ls = .ok s1 → s1.ctPass c ls = .ok s2 →
      let x := leNat (ls.flatMap fun p => s2.loadBytes c p.1 p.2)
      let u := (s2.closeRegion (agentId 1 0 c)).acquireCounter c ((ls.map (·.1)).headD (.scratch c 0))
      exec (.ctcwait rd rs1 rs2) s = .next (if (h.reg rs2).toNat ≤ x % 2 ^ 62
        then s.retired (u.setX c rd (BitVec.ofNat 64 x)) 4
        else s.ctStalled (.ctcwait rd rs1 rs2))) ∧
    (∀ s1 x, let k := if rs1 = 0 then 1 else v.toNat
      1 ≤ k → k ≤ 64 → s.claimTicket c k = some (s1, x) →
      exec (.cttick rd rs1) s = .next (s.retired (s1.setX c rd (BitVec.ofNat 64 x)) 4))

/-- R42, R45, R51, R254, R259: ACTFIRE loads an actor from a descriptor that is not rejected, or sets
the enable of a loaded one; BINDLD loads the binding table once every micro-thread is idle. -/
def Says.ActorsAndRoles : Prop :=
  ∀ (rs1 rs2 : BitVec 5) (s u : State) (bs : List Byte),
    let c := s.curCore
    let h := s.curHart
    let base := h.reg rs1
    let v := h.reg rs2
    ((v &&& ~~~0x31F#64) = 0 → v.getLsbD 9 = true → base.toNat % 32 = 0 →
      s.ctBytes c base 40 = .ok (u, bs) → actorOk bs = true →
      exec (.actfire rs1 rs2) s = .next (s.retired (u.modCore c fun k => { k with
        actors := k.actors.upd (v.toNat % 32) (.ofBytes bs (v.getLsbD 8)) }) 4)) ∧
    (∀ a, (v &&& ~~~0x31F#64) = 0 → v.getLsbD 9 = false →
      (s.core c).actors.get? (v.toNat % 32) = some a →
      exec (.actfire rs1 rs2) s = .next (s.retired (s.modCore c fun k => { k with
        actors := k.actors.upd (v.toNat % 32)
          { a with en := v.getLsbD 8, filled := a.filled && v.getLsbD 8 } }) 4)) ∧
    (base.toNat % 64 = 0 → s.ctBytes c base 256 = .ok (u, bs) →
      exec (.bindld rs1) s = .next (if (u.core c).mtsIdle
        then s.retired (u.modCore c fun k => { k with bindtab := bindCells bs }) 4
        else s.ctStalled (.bindld rs1)))

/-- R260, R386: in supervisor or machine mode, INCARN gives a context its next incarnation, or
answers that it is stale; RECLAIM answers 1 for the current value and 0 for one that is not stale,
and stalls until two sweeps have found no traffic of a stale one. User mode may run neither. -/
def Says.Incarnations : Prop :=
  ∀ (rd rs1 : BitVec 5) (s : State),
    let c := s.curCore
    let v := s.curHart.reg rs1
    (s.curHart.priv = .user →
      exec (.incarn rd rs1) s = .next
        (s.ctTrap c 2 (((extWord? (.incarn rd rs1)).getD 0).setWidth 64)) ∧
      exec (.reclaim rd rs1) s = .next
        (s.ctTrap c 2 (((extWord? (.reclaim rd rs1)).getD 0).setWidth 64))) ∧
    (s.curHart.priv ≠ .user → v.toNat < 2 ^ 12 →
      let e := s.incEntry v.toNat
      ((e.1 + 1) % 256 ∈ e.2 → exec (.incarn rd rs1) s =
        .next (s.retired (s.setX c rd (BitVec.ofNat 64 (2 ^ 63))) 4)) ∧
      (∀ n t, s.incarn v.toNat = some (n, t) → n = (e.1 + 1) % 256 ∧
        t.incEntry v.toNat = (n, e.1 :: e.2) ∧
        exec (.incarn rd rs1) s = .next (s.retired (t.setX c rd (BitVec.ofNat 64 n)) 4))) ∧
    (s.curHart.priv ≠ .user → v.toNat < 2 ^ 20 →
      let e := s.incEntry (v.toNat % 2 ^ 12)
      let x := v.toNat / 2 ^ 12
      let i := v.toNat % 2 ^ 12 * 256 + x
      (x = e.1 → exec (.reclaim rd rs1) s = .next (s.retired (s.setX c rd 1) 4)) ∧
      (x ≠ e.1 → x ∉ e.2 → exec (.reclaim rd rs1) s = .next (s.retired (s.setX c rd 0) 4)) ∧
      (∀ n, x ≠ e.1 → x ∈ e.2 → s.sweeps.get? i = some n → n < 2 →
        exec (.reclaim rd rs1) s =
          .next (s.ctStalled (.reclaim rd rs1))) ∧
      (∀ n, x ≠ e.1 → x ∈ e.2 → s.sweeps.get? i = some n → 2 ≤ n →
        exec (.reclaim rd rs1) s = .next (s.retired
          (({ s with
            incTab := s.incTab.upd (v.toNat % 2 ^ 12) (e.1, e.2.filter (· != x))
            sweeps := s.sweeps.del i } : State).setX c rd 0) 4)))

/-! ### The control thread's RISC-V instructions -/

/-- R33 (encodings and results of the family, log 6): register and immediate arithmetic, LUI, AUIPC,
jumps, branches and the fences write their result to rd and go to their successor. FENCE waits for
the control thread's messages to memory (R81). The model's choices: FENCE closes the region, waits and
acquires at .dom scope (log 17, 21, 33). -/
def Says.RiscvRegisters : Prop :=
  ∀ (r : RvInstr) (op : Rv) (aqrl : BitVec 2) (len : Nat) (s : State), rvForm r op aqrl len →
    let c := s.curCore
    let h := s.curHart
    let x := h.reg
    let next := h.pc + BitVec.ofNat 64 len
    let goes (t : State) (npc : DWord) : Prop :=
      exec (.controlThreadRiscvInstruction r) s =
        .next (t.ctRetire c (h.priv == .user) npc)
    (∀ k rd a b, op = .alu k rd a b → goes (s.setX c rd (rvAlu k (x a) (x b))) next) ∧
    (∀ k rd a imm, op = .opImm k rd a imm →
      goes (s.setX c rd (rvImmOp k (x a) (imm.signExtend 64))) next) ∧
    (∀ k rd a sh, op = .shImm k rd a sh → goes (s.setX c rd (rvShift k (x a) sh.toNat)) next) ∧
    (∀ k rd a, op = .unary k rd a → goes (s.setX c rd (rvUnary k (x a))) next) ∧
    (∀ rd imm, op = .lui rd imm →
      goes (s.setX c rd ((imm ++ 0#12 : BitVec 32).signExtend 64)) next) ∧
    (∀ rd imm, op = .auipc rd imm →
      goes (s.setX c rd (h.pc + (imm ++ 0#12 : BitVec 32).signExtend 64)) next) ∧
    (∀ rd off, op = .jal rd off → goes (s.setX c rd next) (h.pc + off.signExtend 64)) ∧
    (∀ rd a imm, op = .jalr rd a imm →
      goes (s.setX c rd next) ((x a + imm.signExtend 64) &&& ~~~1#64)) ∧
    (∀ k a b off, op = .branch k a b off →
      goes s (if rvTaken k (x a) (x b) then h.pc + off.signExtend 64 else next)) ∧
    (op = .fence → if h.asked.isNone && (s.core c).outstanding (agentId 1 0 c)
      then exec (.controlThreadRiscvInstruction r) s =
        .next (s.ctStalled (.controlThreadRiscvInstruction r))
      else goes ((s.closeRegion (agentId 1 0 c)).acquireDom c) next) ∧
    (op = .fenceI → goes s next)

/-- R33, R81, R374: loads, stores, reservations and atomics whose places pass their checks; one that
orders accesses has no message to wait for. The model's choice (log 33): one with aq or rl closes the
region, one with aq acquires; a misaligned access is one of its bytes; SC needs the place that LR
reserved. -/
def Says.RiscvMemory : Prop :=
  ∀ (r : RvInstr) (op : Rv) (aqrl : BitVec 2) (len : Nat) (s t : State) (v : Nat),
    rvForm r op aqrl len →
    let c := s.curCore
    let h := s.curHart
    let x := h.reg
    let goes (t : State) : Prop :=
      exec (.controlThreadRiscvInstruction r) s =
        .next (t.ctRetire c (h.priv == .user) (h.pc + BitVec.ofNat 64 len))
    (rvWaits op aqrl && h.asked.isNone && (s.core c).outstanding (agentId 1 0 c)) = false →
    (∀ k rd a imm, op = .load k rd a imm →
      s.ctLoad c (x a + imm.signExtend 64) (loadSize k) = .ok (t, v) →
      goes (t.setX c rd (loadExtend k v))) ∧
    (∀ k a b imm, op = .store k a b imm →
      s.ctStore c (x a + imm.signExtend 64) (storeSize k) ((x b).toNat % 2 ^ (8 * storeSize k)) =
        .ok t → goes t) ∧
    (∀ dbl rd a, op = .lr dbl rd a → s.ctLr c (x a) dbl = .ok (t, v) →
      goes (((t.setX c rd (atomResult dbl v)).ctClose c aqrl).ctAcquire c aqrl)) ∧
    (∀ dbl rd a b, op = .sc dbl rd a b → s.ctSc c (x a) dbl (x b).toNat = .ok (t, v) →
      goes (((t.setX c rd (BitVec.ofNat 64 v)).ctClose c aqrl).ctAcquire c aqrl)) ∧
    (∀ k dbl rd a b, op = .amo k dbl rd a b →
      s.ctAmo c (x a) k dbl aqrl (if dbl then (x b).toNat else (lowW (x b)).toNat) = .ok (t, v) →
      goes (t.setX c rd (atomResult dbl v)))

/-- R33: an aligned load or store of a control thread in machine mode at a place in DRAM reads or
writes exactly its bytes, where no region is open, no message is on its way, no line is poisoned, the
channel is free and no fence stands between. -/
def Says.RiscvDram : Prop :=
  ∀ (op : Rv) (aqrl : BitVec 2) (s : State) (va : DWord) (key : Nat),
    let c := s.curCore
    let h := s.curHart
    h.priv = .machine → h.mstatus.getLsbD 17 = false → s.lines = [] → s.poison = [] →
    c < 1024 → (s.core c).pair = none → (∀ x ∈ s.cores, x.2.ownStores = []) → Memory.wf s.dram = true →
    s.chan (key / chanBytes) = .init → s.fencedPlace c (.dram key) = false →
    va.toNat < 2 ^ 56 → physLoc va.toNat 0 = some (.dram key) →
    (∀ k rd a imm, op = .load k rd a imm → h.reg a + imm.signExtend 64 = va →
      va.toNat % loadSize k = 0 →
      ∃ t, exec (.controlThreadRiscvInstruction (.full op aqrl)) s = .next t ∧ t.dram = s.dram ∧
        (t.hart c).pc = h.pc + 4 ∧ (∀ q, (t.hart c).reg q = if q = rd ∧ rd ≠ 0
          then loadExtend k (leNat (Memory.read s.dram key (loadSize k))) else h.reg q)) ∧
    (∀ k a b imm, op = .store k a b imm → h.reg a + imm.signExtend 64 = va →
      va.toNat % storeSize k = 0 →
      ∃ t, exec (.controlThreadRiscvInstruction (.full op aqrl)) s = .next t ∧
        (t.hart c).pc = h.pc + 4 ∧ (∀ q, (t.hart c).reg q = h.reg q) ∧
        ∀ i, Memory.byte t.dram i = if key ≤ i ∧ i < key + storeSize k
          then ((h.reg b) >>> (8 * (i - key))).setWidth 8 else Memory.byte s.dram i)

/-- R8, R33, R75, R300, R363 (log 6): Zicsr reads and writes a register that the mode may access, a write of
one of the part's read-only registers is ignored, and a
write of minstret takes the place of its own retirement; ECALL, which in user mode with a7 = 0 ends the
core's part, EBREAK and
words that name no instruction take their exceptions; MRET, SRET, WFI and SFENCE.VMA act in the
modes that may run them. -/
def Says.RiscvSystem : Prop :=
  ∀ (r : RvInstr) (op : Rv) (aqrl : BitVec 2) (len : Nat) (s : State), rvForm r op aqrl len →
    let c := s.curCore
    let h := s.curHart
    let i : Instr := .controlThreadRiscvInstruction r
    let next := h.pc + BitVec.ofNat 64 len
    let goes (t : State) (npc : DWord) : Prop :=
      exec i s = .next (t.ctRetire c (h.priv == .user) npc)
    (∀ k imm rd a num old, op = .csr k imm rd a num →
      let src : DWord := if imm then a.setWidth 64 else h.reg a
      let write : Bool := k == .rw || a != 0
      let new := match k with
        | .rw => src
        | .rs => old ||| src
        | .rc => old &&& ~~~src
      let new := if num = 0xB02 ∧ h.mcountinhibit.getLsbD 2 = false then new - 1 else new
      h.csrAllowed num write = true → s.csrRead c num = some old →
      (write = false → goes (s.setX c rd old) next) ∧
      (∀ t, write = true → s.csrWrite c num new = some t → goes (t.setX c rd old) next)) ∧
    (∀ num v, ownReadOnly num.toNat = true → ∃ t, s.csrWrite c num v = some t ∧ t.core c = s.core c) ∧
    (op = .ecall → exec i s = .next ((if h.priv = .user ∧ h.reg 17 = 0
      then s.modHart c fun h => { h with partEnd := true } else s).ctTrap c (match h.priv with
      | .user => 8
      | .supervisor => 9
      | .machine => 11) 0)) ∧
    (op = .ebreak → exec i s = .next (s.ctTrap c 3 h.pc)) ∧
    (op = .mret → h.priv = .machine → goes (s.setHart c h.mret) h.mepc) ∧
    (op = .sret → h.priv = .machine ∨ h.priv = .supervisor ∧ h.mstatus.getLsbD 22 = false →
      goes (s.setHart c h.sret) h.sepc) ∧
    (op = .wfi → h.priv = .machine ∨ h.mstatus.getLsbD 21 = false →
      goes (s.modHart c fun h => { h with wfi := true }) next) ∧
    (∀ a b, op = .sfenceVma a b →
      h.priv = .machine ∨ h.priv = .supervisor ∧ h.mstatus.getLsbD 20 = false →
      goes (s.sfence c (if a = 0 then none else some (h.reg a).toNat)
        (if b = 0 then none else some (h.reg b).toNat)) next) ∧
    (∀ w, exec (.controlThreadRiscvInstruction (.reserved w)) s =
      .next (s.ctTrap c 2 (w.setWidth 64)))

/-- Taking an exception and returning, in the family's terms (log 6): the cause, the pc and the
value are saved, the mode and its interrupt enable are stacked, and the pc goes to the vector; MRET
undoes it. -/
def Says.CtTrapEntry : Prop :=
  ∀ (s : State) (c code : Nat) (tval : DWord), code < 64 →
    let h := s.hart c
    let t := (s.ctTrap c code tval).hart c
    (h.priv ≠ .machine ∧ h.medeleg.getLsbD code = true →
      t.priv = .supervisor ∧ t.sepc = h.pc ∧ t.scause = BitVec.ofNat 64 code ∧ t.stval = tval ∧
      t.pc = h.stvec &&& ~~~3#64 ∧ t.mstatus.getLsbD 8 = (h.priv == .supervisor) ∧
      t.mstatus.getLsbD 5 = h.mstatus.getLsbD 1 ∧ t.mstatus.getLsbD 1 = false ∧ t.x = h.x ∧
      t.mepc = h.mepc ∧ t.sret.pc = h.pc ∧ t.sret.priv = h.priv) ∧
    (¬(h.priv ≠ .machine ∧ h.medeleg.getLsbD code = true) →
      t.priv = .machine ∧ t.mepc = h.pc ∧ t.mcause = BitVec.ofNat 64 code ∧ t.mtval = tval ∧
      t.pc = h.mtvec &&& ~~~3#64 ∧ t.mstatus.getLsbD 7 = h.mstatus.getLsbD 3 ∧
      t.mstatus.getLsbD 3 = false ∧ t.x = h.x ∧ t.sepc = h.sepc ∧ t.mret.pc = h.pc ∧
      t.mret.priv = h.priv)

/-! ### Traps of micro-threads -/

/-- R348, R349: a precise trap puts the micro-thread into the trap hold with its record: cause,
DETAIL, tags, PC, ADDR, the repeat count and the time; its registers keep their values, and MTTRAP
shows it. -/
def Says.PreciseTrap : Prop :=
  ∀ (s : State) (c m : Nat) (pc : DWord) (word : IWord) (e : Exn), m < 16 →
    (s.mt c m).gang = none →
    let x := s.mt c m
    let t := s.takeTrap c m none pc word e
    let y := t.mt c m
    y.st = .waiting ∧ y.blocked = none ∧ y.pc = pc ∧ y.v = x.v ∧ y.s = x.s ∧ y.p = x.p ∧ y.h = x.h ∧
    y.block = x.block ∧ y.repcnt = x.repcnt ∧ y.rkcnt = x.rkcnt ∧
    (∃ r b, y.hold = some (r, b) ∧ r.code = e.code ∧ r.detail = e.detail ∧ r.late = false ∧
      r.mt = m ∧ r.core = c ∧ r.pc = pc ∧ r.addr = e.addr ∧ r.info = e.info ∧
      r.repcnt = x.repcnt ∧ r.rkcnt = x.rkcnt ∧ r.time = s.now ∧
      r.ctx = (s.core c).ctx ∧ r.inc = (s.core c).inc ∧ r.aux = e.auxOf word) ∧
    (t.core c).mttrap.getLsbD m = true

/-! ### Steps that carry no word -/

/-- R38, R201, R202, R254: the blocking instruction of a waiting micro-thread of a core that runs is
run again, at its deadline or that of a member of its gang too (log 11, the model's choice); of two that
raise a trap the lower goes first (R348, R410). A stalled instruction or register write of the control
thread is run again. -/
def Says.Reruns : Prop :=
  ∀ (s : State) (c m : Nat) (i : Instr),
    let t := s.mt c m
    (∀ op f, i.ny? = some (op, f) → t.blocked = some i → t.st = .waiting → t.hold = none →
      s.gangRuns c m = true → s.trapsNow c m = false ∨ (∀ n, n < m → s.trapsNow c n = false) →
      ∃ u, exec i { s with curCore := c, curMt := m } = .next u ∧
        exec (.waitingInstructionCompletes c m) s = .next u ∧
        (i = .sleep f → t.tdead ≤ s.now → exec (.sleepDeadline c m) s = .next u) ∧
        (∀ d, s.deadline m (s.membersOf c m) = some d → d ≤ s.now →
          exec (.twaitDeadline c m) s = .next u)) ∧
    (∀ n, s.trapsNow c m = true → n < m → s.trapsNow c n = true →
      exec (.waitingInstructionCompletes c m) s = .next s) ∧
    (s.coreRuns c = true → (s.hart c).stall = some i →
      ((extWord? i).isSome = true ∨ (∃ r, i = .controlThreadRiscvInstruction r) ∨
        (∃ d v, i = .ctxidCtxWrite d v ∨ i = .nbvWrite d v) ∨ (∃ r v, i = .registerWrite r v)) →
      ∃ u, exec i { s with curCore := c } = .next u ∧ exec (.ctStallCompletes c) s = .next u)

/-- R38, R51, R254, R257: where what a stalled instruction of the control thread waited for has come,
CT_STALL_COMPLETES carries the instruction out: CTINBX takes its record, BINDLD loads the binding table,
CTCWAIT answers its counter, and the control thread moves on. -/
def Says.StalledCompletes : Prop :=
  ∀ (s : State) (c : Nat) (rd rs1 rs2 : BitVec 5), let u : State := { s with curCore := c }
    let h := s.hart c
    s.coreRuns c = true →
    (∀ r k, h.stall = some (.ctinbx rd rs1) → (h.reg rs1).toNat = 0 →
      (s.core c).takeRec none = some (r, k) → exec (.ctStallCompletes c) s = .next (u.retired
        ((((u.setCore c { k with ctinbhi := dwordOf (r.words.getD 2 0) (r.words.getD 3 0) }).refill
          c).closeRegion (agentId 1 0 c)).setX c rd (dwordOf (r.words.getD 0 0) (r.words.getD 1 0))) 4)) ∧
    (∀ t bs, h.stall = some (.bindld rs1) → (h.reg rs1).toNat % 64 = 0 →
      u.ctBytes c (h.reg rs1) 256 = .ok (t, bs) → (t.core c).mtsIdle = true →
      exec (.ctStallCompletes c) s = .next (u.retired
        (t.modCore c fun k => { k with bindtab := bindCells bs }) 4)) ∧
    (∀ ls s1 s2, let v := h.reg rs1
      h.stall = some (.ctcwait rd rs1 rs2) →
      v.toNat / 2 ^ 51 = 0 → 1 ≤ v.toNat / 2 ^ 48 → v.toNat / 2 ^ 48 ≤ 5 → v.toNat % 8 = 0 →
      u.ctCounter c (v.toNat / 2 ^ 48) (v.toNat % 2 ^ 48) = .ok ls → u.ctPoison ls = .ok () →
      u.ctRegion c false false ls = .ok s1 → s1.ctPass c ls = .ok s2 →
      let x := leNat (ls.flatMap fun p => s2.loadBytes c p.1 p.2)
      (h.reg rs2).toNat ≤ x % 2 ^ 62 → exec (.ctStallCompletes c) s = .next (u.retired
        (((s2.closeRegion (agentId 1 0 c)).acquireCounter c ((ls.map (·.1)).headD (.scratch c 0))).setX
          c rd (BitVec.ofNat 64 x)) 4))

/-- R38, R43, R57: a stopping micro-thread whose requests have been accepted becomes idle: its pc, REPCNT
and RKCNT, its signal and release bits and its block are cleared, and its registers keep their values. One
whose requests have not been accepted stays as it is. -/
def Says.MicroThreadIdle : Prop :=
  ∀ (s : State) (c m : Nat), (s.mt c m).st = .stopping →
    ((s.core c).outstanding (agentId 0 m c) = true → exec (.microthreadIdle c m) s = .next s) ∧
    ((s.core c).outstanding (agentId 0 m c) = false →
      ∃ t, exec (.microthreadIdle c m) s = .next t ∧
        let x := s.mt c m
        let y := t.mt c m
        y.st = .idle ∧ y.pc = 0 ∧ y.repcnt = 0 ∧ y.rkcnt = 0 ∧ y.sig = false ∧ y.rel = false ∧
        y.block = none ∧ y.v = x.v ∧ y.s = x.s ∧ y.p = x.p)

/-- R44 to R47, R385: the first actor that may fire starts on the lowest idle micro-threads with a copy
of its seed block; a fill copies its FETCH ranges; rebalancing moves the allotments, stage by stage: a
stage whose input queues are all at least three quarters full and whose output queues all have room gains
up to two from the other stage of the lowest occupancy, where that is at most a quarter and keeps one. -/
def Says.ActorSteps : Prop :=
  ∀ (s : State) (c : Nat),
    (∀ a x rest bs, let u := s.discardFills c
      s.coreRuns c = true → (s.hart c).binding = false →
      sortBy (fireBefore (u.core c).lastFired)
        ((u.core c).actors.filter fun e => u.mayFire c e.1 e.2) = (a, x) :: rest →
      u.readVirt c .mt .read x.seed (3 * x.len) = .ok bs → u.virtPoison c x.seed (3 * x.len) = none →
      exec (.firingStart c) s = .next (u.fireOn c a x (wordsOf x.len bs))) ∧
    (∀ a x t, (s.core c).actors.get? a = some x → x.filled = false → x.needsFill = true →
      s.coreRuns c = true → s.mayFill c a x = true →
      (x.ranges.filter rangeFetch).foldlM (fun s r => State.fillRange s c r) s = some t →
      exec (.footprintFill c a) s = .next (t.modCore c fun k =>
        { k with actors := k.actors.upd a { x with filled := true } })) ∧
    exec (.stageRebalance c) s =
      .next ((List.range 8).foldl (fun s t => s.transfer c t) s) ∧
    (∀ gain, let k := s.core c
      let t := s.transfer c gain
      let ins (u : Nat) := s.stageViews c u false
      let full (u : Nat) : Nat := ((ins u).map (·.view)).sum
      let cap (u : Nat) : Nat := ((ins u).map (·.cap)).sum
      let gains : Prop := ins gain ≠ [] ∧ (∀ v ∈ ins gain, 3 * v.cap ≤ 4 * v.view) ∧
        ∀ v ∈ s.stageViews c gain true, 0 < v.view
      let gives (d : Nat) : Prop := d < 8 ∧ d ≠ gain ∧ ins d ≠ [] ∧ 4 * full d ≤ cap d
      (¬ gains → t = s) ∧
      (gains → (∀ d, ¬ gives d) → t = s) ∧
      (gains → (∃ d, gives d) → ∃ d, gives d ∧ (∀ u, gives u → full d * cap u ≤ full u * cap d) ∧
        let n := min 2 (k.allotment d - 1)
        t = s.setCore c ((k.setAllot d (k.allotment d - n)).setAllot gain (k.allotment gain + n))))

/-- R76, R110, R350, R351, R363: a write of CTXID or NBV waits until what it concerns is idle;
MTRESUME resumes the held micro-threads of its mask; other writes act at once; a pending trap
interrupt is taken. -/
def Says.CoreRegisterSteps : Prop :=
  ∀ (s : State) (c : Nat) (v : DWord),
    let k := s.core c
    let idle : Bool := k.mtsIdle && k.enginesIdle
    let ctx := v.toNat % 2 ^ 12
    (idle = true → k.ct.stall = none → exec (.ctxidCtxWrite c v) s = .next (s.setCore c { k with
      ctx := BitVec.ofNat 12 ctx, inc := BitVec.ofNat 8 (s.incEntry ctx).1 })) ∧
    (idle = false → exec (.ctxidCtxWrite c v) s =
      .next (s.modHart c fun h => { h with stall := some (.ctxidCtxWrite c v) })) ∧
    ((k.mtsIdle && k.mx.chain.isNone) = true → k.ct.stall = none →
      exec (.nbvWrite c v) s = .next (if v.toNat % 4 = 1 ∨ v.toNat % 4 = 2
        then s.setCore c { k with nbv := v.setWidth 2 } else s.setCore c k)) ∧
    exec (.mtresume c v) s = .next
      (((List.range 16).filter fun m => v.getLsbD m).foldl (fun s m => s.resumeMt c m) s) ∧
    (k.ct.stall = none →
      exec (.registerWrite (.csr c 0x5C0) v) s =
        .next (s.setCore c { k with trbase := v &&& 0xFFFFFFFFFFFFF001 }) ∧
      exec (.registerWrite (.csr c 0x5C3) v) s = .next (s.setCore c { k with trloc := v })) ∧
    (∀ i, s.coreRuns c = true → k.pendingIrq = some i → i = 16 ∨ i = 17 →
      k.ct.writing = false → k.ct.asked = none →
      exec (.trapInterruptTaken c) s = .next (s.modHart c fun h =>
        { h.enter true i 0 with wfi := false, stall := none }))

/-- R311, R329, R354, R355, R357, R384: the device registers: the queue tail, a ring's head and base,
which let held records go, and a migration request, which freezes its sources and wakes its
destinations, or answers that a paddock is fenced. -/
def Says.DeviceRegisterSteps : Prop :=
  ∀ (s : State) (d r : Nat) (v : DWord) (w : Word),
    ((s.die d).failed = false → exec (.lqdb d w) s =
      .next (s.modDie d fun x => { x with lqTail := w.setWidth 16 })) ∧
    ((s.ring r).held = [] →
      exec (.trrheadWrite r w) s = .next (s.modRing r fun g => { g with head := w }) ∧
      exec (.trrbaseWrite r v) s = .next (s.modRing r fun g =>
        { g with base := v.extractLsb' 6 50, log2n := v.toNat / 2 % 32, en := v.getLsbD 0 })) ∧
    (v.getLsbD 63 = false → exec (.migreqGo d v) s = .next s) ∧
    (∀ src dst, v.getLsbD 63 = true → src = v.toNat % 2 ^ 10 → dst = v.toNat / 2 ^ 16 % 2 ^ 10 →
      (s.die d).frozen = false → (s.die d).migration = none →
      (s.fenced src = true ∨ s.fenced dst = true →
        exec (.migreqGo d v) s = .next (s.modDie d fun x => { x with migst := 3, migwhy := 1 })) ∧
      (s.fenced src = false → s.fenced dst = false → (s.core src).launch ≠ none →
        (s.tileMove src = true → localIdx src = 0 ∧ localIdx dst = 0) →
        (s.migPairs src dst).all (fun p => s.migFree p.2) = true → s.gang8 (tileOf src) = false →
        exec (.migreqGo d v) s = .next ((((s.migPairs src dst).foldl
          (fun s p => (s.freezeCore p.1).wake p.2) s).migStat d 1 0).modDie d fun x => { x with
            migration := some ⟨s.migPairs src dst, false⟩ })))

/-- R110, R237, R240, R326 to R328: the head of the matrix queue is applied, with the NBV of its issue:
a bank is zeroed, filled or drained; a matrix start without a grant asks for one, and joins its
quadrant's limiter with the first step that may serve it; a step grants the two oldest requests of
starts that still wait, once; a ramp-down goes entry by entry. -/
def Says.MatrixSteps : Prop :=
  ∀ (s : State) (c : Nat),
    let k := s.core c
    (∀ o rest flt, k.mx.queue = o :: rest → k.frozen = false → k.evq = [] → s.poison = [] →
      let popped := s.modCore c fun k => { k with mx := { k.mx with queue := rest } }
      (o.kind = .zero → exec (.matrixInstructionApplied c flt) s = .next ((popped.modCore c fun k =>
        k.modBank o.acc fun b => { b with val := [], shadow := none }).opDone c o.mt o.seq)) ∧
      (∀ off, o.kind = .fill off → exec (.matrixInstructionApplied c flt) s =
        .next ((popped.modCore c fun k' => k'.modBank o.acc fun b => { b with
          val := bankCells ((List.range 4096).map fun i => Memory.word k.scratch (off + 4 * i))
          shadow := none }).opDone c o.mt o.seq)) ∧
      (∀ dual, o.kind = .chbeg dual → exec (.matrixInstructionApplied c flt) s = .next popped) ∧
      (∀ sp t la lb sa sb kp, o.kind = .mma sp t la lb sa sb kp →
        exec (.matrixInstructionApplied c flt) s = .next
          (if o.start && !k.mx.granted && !k.mx.down then s.askGrant c
          else (popped.modCore c fun k =>
            k.applyMma o sp t la lb sa sb kp flt).opDone c o.mt o.seq)) ∧
      (∀ bf off tag, o.kind = .drain bf off tag → (k.bank o.acc).mismatch = none →
        exec (.mdrainCompletion c) s = .next ((popped.writeScratch c off
          (drainWords bf (bankList (k.bank o.acc).val))).postRecord c ⟨0, 0, o.seq, 0, 2, tag⟩))) ∧
    (∀ q, (s.limiters.look [] q).all (·.2 != c) = true → q = quadOf c → s.askGrant c =
      { s with limiters := s.limiters.put [] q (s.limiters.look [] q ++ [((s.now * 13 + 39) / 40, c)]) }) ∧
    (∀ q, (s.limiterAt.look 0 q < s.nextLimiterStep → exec (.limiterStep q) s = .next
      (let rs := ((sortBy askBefore (s.limiters.look [] q)).filter fun r =>
         decide (r.1 < s.nextLimiterStep) && (s.core r.2).wantsGrant).take 2
       rs.foldl (fun s r => s.modCore r.2 fun k =>
         { k with mx := { k.mx with granted := true, ramp := 1, down := false } })
         { s with
           limiters := s.limiters.put [] q ((s.limiters.look [] q).filter fun r =>
             !rs.contains r && (s.core r.2).wantsGrant)
           limiterAt := s.limiterAt.put 0 q s.nextLimiterStep })) ∧
      (s.nextLimiterStep ≤ s.limiterAt.look 0 q → exec (.limiterStep q) s = .next s)) ∧
    exec (.rampDownEnd c) s = .next (s.modCore c fun k =>
      if !k.mx.down then k
      else if k.mx.ramp ≤ 1 then { k with mx := { k.mx with down := false, ramp := 0 } }
      else { k with mx := { k.mx with ramp := k.mx.ramp - 1 } })

/-- R86, R109, R231, R249, R250, R252, R386: the engine starts the first waiting copy, once the messages
of a control thread that pushed it are performed, takes a step of the walk of a started one, and completes
one whose walk is over and whose messages are performed; a partial reaches its line behind the earlier
ones for it, through the line's channel where it comes in its turn, and its copy then waits for it no
longer; one of a stale incarnation is discarded. -/
def Says.CopySteps : Prop :=
  ∀ (s : State) (c i : Nat) (o : CopyOp),
    let k := s.core c
    (k.copies[i]? = some o →
      (o.started = false → k.frozen = false → (∀ p ∈ k.copies.take i, p.started = true) →
        k.copies.countP (·.started) < 16 → (o.ct = true → k.outstanding (agentId 1 0 c) = false) →
        exec (.copyElementComplete c i) s = .next (s.startCopy c i o)) ∧
      (∀ d t, o.started = true → o.desc = some d → Desc.ety d = some t → o.next < o.total →
        exec (.copyElementComplete c i) s = .next (s.stepCopy c i o d t)) ∧
      (o.started = true → o.total ≤ o.next → s.owes (agentId 3 o.mt c) o.seq = false →
        exec (.copyCompletion c i) s = .next (s.completeCopy c i o)) ∧
      ((o.next < o.total ∨ s.owes (agentId 3 o.mt c) o.seq = true) →
        exec (.copyCompletion c i) s = .next s)) ∧
    (∀ n p, s.partialQ[n]? = some p → (s.partialQ.take n).all (fun q => q.line != p.line) = true →
      let gone (u : State) : State := { u with partialQ := u.partialQ.eraseIdx n }
      let present : Prop := BitVec.ofNat 8 (s.incEntry p.ctx.toNat).1 = p.inc
      (¬ present → exec (.reducePartialArrival n) s = .next ((gone s).partialDone p)) ∧
      (present → s.expects p = false →
        exec (.reducePartialArrival n) s = .next (((gone s).takePartial p).partialDone p)) ∧
      (∀ u, present → s.expects p = true →
        s.viaChannels ⟨agentId 6 0 p.core, p.line⟩ [lineLoc p.line 0] = .ok u → u.partialMeets p = false →
        exec (.reducePartialArrival n) s = .next (((gone u).takePartial p).partialDone p)))

/-- R227, R247, R249: the results of a plain copy of 32-bit elements from the core's scratchpad to its
scratchpad. A step of the walk writes one word of the dense box with the bytes of its tensor element,
and no other byte; the completion posts the copy's record into an inbox with room, and the copy
leaves the engine. -/
def Says.CopyResults : Prop :=
  ∀ (s : State) (c i : Nat) (o : CopyOp) (d : Desc), let k := s.core c
    k.copies[i]? = some o → o.started = true → o.desc = some d →
    (Desc.ety d = some .b32 → o.req.w0 = 0x120#64 → o.mask = none → o.stream = none →
      k.pair = none → Memory.wf k.scratch = true → s.poison = [] → (∀ e, (s.core e).lateStores = []) →
      o.next < o.total → o.total = o.elems d → o.ahead = [] → o.req.w2.toNat % 4 = 0 →
      let n := o.pick false (Config.copyPick s.free)
      let src := Desc.taddr d 4 (o.coords d n)
      let dst := o.req.w2.toNat + 4 * n
      Desc.inBounds d (o.coords d n) = true → 0 ≤ src → src + 4 ≤ 0x80000 → dst + 4 ≤ 0x80000 →
      ∃ t, exec (.copyElementComplete c i) s = .next t ∧
        ∀ a, Memory.byte (t.core c).scratch a = if dst ≤ a ∧ a < dst + 4
          then Memory.byte k.scratch (src.toNat + (a - dst)) else Memory.byte k.scratch a) ∧
    (o.req.cmpl = false → o.mask = none → o.stream = none → o.queue = none → o.grp = 0 →
      o.status = 0 → o.total ≤ o.next → s.owes (agentId 3 o.mt c) o.seq = false → k.inbox.length < 32 → k.posting = [] →
      k.fifo = [] → (∀ e ∈ s.cores, ∀ m, (e.2.mt m).stepping = []) →
      ∃ t, exec (.copyCompletion c i) s = .next t ∧
        (t.core c).inbox = k.inbox ++ [⟨0, 0, o.seq, 0, 0, o.req.w3.setWidth 16⟩] ∧
        (t.core c).copies = k.copies.eraseIdx i)

/-- R109, R250: a partial without a slice, of the present incarnation, is combined with its line as soon
as it reaches it through a free channel, and meets no region whose messages are on their way: each of its
elements by the operation of the reduction, and no partial of the line is buffered for it. -/
def Says.ReducePartials : Prop :=
  ∀ (s : State) (n : Nat) (p : Partial) (b : Nat) (v : List Byte),
    s.partialQ[n]? = some p → (∀ q ∈ s.partialQ.take n, q.line ≠ p.line) →
    BitVec.ofNat 8 (s.incEntry p.ctx.toNat).1 = p.inc → p.slice = none → p.data = [(b, v)] →
    v.length = 4 → s.MemOk → p.line % 4 = 0 → b + 4 ≤ 64 → s.partialMeets p = false →
    s.channelHeld ⟨agentId 6 0 p.core, p.line⟩ (lineLoc p.line 0) = false →
    let l := Loc.dram (p.line / 4 * 64 + b)
    ∃ t, exec (.reducePartialArrival n) s = .next t ∧ t.partialQ = s.partialQ.eraseIdx n ∧
      t.partials = s.partials ∧
      t.readLoc l 4 = leBytes 4 (redOp p.ty p.op (leNat (s.readLoc l 4)) (leNat v)) ∧
      ∀ a, a < p.line / 4 * 64 + b ∨ p.line / 4 * 64 + b + 4 ≤ a →
        Memory.byte t.dram a = Memory.byte s.dram a

/-- R262, R270, R271, R276, R283: the head of the event unit's queue acts once no earlier matrix
operation concerns its bank; an RGRAD sends the gradient of the channels that it can read, once that has
been performed its signal, and then completes, with a late fault where a read failed; event words and rank
messages enter the core's queues in order, where they find room. -/
def Says.EventSteps : Prop :=
  ∀ (s : State) (c : Nat),
    let k := s.core c
    (∀ e rest t, k.evq = e :: rest → k.frozen = false → k.mxBefore e = false → s.poison = [] →
      s.evAct c e = some t → exec (.eventUnitAction c) s = .next
        ((t.modCore c fun k => { k with evq := k.evq.drop 1 }).opDone c e.mt e.seq)) ∧
    (∀ e rest g, k.evq = e :: rest → e.kind = .rgrad g →
      let owes := s.owes (agentId 4 e.mt c) e.seq
      let r := s.gradCheck c g
      let now (g : GradOp) : State :=
        s.modCore c fun k => { k with evq := { e with kind := .rgrad g } :: k.evq.drop 1 }
      let ends (g : GradOp) : State :=
        let offs := if g.status = 0 then 0 else g.offs
        let u := s.modCore c fun k => { k with evq := k.evq.drop 1 }
        (if g.status = 0 then u else u.engineFault c 4 e.mt 0x22 e.seq (BitVec.ofNat 32 g.status)
          (BitVec.ofNat 128 offs)).postRecord c ⟨0, BitVec.ofNat 32 offs, e.seq, g.status, 4, 0⟩
      (owes = true → exec (.rgradCompletion c) s = .next s) ∧
      (owes = false → g.sent = false → k.frozen = false →
        let g' : GradOp := { g with sent := true, status := r.1, offs := 4 * r.2 }
        exec (.rgradCompletion c) s = .next (if r.2 = 0 ∧ r.1 ≠ 0 then ends g'
          else (now g').gradSend c e g' r.2)) ∧
      (owes = false → g.sent = true → g.status = 0 → g.signalled = false →
        let g' : GradOp := { g with signalled := true }
        exec (.rgradCompletion c) s = .next ((now g').gradSignal c e g')) ∧
      (owes = false → g.sent = true → g.status ≠ 0 ∨ g.signalled = true →
        exec (.rgradCompletion c) s = .next (ends g))) ∧
    (∀ y x m v rest, k.arrivals = .event y x m v :: rest → k.enters (.event y x m v) = true →
      exec (.tqArrival c) s = .next (s.setCore c { k with
        arrivals := rest
        tq := match producerOf k.tq.prods x m with
          | none => k.tq.dropped 1
          | some p => k.tq.take p v })) ∧
    (∀ x y m es fin rest, k.arrivals = .rank x y m es fin :: rest →
      k.enters (.rank x y m es fin) = true →
      exec (.rankMessageArrival c) s = .next (s.setCore c (match producerOf k.wr.prods y m with
        | none => { k with arrivals := rest, tq := k.tq.dropped (max 1 es.length) }
        | some p => { k with
          arrivals := rest, wr := (k.wr.message p es fin).1
          tq := k.tq.dropped (k.wr.message p es fin).2 })))

/-- R223, R334: an arrival that is ready reaches the barrier home and is counted in its phase; a stamped
release reaches the waiters at its time. -/
def Says.BarrierSteps : Prop :=
  ∀ (s : State) (n : Nat),
    (∀ a, s.barPending[n]? = some a → (s.barrier a.key).phase = a.phase → a.ready = true →
      exec (.barrierArrival n) s =
        .next (({ s with barPending := s.barPending.eraseIdx n } : State).countArrival
          (s.barrier a.key) a.k)) ∧
    (∀ b ph tr rest, s.barriers[n]? = some b → b.release = (ph, tr) :: rest →
      exec (.barrierRelease n) s = .next (if tr ≤ s.now
        then s.setBarrier { b with release := b.release.del ph } else s))

/-- R307, R308, R313, R315, R340, R379, R380, R386, R390 to R395: packets of the wire. One between packages
comes while a port is up, and a write to a bank in refresh stays on its way. A bad check discards a
packet; a message is received by its destination, an answer frees, delays or gives up the copy at its source; a message that has not moved for 20 µs goes to the
escape channel; a copy whose time has passed is sent again, and the sixteenth timeout in a row kills
the paddock; a message held for its twin's for 50 µs aborts the pair, or is discarded once its launch has
been ended; eight retries in succession take a port down. The model's choices (log 30): 143 ns for the 256
fabric cycles, resends after a RETRY counted in RSNDCNT, and the die that counts an escape, which is free. -/
def Says.FabricSteps : Prop :=
  ∀ (s : State) (n : Nat),
    (∀ p, s.wire[n]? = some p →
      let shut := p.kind == .data && p.payload.place.any s.refreshing
      (shut = false → p.dst < 4096 → p.src < 4096 → s.arriving n = some p) ∧
      (shut = true → s.arriving n = none) ∧
      ((4096 ≤ p.dst ∨ 4096 ≤ p.src) → s.portsUp = [] → s.arriving n = none) ∧
      (p.esc = false → exec (.escapeTimeout n) s = .next (if s.now < p.moved + 20000 then s
        else ({ s with wire := s.wire.set n { p with esc := true, moved := s.now } } : State).modDie
          (Config.escapeDie s.free).val fun x => { x with escCnt := min 65535 (x.escCnt + 1) }))) ∧
    (∀ p, s.arriving n = some p →
      let t : State := { s with wire := s.wire.eraseIdx n }
      let u := t.linkGood p
      exec (.fabricMessageArrival n true) s = .next t ∧
      (p.kind = .data → p.pair = none →
        exec (.fabricMessageArrival n false) s = .next (u.packetIn p)) ∧
      (p.kind = .data → p.pair ≠ none →
        exec (.pairedMessageArrival n) s = .next (u.packetIn p)) ∧
      (p.kind = .ack → exec (.ackArrival n) s = .next (u.freeCopy p.dst p.src p.flow p.seq)) ∧
      (p.kind = .retry → exec (.retry n) s = .next (u.modCopies p.dst p.src p.flow p.seq fun c =>
        { c with retryAt := some s.now, timeouts := 0 })) ∧
      (p.kind = .reject →
        exec (.reject n) s = .next (u.giveUpCopy p.dst p.src p.flow p.seq))) ∧
    (∀ f c rest, s.flows[n]? = some f → s.blocked f = false → f.copies = c :: rest →
      (f.window = [] → ∀ w, c.retryAt = some w → w + 143 ≤ s.now →
        exec (.retryResend n) s = .next
          (((s.modCopies f.src f.dst f.cls c.pkt.seq (·.resent s.now)).countResend f.src).putWire
            [c.pkt])) ∧
      (c.retryAt = none → c.sentAt + (if 4096 ≤ f.dst then 32000 else 4000) ≤ s.now →
        (c.timeouts ≠ 15 ∨ 2048 ≤ f.dst → exec (.resendTimeout n) s = .next
          (((s.modCopies f.src f.dst f.cls c.pkt.seq fun c =>
            { c.resent s.now with timeouts := c.timeouts + 1 }).countResend f.src).putWire [c.pkt])) ∧
        (c.timeouts = 15 → f.dst < 2048 → exec (.resendTimeout n) s = .next
          (let x := f.dst % 1024
           let t := if s.killable (coreDie x) (s.paddockOf x)
             then s.count f.src fun d => { d with lossK := min 65535 (d.lossK + 1) } else s
           (t.killPaddock (coreDie x) (s.paddockOf x)).giveUpCopy f.src f.dst f.cls c.pkt.seq)))) ∧
    (∀ h g a b, s.pairs[n]? = some h → h.pkt.pair = some g →
      s.pairCore h.pkt.ctx g.id false = some a → s.pairCore h.pkt.ctx g.id true = some b →
      exec (.twinTimeout n) s =
        .next (if h.since + 50000 ≤ s.now then s.pairAbort 2 a b g 0 0 else s)) ∧
    (∀ h g, s.pairs[n]? = some h → h.pkt.pair = some g → h.since + 50000 ≤ s.now →
      s.pairCore h.pkt.ctx g.id false = none →
      exec (.twinTimeout n) s =
        .next (({ s with pairs := s.pairs.eraseIdx n } : State).discardPaired h.pkt)) ∧
    (n < 32 → (s.ports.look (0, false) n).2 = false → exec (.linkFlitCrcFail n) s = .next
      (let m := (s.ports.look (0, false) n).1 + 1
       if m = 8 then ({ s with ports := s.ports.put (0, false) n (0, true) } : State).contain
         (Containment.plain Config.portRecordType.toNat)
       else { s with ports := s.ports.put (0, false) n (m, false) })) ∧
    (∀ r, s.trapQ[n]? = some r → (s.trapQ.take n).all (fun x => s.ringOf x != s.ringOf r) = true →
      exec (.trapRecordArrival n) s = .next (({ s with trapQ := s.trapQ.eraseIdx n } : State).ringDeliver
        (s.ringOf r) (r.bytes false)))

/-- R286 to R292: the next queue entry, or held child launch, becomes a node of its slot; a
notification counts down its node, or is kept as a credit; a node at one level for 256 µs rises. The
statuses of what is not admitted are the model's reading (log 27). -/
def Says.LaunchAdmission : Prop :=
  ∀ (s : State) (d : Nat), s.dispatches d = true →
    let x := s.die d
    let n := Config.launchQueueSize d
    (x.lqHead ≠ x.lqTail.toNat % n →
      let bs := s.queueEntry d x.lqHead
      let t := s.modDie d fun x => { x with lqHead := (x.lqHead + 1) % n }
      exec (.launchQueueEntryRead d) s = .next (if s.entryOk d bs
        then t.enterNode (leField bs 0x0E 2) (entryNode bs) (leField bs 0x0C 2)
        else t.badEntry d (entryNode bs))) ∧
    (∀ q va ctx level rest i, x.childQ = (q, va, ctx, level) :: rest → x.freeSlot = some i →
      exec (.childLaunchAdmit d) s = .next ((s.modDie d fun x => { x with childQ := rest }).enterNode
        (d * 4096 + i) (.bad va ctx level [] 0 (some q)) 0)) ∧
    (∀ m rest, x.notifyQ = m :: rest →
      let t := s.modDie d fun x => { x with notifyQ := rest }
      (t.node? m = none → exec (.nodeNotification d) s = .next (t.modDie d fun x =>
        { x with credits := x.credits.put 0 (m % 4096) (x.credits.look 0 (m % 4096) + 1) })) ∧
      (∀ y, t.node? m = some y → exec (.nodeNotification d) s = .next
        (let u := t.setNode m { y with counter := y.counter - 1 }
         if y.st = .waiting ∧ y.counter = 1 then u.toReady m else u))) ∧
    (∀ i y, i < 4096 → s.node? (d * 4096 + i) = some y → y.st = .ready → y.level < 3 →
      y.since + 256000 ≤ s.now → exec (.readyPriorityAging (d * 4096 + i)) s =
        .next ((s.setNode (d * 4096 + i) { y with level := y.level + 1, since := s.now }).modDie d
          fun z => { z with ready := z.ready.filter (·.1 != i) ++ [(i, y.level + 1)] }))

/-- R292 to R294, R300 to R303, R346, R384, R398: the distributor places the node at the head, a
cooperative one as a whole; a placed core starts; a core whose control thread has called for it ends its
part; a node whose cores are quiet, or whose killed cores have drained, completes, each of those with its
0x32 record; a sweep is not made within 2 µs. The model's choice (log 15): at the end of its part the
control thread waits in WFI in supervisor mode. -/
def Says.LaunchRuns : Prop :=
  ∀ (s : State) (n : Nat) (x : Node), s.node? n = some x → s.dispatches (n / 4096) = true →
    let cs := x.cores ++ x.twins
    (∀ i, n % 4096 = i → s.placingNode (n / 4096) = some i → x.st = .placing →
      let t := (s.modDie (n / 4096) fun z =>
        { z with nodes := z.nodes.upd i x, ready := z.ready.filter (·.1 != i) }).placeAll
          (n / 4096) n x
      ∀ y, t.node? n = some y → exec (.distributorPlace (n / 4096)) s =
        .next (if (x.coop && !y.placed) || y.cores.isEmpty then s else t)) ∧
    (∀ c t, (s.core c).launch = some n → (s.core c).started = false → (s.core c).pair = none →
      x.paired = false → x.st = .placing → c ∈ x.cores → s.coreRuns c = true →
      s.startCore x c = some t → exec (.launchCoreStart c) s = .next (t.advanceNode n)) ∧
    (∀ c, (s.core c).launch = some n → (s.core c).started = true → (s.core c).ended = false →
      s.coreRuns c = true → (s.hart c).partEnd = true → exec (.endOfPart c) s =
        .next ((s.modCore c fun k =>
          { k with ended := true, ct := { k.ct.park with partEnd := false } }).advanceNode n)) ∧
    (x.st = .ending → x.status = 0 →
      cs.all (fun c => !(s.core c).passive && s.quiet c) = true →
      exec (.nodeComplete n) s = .next (s.complete n x)) ∧
    (s.now < x.sweptAt + 2000 → exec (.terminationSweep n) s = .next s) ∧
    (x.sweptAt + 2000 ≤ s.now → x.st = .running → ∃ t, exec (.terminationSweep n) s = .next t ∧
      t.node? n = some { x with sweptAt := s.now } ∧
      ∀ c ∈ cs, t.core c = { s.core c with firedSince := false }) ∧
    (let on := cs.filter fun c => (s.core c).launch == some n
     on.all (fun c => (s.core c).mtsIdle && s.drained c) = true → x.st = .ending →
      (x.status = 3 → exec (.killedLaunchDrained n) s = .next (s.complete n x)) ∧
      (x.status = 4 → exec (.killedLaunchDrained n) s =
        .next ((on.foldl (fun s c => s.killRecord c) s).complete n x)))

/-- R357 to R361, R403: once its engines have drained, a migrating core writes its cause 0x30 records;
then its context switches to the destination. Its micro-threads keep all but the names of what they have
joined, the memories, banks, inbox, queues and the reading of mcycle come with them, the operand cache is
empty and SPGEN has stepped, the source's site is empty, the other cores of the launch name the destination
where they named the source, and an entry forwards while a flow to the old endpoint has messages that are
not acknowledged. DESIGN CHOICE (log 23): an RGRAD whose producer is frozen moves on its way. -/
def Says.MigrationSteps : Prop :=
  ∀ (s : State) (d : Nat) (ps : List (Nat × Nat)) (b : Bool), d < 4 →
    (s.die d).migration = some ⟨ps, b⟩ →
    (b = false → ps.all (fun p => s.drained p.1) = true →
      exec (.migrationStream d) s = .next ((ps.foldl (fun s p => s.migRecords p.1 p.2) s).modDie d
        fun x => { x with migration := some ⟨ps, true⟩ })) ∧
    (b = true → ∃ t, exec (.migrationSwitch d) s = .next t ∧ (t.die d).migration = none ∧
      (t.die d).migst = 2 ∧ (t.die d).migwhy = 0 ∧
      ∀ a c n x, ps = [(a, c)] → a ≠ c → a < 1024 → c < 1024 → (∀ y ∈ s.cores, y.2.lateStores = []) →
        (s.core a).launch = some n → s.node? n = some x →
        let k := s.core a
        let l := t.core c
        l.launch = some n ∧ l.ctx = k.ctx ∧ l.inc = k.inc ∧ l.frozen = false ∧
        (∀ m, ∃ y z q g, t.mt c m = { s.mt a m with arrived := y, bph := z, stepping := q, gang := g }) ∧
        l.scratch = k.scratch ∧ l.lane = k.lane ∧ l.mbox = k.mbox ∧ l.banks = k.banks ∧
        l.inbox = k.inbox ∧ l.actors = k.actors ∧ l.links = k.links ∧ l.seq = k.seq ∧ l.ring = k.ring ∧
        l.tq.held = k.tq.held ∧ l.mx.cache = [] ∧ l.mx.spgen = k.mx.spgen + 1 ∧
        t.mcycleOf c = s.mcycleOf a ∧
        (t.core a).launch = none ∧ (t.core a).mts = Core.init.mts ∧
        (∀ e ∈ x.cores, e ≠ a → e ≠ c → ∀ r (w : Word), (s.core e).bindtab.get? r = some w →
          w.getLsbD 31 = true → w.toNat / 2 ^ 28 % 8 < 2 →
          w.toNat / 2 ^ 10 % 512 = Config.pkgNum → w.toNat % 1024 = a →
          (t.core e).bindtab.get? r = some ((w &&& ~~~0x3FF#32) ||| BitVec.ofNat 32 c)) ∧
        (∀ e ∈ x.cores, e ≠ a → e ≠ c → ∀ cls, (s.flow e a cls).copies ≠ [] →
          ∃ w ∈ t.forwards, w.src = a ∧ w.dst = c ∧ w.ctx = k.ctx))

/-- R382 to R388: paddock writes, kills and unfencing; poison; corrected errors and the undervolt
offset, and the predictive count that asks for a repair; spares of each kind, which wait for their paddock
to hold no launch or be fenced; lockstep mismatches, of which the third within a second fails the
processor, and the restart; sweeps of incarnations. The model's choices: KILL with EN 0 has no effect, the
threshold is crossed with the first error after PFT and a repair waits (log 32); the sequence numbers that
a fresh endpoint expects (log 16). -/
def Says.ContainmentSteps : Prop :=
  ∀ (s : State) (d p q a : Nat) (v : DWord),
    let pk := (s.die d).paddock p
    let u := s.uvctl d q
    ((pk.withRect v ≠ pk ∧ s.pdkLegal d p pk (pk.withRect v) = false) →
      exec (.paddockDefine d p v) s = .next s) ∧
    (pk.withRect v ≠ pk → s.pdkLegal d p pk (pk.withRect v) = true → v.getLsbD 61 = false →
      v.getLsbD 60 = false → exec (.paddockDefine d p v) s =
        .next (s.modDie d (·.modPaddock p fun _ => pk.withRect v))) ∧
    ((pk.fen = true ∨ p ≠ 16 ∧ pk.en = false) → exec (.paddockKill d p) s = .next s) ∧
    (pk.fen = false → (p = 16 ∨ pk.en = true) → (s.die d).frozen = false → exec (.paddockKill d p) s = .next
      (((s.modDie d (·.modPaddock p fun x =>
        { x with fen := true, kcnt := min 255 (x.kcnt + 1), pending := s.contextsIn d p })).dropFlows
          d p).killRest d p)) ∧
    (∀ c ∈ s.paddockCores d p, (s.core c).launch.isSome = true →
      (s.core c).ctx.toNat ∈ s.contextsIn d p) ∧
    (pk.fen = true → pk.pending = [] → pk.owed = false → exec (.paddockUnfence d p) s = .next
      ((s.freshReceive d p).modDie d (·.modPaddock p fun x => { x with fen := false }))) ∧
    (pk.pending ≠ [] → exec (.paddockUnfence d p) s = .next s) ∧
    (∀ e, (∀ d, e ≠ .schedulerSram d) → ∃ t, exec (.uncorrectableError e) s = .next t ∧
      t = { s with poison := t.poison } ∧ ∀ x, x ∈ t.poison ↔ x ∈ s.poison ∨ x = e) ∧
    (u.voff ≠ 0 → exec (.correctedError d q a) s = .next
      ((s.modDie d fun x => { x with
        cec := x.cec.put 0 (cecIdx q a u.voff) (min 65535 (x.cec.look 0 (cecIdx q a u.voff) + 1)) }).modUv
          d q fun u => { u with lastError := s.now, recent := s.now :: u.recent })) ∧
    (s.bootStep = 4 → u.lock = false → u.voff < u.vmax.toNat → u.lastError + 1000000000 ≤ s.now →
      exec (.undervoltStepUp d q) s = .next (s.modUv d q fun u =>
        { u with voff := u.voff + 1, lastError := s.now, recent := [] })) ∧
    (u.lock = true → u.backoff + 60000000000 ≤ s.now →
      exec (.uvctlLockClear d q) s = .next (s.modUv d q fun u => { u with lock := false })) ∧
    (s.bootStep = 4 → u.voff = 0 → ((s.die d).predict.look [] (q * 8 + a)).countP
        (fun t => decide (s.now < t + 86400000000000)) = Config.predictiveThreshold →
      ∃ t r, exec (.correctedError d q a) s = .next t ∧
        (t.die d).repairs = (s.die d).repairs ++ [r] ∧ Spare.dieOf r = d) ∧
    (∀ r, Spare.dieOf r = d → s.bootStep = 4 → (s.die d).frozen = false → (s.die d).failed = false →
      let c := Spare.coreOf r
      let k := (s.killPaddock d (s.paddockOf c)).modDie d fun x =>
        { x with repairs := x.repairs.erase r }
      let left := Spare.usedOf r (k.die d).sparesUsed <
        match r with | .tile .. => 1 | .l2Way .. => 1 | .channel .. => 32 | .row .. => 64
      (s.fenced c = false → s.paddockBusy c = true → exec (.spareBind r) s = .next (s.modDie d fun x =>
        { x with repairs := if x.repairs.contains r then x.repairs else x.repairs ++ [r] })) ∧
      (s.fenced c = true ∨ s.paddockBusy c = false →
        (left → exec (.spareBind r) s = .next ((k.useSpare r).contain (Containment.plain 8)) ∧
          r ∈ ((k.useSpare r).die d).sparesUsed) ∧
        (¬ left → exec (.spareBind r) s = .next ((k.retire r).contain (Containment.plain 9)))) ∧
      match r with
      | .tile _ t => (k.retire r).tile (d * 64 + t) = { k.tile (d * 64 + t) with en := false } ∧
          ((k.useSpare r).tile (d * 64 + t)).pcol =
            some (BitVec.ofNat 4 (Config.spareColumn d (t / 8)).val)
      | .l2Way _ x => x ∈ ((k.retire r).die d).deadWays
      | .channel _ x => x ∈ ((k.retire r).die d).retired
      | .row _ x b => (x, b) ∈ ((k.retire r).die d).deadRows) ∧
    ((s.die d).mismatches = [] → (s.die d).failed = false → 2 ≤ s.bootStep →
      exec (.lockstepMismatch d) s = .next
      (s.modDie d fun x => { x with frozen := true, mismatches := [s.now] })) ∧
    (∀ t₁ t₂, (s.die d).mismatches = [t₁, t₂] → s.now < t₁ + 1000000000 → s.now < t₂ + 1000000000 →
      (s.die d).failed = false → 2 ≤ s.bootStep → exec (.lockstepMismatch d) s = .next
        ((s.modDie d fun x => { x with frozen := true, mismatches := [s.now, t₁, t₂] }).cpFail d)) ∧
    ((s.die d).failed = false → ((s.cpFail d).die d).failed = true) ∧
    ((s.die d).frozen = true → (s.die d).failed = false →
      (∀ p, ((s.die d).paddock p).owed = false) → exec (.cpResume d) s = .next
        ((s.modDie d fun x => { x with frozen := false, rcnt := min 255 (x.rcnt + 1) }).contain
          (Containment.plain 5))) ∧
    (∀ n, s.sweeps.get? (p * 256 + a) = some n → exec (.incarnationSweep p a) s =
      .next { s with sweeps := s.sweeps.upd (p * 256 + a) (if s.tagged p a = 0 then n + 1 else 0) })

/-- R321 to R324, R329 to R331, R388, R400, R401: the budget tick, 10 µs after the one before, senses,
rotates, sets operating points and duties and backs undervolting off; hops, refreshes, droop, and the gating
of a core with their times: a request at the very time at which the hold ends cancels it too. The model's
readings (log 31): the phases of the first tick and of the refreshes are free. -/
def Says.PowerSteps : Prop :=
  ∀ (s : State) (c : Nat),
    (∀ env, ((∀ t, s.budgetAt = some t → t + 10000 ≤ s.now) → s.bootStep = 4 → exec (.budgetTick env) s = .next
        ((List.range 16).foldl (fun s q => s.backOff (q / 4) (q % 4))
          (((({ s with budgetAt := some s.now } : State).sense env).rotation).budget env))) ∧
      (∀ t, s.budgetAt = some t → s.now < t + 10000 → exec (.budgetTick env) s = .next s)) ∧
    (∀ h, (s.tile c).hop = some h → exec (.hopEnd c) s =
      .next (if h + 1000 ≤ s.now then s.modTile c fun x => { x with hop := none } else s)) ∧
    ((s.chan c).busy = false → (s.chan c).due s.now = true → exec (.dramRefresh c) s =
      .next (s.modChan c fun x => { x with last := some s.now, busy := true })) ∧
    (∀ t, (s.chan c).last = some t → exec (.dramRefreshEnd c) s =
      .next (if t + 350 ≤ s.now then s.modChan c fun x => { x with busy := false } else s)) ∧
    (∀ hs, (s.tile c).hop = none → (s.tile c).forced = none → exec (.droopDetect c hs) s = .next
      (if hs then (s.modTile c fun x => { x with forced := some s.now }).forceTile c true
      else s.modTile c fun x => { x with droop := some s.now, forced := none })) ∧
    (∀ t, (s.tile c).droop = some t → (s.tile c).forced = none → exec (.droopEnd c) s =
      .next (if t + 200 ≤ s.now then s.modTile c fun x => { x with droop := none } else s)) ∧
    ((s.core c).gate = .on → (s.core c).frozen = false → exec (.coreGate c) s =
      .next (if (s.core c).gateable then s.setGate c (.hold s.now) else s)) ∧
    (∀ t, (s.core c).gate = .hold t → (s.core c).gateable = true → (s.core c).frozen = false →
      exec (.coreGate c) s =
        .next (if t + 2000 ≤ s.now then s.setGate c (.entering s.now false) else s) ∧
      exec (.wakeRequest c) s = .next (s.setGate c .on)) ∧
    (∀ t w, (s.core c).gate = .entering t w → t + 50 ≤ s.now → exec (.gatingEntryEnd c) s =
      .next (if w then (s.setGate c .gated).joinArbiter c else s.setGate c .gated)) ∧
    (∀ t w, (s.core c).gate = .entering t w → exec (.wakeRequest c) s =
      .next (s.setGate c (if t = s.now then .on else .entering t true))) ∧
    ((s.core c).gate = .gated → exec (.wakeRequest c) s = .next (s.joinArbiter c)) ∧
    (((s.core c).gate = .waiting ∨ ∃ t, (s.core c).gate = .waking t) →
      exec (.wakeRequest c) s = .next s) ∧
    (∀ t, (s.core c).gate = .waking t → t + 250 ≤ s.now →
      (∀ p ∈ (s.arbiter (quadOf c)).waiting, p.1 ≠ c) → ∃ u, exec (.wakeComplete c) s = .next u ∧
      (u.core c).gate = .on)

/-- R316 to R320, R385: a package reset boots again, DRAM keeping its contents; the boot stops at the
first of its four images that does not verify, which a report names with the cause; an attestation report
leaves through the management port; where the host die has started, an inbound write lands where the
tables allow it, and an application core's accesses act. The model's choices: the two bytes of a boot report
(log 3), DRAM kept across a reset (log 4), what inbound DMA reaches and what poison does to an application
core's atomic (log 32). -/
def Says.PackageSteps : Prop :=
  ∀ (s : State),
    (∃ t, exec .packageReset s = .next t ∧ t.dram = s.dram ∧ t.remote = s.remote ∧ t.gran = [] ∧
      t.wire = [] ∧ (∀ c, t.core c = State.reset.core c) ∧
      ((∀ i, 1 ≤ i → i ≤ 4 → imageFault i = 0) → t.bootStep = 4 ∧ t.reports = s.reports ∧
        (∀ d, t.die d = State.reset.die d) ∧ ∀ x, t.tile x = State.reset.tile x) ∧
      (∀ n, n < 4 → (∀ i, 1 ≤ i → i ≤ n → imageFault i = 0) → imageFault (n + 1) ≠ 0 →
        t.bootStep = n ∧ t.reports =
          s.reports ++ [[BitVec.ofNat 8 (n + 1), BitVec.ofNat 8 (imageFault (n + 1))]] ∧
        ∀ x, x < 256 → (t.tile x).en = false)) ∧
    (∀ nonce, exec (.attestationRequest nonce) s =
      .next { s with reports := s.reports ++ [s.attestation nonce] }) ∧
    (∀ va root, exec (.inboundDma va root none) s = .next s) ∧
    (∀ va root bs, 1 ≤ s.bootStep → exec (.inboundDma va root (some bs)) s =
      .next (match s.dmaPlaces root .write va bs.length with
        | none => s
        | some ls => s.dmaWrite ls bs)) ∧
    (s.bootStep = 0 → ∀ pa op, exec (.applicationCoreAccess pa op) s = .next s) ∧
    (∀ pa a bs, 1 ≤ s.bootStep → physLoc pa 0 = some (.device a) →
      exec (.applicationCoreAccess pa (.store bs)) s =
        .next (s.devWrite a bs.length (BitVec.ofNat 64 (leNat bs)))) ∧
    (∀ pa l, 1 ≤ s.bootStep → physLoc pa 0 = some l → (∀ a, l ≠ .device a) →
      (∀ m, exec (.applicationCoreAccess pa (.load m)) s = .next s) ∧
      (∀ bs, exec (.applicationCoreAccess pa (.store bs)) s = .next (s.writeLoc l bs)) ∧
      (∀ v, exec (.applicationCoreAccess pa (.amoAdd v)) s = .next
        (if s.poisoned l then s else s.writeW l (s.readW l + v))))

/-! ### Every instruction -/

/-- R123, R37, R116, R124, R298, R364: an instruction of a micro-thread that issues alone, with no lane enabled,
only moves on, REP apart. Moving on: in a repeat, one repeat fewer remains and the program counter
stays; else it goes to the next instruction; past the end of a seed block it goes to the
continuation that BFETCH named, and without one the micro-thread stops; where an MTSTOP waits for this
boundary it stops too (R40). One that waited, or yields, is the youngest of its core; a stall hint holds the next instruction back (2/3 ns for a cycle, log 36). -/
def Says.GuardAndCounter : Prop :=
  (∀ (i : Instr) (op : Nat) (f : Ny) (s : State), i.ny? = some (op, f) → op ≠ 0x184 → s.Alone →
    s.cur.guardMask f.guard = 0 → exec i s = .next (s.onward s f)) ∧
  (∀ (s t : State) (f : Ny), let c := s.curCore
    let m := s.curMt
    let x := t.mt c m
    let y := (s.onward t f).mt c m
    let age := if x.st = .waiting then t.youngest c m else x.age
    (1 < x.repcnt → x.stopDue = false → y = { x with
      st := .running, blocked := none, resumed := false, repcnt := x.repcnt - 1, age := age }) ∧
    (x.repcnt ≤ 1 → t.Runs c m → y = { x with
      st := .running, blocked := none, resumed := false, repcnt := 0, rep := none, pc := x.pc + 12
      stl := t.now + f.hint.stl.toNat * 2 / 3
      age := if f.hint.yld then t.youngest c m else age }) ∧
    (x.stopDue = true → x.gang = none → x.asked = [] → y.st = .stopping) ∧
    (∀ b, x.repcnt ≤ 1 → x.block = some b → b.has (x.pc + 12) = false → x.gang = none → x.stopDue = false →
      (∀ va, b.cont = some va → (t.core c).dbgctl.getLsbD m = false →
        y.pc = va ∧ y.block = none ∧ y.st = .running) ∧
      (b.cont = none → y.st = .stopping ∧ y.block = none)))

/-- Every instruction and every step answers a next state: no operand stops the machine. -/
def Says.NothingStops : Prop := ∀ (i : Instr) (s : State), ∃ t, exec i s = .next t

/-! ### What instructions leave alone -/

/-- A register or predicate source changes nothing; a stream register that is read changes itself and
closes the micro-thread's region (R88, R160, R218), where the core has no scratchpad access outstanding. -/
def Says.SourceFrames : Prop :=
  ∀ (f : Ny) (s s1 : State) (x : Nat → Word) (ty : Ty) (whole : Bool) (o : Operand),
    s.curCore < 1024 → s.curMt < 16 →
    (∀ q, o = .stream q → (s.core s.curCore).lateStores = [] ∧ (s.core s.curCore).earlyLoads = []) →
    s.src (s.me f) ty whole o = .ok (s1, x) →
    ((∀ q, o ≠ .stream q) → s1 = s) ∧
    s.SameBut s1 s.curCore s.curMt ∧
    (∀ q, o = .stream q → ∃ r,
      s1.cur = { s.cur with q := s.cur.q.put .idle q.toNat r, region := s.cur.region + 1 })

/-- The frame of the instructions that compute registers and predicates from registers. Where one
neither waits nor traps, only its destination registers change, and of a vector register only the
enabled lanes, but where the instruction writes all of them; no other register of the micro-thread,
nothing of another agent, no memory, special register, accumulator or engine changes. A stream
register that the instruction reads may change, with the region that the read closes. -/
def Says.RegisterFrames : Prop :=
  ∀ (f : Ny) (s t : State) (i : Instr), i ∈ registerInstrs f → s.Alone →
    (∀ p off, f.a ≠ .nwin p off) → (∀ r off, f.a ≠ .role r off) →
    (∀ q, f.b = .stream q ∨ f.c = .stream q →
      (s.core s.curCore).lateStores = [] ∧ (s.core s.curCore).earlyLoads = []) →
    exec i s = .next t → t.cur.st = .running →
    s.SameBut t s.curCore s.curMt ∧
    (∀ r l, l < 32 → (r ∉ (registerDst f i).1 ∨ i ∉ wholeRegister f ∧ (s.me f).on l = false) →
      t.cur.vlane r l = s.cur.vlane r l) ∧
    (∀ r, r ∉ (registerDst f i).2.1 → t.cur.sreg r = s.cur.sreg r) ∧
    (∀ r, r ∉ (registerDst f i).2.2 → t.cur.preg r = s.cur.preg r) ∧
    (∀ q, f.b ≠ .stream q → f.c ≠ .stream q → t.cur.stream q.toNat = s.cur.stream q.toNat) ∧
    t.cur.h = s.cur.h ∧ t.cur.hgen = s.cur.hgen ∧ t.cur.rkcnt = s.cur.rkcnt ∧
    t.cur.rsn = s.cur.rsn ∧ t.cur.rsthr = s.cur.rsthr ∧ t.cur.rsstat = s.cur.rsstat ∧
    t.cur.tdead = s.cur.tdead ∧ t.cur.bph = s.cur.bph ∧ t.cur.sig = s.cur.sig ∧
    t.cur.rel = s.cur.rel ∧ t.cur.gang = s.cur.gang ∧ t.cur.fire = s.cur.fire

/-- The frame of NOP, YIELD, BFETCH, CTSIG and the branches: where one does not trap or stop the
micro-thread, no register changes but the counter of LOOP, and nothing of another agent. -/
def Says.ControlFrames : Prop :=
  ∀ (f : Ny) (s t : State) (i : Instr),
    i ∈ [Instr.nop f, .yield f, .bfetch f, .ctsig f, .bra f, .brx f, .loop f] → s.Alone →
    exec i s = .next t → t.cur.st = .running →
    s.SameBut t s.curCore s.curMt ∧ t.lines = s.lines ∧ t.cur.v = s.cur.v ∧ t.cur.p = s.cur.p ∧
    t.cur.h = s.cur.h ∧ t.cur.q = s.cur.q ∧
    (∀ r, (∀ q low, i = .loop f → f.a = .sreg q low → r ≠ q.toNat) →
      t.cur.sreg r = s.cur.sreg r)

/-- The frame of LD and LDX of a core with no scratchpad access outstanding, whose channels are free: no byte of any memory changes, no register but A, and of no other
micro-thread more than its region counter. -/
def Says.LoadFrames : Prop :=
  ∀ (f : Ny) (s s1 s2 : State) (as : List Access) (i : Instr),
    s.Acts i f f.vec → s.Runs s.curCore s.curMt → s.cur.repcnt ≤ 1 →
    (∀ e, (s.core e).lateStores = [] ∧ (s.core e).earlyLoads = []) →
    (∀ e ∈ s.chans, e.2.queue = []) →
    let w := s.me f
    (∀ a ∈ as, s2.rmwAhead s.curCore a.loc 4 = false) → s2.passChannels as = .ok s2 →
    s1.poisonOf as = .ok () → s1.registerAll w f.spc 4 false false as = .ok s2 →
    (i = .ld f ∧ s.ldAccess w f .read f.b f.c f.vec = .ok as ∧ s.handleWait w f.b f.spc = .ok s1 ∨
      i = .ldx f ∧ s.checkAddrs s.curCore f.spc .read (s.ldxAddrs w f w.lanes) = .ok as ∧ s1 = s) →
    ∃ t, exec i s = .next t ∧ s.SameBut t s.curCore s.curMt ∧ t.cur.pc = s.cur.pc + 12 ∧
      s.SameBytes t (fun _ => False) ∧
      (∀ r l, l < 32 → (∀ q sel swz neg abs low, f.a = .vreg q sel swz neg abs low →
        r ≠ q.toNat ∨ w.on l = false) → t.cur.vlane r l = s.cur.vlane r l) ∧
      (∀ r, (∀ q low, f.a = .sreg q low → r ≠ q.toNat) → t.cur.sreg r = s.cur.sreg r) ∧
      t.cur.p = s.cur.p ∧ t.cur.h = s.cur.h ∧ t.cur.q = s.cur.q ∧ t.cur.bph = s.cur.bph

/-- The frame of ST and STX of a core that is not paired, to memory, whose channels are free: the bytes
stored to are the four from the place of each lane's address, those of a scratchpad now or later (log 34);
every other byte of every memory reads as before, and every register of the micro-thread stays. -/
def Says.StoreFrames : Prop :=
  ∀ (f : Ny) (s s1 s2 : State) (as : List Access) (i : Instr),
    s.Acts i f f.vec → s.Runs s.curCore s.curMt → s.cur.repcnt ≤ 1 → s.MemOk →
    (s.core s.curCore).pair = none →
    (∀ e, (s.core e).lateStores = [] ∧ (s.core e).earlyLoads = []) → (∀ e ∈ s.chans, e.2.queue = []) →
    let w := s.me f
    s2.passChannels as = .ok s2 →
    s1.registerAll w f.spc 4 true false as = .ok s2 →
    (i = .st f ∧ s.ldAccess w f .write f.b f.c f.vec = .ok as ∧ s.handleWait w f.b f.spc = .ok s1 ∨
      i = .stx f ∧ s.checkAddrs s.curCore f.spc .write (s.ldxAddrs w f w.lanes) = .ok as ∧
        s1 = s) →
    (∀ a ∈ as, ∀ pa, a.loc ≠ .device pa) →
    ∃ t, exec i s = .next t ∧ t.cur.pc = s.cur.pc + 12 ∧
      s.SameBytes t (fun b => ∃ a ∈ as, b.among a.loc 4) ∧
      t.cur.v = s.cur.v ∧ t.cur.s = s.cur.s ∧ t.cur.p = s.cur.p ∧ t.cur.h = s.cur.h ∧
      t.cur.q = s.cur.q ∧
      (∀ e, { t.core e with scratch := [], lane := [], mbox := [], mts := [], ct := Hart.init
                            lateStores := [], lastMt := 0 } =
        { s.core e with scratch := [], lane := [], mbox := [], mts := [], ct := Hart.init
                        lateStores := [], lastMt := 0 }) ∧
      (∀ e n, (e, n) ≠ (s.curCore, s.curMt) →
        { t.mt e n with region := 0 } = { s.mt e n with region := 0 }) ∧
      (∀ e, { t.hart e with region := 0, resv := none } = { s.hart e with region := 0, resv := none }) ∧
      { t with cores := [], lines := [], dram := [], gran := [], remote := [], remoteLines := []
               poison := [] } =
        { s with cores := [], lines := [], dram := [], gran := [], remote := [], remoteLines := []
                 poison := [] }

/-- The frame of RISC-V arithmetic, jumps and branches (R33; log 6): of the package only rd and the pc
of the one control thread change, with its count of retired instructions, where no step trap
follows. -/
def Says.RiscvFrames : Prop :=
  ∀ (r : RvInstr) (op : Rv) (aqrl : BitVec 2) (len : Nat) (s : State), rvForm r op aqrl len →
    ((rvDest op).isSome = true ∨ (∃ k a b off, op = .branch k a b off) ∨ op = .fenceI) →
    let c := s.curCore
    (s.curHart.priv ≠ .user ∨ (s.core c).dbgctl.getLsbD 17 = false) → s.curHart.stall = none →
    ∃ t, exec (.controlThreadRiscvInstruction r) s = .next t ∧
      { t with cores := [] } = { s with cores := [] } ∧
      (∀ e, { t.core e with ct := Hart.init } = { s.core e with ct := Hart.init }) ∧
      (∀ e, e ≠ c → t.hart e = s.hart e) ∧
      { t.hart c with x := [], pc := 0, minstret := 0 } = { s.hart c with x := [], pc := 0, minstret := 0 } ∧
      (t.hart c).minstret = (s.hart c).minstret +
        (if (s.hart c).mcountinhibit.getLsbD 2 = true then 0 else 1) ∧
      ∀ q, rvDest op ≠ some q → (t.hart c).reg q = (s.hart c).reg q

/-! ### Decoding and the step -/

/-- R118, R119, R125, R131: decoding the word of a well-formed micro-thread instruction gives the
instruction, with every operand at every value that the encoding admits. -/
def Says.NyDecodeEncode : Prop :=
  ∀ (i : Instr) (op : Nat) (f : Ny), i.ny? = some (op, f) → i.wf = true →
    decodeNy (f.toWord op) = .ok i

/-- R140 (RISC-V encodings of the family, log 6): the same for the control extension, the full RISC-V
operations and the compressed ones, whatever follows those. -/
def Says.CtDecodeEncode : Prop :=
  (∀ i w, extWord? i = some w → decodeCt w = i) ∧
  (∀ op aqrl, (RvInstr.full op aqrl).wf = true →
    decodeCt (op.toWord aqrl) = .controlThreadRiscvInstruction (.full op aqrl)) ∧
  (∀ (h hi : BitVec 16) op, (RvInstr.comp h op).wf = true →
    decodeCt (hi ++ h) = .controlThreadRiscvInstruction (.comp h op)) ∧
  (∀ w, (RvInstr.reserved16 w).wf = true → ∀ hi : BitVec 16,
    decodeCt (hi ++ w) = .controlThreadRiscvInstruction (.reserved16 w))

/-- Words that the spec writes out decode to the instructions that they stand for: the worked
encodings of ATOM, MMA, RACC, BRKP and REP (R118, R130). -/
def Says.DecodeWords : Prop :=
  let always : Guard := ⟨false, 15⟩
  let plain : Hint := ⟨false, 0, false⟩
  decodeNy 0xA00447808C00D24000180001#96 = .ok (.atom
    ⟨.s32, 4, always, plain, .sreg 3 13, .sreg 4 0, .imm 1⟩) ∧
  decodeNy 0xC0280783A000021000088000#96 = .ok (.mma
    ⟨.bf16, 0, always, plain, .special 16, .sreg 1 0, .sreg 2 0⟩) ∧
  decodeNy 0xC0280787A20002500009C000#96 = .ok (.mma
    ⟨.bf16, 0, always, ⟨false, 0, true⟩, .special 17, .sreg 5 0, .sreg 7 0⟩) ∧
  decodeNy 0xE2680783A400021000098000#96 = .ok (.racc
    ⟨.bf16, 0, always, plain, .special 18, .sreg 1 0, .sreg 6 0⟩) ∧
  decodeNy 0x630007818000700000000000#96 = .ok (.brkp
    ⟨.b32, 0, always, plain, .imm 7, .zero, .zero⟩) ∧
  decodeNy 0x610007818000460005400000#96 = .ok (.rep
    ⟨.b32, 0, always, plain, .imm 4, .imm 21, .zero⟩)

/-- R37, R116, R119, R131, R298: where the selector chooses the micro-thread of the turn and no
comparator matches, the step runs the instruction that the word at its program counter decodes to,
stepped for the repeat under way; the word is its seed block's, or the 12 bytes at the pc in memory. The
barriers of ended launches go (R223), and a scratchpad's late and early accesses (R84) and regions that end
early (R83) come, before; what time brings follows: lapsed fills go, wakes start, and the next turn is
drawn (log 2). -/
def Says.StepRunsDecoded : Prop :=
  ∀ (s₀ : State) (c m : Nat) (i : Instr), let s := s₀.dropBarriers.padsNext.closeEarly
    s.turn = .mt c m → c < 1024 → m < 16 →
    s.selected c m = true → s.comparator c m = none →
    let u : State := { s with curCore := c, curMt := m }
    let pc := (s.mt c m).pc
    ((∃ b, (s.mt c m).block = some b ∧ b.has pc = true ∧ decodeNy (b.wordAt pc) = .ok i) ∨
      (∃ bs, (s.mt c m).block = none ∧ u.readVirt c .mt .fetch pc 3 = .ok bs ∧
        u.fetchPoison c pc = none ∧ decodeNy (BitVec.ofNat 96 (leNat bs)) = .ok i)) →
    ∃ t, exec ((s.mt c m).repeated i) u = .next t ∧
      let v := t.discardAll.startAllWakes
      step s₀ = .next { v with
        pads := ⟨Config.lateDone v.free, Config.earlyGone v.free, Config.earlyRead v.free⟩
        closing := Config.earlyClose v.free, notNow := Config.notNow v.free
        tlb := v.tlbNext, remoteLines := v.linesNext
        turn := Config.nextTurn v.free, now := v.later, free := v.free + 1 }

/-- R33, R38, R350: where the control thread of the turn runs, takes no interrupt, does not wait and
has no instruction stalled, the step runs the instruction at its pc. A step that carries no word
runs as it stands. -/
def Says.StepRunsControlThread : Prop :=
  ∀ (s₀ : State), let s := s₀.dropBarriers.padsNext.closeEarly
    let ran (i : Instr) (u : State) : Prop := ∃ t, exec i u = .next t ∧
      let v := t.discardAll.startAllWakes
      step s₀ = .next { v with
        pads := ⟨Config.lateDone v.free, Config.earlyGone v.free, Config.earlyRead v.free⟩
        closing := Config.earlyClose v.free, notNow := Config.notNow v.free
        tlb := v.tlbNext, remoteLines := v.linesNext
        turn := Config.nextTurn v.free, now := v.later, free := v.free + 1 }
    (∀ c w, let h := s.hart c
      s.turn = .ct c → c < 1024 → s.coreRuns c = true → (s.core c).pendingIrq = none →
      h.wfi = false → h.stall = none → (h.priv = .user → h.sync = none) →
      (s.core c).gate = .on → s.ctWord c h.pc = .ok w →
      ran (decodeCt w) { s with curCore := c }) ∧
    (∀ i, s.turn = .event i → encode i = none → ran i s)

/-! ### Reset and the memories -/

/-- The state after package reset, at the values the spec gives: R25, R38, R39, R50, R70, R76, R110,
R227, R263, R268, R276, R279, R284, R319, R322, R323, R330, R349, R353, R354, R363, R373, R388. The address
at which a control thread starts is the model's choice (log 5), a configuration value of R319. -/
def Says.ResetValues : Prop :=
  let s := State.reset
  (∀ c, let k := s.core c
    k.ctx = 0 ∧ k.inc = 0 ∧ k.nbv = 2 ∧ k.duty = 16 ∧ k.pwrreq = 5 ∧ k.tallow = 0 ∧
    k.trbase = 0 ∧ k.trloc = 0x60000 ∧ k.mttrap = 0 ∧ k.lcnt = 0 ∧ k.dbgctl = 0 ∧ k.drsel = 0 ∧
    (∀ n, k.dbgpc.look 0 n = 0) ∧ k.inbox = [] ∧ k.etick = 0 ∧ k.tq.cfg = false ∧
    k.wr.st = .unconfigured ∧ (∀ n, k.winFull.look false n = false) ∧
    (∀ n, k.mboxFull.look false n = false) ∧ (∀ n, k.bindtab.look 0 n = 0) ∧
    (∀ b, (k.bank b).modew = 0) ∧
    (∀ n, k.weight n = 0 ∧ k.passBack n = 0x3F800000 ∧ k.tailSum n = 0) ∧ k.mono = true ∧
    k.ct.priv = .machine ∧ k.ct.pc = Config.resetPc ∧ k.ct.region = 0 ∧ k.ct.mideleg = 0x30000) ∧
  (∀ c m, let t := s.mt c m
    t.st = .idle ∧ t.gang = none ∧ t.repcnt = 0 ∧ t.rkcnt = 0 ∧ t.rsn = 4096 ∧ t.rsthr = 0 ∧
    t.rsstat = 0 ∧ t.region = 0 ∧ t.pc = 0) ∧
  (∀ d, let x := s.die d
    x.lqTail = 0 ∧ x.migst = 0 ∧ x.migwhy = 0 ∧ x.rcnt = 0 ∧ x.frozen = false ∧ x.failed = false ∧
    x.escCnt = 0 ∧ x.rsndCnt = 0 ∧ x.grpRej = 0 ∧ x.lossK = 0 ∧
    (∀ p, x.paddock p = Paddock.init) ∧ (∀ i, x.cec.look 0 i = 0) ∧
    ∀ q, (s.uvctl d q).lock = false ∧ (s.uvctl d q).voff = 0 ∧ (s.uvctl d q).vmax = Config.vmax d q) ∧
  (∀ c, ∀ n ∈ [0xDC2, 0xDC3, 0xDC4], s.csrRead c n = some 0) ∧
  (∀ c, s.steer.look (false, 0) c = (false, 0)) ∧ (∀ r, s.ring r = Ring.init) ∧ s.lines = [] ∧ s.bootStep = 4

/-- Every memory is in canonical form after reset. -/
def Says.ResetMemories : Prop := State.reset.MemOk

/-- Every step keeps every memory in canonical form, so that equal contents are equal data. -/
def Says.MemoriesStayCanonical : Prop := ∀ (s t : State), s.MemOk → step s = .next t → t.MemOk

/-! ### Held translations and held lines -/

/-- R74, R75: an L1 TLB answers for its core before the die's service, the service before the walk;
SFENCE.VMA empties the L1 TLB of its core, drops the entries of its die's service that match its
operands, and no other; no TLB comes to hold more than its entries. The match by ASID and global bit is the
family's (log 6, log 17). -/
def Says.HeldTranslations : Prop :=
  ∀ (s : State) (c : Nat) (satp : DWord) (v : Nat) (va asid : Option Nat),
    let held (ts : List TlbEntry) (l1 : Bool) (u : Nat) : Nat :=
      (ts.filter fun e => e.l1 == l1 && e.unit == u).length
    let bounded (ts : List TlbEntry) : Prop := ∀ u, held ts true u ≤ 64 ∧ held ts false u ≤ 4096
    (∀ f, s.l1Hit c satp v = some f → s.leafFor (some c) satp v = .ok f) ∧
    (∀ f, s.l1Hit c satp v = none → s.serviceHit (coreDie c) satp v = some f →
      s.leafFor (some c) satp v = .ok f) ∧
    (s.l1Hit c satp v = none → s.serviceHit (coreDie c) satp v = none →
      s.leafFor (some c) satp v = s.walkSatp satp v) ∧
    (∀ e, e ∈ (s.sfence c va asid).tlb ↔ e ∈ s.tlb ∧
      ¬(e.l1 = true ∧ e.unit = c) ∧
      ¬(e.l1 = false ∧ e.unit = coreDie c ∧
        (∀ x, va = some x → e.va / e.leaf.span = x % 2 ^ 48 / e.leaf.span) ∧
        (∀ x, asid = some x → e.leaf.glob = false ∧ e.asid = x % 2 ^ 16))) ∧
    (bounded s.tlb → bounded s.tlbNext)

/-- R68, R78: a .glob load of a line of another package that the core holds answers from the held
copy, a .glnc load from the line's home; a core's own write reaches both (the model's reading, log 17); an
acquire of .dom scope leaves the core its RRO lines, and every other core all its lines. -/
def Says.HeldLines : Prop :=
  ∀ (s : State) (c pa : Nat) (r : RemoteLine), s.heldLine c pa = some r → r.data.length = 64 →
    (s.core c).ownStores = [] → pa % 4 = 0 →
    let held : Word := BitVec.ofNat 32 (leNat ((r.data.drop (pa % 64)).take 4))
    (∀ w : Who, w.core = c →
      (s.loadFor w 4 (.remote pa)).2 = held ∧
      (s.fenced c = false → (s.loadFor w 5 (.remote pa)).2 = Memory.word s.remote pa)) ∧
    (∀ w v, w.core = c → s.fenced c = false → Memory.wf s.remote = true →
      let t := s.writeWBy c (.remote pa) v
      (t.loadFor w 4 (.remote pa)).2 = v ∧ (t.loadFor w 5 (.remote pa)).2 = v) ∧
    (∀ q, q ∈ (s.acquireDom c).remoteLines ↔ q ∈ s.remoteLines ∧ (q.core = c → q.rro = true))

/-! ### Rules stated whole -/

/-- R123: lane l is enabled when the guard's predicate bit differs from NEG; code 15 reads as all
ones, so that 0b0_1111 enables every lane and 0b1_1111 none. -/
def Says.GuardLanes : Prop :=
  ∀ (t : Mt) (g : Guard) (l : Nat), l < 32 →
    ((t.guardMask g).getLsbD l = true ↔
      (if g.reg = 15 then true else (t.preg g.reg.toNat).getLsbD l) ≠ g.neg) ∧
    t.guardMask ⟨false, 15⟩ = 0xFFFFFFFF ∧ t.guardMask ⟨true, 15⟩ = 0

/-- R162: NOP has TY 0, MOD 0 and no operands, and no effect, whatever its guard; the word of zeros
is NOP with GUARD 0. -/
def Says.NoOperation : Prop :=
  (∀ f, (Instr.nop f).wf = true ↔
    f.ty = .b32 ∧ f.md = 0 ∧ f.a = .zero ∧ f.b = .zero ∧ f.c = .zero) ∧
  (∀ (f : Ny) (s : State), (Instr.nop f).wf = true → s.Alone →
    exec (.nop f) s = .next (s.onward s f)) ∧
  decodeNy 0 = .ok (.nop ⟨.b32, 0, ⟨false, 0⟩, ⟨false, 0, false⟩, .zero, .zero, .zero⟩)

/-- R171: the predicate operations have TY 0, MOD N and their operands in P, and write the lane bits
of the enabled lanes; PNOT leaves C unused. -/
def Says.PredicateOperands : Prop :=
  ∀ (f : Ny), let inP (o : Operand) : Prop := ∃ p : BitVec 6, o = .special p ∧ p.toNat < 15
    (∀ i ∈ [Instr.pand f, .por f, .pxor f], i.wf = true ↔
      f.ty = .b32 ∧ f.md = 0 ∧ inP f.a ∧ inP f.b ∧ inP f.c) ∧
    ((Instr.pnot f).wf = true ↔ f.ty = .b32 ∧ f.md = 0 ∧ inP f.a ∧ inP f.b ∧ f.c = .zero)

/-- R193: BFETCH makes its target the continuation of the seed block, whatever continuation the block
had, and from then on the micro-thread may branch to any address; in fetched code it only moves
on. -/
def Says.Continuation : Prop :=
  ∀ (f : Ny) (s : State) (v : BitVec 19), s.Acts (.bfetch f) f false → f.a = .imm v → s.cur.repcnt ≤ 1 →
    s.Runs s.curCore s.curMt →
    ((Instr.bfetch f).wf = true ↔ f.ty = .b32 ∧ f.md = 0 ∧ f.b = .zero ∧ f.c = .zero) ∧
    (∀ b, s.cur.block = some b → ∃ t, exec (.bfetch f) s = .next t ∧
      t.cur.block = some { b with cont := some (s.cur.pc + BitVec.ofInt 64 (4 * v.toInt)) } ∧
      ∀ va, t.cur.mayJump va = true) ∧
    (s.cur.block = none → exec (.bfetch f) s = .next (s.onward s f))

/-- R119: the opcodes of each class go from its base on; every other opcode is unassigned, and raises
the precise illegal-instruction exception when it issues, whatever its guard. -/
def Says.OpcodeClasses : Prop :=
  (∀ op, op < 1024 → ((opRow op).isSome = true ↔
    op % 128 < [0x23, 0x0E, 0x12, 0x12, 0x0F, 0x0F, 0x0A, 0x10].getD (op / 128) 0)) ∧
  (∀ (w : IWord), opRow w.op.toNat = none → decodeNy w = .ok (.unassignedOpcode w)) ∧
  (∀ (w : IWord) (s : State), s.cur.gang = none → exec (.unassignedOpcode w) s =
    .next (s.takeTrap s.curCore s.curMt none s.cur.pc w (Exn.mk' 1 0)))

/-! ### The obligations -/

/-- Each element-wise instruction that acts and neither waits nor traps writes its operation of
every element of its sources to A in the enabled lanes and moves on. (R159, R164, R165, R166,
R168, R173, R175, R176, R182, R183, R184) -/
def Obligations.ElementResults : Prop :=
  Says.TwoOperandElements ∧ Says.OneOperandElements ∧ Says.ThreeOperandElements

/-- Logic, NOT, BFX, BFI, SCLF and FDOT write words made from whole words; ICMP and FCMP write
whether the condition holds for all elements to a predicate, or element masks to a register.
(R163, R167, R169, R170, R174, R180, R181) -/
def Obligations.WordResults : Prop :=
  Says.WholeWords ∧ Says.Compares

/-- PAND, POR, PXOR and PNOT are well formed exactly with TY 0, MOD 0 and operands in P, and write
and, or, xor or not of the lane bits in each enabled lane. (R171) -/
def Obligations.PredicateLogic : Prop :=
  Says.PredicateLogic ∧ Says.PredicateOperands

/-- CVT converts the elements; QNT writes the scaled codes of a register to all lanes of A and the
scale to C; DQNT writes the values. (R177, R178, R179) -/
def Obligations.Conversions : Prop :=
  Says.Conversions

/-- MOV writes a register, a predicate, a neighbour window or a mailbox through a role; LEA keeps an
offset in its space or adds to a pair and writes the canonical sum. (R163, R172) -/
def Obligations.MovesAndAddresses : Prop :=
  Says.Moves ∧ Says.EffectiveAddress

/-- SHUF and BCAST pick lanes, RED writes the tree result, SCAN the running prefixes, VOTE the true
enabled lanes; CMPRS writes kept values and masks, XPND puts values back. (R112, R186, R187,
R188, R189, R190, R191) -/
def Obligations.LanesAndCompression : Prop :=
  Says.LaneExchange ∧ Says.CompressExpand

/-- A branch that is taken goes to its target or raises illegal-operand where the block may not be
left; one that is not taken moves on; LOOP decrements its counter. The model's choices: VAL is
the low 32 bits of the target (log 13), and an address of the block at which no instruction
starts is outside it (log 12). (R37, R192, R194, R368, R369) -/
def Obligations.Branches : Prop :=
  Says.Branches

/-- NOP only moves on, YIELD makes the micro-thread the youngest, BFETCH names the continuation,
CTSIG sets the signal bit, CTWAIT clears the release bit or waits, STOP ends the run, REP sets
the repeat count and steps; the length of a cycle of a stall hint is the model's choice (log
36). (R57, R116, R162, R193, R195, R196, R198) -/
def Obligations.ControlInstructions : Prop :=
  Says.SimpleControl ∧ Says.RepeatBegins

/-- In a seed block BFETCH sets the continuation to its target, replacing an earlier one, and
permits branches out of the block; in fetched code it has no effect. (R193) -/
def Obligations.Continuation : Prop :=
  Says.Continuation

/-- LNKW puts its lanes into the channel or waits while it holds four entries; LNKR takes the oldest
entry or waits while there is none. (R56, R197) -/
def Obligations.LinkChannels : Prop :=
  Says.LinkChannels

/-- TRAP and BRKP take their causes with the next instruction as the PC; a precise trap holds the
micro-thread with a record of cause, DETAIL, tags, PC, counts and time, and its registers keep
their values. (R199, R347, R348, R349) -/
def Obligations.SoftwareTraps : Prop :=
  Says.SoftwareTraps ∧ Says.PreciseTrap

/-- GANG joins the cores of its width where every follower may join and says so in its predicate;
UNGANG of a leader disbands its gang; what a leader issues acts in every member with its own
registers and guard. Only the leader's predicate is written and its guard alone decides UNGANG:
the model's reading (log 11). (R53, R54, R55, R123, R159, R200) -/
def Obligations.Gangs : Prop :=
  Says.Gangs ∧ Says.GangResults

/-- SLEEP waits until its deadline, TIME writes the package counter, TWAIT sets a deadline and binds
the next instruction, and a bound CTWAIT completes, gives up or waits. (R201, R202, R203, R362) -/
def Obligations.TimeAndDeadlines : Prop :=
  Says.SleepAndTime ∧ Says.TimedWait

/-- Loads and stores whose addresses pass their checks, and which meet no wait, poison, conflict or
busy channel, move their words; STSB sends each nibble to its owner. (R89, R205, R206, R207,
R214, R311, R340, R374, R385) -/
def Obligations.LoadsAndStores : Prop :=
  Says.LoadsAndStores ∧ Says.NibbleStores

/-- A scalar LD or ST of the core's own scratchpad traps on a misaligned or out-of-range address,
else reads or writes the word at base plus offset and no other byte, a store now or later (log
34). (R64, R84, R204, R206, R346) -/
def Obligations.ScratchpadWord : Prop :=
  Says.ScratchpadWord

/-- LDF reads words whose full bits are all set and clears the bits, or waits while one is clear;
FBCLR clears the bits of a run. (R70, R71, R209, R210, R314) -/
def Obligations.FullBits : Prop :=
  Says.FullBits

/-- Where their checks pass, PREF and WBACK change no value that an agent reads, and INVAL drops the
core's copies of remote lines of its range; a handle base of PREF is checked and waits as in a
load, the model's reading (log 20, log 13) beside R370. (R208, R214, R370) -/
def Obligations.CacheHints : Prop :=
  Says.CacheHints

/-- HBIND of a valid control block that the micro-thread may bind binds the handle; QBIND arms a
stream register; QDROP disarms one or drops a handle. (R211, R212, R213, R216, R218) -/
def Obligations.HandlesAndStreams : Prop :=
  Says.HandleBinding ∧ Says.StreamRegisters

/-- ADVP adds n to PROD where n slots are free and ADVC adds n to CONS where n are filled, as a
release; past the limit the queue exception with DETAIL 7 is raised. (R212, R215, R378) -/
def Obligations.QueuePointers : Prop :=
  Says.QueuePointers

/-- Atomics whose addresses pass their checks apply their operation at their places and return what
their qualifier asks. (R79, R84, R90, R219, R220, R221, R378) -/
def Obligations.Atomics : Prop :=
  Says.Atomics ∧ Says.AtomicWord

/-- Fences close the region, and an acquire of .dom scope drops the core's copies of remote lines;
BAR arrives once and waits for its phase; BARA records the phase of its arrival and BARW waits
for it; an arrival that completes the count steps the phase. (R78, R83, R222, R223, R224, R313) -/
def Obligations.FencesAndBarriers : Prop :=
  Says.Fences ∧ Says.Barriers ∧ Says.BarrierArrivals

/-- CWAIT waits until its counter reaches the value, CADD adds to a counter, INBX takes the oldest
inbox record or waits, INBP polls. The model's choices: CWAIT is entered in its region as a read
(log 21), and the vector form of INBX and INBP (log 13). (R87, R225, R226, R227, R228, R378) -/
def Obligations.CountersAndInbox : Prop :=
  Says.Counters ∧ Says.Inbox

/-- TICKET claims work items of its launch; ROLEQ reports what a role names. (R229, R230, R296,
R330) -/
def Obligations.TicketsAndRoles : Prop :=
  Says.Tickets ∧ Says.Roles

/-- MMA, MMAS, MZERO, MFILL, MDRAIN, CHBEG, CHEND and SPFENCE check their operands and enter the
matrix queue, in an open chain or outside one, or stall while it is full. (R124, R231, R232,
R233, R234, R235, R236, R237, R239, R240, R241) -/
def Obligations.MatrixInstructions : Prop :=
  Says.MatrixIssue ∧ Says.MatrixProducts

/-- A copy or gather whose request passes its checks receives its SEQ and enters the queue, or
stalls while the queue is full; a multicast goes to the slices that its roles name. BV of a copy
that names a stream register is its number, the model's choice (log 37). (R231, R247, R248,
R249, R251, R252, R253, R309) -/
def Obligations.CopyIssue : Prop :=
  Says.CopyIssue ∧ Says.CopyTargets

/-- NCFG, NINT, NLEAK, NFIRE, RACC, RSEND and RGRAD enter the event unit queue with the operands
they read, TQCFG installs a queue or windrow, EVSEND sends its words, EVRECV takes the entry
that may leave, waits, or says that all have ended. (R262, R263, R264, R265, R266, R268, R269,
R270, R272, R275, R276, R283) -/
def Obligations.EventInstructions : Prop :=
  Says.EventIssue ∧ Says.EventSend ∧ Says.EventQueue

/-- RRECV, RSORT, RMARG and RWTAB act as their rules give on the windrow, the ranks and the tables.
(R273, R274, R277, R279, R282) -/
def Obligations.RankInstructions : Prop :=
  Says.RankReceive ∧ Says.RankSort ∧ Says.RankTables

/-- CSRR reads a state register, CSRW writes one that may be written. (R284, R285) -/
def Obligations.StateRegisters : Prop :=
  Says.StateRegisters

/-- SOW starts a micro-thread on a seed block when it is idle, SOWW waits for it; MTSTAT reads the
sixteen states; MTSTOP stops, and MTREL sets release bits once its thread's messages are
performed (the model's reading, log 21). (R35, R36, R39, R40, R41, R57, R114, R140, R255) -/
def Obligations.Sowing : Prop :=
  Says.Sowing ∧ Says.MtControl

/-- CMDQ and CMDQNB enter a request, wait or answer that the queue is full; CTINBX takes a record or
stalls; CTCWAIT waits for a counter; CTTICK claims a ticket. (R227, R254, R255, R256, R257,
R258, R296) -/
def Obligations.ControlThreadCommands : Prop :=
  Says.Commands ∧ Says.CtReceives

/-- ACTFIRE loads or enables an actor, BINDLD loads the binding table, INCARN steps the incarnation
of a context, RECLAIM frees a stale one or waits. (R42, R45, R50, R51, R254, R259, R260, R386) -/
def Obligations.ActorsAndIncarnations : Prop :=
  Says.ActorsAndRoles ∧ Says.Incarnations

/-- The control thread's register and immediate operations, jumps, branches and fences write rd and
go to their successor. Encodings and results are the family's (log 6), the model's choice; so is
that FENCE closes the region, waits and acquires at .dom scope (log 17, 21, 33). (R33, R81) -/
def Obligations.RiscvRegisters : Prop :=
  Says.RiscvRegisters

/-- Loads, stores, LR, SC and AMO whose places pass their checks move their bytes; an aligned access
to DRAM in machine mode reads or writes exactly its bytes. The operations are the family's (log
6), the model's choice; so are what aq and rl do to the region, misaligned accesses made of
bytes, and the place that SC needs (log 33). (R33, R81, R374) -/
def Obligations.RiscvMemory : Prop :=
  Says.RiscvMemory ∧ Says.RiscvDram

/-- Zicsr acts where the mode may access the register; ECALL, EBREAK and reserved words take their
exceptions, which save cause, pc and value and stack the mode; MRET and SRET undo the entry;
SFENCE.VMA drops held translations. The layout is the family's (log 6), the model's choice. (R8,
R33, R75, R300, R363) -/
def Obligations.RiscvSystem : Prop :=
  Says.RiscvSystem ∧ Says.CtTrapEntry

/-- Each class of opcodes takes consecutive codes from its base; every other code decodes to an
unassigned opcode, which raises illegal-instruction with DETAIL 0 whatever its guard. (R119) -/
def Obligations.UnassignedOpcodes : Prop :=
  Says.OpcodeClasses

/-- The blocking instruction of a waiting micro-thread of a core that runs is run again, at its
deadline or that of a member of its gang too (log 11, the model's reading); a stalled
instruction or register write of the control thread is run again, and CTINBX, BINDLD and CTCWAIT
are carried out once what they waited for has come. (R38, R51, R201, R202, R254, R257, R348,
R410) -/
def Obligations.Reruns : Prop :=
  Says.Reruns ∧ Says.StalledCompletes

/-- A drained micro-thread becomes idle with its counts and bits cleared and its registers kept; an
actor that may fire starts; a fill copies its ranges; rebalancing gives a full stage up to two
micro-threads of the least occupied one. (R38, R43, R44, R45, R46, R47, R57, R385) -/
def Obligations.MicroThreadsAndActors : Prop :=
  Says.MicroThreadIdle ∧ Says.ActorSteps

/-- CTXID and NBV wait until what they concern is idle, MTRESUME resumes held micro-threads, trap
interrupts are taken; queue tails, ring registers and migration requests act as their rules
give. (R76, R110, R311, R329, R349, R350, R351, R354, R355, R357, R363, R384) -/
def Obligations.RegisterSteps : Prop :=
  Says.CoreRegisterSteps ∧ Says.DeviceRegisterSteps

/-- The head of the matrix queue is applied with the NBV of its issue; a matrix start without a
grant asks for one; a step of the limiter grants once, to the two oldest requests of starts that
still wait; a ramp-down falls entry by entry. (R110, R237, R240, R326, R327, R328) -/
def Obligations.MatrixSteps : Prop :=
  Says.MatrixSteps

/-- A copy starts once its pusher's messages are performed, takes a step of its walk at a time, in
an order that a free value picks (log 37), and completes once its messages are performed; a
partial reaches its line in order, and a stale one is discarded. (R86, R109, R231, R249, R250,
R252, R386) -/
def Obligations.CopySteps : Prop :=
  Says.CopySteps

/-- A step of a plain copy of 32-bit elements between places of the core's scratchpad writes its
element and no other byte; a copy that is done posts its record and leaves the engine; a partial
without a slice is combined with its line when it arrives. (R109, R227, R247, R249, R250) -/
def Obligations.CopyResults : Prop :=
  Says.CopyResults ∧ Says.ReducePartials

/-- The event unit applies its head; an RGRAD sends its gradient and completes once that is
performed; events and rank messages arrive; barrier arrivals are counted and stamped releases
reach their waiters. (R223, R262, R269, R270, R271, R276, R283, R334) -/
def Obligations.EventAndBarrierSteps : Prop :=
  Says.EventSteps ∧ Says.BarrierSteps

/-- A packet between packages comes while a port is up; a bad check discards a packet; a message is
received by its destination; an answer frees, delays or gives up the copy at its source; one
that has not moved for 20 µs goes to the escape channel; a late copy is sent again, the
sixteenth timeout kills the paddock, and a twin that does not come aborts its pair. The model's
choices (log 30): the 143 ns of 256 fabric cycles, what RSNDCNT counts, and the die that counts
an escape, which is free. (R307, R308, R313, R315, R340, R379, R380, R386, R390, R391, R392,
R393) -/
def Obligations.FabricSteps : Prop :=
  Says.FabricSteps

/-- Queue entries and child launches become nodes, notifications count down, ready nodes age, the
distributor places, cores start and end, and quiet nodes complete. The model's choices: WFI in
supervisor mode at the end of a part (log 15), and the statuses of admission (log 27). (R286,
R287, R288, R289, R290, R291, R292, R293, R294, R300, R302, R398) -/
def Obligations.LaunchSteps : Prop :=
  Says.LaunchAdmission ∧ Says.LaunchRuns

/-- Paddock writes, kills and unfencing, poison, corrected errors with the undervolt offset, repairs
and spares, lockstep mismatches and incarnation sweeps act as their rules give. The model's
choices: KILL with EN 0 and the error that crosses a threshold (log 32), and the sequence
numbers of fresh endpoints (log 16). (R382, R383, R384, R385, R386, R387, R388) -/
def Obligations.ContainmentSteps : Prop :=
  Says.ContainmentSteps

/-- The budget tick, 10 µs after the one before, senses, rotates and sets duties; backs undervolting
off; hops, refreshes, droop and the gating of a core act at their times. The phases of ticks and
refreshes are free (log 31). (R321, R322, R323, R324, R329, R330, R331, R388, R400, R401) -/
def Obligations.PowerSteps : Prop :=
  Says.PowerSteps

/-- A drained migrating core writes its records; at the switch its context goes to the destination,
its launch names that, and an entry forwards; a package reset keeps DRAM and boots as far as its
images verify; an attestation report leaves; inbound DMA and application cores access memory
once the host die has started. The model's choices: the bytes of a boot report (log 3), DRAM
kept across a reset (log 4), what inbound DMA reaches and poison does to it (log 32), an RGRAD
of a frozen producer (log 23). (R316, R317, R318, R319, R320, R357, R358, R359, R360, R361,
R385, R403) -/
def Obligations.PackageSteps : Prop :=
  Says.MigrationSteps ∧ Says.PackageSteps

/-- Every instruction but REP whose guard enables no lane only moves on; moving on counts down a
repeat, makes one that waited the youngest, goes to the next instruction, to the continuation,
or stops, as it does where an MTSTOP waits for it; every instruction in every state answers a
next state. (R37, R40, R116, R123, R124, R159, R298, R364) -/
def Obligations.GuardAndCounter : Prop :=
  Says.GuardAndCounter ∧ Says.NothingStops

/-- Reading a source changes at most a stream register, and what that read orders; the register
instructions change only their destination registers and enabled lanes, and no memory, special
register, accumulator or other agent; the control instructions change no register but the
counter of LOOP. (R88, R159, R160, R205, R218) -/
def Obligations.RegisterFrames : Prop :=
  Says.SourceFrames ∧ Says.RegisterFrames ∧ Says.ControlFrames

/-- An L1 TLB answers before the die's service and the service before the walk; SFENCE.VMA drops the
L1 entries of its core and the matching entries of its die; no TLB outgrows its entries; a .glob
load answers from a held line, a .glnc load from its home, and an acquire of .dom scope leaves
only RRO lines. The match by ASID and global bit, and that a core's own write reaches its held
copy, are the model's reading (log 17) and the family's (log 6). (R68, R74, R75, R78, R222) -/
def Obligations.HeldCopies : Prop :=
  Says.HeldTranslations ∧ Says.HeldLines

/-- A load changes no byte of memory and no register but A; a store of an unpaired core changes no
byte outside the four from each lane's address, and no register, where no scratchpad access is
outstanding and the channels are free. (R205, R206) -/
def Obligations.MemoryFrames : Prop :=
  Says.LoadFrames ∧ Says.StoreFrames

/-- RISC-V arithmetic, jumps and branches change only rd, the pc and minstret of their control
thread, where no step trap follows (log 6, the model's choice). (R33) -/
def Obligations.RiscvFrames : Prop :=
  Says.RiscvFrames

/-- Decoding the word of every well-formed micro-thread instruction gives the instruction back, with
every operand at every value. (R118, R119, R125, R131) -/
def Obligations.NyDecodeEncode : Prop :=
  Says.NyDecodeEncode

/-- The same for the control extension, the full RISC-V operations and the compressed ones
(encodings of the family, log 6, the model's choice for RISC-V). (R33, R140) -/
def Obligations.CtDecodeEncode : Prop :=
  Says.CtDecodeEncode

/-- The worked encodings of ATOM, MMA, RACC, BRKP and REP decode to the instructions that they stand
for. (R118, R130) -/
def Obligations.DecodeWords : Prop :=
  Says.DecodeWords

/-- Where the selector chooses the turn's micro-thread, or the turn's control thread may issue, step
runs the instruction that the word at its program counter decodes to, then time passes and the
next turn is drawn; a step without a word runs as it stands. (R33, R37, R38, R83, R84, R116,
R119, R131, R223, R298, R350) -/
def Obligations.StepRunsInstruction : Prop :=
  Says.StepRunsDecoded ∧ Says.StepRunsControlThread

/-- Lane l is enabled when its predicate bit differs from NEG; code 15 reads as all ones, so
0b0_1111 enables every lane and 0b1_1111 none. (R123) -/
def Obligations.GuardLanes : Prop :=
  Says.GuardLanes

/-- NOP is well formed exactly with TY 0, MOD 0 and no operands; so formed it has no effect whatever
its guard; the word of zeros is NOP with GUARD 0. (R162) -/
def Obligations.NoOperation : Prop :=
  Says.NoOperation

/-- After package reset every register that the spec gives a reset value holds it, and every memory
is in canonical form. The address at which a control thread starts is the model's choice (log
5). (R38, R50, R76, R110, R263, R279, R284, R319, R322, R349, R353, R388) -/
def Obligations.ResetState : Prop :=
  Says.ResetValues ∧ Says.ResetMemories

/-- For every state whose memories are in canonical form, if step answers a next state then its
memories are in canonical form. (R63, R65) -/
def Obligations.MemoriesStayCanonical : Prop :=
  Says.MemoriesStayCanonical
end

