-- ==== Sys2Proof/Laws/State.lean ====
section
/-! SUPPORT. What each update of the state leaves as it was: one lemma per field, and the reads
of what was written. -/

namespace Sys2Proof.Machine

section
variable (s : State) (c : Nat) (k : Core)
@[simp] theorem State.setCore_turn : (s.setCore c k).turn = s.turn := rfl
@[simp] theorem State.setCore_curCore : (s.setCore c k).curCore = s.curCore := rfl
@[simp] theorem State.setCore_curMt : (s.setCore c k).curMt = s.curMt := rfl
@[simp] theorem State.setCore_free : (s.setCore c k).free = s.free := rfl
@[simp] theorem State.setCore_tried : (s.setCore c k).tried = s.tried := rfl
@[simp] theorem State.setCore_triedAt : (s.setCore c k).triedAt = s.triedAt := rfl
@[simp] theorem State.setCore_pads : (s.setCore c k).pads = s.pads := rfl
@[simp] theorem State.setCore_notNow : (s.setCore c k).notNow = s.notNow := rfl
@[simp] theorem State.setCore_closing : (s.setCore c k).closing = s.closing := rfl
@[simp] theorem State.setCore_now : (s.setCore c k).now = s.now := rfl
@[simp] theorem State.setCore_dram : (s.setCore c k).dram = s.dram := rfl
@[simp] theorem State.setCore_gran : (s.setCore c k).gran = s.gran := rfl
@[simp] theorem State.setCore_remote : (s.setCore c k).remote = s.remote := rfl
@[simp] theorem State.setCore_tlb : (s.setCore c k).tlb = s.tlb := rfl
@[simp] theorem State.setCore_remoteLines : (s.setCore c k).remoteLines = s.remoteLines := rfl
@[simp] theorem State.setCore_poison : (s.setCore c k).poison = s.poison := rfl
@[simp] theorem State.setCore_lines : (s.setCore c k).lines = s.lines := rfl
@[simp] theorem State.setCore_qhomes : (s.setCore c k).qhomes = s.qhomes := rfl
@[simp] theorem State.setCore_barriers : (s.setCore c k).barriers = s.barriers := rfl
@[simp] theorem State.setCore_barPending : (s.setCore c k).barPending = s.barPending := rfl
@[simp] theorem State.setCore_partials : (s.setCore c k).partials = s.partials := rfl
@[simp] theorem State.setCore_partialQ : (s.setCore c k).partialQ = s.partialQ := rfl
@[simp] theorem State.setCore_tiles : (s.setCore c k).tiles = s.tiles := rfl
@[simp] theorem State.setCore_chans : (s.setCore c k).chans = s.chans := rfl
@[simp] theorem State.setCore_dies : (s.setCore c k).dies = s.dies := rfl
@[simp] theorem State.setCore_wire : (s.setCore c k).wire = s.wire := rfl
@[simp] theorem State.setCore_flows : (s.setCore c k).flows = s.flows := rfl
@[simp] theorem State.setCore_ports : (s.setCore c k).ports = s.ports := rfl
@[simp] theorem State.setCore_rings : (s.setCore c k).rings = s.rings := rfl
@[simp] theorem State.setCore_trapQ : (s.setCore c k).trapQ = s.trapQ := rfl
@[simp] theorem State.setCore_steer : (s.setCore c k).steer = s.steer := rfl
@[simp] theorem State.setCore_incTab : (s.setCore c k).incTab = s.incTab := rfl
@[simp] theorem State.setCore_sweeps : (s.setCore c k).sweeps = s.sweeps := rfl
@[simp] theorem State.setCore_pairs : (s.setCore c k).pairs = s.pairs := rfl
@[simp] theorem State.setCore_limiters : (s.setCore c k).limiters = s.limiters := rfl
@[simp] theorem State.setCore_limiterAt : (s.setCore c k).limiterAt = s.limiterAt := rfl
@[simp] theorem State.setCore_budgetAt : (s.setCore c k).budgetAt = s.budgetAt := rfl
@[simp] theorem State.setCore_arbiters : (s.setCore c k).arbiters = s.arbiters := rfl
@[simp] theorem State.setCore_forwards : (s.setCore c k).forwards = s.forwards := rfl
@[simp] theorem State.setCore_bootStep : (s.setCore c k).bootStep = s.bootStep := rfl
@[simp] theorem State.setCore_reports : (s.setCore c k).reports = s.reports := rfl
end

section
variable (s : State) (c : Nat) (f : Core → Core)
@[simp] theorem State.modCore_turn : (s.modCore c f).turn = s.turn := rfl
@[simp] theorem State.modCore_curCore : (s.modCore c f).curCore = s.curCore := rfl
@[simp] theorem State.modCore_curMt : (s.modCore c f).curMt = s.curMt := rfl
@[simp] theorem State.modCore_free : (s.modCore c f).free = s.free := rfl
@[simp] theorem State.modCore_tried : (s.modCore c f).tried = s.tried := rfl
@[simp] theorem State.modCore_triedAt : (s.modCore c f).triedAt = s.triedAt := rfl
@[simp] theorem State.modCore_pads : (s.modCore c f).pads = s.pads := rfl
@[simp] theorem State.modCore_notNow : (s.modCore c f).notNow = s.notNow := rfl
@[simp] theorem State.modCore_closing : (s.modCore c f).closing = s.closing := rfl
@[simp] theorem State.modCore_now : (s.modCore c f).now = s.now := rfl
@[simp] theorem State.modCore_dram : (s.modCore c f).dram = s.dram := rfl
@[simp] theorem State.modCore_gran : (s.modCore c f).gran = s.gran := rfl
@[simp] theorem State.modCore_remote : (s.modCore c f).remote = s.remote := rfl
@[simp] theorem State.modCore_tlb : (s.modCore c f).tlb = s.tlb := rfl
@[simp] theorem State.modCore_remoteLines : (s.modCore c f).remoteLines = s.remoteLines := rfl
@[simp] theorem State.modCore_poison : (s.modCore c f).poison = s.poison := rfl
@[simp] theorem State.modCore_lines : (s.modCore c f).lines = s.lines := rfl
@[simp] theorem State.modCore_qhomes : (s.modCore c f).qhomes = s.qhomes := rfl
@[simp] theorem State.modCore_barriers : (s.modCore c f).barriers = s.barriers := rfl
@[simp] theorem State.modCore_barPending : (s.modCore c f).barPending = s.barPending := rfl
@[simp] theorem State.modCore_partials : (s.modCore c f).partials = s.partials := rfl
@[simp] theorem State.modCore_partialQ : (s.modCore c f).partialQ = s.partialQ := rfl
@[simp] theorem State.modCore_tiles : (s.modCore c f).tiles = s.tiles := rfl
@[simp] theorem State.modCore_chans : (s.modCore c f).chans = s.chans := rfl
@[simp] theorem State.modCore_dies : (s.modCore c f).dies = s.dies := rfl
@[simp] theorem State.modCore_wire : (s.modCore c f).wire = s.wire := rfl
@[simp] theorem State.modCore_flows : (s.modCore c f).flows = s.flows := rfl
@[simp] theorem State.modCore_ports : (s.modCore c f).ports = s.ports := rfl
@[simp] theorem State.modCore_rings : (s.modCore c f).rings = s.rings := rfl
@[simp] theorem State.modCore_trapQ : (s.modCore c f).trapQ = s.trapQ := rfl
@[simp] theorem State.modCore_steer : (s.modCore c f).steer = s.steer := rfl
@[simp] theorem State.modCore_incTab : (s.modCore c f).incTab = s.incTab := rfl
@[simp] theorem State.modCore_sweeps : (s.modCore c f).sweeps = s.sweeps := rfl
@[simp] theorem State.modCore_pairs : (s.modCore c f).pairs = s.pairs := rfl
@[simp] theorem State.modCore_limiters : (s.modCore c f).limiters = s.limiters := rfl
@[simp] theorem State.modCore_limiterAt : (s.modCore c f).limiterAt = s.limiterAt := rfl
@[simp] theorem State.modCore_budgetAt : (s.modCore c f).budgetAt = s.budgetAt := rfl
@[simp] theorem State.modCore_arbiters : (s.modCore c f).arbiters = s.arbiters := rfl
@[simp] theorem State.modCore_forwards : (s.modCore c f).forwards = s.forwards := rfl
@[simp] theorem State.modCore_bootStep : (s.modCore c f).bootStep = s.bootStep := rfl
@[simp] theorem State.modCore_reports : (s.modCore c f).reports = s.reports := rfl
end

section
variable (s : State) (c m : Nat) (t : Mt)
@[simp] theorem State.setMt_turn : (s.setMt c m t).turn = s.turn := rfl
@[simp] theorem State.setMt_curCore : (s.setMt c m t).curCore = s.curCore := rfl
@[simp] theorem State.setMt_curMt : (s.setMt c m t).curMt = s.curMt := rfl
@[simp] theorem State.setMt_free : (s.setMt c m t).free = s.free := rfl
@[simp] theorem State.setMt_tried : (s.setMt c m t).tried = s.tried := rfl
@[simp] theorem State.setMt_triedAt : (s.setMt c m t).triedAt = s.triedAt := rfl
@[simp] theorem State.setMt_pads : (s.setMt c m t).pads = s.pads := rfl
@[simp] theorem State.setMt_notNow : (s.setMt c m t).notNow = s.notNow := rfl
@[simp] theorem State.setMt_closing : (s.setMt c m t).closing = s.closing := rfl
@[simp] theorem State.setMt_now : (s.setMt c m t).now = s.now := rfl
@[simp] theorem State.setMt_dram : (s.setMt c m t).dram = s.dram := rfl
@[simp] theorem State.setMt_gran : (s.setMt c m t).gran = s.gran := rfl
@[simp] theorem State.setMt_remote : (s.setMt c m t).remote = s.remote := rfl
@[simp] theorem State.setMt_tlb : (s.setMt c m t).tlb = s.tlb := rfl
@[simp] theorem State.setMt_remoteLines : (s.setMt c m t).remoteLines = s.remoteLines := rfl
@[simp] theorem State.setMt_poison : (s.setMt c m t).poison = s.poison := rfl
@[simp] theorem State.setMt_lines : (s.setMt c m t).lines = s.lines := rfl
@[simp] theorem State.setMt_qhomes : (s.setMt c m t).qhomes = s.qhomes := rfl
@[simp] theorem State.setMt_barriers : (s.setMt c m t).barriers = s.barriers := rfl
@[simp] theorem State.setMt_barPending : (s.setMt c m t).barPending = s.barPending := rfl
@[simp] theorem State.setMt_partials : (s.setMt c m t).partials = s.partials := rfl
@[simp] theorem State.setMt_partialQ : (s.setMt c m t).partialQ = s.partialQ := rfl
@[simp] theorem State.setMt_tiles : (s.setMt c m t).tiles = s.tiles := rfl
@[simp] theorem State.setMt_chans : (s.setMt c m t).chans = s.chans := rfl
@[simp] theorem State.setMt_dies : (s.setMt c m t).dies = s.dies := rfl
@[simp] theorem State.setMt_wire : (s.setMt c m t).wire = s.wire := rfl
@[simp] theorem State.setMt_flows : (s.setMt c m t).flows = s.flows := rfl
@[simp] theorem State.setMt_ports : (s.setMt c m t).ports = s.ports := rfl
@[simp] theorem State.setMt_rings : (s.setMt c m t).rings = s.rings := rfl
@[simp] theorem State.setMt_trapQ : (s.setMt c m t).trapQ = s.trapQ := rfl
@[simp] theorem State.setMt_steer : (s.setMt c m t).steer = s.steer := rfl
@[simp] theorem State.setMt_incTab : (s.setMt c m t).incTab = s.incTab := rfl
@[simp] theorem State.setMt_sweeps : (s.setMt c m t).sweeps = s.sweeps := rfl
@[simp] theorem State.setMt_pairs : (s.setMt c m t).pairs = s.pairs := rfl
@[simp] theorem State.setMt_limiters : (s.setMt c m t).limiters = s.limiters := rfl
@[simp] theorem State.setMt_limiterAt : (s.setMt c m t).limiterAt = s.limiterAt := rfl
@[simp] theorem State.setMt_budgetAt : (s.setMt c m t).budgetAt = s.budgetAt := rfl
@[simp] theorem State.setMt_arbiters : (s.setMt c m t).arbiters = s.arbiters := rfl
@[simp] theorem State.setMt_forwards : (s.setMt c m t).forwards = s.forwards := rfl
@[simp] theorem State.setMt_bootStep : (s.setMt c m t).bootStep = s.bootStep := rfl
@[simp] theorem State.setMt_reports : (s.setMt c m t).reports = s.reports := rfl
end

section
variable (s : State) (c m : Nat) (f : Mt → Mt)
@[simp] theorem State.modMt_turn : (s.modMt c m f).turn = s.turn := rfl
@[simp] theorem State.modMt_curCore : (s.modMt c m f).curCore = s.curCore := rfl
@[simp] theorem State.modMt_curMt : (s.modMt c m f).curMt = s.curMt := rfl
@[simp] theorem State.modMt_free : (s.modMt c m f).free = s.free := rfl
@[simp] theorem State.modMt_tried : (s.modMt c m f).tried = s.tried := rfl
@[simp] theorem State.modMt_triedAt : (s.modMt c m f).triedAt = s.triedAt := rfl
@[simp] theorem State.modMt_pads : (s.modMt c m f).pads = s.pads := rfl
@[simp] theorem State.modMt_notNow : (s.modMt c m f).notNow = s.notNow := rfl
@[simp] theorem State.modMt_closing : (s.modMt c m f).closing = s.closing := rfl
@[simp] theorem State.modMt_now : (s.modMt c m f).now = s.now := rfl
@[simp] theorem State.modMt_dram : (s.modMt c m f).dram = s.dram := rfl
@[simp] theorem State.modMt_gran : (s.modMt c m f).gran = s.gran := rfl
@[simp] theorem State.modMt_remote : (s.modMt c m f).remote = s.remote := rfl
@[simp] theorem State.modMt_tlb : (s.modMt c m f).tlb = s.tlb := rfl
@[simp] theorem State.modMt_remoteLines : (s.modMt c m f).remoteLines = s.remoteLines := rfl
@[simp] theorem State.modMt_poison : (s.modMt c m f).poison = s.poison := rfl
@[simp] theorem State.modMt_lines : (s.modMt c m f).lines = s.lines := rfl
@[simp] theorem State.modMt_qhomes : (s.modMt c m f).qhomes = s.qhomes := rfl
@[simp] theorem State.modMt_barriers : (s.modMt c m f).barriers = s.barriers := rfl
@[simp] theorem State.modMt_barPending : (s.modMt c m f).barPending = s.barPending := rfl
@[simp] theorem State.modMt_partials : (s.modMt c m f).partials = s.partials := rfl
@[simp] theorem State.modMt_partialQ : (s.modMt c m f).partialQ = s.partialQ := rfl
@[simp] theorem State.modMt_tiles : (s.modMt c m f).tiles = s.tiles := rfl
@[simp] theorem State.modMt_chans : (s.modMt c m f).chans = s.chans := rfl
@[simp] theorem State.modMt_dies : (s.modMt c m f).dies = s.dies := rfl
@[simp] theorem State.modMt_wire : (s.modMt c m f).wire = s.wire := rfl
@[simp] theorem State.modMt_flows : (s.modMt c m f).flows = s.flows := rfl
@[simp] theorem State.modMt_ports : (s.modMt c m f).ports = s.ports := rfl
@[simp] theorem State.modMt_rings : (s.modMt c m f).rings = s.rings := rfl
@[simp] theorem State.modMt_trapQ : (s.modMt c m f).trapQ = s.trapQ := rfl
@[simp] theorem State.modMt_steer : (s.modMt c m f).steer = s.steer := rfl
@[simp] theorem State.modMt_incTab : (s.modMt c m f).incTab = s.incTab := rfl
@[simp] theorem State.modMt_sweeps : (s.modMt c m f).sweeps = s.sweeps := rfl
@[simp] theorem State.modMt_pairs : (s.modMt c m f).pairs = s.pairs := rfl
@[simp] theorem State.modMt_limiters : (s.modMt c m f).limiters = s.limiters := rfl
@[simp] theorem State.modMt_limiterAt : (s.modMt c m f).limiterAt = s.limiterAt := rfl
@[simp] theorem State.modMt_budgetAt : (s.modMt c m f).budgetAt = s.budgetAt := rfl
@[simp] theorem State.modMt_arbiters : (s.modMt c m f).arbiters = s.arbiters := rfl
@[simp] theorem State.modMt_forwards : (s.modMt c m f).forwards = s.forwards := rfl
@[simp] theorem State.modMt_bootStep : (s.modMt c m f).bootStep = s.bootStep := rfl
@[simp] theorem State.modMt_reports : (s.modMt c m f).reports = s.reports := rfl
end

section
variable (s : State) (c : Nat) (h : Hart)
@[simp] theorem State.setHart_turn : (s.setHart c h).turn = s.turn := rfl
@[simp] theorem State.setHart_curCore : (s.setHart c h).curCore = s.curCore := rfl
@[simp] theorem State.setHart_curMt : (s.setHart c h).curMt = s.curMt := rfl
@[simp] theorem State.setHart_free : (s.setHart c h).free = s.free := rfl
@[simp] theorem State.setHart_tried : (s.setHart c h).tried = s.tried := rfl
@[simp] theorem State.setHart_triedAt : (s.setHart c h).triedAt = s.triedAt := rfl
@[simp] theorem State.setHart_pads : (s.setHart c h).pads = s.pads := rfl
@[simp] theorem State.setHart_notNow : (s.setHart c h).notNow = s.notNow := rfl
@[simp] theorem State.setHart_closing : (s.setHart c h).closing = s.closing := rfl
@[simp] theorem State.setHart_now : (s.setHart c h).now = s.now := rfl
@[simp] theorem State.setHart_dram : (s.setHart c h).dram = s.dram := rfl
@[simp] theorem State.setHart_gran : (s.setHart c h).gran = s.gran := rfl
@[simp] theorem State.setHart_remote : (s.setHart c h).remote = s.remote := rfl
@[simp] theorem State.setHart_tlb : (s.setHart c h).tlb = s.tlb := rfl
@[simp] theorem State.setHart_remoteLines : (s.setHart c h).remoteLines = s.remoteLines := rfl
@[simp] theorem State.setHart_poison : (s.setHart c h).poison = s.poison := rfl
@[simp] theorem State.setHart_lines : (s.setHart c h).lines = s.lines := rfl
@[simp] theorem State.setHart_qhomes : (s.setHart c h).qhomes = s.qhomes := rfl
@[simp] theorem State.setHart_barriers : (s.setHart c h).barriers = s.barriers := rfl
@[simp] theorem State.setHart_barPending : (s.setHart c h).barPending = s.barPending := rfl
@[simp] theorem State.setHart_partials : (s.setHart c h).partials = s.partials := rfl
@[simp] theorem State.setHart_partialQ : (s.setHart c h).partialQ = s.partialQ := rfl
@[simp] theorem State.setHart_tiles : (s.setHart c h).tiles = s.tiles := rfl
@[simp] theorem State.setHart_chans : (s.setHart c h).chans = s.chans := rfl
@[simp] theorem State.setHart_dies : (s.setHart c h).dies = s.dies := rfl
@[simp] theorem State.setHart_wire : (s.setHart c h).wire = s.wire := rfl
@[simp] theorem State.setHart_flows : (s.setHart c h).flows = s.flows := rfl
@[simp] theorem State.setHart_ports : (s.setHart c h).ports = s.ports := rfl
@[simp] theorem State.setHart_rings : (s.setHart c h).rings = s.rings := rfl
@[simp] theorem State.setHart_trapQ : (s.setHart c h).trapQ = s.trapQ := rfl
@[simp] theorem State.setHart_steer : (s.setHart c h).steer = s.steer := rfl
@[simp] theorem State.setHart_incTab : (s.setHart c h).incTab = s.incTab := rfl
@[simp] theorem State.setHart_sweeps : (s.setHart c h).sweeps = s.sweeps := rfl
@[simp] theorem State.setHart_pairs : (s.setHart c h).pairs = s.pairs := rfl
@[simp] theorem State.setHart_limiters : (s.setHart c h).limiters = s.limiters := rfl
@[simp] theorem State.setHart_limiterAt : (s.setHart c h).limiterAt = s.limiterAt := rfl
@[simp] theorem State.setHart_budgetAt : (s.setHart c h).budgetAt = s.budgetAt := rfl
@[simp] theorem State.setHart_arbiters : (s.setHart c h).arbiters = s.arbiters := rfl
@[simp] theorem State.setHart_forwards : (s.setHart c h).forwards = s.forwards := rfl
@[simp] theorem State.setHart_bootStep : (s.setHart c h).bootStep = s.bootStep := rfl
@[simp] theorem State.setHart_reports : (s.setHart c h).reports = s.reports := rfl
end

section
variable (s : State) (c : Nat) (f : Hart → Hart)
@[simp] theorem State.modHart_turn : (s.modHart c f).turn = s.turn := rfl
@[simp] theorem State.modHart_curCore : (s.modHart c f).curCore = s.curCore := rfl
@[simp] theorem State.modHart_curMt : (s.modHart c f).curMt = s.curMt := rfl
@[simp] theorem State.modHart_free : (s.modHart c f).free = s.free := rfl
@[simp] theorem State.modHart_tried : (s.modHart c f).tried = s.tried := rfl
@[simp] theorem State.modHart_triedAt : (s.modHart c f).triedAt = s.triedAt := rfl
@[simp] theorem State.modHart_pads : (s.modHart c f).pads = s.pads := rfl
@[simp] theorem State.modHart_notNow : (s.modHart c f).notNow = s.notNow := rfl
@[simp] theorem State.modHart_closing : (s.modHart c f).closing = s.closing := rfl
@[simp] theorem State.modHart_now : (s.modHart c f).now = s.now := rfl
@[simp] theorem State.modHart_dram : (s.modHart c f).dram = s.dram := rfl
@[simp] theorem State.modHart_gran : (s.modHart c f).gran = s.gran := rfl
@[simp] theorem State.modHart_remote : (s.modHart c f).remote = s.remote := rfl
@[simp] theorem State.modHart_tlb : (s.modHart c f).tlb = s.tlb := rfl
@[simp] theorem State.modHart_remoteLines : (s.modHart c f).remoteLines = s.remoteLines := rfl
@[simp] theorem State.modHart_poison : (s.modHart c f).poison = s.poison := rfl
@[simp] theorem State.modHart_lines : (s.modHart c f).lines = s.lines := rfl
@[simp] theorem State.modHart_qhomes : (s.modHart c f).qhomes = s.qhomes := rfl
@[simp] theorem State.modHart_barriers : (s.modHart c f).barriers = s.barriers := rfl
@[simp] theorem State.modHart_barPending : (s.modHart c f).barPending = s.barPending := rfl
@[simp] theorem State.modHart_partials : (s.modHart c f).partials = s.partials := rfl
@[simp] theorem State.modHart_partialQ : (s.modHart c f).partialQ = s.partialQ := rfl
@[simp] theorem State.modHart_tiles : (s.modHart c f).tiles = s.tiles := rfl
@[simp] theorem State.modHart_chans : (s.modHart c f).chans = s.chans := rfl
@[simp] theorem State.modHart_dies : (s.modHart c f).dies = s.dies := rfl
@[simp] theorem State.modHart_wire : (s.modHart c f).wire = s.wire := rfl
@[simp] theorem State.modHart_flows : (s.modHart c f).flows = s.flows := rfl
@[simp] theorem State.modHart_ports : (s.modHart c f).ports = s.ports := rfl
@[simp] theorem State.modHart_rings : (s.modHart c f).rings = s.rings := rfl
@[simp] theorem State.modHart_trapQ : (s.modHart c f).trapQ = s.trapQ := rfl
@[simp] theorem State.modHart_steer : (s.modHart c f).steer = s.steer := rfl
@[simp] theorem State.modHart_incTab : (s.modHart c f).incTab = s.incTab := rfl
@[simp] theorem State.modHart_sweeps : (s.modHart c f).sweeps = s.sweeps := rfl
@[simp] theorem State.modHart_pairs : (s.modHart c f).pairs = s.pairs := rfl
@[simp] theorem State.modHart_limiters : (s.modHart c f).limiters = s.limiters := rfl
@[simp] theorem State.modHart_limiterAt : (s.modHart c f).limiterAt = s.limiterAt := rfl
@[simp] theorem State.modHart_budgetAt : (s.modHart c f).budgetAt = s.budgetAt := rfl
@[simp] theorem State.modHart_arbiters : (s.modHart c f).arbiters = s.arbiters := rfl
@[simp] theorem State.modHart_forwards : (s.modHart c f).forwards = s.forwards := rfl
@[simp] theorem State.modHart_bootStep : (s.modHart c f).bootStep = s.bootStep := rfl
@[simp] theorem State.modHart_reports : (s.modHart c f).reports = s.reports := rfl
end

section
variable (s : State) (d : Nat) (x : Die)
@[simp] theorem State.setDie_turn : (s.setDie d x).turn = s.turn := rfl
@[simp] theorem State.setDie_curCore : (s.setDie d x).curCore = s.curCore := rfl
@[simp] theorem State.setDie_curMt : (s.setDie d x).curMt = s.curMt := rfl
@[simp] theorem State.setDie_free : (s.setDie d x).free = s.free := rfl
@[simp] theorem State.setDie_tried : (s.setDie d x).tried = s.tried := rfl
@[simp] theorem State.setDie_triedAt : (s.setDie d x).triedAt = s.triedAt := rfl
@[simp] theorem State.setDie_pads : (s.setDie d x).pads = s.pads := rfl
@[simp] theorem State.setDie_notNow : (s.setDie d x).notNow = s.notNow := rfl
@[simp] theorem State.setDie_closing : (s.setDie d x).closing = s.closing := rfl
@[simp] theorem State.setDie_now : (s.setDie d x).now = s.now := rfl
@[simp] theorem State.setDie_cores : (s.setDie d x).cores = s.cores := rfl
@[simp] theorem State.setDie_dram : (s.setDie d x).dram = s.dram := rfl
@[simp] theorem State.setDie_gran : (s.setDie d x).gran = s.gran := rfl
@[simp] theorem State.setDie_remote : (s.setDie d x).remote = s.remote := rfl
@[simp] theorem State.setDie_tlb : (s.setDie d x).tlb = s.tlb := rfl
@[simp] theorem State.setDie_remoteLines : (s.setDie d x).remoteLines = s.remoteLines := rfl
@[simp] theorem State.setDie_poison : (s.setDie d x).poison = s.poison := rfl
@[simp] theorem State.setDie_lines : (s.setDie d x).lines = s.lines := rfl
@[simp] theorem State.setDie_qhomes : (s.setDie d x).qhomes = s.qhomes := rfl
@[simp] theorem State.setDie_barriers : (s.setDie d x).barriers = s.barriers := rfl
@[simp] theorem State.setDie_barPending : (s.setDie d x).barPending = s.barPending := rfl
@[simp] theorem State.setDie_partials : (s.setDie d x).partials = s.partials := rfl
@[simp] theorem State.setDie_partialQ : (s.setDie d x).partialQ = s.partialQ := rfl
@[simp] theorem State.setDie_tiles : (s.setDie d x).tiles = s.tiles := rfl
@[simp] theorem State.setDie_chans : (s.setDie d x).chans = s.chans := rfl
@[simp] theorem State.setDie_wire : (s.setDie d x).wire = s.wire := rfl
@[simp] theorem State.setDie_flows : (s.setDie d x).flows = s.flows := rfl
@[simp] theorem State.setDie_ports : (s.setDie d x).ports = s.ports := rfl
@[simp] theorem State.setDie_rings : (s.setDie d x).rings = s.rings := rfl
@[simp] theorem State.setDie_trapQ : (s.setDie d x).trapQ = s.trapQ := rfl
@[simp] theorem State.setDie_steer : (s.setDie d x).steer = s.steer := rfl
@[simp] theorem State.setDie_incTab : (s.setDie d x).incTab = s.incTab := rfl
@[simp] theorem State.setDie_sweeps : (s.setDie d x).sweeps = s.sweeps := rfl
@[simp] theorem State.setDie_pairs : (s.setDie d x).pairs = s.pairs := rfl
@[simp] theorem State.setDie_limiters : (s.setDie d x).limiters = s.limiters := rfl
@[simp] theorem State.setDie_limiterAt : (s.setDie d x).limiterAt = s.limiterAt := rfl
@[simp] theorem State.setDie_budgetAt : (s.setDie d x).budgetAt = s.budgetAt := rfl
@[simp] theorem State.setDie_arbiters : (s.setDie d x).arbiters = s.arbiters := rfl
@[simp] theorem State.setDie_forwards : (s.setDie d x).forwards = s.forwards := rfl
@[simp] theorem State.setDie_bootStep : (s.setDie d x).bootStep = s.bootStep := rfl
@[simp] theorem State.setDie_reports : (s.setDie d x).reports = s.reports := rfl
end

section
variable (s : State) (d : Nat) (f : Die → Die)
@[simp] theorem State.modDie_turn : (s.modDie d f).turn = s.turn := rfl
@[simp] theorem State.modDie_curCore : (s.modDie d f).curCore = s.curCore := rfl
@[simp] theorem State.modDie_curMt : (s.modDie d f).curMt = s.curMt := rfl
@[simp] theorem State.modDie_free : (s.modDie d f).free = s.free := rfl
@[simp] theorem State.modDie_tried : (s.modDie d f).tried = s.tried := rfl
@[simp] theorem State.modDie_triedAt : (s.modDie d f).triedAt = s.triedAt := rfl
@[simp] theorem State.modDie_pads : (s.modDie d f).pads = s.pads := rfl
@[simp] theorem State.modDie_notNow : (s.modDie d f).notNow = s.notNow := rfl
@[simp] theorem State.modDie_closing : (s.modDie d f).closing = s.closing := rfl
@[simp] theorem State.modDie_now : (s.modDie d f).now = s.now := rfl
@[simp] theorem State.modDie_cores : (s.modDie d f).cores = s.cores := rfl
@[simp] theorem State.modDie_dram : (s.modDie d f).dram = s.dram := rfl
@[simp] theorem State.modDie_gran : (s.modDie d f).gran = s.gran := rfl
@[simp] theorem State.modDie_remote : (s.modDie d f).remote = s.remote := rfl
@[simp] theorem State.modDie_tlb : (s.modDie d f).tlb = s.tlb := rfl
@[simp] theorem State.modDie_remoteLines : (s.modDie d f).remoteLines = s.remoteLines := rfl
@[simp] theorem State.modDie_poison : (s.modDie d f).poison = s.poison := rfl
@[simp] theorem State.modDie_lines : (s.modDie d f).lines = s.lines := rfl
@[simp] theorem State.modDie_qhomes : (s.modDie d f).qhomes = s.qhomes := rfl
@[simp] theorem State.modDie_barriers : (s.modDie d f).barriers = s.barriers := rfl
@[simp] theorem State.modDie_barPending : (s.modDie d f).barPending = s.barPending := rfl
@[simp] theorem State.modDie_partials : (s.modDie d f).partials = s.partials := rfl
@[simp] theorem State.modDie_partialQ : (s.modDie d f).partialQ = s.partialQ := rfl
@[simp] theorem State.modDie_tiles : (s.modDie d f).tiles = s.tiles := rfl
@[simp] theorem State.modDie_chans : (s.modDie d f).chans = s.chans := rfl
@[simp] theorem State.modDie_wire : (s.modDie d f).wire = s.wire := rfl
@[simp] theorem State.modDie_flows : (s.modDie d f).flows = s.flows := rfl
@[simp] theorem State.modDie_ports : (s.modDie d f).ports = s.ports := rfl
@[simp] theorem State.modDie_rings : (s.modDie d f).rings = s.rings := rfl
@[simp] theorem State.modDie_trapQ : (s.modDie d f).trapQ = s.trapQ := rfl
@[simp] theorem State.modDie_steer : (s.modDie d f).steer = s.steer := rfl
@[simp] theorem State.modDie_incTab : (s.modDie d f).incTab = s.incTab := rfl
@[simp] theorem State.modDie_sweeps : (s.modDie d f).sweeps = s.sweeps := rfl
@[simp] theorem State.modDie_pairs : (s.modDie d f).pairs = s.pairs := rfl
@[simp] theorem State.modDie_limiters : (s.modDie d f).limiters = s.limiters := rfl
@[simp] theorem State.modDie_limiterAt : (s.modDie d f).limiterAt = s.limiterAt := rfl
@[simp] theorem State.modDie_budgetAt : (s.modDie d f).budgetAt = s.budgetAt := rfl
@[simp] theorem State.modDie_arbiters : (s.modDie d f).arbiters = s.arbiters := rfl
@[simp] theorem State.modDie_forwards : (s.modDie d f).forwards = s.forwards := rfl
@[simp] theorem State.modDie_bootStep : (s.modDie d f).bootStep = s.bootStep := rfl
@[simp] theorem State.modDie_reports : (s.modDie d f).reports = s.reports := rfl
end

section
variable (s : State) (t : Nat) (f : TileSt → TileSt)
@[simp] theorem State.modTile_turn : (s.modTile t f).turn = s.turn := rfl
@[simp] theorem State.modTile_curCore : (s.modTile t f).curCore = s.curCore := rfl
@[simp] theorem State.modTile_curMt : (s.modTile t f).curMt = s.curMt := rfl
@[simp] theorem State.modTile_free : (s.modTile t f).free = s.free := rfl
@[simp] theorem State.modTile_tried : (s.modTile t f).tried = s.tried := rfl
@[simp] theorem State.modTile_triedAt : (s.modTile t f).triedAt = s.triedAt := rfl
@[simp] theorem State.modTile_pads : (s.modTile t f).pads = s.pads := rfl
@[simp] theorem State.modTile_notNow : (s.modTile t f).notNow = s.notNow := rfl
@[simp] theorem State.modTile_closing : (s.modTile t f).closing = s.closing := rfl
@[simp] theorem State.modTile_now : (s.modTile t f).now = s.now := rfl
@[simp] theorem State.modTile_cores : (s.modTile t f).cores = s.cores := rfl
@[simp] theorem State.modTile_dram : (s.modTile t f).dram = s.dram := rfl
@[simp] theorem State.modTile_gran : (s.modTile t f).gran = s.gran := rfl
@[simp] theorem State.modTile_remote : (s.modTile t f).remote = s.remote := rfl
@[simp] theorem State.modTile_tlb : (s.modTile t f).tlb = s.tlb := rfl
@[simp] theorem State.modTile_remoteLines : (s.modTile t f).remoteLines = s.remoteLines := rfl
@[simp] theorem State.modTile_poison : (s.modTile t f).poison = s.poison := rfl
@[simp] theorem State.modTile_lines : (s.modTile t f).lines = s.lines := rfl
@[simp] theorem State.modTile_qhomes : (s.modTile t f).qhomes = s.qhomes := rfl
@[simp] theorem State.modTile_barriers : (s.modTile t f).barriers = s.barriers := rfl
@[simp] theorem State.modTile_barPending : (s.modTile t f).barPending = s.barPending := rfl
@[simp] theorem State.modTile_partials : (s.modTile t f).partials = s.partials := rfl
@[simp] theorem State.modTile_partialQ : (s.modTile t f).partialQ = s.partialQ := rfl
@[simp] theorem State.modTile_chans : (s.modTile t f).chans = s.chans := rfl
@[simp] theorem State.modTile_dies : (s.modTile t f).dies = s.dies := rfl
@[simp] theorem State.modTile_wire : (s.modTile t f).wire = s.wire := rfl
@[simp] theorem State.modTile_flows : (s.modTile t f).flows = s.flows := rfl
@[simp] theorem State.modTile_ports : (s.modTile t f).ports = s.ports := rfl
@[simp] theorem State.modTile_rings : (s.modTile t f).rings = s.rings := rfl
@[simp] theorem State.modTile_trapQ : (s.modTile t f).trapQ = s.trapQ := rfl
@[simp] theorem State.modTile_steer : (s.modTile t f).steer = s.steer := rfl
@[simp] theorem State.modTile_incTab : (s.modTile t f).incTab = s.incTab := rfl
@[simp] theorem State.modTile_sweeps : (s.modTile t f).sweeps = s.sweeps := rfl
@[simp] theorem State.modTile_pairs : (s.modTile t f).pairs = s.pairs := rfl
@[simp] theorem State.modTile_limiters : (s.modTile t f).limiters = s.limiters := rfl
@[simp] theorem State.modTile_limiterAt : (s.modTile t f).limiterAt = s.limiterAt := rfl
@[simp] theorem State.modTile_budgetAt : (s.modTile t f).budgetAt = s.budgetAt := rfl
@[simp] theorem State.modTile_arbiters : (s.modTile t f).arbiters = s.arbiters := rfl
@[simp] theorem State.modTile_forwards : (s.modTile t f).forwards = s.forwards := rfl
@[simp] theorem State.modTile_bootStep : (s.modTile t f).bootStep = s.bootStep := rfl
@[simp] theorem State.modTile_reports : (s.modTile t f).reports = s.reports := rfl
end

section
variable (s : State) (c : Nat) (f : Chan → Chan)
@[simp] theorem State.modChan_turn : (s.modChan c f).turn = s.turn := rfl
@[simp] theorem State.modChan_curCore : (s.modChan c f).curCore = s.curCore := rfl
@[simp] theorem State.modChan_curMt : (s.modChan c f).curMt = s.curMt := rfl
@[simp] theorem State.modChan_free : (s.modChan c f).free = s.free := rfl
@[simp] theorem State.modChan_tried : (s.modChan c f).tried = s.tried := rfl
@[simp] theorem State.modChan_triedAt : (s.modChan c f).triedAt = s.triedAt := rfl
@[simp] theorem State.modChan_pads : (s.modChan c f).pads = s.pads := rfl
@[simp] theorem State.modChan_notNow : (s.modChan c f).notNow = s.notNow := rfl
@[simp] theorem State.modChan_closing : (s.modChan c f).closing = s.closing := rfl
@[simp] theorem State.modChan_now : (s.modChan c f).now = s.now := rfl
@[simp] theorem State.modChan_cores : (s.modChan c f).cores = s.cores := rfl
@[simp] theorem State.modChan_dram : (s.modChan c f).dram = s.dram := rfl
@[simp] theorem State.modChan_gran : (s.modChan c f).gran = s.gran := rfl
@[simp] theorem State.modChan_remote : (s.modChan c f).remote = s.remote := rfl
@[simp] theorem State.modChan_tlb : (s.modChan c f).tlb = s.tlb := rfl
@[simp] theorem State.modChan_remoteLines : (s.modChan c f).remoteLines = s.remoteLines := rfl
@[simp] theorem State.modChan_poison : (s.modChan c f).poison = s.poison := rfl
@[simp] theorem State.modChan_lines : (s.modChan c f).lines = s.lines := rfl
@[simp] theorem State.modChan_qhomes : (s.modChan c f).qhomes = s.qhomes := rfl
@[simp] theorem State.modChan_barriers : (s.modChan c f).barriers = s.barriers := rfl
@[simp] theorem State.modChan_barPending : (s.modChan c f).barPending = s.barPending := rfl
@[simp] theorem State.modChan_partials : (s.modChan c f).partials = s.partials := rfl
@[simp] theorem State.modChan_partialQ : (s.modChan c f).partialQ = s.partialQ := rfl
@[simp] theorem State.modChan_tiles : (s.modChan c f).tiles = s.tiles := rfl
@[simp] theorem State.modChan_dies : (s.modChan c f).dies = s.dies := rfl
@[simp] theorem State.modChan_wire : (s.modChan c f).wire = s.wire := rfl
@[simp] theorem State.modChan_flows : (s.modChan c f).flows = s.flows := rfl
@[simp] theorem State.modChan_ports : (s.modChan c f).ports = s.ports := rfl
@[simp] theorem State.modChan_rings : (s.modChan c f).rings = s.rings := rfl
@[simp] theorem State.modChan_trapQ : (s.modChan c f).trapQ = s.trapQ := rfl
@[simp] theorem State.modChan_steer : (s.modChan c f).steer = s.steer := rfl
@[simp] theorem State.modChan_incTab : (s.modChan c f).incTab = s.incTab := rfl
@[simp] theorem State.modChan_sweeps : (s.modChan c f).sweeps = s.sweeps := rfl
@[simp] theorem State.modChan_pairs : (s.modChan c f).pairs = s.pairs := rfl
@[simp] theorem State.modChan_limiters : (s.modChan c f).limiters = s.limiters := rfl
@[simp] theorem State.modChan_limiterAt : (s.modChan c f).limiterAt = s.limiterAt := rfl
@[simp] theorem State.modChan_budgetAt : (s.modChan c f).budgetAt = s.budgetAt := rfl
@[simp] theorem State.modChan_arbiters : (s.modChan c f).arbiters = s.arbiters := rfl
@[simp] theorem State.modChan_forwards : (s.modChan c f).forwards = s.forwards := rfl
@[simp] theorem State.modChan_bootStep : (s.modChan c f).bootStep = s.bootStep := rfl
@[simp] theorem State.modChan_reports : (s.modChan c f).reports = s.reports := rfl
end

section
variable (s : State) (r : Nat) (f : Ring → Ring)
@[simp] theorem State.modRing_turn : (s.modRing r f).turn = s.turn := rfl
@[simp] theorem State.modRing_curCore : (s.modRing r f).curCore = s.curCore := rfl
@[simp] theorem State.modRing_curMt : (s.modRing r f).curMt = s.curMt := rfl
@[simp] theorem State.modRing_free : (s.modRing r f).free = s.free := rfl
@[simp] theorem State.modRing_tried : (s.modRing r f).tried = s.tried := rfl
@[simp] theorem State.modRing_triedAt : (s.modRing r f).triedAt = s.triedAt := rfl
@[simp] theorem State.modRing_pads : (s.modRing r f).pads = s.pads := rfl
@[simp] theorem State.modRing_notNow : (s.modRing r f).notNow = s.notNow := rfl
@[simp] theorem State.modRing_closing : (s.modRing r f).closing = s.closing := rfl
@[simp] theorem State.modRing_now : (s.modRing r f).now = s.now := rfl
@[simp] theorem State.modRing_cores : (s.modRing r f).cores = s.cores := rfl
@[simp] theorem State.modRing_dram : (s.modRing r f).dram = s.dram := rfl
@[simp] theorem State.modRing_gran : (s.modRing r f).gran = s.gran := rfl
@[simp] theorem State.modRing_remote : (s.modRing r f).remote = s.remote := rfl
@[simp] theorem State.modRing_tlb : (s.modRing r f).tlb = s.tlb := rfl
@[simp] theorem State.modRing_remoteLines : (s.modRing r f).remoteLines = s.remoteLines := rfl
@[simp] theorem State.modRing_poison : (s.modRing r f).poison = s.poison := rfl
@[simp] theorem State.modRing_lines : (s.modRing r f).lines = s.lines := rfl
@[simp] theorem State.modRing_qhomes : (s.modRing r f).qhomes = s.qhomes := rfl
@[simp] theorem State.modRing_barriers : (s.modRing r f).barriers = s.barriers := rfl
@[simp] theorem State.modRing_barPending : (s.modRing r f).barPending = s.barPending := rfl
@[simp] theorem State.modRing_partials : (s.modRing r f).partials = s.partials := rfl
@[simp] theorem State.modRing_partialQ : (s.modRing r f).partialQ = s.partialQ := rfl
@[simp] theorem State.modRing_tiles : (s.modRing r f).tiles = s.tiles := rfl
@[simp] theorem State.modRing_chans : (s.modRing r f).chans = s.chans := rfl
@[simp] theorem State.modRing_dies : (s.modRing r f).dies = s.dies := rfl
@[simp] theorem State.modRing_wire : (s.modRing r f).wire = s.wire := rfl
@[simp] theorem State.modRing_flows : (s.modRing r f).flows = s.flows := rfl
@[simp] theorem State.modRing_ports : (s.modRing r f).ports = s.ports := rfl
@[simp] theorem State.modRing_trapQ : (s.modRing r f).trapQ = s.trapQ := rfl
@[simp] theorem State.modRing_steer : (s.modRing r f).steer = s.steer := rfl
@[simp] theorem State.modRing_incTab : (s.modRing r f).incTab = s.incTab := rfl
@[simp] theorem State.modRing_sweeps : (s.modRing r f).sweeps = s.sweeps := rfl
@[simp] theorem State.modRing_pairs : (s.modRing r f).pairs = s.pairs := rfl
@[simp] theorem State.modRing_limiters : (s.modRing r f).limiters = s.limiters := rfl
@[simp] theorem State.modRing_limiterAt : (s.modRing r f).limiterAt = s.limiterAt := rfl
@[simp] theorem State.modRing_budgetAt : (s.modRing r f).budgetAt = s.budgetAt := rfl
@[simp] theorem State.modRing_arbiters : (s.modRing r f).arbiters = s.arbiters := rfl
@[simp] theorem State.modRing_forwards : (s.modRing r f).forwards = s.forwards := rfl
@[simp] theorem State.modRing_bootStep : (s.modRing r f).bootStep = s.bootStep := rfl
@[simp] theorem State.modRing_reports : (s.modRing r f).reports = s.reports := rfl
end

section
variable (s : State) (f : Flow)
@[simp] theorem State.setFlow_turn : (s.setFlow f).turn = s.turn := rfl
@[simp] theorem State.setFlow_curCore : (s.setFlow f).curCore = s.curCore := rfl
@[simp] theorem State.setFlow_curMt : (s.setFlow f).curMt = s.curMt := rfl
@[simp] theorem State.setFlow_free : (s.setFlow f).free = s.free := rfl
@[simp] theorem State.setFlow_tried : (s.setFlow f).tried = s.tried := rfl
@[simp] theorem State.setFlow_triedAt : (s.setFlow f).triedAt = s.triedAt := rfl
@[simp] theorem State.setFlow_pads : (s.setFlow f).pads = s.pads := rfl
@[simp] theorem State.setFlow_notNow : (s.setFlow f).notNow = s.notNow := rfl
@[simp] theorem State.setFlow_closing : (s.setFlow f).closing = s.closing := rfl
@[simp] theorem State.setFlow_now : (s.setFlow f).now = s.now := rfl
@[simp] theorem State.setFlow_cores : (s.setFlow f).cores = s.cores := rfl
@[simp] theorem State.setFlow_dram : (s.setFlow f).dram = s.dram := rfl
@[simp] theorem State.setFlow_gran : (s.setFlow f).gran = s.gran := rfl
@[simp] theorem State.setFlow_remote : (s.setFlow f).remote = s.remote := rfl
@[simp] theorem State.setFlow_tlb : (s.setFlow f).tlb = s.tlb := rfl
@[simp] theorem State.setFlow_remoteLines : (s.setFlow f).remoteLines = s.remoteLines := rfl
@[simp] theorem State.setFlow_poison : (s.setFlow f).poison = s.poison := rfl
@[simp] theorem State.setFlow_lines : (s.setFlow f).lines = s.lines := rfl
@[simp] theorem State.setFlow_qhomes : (s.setFlow f).qhomes = s.qhomes := rfl
@[simp] theorem State.setFlow_barriers : (s.setFlow f).barriers = s.barriers := rfl
@[simp] theorem State.setFlow_barPending : (s.setFlow f).barPending = s.barPending := rfl
@[simp] theorem State.setFlow_partials : (s.setFlow f).partials = s.partials := rfl
@[simp] theorem State.setFlow_partialQ : (s.setFlow f).partialQ = s.partialQ := rfl
@[simp] theorem State.setFlow_tiles : (s.setFlow f).tiles = s.tiles := rfl
@[simp] theorem State.setFlow_chans : (s.setFlow f).chans = s.chans := rfl
@[simp] theorem State.setFlow_dies : (s.setFlow f).dies = s.dies := rfl
@[simp] theorem State.setFlow_wire : (s.setFlow f).wire = s.wire := rfl
@[simp] theorem State.setFlow_ports : (s.setFlow f).ports = s.ports := rfl
@[simp] theorem State.setFlow_rings : (s.setFlow f).rings = s.rings := rfl
@[simp] theorem State.setFlow_trapQ : (s.setFlow f).trapQ = s.trapQ := rfl
@[simp] theorem State.setFlow_steer : (s.setFlow f).steer = s.steer := rfl
@[simp] theorem State.setFlow_incTab : (s.setFlow f).incTab = s.incTab := rfl
@[simp] theorem State.setFlow_sweeps : (s.setFlow f).sweeps = s.sweeps := rfl
@[simp] theorem State.setFlow_pairs : (s.setFlow f).pairs = s.pairs := rfl
@[simp] theorem State.setFlow_limiters : (s.setFlow f).limiters = s.limiters := rfl
@[simp] theorem State.setFlow_limiterAt : (s.setFlow f).limiterAt = s.limiterAt := rfl
@[simp] theorem State.setFlow_budgetAt : (s.setFlow f).budgetAt = s.budgetAt := rfl
@[simp] theorem State.setFlow_arbiters : (s.setFlow f).arbiters = s.arbiters := rfl
@[simp] theorem State.setFlow_forwards : (s.setFlow f).forwards = s.forwards := rfl
@[simp] theorem State.setFlow_bootStep : (s.setFlow f).bootStep = s.bootStep := rfl
@[simp] theorem State.setFlow_reports : (s.setFlow f).reports = s.reports := rfl
end

section
variable (s : State) (n : Nat) (x : Node)
@[simp] theorem State.setNode_turn : (s.setNode n x).turn = s.turn := rfl
@[simp] theorem State.setNode_curCore : (s.setNode n x).curCore = s.curCore := rfl
@[simp] theorem State.setNode_curMt : (s.setNode n x).curMt = s.curMt := rfl
@[simp] theorem State.setNode_free : (s.setNode n x).free = s.free := rfl
@[simp] theorem State.setNode_tried : (s.setNode n x).tried = s.tried := rfl
@[simp] theorem State.setNode_triedAt : (s.setNode n x).triedAt = s.triedAt := rfl
@[simp] theorem State.setNode_pads : (s.setNode n x).pads = s.pads := rfl
@[simp] theorem State.setNode_notNow : (s.setNode n x).notNow = s.notNow := rfl
@[simp] theorem State.setNode_closing : (s.setNode n x).closing = s.closing := rfl
@[simp] theorem State.setNode_now : (s.setNode n x).now = s.now := rfl
@[simp] theorem State.setNode_cores : (s.setNode n x).cores = s.cores := rfl
@[simp] theorem State.setNode_dram : (s.setNode n x).dram = s.dram := rfl
@[simp] theorem State.setNode_gran : (s.setNode n x).gran = s.gran := rfl
@[simp] theorem State.setNode_remote : (s.setNode n x).remote = s.remote := rfl
@[simp] theorem State.setNode_tlb : (s.setNode n x).tlb = s.tlb := rfl
@[simp] theorem State.setNode_remoteLines : (s.setNode n x).remoteLines = s.remoteLines := rfl
@[simp] theorem State.setNode_poison : (s.setNode n x).poison = s.poison := rfl
@[simp] theorem State.setNode_lines : (s.setNode n x).lines = s.lines := rfl
@[simp] theorem State.setNode_qhomes : (s.setNode n x).qhomes = s.qhomes := rfl
@[simp] theorem State.setNode_barriers : (s.setNode n x).barriers = s.barriers := rfl
@[simp] theorem State.setNode_barPending : (s.setNode n x).barPending = s.barPending := rfl
@[simp] theorem State.setNode_partials : (s.setNode n x).partials = s.partials := rfl
@[simp] theorem State.setNode_partialQ : (s.setNode n x).partialQ = s.partialQ := rfl
@[simp] theorem State.setNode_tiles : (s.setNode n x).tiles = s.tiles := rfl
@[simp] theorem State.setNode_chans : (s.setNode n x).chans = s.chans := rfl
@[simp] theorem State.setNode_wire : (s.setNode n x).wire = s.wire := rfl
@[simp] theorem State.setNode_flows : (s.setNode n x).flows = s.flows := rfl
@[simp] theorem State.setNode_ports : (s.setNode n x).ports = s.ports := rfl
@[simp] theorem State.setNode_rings : (s.setNode n x).rings = s.rings := rfl
@[simp] theorem State.setNode_trapQ : (s.setNode n x).trapQ = s.trapQ := rfl
@[simp] theorem State.setNode_steer : (s.setNode n x).steer = s.steer := rfl
@[simp] theorem State.setNode_incTab : (s.setNode n x).incTab = s.incTab := rfl
@[simp] theorem State.setNode_sweeps : (s.setNode n x).sweeps = s.sweeps := rfl
@[simp] theorem State.setNode_pairs : (s.setNode n x).pairs = s.pairs := rfl
@[simp] theorem State.setNode_limiters : (s.setNode n x).limiters = s.limiters := rfl
@[simp] theorem State.setNode_limiterAt : (s.setNode n x).limiterAt = s.limiterAt := rfl
@[simp] theorem State.setNode_budgetAt : (s.setNode n x).budgetAt = s.budgetAt := rfl
@[simp] theorem State.setNode_arbiters : (s.setNode n x).arbiters = s.arbiters := rfl
@[simp] theorem State.setNode_forwards : (s.setNode n x).forwards = s.forwards := rfl
@[simp] theorem State.setNode_bootStep : (s.setNode n x).bootStep = s.bootStep := rfl
@[simp] theorem State.setNode_reports : (s.setNode n x).reports = s.reports := rfl
end

section
variable (s : State) (c : Nat) (g : Gate)
@[simp] theorem State.setGate_turn : (s.setGate c g).turn = s.turn := rfl
@[simp] theorem State.setGate_curCore : (s.setGate c g).curCore = s.curCore := rfl
@[simp] theorem State.setGate_curMt : (s.setGate c g).curMt = s.curMt := rfl
@[simp] theorem State.setGate_free : (s.setGate c g).free = s.free := rfl
@[simp] theorem State.setGate_tried : (s.setGate c g).tried = s.tried := rfl
@[simp] theorem State.setGate_triedAt : (s.setGate c g).triedAt = s.triedAt := rfl
@[simp] theorem State.setGate_pads : (s.setGate c g).pads = s.pads := rfl
@[simp] theorem State.setGate_notNow : (s.setGate c g).notNow = s.notNow := rfl
@[simp] theorem State.setGate_closing : (s.setGate c g).closing = s.closing := rfl
@[simp] theorem State.setGate_now : (s.setGate c g).now = s.now := rfl
@[simp] theorem State.setGate_dram : (s.setGate c g).dram = s.dram := rfl
@[simp] theorem State.setGate_gran : (s.setGate c g).gran = s.gran := rfl
@[simp] theorem State.setGate_remote : (s.setGate c g).remote = s.remote := rfl
@[simp] theorem State.setGate_tlb : (s.setGate c g).tlb = s.tlb := rfl
@[simp] theorem State.setGate_remoteLines : (s.setGate c g).remoteLines = s.remoteLines := rfl
@[simp] theorem State.setGate_poison : (s.setGate c g).poison = s.poison := rfl
@[simp] theorem State.setGate_lines : (s.setGate c g).lines = s.lines := rfl
@[simp] theorem State.setGate_qhomes : (s.setGate c g).qhomes = s.qhomes := rfl
@[simp] theorem State.setGate_barriers : (s.setGate c g).barriers = s.barriers := rfl
@[simp] theorem State.setGate_barPending : (s.setGate c g).barPending = s.barPending := rfl
@[simp] theorem State.setGate_partials : (s.setGate c g).partials = s.partials := rfl
@[simp] theorem State.setGate_partialQ : (s.setGate c g).partialQ = s.partialQ := rfl
@[simp] theorem State.setGate_tiles : (s.setGate c g).tiles = s.tiles := rfl
@[simp] theorem State.setGate_chans : (s.setGate c g).chans = s.chans := rfl
@[simp] theorem State.setGate_dies : (s.setGate c g).dies = s.dies := rfl
@[simp] theorem State.setGate_wire : (s.setGate c g).wire = s.wire := rfl
@[simp] theorem State.setGate_flows : (s.setGate c g).flows = s.flows := rfl
@[simp] theorem State.setGate_ports : (s.setGate c g).ports = s.ports := rfl
@[simp] theorem State.setGate_rings : (s.setGate c g).rings = s.rings := rfl
@[simp] theorem State.setGate_trapQ : (s.setGate c g).trapQ = s.trapQ := rfl
@[simp] theorem State.setGate_steer : (s.setGate c g).steer = s.steer := rfl
@[simp] theorem State.setGate_incTab : (s.setGate c g).incTab = s.incTab := rfl
@[simp] theorem State.setGate_sweeps : (s.setGate c g).sweeps = s.sweeps := rfl
@[simp] theorem State.setGate_pairs : (s.setGate c g).pairs = s.pairs := rfl
@[simp] theorem State.setGate_limiters : (s.setGate c g).limiters = s.limiters := rfl
@[simp] theorem State.setGate_limiterAt : (s.setGate c g).limiterAt = s.limiterAt := rfl
@[simp] theorem State.setGate_budgetAt : (s.setGate c g).budgetAt = s.budgetAt := rfl
@[simp] theorem State.setGate_arbiters : (s.setGate c g).arbiters = s.arbiters := rfl
@[simp] theorem State.setGate_forwards : (s.setGate c g).forwards = s.forwards := rfl
@[simp] theorem State.setGate_bootStep : (s.setGate c g).bootStep = s.bootStep := rfl
@[simp] theorem State.setGate_reports : (s.setGate c g).reports = s.reports := rfl
end

section
variable (s : State) (q : Nat) (a : Arbiter)
@[simp] theorem State.setArbiter_turn : (s.setArbiter q a).turn = s.turn := rfl
@[simp] theorem State.setArbiter_curCore : (s.setArbiter q a).curCore = s.curCore := rfl
@[simp] theorem State.setArbiter_curMt : (s.setArbiter q a).curMt = s.curMt := rfl
@[simp] theorem State.setArbiter_free : (s.setArbiter q a).free = s.free := rfl
@[simp] theorem State.setArbiter_tried : (s.setArbiter q a).tried = s.tried := rfl
@[simp] theorem State.setArbiter_triedAt : (s.setArbiter q a).triedAt = s.triedAt := rfl
@[simp] theorem State.setArbiter_pads : (s.setArbiter q a).pads = s.pads := rfl
@[simp] theorem State.setArbiter_notNow : (s.setArbiter q a).notNow = s.notNow := rfl
@[simp] theorem State.setArbiter_closing : (s.setArbiter q a).closing = s.closing := rfl
@[simp] theorem State.setArbiter_now : (s.setArbiter q a).now = s.now := rfl
@[simp] theorem State.setArbiter_cores : (s.setArbiter q a).cores = s.cores := rfl
@[simp] theorem State.setArbiter_dram : (s.setArbiter q a).dram = s.dram := rfl
@[simp] theorem State.setArbiter_gran : (s.setArbiter q a).gran = s.gran := rfl
@[simp] theorem State.setArbiter_remote : (s.setArbiter q a).remote = s.remote := rfl
@[simp] theorem State.setArbiter_tlb : (s.setArbiter q a).tlb = s.tlb := rfl
@[simp] theorem State.setArbiter_remoteLines : (s.setArbiter q a).remoteLines = s.remoteLines := rfl
@[simp] theorem State.setArbiter_poison : (s.setArbiter q a).poison = s.poison := rfl
@[simp] theorem State.setArbiter_lines : (s.setArbiter q a).lines = s.lines := rfl
@[simp] theorem State.setArbiter_qhomes : (s.setArbiter q a).qhomes = s.qhomes := rfl
@[simp] theorem State.setArbiter_barriers : (s.setArbiter q a).barriers = s.barriers := rfl
@[simp] theorem State.setArbiter_barPending : (s.setArbiter q a).barPending = s.barPending := rfl
@[simp] theorem State.setArbiter_partials : (s.setArbiter q a).partials = s.partials := rfl
@[simp] theorem State.setArbiter_partialQ : (s.setArbiter q a).partialQ = s.partialQ := rfl
@[simp] theorem State.setArbiter_tiles : (s.setArbiter q a).tiles = s.tiles := rfl
@[simp] theorem State.setArbiter_chans : (s.setArbiter q a).chans = s.chans := rfl
@[simp] theorem State.setArbiter_dies : (s.setArbiter q a).dies = s.dies := rfl
@[simp] theorem State.setArbiter_wire : (s.setArbiter q a).wire = s.wire := rfl
@[simp] theorem State.setArbiter_flows : (s.setArbiter q a).flows = s.flows := rfl
@[simp] theorem State.setArbiter_ports : (s.setArbiter q a).ports = s.ports := rfl
@[simp] theorem State.setArbiter_rings : (s.setArbiter q a).rings = s.rings := rfl
@[simp] theorem State.setArbiter_trapQ : (s.setArbiter q a).trapQ = s.trapQ := rfl
@[simp] theorem State.setArbiter_steer : (s.setArbiter q a).steer = s.steer := rfl
@[simp] theorem State.setArbiter_incTab : (s.setArbiter q a).incTab = s.incTab := rfl
@[simp] theorem State.setArbiter_sweeps : (s.setArbiter q a).sweeps = s.sweeps := rfl
@[simp] theorem State.setArbiter_pairs : (s.setArbiter q a).pairs = s.pairs := rfl
@[simp] theorem State.setArbiter_limiters : (s.setArbiter q a).limiters = s.limiters := rfl
@[simp] theorem State.setArbiter_limiterAt : (s.setArbiter q a).limiterAt = s.limiterAt := rfl
@[simp] theorem State.setArbiter_budgetAt : (s.setArbiter q a).budgetAt = s.budgetAt := rfl
@[simp] theorem State.setArbiter_forwards : (s.setArbiter q a).forwards = s.forwards := rfl
@[simp] theorem State.setArbiter_bootStep : (s.setArbiter q a).bootStep = s.bootStep := rfl
@[simp] theorem State.setArbiter_reports : (s.setArbiter q a).reports = s.reports := rfl
end

section
variable (k : Core) (m : Nat) (t : Mt)
@[simp] theorem Core.setMt_ct : (k.setMt m t).ct = k.ct := rfl
@[simp] theorem Core.setMt_scratch : (k.setMt m t).scratch = k.scratch := rfl
@[simp] theorem Core.setMt_lane : (k.setMt m t).lane = k.lane := rfl
@[simp] theorem Core.setMt_mbox : (k.setMt m t).mbox = k.mbox := rfl
@[simp] theorem Core.setMt_winFull : (k.setMt m t).winFull = k.winFull := rfl
@[simp] theorem Core.setMt_mboxFull : (k.setMt m t).mboxFull = k.mboxFull := rfl
@[simp] theorem Core.setMt_mboxDom : (k.setMt m t).mboxDom = k.mboxDom := rfl
@[simp] theorem Core.setMt_links : (k.setMt m t).links = k.links := rfl
@[simp] theorem Core.setMt_actors : (k.setMt m t).actors = k.actors := rfl
@[simp] theorem Core.setMt_firings : (k.setMt m t).firings = k.firings := rfl
@[simp] theorem Core.setMt_lastFired : (k.setMt m t).lastFired = k.lastFired := rfl
@[simp] theorem Core.setMt_lastMt : (k.setMt m t).lastMt = k.lastMt := rfl
@[simp] theorem Core.setMt_stgallot : (k.setMt m t).stgallot = k.stgallot := rfl
@[simp] theorem Core.setMt_bindtab : (k.setMt m t).bindtab = k.bindtab := rfl
@[simp] theorem Core.setMt_ctx : (k.setMt m t).ctx = k.ctx := rfl
@[simp] theorem Core.setMt_inc : (k.setMt m t).inc = k.inc := rfl
@[simp] theorem Core.setMt_nbv : (k.setMt m t).nbv = k.nbv := rfl
@[simp] theorem Core.setMt_root : (k.setMt m t).root = k.root := rfl
@[simp] theorem Core.setMt_inbox : (k.setMt m t).inbox = k.inbox := rfl
@[simp] theorem Core.setMt_posting : (k.setMt m t).posting = k.posting := rfl
@[simp] theorem Core.setMt_fifo : (k.setMt m t).fifo = k.fifo := rfl
@[simp] theorem Core.setMt_seq : (k.setMt m t).seq = k.seq := rfl
@[simp] theorem Core.setMt_issued : (k.setMt m t).issued = k.issued := rfl
@[simp] theorem Core.setMt_ring : (k.setMt m t).ring = k.ring := rfl
@[simp] theorem Core.setMt_drsel : (k.setMt m t).drsel = k.drsel := rfl
@[simp] theorem Core.setMt_mx : (k.setMt m t).mx = k.mx := rfl
@[simp] theorem Core.setMt_banks : (k.setMt m t).banks = k.banks := rfl
@[simp] theorem Core.setMt_copies : (k.setMt m t).copies = k.copies := rfl
@[simp] theorem Core.setMt_evq : (k.setMt m t).evq = k.evq := rfl
@[simp] theorem Core.setMt_tq : (k.setMt m t).tq = k.tq := rfl
@[simp] theorem Core.setMt_wr : (k.setMt m t).wr = k.wr := rfl
@[simp] theorem Core.setMt_etick : (k.setMt m t).etick = k.etick := rfl
@[simp] theorem Core.setMt_rankF : (k.setMt m t).rankF = k.rankF := rfl
@[simp] theorem Core.setMt_rankRho : (k.setMt m t).rankRho = k.rankRho := rfl
@[simp] theorem Core.setMt_rankTail : (k.setMt m t).rankTail = k.rankTail := rfl
@[simp] theorem Core.setMt_mono : (k.setMt m t).mono = k.mono := rfl
@[simp] theorem Core.setMt_trbase : (k.setMt m t).trbase = k.trbase := rfl
@[simp] theorem Core.setMt_trloc : (k.setMt m t).trloc = k.trloc := rfl
@[simp] theorem Core.setMt_late : (k.setMt m t).late = k.late := rfl
@[simp] theorem Core.setMt_lcnt : (k.setMt m t).lcnt = k.lcnt := rfl
@[simp] theorem Core.setMt_dbgctl : (k.setMt m t).dbgctl = k.dbgctl := rfl
@[simp] theorem Core.setMt_dbgpc : (k.setMt m t).dbgpc = k.dbgpc := rfl
@[simp] theorem Core.setMt_ctinbhi : (k.setMt m t).ctinbhi = k.ctinbhi := rfl
@[simp] theorem Core.setMt_duty : (k.setMt m t).duty = k.duty := rfl
@[simp] theorem Core.setMt_forced : (k.setMt m t).forced = k.forced := rfl
@[simp] theorem Core.setMt_pwrreq : (k.setMt m t).pwrreq = k.pwrreq := rfl
@[simp] theorem Core.setMt_tallow : (k.setMt m t).tallow = k.tallow := rfl
@[simp] theorem Core.setMt_gate : (k.setMt m t).gate = k.gate := rfl
@[simp] theorem Core.setMt_resetDue : (k.setMt m t).resetDue = k.resetDue := rfl
@[simp] theorem Core.setMt_launch : (k.setMt m t).launch = k.launch := rfl
@[simp] theorem Core.setMt_origin : (k.setMt m t).origin = k.origin := rfl
@[simp] theorem Core.setMt_index : (k.setMt m t).index = k.index := rfl
@[simp] theorem Core.setMt_started : (k.setMt m t).started = k.started := rfl
@[simp] theorem Core.setMt_ended : (k.setMt m t).ended = k.ended := rfl
@[simp] theorem Core.setMt_firedSince : (k.setMt m t).firedSince = k.firedSince := rfl
@[simp] theorem Core.setMt_sent : (k.setMt m t).sent = k.sent := rfl
@[simp] theorem Core.setMt_accepted : (k.setMt m t).accepted = k.accepted := rfl
@[simp] theorem Core.setMt_frozen : (k.setMt m t).frozen = k.frozen := rfl
@[simp] theorem Core.setMt_arrivals : (k.setMt m t).arrivals = k.arrivals := rfl
@[simp] theorem Core.setMt_pair : (k.setMt m t).pair = k.pair := rfl
@[simp] theorem Core.setMt_claims : (k.setMt m t).claims = k.claims := rfl
@[simp] theorem Core.setMt_answers : (k.setMt m t).answers = k.answers := rfl
@[simp] theorem Core.setMt_ownStores : (k.setMt m t).ownStores = k.ownStores := rfl
@[simp] theorem Core.setMt_lateStores : (k.setMt m t).lateStores = k.lateStores := rfl
@[simp] theorem Core.setMt_earlyLoads : (k.setMt m t).earlyLoads = k.earlyLoads := rfl
end

section
variable (k : Core) (m : Nat) (f : Mt → Mt)
@[simp] theorem Core.modMt_ct : (k.modMt m f).ct = k.ct := rfl
@[simp] theorem Core.modMt_scratch : (k.modMt m f).scratch = k.scratch := rfl
@[simp] theorem Core.modMt_lane : (k.modMt m f).lane = k.lane := rfl
@[simp] theorem Core.modMt_mbox : (k.modMt m f).mbox = k.mbox := rfl
@[simp] theorem Core.modMt_winFull : (k.modMt m f).winFull = k.winFull := rfl
@[simp] theorem Core.modMt_mboxFull : (k.modMt m f).mboxFull = k.mboxFull := rfl
@[simp] theorem Core.modMt_mboxDom : (k.modMt m f).mboxDom = k.mboxDom := rfl
@[simp] theorem Core.modMt_links : (k.modMt m f).links = k.links := rfl
@[simp] theorem Core.modMt_actors : (k.modMt m f).actors = k.actors := rfl
@[simp] theorem Core.modMt_firings : (k.modMt m f).firings = k.firings := rfl
@[simp] theorem Core.modMt_lastFired : (k.modMt m f).lastFired = k.lastFired := rfl
@[simp] theorem Core.modMt_lastMt : (k.modMt m f).lastMt = k.lastMt := rfl
@[simp] theorem Core.modMt_stgallot : (k.modMt m f).stgallot = k.stgallot := rfl
@[simp] theorem Core.modMt_bindtab : (k.modMt m f).bindtab = k.bindtab := rfl
@[simp] theorem Core.modMt_ctx : (k.modMt m f).ctx = k.ctx := rfl
@[simp] theorem Core.modMt_inc : (k.modMt m f).inc = k.inc := rfl
@[simp] theorem Core.modMt_nbv : (k.modMt m f).nbv = k.nbv := rfl
@[simp] theorem Core.modMt_root : (k.modMt m f).root = k.root := rfl
@[simp] theorem Core.modMt_inbox : (k.modMt m f).inbox = k.inbox := rfl
@[simp] theorem Core.modMt_posting : (k.modMt m f).posting = k.posting := rfl
@[simp] theorem Core.modMt_fifo : (k.modMt m f).fifo = k.fifo := rfl
@[simp] theorem Core.modMt_seq : (k.modMt m f).seq = k.seq := rfl
@[simp] theorem Core.modMt_issued : (k.modMt m f).issued = k.issued := rfl
@[simp] theorem Core.modMt_ring : (k.modMt m f).ring = k.ring := rfl
@[simp] theorem Core.modMt_drsel : (k.modMt m f).drsel = k.drsel := rfl
@[simp] theorem Core.modMt_mx : (k.modMt m f).mx = k.mx := rfl
@[simp] theorem Core.modMt_banks : (k.modMt m f).banks = k.banks := rfl
@[simp] theorem Core.modMt_copies : (k.modMt m f).copies = k.copies := rfl
@[simp] theorem Core.modMt_evq : (k.modMt m f).evq = k.evq := rfl
@[simp] theorem Core.modMt_tq : (k.modMt m f).tq = k.tq := rfl
@[simp] theorem Core.modMt_wr : (k.modMt m f).wr = k.wr := rfl
@[simp] theorem Core.modMt_etick : (k.modMt m f).etick = k.etick := rfl
@[simp] theorem Core.modMt_rankF : (k.modMt m f).rankF = k.rankF := rfl
@[simp] theorem Core.modMt_rankRho : (k.modMt m f).rankRho = k.rankRho := rfl
@[simp] theorem Core.modMt_rankTail : (k.modMt m f).rankTail = k.rankTail := rfl
@[simp] theorem Core.modMt_mono : (k.modMt m f).mono = k.mono := rfl
@[simp] theorem Core.modMt_trbase : (k.modMt m f).trbase = k.trbase := rfl
@[simp] theorem Core.modMt_trloc : (k.modMt m f).trloc = k.trloc := rfl
@[simp] theorem Core.modMt_late : (k.modMt m f).late = k.late := rfl
@[simp] theorem Core.modMt_lcnt : (k.modMt m f).lcnt = k.lcnt := rfl
@[simp] theorem Core.modMt_dbgctl : (k.modMt m f).dbgctl = k.dbgctl := rfl
@[simp] theorem Core.modMt_dbgpc : (k.modMt m f).dbgpc = k.dbgpc := rfl
@[simp] theorem Core.modMt_ctinbhi : (k.modMt m f).ctinbhi = k.ctinbhi := rfl
@[simp] theorem Core.modMt_duty : (k.modMt m f).duty = k.duty := rfl
@[simp] theorem Core.modMt_forced : (k.modMt m f).forced = k.forced := rfl
@[simp] theorem Core.modMt_pwrreq : (k.modMt m f).pwrreq = k.pwrreq := rfl
@[simp] theorem Core.modMt_tallow : (k.modMt m f).tallow = k.tallow := rfl
@[simp] theorem Core.modMt_gate : (k.modMt m f).gate = k.gate := rfl
@[simp] theorem Core.modMt_resetDue : (k.modMt m f).resetDue = k.resetDue := rfl
@[simp] theorem Core.modMt_launch : (k.modMt m f).launch = k.launch := rfl
@[simp] theorem Core.modMt_origin : (k.modMt m f).origin = k.origin := rfl
@[simp] theorem Core.modMt_index : (k.modMt m f).index = k.index := rfl
@[simp] theorem Core.modMt_started : (k.modMt m f).started = k.started := rfl
@[simp] theorem Core.modMt_ended : (k.modMt m f).ended = k.ended := rfl
@[simp] theorem Core.modMt_firedSince : (k.modMt m f).firedSince = k.firedSince := rfl
@[simp] theorem Core.modMt_sent : (k.modMt m f).sent = k.sent := rfl
@[simp] theorem Core.modMt_accepted : (k.modMt m f).accepted = k.accepted := rfl
@[simp] theorem Core.modMt_frozen : (k.modMt m f).frozen = k.frozen := rfl
@[simp] theorem Core.modMt_arrivals : (k.modMt m f).arrivals = k.arrivals := rfl
@[simp] theorem Core.modMt_pair : (k.modMt m f).pair = k.pair := rfl
@[simp] theorem Core.modMt_claims : (k.modMt m f).claims = k.claims := rfl
@[simp] theorem Core.modMt_answers : (k.modMt m f).answers = k.answers := rfl
@[simp] theorem Core.modMt_ownStores : (k.modMt m f).ownStores = k.ownStores := rfl
@[simp] theorem Core.modMt_lateStores : (k.modMt m f).lateStores = k.lateStores := rfl
@[simp] theorem Core.modMt_earlyLoads : (k.modMt m f).earlyLoads = k.earlyLoads := rfl
end

section
variable (k : Core) (b : Nat) (f : Bank → Bank)
@[simp] theorem Core.modBank_ct : (k.modBank b f).ct = k.ct := rfl
@[simp] theorem Core.modBank_mts : (k.modBank b f).mts = k.mts := rfl
@[simp] theorem Core.modBank_scratch : (k.modBank b f).scratch = k.scratch := rfl
@[simp] theorem Core.modBank_lane : (k.modBank b f).lane = k.lane := rfl
@[simp] theorem Core.modBank_mbox : (k.modBank b f).mbox = k.mbox := rfl
@[simp] theorem Core.modBank_winFull : (k.modBank b f).winFull = k.winFull := rfl
@[simp] theorem Core.modBank_mboxFull : (k.modBank b f).mboxFull = k.mboxFull := rfl
@[simp] theorem Core.modBank_mboxDom : (k.modBank b f).mboxDom = k.mboxDom := rfl
@[simp] theorem Core.modBank_links : (k.modBank b f).links = k.links := rfl
@[simp] theorem Core.modBank_actors : (k.modBank b f).actors = k.actors := rfl
@[simp] theorem Core.modBank_firings : (k.modBank b f).firings = k.firings := rfl
@[simp] theorem Core.modBank_lastFired : (k.modBank b f).lastFired = k.lastFired := rfl
@[simp] theorem Core.modBank_lastMt : (k.modBank b f).lastMt = k.lastMt := rfl
@[simp] theorem Core.modBank_stgallot : (k.modBank b f).stgallot = k.stgallot := rfl
@[simp] theorem Core.modBank_bindtab : (k.modBank b f).bindtab = k.bindtab := rfl
@[simp] theorem Core.modBank_ctx : (k.modBank b f).ctx = k.ctx := rfl
@[simp] theorem Core.modBank_inc : (k.modBank b f).inc = k.inc := rfl
@[simp] theorem Core.modBank_nbv : (k.modBank b f).nbv = k.nbv := rfl
@[simp] theorem Core.modBank_root : (k.modBank b f).root = k.root := rfl
@[simp] theorem Core.modBank_inbox : (k.modBank b f).inbox = k.inbox := rfl
@[simp] theorem Core.modBank_posting : (k.modBank b f).posting = k.posting := rfl
@[simp] theorem Core.modBank_fifo : (k.modBank b f).fifo = k.fifo := rfl
@[simp] theorem Core.modBank_seq : (k.modBank b f).seq = k.seq := rfl
@[simp] theorem Core.modBank_issued : (k.modBank b f).issued = k.issued := rfl
@[simp] theorem Core.modBank_ring : (k.modBank b f).ring = k.ring := rfl
@[simp] theorem Core.modBank_drsel : (k.modBank b f).drsel = k.drsel := rfl
@[simp] theorem Core.modBank_mx : (k.modBank b f).mx = k.mx := rfl
@[simp] theorem Core.modBank_copies : (k.modBank b f).copies = k.copies := rfl
@[simp] theorem Core.modBank_evq : (k.modBank b f).evq = k.evq := rfl
@[simp] theorem Core.modBank_tq : (k.modBank b f).tq = k.tq := rfl
@[simp] theorem Core.modBank_wr : (k.modBank b f).wr = k.wr := rfl
@[simp] theorem Core.modBank_etick : (k.modBank b f).etick = k.etick := rfl
@[simp] theorem Core.modBank_rankF : (k.modBank b f).rankF = k.rankF := rfl
@[simp] theorem Core.modBank_rankRho : (k.modBank b f).rankRho = k.rankRho := rfl
@[simp] theorem Core.modBank_rankTail : (k.modBank b f).rankTail = k.rankTail := rfl
@[simp] theorem Core.modBank_mono : (k.modBank b f).mono = k.mono := rfl
@[simp] theorem Core.modBank_trbase : (k.modBank b f).trbase = k.trbase := rfl
@[simp] theorem Core.modBank_trloc : (k.modBank b f).trloc = k.trloc := rfl
@[simp] theorem Core.modBank_late : (k.modBank b f).late = k.late := rfl
@[simp] theorem Core.modBank_lcnt : (k.modBank b f).lcnt = k.lcnt := rfl
@[simp] theorem Core.modBank_dbgctl : (k.modBank b f).dbgctl = k.dbgctl := rfl
@[simp] theorem Core.modBank_dbgpc : (k.modBank b f).dbgpc = k.dbgpc := rfl
@[simp] theorem Core.modBank_ctinbhi : (k.modBank b f).ctinbhi = k.ctinbhi := rfl
@[simp] theorem Core.modBank_duty : (k.modBank b f).duty = k.duty := rfl
@[simp] theorem Core.modBank_forced : (k.modBank b f).forced = k.forced := rfl
@[simp] theorem Core.modBank_pwrreq : (k.modBank b f).pwrreq = k.pwrreq := rfl
@[simp] theorem Core.modBank_tallow : (k.modBank b f).tallow = k.tallow := rfl
@[simp] theorem Core.modBank_gate : (k.modBank b f).gate = k.gate := rfl
@[simp] theorem Core.modBank_resetDue : (k.modBank b f).resetDue = k.resetDue := rfl
@[simp] theorem Core.modBank_launch : (k.modBank b f).launch = k.launch := rfl
@[simp] theorem Core.modBank_origin : (k.modBank b f).origin = k.origin := rfl
@[simp] theorem Core.modBank_index : (k.modBank b f).index = k.index := rfl
@[simp] theorem Core.modBank_started : (k.modBank b f).started = k.started := rfl
@[simp] theorem Core.modBank_ended : (k.modBank b f).ended = k.ended := rfl
@[simp] theorem Core.modBank_firedSince : (k.modBank b f).firedSince = k.firedSince := rfl
@[simp] theorem Core.modBank_sent : (k.modBank b f).sent = k.sent := rfl
@[simp] theorem Core.modBank_accepted : (k.modBank b f).accepted = k.accepted := rfl
@[simp] theorem Core.modBank_frozen : (k.modBank b f).frozen = k.frozen := rfl
@[simp] theorem Core.modBank_arrivals : (k.modBank b f).arrivals = k.arrivals := rfl
@[simp] theorem Core.modBank_pair : (k.modBank b f).pair = k.pair := rfl
@[simp] theorem Core.modBank_claims : (k.modBank b f).claims = k.claims := rfl
@[simp] theorem Core.modBank_answers : (k.modBank b f).answers = k.answers := rfl
@[simp] theorem Core.modBank_ownStores : (k.modBank b f).ownStores = k.ownStores := rfl
@[simp] theorem Core.modBank_lateStores : (k.modBank b f).lateStores = k.lateStores := rfl
@[simp] theorem Core.modBank_earlyLoads : (k.modBank b f).earlyLoads = k.earlyLoads := rfl
end

section
variable (t : Mt) (r l : Nat) (w : Word)
@[simp] theorem Mt.setV_st : (t.setV r l w).st = t.st := rfl
@[simp] theorem Mt.setV_pc : (t.setV r l w).pc = t.pc := rfl
@[simp] theorem Mt.setV_s : (t.setV r l w).s = t.s := rfl
@[simp] theorem Mt.setV_p : (t.setV r l w).p = t.p := rfl
@[simp] theorem Mt.setV_h : (t.setV r l w).h = t.h := rfl
@[simp] theorem Mt.setV_hgen : (t.setV r l w).hgen = t.hgen := rfl
@[simp] theorem Mt.setV_q : (t.setV r l w).q = t.q := rfl
@[simp] theorem Mt.setV_block : (t.setV r l w).block = t.block := rfl
@[simp] theorem Mt.setV_repcnt : (t.setV r l w).repcnt = t.repcnt := rfl
@[simp] theorem Mt.setV_rep : (t.setV r l w).rep = t.rep := rfl
@[simp] theorem Mt.setV_rkcnt : (t.setV r l w).rkcnt = t.rkcnt := rfl
@[simp] theorem Mt.setV_rsn : (t.setV r l w).rsn = t.rsn := rfl
@[simp] theorem Mt.setV_rsthr : (t.setV r l w).rsthr = t.rsthr := rfl
@[simp] theorem Mt.setV_rsstat : (t.setV r l w).rsstat = t.rsstat := rfl
@[simp] theorem Mt.setV_tdead : (t.setV r l w).tdead = t.tdead := rfl
@[simp] theorem Mt.setV_bound : (t.setV r l w).bound = t.bound := rfl
@[simp] theorem Mt.setV_bph : (t.setV r l w).bph = t.bph := rfl
@[simp] theorem Mt.setV_arrived : (t.setV r l w).arrived = t.arrived := rfl
@[simp] theorem Mt.setV_sig : (t.setV r l w).sig = t.sig := rfl
@[simp] theorem Mt.setV_rel : (t.setV r l w).rel = t.rel := rfl
@[simp] theorem Mt.setV_hold : (t.setV r l w).hold = t.hold := rfl
@[simp] theorem Mt.setV_blocked : (t.setV r l w).blocked = t.blocked := rfl
@[simp] theorem Mt.setV_asked : (t.setV r l w).asked = t.asked := rfl
@[simp] theorem Mt.setV_stopDue : (t.setV r l w).stopDue = t.stopDue := rfl
@[simp] theorem Mt.setV_gang : (t.setV r l w).gang = t.gang := rfl
@[simp] theorem Mt.setV_fire : (t.setV r l w).fire = t.fire := rfl
@[simp] theorem Mt.setV_stl : (t.setV r l w).stl = t.stl := rfl
@[simp] theorem Mt.setV_age : (t.setV r l w).age = t.age := rfl
@[simp] theorem Mt.setV_region : (t.setV r l w).region = t.region := rfl
@[simp] theorem Mt.setV_resumed : (t.setV r l w).resumed = t.resumed := rfl
@[simp] theorem Mt.setV_stepping : (t.setV r l w).stepping = t.stepping := rfl
@[simp] theorem Mt.setV_stepDue : (t.setV r l w).stepDue = t.stepDue := rfl
end

section
variable (t : Mt) (r : Nat) (w : Word)
@[simp] theorem Mt.setS_st : (t.setS r w).st = t.st := rfl
@[simp] theorem Mt.setS_pc : (t.setS r w).pc = t.pc := rfl
@[simp] theorem Mt.setS_v : (t.setS r w).v = t.v := rfl
@[simp] theorem Mt.setS_p : (t.setS r w).p = t.p := rfl
@[simp] theorem Mt.setS_h : (t.setS r w).h = t.h := rfl
@[simp] theorem Mt.setS_hgen : (t.setS r w).hgen = t.hgen := rfl
@[simp] theorem Mt.setS_q : (t.setS r w).q = t.q := rfl
@[simp] theorem Mt.setS_block : (t.setS r w).block = t.block := rfl
@[simp] theorem Mt.setS_repcnt : (t.setS r w).repcnt = t.repcnt := rfl
@[simp] theorem Mt.setS_rep : (t.setS r w).rep = t.rep := rfl
@[simp] theorem Mt.setS_rkcnt : (t.setS r w).rkcnt = t.rkcnt := rfl
@[simp] theorem Mt.setS_rsn : (t.setS r w).rsn = t.rsn := rfl
@[simp] theorem Mt.setS_rsthr : (t.setS r w).rsthr = t.rsthr := rfl
@[simp] theorem Mt.setS_rsstat : (t.setS r w).rsstat = t.rsstat := rfl
@[simp] theorem Mt.setS_tdead : (t.setS r w).tdead = t.tdead := rfl
@[simp] theorem Mt.setS_bound : (t.setS r w).bound = t.bound := rfl
@[simp] theorem Mt.setS_bph : (t.setS r w).bph = t.bph := rfl
@[simp] theorem Mt.setS_arrived : (t.setS r w).arrived = t.arrived := rfl
@[simp] theorem Mt.setS_sig : (t.setS r w).sig = t.sig := rfl
@[simp] theorem Mt.setS_rel : (t.setS r w).rel = t.rel := rfl
@[simp] theorem Mt.setS_hold : (t.setS r w).hold = t.hold := rfl
@[simp] theorem Mt.setS_blocked : (t.setS r w).blocked = t.blocked := rfl
@[simp] theorem Mt.setS_asked : (t.setS r w).asked = t.asked := rfl
@[simp] theorem Mt.setS_stopDue : (t.setS r w).stopDue = t.stopDue := rfl
@[simp] theorem Mt.setS_gang : (t.setS r w).gang = t.gang := rfl
@[simp] theorem Mt.setS_fire : (t.setS r w).fire = t.fire := rfl
@[simp] theorem Mt.setS_stl : (t.setS r w).stl = t.stl := rfl
@[simp] theorem Mt.setS_age : (t.setS r w).age = t.age := rfl
@[simp] theorem Mt.setS_region : (t.setS r w).region = t.region := rfl
@[simp] theorem Mt.setS_resumed : (t.setS r w).resumed = t.resumed := rfl
@[simp] theorem Mt.setS_stepping : (t.setS r w).stepping = t.stepping := rfl
@[simp] theorem Mt.setS_stepDue : (t.setS r w).stepDue = t.stepDue := rfl
end

section
variable (t : Mt) (r : Nat) (w : Word)
@[simp] theorem Mt.setP_st : (t.setP r w).st = t.st := rfl
@[simp] theorem Mt.setP_pc : (t.setP r w).pc = t.pc := rfl
@[simp] theorem Mt.setP_v : (t.setP r w).v = t.v := rfl
@[simp] theorem Mt.setP_s : (t.setP r w).s = t.s := rfl
@[simp] theorem Mt.setP_h : (t.setP r w).h = t.h := rfl
@[simp] theorem Mt.setP_hgen : (t.setP r w).hgen = t.hgen := rfl
@[simp] theorem Mt.setP_q : (t.setP r w).q = t.q := rfl
@[simp] theorem Mt.setP_block : (t.setP r w).block = t.block := rfl
@[simp] theorem Mt.setP_repcnt : (t.setP r w).repcnt = t.repcnt := rfl
@[simp] theorem Mt.setP_rep : (t.setP r w).rep = t.rep := rfl
@[simp] theorem Mt.setP_rkcnt : (t.setP r w).rkcnt = t.rkcnt := rfl
@[simp] theorem Mt.setP_rsn : (t.setP r w).rsn = t.rsn := rfl
@[simp] theorem Mt.setP_rsthr : (t.setP r w).rsthr = t.rsthr := rfl
@[simp] theorem Mt.setP_rsstat : (t.setP r w).rsstat = t.rsstat := rfl
@[simp] theorem Mt.setP_tdead : (t.setP r w).tdead = t.tdead := rfl
@[simp] theorem Mt.setP_bound : (t.setP r w).bound = t.bound := rfl
@[simp] theorem Mt.setP_bph : (t.setP r w).bph = t.bph := rfl
@[simp] theorem Mt.setP_arrived : (t.setP r w).arrived = t.arrived := rfl
@[simp] theorem Mt.setP_sig : (t.setP r w).sig = t.sig := rfl
@[simp] theorem Mt.setP_rel : (t.setP r w).rel = t.rel := rfl
@[simp] theorem Mt.setP_hold : (t.setP r w).hold = t.hold := rfl
@[simp] theorem Mt.setP_blocked : (t.setP r w).blocked = t.blocked := rfl
@[simp] theorem Mt.setP_asked : (t.setP r w).asked = t.asked := rfl
@[simp] theorem Mt.setP_stopDue : (t.setP r w).stopDue = t.stopDue := rfl
@[simp] theorem Mt.setP_gang : (t.setP r w).gang = t.gang := rfl
@[simp] theorem Mt.setP_fire : (t.setP r w).fire = t.fire := rfl
@[simp] theorem Mt.setP_stl : (t.setP r w).stl = t.stl := rfl
@[simp] theorem Mt.setP_age : (t.setP r w).age = t.age := rfl
@[simp] theorem Mt.setP_region : (t.setP r w).region = t.region := rfl
@[simp] theorem Mt.setP_resumed : (t.setP r w).resumed = t.resumed := rfl
@[simp] theorem Mt.setP_stepping : (t.setP r w).stepping = t.stepping := rfl
@[simp] theorem Mt.setP_stepDue : (t.setP r w).stepDue = t.stepDue := rfl
end

section
variable (t : Mt) (r : Nat) (w : StreamReg)
@[simp] theorem Mt.setStream_st : (t.setStream r w).st = t.st := rfl
@[simp] theorem Mt.setStream_pc : (t.setStream r w).pc = t.pc := rfl
@[simp] theorem Mt.setStream_v : (t.setStream r w).v = t.v := rfl
@[simp] theorem Mt.setStream_s : (t.setStream r w).s = t.s := rfl
@[simp] theorem Mt.setStream_p : (t.setStream r w).p = t.p := rfl
@[simp] theorem Mt.setStream_h : (t.setStream r w).h = t.h := rfl
@[simp] theorem Mt.setStream_hgen : (t.setStream r w).hgen = t.hgen := rfl
@[simp] theorem Mt.setStream_block : (t.setStream r w).block = t.block := rfl
@[simp] theorem Mt.setStream_repcnt : (t.setStream r w).repcnt = t.repcnt := rfl
@[simp] theorem Mt.setStream_rep : (t.setStream r w).rep = t.rep := rfl
@[simp] theorem Mt.setStream_rkcnt : (t.setStream r w).rkcnt = t.rkcnt := rfl
@[simp] theorem Mt.setStream_rsn : (t.setStream r w).rsn = t.rsn := rfl
@[simp] theorem Mt.setStream_rsthr : (t.setStream r w).rsthr = t.rsthr := rfl
@[simp] theorem Mt.setStream_rsstat : (t.setStream r w).rsstat = t.rsstat := rfl
@[simp] theorem Mt.setStream_tdead : (t.setStream r w).tdead = t.tdead := rfl
@[simp] theorem Mt.setStream_bound : (t.setStream r w).bound = t.bound := rfl
@[simp] theorem Mt.setStream_bph : (t.setStream r w).bph = t.bph := rfl
@[simp] theorem Mt.setStream_arrived : (t.setStream r w).arrived = t.arrived := rfl
@[simp] theorem Mt.setStream_sig : (t.setStream r w).sig = t.sig := rfl
@[simp] theorem Mt.setStream_rel : (t.setStream r w).rel = t.rel := rfl
@[simp] theorem Mt.setStream_hold : (t.setStream r w).hold = t.hold := rfl
@[simp] theorem Mt.setStream_blocked : (t.setStream r w).blocked = t.blocked := rfl
@[simp] theorem Mt.setStream_asked : (t.setStream r w).asked = t.asked := rfl
@[simp] theorem Mt.setStream_stopDue : (t.setStream r w).stopDue = t.stopDue := rfl
@[simp] theorem Mt.setStream_gang : (t.setStream r w).gang = t.gang := rfl
@[simp] theorem Mt.setStream_fire : (t.setStream r w).fire = t.fire := rfl
@[simp] theorem Mt.setStream_stl : (t.setStream r w).stl = t.stl := rfl
@[simp] theorem Mt.setStream_age : (t.setStream r w).age = t.age := rfl
@[simp] theorem Mt.setStream_region : (t.setStream r w).region = t.region := rfl
@[simp] theorem Mt.setStream_resumed : (t.setStream r w).resumed = t.resumed := rfl
@[simp] theorem Mt.setStream_stepping : (t.setStream r w).stepping = t.stepping := rfl
@[simp] theorem Mt.setStream_stepDue : (t.setStream r w).stepDue = t.stepDue := rfl
end

end Sys2Proof.Machine
end

