-- ==== Sys2Proof/Laws/Mem.lean ====
section
/-! SUPPORT. Sparse arrays and memory: reads after writes, the canonical form, and the accessors
of cores, micro-threads and control threads. -/

namespace Sys2Proof.Machine

section
variable {α : Type}

@[simp] theorem Cells.look_nil (d : α) (k : Nat) : Cells.look d [] k = d := rfl

theorem Cells.look_upd (d : α) (m : Cells α) (k j : Nat) (v : α) :
    Cells.look d (Cells.upd m k v) j = if j = k then v else Cells.look d m j := by
  induction m with
  | nil => simp only [Cells.upd, Cells.look]; grind
  | cons p t ih =>
    obtain ⟨a, w⟩ := p
    simp only [Cells.upd]
    split
    · simp only [Cells.look]; grind
    · split
      · simp only [Cells.look]; grind
      · simp only [Cells.look, ih]; grind

@[simp] theorem Cells.look_upd_same (d : α) (m : Cells α) (k : Nat) (v : α) :
    Cells.look d (Cells.upd m k v) k = v := by simp [Cells.look_upd]

theorem Cells.look_upd_ne (d : α) (m : Cells α) {k j : Nat} (v : α) (h : j ≠ k) :
    Cells.look d (Cells.upd m k v) j = Cells.look d m j := by simp [Cells.look_upd, h]

@[simp] theorem Cells.upd_upd (m : Cells α) (k : Nat) (v w : α) :
    Cells.upd (Cells.upd m k v) k w = Cells.upd m k w := by
  induction m with
  | nil => simp [Cells.upd]
  | cons p t ih =>
    obtain ⟨a, x⟩ := p
    by_cases h1 : k < a
    · simp [Cells.upd, h1]
    · by_cases h2 : k = a
      · simp [Cells.upd, h2]
      · simp [Cells.upd, h1, h2, ih]

/-- All indices of an array lie at or above a bound. -/
def Cells.above (b : Nat) : Cells α → Bool
  | [] => true
  | (a, _) :: _ => decide (b ≤ a)

theorem Cells.look_below (d : α) (m : Cells α) (b j : Nat) (h : Cells.above b m = true) (hj : j < b) :
    Cells.look d m j = d := by
  cases m with
  | nil => rfl
  | cons p t =>
    obtain ⟨a, w⟩ := p
    simp only [Cells.above, decide_eq_true_eq] at h
    simp [Cells.look, show j < a by omega]

variable [DecidableEq α]

theorem Cells.wf_cons (d : α) (a : Nat) (v : α) (t : Cells α) :
    Cells.wf d ((a, v) :: t) = true ↔
      v ≠ d ∧ Cells.above (a + 1) t = true ∧ Cells.wf d t = true := by
  cases t with
  | nil => simp [Cells.wf, Cells.above]
  | cons p t => obtain ⟨b, w⟩ := p; simp [Cells.wf, Cells.above, and_assoc]

theorem Cells.above_put (d : α) (m : Cells α) (b k : Nat) (v : α) (h : Cells.above b m = true)
    (hw : Cells.wf d m = true) (hk : b ≤ k) : Cells.above b (Cells.put d m k v) = true := by
  cases m with
  | nil => simp only [Cells.put]; split <;> simp [Cells.above, hk]
  | cons p t =>
    obtain ⟨a, w⟩ := p
    rw [Cells.wf_cons] at hw
    simp only [Cells.above, decide_eq_true_eq] at h
    simp only [Cells.put]
    split
    · split <;> simp [Cells.above, h, hk]
    · split
      · split
        · cases t with
          | nil => rfl
          | cons q t =>
            obtain ⟨c, x⟩ := q
            have := hw.2.1
            simp only [Cells.above, decide_eq_true_eq] at this ⊢
            omega
        · simp [Cells.above, hk]
      · simp [Cells.above, h]

theorem Cells.wf_put (d : α) (m : Cells α) (k : Nat) (v : α) (h : Cells.wf d m = true) :
    Cells.wf d (Cells.put d m k v) = true := by
  induction m with
  | nil => by_cases e : v = d <;> simp [Cells.put, Cells.wf, e]
  | cons p t ih =>
    obtain ⟨a, w⟩ := p
    have h0 := (Cells.wf_cons d a w t).1 h
    simp only [Cells.put]
    split
    · split
      · exact h
      · rw [Cells.wf_cons]
        refine ⟨by assumption, ?_, h⟩
        simp only [Cells.above, decide_eq_true_eq]; omega
    · split
      · split
        · exact h0.2.2
        · rename_i h1 h2 h3
          rw [Cells.wf_cons]
          exact ⟨h3, h2 ▸ h0.2.1, h0.2.2⟩
      · rw [Cells.wf_cons]
        exact ⟨h0.1, Cells.above_put d t (a + 1) k v h0.2.1 h0.2.2 (by omega), ih h0.2.2⟩

theorem Cells.look_put (d : α) (m : Cells α) (k j : Nat) (v : α) (h : Cells.wf d m = true) :
    Cells.look d (Cells.put d m k v) j = if j = k then v else Cells.look d m j := by
  induction m with
  | nil => simp only [Cells.put]; split <;> simp only [Cells.look] <;> grind
  | cons p t ih =>
    obtain ⟨a, w⟩ := p
    have h0 := (Cells.wf_cons d a w t).1 h
    have hb := fun i (hi : i < a + 1) => Cells.look_below d t (a + 1) i h0.2.1 hi
    simp only [Cells.put]
    split
    · split <;> simp only [Cells.look] <;> grind
    · split
      · split <;> simp only [Cells.look] <;> grind
      · simp only [Cells.look, ih h0.2.2]; grind

end

/-! ### Memory -/

theorem Memory.wf_setByte (m : Memory) (a : Nat) (v : Byte) (h : Memory.wf m = true) :
    Memory.wf (Memory.setByte m a v) = true := Cells.wf_put _ _ _ _ h

theorem Memory.byte_setByte (m : Memory) (a b : Nat) (v : Byte) (h : Memory.wf m = true) :
    Memory.byte (Memory.setByte m a v) b = if b = a then v else Memory.byte m b :=
  Cells.look_put _ _ _ _ _ h

theorem Memory.wf_write (bs : List Byte) (m : Memory) (a : Nat) (h : Memory.wf m = true) :
    Memory.wf (Memory.write m a bs) = true := by
  induction bs generalizing m a with
  | nil => exact h
  | cons b bs ih => exact ih _ _ (Memory.wf_setByte m a b h)

/-- A byte after a write: the written one inside it, the old one outside. -/
theorem Memory.byte_write (bs : List Byte) (m : Memory) (a b : Nat) (h : Memory.wf m = true) :
    Memory.byte (Memory.write m a bs) b =
      if a ≤ b ∧ b < a + bs.length then bs.getD (b - a) 0 else Memory.byte m b := by
  induction bs generalizing m a with
  | nil => simp [Memory.write]
  | cons c bs ih =>
    simp only [Memory.write]
    rw [ih _ _ (Memory.wf_setByte m a c h), Memory.byte_setByte m a b c h]
    by_cases e : b = a
    · subst e; simp
    · by_cases e1 : a + 1 ≤ b ∧ b < a + 1 + bs.length
      · have : a ≤ b ∧ b < a + (c :: bs).length := by simp only [List.length_cons]; omega
        rw [if_pos e1, if_pos this, show b - a = (b - (a + 1)) + 1 by omega]
        simp
      · have : ¬(a ≤ b ∧ b < a + (c :: bs).length) := by simp only [List.length_cons]; omega
        rw [if_neg e1, if_neg this, if_neg e]

/-! ### Accessors -/

section
variable (s : State) (c e m n : Nat)

@[simp] theorem State.core_setCore (k : Core) : (s.setCore c k).core c = k := by
  simp [State.core, State.setCore]
theorem State.core_setCore_ne (k : Core) (h : e ≠ c) : (s.setCore c k).core e = s.core e := by
  simp [State.core, State.setCore, Cells.look_upd_ne _ _ _ h]
@[simp] theorem State.core_modCore (f : Core → Core) : (s.modCore c f).core c = f (s.core c) := by
  simp [State.modCore]
theorem State.core_modCore_ne (f : Core → Core) (h : e ≠ c) : (s.modCore c f).core e = s.core e :=
  State.core_setCore_ne s c e _ h

@[simp] theorem Core.mt_setMt (k : Core) (t : Mt) : (k.setMt m t).mt m = t := by
  simp [Core.mt, Core.setMt]
theorem Core.mt_setMt_ne (k : Core) (t : Mt) (h : n ≠ m) : (k.setMt m t).mt n = k.mt n := by
  simp [Core.mt, Core.setMt, Cells.look_upd_ne _ _ _ h]

@[simp] theorem State.mt_setMt (t : Mt) : (s.setMt c m t).mt c m = t := by
  simp [State.mt, State.setMt]
@[simp] theorem State.mt_modMt (f : Mt → Mt) : (s.modMt c m f).mt c m = f (s.mt c m) := by
  simp [State.modMt]
theorem State.mt_setMt_ne (t : Mt) (h : n ≠ m) : (s.setMt c m t).mt c n = s.mt c n := by
  simp [State.mt, State.setMt, Core.mt_setMt_ne _ _ _ _ h]
theorem State.mt_setMt_core (t : Mt) (h : e ≠ c) : (s.setMt c m t).mt e n = s.mt e n := by
  simp [State.mt, State.setMt, State.core_modCore_ne _ _ _ _ h]

@[simp] theorem State.setCore_setCore (k l : Core) : (s.setCore c k).setCore c l = s.setCore c l := by
  simp [State.setCore]
@[simp] theorem State.setMt_setMt (t u : Mt) : (s.setMt c m t).setMt c m u = s.setMt c m u := by
  simp [State.setMt, State.modCore, Core.setMt]
theorem State.modMt_setMt (t : Mt) (f : Mt → Mt) : (s.setMt c m t).modMt c m f = s.setMt c m (f t) := by
  simp [State.modMt]
@[simp] theorem State.modMt_modMt (f g : Mt → Mt) :
    (s.modMt c m f).modMt c m g = s.modMt c m fun t => g (f t) := by
  simp [State.modMt]

@[simp] theorem State.hart_setHart (h : Hart) : (s.setHart c h).hart c = h := by
  simp [State.hart, State.setHart]
@[simp] theorem State.hart_modHart (f : Hart → Hart) : (s.modHart c f).hart c = f (s.hart c) := by
  simp [State.modHart]

@[simp] theorem State.die_setDie (x : Die) : (s.setDie c x).die c = x := by
  simp [State.die, State.setDie]
@[simp] theorem State.die_modDie (f : Die → Die) : (s.modDie c f).die c = f (s.die c) := by
  simp [State.modDie]
@[simp] theorem State.tile_modTile (f : TileSt → TileSt) : (s.modTile c f).tile c = f (s.tile c) := by
  simp [State.tile, State.modTile]
@[simp] theorem State.chan_modChan (f : Chan → Chan) : (s.modChan c f).chan c = f (s.chan c) := by
  simp [State.chan, State.modChan]
@[simp] theorem State.ring_modRing (f : Ring → Ring) : (s.modRing c f).ring c = f (s.ring c) := by
  simp [State.ring, State.modRing]

/-- Places that a core's own record holds. -/
@[simp] theorem State.hart_setMt (t : Mt) : (s.setMt c m t).hart c = s.hart c := by
  simp [State.hart, State.setMt]
@[simp] theorem State.mt_setHart (h : Hart) : (s.setHart c h).mt c m = s.mt c m := by
  simp [State.mt, State.setHart, Core.mt]

end

/-! ### Shared memory keeps its form -/

section
variable (s : State)

theorem State.putLoc_dram (l : Loc) (bs : List Byte) (h : Memory.wf s.dram = true) :
    Memory.wf (s.putLoc l bs).dram = true := by
  cases l <;> first | exact h | exact Memory.wf_write _ _ _ h

theorem State.putLoc_gran (l : Loc) (bs : List Byte) (h : Memory.wf s.gran = true) :
    Memory.wf (s.putLoc l bs).gran = true := by
  cases l <;> first | exact h | exact Memory.wf_write _ _ _ h

theorem State.putLoc_remote (l : Loc) (bs : List Byte) (h : Memory.wf s.remote = true) :
    Memory.wf (s.putLoc l bs).remote = true := by
  cases l <;> first | exact h | exact Memory.wf_write _ _ _ h

@[simp] theorem State.unpoison_dram (l : Loc) (n : Nat) : (s.unpoison l n).dram = s.dram := rfl
@[simp] theorem State.unpoison_gran (l : Loc) (n : Nat) : (s.unpoison l n).gran = s.gran := rfl
@[simp] theorem State.unpoison_remote (l : Loc) (n : Nat) : (s.unpoison l n).remote = s.remote := rfl
@[simp] theorem State.dropResv_dram (l : Loc) : (s.dropResv l).dram = s.dram := by
  unfold State.dropResv; split <;> (try split) <;> rfl
@[simp] theorem State.dropResv_gran (l : Loc) : (s.dropResv l).gran = s.gran := by
  unfold State.dropResv; split <;> (try split) <;> rfl
@[simp] theorem State.dropResv_remote (l : Loc) : (s.dropResv l).remote = s.remote := by
  unfold State.dropResv; split <;> (try split) <;> rfl

/-- The one operation that writes memory keeps the canonical form of each shared memory. -/
theorem State.writeLoc_wf (l : Loc) (bs : List Byte) (hd : Memory.wf s.dram = true)
    (hg : Memory.wf s.gran = true) (hr : Memory.wf s.remote = true) :
    Memory.wf (s.writeLoc l bs).dram = true ∧ Memory.wf (s.writeLoc l bs).gran = true ∧
      Memory.wf (s.writeLoc l bs).remote = true := by
  simp only [State.writeLoc, State.unpoison_dram, State.dropResv_dram, State.unpoison_gran,
    State.dropResv_gran, State.unpoison_remote, State.dropResv_remote]
  exact ⟨s.putLoc_dram l bs hd, s.putLoc_gran l bs hg, s.putLoc_remote l bs hr⟩

/-! ### Held translations and held lines -/

@[simp] theorem State.throughOwn_dram (c : Nat) (l : Loc) (bs : List Byte) :
    (s.throughOwn c l bs).dram = s.dram := by cases l <;> rfl
@[simp] theorem State.throughOwn_gran (c : Nat) (l : Loc) (bs : List Byte) :
    (s.throughOwn c l bs).gran = s.gran := by cases l <;> rfl
@[simp] theorem State.throughOwn_remote (c : Nat) (l : Loc) (bs : List Byte) :
    (s.throughOwn c l bs).remote = s.remote := by cases l <;> rfl
@[simp] theorem State.throughOwn_cores (c : Nat) (l : Loc) (bs : List Byte) :
    (s.throughOwn c l bs).cores = s.cores := by cases l <;> rfl

/-- A core's write to memory keeps the canonical form of each shared memory. -/
theorem State.writeBy_wf (c : Nat) (l : Loc) (bs : List Byte) (hd : Memory.wf s.dram = true)
    (hg : Memory.wf s.gran = true) (hr : Memory.wf s.remote = true) :
    Memory.wf (s.writeBy c l bs).dram = true ∧ Memory.wf (s.writeBy c l bs).gran = true ∧
      Memory.wf (s.writeBy c l bs).remote = true := by
  simpa [State.writeBy] using s.writeLoc_wf l bs hd hg hr

/-- What SFENCE.VMA and an acquire leave alone. -/
@[simp] theorem State.sfence_cores (c : Nat) (va asid : Option Nat) :
    (s.sfence c va asid).cores = s.cores := rfl
@[simp] theorem State.sfence_dram (c : Nat) (va asid : Option Nat) :
    (s.sfence c va asid).dram = s.dram := rfl
@[simp] theorem State.acquireDom_cores (c : Nat) : (s.acquireDom c).cores = s.cores := rfl
@[simp] theorem State.acquireDom_tlb (c : Nat) : (s.acquireDom c).tlb = s.tlb := rfl
@[simp] theorem State.acquireAt_cores (c n : Nat) : (s.acquireAt c n).cores = s.cores := by
  unfold State.acquireAt; split <;> rfl

/-- After an acquire of .dom scope the core holds RRO lines only (R78). -/
theorem State.acquireDom_held (c : Nat) (r : RemoteLine) (h : r ∈ (s.acquireDom c).remoteLines)
    (hc : r.core = c) : r.rro = true := by
  simpa [State.acquireDom, hc] using (List.mem_filter.mp h).2

/-- After SFENCE.VMA the L1 TLB of the core is empty (R75). -/
theorem State.sfence_l1Hit (c : Nat) (va asid : Option Nat) (satp : DWord) (v : Nat) :
    (s.sfence c va asid).l1Hit c satp v = none := by
  simp only [State.l1Hit, Option.map_eq_none_iff, List.find?_eq_none]
  intro e he h
  have := (List.mem_filter.mp he).2
  simp_all

/-- With no translation held, translations are those of the tables. -/
theorem State.leafFor_walk (who : Option Nat) (satp : DWord) (v : Nat) (h : s.tlb = []) :
    s.leafFor who satp v = s.walkSatp satp v := by
  cases who <;> simp [State.leafFor, State.l1Hit, State.serviceLeaf, State.serviceHit, h]

end

end Sys2Proof.Machine
end

