-- ==== Sys2Proof/Laws/Issue.lean ====
section
/-! SUPPORT. What issuing a micro-thread instruction can come to: it commits, has no effect, waits,
stalls or traps; and what moving on does. -/

namespace Sys2Proof.Machine

section
variable (s : State)

theorem State.gangOf_none (c m : Nat) (h : (s.mt c m).gang = none) : s.gangOf c m = none := by
  simp [State.gangOf, h]

theorem State.membersOf_alone (c m : Nat) (h : (s.mt c m).gang = none) : s.membersOf c m = [c] := by
  simp [State.membersOf, s.gangOf_none c m h]

theorem State.who_alone (f : Ny) :
    s.who s.curMt [s.curCore] f.guard s.curCore = s.me f := by
  simp [State.who, State.me, State.cur]

variable {s} {i : Instr} {op : Nat} {f : Ny} {vec : Bool} {body : Who → State → Res}
  {nx : State → Next} {isRep : Bool}

/-- A micro-thread that issues alone and unbound has no deadline. -/
theorem State.deadline_alone (h : s.Alone) : s.deadline s.curMt [s.curCore] = none := by
  have hb : (s.mt s.curCore s.curMt).bound = none := h.2
  simp [State.deadline, hb]

/-- What an instruction that acts leads to when its one member's part answers `r`: its commit, a
wait, a stall or a trap. -/
def State.outcome (s : State) (i : Instr) (op : Nat) (f : Ny) (nx : State → Next) (isRep : Bool) :
    Res → State
  | .ok t => t.finish s.curCore s.curMt f.hint (nx t) isRep
  | .error (.wait none) => s.blockedOn s i
  | .error (.wait (some k)) => s.blockedOn k i
  | .error (.stall none) => s.notYet
  | .error (.stall (some k)) => (k.leaveAll s.leader).noIssue s.curCore s.curMt
  | .error (.channel ls) => (s.joinAll s.leader ls).noIssue s.curCore s.curMt
  | .error (.trap e) => s.trapped op f e
  | .error (.poison e) => s.consumePoison s.curCore e

/-- The one member's part decides. -/
theorem runMembers_one (lead : Waiter) (w : Who) (s : State) :
    runMembers body lead [w] s = match body w s with
      | .ok t => .commit t
      | .error (.wait k) => .wait ((k.getD s).leaveAll lead)
      | .error (.stall k) => .stall ((k.getD s).leaveAll lead)
      | .error (.channel ls) => .stall (s.joinAll lead ls)
      | .error (.trap e) => .trap w.core e
      | .error (.poison e) => .poison w.core e := by
  cases hb : body w s with
  | ok t => simp [runMembers, tryMembers, commitMembers, hb]
  | error e => cases e <;> simp [runMembers, tryMembers, hb]

/-- An instruction that acts comes to what its one member's part answers. -/
theorem State.issueTo_acts (h : s.Acts i f vec) (hi : i.ny? = some (op, f)) :
    s.issueTo i op f vec body nx isRep = s.outcome i op f nx isRep (body (s.me f) s) := by
  obtain ⟨hal, ha, hc⟩ := h
  have hh := hc op f hi
  have hg : (s.mt s.curCore s.curMt).gang = none := hal.1
  simp only [State.issueTo, s.membersOf_alone _ _ hg, State.deadline_alone hal, Option.isSome_none,
    Bool.false_and, Bool.false_eq_true, ↓reduceIte, List.map_cons, List.map_nil, s.who_alone,
    List.filter_cons, ha, List.filter_nil, List.isEmpty_cons, List.any_cons, List.any_nil, hh,
    Bool.or_false, runMembers_one]
  cases body (s.me f) s with
  | ok t => rfl
  | error e => cases e with
    | wait k => cases k <;> simp only [State.outcome, State.blockedOn, Option.getD_none, Option.getD_some] <;> rfl
    | stall k => cases k <;> simp [State.outcome, State.notYet]
    | channel ls => simp [State.outcome]
    | trap e =>
      simp [State.outcome, State.raise, State.trapped, State.wordOf, State.cur, s.membersOf_alone _ _ hg]
    | poison e => simp [State.outcome, State.me]

/-- An instruction whose guard is off only moves on. -/
theorem State.issueTo_idles (h : s.Idles f vec) :
    s.issueTo i op f vec body nx isRep = s.finish s.curCore s.curMt f.hint .seq isRep := by
  obtain ⟨hal, ha⟩ := h
  have hg : (s.mt s.curCore s.curMt).gang = none := hal.1
  simp only [State.issueTo, s.membersOf_alone _ _ hg, State.deadline_alone hal, Option.isSome_none,
    Bool.false_and, Bool.false_eq_true, ↓reduceIte, List.map_cons, List.map_nil, s.who_alone,
    List.filter_cons, ha, List.filter_nil, List.isEmpty_nil, List.any_nil, runMembers, tryMembers,
    commitMembers]

/-- Updates of a micro-thread leave the debug control register. -/
@[simp] theorem State.dbgctl_setMt (s : State) (c m : Nat) (t : Mt) :
    ((s.setMt c m t).core c).dbgctl = (s.core c).dbgctl := by
  simp [State.setMt, Core.setMt]
@[simp] theorem State.dbgctl_modMt (s : State) (c m : Nat) (g : Mt → Mt) :
    ((s.modMt c m g).core c).dbgctl = (s.core c).dbgctl := by
  simp [State.modMt]

/-- A core's own fields beside its micro-threads do not touch them. -/
@[simp] theorem State.mt_lastMt (s : State) (c m e n : Nat) :
    (s.modCore c fun k => { k with lastMt := m }).mt e n = s.mt e n := by
  by_cases h : e = c
  · subst h
    simp [State.mt, Core.mt]
  · simp [State.mt, State.core_modCore_ne _ _ _ _ h]

@[simp] theorem State.mt_issued (s : State) (c m e n : Nat) : (s.issued c m).mt e n = s.mt e n :=
  s.mt_lastMt c m e n
@[simp] theorem State.dbgctl_issued (s : State) (c m : Nat) :
    ((s.issued c m).core c).dbgctl = (s.core c).dbgctl := by
  simp [State.issued, State.core_modCore]

/-- No stop waits for the boundary. -/
theorem State.boundary_free (s : State) (c m : Nat) (h : (s.mt c m).stopDue = false) :
    s.boundary c m = s := by
  simp [State.boundary, h]

/-- The micro-thread that commits. -/
@[simp] theorem State.mt_committed (s : State) (c m : Nat) :
    (s.committed c m).mt c m =
      { s.mt c m with
        st := .running, blocked := none, resumed := false
        age := if (s.mt c m).st = .waiting then s.youngest c m else (s.mt c m).age } := by
  simp only [State.committed]
  split <;> simp_all

/-- Committing leaves the debug control register. -/
@[simp] theorem State.dbgctl_committed (s : State) (c m : Nat) :
    ((s.committed c m).core c).dbgctl = (s.core c).dbgctl := by
  simp only [State.committed]
  split
  · exact s.dbgctl_setMt ..
  · rw [State.dbgctl_issued, State.dbgctl_setMt]

/-- Moving on within a repeat: one repeat fewer remains. -/
theorem State.finish_repeat (s : State) (c m : Nat) (h : Hint) (nx : Next) (isRep : Bool)
    (hr : 1 < (s.mt c m).repcnt) (hi : isRep = false) (hd : (s.mt c m).stopDue = false) :
    s.finish c m h nx isRep =
      (s.committed c m).modMt c m fun t => { t with repcnt := t.repcnt - 1 } := by
  simp only [State.finish, State.mt_committed, hr, hi, decide_true, Bool.not_false, Bool.and_self, ↓reduceIte]
  exact State.boundary_free _ _ _ (by simp [hd])

/-- Moving on along the stream; a REP leaves the run that it has set. -/
theorem State.finish_runs (s : State) (c m : Nat) (h : Hint) (isRep : Bool)
    (hr : isRep = false → (s.mt c m).repcnt ≤ 1) (hs : s.Runs c m) :
    s.finish c m h .seq isRep = (s.committed c m).modMt c m fun t =>
      { t with
        repcnt := if isRep then t.repcnt else 0, rep := if isRep then t.rep else none
        stl := s.now + stallNs h.stl.toNat, age := if h.yld then s.youngest c m else t.age, pc := t.pc + 12 } := by
  obtain ⟨hd, hq, hb⟩ := hs
  have hn : ¬ (decide (1 < (s.mt c m).repcnt) && !isRep) = true := by
    cases isRep <;> simp_all
  have hw : (s.committed c m).now = s.now := by
    simp only [State.committed]
    split <;> rfl
  simp only [State.finish, State.mt_committed, State.mt_modMt, hn, State.movePc,
    State.modMt_modMt, hw]
  cases hk : (s.mt c m).block with
  | none => simp [hd, hk, State.modMt, State.boundary, hq]
  | some b =>
    simp only [hk] at hb
    have hb : b.has ((s.mt c m).pc + 12#64) = true := hb
    simp [hb, hk, hd, State.modMt, State.boundary, hq]

section
variable (h : s.Acts i f vec) (hi : i.ny? = some (op, f))
include h hi

theorem State.issueTo_commit {t : State} (hb : body (s.me f) s = .ok t) :
    s.issueTo i op f vec body nx isRep = t.finish s.curCore s.curMt f.hint (nx t) isRep := by
  rw [State.issueTo_acts h hi, hb]
  rfl

theorem State.issue_commit {t : State} (hb : body (s.me f) s = .ok t) :
    s.issue i op f vec body = s.onward t f :=
  State.issueTo_commit h hi hb

theorem State.issue_trap {e : Exn} (hb : body (s.me f) s = .error (.trap e)) :
    s.issue i op f vec body = s.trapped op f e := by
  simp [State.issue, State.issueTo_acts h hi, hb, State.outcome]

theorem State.issue_wait (hb : body (s.me f) s = .error (.wait none)) :
    s.issue i op f vec body = s.blockedOn s i := by
  simp [State.issue, State.issueTo_acts h hi, hb, State.outcome]

theorem State.issue_wait_some {k : State} (hb : body (s.me f) s = .error (.wait (some k))) :
    s.issue i op f vec body = s.blockedOn k i := by
  simp [State.issue, State.issueTo_acts h hi, hb, State.outcome]

theorem State.issue_stall (hb : body (s.me f) s = .error (.stall none)) :
    s.issue i op f vec body = s.notYet := by
  simp [State.issue, State.issueTo_acts h hi, hb, State.outcome]

end

theorem State.issue_idles (h : s.Idles f vec) : s.issue i op f vec body = s.onward s f :=
  State.issueTo_idles h

end

end Sys2Proof.Machine
end

