-- ==== Sys2Proof/Laws/PerInstr.lean ====
section
/-! SUPPORT. Per-instruction family OfNy: a micro-thread instruction is what the opcode of its
row and its fields stand for (R118, R119). -/

namespace Sys2Proof.Laws.OfNy

/-- The row of an instruction that has fields names that instruction. -/
def Statement (i : Instr) : Prop :=
  ∀ op f, i.ny? = some (op, f) → Instr.ofOp op f = some i

end Sys2Proof.Laws.OfNy

open Sys2Proof

theorem Sys2Proof.Laws.OfNy.nop (f : Ny) : Laws.OfNy.Statement (.nop f) := by
  rintro _ _ ⟨⟩; rfl

theorem Sys2Proof.Laws.OfNy.mov (f : Ny) : Laws.OfNy.Statement (.mov f) := by
  rintro _ _ ⟨⟩; rfl

theorem Sys2Proof.Laws.OfNy.sel (f : Ny) : Laws.OfNy.Statement (.sel f) := by
  rintro _ _ ⟨⟩; rfl

theorem Sys2Proof.Laws.OfNy.iadd (f : Ny) : Laws.OfNy.Statement (.iadd f) := by
  rintro _ _ ⟨⟩; rfl

theorem Sys2Proof.Laws.OfNy.isub (f : Ny) : Laws.OfNy.Statement (.isub f) := by
  rintro _ _ ⟨⟩; rfl

theorem Sys2Proof.Laws.OfNy.imul (f : Ny) : Laws.OfNy.Statement (.imul f) := by
  rintro _ _ ⟨⟩; rfl

theorem Sys2Proof.Laws.OfNy.imulh (f : Ny) : Laws.OfNy.Statement (.imulh f) := by
  rintro _ _ ⟨⟩; rfl

theorem Sys2Proof.Laws.OfNy.imad (f : Ny) : Laws.OfNy.Statement (.imad f) := by
  rintro _ _ ⟨⟩; rfl

theorem Sys2Proof.Laws.OfNy.imin (f : Ny) : Laws.OfNy.Statement (.imin f) := by
  rintro _ _ ⟨⟩; rfl

theorem Sys2Proof.Laws.OfNy.imax (f : Ny) : Laws.OfNy.Statement (.imax f) := by
  rintro _ _ ⟨⟩; rfl

theorem Sys2Proof.Laws.OfNy.iabs (f : Ny) : Laws.OfNy.Statement (.iabs f) := by
  rintro _ _ ⟨⟩; rfl

theorem Sys2Proof.Laws.OfNy.ineg (f : Ny) : Laws.OfNy.Statement (.ineg f) := by
  rintro _ _ ⟨⟩; rfl

theorem Sys2Proof.Laws.OfNy.iadds (f : Ny) : Laws.OfNy.Statement (.iadds f) := by
  rintro _ _ ⟨⟩; rfl

theorem Sys2Proof.Laws.OfNy.isubs (f : Ny) : Laws.OfNy.Statement (.isubs f) := by
  rintro _ _ ⟨⟩; rfl

theorem Sys2Proof.Laws.OfNy.shl (f : Ny) : Laws.OfNy.Statement (.shl f) := by
  rintro _ _ ⟨⟩; rfl

theorem Sys2Proof.Laws.OfNy.shr (f : Ny) : Laws.OfNy.Statement (.shr f) := by
  rintro _ _ ⟨⟩; rfl

theorem Sys2Proof.Laws.OfNy.sar (f : Ny) : Laws.OfNy.Statement (.sar f) := by
  rintro _ _ ⟨⟩; rfl

theorem Sys2Proof.Laws.OfNy.rot (f : Ny) : Laws.OfNy.Statement (.rot f) := by
  rintro _ _ ⟨⟩; rfl

theorem Sys2Proof.Laws.OfNy.and (f : Ny) : Laws.OfNy.Statement (.and f) := by
  rintro _ _ ⟨⟩; rfl

theorem Sys2Proof.Laws.OfNy.or (f : Ny) : Laws.OfNy.Statement (.or f) := by
  rintro _ _ ⟨⟩; rfl

theorem Sys2Proof.Laws.OfNy.xor (f : Ny) : Laws.OfNy.Statement (.xor f) := by
  rintro _ _ ⟨⟩; rfl

theorem Sys2Proof.Laws.OfNy.andn (f : Ny) : Laws.OfNy.Statement (.andn f) := by
  rintro _ _ ⟨⟩; rfl

theorem Sys2Proof.Laws.OfNy.not (f : Ny) : Laws.OfNy.Statement (.not f) := by
  rintro _ _ ⟨⟩; rfl

theorem Sys2Proof.Laws.OfNy.clz (f : Ny) : Laws.OfNy.Statement (.clz f) := by
  rintro _ _ ⟨⟩; rfl

theorem Sys2Proof.Laws.OfNy.ffs (f : Ny) : Laws.OfNy.Statement (.ffs f) := by
  rintro _ _ ⟨⟩; rfl

theorem Sys2Proof.Laws.OfNy.popc (f : Ny) : Laws.OfNy.Statement (.popc f) := by
  rintro _ _ ⟨⟩; rfl

theorem Sys2Proof.Laws.OfNy.brev (f : Ny) : Laws.OfNy.Statement (.brev f) := by
  rintro _ _ ⟨⟩; rfl

theorem Sys2Proof.Laws.OfNy.bfx (f : Ny) : Laws.OfNy.Statement (.bfx f) := by
  rintro _ _ ⟨⟩; rfl

theorem Sys2Proof.Laws.OfNy.bfi (f : Ny) : Laws.OfNy.Statement (.bfi f) := by
  rintro _ _ ⟨⟩; rfl

theorem Sys2Proof.Laws.OfNy.icmp (f : Ny) : Laws.OfNy.Statement (.icmp f) := by
  rintro _ _ ⟨⟩; rfl

theorem Sys2Proof.Laws.OfNy.pand (f : Ny) : Laws.OfNy.Statement (.pand f) := by
  rintro _ _ ⟨⟩; rfl

theorem Sys2Proof.Laws.OfNy.por (f : Ny) : Laws.OfNy.Statement (.por f) := by
  rintro _ _ ⟨⟩; rfl

theorem Sys2Proof.Laws.OfNy.pxor (f : Ny) : Laws.OfNy.Statement (.pxor f) := by
  rintro _ _ ⟨⟩; rfl

theorem Sys2Proof.Laws.OfNy.pnot (f : Ny) : Laws.OfNy.Statement (.pnot f) := by
  rintro _ _ ⟨⟩; rfl

theorem Sys2Proof.Laws.OfNy.lea (f : Ny) : Laws.OfNy.Statement (.lea f) := by
  rintro _ _ ⟨⟩; rfl

theorem Sys2Proof.Laws.OfNy.fadd (f : Ny) : Laws.OfNy.Statement (.fadd f) := by
  rintro _ _ ⟨⟩; rfl

theorem Sys2Proof.Laws.OfNy.fsub (f : Ny) : Laws.OfNy.Statement (.fsub f) := by
  rintro _ _ ⟨⟩; rfl

theorem Sys2Proof.Laws.OfNy.fmul (f : Ny) : Laws.OfNy.Statement (.fmul f) := by
  rintro _ _ ⟨⟩; rfl

theorem Sys2Proof.Laws.OfNy.ffma (f : Ny) : Laws.OfNy.Statement (.ffma f) := by
  rintro _ _ ⟨⟩; rfl

theorem Sys2Proof.Laws.OfNy.fmin (f : Ny) : Laws.OfNy.Statement (.fmin f) := by
  rintro _ _ ⟨⟩; rfl

theorem Sys2Proof.Laws.OfNy.fmax (f : Ny) : Laws.OfNy.Statement (.fmax f) := by
  rintro _ _ ⟨⟩; rfl

theorem Sys2Proof.Laws.OfNy.fcmp (f : Ny) : Laws.OfNy.Statement (.fcmp f) := by
  rintro _ _ ⟨⟩; rfl

theorem Sys2Proof.Laws.OfNy.fclass (f : Ny) : Laws.OfNy.Statement (.fclass f) := by
  rintro _ _ ⟨⟩; rfl

theorem Sys2Proof.Laws.OfNy.frnd (f : Ny) : Laws.OfNy.Statement (.frnd f) := by
  rintro _ _ ⟨⟩; rfl

theorem Sys2Proof.Laws.OfNy.cvt (f : Ny) : Laws.OfNy.Statement (.cvt f) := by
  rintro _ _ ⟨⟩; rfl

theorem Sys2Proof.Laws.OfNy.qnt (f : Ny) : Laws.OfNy.Statement (.qnt f) := by
  rintro _ _ ⟨⟩; rfl

theorem Sys2Proof.Laws.OfNy.dqnt (f : Ny) : Laws.OfNy.Statement (.dqnt f) := by
  rintro _ _ ⟨⟩; rfl

theorem Sys2Proof.Laws.OfNy.sclf (f : Ny) : Laws.OfNy.Statement (.sclf f) := by
  rintro _ _ ⟨⟩; rfl

theorem Sys2Proof.Laws.OfNy.fdot (f : Ny) : Laws.OfNy.Statement (.fdot f) := by
  rintro _ _ ⟨⟩; rfl

theorem Sys2Proof.Laws.OfNy.rcp (f : Ny) : Laws.OfNy.Statement (.rcp f) := by
  rintro _ _ ⟨⟩; rfl

theorem Sys2Proof.Laws.OfNy.rsq (f : Ny) : Laws.OfNy.Statement (.rsq f) := by
  rintro _ _ ⟨⟩; rfl

theorem Sys2Proof.Laws.OfNy.sqrt (f : Ny) : Laws.OfNy.Statement (.sqrt f) := by
  rintro _ _ ⟨⟩; rfl

theorem Sys2Proof.Laws.OfNy.exp2 (f : Ny) : Laws.OfNy.Statement (.exp2 f) := by
  rintro _ _ ⟨⟩; rfl

theorem Sys2Proof.Laws.OfNy.log2 (f : Ny) : Laws.OfNy.Statement (.log2 f) := by
  rintro _ _ ⟨⟩; rfl

theorem Sys2Proof.Laws.OfNy.sin (f : Ny) : Laws.OfNy.Statement (.sin f) := by
  rintro _ _ ⟨⟩; rfl

theorem Sys2Proof.Laws.OfNy.cos (f : Ny) : Laws.OfNy.Statement (.cos f) := by
  rintro _ _ ⟨⟩; rfl

theorem Sys2Proof.Laws.OfNy.tanh (f : Ny) : Laws.OfNy.Statement (.tanh f) := by
  rintro _ _ ⟨⟩; rfl

theorem Sys2Proof.Laws.OfNy.sigm (f : Ny) : Laws.OfNy.Statement (.sigm f) := by
  rintro _ _ ⟨⟩; rfl

theorem Sys2Proof.Laws.OfNy.l6add (f : Ny) : Laws.OfNy.Statement (.l6add f) := by
  rintro _ _ ⟨⟩; rfl

theorem Sys2Proof.Laws.OfNy.l6mul (f : Ny) : Laws.OfNy.Statement (.l6mul f) := by
  rintro _ _ ⟨⟩; rfl

theorem Sys2Proof.Laws.OfNy.shuf (f : Ny) : Laws.OfNy.Statement (.shuf f) := by
  rintro _ _ ⟨⟩; rfl

theorem Sys2Proof.Laws.OfNy.bcast (f : Ny) : Laws.OfNy.Statement (.bcast f) := by
  rintro _ _ ⟨⟩; rfl

theorem Sys2Proof.Laws.OfNy.red (f : Ny) : Laws.OfNy.Statement (.red f) := by
  rintro _ _ ⟨⟩; rfl

theorem Sys2Proof.Laws.OfNy.scan (f : Ny) : Laws.OfNy.Statement (.scan f) := by
  rintro _ _ ⟨⟩; rfl

theorem Sys2Proof.Laws.OfNy.vote (f : Ny) : Laws.OfNy.Statement (.vote f) := by
  rintro _ _ ⟨⟩; rfl

theorem Sys2Proof.Laws.OfNy.cmprs (f : Ny) : Laws.OfNy.Statement (.cmprs f) := by
  rintro _ _ ⟨⟩; rfl

theorem Sys2Proof.Laws.OfNy.xpnd (f : Ny) : Laws.OfNy.Statement (.xpnd f) := by
  rintro _ _ ⟨⟩; rfl

theorem Sys2Proof.Laws.OfNy.bra (f : Ny) : Laws.OfNy.Statement (.bra f) := by
  rintro _ _ ⟨⟩; rfl

theorem Sys2Proof.Laws.OfNy.brx (f : Ny) : Laws.OfNy.Statement (.brx f) := by
  rintro _ _ ⟨⟩; rfl

theorem Sys2Proof.Laws.OfNy.bfetch (f : Ny) : Laws.OfNy.Statement (.bfetch f) := by
  rintro _ _ ⟨⟩; rfl

theorem Sys2Proof.Laws.OfNy.loop (f : Ny) : Laws.OfNy.Statement (.loop f) := by
  rintro _ _ ⟨⟩; rfl

theorem Sys2Proof.Laws.OfNy.rep (f : Ny) : Laws.OfNy.Statement (.rep f) := by
  rintro _ _ ⟨⟩; rfl

theorem Sys2Proof.Laws.OfNy.stop (f : Ny) : Laws.OfNy.Statement (.stop f) := by
  rintro _ _ ⟨⟩; rfl

theorem Sys2Proof.Laws.OfNy.yield (f : Ny) : Laws.OfNy.Statement (.yield f) := by
  rintro _ _ ⟨⟩; rfl

theorem Sys2Proof.Laws.OfNy.lnkw (f : Ny) : Laws.OfNy.Statement (.lnkw f) := by
  rintro _ _ ⟨⟩; rfl

theorem Sys2Proof.Laws.OfNy.lnkr (f : Ny) : Laws.OfNy.Statement (.lnkr f) := by
  rintro _ _ ⟨⟩; rfl

theorem Sys2Proof.Laws.OfNy.ctsig (f : Ny) : Laws.OfNy.Statement (.ctsig f) := by
  rintro _ _ ⟨⟩; rfl

theorem Sys2Proof.Laws.OfNy.ctwait (f : Ny) : Laws.OfNy.Statement (.ctwait f) := by
  rintro _ _ ⟨⟩; rfl

theorem Sys2Proof.Laws.OfNy.trap (f : Ny) : Laws.OfNy.Statement (.trap f) := by
  rintro _ _ ⟨⟩; rfl

theorem Sys2Proof.Laws.OfNy.brkp (f : Ny) : Laws.OfNy.Statement (.brkp f) := by
  rintro _ _ ⟨⟩; rfl

theorem Sys2Proof.Laws.OfNy.gang (f : Ny) : Laws.OfNy.Statement (.gang f) := by
  rintro _ _ ⟨⟩; rfl

theorem Sys2Proof.Laws.OfNy.ungang (f : Ny) : Laws.OfNy.Statement (.ungang f) := by
  rintro _ _ ⟨⟩; rfl

theorem Sys2Proof.Laws.OfNy.sleep (f : Ny) : Laws.OfNy.Statement (.sleep f) := by
  rintro _ _ ⟨⟩; rfl

theorem Sys2Proof.Laws.OfNy.twait (f : Ny) : Laws.OfNy.Statement (.twait f) := by
  rintro _ _ ⟨⟩; rfl

theorem Sys2Proof.Laws.OfNy.time (f : Ny) : Laws.OfNy.Statement (.time f) := by
  rintro _ _ ⟨⟩; rfl

theorem Sys2Proof.Laws.OfNy.ld (f : Ny) : Laws.OfNy.Statement (.ld f) := by
  rintro _ _ ⟨⟩; rfl

theorem Sys2Proof.Laws.OfNy.st (f : Ny) : Laws.OfNy.Statement (.st f) := by
  rintro _ _ ⟨⟩; rfl

theorem Sys2Proof.Laws.OfNy.ldx (f : Ny) : Laws.OfNy.Statement (.ldx f) := by
  rintro _ _ ⟨⟩; rfl

theorem Sys2Proof.Laws.OfNy.stx (f : Ny) : Laws.OfNy.Statement (.stx f) := by
  rintro _ _ ⟨⟩; rfl

theorem Sys2Proof.Laws.OfNy.pref (f : Ny) : Laws.OfNy.Statement (.pref f) := by
  rintro _ _ ⟨⟩; rfl

theorem Sys2Proof.Laws.OfNy.hbind (f : Ny) : Laws.OfNy.Statement (.hbind f) := by
  rintro _ _ ⟨⟩; rfl

theorem Sys2Proof.Laws.OfNy.advp (f : Ny) : Laws.OfNy.Statement (.advp f) := by
  rintro _ _ ⟨⟩; rfl

theorem Sys2Proof.Laws.OfNy.advc (f : Ny) : Laws.OfNy.Statement (.advc f) := by
  rintro _ _ ⟨⟩; rfl

theorem Sys2Proof.Laws.OfNy.qbind (f : Ny) : Laws.OfNy.Statement (.qbind f) := by
  rintro _ _ ⟨⟩; rfl

theorem Sys2Proof.Laws.OfNy.qdrop (f : Ny) : Laws.OfNy.Statement (.qdrop f) := by
  rintro _ _ ⟨⟩; rfl

theorem Sys2Proof.Laws.OfNy.ldf (f : Ny) : Laws.OfNy.Statement (.ldf f) := by
  rintro _ _ ⟨⟩; rfl

theorem Sys2Proof.Laws.OfNy.fbclr (f : Ny) : Laws.OfNy.Statement (.fbclr f) := by
  rintro _ _ ⟨⟩; rfl

theorem Sys2Proof.Laws.OfNy.stsb (f : Ny) : Laws.OfNy.Statement (.stsb f) := by
  rintro _ _ ⟨⟩; rfl

theorem Sys2Proof.Laws.OfNy.wback (f : Ny) : Laws.OfNy.Statement (.wback f) := by
  rintro _ _ ⟨⟩; rfl

theorem Sys2Proof.Laws.OfNy.inval (f : Ny) : Laws.OfNy.Statement (.inval f) := by
  rintro _ _ ⟨⟩; rfl

theorem Sys2Proof.Laws.OfNy.atom (f : Ny) : Laws.OfNy.Statement (.atom f) := by
  rintro _ _ ⟨⟩; rfl

theorem Sys2Proof.Laws.OfNy.cas (f : Ny) : Laws.OfNy.Statement (.cas f) := by
  rintro _ _ ⟨⟩; rfl

theorem Sys2Proof.Laws.OfNy.atred (f : Ny) : Laws.OfNy.Statement (.atred f) := by
  rintro _ _ ⟨⟩; rfl

theorem Sys2Proof.Laws.OfNy.fence (f : Ny) : Laws.OfNy.Statement (.fence f) := by
  rintro _ _ ⟨⟩; rfl

theorem Sys2Proof.Laws.OfNy.acq (f : Ny) : Laws.OfNy.Statement (.acq f) := by
  rintro _ _ ⟨⟩; rfl

theorem Sys2Proof.Laws.OfNy.rel (f : Ny) : Laws.OfNy.Statement (.rel f) := by
  rintro _ _ ⟨⟩; rfl

theorem Sys2Proof.Laws.OfNy.bar (f : Ny) : Laws.OfNy.Statement (.bar f) := by
  rintro _ _ ⟨⟩; rfl

theorem Sys2Proof.Laws.OfNy.bara (f : Ny) : Laws.OfNy.Statement (.bara f) := by
  rintro _ _ ⟨⟩; rfl

theorem Sys2Proof.Laws.OfNy.barw (f : Ny) : Laws.OfNy.Statement (.barw f) := by
  rintro _ _ ⟨⟩; rfl

theorem Sys2Proof.Laws.OfNy.cwait (f : Ny) : Laws.OfNy.Statement (.cwait f) := by
  rintro _ _ ⟨⟩; rfl

theorem Sys2Proof.Laws.OfNy.cadd (f : Ny) : Laws.OfNy.Statement (.cadd f) := by
  rintro _ _ ⟨⟩; rfl

theorem Sys2Proof.Laws.OfNy.inbx (f : Ny) : Laws.OfNy.Statement (.inbx f) := by
  rintro _ _ ⟨⟩; rfl

theorem Sys2Proof.Laws.OfNy.inbp (f : Ny) : Laws.OfNy.Statement (.inbp f) := by
  rintro _ _ ⟨⟩; rfl

theorem Sys2Proof.Laws.OfNy.ticket (f : Ny) : Laws.OfNy.Statement (.ticket f) := by
  rintro _ _ ⟨⟩; rfl

theorem Sys2Proof.Laws.OfNy.roleq (f : Ny) : Laws.OfNy.Statement (.roleq f) := by
  rintro _ _ ⟨⟩; rfl

theorem Sys2Proof.Laws.OfNy.mma (f : Ny) : Laws.OfNy.Statement (.mma f) := by
  rintro _ _ ⟨⟩; rfl

theorem Sys2Proof.Laws.OfNy.mmas (f : Ny) : Laws.OfNy.Statement (.mmas f) := by
  rintro _ _ ⟨⟩; rfl

theorem Sys2Proof.Laws.OfNy.mzero (f : Ny) : Laws.OfNy.Statement (.mzero f) := by
  rintro _ _ ⟨⟩; rfl

theorem Sys2Proof.Laws.OfNy.mfill (f : Ny) : Laws.OfNy.Statement (.mfill f) := by
  rintro _ _ ⟨⟩; rfl

theorem Sys2Proof.Laws.OfNy.mdrain (f : Ny) : Laws.OfNy.Statement (.mdrain f) := by
  rintro _ _ ⟨⟩; rfl

theorem Sys2Proof.Laws.OfNy.chbeg (f : Ny) : Laws.OfNy.Statement (.chbeg f) := by
  rintro _ _ ⟨⟩; rfl

theorem Sys2Proof.Laws.OfNy.chend (f : Ny) : Laws.OfNy.Statement (.chend f) := by
  rintro _ _ ⟨⟩; rfl

theorem Sys2Proof.Laws.OfNy.spfence (f : Ny) : Laws.OfNy.Statement (.spfence f) := by
  rintro _ _ ⟨⟩; rfl

theorem Sys2Proof.Laws.OfNy.cpy (f : Ny) : Laws.OfNy.Statement (.cpy f) := by
  rintro _ _ ⟨⟩; rfl

theorem Sys2Proof.Laws.OfNy.cpyg (f : Ny) : Laws.OfNy.Statement (.cpyg f) := by
  rintro _ _ ⟨⟩; rfl

theorem Sys2Proof.Laws.OfNy.ncfg (f : Ny) : Laws.OfNy.Statement (.ncfg f) := by
  rintro _ _ ⟨⟩; rfl

theorem Sys2Proof.Laws.OfNy.nint (f : Ny) : Laws.OfNy.Statement (.nint f) := by
  rintro _ _ ⟨⟩; rfl

theorem Sys2Proof.Laws.OfNy.nleak (f : Ny) : Laws.OfNy.Statement (.nleak f) := by
  rintro _ _ ⟨⟩; rfl

theorem Sys2Proof.Laws.OfNy.nfire (f : Ny) : Laws.OfNy.Statement (.nfire f) := by
  rintro _ _ ⟨⟩; rfl

theorem Sys2Proof.Laws.OfNy.evsend (f : Ny) : Laws.OfNy.Statement (.evsend f) := by
  rintro _ _ ⟨⟩; rfl

theorem Sys2Proof.Laws.OfNy.evrecv (f : Ny) : Laws.OfNy.Statement (.evrecv f) := by
  rintro _ _ ⟨⟩; rfl

theorem Sys2Proof.Laws.OfNy.rsort (f : Ny) : Laws.OfNy.Statement (.rsort f) := by
  rintro _ _ ⟨⟩; rfl

theorem Sys2Proof.Laws.OfNy.rsend (f : Ny) : Laws.OfNy.Statement (.rsend f) := by
  rintro _ _ ⟨⟩; rfl

theorem Sys2Proof.Laws.OfNy.rrecv (f : Ny) : Laws.OfNy.Statement (.rrecv f) := by
  rintro _ _ ⟨⟩; rfl

theorem Sys2Proof.Laws.OfNy.racc (f : Ny) : Laws.OfNy.Statement (.racc f) := by
  rintro _ _ ⟨⟩; rfl

theorem Sys2Proof.Laws.OfNy.rmarg (f : Ny) : Laws.OfNy.Statement (.rmarg f) := by
  rintro _ _ ⟨⟩; rfl

theorem Sys2Proof.Laws.OfNy.rgrad (f : Ny) : Laws.OfNy.Statement (.rgrad f) := by
  rintro _ _ ⟨⟩; rfl

theorem Sys2Proof.Laws.OfNy.rwtab (f : Ny) : Laws.OfNy.Statement (.rwtab f) := by
  rintro _ _ ⟨⟩; rfl

theorem Sys2Proof.Laws.OfNy.csrr (f : Ny) : Laws.OfNy.Statement (.csrr f) := by
  rintro _ _ ⟨⟩; rfl

theorem Sys2Proof.Laws.OfNy.csrw (f : Ny) : Laws.OfNy.Statement (.csrw f) := by
  rintro _ _ ⟨⟩; rfl

theorem Sys2Proof.Laws.OfNy.tqcfg (f : Ny) : Laws.OfNy.Statement (.tqcfg f) := by
  rintro _ _ ⟨⟩; rfl

theorem Sys2Proof.Laws.OfNy.sow (rd rs1 rs2 : BitVec 5) :
    Laws.OfNy.Statement (.sow rd rs1 rs2) := by
  rintro _ _ ⟨⟩

theorem Sys2Proof.Laws.OfNy.soww (rd rs1 rs2 : BitVec 5) :
    Laws.OfNy.Statement (.soww rd rs1 rs2) := by
  rintro _ _ ⟨⟩

theorem Sys2Proof.Laws.OfNy.mtstat (rd rs1 : BitVec 5) :
    Laws.OfNy.Statement (.mtstat rd rs1) := by
  rintro _ _ ⟨⟩

theorem Sys2Proof.Laws.OfNy.mtstop (rs1 : BitVec 5) :
    Laws.OfNy.Statement (.mtstop rs1) := by
  rintro _ _ ⟨⟩

theorem Sys2Proof.Laws.OfNy.mtrel (rs1 : BitVec 5) :
    Laws.OfNy.Statement (.mtrel rs1) := by
  rintro _ _ ⟨⟩

theorem Sys2Proof.Laws.OfNy.cmdq (rd rs1 : BitVec 5) :
    Laws.OfNy.Statement (.cmdq rd rs1) := by
  rintro _ _ ⟨⟩

theorem Sys2Proof.Laws.OfNy.cmdqnb (rd rs1 : BitVec 5) :
    Laws.OfNy.Statement (.cmdqnb rd rs1) := by
  rintro _ _ ⟨⟩

theorem Sys2Proof.Laws.OfNy.ctinbx (rd rs1 : BitVec 5) :
    Laws.OfNy.Statement (.ctinbx rd rs1) := by
  rintro _ _ ⟨⟩

theorem Sys2Proof.Laws.OfNy.ctcwait (rd rs1 rs2 : BitVec 5) :
    Laws.OfNy.Statement (.ctcwait rd rs1 rs2) := by
  rintro _ _ ⟨⟩

theorem Sys2Proof.Laws.OfNy.cttick (rd rs1 : BitVec 5) :
    Laws.OfNy.Statement (.cttick rd rs1) := by
  rintro _ _ ⟨⟩

theorem Sys2Proof.Laws.OfNy.actfire (rs1 rs2 : BitVec 5) :
    Laws.OfNy.Statement (.actfire rs1 rs2) := by
  rintro _ _ ⟨⟩

theorem Sys2Proof.Laws.OfNy.bindld (rs1 : BitVec 5) :
    Laws.OfNy.Statement (.bindld rs1) := by
  rintro _ _ ⟨⟩

theorem Sys2Proof.Laws.OfNy.incarn (rd rs1 : BitVec 5) :
    Laws.OfNy.Statement (.incarn rd rs1) := by
  rintro _ _ ⟨⟩

theorem Sys2Proof.Laws.OfNy.reclaim (rd rs1 : BitVec 5) :
    Laws.OfNy.Statement (.reclaim rd rs1) := by
  rintro _ _ ⟨⟩

theorem Sys2Proof.Laws.OfNy.waitingInstructionCompletes (core mt : Nat) :
    Laws.OfNy.Statement (.waitingInstructionCompletes core mt) := by
  rintro _ _ ⟨⟩

theorem Sys2Proof.Laws.OfNy.ctStallCompletes (core : Nat) :
    Laws.OfNy.Statement (.ctStallCompletes core) := by
  rintro _ _ ⟨⟩

theorem Sys2Proof.Laws.OfNy.microthreadIdle (core mt : Nat) :
    Laws.OfNy.Statement (.microthreadIdle core mt) := by
  rintro _ _ ⟨⟩

theorem Sys2Proof.Laws.OfNy.firingStart (core : Nat) :
    Laws.OfNy.Statement (.firingStart core) := by
  rintro _ _ ⟨⟩

theorem Sys2Proof.Laws.OfNy.footprintFill (core actor : Nat) :
    Laws.OfNy.Statement (.footprintFill core actor) := by
  rintro _ _ ⟨⟩

theorem Sys2Proof.Laws.OfNy.stageRebalance (core : Nat) :
    Laws.OfNy.Statement (.stageRebalance core) := by
  rintro _ _ ⟨⟩

theorem Sys2Proof.Laws.OfNy.trapInterruptTaken (core : Nat) :
    Laws.OfNy.Statement (.trapInterruptTaken core) := by
  rintro _ _ ⟨⟩

theorem Sys2Proof.Laws.OfNy.mtresume (core : Nat) (mask : DWord) :
    Laws.OfNy.Statement (.mtresume core mask) := by
  rintro _ _ ⟨⟩

theorem Sys2Proof.Laws.OfNy.ctxidCtxWrite (core : Nat) (value : DWord) :
    Laws.OfNy.Statement (.ctxidCtxWrite core value) := by
  rintro _ _ ⟨⟩

theorem Sys2Proof.Laws.OfNy.nbvWrite (core : Nat) (value : DWord) :
    Laws.OfNy.Statement (.nbvWrite core value) := by
  rintro _ _ ⟨⟩

theorem Sys2Proof.Laws.OfNy.registerWrite (r : RegRef) (value : DWord) :
    Laws.OfNy.Statement (.registerWrite r value) := by
  rintro _ _ ⟨⟩

theorem Sys2Proof.Laws.OfNy.matrixInstructionApplied (core : Nat) (flt : List (Nat × Word)) :
    Laws.OfNy.Statement (.matrixInstructionApplied core flt) := by
  rintro _ _ ⟨⟩

theorem Sys2Proof.Laws.OfNy.mdrainCompletion (core : Nat) :
    Laws.OfNy.Statement (.mdrainCompletion core) := by
  rintro _ _ ⟨⟩

theorem Sys2Proof.Laws.OfNy.limiterStep (quad : Nat) :
    Laws.OfNy.Statement (.limiterStep quad) := by
  rintro _ _ ⟨⟩

theorem Sys2Proof.Laws.OfNy.copyElementComplete (core op : Nat) :
    Laws.OfNy.Statement (.copyElementComplete core op) := by
  rintro _ _ ⟨⟩

theorem Sys2Proof.Laws.OfNy.copyCompletion (core op : Nat) :
    Laws.OfNy.Statement (.copyCompletion core op) := by
  rintro _ _ ⟨⟩

theorem Sys2Proof.Laws.OfNy.eventUnitAction (core : Nat) :
    Laws.OfNy.Statement (.eventUnitAction core) := by
  rintro _ _ ⟨⟩

theorem Sys2Proof.Laws.OfNy.rgradCompletion (core : Nat) :
    Laws.OfNy.Statement (.rgradCompletion core) := by
  rintro _ _ ⟨⟩

theorem Sys2Proof.Laws.OfNy.tqArrival (core : Nat) :
    Laws.OfNy.Statement (.tqArrival core) := by
  rintro _ _ ⟨⟩

theorem Sys2Proof.Laws.OfNy.rankMessageArrival (core : Nat) :
    Laws.OfNy.Statement (.rankMessageArrival core) := by
  rintro _ _ ⟨⟩

theorem Sys2Proof.Laws.OfNy.reducePartialArrival (n : Nat) :
    Laws.OfNy.Statement (.reducePartialArrival n) := by
  rintro _ _ ⟨⟩

theorem Sys2Proof.Laws.OfNy.barrierArrival (n : Nat) :
    Laws.OfNy.Statement (.barrierArrival n) := by
  rintro _ _ ⟨⟩

theorem Sys2Proof.Laws.OfNy.barrierRelease (n : Nat) :
    Laws.OfNy.Statement (.barrierRelease n) := by
  rintro _ _ ⟨⟩

theorem Sys2Proof.Laws.OfNy.sleepDeadline (core mt : Nat) :
    Laws.OfNy.Statement (.sleepDeadline core mt) := by
  rintro _ _ ⟨⟩

theorem Sys2Proof.Laws.OfNy.twaitDeadline (core mt : Nat) :
    Laws.OfNy.Statement (.twaitDeadline core mt) := by
  rintro _ _ ⟨⟩

theorem Sys2Proof.Laws.OfNy.fabricMessageArrival (n : Nat) (badCheck : Bool) :
    Laws.OfNy.Statement (.fabricMessageArrival n badCheck) := by
  rintro _ _ ⟨⟩

theorem Sys2Proof.Laws.OfNy.ackArrival (n : Nat) :
    Laws.OfNy.Statement (.ackArrival n) := by
  rintro _ _ ⟨⟩

theorem Sys2Proof.Laws.OfNy.retry (n : Nat) :
    Laws.OfNy.Statement (.retry n) := by
  rintro _ _ ⟨⟩

theorem Sys2Proof.Laws.OfNy.retryResend (flow : Nat) :
    Laws.OfNy.Statement (.retryResend flow) := by
  rintro _ _ ⟨⟩

theorem Sys2Proof.Laws.OfNy.reject (n : Nat) :
    Laws.OfNy.Statement (.reject n) := by
  rintro _ _ ⟨⟩

theorem Sys2Proof.Laws.OfNy.resendTimeout (flow : Nat) :
    Laws.OfNy.Statement (.resendTimeout flow) := by
  rintro _ _ ⟨⟩

theorem Sys2Proof.Laws.OfNy.escapeTimeout (n : Nat) :
    Laws.OfNy.Statement (.escapeTimeout n) := by
  rintro _ _ ⟨⟩

theorem Sys2Proof.Laws.OfNy.pairedMessageArrival (n : Nat) :
    Laws.OfNy.Statement (.pairedMessageArrival n) := by
  rintro _ _ ⟨⟩

theorem Sys2Proof.Laws.OfNy.twinTimeout (n : Nat) :
    Laws.OfNy.Statement (.twinTimeout n) := by
  rintro _ _ ⟨⟩

theorem Sys2Proof.Laws.OfNy.linkFlitCrcFail (port : Nat) :
    Laws.OfNy.Statement (.linkFlitCrcFail port) := by
  rintro _ _ ⟨⟩

theorem Sys2Proof.Laws.OfNy.trapRecordArrival (n : Nat) :
    Laws.OfNy.Statement (.trapRecordArrival n) := by
  rintro _ _ ⟨⟩

theorem Sys2Proof.Laws.OfNy.trrheadWrite (ring : Nat) (value : Word) :
    Laws.OfNy.Statement (.trrheadWrite ring value) := by
  rintro _ _ ⟨⟩

theorem Sys2Proof.Laws.OfNy.lqdb (die : Nat) (value : Word) :
    Laws.OfNy.Statement (.lqdb die value) := by
  rintro _ _ ⟨⟩

theorem Sys2Proof.Laws.OfNy.launchQueueEntryRead (die : Nat) :
    Laws.OfNy.Statement (.launchQueueEntryRead die) := by
  rintro _ _ ⟨⟩

theorem Sys2Proof.Laws.OfNy.childLaunchAdmit (die : Nat) :
    Laws.OfNy.Statement (.childLaunchAdmit die) := by
  rintro _ _ ⟨⟩

theorem Sys2Proof.Laws.OfNy.nodeNotification (n : Nat) :
    Laws.OfNy.Statement (.nodeNotification n) := by
  rintro _ _ ⟨⟩

theorem Sys2Proof.Laws.OfNy.readyPriorityAging (node : Nat) :
    Laws.OfNy.Statement (.readyPriorityAging node) := by
  rintro _ _ ⟨⟩

theorem Sys2Proof.Laws.OfNy.distributorPlace (die : Nat) :
    Laws.OfNy.Statement (.distributorPlace die) := by
  rintro _ _ ⟨⟩

theorem Sys2Proof.Laws.OfNy.launchCoreStart (core : Nat) :
    Laws.OfNy.Statement (.launchCoreStart core) := by
  rintro _ _ ⟨⟩

theorem Sys2Proof.Laws.OfNy.endOfPart (core : Nat) :
    Laws.OfNy.Statement (.endOfPart core) := by
  rintro _ _ ⟨⟩

theorem Sys2Proof.Laws.OfNy.nodeComplete (node : Nat) :
    Laws.OfNy.Statement (.nodeComplete node) := by
  rintro _ _ ⟨⟩

theorem Sys2Proof.Laws.OfNy.terminationSweep (node : Nat) :
    Laws.OfNy.Statement (.terminationSweep node) := by
  rintro _ _ ⟨⟩

theorem Sys2Proof.Laws.OfNy.migreqGo (die : Nat) (value : DWord) :
    Laws.OfNy.Statement (.migreqGo die value) := by
  rintro _ _ ⟨⟩

theorem Sys2Proof.Laws.OfNy.migrationStream (die : Nat) :
    Laws.OfNy.Statement (.migrationStream die) := by
  rintro _ _ ⟨⟩

theorem Sys2Proof.Laws.OfNy.migrationSwitch (die : Nat) :
    Laws.OfNy.Statement (.migrationSwitch die) := by
  rintro _ _ ⟨⟩

theorem Sys2Proof.Laws.OfNy.paddockDefine (die pdk : Nat) (value : DWord) :
    Laws.OfNy.Statement (.paddockDefine die pdk value) := by
  rintro _ _ ⟨⟩

theorem Sys2Proof.Laws.OfNy.paddockKill (die pdk : Nat) :
    Laws.OfNy.Statement (.paddockKill die pdk) := by
  rintro _ _ ⟨⟩

theorem Sys2Proof.Laws.OfNy.killedLaunchDrained (node : Nat) :
    Laws.OfNy.Statement (.killedLaunchDrained node) := by
  rintro _ _ ⟨⟩

theorem Sys2Proof.Laws.OfNy.paddockUnfence (die pdk : Nat) :
    Laws.OfNy.Statement (.paddockUnfence die pdk) := by
  rintro _ _ ⟨⟩

theorem Sys2Proof.Laws.OfNy.uncorrectableError (at_ : ErrorSite) :
    Laws.OfNy.Statement (.uncorrectableError at_) := by
  rintro _ _ ⟨⟩

theorem Sys2Proof.Laws.OfNy.correctedError (die quad array : Nat) :
    Laws.OfNy.Statement (.correctedError die quad array) := by
  rintro _ _ ⟨⟩

theorem Sys2Proof.Laws.OfNy.undervoltStepUp (die quad : Nat) :
    Laws.OfNy.Statement (.undervoltStepUp die quad) := by
  rintro _ _ ⟨⟩

theorem Sys2Proof.Laws.OfNy.spareBind (r : Spare) :
    Laws.OfNy.Statement (.spareBind r) := by
  rintro _ _ ⟨⟩

theorem Sys2Proof.Laws.OfNy.lockstepMismatch (die : Nat) :
    Laws.OfNy.Statement (.lockstepMismatch die) := by
  rintro _ _ ⟨⟩

theorem Sys2Proof.Laws.OfNy.cpResume (die : Nat) :
    Laws.OfNy.Statement (.cpResume die) := by
  rintro _ _ ⟨⟩

theorem Sys2Proof.Laws.OfNy.incarnationSweep (ctx value : Nat) :
    Laws.OfNy.Statement (.incarnationSweep ctx value) := by
  rintro _ _ ⟨⟩

theorem Sys2Proof.Laws.OfNy.budgetTick (env : TickInput) :
    Laws.OfNy.Statement (.budgetTick env) := by
  rintro _ _ ⟨⟩

theorem Sys2Proof.Laws.OfNy.hopEnd (tile : Nat) :
    Laws.OfNy.Statement (.hopEnd tile) := by
  rintro _ _ ⟨⟩

theorem Sys2Proof.Laws.OfNy.dramRefresh (chan : Nat) :
    Laws.OfNy.Statement (.dramRefresh chan) := by
  rintro _ _ ⟨⟩

theorem Sys2Proof.Laws.OfNy.dramRefreshEnd (chan : Nat) :
    Laws.OfNy.Statement (.dramRefreshEnd chan) := by
  rintro _ _ ⟨⟩

theorem Sys2Proof.Laws.OfNy.coreGate (core : Nat) :
    Laws.OfNy.Statement (.coreGate core) := by
  rintro _ _ ⟨⟩

theorem Sys2Proof.Laws.OfNy.wakeRequest (core : Nat) :
    Laws.OfNy.Statement (.wakeRequest core) := by
  rintro _ _ ⟨⟩

theorem Sys2Proof.Laws.OfNy.wakeComplete (core : Nat) :
    Laws.OfNy.Statement (.wakeComplete core) := by
  rintro _ _ ⟨⟩

theorem Sys2Proof.Laws.OfNy.droopDetect (tile : Nat) (handshake : Bool) :
    Laws.OfNy.Statement (.droopDetect tile handshake) := by
  rintro _ _ ⟨⟩

theorem Sys2Proof.Laws.OfNy.droopEnd (tile : Nat) :
    Laws.OfNy.Statement (.droopEnd tile) := by
  rintro _ _ ⟨⟩

theorem Sys2Proof.Laws.OfNy.packageReset :
    Laws.OfNy.Statement (.packageReset) := by
  rintro _ _ ⟨⟩

theorem Sys2Proof.Laws.OfNy.attestationRequest (nonce : List Byte) :
    Laws.OfNy.Statement (.attestationRequest nonce) := by
  rintro _ _ ⟨⟩

theorem Sys2Proof.Laws.OfNy.controlThreadRiscvInstruction (r : RvInstr) :
    Laws.OfNy.Statement (.controlThreadRiscvInstruction r) := by
  rintro _ _ ⟨⟩

theorem Sys2Proof.Laws.OfNy.unassignedOpcode (w : IWord) :
    Laws.OfNy.Statement (.unassignedOpcode w) := by
  rintro _ _ ⟨⟩

theorem Sys2Proof.Laws.OfNy.rampDownEnd (core : Nat) :
    Laws.OfNy.Statement (.rampDownEnd core) := by
  rintro _ _ ⟨⟩

theorem Sys2Proof.Laws.OfNy.gatingEntryEnd (core : Nat) :
    Laws.OfNy.Statement (.gatingEntryEnd core) := by
  rintro _ _ ⟨⟩

theorem Sys2Proof.Laws.OfNy.trrbaseWrite (ring : Nat) (value : DWord) :
    Laws.OfNy.Statement (.trrbaseWrite ring value) := by
  rintro _ _ ⟨⟩

theorem Sys2Proof.Laws.OfNy.inboundDma (va : Nat) (root : Nat) (data : Option (List Byte)) :
    Laws.OfNy.Statement (.inboundDma va root data) := by
  rintro _ _ ⟨⟩

theorem Sys2Proof.Laws.OfNy.applicationCoreAccess (pa : Nat) (op : HostOp) :
    Laws.OfNy.Statement (.applicationCoreAccess pa op) := by
  rintro _ _ ⟨⟩

theorem Sys2Proof.Laws.OfNy.uvctlLockClear (die quad : Nat) :
    Laws.OfNy.Statement (.uvctlLockClear die quad) := by
  rintro _ _ ⟨⟩
end

