-- ==== Sys2Proof/Tests/Slice0.lean ====
section
/-! SUPPORT. Tests: words written out from the spec's encodings, ill-formed terms for the checks of
well-formedness, single steps on small states with results that the spec works out, and states
that meet the hypotheses of the statements. -/

namespace Sys2Proof.Tests

open Sys2Proof Sys2Proof.Machine

/-! ### Words (R118, R125) -/

/-- A micro-thread word laid out by R118, with GUARD 0b0_1111 and HINT 0. -/
def word (op ty md a b c : Nat) : IWord :=
  BitVec.ofNat 96 (op * 2 ^ 86 + ty * 2 ^ 82 + md * 2 ^ 76 + 15 * 2 ^ 71 + a * 2 ^ 44 + b * 2 ^ 22 + c)

/-- Operand fields by R125: VREG, SREG, HANDLE, IMM, ROLE, STREAM, SPECIAL. -/
def v (n : Nat) : Nat := n * 2 ^ 13
def sr (n : Nat) : Nat := 2 ^ 19 + n * 2 ^ 14
def hd (n : Nat) : Nat := 2 * 2 ^ 19 + n * 2 ^ 15
def im (n : Nat) : Nat := 3 * 2 ^ 19 + n
def rl (n : Nat) : Nat := 5 * 2 ^ 19 + n * 2 ^ 11
def sm (n : Nat) : Nat := 6 * 2 ^ 19 + n * 2 ^ 16
def sp (n : Nat) : Nat := 7 * 2 ^ 19 + n * 2 ^ 13

/-- The word decodes to this instruction with its fields. -/
def decodesTo (p : IWord × (Ny → Instr)) : Bool :=
  match decodeNy p.1, Ty.ofCode p.1.ty.toNat with
  | .ok i, some t => i == p.2 (p.1.fields t)
  | _, _ => false

/-! Each opcode of the map (R132 to R139) with legal operands. -/

theorem test_decode_integer : ([
    (word 0x000 0 0 0 0 0, Instr.nop),
    (word 0x001 0 0 (v 1) (v 2) 0, Instr.mov),
    (word 0x002 0 0 (v 1) (v 2) (v 3), Instr.sel),
    (word 0x003 0 0 (v 1) (v 2) (v 3), Instr.iadd),
    (word 0x004 0 0 (v 1) (v 2) (v 3), Instr.isub),
    (word 0x005 0 0 (v 1) (v 2) (v 3), Instr.imul),
    (word 0x006 0 0 (v 1) (v 2) (v 3), Instr.imulh),
    (word 0x007 0 0 (v 1) (v 2) (v 3), Instr.imad),
    (word 0x008 0 0 (v 1) (v 2) (v 3), Instr.imin),
    (word 0x009 0 0 (v 1) (v 2) (v 3), Instr.imax),
    (word 0x00A 0 0 (v 1) (v 2) 0, Instr.iabs),
    (word 0x00B 0 0 (v 1) (v 2) 0, Instr.ineg),
    (word 0x00C 0 0 (v 1) (v 2) (v 3), Instr.iadds),
    (word 0x00D 0 0 (v 1) (v 2) (v 3), Instr.isubs),
    (word 0x00E 0 0 (v 1) (v 2) (v 3), Instr.shl),
    (word 0x00F 0 0 (v 1) (v 2) (v 3), Instr.shr),
    (word 0x010 0 0 (v 1) (v 2) (v 3), Instr.sar),
    (word 0x011 0 0 (v 1) (v 2) (v 3), Instr.rot),
    (word 0x012 0 0 (v 1) (v 2) (v 3), Instr.and),
    (word 0x013 0 0 (v 1) (v 2) (v 3), Instr.or),
    (word 0x014 0 0 (v 1) (v 2) (v 3), Instr.xor),
    (word 0x015 0 0 (v 1) (v 2) (v 3), Instr.andn),
    (word 0x016 0 0 (v 1) (v 2) 0, Instr.not),
    (word 0x017 0 0 (v 1) (v 2) 0, Instr.clz),
    (word 0x018 0 0 (v 1) (v 2) 0, Instr.ffs),
    (word 0x019 0 0 (v 1) (v 2) 0, Instr.popc),
    (word 0x01A 0 0 (v 1) (v 2) 0, Instr.brev),
    (word 0x01B 0 0 (v 1) (v 2) (v 3), Instr.bfx),
    (word 0x01C 0 0 (v 1) (v 2) (v 3), Instr.bfi),
    (word 0x01D 0 0 (v 1) (v 2) (v 3), Instr.icmp),
    (word 0x01E 0 0 (sp 1) (sp 1) (sp 1), Instr.pand),
    (word 0x01F 0 0 (sp 1) (sp 1) (sp 1), Instr.por),
    (word 0x020 0 0 (sp 1) (sp 1) (sp 1), Instr.pxor),
    (word 0x021 0 0 (sp 1) (sp 1) 0, Instr.pnot),
    (word 0x022 0 0 (v 1) (v 2) (v 3), Instr.lea)] : List (IWord × (Ny → Instr))).all decodesTo = true := by decide

theorem test_decode_float : ([
    (word 0x080 9 0 (v 1) (v 2) (v 3), Instr.fadd),
    (word 0x081 9 0 (v 1) (v 2) (v 3), Instr.fsub),
    (word 0x082 9 0 (v 1) (v 2) (v 3), Instr.fmul),
    (word 0x083 9 0 (v 1) (v 2) (v 3), Instr.ffma),
    (word 0x084 9 0 (v 1) (v 2) (v 3), Instr.fmin),
    (word 0x085 9 0 (v 1) (v 2) (v 3), Instr.fmax),
    (word 0x086 9 0 (v 1) (v 2) (v 3), Instr.fcmp),
    (word 0x087 9 0 (v 1) (v 2) 0, Instr.fclass),
    (word 0x088 9 0 (v 1) (v 2) 0, Instr.frnd),
    (word 0x089 0 0 (v 1) (v 2) (im 1), Instr.cvt),
    (word 0x08A 5 0 (v 1) (v 2) (sr 6), Instr.qnt),
    (word 0x08B 5 0 (v 1) (v 2) (sr 6), Instr.dqnt),
    (word 0x08C 9 0 (v 1) (v 2) (v 3), Instr.sclf),
    (word 0x08D 10 0 (v 1) (v 2) (v 3), Instr.fdot)] : List (IWord × (Ny → Instr))).all decodesTo = true := by decide

theorem test_decode_lanes : ([
    (word 0x100 9 0 (v 1) (v 2) 0, Instr.rcp),
    (word 0x101 9 0 (v 1) (v 2) 0, Instr.rsq),
    (word 0x102 9 0 (v 1) (v 2) 0, Instr.sqrt),
    (word 0x103 9 0 (v 1) (v 2) 0, Instr.exp2),
    (word 0x104 9 0 (v 1) (v 2) 0, Instr.log2),
    (word 0x105 9 0 (v 1) (v 2) 0, Instr.sin),
    (word 0x106 9 0 (v 1) (v 2) 0, Instr.cos),
    (word 0x107 9 0 (v 1) (v 2) 0, Instr.tanh),
    (word 0x108 9 0 (v 1) (v 2) 0, Instr.sigm),
    (word 0x109 14 0 (v 1) (v 2) (v 3), Instr.l6add),
    (word 0x10A 14 0 (v 1) (v 2) (v 3), Instr.l6mul),
    (word 0x10B 0 0 (v 1) (v 2) (v 3), Instr.shuf),
    (word 0x10C 0 0 (v 1) (v 2) (v 3), Instr.bcast),
    (word 0x10D 0 0 (v 1) (v 2) 0, Instr.red),
    (word 0x10E 0 0 (v 1) (v 2) 0, Instr.scan),
    (word 0x10F 0 0 (v 1) (v 2) 0, Instr.vote),
    (word 0x110 1 0 (v 1) (v 2) 0, Instr.cmprs),
    (word 0x111 1 0 (v 1) (v 2) (v 3), Instr.xpnd)] : List (IWord × (Ny → Instr))).all decodesTo = true := by decide

theorem test_decode_control : ([
    (word 0x180 0 0 (v 1) (im 1) 0, Instr.bra),
    (word 0x181 0 0 (v 1) (sr 4) 0, Instr.brx),
    (word 0x182 0 0 (im 1) 0 0, Instr.bfetch),
    (word 0x183 0 0 (sr 2) (im 1) 0, Instr.loop),
    (word 0x184 0 0 (im 1) (im 1) 0, Instr.rep),
    (word 0x185 0 0 0 0 0, Instr.stop),
    (word 0x186 0 0 0 0 0, Instr.yield),
    (word 0x187 0 0 (sp 25) (v 2) 0, Instr.lnkw),
    (word 0x188 0 0 (v 1) (sp 25) 0, Instr.lnkr),
    (word 0x189 0 0 0 0 0, Instr.ctsig),
    (word 0x18A 0 0 0 0 0, Instr.ctwait),
    (word 0x18B 0 0 (im 1) 0 0, Instr.trap),
    (word 0x18C 0 0 (im 1) 0 0, Instr.brkp),
    (word 0x18D 0 0 (sp 1) (im 2) 0, Instr.gang),
    (word 0x18E 0 0 0 0 0, Instr.ungang),
    (word 0x18F 0 0 (sr 2) 0 0, Instr.sleep),
    (word 0x190 0 0 (sp 1) (sr 4) 0, Instr.twait),
    (word 0x191 0 0 (v 1) 0 0, Instr.time)] : List (IWord × (Ny → Instr))).all decodesTo = true := by decide

theorem test_decode_memory : ([
    (word 0x200 0 0 (v 1) (sr 4) (sr 6), Instr.ld),
    (word 0x201 0 0 (v 1) (sr 4) (sr 6), Instr.st),
    (word 0x202 0 0 (v 1) (v 2) (sr 6), Instr.ldx),
    (word 0x203 0 0 (v 1) (v 2) (sr 6), Instr.stx),
    (word 0x204 0 3 0 (sr 4) (sr 6), Instr.pref),
    (word 0x205 0 0 (hd 1) (sr 4) (im 1), Instr.hbind),
    (word 0x206 0 0 (hd 1) (sr 4) 0, Instr.advp),
    (word 0x207 0 0 (hd 1) (sr 4) 0, Instr.advc),
    (word 0x208 0 0 (sm 1) 0 0, Instr.qbind),
    (word 0x209 0 0 (hd 1) 0 0, Instr.qdrop),
    (word 0x20A 0 1 (v 1) (sr 4) (sr 6), Instr.ldf),
    (word 0x20B 0 1 (sr 2) (sr 4) (sr 6), Instr.fbclr),
    (word 0x20C 7 2 (v 1) (sr 4) (sr 6), Instr.stsb),
    (word 0x20D 0 4 0 (sr 4) (sr 6), Instr.wback),
    (word 0x20E 0 4 0 (sr 4) (sr 6), Instr.inval)] : List (IWord × (Ny → Instr))).all decodesTo = true := by decide

theorem test_decode_atomics : ([
    (word 0x280 0 1 (v 1) (v 2) (v 3), Instr.atom),
    (word 0x281 0 1 (v 1) (v 2) 0, Instr.cas),
    (word 0x282 0 1 (v 1) (v 2) 0, Instr.atred),
    (word 0x283 0 0 0 0 0, Instr.fence),
    (word 0x284 0 0 0 0 0, Instr.acq),
    (word 0x285 0 0 0 0 0, Instr.rel),
    (word 0x286 0 0 (im 1) (sr 4) 0, Instr.bar),
    (word 0x287 0 0 (im 1) (sr 4) 0, Instr.bara),
    (word 0x288 0 0 (im 1) 0 0, Instr.barw),
    (word 0x289 0 1 (sr 2) (sr 4) (sr 6), Instr.cwait),
    (word 0x28A 0 1 (sr 2) (sr 4) (im 1), Instr.cadd),
    (word 0x28B 0 0 (v 1) (sr 4) 0, Instr.inbx),
    (word 0x28C 0 0 (v 1) 0 0, Instr.inbp),
    (word 0x28D 0 0 (sr 2) (sr 4) 0, Instr.ticket),
    (word 0x28E 0 0 (v 1) (v 2) 0, Instr.roleq)] : List (IWord × (Ny → Instr))).all decodesTo = true := by decide

theorem test_decode_matrix : ([
    (word 0x300 10 0 (sp 17) (sr 4) (sr 6), Instr.mma),
    (word 0x301 10 0 (sp 17) (sr 4) (sr 6), Instr.mmas),
    (word 0x302 0 0 (sp 17) 0 0, Instr.mzero),
    (word 0x303 9 0 (sp 17) (sr 4) 0, Instr.mfill),
    (word 0x304 9 0 (sr 2) (sp 17) (im 1), Instr.mdrain),
    (word 0x305 0 0 0 0 0, Instr.chbeg),
    (word 0x306 0 0 0 0 0, Instr.chend),
    (word 0x307 0 0 0 0 0, Instr.spfence),
    (word 0x308 0 0 (sr 2) (sm 1) 0, Instr.cpy),
    (word 0x309 0 0 (sr 2) (v 2) 0, Instr.cpyg)] : List (IWord × (Ny → Instr))).all decodesTo = true := by decide

theorem test_decode_events : ([
    (word 0x380 0 0 (sp 17) (sr 4) 0, Instr.ncfg),
    (word 0x381 10 0 (sp 17) (sr 4) (sr 6), Instr.nint),
    (word 0x382 0 0 (sp 17) 0 0, Instr.nleak),
    (word 0x383 0 0 (rl 3) (sp 17) 0, Instr.nfire),
    (word 0x384 0 0 (rl 3) (v 2) 0, Instr.evsend),
    (word 0x385 0 0 (sr 2) 0 0, Instr.evrecv),
    (word 0x386 9 0 (sr 2) (sr 4) (sr 6), Instr.rsort),
    (word 0x387 0 0 (rl 3) (sr 4) (sr 6), Instr.rsend),
    (word 0x388 0 0 (sr 2) 0 0, Instr.rrecv),
    (word 0x389 10 0 (sp 17) (sr 4) (sr 6), Instr.racc),
    (word 0x38A 0 0 (sp 1) (sp 17) 0, Instr.rmarg),
    (word 0x38B 10 0 (rl 3) (sr 4) 0, Instr.rgrad),
    (word 0x38C 0 0 (sr 2) (sr 4) 0, Instr.rwtab),
    (word 0x38D 0 0 (v 1) (im 1) 0, Instr.csrr),
    (word 0x38E 0 0 (im 2) (v 2) 0, Instr.csrw),
    (word 0x38F 0 0 (sr 2) 0 0, Instr.tqcfg)] : List (IWord × (Ny → Instr))).all decodesTo = true := by decide

/-! Worked encodings: FADD of R118, FMUL of R147, REP of R130. -/

theorem test_word_fadd : decodeNy 0x202407801000000000008000#96 =
    .ok (.fadd ⟨.f32, 0, ⟨false, 15⟩, ⟨false, 0, false⟩, .vreg 8 0 0 false false 0, .zero,
      .vreg 4 0 0 false false 0⟩) := by decide

theorem test_word_fmul : decodeNy 0x20A818900200000210094000#96 =
    .ok (.fmul ⟨.bf16, 1, ⟨true, 1⟩, ⟨false, 2, false⟩, .vreg 1 0 0 false false 0,
      .vreg 0 2 0 true false 0, .sreg 5 0⟩) := by decide

theorem test_word_cvt : decodeNy 0x226C07800800000000180009#96 =
    .ok (.cvt ⟨.e4m3, 0, ⟨false, 15⟩, ⟨false, 0, false⟩, .vreg 4 0 0 false false 0, .zero,
      .imm 9⟩) := by decide

theorem test_word_rejects :
    (decodeNy (word 0x003 15 0 (v 1) (v 2) (v 3)) = .error ⟨2, 0⟩) ∧
    (decodeNy (word 0x003 9 0 (v 1) (v 2) (v 3)) = .error ⟨2, 0⟩) ∧
    (decodeNy (word 0x003 1 1 (v 1) (v 2) (v 3)) = .error ⟨3, 0⟩) ∧
    (decodeNy (word 0x003 1 0 (im 1) (v 2) (v 3)) = .error ⟨3, 1⟩) ∧
    (decodeNy (word 0x003 1 0 (v 1) (v 2 + 7 * 2 ^ 10) (v 3)) = .error ⟨3, 2⟩) ∧
    (decodeNy (word 0x003 1 0 (v 1) (v 2) (v 3 + 1)) = .error ⟨3, 3⟩) ∧
    (decodeNy (word 0x184 0 0 (im 65) (im 0) 0) = .error ⟨3, 5⟩) ∧
    decodeNy (word 0x023 0 0 0 0 0) = .ok (.unassignedOpcode (word 0x023 0 0 0 0 0)) := by decide

/-! The control extension (R140): SOW of its worked encoding, then one word for each funct7. -/

def ext (f7 rs2 rs1 rd : Nat) : Word :=
  BitVec.ofNat 32 (f7 * 2 ^ 25 + rs2 * 2 ^ 20 + rs1 * 2 ^ 15 + rd * 2 ^ 7 + 0x0B)

theorem test_decode_extension : decodeCt 0x00B5060B = .sow 12 10 11 ∧
    [decodeCt (ext 1 3 2 1), decodeCt (ext 2 0 2 1), decodeCt (ext 3 0 2 0), decodeCt (ext 4 0 2 0),
      decodeCt (ext 5 0 2 1), decodeCt (ext 6 0 2 1), decodeCt (ext 7 0 2 1), decodeCt (ext 8 3 2 1),
      decodeCt (ext 9 0 2 1), decodeCt (ext 10 3 2 0), decodeCt (ext 11 0 2 0),
      decodeCt (ext 12 0 2 1), decodeCt (ext 13 0 2 1)] =
    [.soww 1 2 3, .mtstat 1 2, .mtstop 2, .mtrel 2, .cmdq 1 2, .cmdqnb 1 2, .ctinbx 1 2,
      .ctcwait 1 2 3, .cttick 1 2, .actfire 2 3, .bindld 2, .incarn 1 2, .reclaim 1 2] := by decide

theorem test_extension_reserved : decodeCt (ext 14 0 2 1) = .controlThreadRiscvInstruction
      (.reserved (ext 14 0 2 1)) ∧
    decodeCt (ext 3 0 2 1) = .controlThreadRiscvInstruction (.reserved (ext 3 0 2 1)) := by decide

/-- RISC-V words of the family's assemblers: addi a0, a1, -1; sh1add a0, a1, a2; lr.d a0, (a1);
csrrw a0, mscratch, a1; mret; c.addi a0, 1. -/
theorem test_decode_riscv :
    decodeCt 0xFFF58513 = .controlThreadRiscvInstruction (.full (.opImm .addi 10 11 0xFFF) 0) ∧
    decodeCt 0x20C5A533 = .controlThreadRiscvInstruction (.full (.alu .sh1add 10 11 12) 0) ∧
    decodeCt 0x1005B52F = .controlThreadRiscvInstruction (.full (.lr true 10 11) 0) ∧
    decodeCt 0x34059573 = .controlThreadRiscvInstruction (.full (.csr .rw false 10 11 0x340) 0) ∧
    decodeCt 0x30200073 = .controlThreadRiscvInstruction (.full .mret 0) ∧
    decodeCt 0x00000505 = .controlThreadRiscvInstruction (.comp 0x0505 (.opImm .addi 10 10 1)) := by
  decide

/-! ### Ill-formed terms -/

def always : Guard := ⟨false, 15⟩
def plain : Hint := ⟨false, 0, false⟩
def vr (n : BitVec 6) : Operand := .vreg n 0 0 false false 0
def sg (n : BitVec 5) : Operand := .sreg n 0
/-- Fields with GUARD 0b0_1111 and HINT 0. -/
def ny (t : Ty) (md : BitVec 6) (a b c : Operand) : Ny := ⟨t, md, always, plain, a, b, c⟩

theorem test_wf_micro_thread :
    (Instr.iadd (ny .f32 0 (sg 1) (sg 2) (sg 3))).wf = false ∧
    (Instr.iadd (ny .s32 1 (sg 1) (sg 2) (sg 3))).wf = false ∧
    (Instr.iadd (ny .s32 0 (.imm 0) (sg 2) (sg 3))).wf = false ∧
    (Instr.lea (ny .b32 4 (sg 1) (sg 2) (sg 3))).wf = false ∧
    (Instr.gang (ny .b32 0 (.special 1) (.imm 3) .zero)).wf = false ∧
    (Instr.trap (ny .b32 0 (.imm 65536) .zero .zero)).wf = false ∧
    (Instr.atom (ny .s32 1 (.sreg 3 20) (sg 4) (.imm 1))).wf = false ∧
    (Instr.iadd (ny .s32 0 (sg 1) (sg 2) (sg 3))).wf = true := by decide

theorem test_wf_control_thread :
    (Instr.controlThreadRiscvInstruction (.full (.jal 1 1) 0)).wf = false ∧
    (Instr.controlThreadRiscvInstruction (.full (.branch .eq 1 2 3) 0)).wf = false ∧
    (Instr.controlThreadRiscvInstruction (.full (.shImm .slliw 1 2 32) 0)).wf = false ∧
    (Instr.controlThreadRiscvInstruction (.full .ecall 1)).wf = false ∧
    (Instr.controlThreadRiscvInstruction (.comp 0x0505 .ecall)).wf = false ∧
    (Instr.controlThreadRiscvInstruction (.reserved 0)).wf = false ∧
    (Instr.controlThreadRiscvInstruction (.reserved16 3)).wf = false ∧
    (Instr.controlThreadRiscvInstruction (.reserved16 0)).wf = true := by decide

theorem test_wf_steps :
    (Instr.unassignedOpcode 0).wf = false ∧ (Instr.microthreadIdle 0 16).wf = false ∧
    (Instr.coreGate 1024).wf = false ∧ (Instr.footprintFill 0 32).wf = false ∧
    (Instr.registerWrite (.device 0) 0).wf = false ∧
    (Instr.matrixInstructionApplied 0 [(4096, 0)]).wf = false ∧
    (Instr.limiterStep 16).wf = false ∧ (Instr.trrheadWrite 17 0).wf = false ∧
    (Instr.lqdb 4 0).wf = false ∧ (Instr.paddockDefine 0 16 0).wf = false ∧
    (Instr.uncorrectableError (.schedulerSram 4)).wf = false ∧
    (Instr.correctedError 0 0 8).wf = false ∧ (Instr.undervoltStepUp 4 0).wf = false ∧
    (Instr.spareBind (.tile 0 64)).wf = false ∧ (Instr.incarnationSweep 4096 0).wf = false ∧
    (Instr.hopEnd 256).wf = false ∧ (Instr.dramRefresh 1024).wf = false ∧
    (Instr.attestationRequest []).wf = false ∧ (Instr.linkFlitCrcFail 32).wf = false := by decide

/-! ### A word placed where the step fetches it -/

theorem test_table_word : decodeTableWord 32 0x00B5060B = some (.sow 12 10 11) ∧
    decodeTableWord 96 0x202407801000000000008000 = some (.fadd ⟨.f32, 0, always, plain, vr 8, .zero,
      vr 4⟩) ∧ decodeTableWord 32 0x0000700B = none := by decide

/-- TIME-free: LEA s1, 5, 6 in the own scratchpad is the first instruction after reset, and writes 11. -/
theorem test_first_instruction :
    (match step (State.reset.withFetchWord 96 (word 0x022 0 1 (sr 1) (im 5) (im 6)).toNat) with
      | .next t => (t.mt 0 0).sreg 1
      | _ => 0) = 11 := by decide

/-- MTSTAT x1, x0 runs first after reset in control thread 0: the pc moves on by 4. -/
theorem test_first_extension :
    (match step (State.reset.withFetchWord 32 (ext 2 0 0 1).toNat) with
      | .next t => (t.hart 0).pc
      | _ => 0) = 4 := by decide

/-! ### Numbers (R99 to R103, worked conversions) -/

theorem test_conversions :
    Ty.cvt .e4m3 .rne true (fp32 0x42C80000) = 0x6C ∧ Ty.cvt .e4m3 .rna true (fp32 0x42C80000) = 0x6D ∧
    Ty.cvt .e5m2 .rne true (fp32 0x42C80000) = 0x56 ∧ Ty.cvt .e4m3 .rne true (fp32 0x43FA0000) = 0x7E ∧
    Ty.cvt .e4m3 .rne false (fp32 0x43FA0000) = 0x7F ∧ Ty.cvt .e4m3 .rz false (fp32 0x43FA0000) = 0x7F ∧
    Ty.cvt .e4m3 .rz false (fp32 0x43E60000) = 0x7E ∧ Ty.cvt .e5m2 .rne false (fp32 0x4788B800) = 0x7C ∧
    Ty.cvt .e2m1 .rne true (fp32 0x40200000) = 0x4 ∧ Ty.cvt .e2m1 .rne true (fp32 0x40A00000) = 0x6 ∧
    Ty.cvt .bf16 .rne true (fp32 0x3F808000) = 0x3F80 ∧
    Ty.cvt .bf16 .rna true (fp32 0x3F808000) = 0x3F81 := by decide

theorem test_l6 : toL6 .rne (fp32 0x40400000) = 0x16 ∧ toL6 .rne (fp32 0xC0400000) = 0x36 ∧
    l6Mul 0x16 0x16 = 0x1C ∧ l6Lin 2 0x16 = .fin false 0x16A0A (-15) := by decide

/-! ### Single steps of a micro-thread -/

/-- Micro-thread 0 of core 0, running, with scalar registers. -/
def mtS (xs : List (Nat × Word)) : Mt :=
  xs.foldl (fun t x => t.setS x.1 x.2) { Mt.init with st := .running }

/-- The package after reset with that micro-thread, of a core that belongs to a launch. -/
def st (t : Mt) : State :=
  State.reset.setCore 0 { Core.init with launch := some 0, mts := [(0, t)] }

/-- Micro-thread 0 after an instruction. -/
def after (i : Instr) (s : State) : Mt :=
  match exec i s with
  | .next t => t.mt 0 0
  | _ => Mt.init

/-- Scalar register 1 after an instruction with sources s2 and s3. -/
def two (i : Ny → Instr) (t : Ty) (md : BitVec 6) (x y : Word) : Word :=
  (after (i (ny t md (sg 1) (sg 2) (sg 3))) (st (mtS [(2, x), (3, y)]))).sreg 1

theorem test_integer :
    two .iadd .s32 0 0x7FFFFFFF 1 = 0x80000000 ∧ two .isub .s16 0 0x00000000 0x00010001 = 0xFFFFFFFF ∧
    two .imulh .s32 0 0xFFFFFFFF 2 = 0xFFFFFFFF ∧ two .imulh .z32 0 0xFFFFFFFF 2 = 1 ∧
    two .iadds .s8 0 0x7F808080 0x01FF0102 = 0x7F808182 ∧ two .isubs .z8 0 0x00100000 0x01010001 = 0x000F0000 ∧
    two .imin .s32 0 0xFFFFFFFF 1 = 0xFFFFFFFF ∧ two .imin .z32 0 0xFFFFFFFF 1 = 1 ∧
    two .shl .b32 0 1 33 = 2 ∧ two .sar .s32 0 0x80000000 31 = 0xFFFFFFFF ∧
    two .rot .b32 0 0x80000001 1 = 3 ∧ two .andn .b32 0 0xFF 0x0F = 0xF0 := by decide

theorem test_float :
    two .fadd .f32 0 0x3F800000 0x33800000 = 0x3F800000 ∧
    two .fadd .f32 3 0x3F800000 0x33800000 = 0x3F800001 ∧
    two .fmul .f32 0 0x3FC00000 0x3FC00000 = 0x40100000 ∧
    two .fsub .f32 0 0x3F800000 0x3F800000 = 0 ∧
    two .fmin .f32 0 0x7FC00000 0x3F800000 = 0x3F800000 ∧
    two .fmul .bf16 0 0x3F803F80 0x40004040 = 0x40004040 ∧
    two .l6mul .l6 0 0x16161616 0x16361600 = 0x1C3C1C00 := by decide

/-- CVT of 100.0 to E4M3 writes the low byte and clears the others (R177). -/
theorem test_cvt : (after (.cvt (ny .e4m3 0 (sg 4) (sg 2) (.imm 9)))
    (st (mtS [(2, 0x42C80000), (4, 0xFFFFFFFF)]))).sreg 4 = 0x6C := by decide

/-- The compress example of R190. -/
theorem test_cmprs :
    let t := after (.cmprs (ny .bf16 0 (vr 20) (vr 10) .zero))
      (st (((mtS []).setV 10 0 0x4000BF00).setV 10 1 0xC0007FC0))
    t.vlane 20 0 = 0x7FC04000 ∧ t.vlane 20 1 = 0 ∧ t.vlane 21 0 = 0x33333336 ∧
      t.vlane 21 1 = 0x33333333 ∧ t.vlane 21 2 = 0 := by decide

/-- A guard that enables lane 1 alone leaves lane 0 (R123, R159). -/
theorem test_guard :
    let s := st (((mtS []).setP 3 2).setV 2 1 7)
    let t := after (.iadd { ny .s32 0 (vr 1) (vr 2) (.imm 1) with guard := ⟨false, 3⟩ }) s
    t.vlane 1 0 = 0 ∧ t.vlane 1 1 = 8 ∧ t.vlane 1 2 = 0 ∧ t.pc = 12 := by decide

/-- LOOP of a counter at 0 wraps and branches back to its own address (R194). -/
theorem test_loop :
    let t := after (.loop (ny .b32 0 (sg 1) (.imm 0) .zero)) (st (mtS []))
    t.sreg 1 = 0xFFFFFFFF ∧ t.pc = 0 := by decide

/-- LD of the last word of the scratchpad; past it, out of range; off a word, misaligned
(R204, R206). -/
theorem test_scratchpad :
    let s := (st (mtS [(1, 0x12345678), (2, 0x7FFFC)])).modCore 0 fun k => { k with
      scratch := Memory.write k.scratch 0x7FFFC (leBytes 4 0x9ABCDEF0) }
    (after (.ld (ny .b32 1 (sg 5) (sg 2) (.imm 0))) s).sreg 5 = 0x9ABCDEF0 ∧
    ((after (.ld (ny .b32 1 (sg 5) (sg 2) (.imm 4))) s).hold.map fun h => (h.1.code, h.1.detail)) =
      some (5, 0) ∧
    ((after (.st (ny .b32 1 (sg 5) (sg 2) (.imm (-2)))) s).hold.map fun h => h.1.code) =
      some 4 := by decide

/-- BRKP 7 holds the micro-thread with cause 0x11, its code, and the next instruction's pc (R199). -/
theorem test_brkp :
    ((after (.brkp (ny .b32 0 (.imm 7) .zero .zero)) (st (mtS []))).hold.map fun h =>
      (h.1.code, h.1.info, h.1.pc)) = some (0x11, 7, 12) := by decide

/-- An opcode of no instruction raises cause 1 (R119). -/
theorem test_unassigned :
    ((after (.unassignedOpcode (word 0x023 0 0 0 0 0)) (st (mtS []))).hold.map fun h =>
      (h.1.code, h.1.detail)) = some (1, 0) := by decide

/-- ATOM.add in the own scratchpad returns the old word (R219). -/
theorem test_atom :
    let s := (st (mtS [(2, 0x100)])).modCore 0 fun k => { k with
      scratch := Memory.write k.scratch 0x100 (leBytes 4 5) }
    (match exec (.atom (ny .s32 1 (sg 3) (sg 2) (.imm 1))) s with
    | .next t => ((t.mt 0 0).sreg 3, Memory.word (t.core 0).scratch 0x100)
    | _ => (0, 0)) = (5, 6) := by decide

/-- CSRW of ETICK and CSRR of RSN at its reset value (R284). -/
theorem test_state_registers :
    (after (.csrr (ny .b32 0 (sg 1) (.imm 2) .zero)) (st (mtS []))).sreg 1 = 4096 ∧
    (match exec (.csrw (ny .b32 0 (.imm 5) (sg 2) .zero)) (st (mtS [(2, 77)])) with
      | .next t => (t.core 0).etick
      | _ => 0) = 77 := by decide

/-- A rank sort of (0.5, -3.0, 1.0, 0.0) by magnitude: the entries of producer A in the example of
R278. -/
theorem test_rsort :
    let s := (st { mtS [(1, 0x200), (2, 0x100)] with rsn := 4 }).modCore 0 fun k => { k with
      scratch := Memory.write k.scratch 0x100
        ([0x3F000000, 0xC0400000, 0x3F800000, 0].flatMap (leBytes 4)) }
    (match exec (.rsort (ny .f32 1 (sg 1) (sg 2) (.imm 3))) s with
    | .next t => Memory.read (t.core 0).scratch 0x200 12
    | _ => []) = [0x01FD1001, 0x02030002, 0x02072000].flatMap (leBytes 4) := by decide

/-! ### Single steps of a control thread -/

/-- A control-thread register after an instruction, from registers x11 and x12. -/
def rv (op : Rv) (x y : DWord) : DWord :=
  let s := State.reset.modHart 0 fun h => (h.setReg 11 x).setReg 12 y
  match exec (.controlThreadRiscvInstruction (.full op 0)) s with
  | .next t => (t.hart 0).reg 10
  | _ => 0

/-- Results of the RISC-V manual: division by zero and overflow, high products, word forms. -/
theorem test_riscv :
    rv (.alu .div 10 11 12) 7 0 = 0xFFFFFFFFFFFFFFFF ∧ rv (.alu .rem 10 11 12) 7 0 = 7 ∧
    rv (.alu .div 10 11 12) 0x8000000000000000 0xFFFFFFFFFFFFFFFF = 0x8000000000000000 ∧
    rv (.alu .mulhu 10 11 12) 0xFFFFFFFFFFFFFFFF 2 = 1 ∧
    rv (.alu .addw 10 11 12) 0x7FFFFFFF 1 = 0xFFFFFFFF80000000 ∧
    rv (.alu .sh3add 10 11 12) 2 5 = 21 ∧ rv (.unary .rev8 10 11) 1 0 = 0x0100000000000000 ∧
    rv (.opImm .sltiu 10 11 0xFFF) 5 0 = 1 ∧ rv (.jal 10 8) 0 0 = 4 := by decide

/-- ECALL in machine mode: cause 11, mepc the pc, and MRET returns to it (R33). -/
theorem test_ecall :
    let s := State.reset.modHart 0 fun h => { h with pc := 0x100, mtvec := 0x2000 }
    (match exec (.controlThreadRiscvInstruction (.full .ecall 0)) s with
    | .next t => ((t.hart 0).pc, (t.hart 0).mepc, (t.hart 0).mcause)
    | _ => (0, 0, 0)) = (0x2000, 0x100, 11) := by decide

/-- MTSTAT shows micro-thread 0 as running and the others as idle (R39). -/
theorem test_mtstat : (match exec (.mtstat 10 0) (st (mtS [])) with
    | .next t => (t.hart 0).reg 10
    | _ => 0) = 2 := by decide

/-! ### States that meet the hypotheses of the statements

One theorem for each statement that has hypotheses; a statement of several clauses gets a state for
each of them, at an end of the range where there is one. -/

theorem actsOf {s : State} {i : Instr} {f : Ny} {vec : Bool}
    (h : (s.cur.gang = none ∧ s.cur.bound = none) ∧ (s.me f).acts vec = true ∧
      (match i.ny? with | some (op, g) => s.heldBack op g (s.me g) | none => false) = false) :
    s.Acts i f vec :=
  ⟨h.1, h.2.1, fun op g e => by simpa [e] using h.2.2⟩

theorem clearOf {s : State} {i : Instr}
    (h : (match i.ny? with | some (op, g) => s.heldBack op g (s.me g) | none => false) = false) :
    s.Clear i := fun op g e => by simpa [e] using h

theorem actsEach {s : State} {is : List Instr} {f : Ny} {vec : Bool}
    (h : (s.cur.gang = none ∧ s.cur.bound = none) ∧ (s.me f).acts vec = true ∧
      (is.all fun i => match i.ny? with
        | some (op, g) => !s.heldBack op g (s.me g)
        | none => false) = true) : ∀ i ∈ is, s.Acts i f vec :=
  fun i hi => ⟨h.1, h.2.1, fun op g e => by simpa [e] using List.all_eq_true.mp h.2.2 i hi⟩

theorem okPair {α β ε : Type} {e : Except ε (α × β)}
    (h : (match e with | .ok _ => true | .error _ => false) = true) : ∃ a b, e = .ok (a, b) := by
  cases e with
  | ok p => exact ⟨p.1, p.2, rfl⟩
  | error _ => cases h

/-- A running micro-thread of a core in a launch, with no register written. -/
def w0 : State := st (mtS [])
/-- Fields of scalar registers s1, s2, s3. -/
def f3 (t : Ty) : Ny := ny t 0 (sg 1) (sg 2) (sg 3)
/-- With a HANDLE or IMM operand in B. -/
def fb (b : Operand) : Ny := ny .b32 0 (sg 1) b (sg 3)

/-- The package with a micro-thread and other contents of core 0. -/
def stk (t : Mt) (g : Core → Core) : State := (st t).modCore 0 g

theorem wit_ElementResults :
    w0.Acts (.iadd (f3 .s32)) (f3 .s32) (f3 .s32).vec ∧ w0.Acts (.iabs (f3 .s32)) (f3 .s32) (f3 .s32).vec ∧
    w0.Acts (.imad (f3 .s32)) (f3 .s32) (f3 .s32).vec ∧
    (∃ g, (Instr.iadd (f3 .s32), g) ∈ twoOperandTable (f3 .s32) 2) ∧
    (∃ g, (Instr.iabs (f3 .s32), g) ∈ oneOperandTable (f3 .s32) 2) ∧
    (∃ g, (Instr.imad (f3 .s32), g) ∈ threeOperandTable (f3 .s32)) ∧
    (∃ r, w0.src2 (w0.me (f3 .s32)) .s32 (sg 2) (sg 3) false = .ok r) ∧
    (∃ r, w0.src (w0.me (f3 .s32)) .s32 false (sg 2) = .ok r) := by
  refine ⟨actsOf (by decide), actsOf (by decide), actsOf (by decide), ⟨_, List.mem_cons_self⟩,
    ⟨_, List.mem_cons_self⟩, ⟨_, List.mem_cons_of_mem _ List.mem_cons_self⟩, ⟨_, rfl⟩, ⟨_, rfl⟩⟩

theorem wit_WordResults :
    w0.Acts (.and (f3 .f32)) (f3 .f32) (f3 .f32).vec ∧ w0.Acts (.bfx (f3 .f32)) (f3 .f32) (f3 .f32).vec ∧
    w0.Acts (.not (f3 .f32)) (f3 .f32) (f3 .f32).vec ∧ w0.Acts (.icmp (f3 .f32)) (f3 .f32) (f3 .f32).vec ∧
    (let g := ny .f32 0 (.special 1) (sg 2) (sg 3)
     w0.Acts (.icmp g) g g.vec) ∧
    (∃ g, (Instr.and (f3 .f32), g) ∈ wordTable (f3 .f32)) ∧
    (∃ p, (Instr.bfx (f3 .f32), p) ∈ controlTable (f3 .f32) 2) ∧
    (∃ g, (Instr.icmp (f3 .f32), g) ∈ compareTable (f3 .f32)) ∧
    (∃ r, w0.src2 (w0.me (f3 .f32)) .f32 (sg 2) (sg 3) true = .ok r) := by
  refine ⟨actsOf (by decide), actsOf (by decide), actsOf (by decide), actsOf (by decide),
    actsOf (by decide), ⟨_, List.mem_cons_self⟩, ⟨_, List.mem_cons_self⟩, ⟨_, List.mem_cons_self⟩,
    ⟨_, rfl⟩⟩

theorem wit_PredicateLogic :
    let f := ny .b32 0 (.special 14) (.special 2) (.special 3)
    w0.Acts (.pand f) f true ∧ (∃ g, (Instr.pand f, g) ∈ predTable f) ∧ (Instr.pand f).wf = true :=
  ⟨actsOf (by decide), ⟨_, List.mem_cons_self⟩, by decide⟩

theorem wit_Conversions :
    w0.Acts (.cvt (fb (sg 2))) (fb (sg 2)) (fb (sg 2)).vec ∧
    (∃ r, w0.src (w0.me (fb (sg 2))) .f32 false (sg 2) = .ok r) ∧
    (let g := ny .s8 0 (vr 63) (vr 2) (sg 31)
     w0.Acts (.qnt g) g false ∧ w0.Acts (.dqnt g) g g.vec) := by
  refine ⟨actsOf (by decide), ⟨_, rfl⟩, actsOf (by decide), actsOf (by decide)⟩

/-- Core 0 with role 255 bound to itself. -/
def wRole : State := stk (mtS []) fun k => { k with bindtab := [(255, 0x90000000)] }

theorem wit_MovesAndAddresses :
    let f (a : Operand) := ny .b32 0 a (sg 2) .zero
    (w0.Acts (.mov (f (.nwin 0 2047))) (f (.nwin 0 2047)) (movVec (f (.nwin 0 2047))) ∧
      ∀ l ∈ sigLanes (f (.nwin 0 2047)) (w0.me (f (.nwin 0 2047))), 2047 + l ≤ 2047) ∧
    (wRole.Acts (.mov (f (.role 255 2047))) (f (.role 255 2047)) (movVec (f (.role 255 2047))) ∧
      wRole.resolve 0 255 = .ok (.core 0) ∧ (Target.core 0).coreOf.isSome = true) ∧
    w0.Acts (.mov (f (.special 14))) (f (.special 14)) (movVec (f (.special 14))) ∧
    w0.Acts (.mov (f (sg 31))) (f (sg 31)) (movVec (f (sg 31))) ∧
    w0.Acts (.lea (f (sg 31))) (f (sg 31)) (f (sg 31)).vec ∧
    ((f (sg 1)).virt = false ∧ (ny .b32 5 (sg 2) (sg 4) (sg 3)).virt = true) := by
  refine ⟨⟨actsOf (by decide), by decide⟩, ⟨actsOf (by decide), rfl, rfl⟩, actsOf (by decide),
    actsOf (by decide), actsOf (by decide), by decide, by decide⟩

theorem wit_LanesAndCompression :
    let f := ny .s32 0 (vr 62) (vr 2) (vr 3)
    w0.Acts (.shuf f) f f.vec ∧ w0.Acts (.cmprs f) f false ∧ (∃ r, w0.src (w0.me f) .s32 true (vr 3) = .ok r) ∧
    (∃ r, w0.src (w0.me f) .s32 false (vr 2) = .ok r) :=
  ⟨actsOf (by decide), actsOf (by decide), ⟨_, rfl⟩, ⟨_, rfl⟩⟩

theorem wit_Branches :
    (let g := ny .b32 0 (.imm 1) (sg 2) .zero
     w0.Acts (.bra g) g false ∧ w0.Acts (.brx g) g false ∧ w0.Acts (.loop g) g false) ∧
    w0.branchHolds (ny .b32 0 (.imm 1) (sg 2) .zero) = true ∧
    w0.branchHolds (ny .b32 0 (.imm 0) (sg 2) .zero) = false ∧ w0.cur.mayJump 12 = true ∧
    (State.cur (st { mtS [] with block := some ⟨0, [0], none⟩ })).mayJump 12 = false :=
  ⟨⟨actsOf (by decide), actsOf (by decide), actsOf (by decide)⟩, by decide, by decide, by decide,
    by decide⟩

theorem wit_ControlInstructions :
    let f := ny .b32 0 (.imm 64) (.imm 0) .zero
    (w0.Acts (.yield f) f false ∧ w0.Acts (.stop f) f false ∧ w0.Acts (.ctsig f) f false ∧
      w0.Acts (.ctwait f) f false ∧ w0.Acts (.rep f) f false) ∧ w0.Runs 0 0 ∧ w0.cur.hold = none ∧ w0.cur.repcnt ≤ 1 ∧
    repCheck (repRun f) ((st { mtS [] with block := some ⟨0, [0, 0], none⟩ }).wordAfter 0 0) =
      .ok () ∧
    (st { mtS [] with block := some ⟨0, [0, 0], none⟩ }).Runs 0 0 ∧
    (st { mtS [] with rel := true }).cur.rel = true ∧ w0.cur.rel = false := by
  refine ⟨⟨actsOf (by decide), actsOf (by decide), actsOf (by decide), actsOf (by decide),
    actsOf (by decide)⟩, ⟨rfl, rfl, trivial⟩, rfl, by decide, rfl, ⟨rfl, rfl, rfl⟩, rfl, rfl⟩

theorem wit_Continuation :
    let f := ny .b32 0 (.imm 8) .zero .zero
    let s := st { mtS [] with block := some ⟨0, [0, 0], none⟩ }
    s.Acts (.bfetch f) f false ∧ s.Runs 0 0 ∧ s.cur.repcnt ≤ 1 ∧ s.cur.block.isSome = true ∧
    w0.Acts (.bfetch f) f false ∧ w0.cur.block = none := by
  refine ⟨actsOf (by decide), ⟨rfl, rfl, rfl⟩, by decide, rfl, actsOf (by decide), rfl⟩

theorem wit_LinkChannels :
    let f := ny .b32 0 (sg 1) (.special 39) .zero
    let s := stk (mtS []) fun k => { k with links := [(15, [[], [], [], []])] }
    w0.Acts (.lnkr f) f false ∧ w0.Acts (.lnkw f) f false ∧ Cells.look [] (w0.core 0).links (linkNo f.b) = [] ∧
    (s.Acts (.lnkr f) f false ∧ s.Acts (.lnkw f) f false ∧ Cells.look [] (s.core 0).links (linkNo f.b) = [[], [], [], []] ∧
      s.lowerWaits (s.me f) (s.readsLink (linkNo f.b)) = false) ∧
    (let u := { stk { mtS [] with st := .waiting, blocked := some (.lnkr f) } fun k => { k with
        links := [(15, [[]])], mts := k.mts.upd 1 (mtS []) } with curMt := 1 }
     u.Acts (.lnkr f) f false ∧ u.lowerWaits (u.me f) (u.readsLink (linkNo f.b)) = true) := by
  refine ⟨actsOf (by decide), actsOf (by decide), rfl,
    ⟨actsOf (by decide), actsOf (by decide), rfl, by decide⟩, actsOf (by decide), by decide⟩

theorem wit_SoftwareTraps :
    let f := ny .b32 0 (.imm 65535) .zero .zero
    w0.Acts (.trap f) f false ∧ w0.Acts (.brkp f) f false ∧ (w0.mt 0 15).gang = none :=
  ⟨actsOf (by decide), actsOf (by decide), rfl⟩

theorem wit_Gangs :
    let f := ny .b32 0 (.special 1) (.imm 2) .zero
    let s := w0.modCore 1 fun k => { k with launch := some 0 }
    let g := { (mtS []) with gang := some (.leader [0, 1]) }
    s.Acts (.gang f) f false ∧ s.gangOk 0 0 (gangCores 0 2) = true ∧ w0.gangOk 0 0 (gangCores 0 2) = false ∧
    ((st g).cur.gang = some (.leader [0, 1]) ∧ (st g).deadline 0 [0, 1] = none ∧ 0 ∈ [0, 1] ∧
      [0, 1].Nodup ∧ ((st g).me f).on 0 = true ∧
      ∀ x ∈ [0, 1], (st g).heldBack 0x18E f ((st g).who 0 [0, 1] f.guard x) = false) := by
  refine ⟨actsOf (by decide), by decide, by decide, rfl, rfl, by decide, by decide, by decide, by decide⟩

/-- Core 0 leads micro-thread 0 of core 1, with other register values there. -/
def wGang : State :=
  (st { mtS [(2, 1), (3, 2)] with gang := some (.leader [0, 1]) }).modMt 1 0 fun _ =>
    { mtS [(2, 3), (3, 4)] with gang := some (.follower 0) }

theorem wit_GangResults :
    let f := f3 .s32
    (Instr.iadd f).ny? = some (0x003, f) ∧ wGang.cur.gang = some (.leader [0, 1]) ∧ [0, 1].Nodup ∧
    wGang.curCore ∈ [0, 1] ∧ wGang.deadline 0 [0, 1] = none ∧
    (∀ x ∈ [0, 1], (wGang.mt x 0).guardMask ⟨true, 15⟩ = 0) ∧
    (∀ x ∈ [0, 1], (wGang.core x).nbv.toNat = 2) ∧
    (∀ x ∈ [0, 1], wGang.heldBack 3 f (wGang.who 0 [0, 1] f.guard x) = false) ∧
    (∀ q, f.b ≠ .stream q ∧ f.c ≠ .stream q) :=
  ⟨rfl, rfl, by decide, by decide, rfl, by decide, by decide, by decide, fun _ => ⟨nofun, nofun⟩⟩

/-- R54: IADD of a leader adds in each member's own registers. -/
theorem test_gang_iadd : (match exec (.iadd (f3 .s32)) wGang with
    | .next t => ((t.mt 0 0).sreg 1, (t.mt 1 0).sreg 1)
    | _ => (0, 0)) = (3, 7) := by decide

theorem wit_TimeAndDeadlines :
    let f := ny .b32 0 (.imm 0) .zero .zero
    let g := ny .b32 0 (.special 14) (sg 1) .zero
    let b := { (mtS []) with blocked := some (.sleep f), tdead := 0 }
    let d := { (mtS []) with bound := some 14, tdead := 0 }
    (w0.Acts (.sleep f) f false ∧ w0.cur.blocked = none) ∧
    (∀ a ∈ [vr 63, sg 31], w0.Acts (.time (ny .b32 0 a .zero .zero)) (ny .b32 0 a .zero .zero) false) ∧
    w0.Acts (.twait g) g false ∧
    ((st b).Acts (.sleep f) f false ∧ (st b).cur.blocked = some (.sleep f) ∧
      (st b).cur.tdead ≤ (st b).now) ∧
    ((st d).cur.gang = none ∧ (st d).cur.bound = some 14 ∧ ((st d).me f).on 0 = true ∧
      (st d).Clear (.ctwait f) ∧ (st d).cur.rel = false ∧ (st d).cur.tdead ≤ (st d).now ∧
      (st { d with rel := true }).cur.rel = true ∧
      (st { d with tdead := 1 }).now < (st { d with tdead := 1 }).cur.tdead) := by
  refine ⟨⟨actsOf (by decide), rfl⟩, ?_, actsOf (by decide), ⟨actsOf (by decide), rfl, by decide⟩,
    rfl, rfl, by decide, clearOf (by decide), rfl, by decide, rfl, by decide⟩
  intro a ha
  simp only [List.mem_cons, List.not_mem_nil, or_false] at ha
  obtain rfl | rfl := ha <;> exact actsOf (by decide)

/-- s2 holds the last word's offset of the scratchpad. -/
def wMem : State := st (mtS [(2, 0x7FFFC), (3, 0x80000), (4, 2)])

theorem wit_LoadsAndStores :
    let f := ny .b32 1 (sg 1) (sg 2) (.imm 0)
    let x := ny .b32 1 (vr 1) (vr 2) (sg 3)
    (∀ i ∈ [Instr.ld f, .st f], wMem.Acts i f f.vec) ∧
    (∃ as s1 s2 s3, wMem.ldAccess (wMem.me f) f .read f.b f.c f.vec = .ok as ∧
      wMem.handleWait (wMem.me f) f.b f.spc = .ok s1 ∧ s1.poisonOf as = .ok () ∧
      s1.registerAll (wMem.me f) f.spc 4 false false as = .ok s2 ∧
      (as.all fun a => !s2.rmwAhead 0 a.loc 4) = true ∧ s2.passChannels as = .ok s3) ∧
    (∃ as s1 s2 s3, wMem.ldAccess (wMem.me f) f .write f.b f.c f.vec = .ok as ∧
      wMem.handleWait (wMem.me f) f.b f.spc = .ok s1 ∧
      s1.registerAll (wMem.me f) f.spc 4 true false as = .ok s2 ∧ s2.passChannels as = .ok s3 ∧
      s3.doorbellCheck (wMem.me f) as = .ok ()) ∧
    (∀ i ∈ [Instr.ldx x, .stx x], w0.Acts i x x.vec) ∧
    (∃ as s2 s3, w0.checkAddrs 0 1 .read (w0.ldxAddrs (w0.me x) x (w0.me x).lanes) = .ok as ∧
      w0.poisonOf as = .ok () ∧ w0.registerAll (w0.me x) 1 4 false false as = .ok s2 ∧
      (as.all fun a => !s2.rmwAhead 0 a.loc 4) = true ∧ s2.passChannels as = .ok s3) ∧
    (∃ as s2 s3, w0.checkAddrs 0 1 .write (w0.ldxAddrs (w0.me x) x (w0.me x).lanes) = .ok as ∧
      w0.registerAll (w0.me x) 1 4 true false as = .ok s2 ∧ s2.passChannels as = .ok s3 ∧
      s3.doorbellCheck (w0.me x) as = .ok ()) ∧
    (let n := ny .z4 2 (sg 1) (sg 2) (sg 5)
     wMem.Acts (.stsb n) n n.vec ∧ (n.virt && !canonical (wMem.basePair (wMem.me n) n.b)) = false ∧
     ∃ ns s1, wMem.nibbles 0 2 [(0, 2 * 0x7FFFC)] = .ok ns ∧ wMem.registerAll (wMem.me n) 2 1 true true
       (ns.map fun n => ⟨n.lane, n.va, n.loc⟩) = .ok s1 ∧
       s1.doorbellCheck (wMem.me n) (ns.map fun n => ⟨n.lane, n.va, n.loc⟩) = .ok ()) := by
  refine ⟨actsEach (by decide), ⟨_, _, _, _, rfl, rfl, rfl, rfl, rfl, rfl⟩,
    ⟨_, _, _, _, rfl, rfl, rfl, rfl, rfl⟩, actsEach (by decide), ⟨_, _, _, rfl, rfl, rfl, rfl, rfl⟩,
    ⟨_, _, _, rfl, rfl, rfl, rfl⟩, actsOf (by decide), rfl, _, _, rfl, rfl, rfl⟩

/-- The word at the end of the space, the address past it, and one off a word. -/
theorem wit_ScratchpadWord :
    let f (b : BitVec 5) := ny .b32 1 (sg 1) (sg b) (.imm 0)
    (∀ i ∈ [Instr.ld (f 2), .st (f 2)], wMem.Acts i (f 2) false) ∧ (f 2).spc = 1 ∧ wMem.Runs 0 0 ∧
    wMem.cur.repcnt ≤ 1 ∧ wMem.poison = [] ∧ Memory.wf (wMem.core 0).scratch = true ∧
    (wMem.core 0).lateStores = [] ∧ (wMem.core 0).earlyLoads = [] ∧
    (wMem.cur.sreg 2).toNat % 4 = 0 ∧
    (wMem.cur.sreg 2).toNat < 0x80000 ∧ (wMem.cur.sreg 3).toNat % 4 = 0 ∧
    ¬(wMem.cur.sreg 3).toNat < 0x80000 ∧ (wMem.cur.sreg 4).toNat % 4 ≠ 0 := by
  refine ⟨actsEach (by decide), by decide, ⟨rfl, rfl, trivial⟩, by decide, rfl, rfl, rfl, rfl, by decide,
    by decide, by decide, by decide, by decide⟩

/-- Full bits of the first window word and the last mailbox word; role 255 names the core. -/
def wFull : State := stk (mtS [(2, 0x7A000), (3, 1), (4, 0x7FFFC)]) fun k =>
  { k with winFull := [(0, true)], mboxFull := [(2047, true)], bindtab := [(255, 0x90000000)] }

theorem wit_FullBits :
    let f := ny .b32 1 (sg 1) (sg 2) .zero
    let g := ny .b32 1 (.role 255 2047) .zero (sg 3)
    let h := ny .b32 1 (sg 4) .zero (sg 3)
    (wFull.Acts (.ldf f) f f.vec ∧ wFull.fullWords (wFull.me f) f.b f.c [0] = .ok (.window [(0, 0)]) ∧
      (wFull.core 0).isFull (.window [(0, 0)]) = true ∧
      (wFull.settle 0 0).poisonOf ((FullSet.window [(0, 0)]).accesses 0) = .ok () ∧
      (w0.core 0).isFull (.window [(0, 0)]) = false) ∧
    (wFull.Acts (.fbclr g) g false ∧
      wFull.fullWords (wFull.me g) g.a g.b [0] = .ok (.mailbox [(0, 2047)]) ∧
      (wFull.scalar (wFull.me g) g.c).toNat = 1) ∧
    (wFull.Acts (.fbclr h) h false ∧
      wFull.fullWords (wFull.me h) h.a h.b [0] = .ok (.window [(0, 6143)]) ∧
      (6143 + 1 - 1) / 2048 = 6143 / 2048) := by
  refine ⟨⟨actsOf (by decide), rfl, by decide, rfl, by decide⟩, ⟨actsOf (by decide), rfl, by decide⟩,
    actsOf (by decide), rfl, by decide⟩

/-- Handle h1 bound to a queue of one slot in the scratchpad, empty or full. -/
def wQueue (prod : Bool) (filled : Word) : State :=
  { stk { mtS [(2, 0x40), (4, 1), (5, 0x100000)] with
        h := [(1, ⟨64, 64, prod, 1, 0, 1, 32, none⟩)] } (fun k => k) with
    qhomes := [(64, ⟨1, 0, filled, 0, 1, 1⟩)], dram := [(70, 1)] }

theorem wit_CacheHints :
    let f (w : BitVec 6) := ny .b32 1 .zero (.handle 1 w 0) .zero
    let o := ny .b32 1 .zero (.handle 1 1 1) .zero
    let g := ny .b32 4 .zero (sg 2) (sg 4)
    let s := wQueue false 1
    s.Acts (.pref (f 1)) (f 1) false ∧
    (∃ x q, s.useHandle (s.me (f 1)) 1 1 = .ok (x, q) ∧ 0 * 32 + 4 ≤ x.slot ∧ x.ready q 1 = true) ∧
    (s.Acts (.pref o) o false ∧ ∃ x q, s.useHandle (s.me o) 1 1 = .ok (x, q) ∧ x.slot < 1 * 32 + 4) ∧
    (∃ x q, (wQueue false 0).useHandle ((wQueue false 0).me (f 1)) 1 1 = .ok (x, q) ∧
      x.ready q 1 = false) ∧
    ((∀ i ∈ [Instr.pref g, .wback g, .inval g], s.Acts i g false) ∧
      (s.scalar (s.me g) g.c).toNat = 1 ∧
      (s.scalar (s.me g) (sg 5)).toNat = 1048576 ∧ canonical (s.basePair (s.me g) g.b) = true ∧
      s.untranslated 0 (s.basePair (s.me g) g.b) ((64 + 1 + 4095) / 4096) = none) := by
  refine ⟨actsOf (by decide), ⟨_, _, rfl, by decide, by decide⟩,
    ⟨actsOf (by decide), _, _, rfl, by decide⟩, ⟨_, _, rfl, by decide⟩, actsEach (by decide),
    by decide, by decide, by decide, rfl⟩

theorem wit_HandlesAndStreams :
    let f := ny .b32 0 (.handle 1 0 0) (sg 2) (.imm 1)
    let g := ny .b32 0 (.stream 7) .zero .zero
    let h := ny .b32 0 (.handle 7 0 0) .zero .zero
    let s := { wQueue false 0 with qhomes := [] }
    let p := s.basePair (s.me f) f.b
    s.Acts (.hbind f) f false ∧ canonical p = true ∧ p.toNat % 64 = 0 ∧
    s.virtLoc 0 4 .read p 0 = .ok (.dram 64) ∧ s.poisoned (.dram 64) = false ∧
    (∃ q, s.readQcb 0 64 = some (64, q) ∧ q.spc = 1) ∧ s.mayBind 0 1 64 (s.qhome 64) = true ∧
    ((s.qhome 64).isNone && decide (homeCap 1 ≤ s.homeLoad 0 1 64)) = false ∧
    (∃ s1 s2, s.registerAll (s.me f) 4 64 false false [⟨0, p, .dram 64⟩] = .ok s1 ∧
      s1.passChannels [⟨0, p, .dram 64⟩] = .ok s2) ∧
    (∀ i ∈ [Instr.qbind g, .qdrop g], w0.Acts i g false) ∧ w0.Acts (.qdrop h) h false := by
  refine ⟨actsOf (by decide), by decide, by decide, rfl, by decide, ⟨_, rfl, rfl⟩, by decide,
    by decide, ⟨_, _, rfl, rfl⟩, actsEach (by decide), actsOf (by decide)⟩

/-- One slot free for a producer, none; one filled for a consumer, none. -/
theorem wit_QueuePointers :
    let f := ny .b32 0 (.handle 1 0 0) (sg 4) .zero
    (wQueue true 0).Acts (.advp f) f false ∧ (wQueue false 1).Acts (.advc f) f false ∧
    (wQueue true 0).scalar ((wQueue true 0).me f) f.b = 1 ∧
    (let u := (wQueue true 0).modCore 0 fun k => { k with pair := some ⟨0, false, 8, 0⟩ }
     let v := { u with qhomes := [(64, ⟨3, 0, 0, 0, 1, 1⟩)] }
     v.Acts (.advp f) f false ∧ (v.core 0).pair.isSome = true ∧ ∃ q, v.qhome 64 = some q ∧ 3 ≤ q.spc) ∧
    (let u := (wQueue true 0).modCore 0 fun k => { k with answers := [(5, 0)] }
     let v := u.modMt 0 0 fun t => { t with asked := [(0, 5)] }
     v.Acts (.advp f) f false ∧ ∃ t old, v.answered (v.me f) = some (.ok (t, old)) ∧ laneOf old 0 = 0) ∧
    (∀ p w, (wQueue p w).cur.asked = [] ∧ ((wQueue p w).core 0).pair = none) ∧
    (∀ p w, ∃ x q, (wQueue p w).cur.handle (handleNo f.a) = some x ∧
      (wQueue p w).qhome x.key = some q ∧ x.prod = p ∧ q.filled = w.toNat ∧ q.nslot = 1) := by
  refine ⟨actsOf (by decide), actsOf (by decide), by decide,
    ⟨actsOf (by decide), by decide, _, rfl, by decide⟩, ⟨actsOf (by decide), _, _, rfl, by decide⟩,
    fun _ _ => ⟨rfl, rfl⟩,
    fun p w => ⟨_, _, rfl, rfl, rfl, ?_, rfl⟩⟩
  simp [QHome.filled]

theorem wit_Atomics :
    let f := ny .s32 1 (sg 1) (sg 2) (sg 3)
    let r := { ny .s32 4 (sg 1) (sg 4) .zero with md := 4 }
    (∀ i ∈ [Instr.atom f, .cas f, .atred f], wMem.Acts i f f.vec) ∧
    (∃ s1 as s3, wMem.atomCheck (wMem.me f) f = .ok (s1, as) ∧ s1.passChannels as = .ok s3 ∧
      s3.doorbellCheck (wMem.me f) as = .ok () ∧ ∃ v, s1.src (wMem.me f) .s32 false f.c = .ok (s1, v)) ∧
    wMem.cur.asked = [] ∧ (wMem.core 0).lateStores = [] ∧
    (wMem.core 0).pair = none ∧ wMem.unackedRemote (wMem.me f).agent = false ∧
    (∃ v, wMem.src (wMem.me f) .s32 false f.c = .ok (wMem, v)) ∧
    wMem.Runs 0 0 ∧ wMem.cur.repcnt ≤ 1 ∧ f.aop < 7 ∧ (Operand.qual f.a).toNat / 4 ≠ 4 ∧
    (wMem.cur.sreg 2).toNat % 4 = 0 ∧ (wMem.cur.sreg 2).toNat < 0x80000 ∧
    w0.Acts (.atred r) r r.vec := by
  refine ⟨actsEach (by decide), ⟨_, _, _, rfl, rfl, rfl, _, rfl⟩, rfl, rfl, rfl, by decide, ⟨_, rfl⟩, ⟨rfl, rfl, trivial⟩,
    by decide, by decide, by decide, by decide, by decide, actsOf (by decide)⟩

/-- Arrival counts 0, 1, 65,535 and 65,536; a barrier with a phase under way for another K. -/
theorem wit_FencesAndBarriers :
    let f (k : BitVec 5) := ny .b32 0 (.imm 15) (sg k) .zero
    let g (scope : BitVec 6) := ny .b32 scope .zero .zero .zero
    let s := st (mtS [(1, 1), (2, 65535), (3, 65536), (4, 0)])
    let key := s.barKey 0 0 15
    let a := st { mtS [] with arrived := some (key, 0), bph := [(15, (key, 0))] }
    let b := { s with barriers := [⟨key, 0, 1, some 3, []⟩] }
    (∀ i ∈ [Instr.acq (g 4), .fence (g 4), .rel (g 4)], s.Acts i (g 4) false) ∧
    (∀ i ∈ [Instr.bar (f 1), .bara (f 1), .barw (f 1)], s.Acts i (f 1) false) ∧
    s.cur.arrived = none ∧ s.cur.bph.get? (bphIdx (f 1)) = none ∧
    (∃ r, s.arrive (s.me (f 1)) 0 15 1 = .ok r) ∧
    ((∀ i ∈ [Instr.bar (f 1), .barw (f 1)], a.Acts i (f 1) false) ∧
      a.cur.arrived = some (key, 0) ∧ a.cur.bph.get? (bphIdx (f 1)) = some (key, 0)) ∧
    s.barPending = [] ∧ (s.scalar (s.me (f 1)) (f 1).b = 1 ∧ s.scalar (s.me (f 2)) (f 2).b = 65535 ∧
      s.scalar (s.me (f 3)) (f 3).b = 65536 ∧ s.scalar (s.me (f 4)) (f 4).b = 0) ∧
    (s.barrier key).k = none ∧ (b.Acts (.bara (f 2)) (f 2) false ∧ (b.barrier key).k = some 3 ∧
      (b.barrier key).count < 3) := by
  refine ⟨actsEach (by decide), actsEach (by decide), rfl, rfl, ⟨_, rfl⟩,
    ⟨actsEach (by decide), rfl, rfl⟩, rfl, by decide, rfl, actsOf (by decide), rfl, by decide⟩

def oneRec : InboxRec := ⟨0, 0, 0, 0, 0, 7⟩

theorem wit_CountersAndInbox :
    let f := ny .b32 1 (sg 4) (sg 2) .zero
    let g := ny .b32 0 (vr 1) .zero .zero
    (∀ i ∈ [Instr.cwait f, .cadd f], w0.Acts i f false) ∧
    (∃ q s1, w0.counterPlace (w0.me f) f .read = .ok q ∧
      w0.counterPoison q = .ok () ∧ w0.registerAll (w0.me f) 1 8 false false [q] = .ok s1 ∧
      ∃ s2, s1.passChannels [q] = .ok s2) ∧
    (∃ q s1 s2, w0.counterPlace (w0.me f) f .write = .ok q ∧ w0.counterPoison q = .ok () ∧
      w0.registerAll (w0.me f) 1 8 true true [q] = .ok s1 ∧ s1.passChannels [q] = .ok s2 ∧
      s2.doorbellCheck (w0.me f) [q] = .ok () ∧
      (((s2.doorbell (w0.me f) [q]).padOrderAll (w0.me f) 1 [q]).core 0).pair = none ∧
      ((s2.doorbell (w0.me f) [q]).padOrderAll (w0.me f) 1 [q]).fencedPlace 0 q.loc = false) ∧
    ((∀ i ∈ [Instr.inbx g, .inbp g], w0.Acts i g g.vec) ∧ (w0.core 0).takeRec none = none) ∧
    (let s := stk (mtS []) fun k => { k with inbox := [oneRec] }
     s.Acts (.inbx g) g g.vec ∧ ∃ r k, (s.core 0).takeRec (some 7) = some (r, k)) := by
  refine ⟨actsEach (by decide), ⟨_, _, rfl, rfl, rfl, _, rfl⟩, ⟨_, _, _, rfl, rfl, rfl, rfl, rfl, rfl, rfl⟩,
    ⟨actsEach (by decide), rfl⟩, actsOf (by decide), _, _, rfl⟩

/-- A node slot in use: running, of one slice, with core 0 its one core and ten work items. -/
def aNode (s : NodeSt) : Node :=
  { st := s, counter := 0, level := 0, since := 0, recAddr := 0, ctx := 0, succ := [], cmpl := 0
    child := none, entry := 0, coop := false, paired := false, nbv := 2, slices := 1
    allot := [], count := [1, 0, 0, 0], bindtab := 0, actors := 0, args := 0, btstr := 0, atstr := 0
    items := 10, cores := [0], twins := [], pairIds := [], tickets := [(0, 0, 10)], status := 0, sweptAt := 0
    sweep := none, stuck := false }

/-- Die 0 with that node in slot 0. -/
def wNode (s : State) (x : Node) : State := s.modDie 0 fun d => { d with nodes := [(0, x)] }

/-- k of 0, 1, 64 and 65; a permission that is withdrawn, and one that is not. -/
theorem wit_TicketsAndRoles :
    let f (k : BitVec 5) := ny .b32 0 (sg 1) (sg k) .zero
    let s := wNode (st (mtS [(1, 1), (2, 64), (3, 65), (4, 0), (5, 255)])) (aNode .running)
    let p := s.modCore 0 fun k => { k with pwrreq := 0x105 }
    s.Acts (.ticket (f 1)) (f 1) false ∧ (s.scalar (s.me (f 1)) (sg 1) = 1 ∧ s.scalar (s.me (f 1)) (sg 2) = 64 ∧
      s.scalar (s.me (f 1)) (sg 3) = 65 ∧ s.scalar (s.me (f 1)) (sg 4) = 0) ∧
    (s.core 0).pair = none ∧ (s.core 0).launch = some 0 ∧ s.node? 0 = some (aNode .running) ∧
    (s.core 0).pwrreq.getLsbD 8 = false ∧ Cells.look (0, 0) (aNode .running).tickets 0 = (0, 10) ∧
    (p.Acts (.ticket (f 1)) (f 1) false ∧ p.node? 0 = some (aNode .running) ∧
      (p.core 0).pwrreq.getLsbD 8 = true) ∧
    (s.Acts (.roleq (f 5)) (f 5) (f 5).vec ∧ ∀ l ∈ accLanes (f 5).vec (s.me (f 5)),
      (s.srcLane (s.me (f 5)) .b32 true (f 5).b l).toNat ≤ 255) := by
  refine ⟨actsOf (by decide), by decide, rfl, rfl, rfl, by decide, rfl,
    ⟨actsOf (by decide), rfl, by decide⟩, actsOf (by decide), by decide⟩

/-- An empty matrix queue and a full one; offsets and layout words that pass. -/
theorem wit_MatrixInstructions :
    let f := ny .bf16 0 (.special 23) (sg 2) .zero
    let s := st (mtS [(2, 0x76000)])
    let o : MxOp := ⟨.zero, 0, 0, 0, none, false, false, 2, 0⟩
    let q := s.modCore 0 fun k => { k with mx := { k.mx with queue := List.replicate 16 o } }
    (∀ i ∈ [Instr.mzero f, .mfill f, .mdrain f, .chbeg f, .chend f, .spfence f, .mma f, .mmas f],
      s.Acts i f false) ∧ (s.core 0).mx.queue.length < 16 ∧ (s.core 0).mx.chain = none ∧
    (s.scalar (s.me f) f.b).toNat % 32 = 0 ∧ (s.scalar (s.me f) f.b).toNat + 16384 ≤ 0x7A000 ∧
    ((∀ i ∈ [Instr.mzero f, .mfill f], q.Acts i f false) ∧ 16 ≤ (q.core 0).mx.queue.length) ∧
    (let h (m : Nat) := s.modCore 0 fun k => { k with mx := { k.mx with chain := some ⟨m, 0, true, false, []⟩ } }
     ((h 0).Acts (.mma f) f false ∧ (h 0).curMt = 0) ∧ ((h 1).Acts (.chbeg f) f false ∧ (h 1).curMt ≠ 1)) ∧
    layOk .bf16 0 true = true ∧ layOk .bf16 0 false = true ∧
    layBase 0 + operandBytes .bf16 true ≤ 0x7A000 ∧ layBase 0 + tileBytes .bf16 ≤ 0x7A000 := by
  refine ⟨actsEach (by decide), by decide, rfl, by decide, by decide,
    ⟨actsEach (by decide), by decide⟩, ⟨⟨actsOf (by decide), rfl⟩, actsOf (by decide), by decide⟩,
    by decide, by decide, by decide, by decide⟩

/-- Core 0 with a copy request at offset 0 (its space to its space, FILL 1), role 255 naming itself,
and banks 1 and 2 in neuron and in rank mode. -/
def wEng : State := stk (mtS [(3, 1), (4, 0x1000)]) fun k => { k with
  scratch := [(0, 0x20), (1, 0x11), (14, 1), (0x3010, 255)], bindtab := [(255, 0x90000000)]
  banks := [(1, { Bank.init with modew := 1 }), (2, { Bank.init with modew := 2 })] }

theorem wit_CopyIssue :
    let f := ny .b32 0 (sg 2) (.stream 7) .zero
    let g := ny .b32 0 (sg 2) .zero .zero
    let s := wEng.modMt 0 0 fun t => t.setStream 7 .armed
    let m := stk (mtS []) fun k => { k with
      scratch := [(0, 0x21), (1, 1), (14, 1), (16, 1), (22, 0xF8), (23, 7)]
      bindtab := [(255, 0x90000000)] }
    let q := s.modCore 0 fun k => { k with
      copies := List.replicate 16 (CopyOp.new ⟨0, 0, 0, 0⟩ none 0 false 0 none [] 0 none) }
    (s.Acts (.cpy f) f false ∧ ∀ i ∈ [Instr.cpy g, .cpyg g], s.Acts i g false) ∧
    (∃ r tgs, s.readRequest 0 0 = .ok r ∧ s.copyCheck 0 (some s.cur) r = .ok tgs ∧
      s.sliceCheck 0 r = .ok () ∧ r.opc ≠ 1 ∧ r.dir = false ∧ r.opc = 0 ∧ r.fill ≠ 0) ∧
    (∃ r tgs, m.readRequest 0 0 = .ok r ∧ r.opc = 1 ∧ m.copyCheck 0 (some m.cur) r = .ok tgs ∧
      m.sliceCheck 0 r = .ok () ∧ tgs = [1024] ∧ (m.takeGroup 0 [1024] 1).isSome = true ∧ m.Acts (.cpy g) g false) ∧
    (s.core 0).waitingCopies < 16 ∧ (s.core 0).fifo = [] ∧ s.cur.stream 7 = .armed ∧
    (q.Acts (.cpy g) g false ∧ 16 ≤ (q.core 0).waitingCopies ∧
      ∃ r tgs, q.readRequest 0 0 = .ok r ∧ q.copyCheck 0 (some q.cur) r = .ok tgs) := by
  refine ⟨⟨actsOf (by decide), actsEach (by decide)⟩,
    ⟨_, _, rfl, rfl, rfl, by decide, by decide, by decide, by decide⟩,
    ⟨_, _, rfl, by decide, rfl, rfl, by decide, by decide +kernel, actsOf (by decide)⟩,
    by decide, rfl, rfl, actsOf (by decide), by decide, _, _, rfl, rfl⟩

/-- A producer of four channels: micro-thread 0 of core 0. -/
def aProd : Producer := ⟨255, 0, some 0, 0, 4⟩

/-- The windrow of micro-thread 0 with one producer and one entry, its log at 0x2000. -/
def aWind (st : WindrowSt) (fr : Cells Front) : Windrow :=
  ⟨st, 0, [aProd], fr, [⟨0, 5, 3, false⟩], 0, false, some 0x2000⟩

theorem wit_EventInstructions :
    let f (a b : Operand) := ny .f32 0 a b (sg 4)
    let s := wEng.modCore 0 fun k => { k with wr := aWind .opened [] }
    let free (a : Nat) : Prop := (s.core 0).evq.length < 16 ∧ (s.core 0).bankHeld a = false
    (let g := f (.special 18) (sg 4)
     ∀ i ∈ [Instr.ncfg g, .nint g, .nleak g, .racc g], s.Acts i g false) ∧
    (let g := f (.role 255 0) (.special 17)
     ∀ i ∈ [Instr.nfire g, .rsend g, .rgrad g], s.Acts i g false) ∧ free 1 ∧ free 2 ∧
    (∃ bs, s.readCore 0 0x1000 32 32 = .ok bs ∧ ncfgOk (bytesToWords bs) = true) ∧
    ((s.core 0).bankMode 1 = 1 ∧ (s.core 0).bankMode 2 = 2 ∧ (s.core 0).etick ≠ 0xFFFE) ∧
    (∃ b ws, s.rankBlock 0 0x1000 .f32 = .ok b ∧ s.weightRow 0 b .f32 0 = .ok ws ∧
      b.goff % 4 = 0 ∧ b.goff + 4 * 4 ≤ 0x7A000) ∧
    (∃ solo ts, s.evTargets 0 255 = .ok (solo, ts)) ∧
    (∃ ep tg, s.coreRole 0 255 = .ok (ep, tg) ∧ gradProducer (s.core 0).wr.prods tg = some 0) ∧
    (∃ es, s.rankList (s.me (f (.role 255 0) (sg 4))) (ny .f32 0 (.role 255 0) (sg 4) (sg 3)) =
      .ok es ∧ entriesOk es = true) ∧
    ((s.core 0).wr.arrivalOk 3 = true ∧ (s.core 0).wr.prods[0]? = some aProd ∧
      (s.core 0).wr.owner = s.curMt ∧ (s.core 0).wr.log = some 0x2000) ∧
    (let e := ny .b32 0 (.role 255 0) (sg 4) .zero
     s.Acts (.evsend e) e (Operand.isVreg e.b) ∧
      ((accLanes false (s.me e)).map (s.srcLane (s.me e) .b32 true e.b)).all eventOk = true) ∧
    (∃ bs ps, s.readCore 0 0x3000 144 16 = .ok bs ∧ tqOk false (bytesToWords bs) = true ∧
      tqOk true (bytesToWords bs) = true ∧
      s.tqProducers 0 (bytesToWords bs) (List.range (tqCount (bytesToWords bs))) = .ok ps) ∧
    (s.core 0).evq = [] := by
  refine ⟨actsEach (by decide), actsEach (by decide), ⟨by decide, by decide⟩, ⟨by decide, by decide⟩,
    ⟨_, rfl, by decide⟩,
    ⟨by decide, by decide, by decide⟩, ⟨_, _, rfl, rfl, by decide, by decide⟩, ⟨_, _, rfl⟩,
    ⟨_, _, rfl, by decide⟩, ⟨_, rfl, by decide⟩, ⟨by decide, rfl, rfl, rfl⟩,
    ⟨actsOf (by decide), by decide⟩, ⟨_, _, rfl, by decide, by decide, rfl⟩, rfl⟩

/-- The queue with one producer and an entry at tick 5. -/
def aQueue (fr : Cells Front) (held : List HeldEntry) : TimeQueue := ⟨true, [aProd], fr, held, 0, none⟩

theorem wit_EventQueue :
    let f := ny .b32 0 (sg 1) .zero .zero
    let s (q : TimeQueue) := stk (mtS []) fun k => { k with tq := q }
    ((∀ i ∈ [Instr.evrecv f, .tqcfg f], (s (aQueue [(0, .ended)] [])).Acts i f false) ∧ ((s (aQueue [(0, .ended)] [])).core 0).evq = []) ∧
    ((s (aQueue [] [])).Acts (.evrecv f) f false ∧ ((s (aQueue [] [])).core 0).evq = []) ∧
    (aQueue [(0, .ended)] []).fin = true ∧ (aQueue [] []).fin = false ∧
    release 1 [] [] = none ∧ release 1 [] [⟨0, 5, 3, false⟩] = none ∧
    release 1 [(0, .at 6)] [⟨0, 5, 3, false⟩] = some (⟨0, 5, 3, false⟩, []) := by
  refine ⟨⟨actsEach (by decide), rfl⟩, ⟨actsOf (by decide), rfl⟩, by decide, by decide, by decide,
    by decide, by decide⟩

theorem wit_RankInstructions :
    let f := ny .f32 1 (sg 1) (sg 2) (sg 3)
    let g := ny .b32 4 (.special 1) (.special 18) .zero
    let s := wEng.modCore 0 fun k => { k with wr := aWind .opened [(0, .ended)] }
    let t := st { mtS [(3, 256)] with rsn := 4 }
    (w0.core 0).wr.st = .unconfigured ∧
    (∀ o, { aWind .cut [] with owner := o }.st ≠ .unconfigured) ∧
    ((s.core 0).wr.owner = s.curMt ∧ (s.core 0).evq = [] ∧ (s.core 0).wr.st = .opened ∧
      (s.core 0).wr.log = some 0x2000 ∧ (0x2000 + 4 * 0) % 4 = 0 ∧ 0x2000 + 4 * 0 + 4 ≤ 0x7A000 ∧
      release 1 (s.core 0).wr.front (s.core 0).wr.held = some (⟨0, 5, 3, false⟩, []) ∧
      allEnded 1 (s.core 0).wr.front = true) ∧
    ((∀ i ∈ [Instr.rrecv f, .rsort f, .rwtab f], s.Acts i f false) ∧
      w0.Acts (.rrecv f) f false ∧ (∃ ws, s.readWords 0 0 4 = .ok ws) ∧ (s.scalar (s.me f) f.c).toNat = 1 ∧
      t.Acts (.rsort f) f false ∧ (t.scalar (t.me f) f.c).toNat = 256) ∧
    ((∃ ws, s.readWords 0 0 4 = .ok ws) ∧ s.Acts (.rmarg g) g false ∧ (s.core 0).bankMode (accNo g.b) = 2 ∧
      ((s.core 0).mx.queue.any fun o => o.acc == 2) = false ∧ s.bankPoison 0 2 = none ∧
      (s.core 0).wr.st ≠ .unconfigured) := by
  refine ⟨rfl, nofun, ⟨rfl, rfl, rfl, rfl, by decide, by decide, by decide, by decide⟩,
    ⟨actsEach (by decide), actsOf (by decide), ⟨_, rfl⟩, by decide, actsOf (by decide), by decide⟩,
    ⟨_, rfl⟩, actsOf (by decide), by decide, by decide, by decide, by decide⟩

/-- RSN of 0, 1, 4,096 and 4,097. -/
theorem wit_StateRegisters :
    let f (n : BitVec 19) (r : BitVec 5) := ny .b32 0 (.imm n) (sg r) .zero
    let s := st (mtS [(1, 1), (2, 4096), (3, 4097)])
    ((∀ n r, (n, r) ∈ [(2, 1), (2, 4), (2, 3), (3, 1), (5, 1)] →
      s.Acts (.csrw (f n r)) (f n r) false) ∧ (s.core 0).evq = [] ∧ immInt (f 2 1).a = 2 ∧ immInt (f 3 1).a = 3 ∧
      immInt (f 5 1).a = 5) ∧
    (∃ g, s.src (s.me (f 2 4)) .b32 true (sg 4) = .ok (s, g) ∧ g 0 = 0) ∧
    (∃ g, s.src (s.me (f 2 1)) .b32 true (sg 1) = .ok (s, g) ∧ g 0 = 1) ∧
    (∃ g, s.src (s.me (f 2 2)) .b32 true (sg 2) = .ok (s, g) ∧ g 0 = 4096) ∧
    (∃ g, s.src (s.me (f 2 3)) .b32 true (sg 3) = .ok (s, g) ∧ g 0 = 4097) ∧
    (let g := ny .b32 0 (sg 1) (.imm 7) .zero
     s.Acts (.csrr g) g g.vec) := by
  refine ⟨⟨?_, rfl, by decide, by decide, by decide⟩, ⟨_, rfl, by decide⟩,
    ⟨_, rfl, by decide⟩, ⟨_, rfl, by decide⟩, ⟨_, rfl, by decide⟩, actsOf (by decide)⟩
  intro n r h
  simp only [List.mem_cons, List.not_mem_nil, or_false, Prod.mk.injEq] at h
  obtain ⟨rfl, rfl⟩ | ⟨rfl, rfl⟩ | ⟨rfl, rfl⟩ | ⟨rfl, rfl⟩ | ⟨rfl, rfl⟩ := h <;>
    exact actsOf (by decide)

/-! Control threads: in machine mode, addresses from 0 name the DRAM of the package. -/

/-- After reset, with registers of control thread 0 and other contents of core 0. -/
def ctS (xs : List (BitVec 5 × DWord)) (g : Core → Core) : State :=
  (xs.foldl (fun s x => s.setX 0 x.1 x.2) State.reset).modCore 0 g

/-- Masks of one and two micro-threads, one of which runs, with blocks of 1 and 8 words. -/
theorem wit_Sowing :
    let s := ctS [(1, 0x40), (2, 0x00001), (3, 0x70003)] fun k =>
      { k with mts := [(1, mtS [])] }
    let h := s.curHart
    (h.reg 2).toNat / 2 ^ 19 = 0 ∧ (h.reg 3).toNat / 2 ^ 19 = 0 ∧ (h.reg 1).toNat % 4 = 0 ∧
    (∃ u bs, s.ctBytes 0 (h.reg 1) 3 = .ok (u, bs) ∧ (u.mt 0 0).st = .idle ∧ (u.mt 0 1).st = .running) ∧
    (∃ u bs, s.ctBytes 0 (h.reg 1) 24 = .ok (u, bs)) ∧
    (s.mt 0 0).st = .idle ∧ (s.mt 0 1).st = .running := by
  refine ⟨by decide, by decide, by decide, ⟨_, _, rfl, rfl, rfl⟩, ⟨_, _, rfl⟩, rfl, rfl⟩

/-- MTSTAT selectors 0 to 3, and a mask. -/
theorem wit_MtControl :
    let h := (ctS [(1, 1), (2, 2), (3, 3), (4, 0xFFFF)] id).curHart
    h.reg 0 = 0 ∧ h.reg 1 = 1 ∧ h.reg 2 = 2 ∧ h.reg 3 = 3 ∧ (h.reg 4).toNat / 2 ^ 16 = 0 := by decide

/-- A request at 0x40 of DRAM, with the command FIFO empty and full; a record in the inbox; DRAM's
first counter at 1; work items of a launch. -/
theorem wit_ControlThreadCommands :
    let s := { ctS [(1, 0x40), (2, 0x00010007), (3, 0x0004000000000000), (4, 1), (5, 64)] id with
      dram := [(0, 1), (0x40, 0x20), (0x41, 0x01), (0x4E, 1)] }
    let q := s.modCore 0 fun k => { k with
      fifo := List.replicate 8 (CopyOp.new ⟨0, 0, 0, 0⟩ none 0 true 0 none [] 0 none) }
    let i := s.modCore 0 fun k => { k with inbox := [oneRec] }
    (∃ u r tgs, s.cmdRequest 0 0x40 = .ok (u, r, tgs) ∧ (u.core 0).fifo.length < 8 ∧
      ∃ t, u.cmdPush 0 0x40 r tgs = some t) ∧
    (∃ u r tgs, q.cmdRequest 0 0x40 = .ok (u, r, tgs) ∧ 8 ≤ (u.core 0).fifo.length) ∧
    s.curHart.priv ≠ .user ∧
    ((s.curHart.reg 2).toNat / 2 ^ 17 = 0 ∧ (s.core 0).takeRec (some 7) = none ∧
      ∃ r k, (i.core 0).takeRec (some 7) = some (r, k)) ∧
    (∃ ls s1, s.ctCounter 0 4 0 = .ok ls ∧ s.ctPoison ls = .ok () ∧
      s.ctRegion 0 false false ls = .ok s1 ∧ ∃ s2, s1.ctPass 0 ls = .ok s2 ∧
      leNat (ls.flatMap fun p => s2.loadBytes 0 p.1 p.2) = 1) ∧
    (s.curHart.reg 4).toNat < 2 ^ 62 ∧ (∃ s1 x, s.claimTicket 0 64 = some (s1, x)) := by
  refine ⟨⟨_, _, _, rfl, by decide, _, rfl⟩, ⟨_, _, _, rfl, by decide⟩, by decide, ⟨by decide, rfl, _, _, rfl⟩,
    ⟨_, _, rfl, rfl, rfl, _, rfl, by decide +kernel⟩, by decide, _, _, rfl⟩

theorem okOf {α ε : Type} {e : Except ε α} {p : α → Bool}
    (h : (match e with | .ok a => p a | .error _ => false) = true) : ∃ a, e = .ok a ∧ p a = true := by
  cases e with
  | ok a => exact ⟨a, rfl, h⟩
  | error _ => cases h

set_option maxRecDepth 8000 in
/-- The descriptor at 0x40: input 0 enabled, of RATE 1 and one micro-thread; actor 31 loaded. -/
theorem wit_ActorsAndRoles :
    let s := { ctS [(1, 0x40), (2, 0x31F), (3, 0x11F)] fun k => { k with
        actors := [(31, Actor.ofBytes [] false)] } with
      dram := [(0x49, 2), (0x56, 0x10)] }
    ((s.curHart.reg 2) &&& ~~~0x31F#64) = 0 ∧ (s.curHart.reg 2).getLsbD 9 = true ∧
    (s.curHart.reg 1).toNat % 64 = 0 ∧
    (∃ r, s.ctBytes 0 0x40 40 = .ok r ∧ actorOk r.2 = true) ∧
    ((s.curHart.reg 3) &&& ~~~0x31F#64) = 0 ∧ (s.curHart.reg 3).getLsbD 9 = false ∧
    (∃ a, (s.core 0).actors.get? 31 = some a) ∧
    (∃ r, s.ctBytes 0 0x40 256 = .ok r ∧ (r.1.core 0).mtsIdle = true) ∧
    ((ctS [] fun k => { k with mts := [(1, mtS [])] }).core 0).mtsIdle = false := by
  refine ⟨by decide, by decide, by decide, okOf (by decide +kernel), by decide, by decide, ⟨_, rfl⟩,
    okOf (by decide +kernel), by decide⟩

/-- Contexts 0 to 2 with the incarnations 1 and 0, 255 and 0, and one after which all are stale. -/
theorem wit_Incarnations :
    let s := { ctS [(1, 1), (2, 0x1001), (3, 0x0001)] id with
      incTab := [(1, (1, [0])), (2, (255, [0]))], sweeps := [(256, 1)] }
    let u := s.modHart 0 fun h => { h with priv := .user }
    s.curHart.priv ≠ .user ∧ u.curHart.priv = .user ∧ (s.curHart.reg 1).toNat < 2 ^ 12 ∧
    (∃ n t, s.incarn 1 = some (n, t)) ∧ ((s.incEntry 2).1 + 1) % 256 ∈ (s.incEntry 2).2 ∧
    (s.curHart.reg 2).toNat < 2 ^ 20 ∧ (s.curHart.reg 2).toNat / 2 ^ 12 = (s.incEntry 1).1 ∧
    2 ∉ (s.incEntry 1).2 ∧ (s.curHart.reg 3).toNat / 2 ^ 12 ∈ (s.incEntry 1).2 ∧
    s.sweeps.get? 256 = some 1 ∧
    ({ s with sweeps := [(256, 2)] } : State).sweeps.get? 256 = some 2 := by
  refine ⟨by decide, by decide, by decide, ⟨_, _, rfl⟩, by decide, by decide, by decide, by decide,
    by decide, rfl, rfl⟩

theorem wit_RiscvRegisters : rvForm (.full (.lui 1 2) 0) (.lui 1 2) 0 4 ∧
    rvForm (.comp 0x0505 (.opImm .addi 10 10 1)) (.opImm .addi 10 10 1) 0 2 :=
  ⟨.inl ⟨rfl, rfl⟩, .inr ⟨_, rfl, rfl, rfl⟩⟩

/-- Accesses of 8 bytes, and a load off its size; a reservation that is held, and none. -/
theorem wit_RiscvMemory :
    let s := State.reset
    let r := s.modHart 0 fun h => { h with resv := some (0, 0x40, true) }
    (∃ t v, s.ctLoad 0 0x40 8 = .ok (t, v)) ∧ (∃ t v, s.ctLoad 0 0x41 8 = .ok (t, v)) ∧
    (∃ t, s.ctStore 0 0x40 8 7 = .ok t) ∧ (∃ t v, s.ctLr 0 0x40 true = .ok (t, v)) ∧
    (∃ t v, s.ctSc 0 0x40 true 7 = .ok (t, v)) ∧ (∃ t v, r.ctSc 0 0x40 true 7 = .ok (t, v)) ∧
    (∃ t v, s.ctAmo 0 0x40 .add true 0 7 = .ok (t, v)) := by
  refine ⟨⟨_, _, rfl⟩, ⟨_, _, rfl⟩, ⟨_, rfl⟩, ⟨_, _, rfl⟩, ⟨_, _, rfl⟩, ⟨_, _, rfl⟩,
    okPair (by decide +kernel)⟩

/-- The first doubleword of DRAM, and its last. -/
theorem wit_RiscvDram :
    let s := ctS [(1, 0x3BFFFFFFF8)] id
    s.curHart.priv = .machine ∧ s.curHart.mstatus.getLsbD 17 = false ∧ s.lines = [] ∧
    s.poison = [] ∧ (s.core 0).pair = none ∧ (s.cores.all fun x => x.2.ownStores == []) = true ∧
    (∀ k, s.chan (k / chanBytes) = .init) ∧ s.fencedPlace 0 (.dram 0) = false ∧
    Memory.wf s.dram = true ∧ (s.curHart.reg 1).toNat < 2 ^ 56 ∧
    (∃ k, physLoc (s.curHart.reg 0).toNat 0 = some (.dram k)) ∧
    (∃ k, physLoc (s.curHart.reg 1).toNat 0 = some (.dram k)) ∧
    (s.curHart.reg 0) + (0#12).signExtend 64 = 0 ∧ (s.curHart.reg 0).toNat % loadSize .d = 0 := by
  refine ⟨rfl, rfl, rfl, rfl, rfl, by decide, fun _ => rfl, by decide, rfl, by decide, ⟨_, rfl⟩, ⟨_, rfl⟩,
    by decide, by decide⟩

/-- mscratch may be written and cycle not; each of the three modes. -/
theorem wit_RiscvSystem :
    let h := State.reset.curHart
    let v : Hart := { h with priv := .supervisor }
    h.csrAllowed 0x340 true = true ∧ (∃ old, State.reset.csrRead 0 0x340 = some old) ∧
    (∃ t, State.reset.csrWrite 0 0x340 7 = some t) ∧ h.csrAllowed 0xC00 false = true ∧
    h.priv = .machine ∧ v.priv = .supervisor ∧ v.mstatus.getLsbD 22 = false ∧
    v.mstatus.getLsbD 21 = false ∧ v.mstatus.getLsbD 20 = false ∧ ownReadOnly 0xDC4 = true ∧
    rvForm (.full .mret 0) .mret 0 4 := by
  refine ⟨by decide, ⟨_, rfl⟩, ⟨_, rfl⟩, by decide, rfl, rfl, rfl, rfl, rfl, by decide, .inl ⟨rfl, rfl⟩⟩

/-- User-mode ECALL delegated, and not. -/
theorem wit_CtTrapEntry :
    let s (v : DWord) := State.reset.modHart 0 fun h => { h with priv := .user, medeleg := v }
    ((s 0x100).hart 0).priv ≠ .machine ∧ ((s 0x100).hart 0).medeleg.getLsbD 8 = true ∧
    ((s 0).hart 0).medeleg.getLsbD 8 = false ∧ (State.reset.hart 0).priv = .machine := by decide

theorem wit_GuardAndCounter :
    let i : Instr := .iadd { f3 .s32 with guard := ⟨false, 3⟩ }
    let s := st { mtS [] with repcnt := 2 }
    let b (cont : Option DWord) := st { mtS [] with block := some ⟨0, [0], cont⟩ }
    (∃ op f, i.ny? = some (op, f) ∧ op ≠ 0x184 ∧ w0.cur.guardMask f.guard = 0) ∧
    w0.Alone ∧ (1 < (s.mt 0 0).repcnt ∧ (s.mt 0 0).stopDue = false) ∧
    (((st { mtS [] with stopDue := true }).mt 0 0).stopDue = true ∧
      ((st { mtS [] with stopDue := true }).mt 0 0).asked = []) ∧
    ((w0.mt 0 0).repcnt ≤ 1 ∧ w0.Runs 0 0) ∧
    (∃ x, ((b (some 64)).mt 0 0).block = some x ∧ x.has 12 = false ∧ x.cont = some 64) ∧
    (∃ x, ((b none).mt 0 0).block = some x ∧ x.has 12 = false ∧ x.cont = none) ∧
    ((b none).core 0).dbgctl.getLsbD 0 = false ∧ ((b none).mt 0 0).gang = none := by
  refine ⟨⟨_, _, rfl, by decide, by decide⟩, ⟨rfl, rfl⟩, ⟨by decide, rfl⟩, ⟨rfl, rfl⟩, ⟨by decide, rfl, rfl, trivial⟩,
    ⟨_, rfl, by decide, rfl⟩, ⟨_, rfl, by decide, rfl⟩, rfl, rfl⟩

/-- IADD, NOP and a load of the own scratchpad neither wait nor trap. -/
theorem wit_Frames :
    let f := f3 .s32
    let n := ny .b32 0 .zero .zero .zero
    let q := ny .b32 1 (sg 1) (sg 2) (.imm 0)
    Instr.iadd f ∈ registerInstrs f ∧ w0.Alone ∧
    (∀ p off, f.a ≠ .nwin p off) ∧ (∀ r off, f.a ≠ .role r off) ∧
    (∃ t, exec (.iadd f) w0 = .next t ∧ t.cur.st = .running) ∧
    (∃ t, exec (.nop n) w0 = .next t ∧ t.cur.st = .running) ∧
    (∃ s1 x, w0.src (w0.me f) .s32 false (sg 2) = .ok (s1, x)) ∧ w0.curCore < 1024 ∧ w0.curMt < 16 ∧
    (∀ i ∈ [Instr.ld q, .st q], wMem.Acts i q q.vec) ∧ wMem.MemOk ∧ (wMem.core 0).pair = none ∧
    (∀ e, (wMem.core e).lateStores = [] ∧ (wMem.core e).earlyLoads = []) ∧ wMem.chans = [] ∧
    (∃ as s2, wMem.ldAccess (wMem.me q) q .write (sg 2) (.imm 0) false = .ok as ∧
      wMem.registerAll (wMem.me q) 1 4 true false as = .ok s2 ∧ s2.passChannels as = .ok s2 ∧
      ∀ a ∈ as, ∀ pa, a.loc ≠ .device pa) ∧
    (∃ as s2, wMem.ldAccess (wMem.me q) q .read (sg 2) (.imm 0) false = .ok as ∧
      wMem.poisonOf as = .ok () ∧ wMem.registerAll (wMem.me q) 1 4 false false as = .ok s2 ∧
      s2.passChannels as = .ok s2 ∧ (as.all fun a => !s2.rmwAhead 0 a.loc 4) = true) := by
  refine ⟨by decide, ⟨rfl, rfl⟩, nofun, nofun, ⟨_, rfl, by decide⟩, ⟨_, rfl, by decide⟩,
    ⟨_, _, rfl⟩, by decide, by decide, actsEach (by decide), ⟨rfl, rfl, rfl, fun c => ?_⟩, rfl,
    fun e => ?_, rfl, ⟨[⟨0, 0x7FFFC, .scratch 0 0x7FFFC⟩], _, rfl, rfl, rfl, by simp⟩,
    ⟨[⟨0, 0x7FFFC, .scratch 0 0x7FFFC⟩], _, rfl, rfl, rfl, rfl, rfl⟩⟩
  · cases c <;> exact ⟨rfl, rfl, rfl⟩
  · cases e <;> exact ⟨rfl, rfl⟩

theorem wit_RiscvFrames :
    let s := State.reset
    rvForm (.full (.lui 1 2) 0) (.lui 1 2) 0 4 ∧ (rvDest (.lui 1 2)).isSome = true ∧
    s.curHart.priv ≠ .user ∧ s.curHart.stall = none := by
  refine ⟨.inl ⟨rfl, rfl⟩, rfl, by decide, rfl⟩

theorem wit_Encodings :
    (∃ op, (Instr.iadd (f3 .s32)).ny? = some (op, f3 .s32)) ∧ (Instr.iadd (f3 .s32)).wf = true ∧
    (∃ w, extWord? (.mtrel 31) = some w) ∧ (RvInstr.full (.lui 1 2) 0).wf = true ∧
    (RvInstr.comp 0x0505 (.opImm .addi 10 10 1)).wf = true ∧ (RvInstr.reserved16 0).wf = true := by
  refine ⟨⟨_, rfl⟩, by decide, ⟨_, rfl⟩, by decide, by decide, by decide⟩

/-- NOP of a seed block, NOP of the zeros of DRAM, and c.unimp of them in the control thread. -/
theorem wit_StepRunsInstruction :
    let b := { st { mtS [] with block := some ⟨0, [0], none⟩ } with turn := .mt 0 0 }
    let r := { w0 with turn := .mt 0 0 }
    let s := State.reset
    (b.begun.turn = .mt 0 0 ∧ b.begun.selected 0 0 = true ∧
      b.begun.comparator 0 0 = none ∧
      ∃ x i, (b.begun.mt 0 0).block = some x ∧ x.has 0 = true ∧
        decodeNy (x.wordAt 0) = .ok i) ∧
    (r.turn = .mt 0 0 ∧ r.selected 0 0 = true ∧ r.comparator 0 0 = none ∧ (r.mt 0 0).block = none) ∧
    (s.coreRuns 0 = true ∧ (s.core 0).pendingIrq = none ∧ (s.hart 0).wfi = false ∧
      (s.hart 0).stall = none ∧ (s.hart 0).priv ≠ .user ∧ (s.core 0).gate = .on) ∧
    encode (.stageRebalance 0) = none := by
  refine ⟨⟨rfl, by decide, by decide, _, _, rfl, rfl, rfl⟩, ⟨rfl, by decide, by decide, rfl⟩,
    ⟨by decide, by decide, rfl, rfl, by decide, rfl⟩, rfl⟩

theorem wit_NoOperation : w0.Alone ∧ (Instr.nop (ny .b32 0 .zero .zero .zero)).wf = true :=
  ⟨⟨rfl, rfl⟩, by decide⟩

/-! Steps without a word. -/

theorem wit_UnassignedOpcodes : opRow 0x3FF = none ∧ opRow 0x023 = none ∧ w0.cur.gang = none := by
  decide

/-- A micro-thread in SLEEP, at its deadline; a control thread in CTCWAIT. -/
theorem wit_Reruns :
    let f := ny .b32 0 (.imm 0) .zero .zero
    let s := (st { mtS [] with st := .waiting, blocked := some (.sleep f), bound := some 14 }).modHart
      0 fun h => { h with stall := some (.ctcwait 1 2 3) }
    s.coreRuns 0 = true ∧ (∃ op g, (Instr.sleep f).ny? = some (op, g)) ∧
    (s.mt 0 0).blocked = some (.sleep f) ∧ (s.mt 0 0).st = .waiting ∧ (s.mt 0 0).hold = none ∧
    (s.mt 0 0).tdead ≤ s.now ∧ (∃ d, s.deadline 0 (s.membersOf 0 0) = some d ∧ d ≤ s.now) ∧
    (s.gangRuns 0 0 = true ∧
      (st { mtS [] with st := .waiting, blocked := some (.sleep f) }).trapsNow 0 0 = false) ∧
    (let b := { mtS [] with st := .waiting, blocked := some (.bar f) }
     let u := stk b fun k => { k with mts := k.mts.upd 1 b }
     u.trapsNow 0 1 = true ∧ 0 < 1 ∧ u.trapsNow 0 0 = true) ∧
    (∃ w, extWord? (.ctcwait 1 2 3) = some w) ∧ (s.hart 0).stall = some (.ctcwait 1 2 3) := by
  refine ⟨by decide, ⟨_, _, rfl⟩, rfl, rfl, rfl, by decide, ⟨_, rfl, by decide⟩,
    ⟨by decide, by decide +kernel⟩, by decide +kernel, ⟨_, rfl⟩, rfl⟩

set_option maxRecDepth 8000 in
/-- CTINBX, BINDLD and CTCWAIT stalled, with a record, idle micro-threads, and a counter at 1. -/
theorem wit_StalledCompletes :
    let s (i : Instr) := { (ctS [(3, 0x0004000000000000), (4, 1), (5, 0x40)] fun k =>
        { k with inbox := [oneRec] }).modHart 0 fun h => { h with stall := some i } with dram := [(0, 1)] }
    let a := s (.ctinbx 1 2)
    let b := s (.bindld 5)
    let c := s (.ctcwait 1 3 4)
    (a.coreRuns 0 = true ∧ (a.hart 0).stall = some (.ctinbx 1 2) ∧ ((a.hart 0).reg 2).toNat = 0 ∧
      ∃ r k, (a.core 0).takeRec none = some (r, k)) ∧
    (b.coreRuns 0 = true ∧ ((b.hart 0).reg 5).toNat % 64 = 0 ∧ (b.core 0).mtsIdle = true ∧
      ∃ r, b.ctBytes 0 ((b.hart 0).reg 5) 256 = .ok r ∧ (r.1.core 0).mtsIdle = true) ∧
    (c.coreRuns 0 = true ∧ ((c.hart 0).reg 3).toNat / 2 ^ 48 = 4 ∧ ((c.hart 0).reg 3).toNat % 8 = 0 ∧
      ∃ ls s1, c.ctCounter 0 4 0 = .ok ls ∧ c.ctPoison ls = .ok () ∧
        c.ctRegion 0 false false ls = .ok s1 ∧ ∃ s2, s1.ctPass 0 ls = .ok s2 ∧
        ((c.hart 0).reg 4).toNat ≤ leNat (ls.flatMap fun p => s2.loadBytes 0 p.1 p.2) % 2 ^ 62) := by
  refine ⟨⟨by decide, rfl, by decide, _, _, rfl⟩, ⟨by decide, by decide, by decide, okOf (by decide +kernel)⟩,
    ⟨by decide, by decide, by decide, _, _, rfl, rfl, rfl, _, rfl, by decide +kernel⟩⟩

/-- An actor with no port and a FETCH range of address 0, and one without. -/
def anActor (fpn : Word) : Actor :=
  { seed := 0, ctrl := fpn * 0x20000, inp := [], outp := [], foot := [1 <<< 96], en := true
    filled := false }

theorem wit_MicroThreadsAndActors :
    let s := (st { mtS [] with st := .stopping }).modCore 0 fun k => { k with
      actors := [(0, anActor 0)], stgallot := [(0, 16)] }
    let u := s.discardFills 0
    (s.mt 0 0).st = .stopping ∧ s.coreRuns 0 = true ∧ (s.hart 0).binding = false ∧
    sortBy (fireBefore (u.core 0).lastFired)
      ((u.core 0).actors.filter fun e => u.mayFire 0 e.1 e.2) = [(0, anActor 0)] ∧
    ((anActor 1).filled = false ∧ (anActor 1).needsFill = true ∧ s.mayFill 0 0 (anActor 1) = true ∧
      (((anActor 1).ranges.filter rangeFetch).foldlM (fun s r => State.fillRange s 0 r) s).isSome = true) ∧
    (s.readVirt 0 .mt .read 0 3).isOk = true ∧ s.virtPoison 0 0 3 = none ∧
    (s.core 0).outstanding (agentId 0 0 0) = false ∧
    (let u := s.modCore 0 fun k => { k with ownStores := [⟨agentId 0 0 0, 0, .notify 0⟩] }
     (u.mt 0 0).st = .stopping ∧ (u.core 0).outstanding (agentId 0 0 0) = true) := by
  decide +kernel

/-- Two actors, of stage 0 with a full input queue and of stage 1 with an empty one. -/
theorem wit_StageRebalance :
    let a (stage : Word) (q : DWord) : Actor := { anActor 0 with ctrl := 0x200 + stage * 0x40, inp := [q] }
    let s := { stk (mtS []) fun k => { k with actors := [(0, a 0 128), (1, a 1 64)] } with
      dram := [(70, 1), (134, 1)], qhomes := [(64, ⟨1, 0, 0, 0, 1, 1⟩), (128, ⟨1, 0, 1, 0, 1, 1⟩)] }
    let ins (u : Nat) := s.stageViews 0 u false
    (ins 0).isEmpty = false ∧ (∀ v ∈ ins 0, 3 * v.cap ≤ 4 * v.view) ∧ (s.stageViews 0 0 true).isEmpty = true ∧
    (ins 1).isEmpty = false ∧ 4 * ((ins 1).map (·.view)).sum ≤ ((ins 1).map (·.cap)).sum ∧
    (ins 2).isEmpty = true := by
  decide +kernel

def aRec : TrapRec := ⟨0, 0, 0, 0, 0, false, 0, 0, 0, none, 0, 0, 0, 0, 0, 0, 0⟩

/-- Core 0 with nothing under way; busy; with a trap interrupt pending and enabled. -/
theorem wit_CoreRegisterSteps :
    let s := State.reset
    let b := st (mtS [])
    let i := (st { mtS [] with st := .waiting, hold := some (aRec, false) }).modHart 0 fun h =>
      { h with priv := .user, mie := 0x10000 }
    ((s.core 0).mtsIdle && (s.core 0).enginesIdle) = true ∧ (s.core 0).ct.stall = none ∧
    ((b.core 0).mtsIdle && (b.core 0).enginesIdle) = false ∧
    ((s.core 0).mtsIdle && (s.core 0).mx.chain.isNone) = true ∧
    (i.coreRuns 0 = true ∧ (i.core 0).pendingIrq = some 16 ∧ (i.core 0).ct.writing = false) := by
  decide

/-- A migration of core 0, alone on its tile, to core 8. -/
theorem wit_DeviceRegisterSteps :
    let s := st Mt.init
    let v : DWord := 0x8000000000080000
    (s.die 0).failed = false ∧ (s.ring 0).held = [] ∧ v.getLsbD 63 = true ∧ v.toNat % 2 ^ 10 = 0 ∧
    v.toNat / 2 ^ 16 % 2 ^ 10 = 8 ∧ (s.die 0).frozen = false ∧ (s.die 0).migration = none ∧
    (s.core 0).launch ≠ none ∧ s.tileMove 0 = false ∧
    (s.migPairs 0 8).all (fun p => s.migFree p.2) = true ∧ s.fenced 0 = false ∧
    s.gang8 (tileOf 0) = false ∧
    (s.modDie 0 (·.modPaddock 16 fun x => { x with fen := true })).fenced 0 = true := by
  decide

/-- The matrix queue with each kind of operation at its head. -/
theorem wit_MatrixSteps :
    let s (o : MxOp) := stk (mtS []) fun k => { k with mx := { k.mx with queue := [o] } }
    let op (k : MxKind) : MxOp := ⟨k, 0, 0, 0, none, false, false, 2, 0⟩
    let at_ (n : Nat) := { State.reset with now := 4, limiterAt := [(0, n)] }
    (∀ o, ((s o).core 0).mx.queue = [o] ∧ ((s o).core 0).frozen = false ∧ ((s o).core 0).evq = [] ∧
      (s o).poison = [] ∧ (((s o).core 0).bank 0).mismatch = none) ∧
    (op .zero).kind = .zero ∧ (op (.fill 0)).kind = .fill 0 ∧
    (op (.mma false .bf16 0 0 [] [] false)).kind = .mma false .bf16 0 0 [] [] false ∧
    (op (.drain true 0 7)).kind = .drain true 0 7 ∧
    (State.reset.limiters.look [] 0).all (·.2 != 0) = true ∧
    (at_ 0).limiterAt.look 0 0 < (at_ 0).nextLimiterStep ∧
    (at_ 100).nextLimiterStep ≤ (at_ 100).limiterAt.look 0 0 :=
  ⟨fun _ => ⟨rfl, rfl, rfl, rfl, rfl⟩, rfl, rfl, rfl, rfl, rfl, by decide, by decide⟩

/-- A waiting copy, and one with an element to move. -/
theorem wit_CopySteps :
    let o := CopyOp.new ⟨0, 0, 0, 0⟩ none 0 false 0 none [] 0 none
    let r : CopyOp := { o with desc := some (1 <<< 48 : BitVec 512), total := 1, started := true }
    let d : CopyOp := { r with next := 1 }
    let s := stk (mtS []) fun k => { k with copies := [o, r, d] }
    let u := s.modCore 0 fun k => { k with ownStores := [⟨agentId 3 0 0, 0, .notify 0⟩] }
    let p : Partial := ⟨0, 0, 0, 0, 0, 0, none, 0, 0, .s32, []⟩
    (s.core 0).copies[0]? = some o ∧ o.started = false ∧ (s.core 0).frozen = false ∧ o.ct = false ∧
    (s.core 0).copies[1]? = some r ∧ (∃ t, Desc.ety (1 <<< 48 : BitVec 512) = some t) ∧
    r.next < r.total ∧ (s.core 0).copies[2]? = some d ∧ d.total ≤ d.next ∧
    (s.core 0).ownStores = [] ∧
    (∃ x ∈ (u.core 0).ownStores, x.agent = agentId 3 d.mt 0 ∧ x.rsn = d.seq) ∧
    ([p].take 0).all (fun q => q.line != p.line) = true ∧
    BitVec.ofNat 8 (s.incEntry p.ctx.toNat).1 = p.inc ∧ s.expects p = true ∧
    s.expects { p with slices := 2, slice := some 1 } = false ∧
    (s.viaChannels ⟨agentId 6 0 p.core, p.line⟩ [lineLoc p.line 0]).isOk = true ∧
    s.partialMeets p = false ∧ s.owes (agentId 3 d.mt 0) d.seq = false ∧
    u.owes (agentId 3 d.mt 0) d.seq = true := by
  refine ⟨rfl, rfl, rfl, rfl, rfl, Option.isSome_iff_exists.mp (by decide +kernel), by decide, rfl,
    by decide, rfl, ⟨_, List.mem_cons_self, rfl, rfl⟩, rfl, rfl, by decide, by decide, by decide, by decide,
    by decide, by decide⟩

/-- A copy of one word from offset 0 of core 0's scratchpad to offset 64, and the same once done. -/
theorem wit_CopyResults :
    let o : CopyOp := { CopyOp.new ⟨0x120, 0, 64, 7⟩ none 0 false 0 none [] 0 none with
      desc := some 0, total := 1, started := true }
    let d : CopyOp := { o with next := 1, req := ⟨0x120, 0, 64, 7⟩ }
    let s := stk (mtS []) fun k => { k with copies := [o, d] }
    ((s.core 0).copies[0]? = some o ∧ Desc.ety 0 = some .b32 ∧ (s.core 0).pair = none ∧
      Memory.wf (s.core 0).scratch = true ∧ s.poison = [] ∧ (∀ e, (s.core e).lateStores = []) ∧
      o.next < o.total ∧ o.total = o.elems 0 ∧ o.ahead = [] ∧ o.req.w2.toNat % 4 = 0 ∧
      o.pick false (Config.copyPick s.free) = 0 ∧ Desc.inBounds 0 (o.coords 0 0) = true ∧
      Desc.taddr 0 4 (o.coords 0 0) = 0 ∧ o.req.w2.toNat + 4 * 0 + 4 ≤ 0x80000) ∧
    ((s.core 0).copies[1]? = some d ∧ d.req.cmpl = false ∧ d.status = 0 ∧ d.total ≤ d.next ∧
      (s.core 0).ownStores = [] ∧ (s.core 0).inbox.length < 32 ∧ (s.core 0).posting = [] ∧
      (s.core 0).fifo = [] ∧ (s.cores.all fun e => e.2.mts.all fun t => t.2.stepping == []) = true) := by
  refine ⟨⟨rfl, by decide +kernel, rfl, rfl, rfl, ?_, by decide, by decide +kernel, rfl, by decide, ?_,
    by decide +kernel, by decide +kernel, by decide⟩,
    ⟨rfl, by decide +kernel, rfl, by decide, rfl, by decide, rfl, rfl, by decide⟩⟩
  · intro e
    cases e <;> rfl
  · simp [CopyOp.pick, CopyOp.new, Nat.mod_one]

theorem wit_ReducePartials :
    let p : Partial := ⟨0, 0, 0, 0, 0, 0, none, 0, 0, .s32, [(60, [1, 0, 0, 0])]⟩
    let s := { State.reset with partialQ := [p] }
    s.partialQ[0]? = some p ∧ (∀ q ∈ s.partialQ.take 0, q.line ≠ p.line) ∧
    BitVec.ofNat 8 (s.incEntry p.ctx.toNat).1 = p.inc ∧ p.slice = none ∧ p.line % 4 = 0 ∧
    60 + 4 ≤ 64 ∧ s.partialMeets p = false ∧
    s.channelHeld ⟨agentId 6 0 p.core, p.line⟩ (lineLoc p.line 0) = false ∧ Memory.wf s.dram = true ∧ Memory.wf s.gran = true ∧ Memory.wf s.remote = true ∧
    (∀ c, (s.core c).MemOk) := by
  refine ⟨rfl, by simp, rfl, rfl, rfl, by decide, by decide, by decide, rfl, rfl, rfl, fun c => ⟨rfl, rfl, rfl⟩⟩

/-- NLEAK and RGRAD at the head of the event unit's queue; an event word and a rank message. -/
theorem wit_EventSteps :
    let g : GradOp := ⟨255, 0, 0, 0, 0, 4, 0x2000, 0, ⟨0, 0, false, 0, 0, 0, 0, 0, 0⟩, .f32, false, 2,
      false, false, 0, 0⟩
    let s := stk (mtS []) fun k => { k with
      evq := [⟨.nleak 1, 0, 0, 0⟩], tq := aQueue [] [], wr := aWind .opened []
      arrivals := [.event 0 0 0 0x50003] }
    let t := s.modCore 0 fun k => { k with
      evq := [⟨.rgrad g, 0, 0, 0⟩], arrivals := [.rank 0 0 0 [] true] }
    ((s.core 0).evq = [⟨.nleak 1, 0, 0, 0⟩] ∧ (s.core 0).frozen = false ∧
      (s.core 0).mxBefore ⟨.nleak 1, 0, 0, 0⟩ = false ∧ s.poison = [] ∧
      ∃ u, s.evAct 0 ⟨.nleak 1, 0, 0, 0⟩ = some u) ∧
    ((t.core 0).evq = [⟨.rgrad g, 0, 0, 0⟩] ∧ g.sent = false ∧ (t.gradCheck 0 g).1 = 0 ∧
      t.owes (agentId 4 0 0) 0 = false ∧
      (t.modCore 0 fun k => { k with ownStores := [⟨agentId 4 0 0, 0, .notify 0⟩] }).owes
        (agentId 4 0 0) 0 = true) ∧
    ((s.core 0).arrivals = [.event 0 0 0 0x50003] ∧ (s.core 0).enters (.event 0 0 0 0x50003) = true) ∧
    ((t.core 0).arrivals = [.rank 0 0 0 [] true] ∧ (t.core 0).enters (.rank 0 0 0 [] true) = true ∧
      producerOf (t.core 0).wr.prods 0 0 = some 0) := by
  refine ⟨⟨rfl, rfl, rfl, rfl, _, rfl⟩, ⟨rfl, rfl, by decide, by decide, by decide⟩, ⟨rfl, by decide⟩, rfl, by decide,
    by decide⟩

/-- An arrival at a barrier of the die, and a release of it that is due. -/
theorem wit_BarrierSteps :
    let b : Barrier := ⟨⟨2, 0, 0, 0⟩, 0, 0, none, [(0, 0)]⟩
    let a : Arrival := ⟨b.key, 0, 2, 0, 0, none, true, false⟩
    let s := { State.reset with barriers := [b], barPending := [a] }
    s.barPending[0]? = some a ∧ (s.barrier a.key).phase = a.phase ∧ a.ready = true ∧ s.barriers[0]? = some b ∧
    b.release = [(0, 0)] ∧ 0 ≤ s.now := by decide

/-- A packet of each kind; a copy to send again, one too old, one after fifteen timeouts. -/
theorem wit_FabricSteps :
    let p (k : PacketKind) : Packet :=
      ⟨k, 0, 1024, 1025, 1, 1, 0, 0, 0, 0, 0, 0, false, .notify 0, none⟩
    let w := { p .data with pair := some ⟨0, 0, true, 0⟩ }
    let x := { p .data with dst := 8192, src := 0 }
    let c : SentCopy := ⟨p .data, none, 0, 15, none⟩
    let f : Flow := ⟨1024, 1025, 1, none, 1, [c], 0, []⟩
    let r : Flow := { f with copies := [{ c with retryAt := some 0 }] }
    let h : HeldPair := ⟨w, 0⟩
    let s := { State.reset with
      now := 50000, flows := [f, r], pairs := [h], ports := [(0, (7, false))], trapQ := [aRec]
      cores := [(0, { Core.init with pair := some ⟨0, false, 8, 0⟩ }),
        (8, { Core.init with pair := some ⟨0, true, 0, 0⟩ })]
      wire := [p .data, w, p .ack, p .retry, p .reject, x] }
    let down := { s with ports := (List.range 32).map fun n => (n, (0, true)) }
    (∀ i < 5, s.arriving i = s.wire[i]? ∧ s.wire[i]?.isSome = true) ∧ w.pair ≠ none ∧
    ((s.wire[0]?.map fun p => p.kind == .data && p.payload.place.any s.refreshing) = some false) ∧
    (let y := { p .data with payload := .store 0 0 [0] }
     let u := { s with wire := [y], chans := [(0, { Chan.init with busy := true, last := some 50000 })] }
     u.wire[0]? = some y ∧ (y.kind == .data && y.payload.place.any u.refreshing) = !Config.cacheHit u.free 0) ∧
    (let u := { s with cores := [] }
     u.pairs[0]? = some h ∧ u.pairCore h.pkt.ctx 0 false = none) ∧
    (down.wire[5]? = some x ∧ 4096 ≤ x.dst ∧ down.portsUp = []) ∧
    s.flows[0]? = some f ∧
    s.flows[1]? = some r ∧ s.blocked f = false ∧ s.blocked r = false ∧ 0 + 143 ≤ s.now ∧
    f.window = [] ∧ c.sentAt + 32000 ≤ s.now ∧ c.timeouts = 15 ∧ f.dst < 2048 ∧
    (s.pairs[0]? = some h ∧ s.pairCore h.pkt.ctx 0 false = some 0 ∧
      s.pairCore h.pkt.ctx 0 true = some 8) ∧ h.since + 50000 ≤ s.now ∧
    (s.ports.look (0, false) 0).2 = false ∧ s.trapQ[0]? = some aRec := by
  refine ⟨by decide, by decide, by decide, ⟨rfl, rfl⟩, ⟨rfl, by decide⟩, ⟨rfl, by decide, by decide⟩,
    rfl, rfl, by decide, by decide, by decide, rfl, by decide, rfl, by decide, ⟨rfl, by decide, by decide⟩, by decide, by decide, rfl⟩

/-- Die 0 with an entry announced, a child launch held, notifications for a free slot and a node, and
a node that has been ready for 256 µs. -/
theorem wit_LaunchAdmission :
    let q : Child := ⟨0, 0, 0, false⟩
    let s := { (wNode w0 (aNode .ready)).modDie 0 fun x => { x with
      lqTail := 1, childQ := [(q, 0, 0, 0)], notifyQ := [0, 1] } with now := 256000 }
    s.dispatches 0 = true ∧ (s.die 0).lqHead ≠ (s.die 0).lqTail.toNat % Config.launchQueueSize 0 ∧
    (s.die 0).childQ = [(q, 0, 0, 0)] ∧ (s.die 0).freeSlot = some 1 ∧ (s.die 0).notifyQ = [0, 1] ∧
    s.node? 0 = some (aNode .ready) ∧ s.node? 1 = none ∧ (aNode .ready).level < 3 ∧
    (aNode .ready).since + 256000 ≤ s.now := by
  refine ⟨by decide, ?_, rfl, by decide +kernel, rfl, rfl, rfl, by decide, by decide⟩
  show 0 ≠ 1 % (Config.launchQueueMore 0 + 2)
  rw [Nat.mod_eq_of_lt (by omega)]; decide

theorem wit_LaunchRuns :
    let on (x : NodeSt) := wNode w0 (aNode x)
    let e := { wNode (st Mt.init) (aNode .ending) with now := 2000 }
    let r := { on .running with now := 2000 }
    let k (status : Nat) := wNode (st Mt.init) { aNode .ending with status := status }
    let b := (on .running).modCore 0 fun k => { k with
      started := true, ct := { k.ct with priv := .supervisor, partEnd := true } }
    (∀ x, (on x).node? 0 = some (aNode x) ∧ (on x).dispatches 0 = true) ∧
    (let p := wNode (st Mt.init) { aNode .placing with cores := [] }
     p.placingNode 0 = some 0) ∧
    ((on .placing).core 0).launch = some 0 ∧ ((on .placing).core 0).started = false ∧
    ((on .placing).core 0).pair = none ∧ (aNode .placing).paired = false ∧
    0 ∈ (aNode .placing).cores ∧ (on .placing).coreRuns 0 = true ∧
    ((b.core 0).started = true ∧ (b.core 0).ended = false ∧ b.coreRuns 0 = true ∧
      (b.hart 0).partEnd = true) ∧
    ([0].all fun c => !(e.core c).passive && e.quiet c) = true ∧
    ((on .running).now < (aNode .running).sweptAt + 2000 ∧
      (aNode .running).sweptAt + 2000 ≤ r.now) ∧
    (∀ n, ((k n).node? 0).map (·.status) = some n ∧
      ([0].filter fun c => ((k n).core c).launch == some 0).all fun c =>
        ((k n).core c).mtsIdle && (k n).drained c) := by
  refine ⟨fun _ => ⟨rfl, rfl⟩, by decide, rfl, rfl, rfl, rfl, by decide, by decide,
    ⟨rfl, rfl, by decide, rfl⟩, by decide, ⟨by decide, by decide⟩, fun _ => ⟨rfl, by rfl⟩⟩

/-- Core 0 moves to core 8; core 1 of its launch names it and has sent it a message. -/
theorem wit_MigrationSwitch :
    let p : Packet := ⟨.data, 0, 1, 0, 1, 1, 0, 0, 0, 0, 0, 0, false, .notify 0, none⟩
    let s := { (wNode (st Mt.init) { aNode .running with cores := [0, 1] }).modCore 1 (fun k =>
        { k with bindtab := [(3, 0x80000000)] }) with
      flows := [⟨1, 0, 1, none, 1, [⟨p, none, 0, 0, none⟩], 0, []⟩] }
    (s.cores.all fun e => e.2.lateStores == []) = true ∧ (s.core 0).launch = some 0 ∧
    s.node? 0 = some { aNode .running with cores := [0, 1] } ∧
    (s.core 1).bindtab.get? 3 = some 0x80000000 ∧ (0x80000000 : Word).getLsbD 31 = true ∧
    (0x80000000 : Word).toNat / 2 ^ 28 % 8 < 2 ∧ (0x80000000 : Word).toNat / 2 ^ 10 % 512 = Config.pkgNum ∧
    (s.flow 1 0 1).copies ≠ [] := by decide

theorem wit_PackageSteps :
    let s (b : Bool) := (st Mt.init).modDie 0 fun x => { x with migration := some ⟨[(0, 8)], b⟩ }
    ((s false).die 0).migration = some ⟨[(0, 8)], false⟩ ∧
    [(0, 8)].all (fun p : Nat × Nat => (s false).drained p.1) = true ∧
    ((s true).die 0).migration = some ⟨[(0, 8)], true⟩ ∧
    (∃ l, physLoc 0 0 = some l ∧ ∀ a, l ≠ .device a) ∧ (∃ a, physLoc 0x4000000000 0 = some (.device a)) ∧ 1 ≤ (s true).bootStep ∧
    ({ s true with bootStep := 0 } : State).bootStep = 0 ∧
    ((∀ i, 1 ≤ i → i ≤ 4 → imageFault i = 0) ∨
      ∃ n, n < 4 ∧ (∀ i, 1 ≤ i → i ≤ n → imageFault i = 0) ∧ imageFault (n + 1) ≠ 0) := by
  refine ⟨rfl, by decide, rfl, ⟨_, rfl, nofun⟩, ⟨_, rfl⟩, by decide, rfl, ?_⟩
  by_cases h1 : imageFault 1 = 0
  · by_cases h2 : imageFault 2 = 0
    · by_cases h3 : imageFault 3 = 0
      · by_cases h4 : imageFault 4 = 0
        · exact .inl fun i a b => by
            obtain rfl | rfl | rfl | rfl : i = 1 ∨ i = 2 ∨ i = 3 ∨ i = 4 := by omega
            all_goals assumption
        · exact .inr ⟨3, by decide, fun i a b => by
            obtain rfl | rfl | rfl : i = 1 ∨ i = 2 ∨ i = 3 := by omega
            all_goals assumption, h4⟩
      · exact .inr ⟨2, by decide, fun i a b => by
          obtain rfl | rfl : i = 1 ∨ i = 2 := by omega
          all_goals assumption, h3⟩
    · exact .inr ⟨1, by decide, fun i a b => by
        obtain rfl : i = 1 := by omega
        assumption, h2⟩
  · exact .inr ⟨0, by decide, fun i a b => by omega, h1⟩

/-- A rectangle that may be defined, and one whose rows are the wrong way round. -/
theorem wit_ContainmentSteps :
    let s := State.reset
    let p := (s.die 0).paddock 1
    let v : DWord := 0x8000000000000000
    let bad : DWord := 0x8000000000000008
    let fen (ps : List Nat) := s.modDie 0 (·.modPaddock 1 fun x => { x with fen := true, pending := ps })
    let now := { s with now := 60000000000 }
    let u (l : Bool) (o : Nat) := now.modUv 0 0 fun _ => ⟨l, 1, o, 0, 0, []⟩
    (p.withRect v ≠ p ∧ s.pdkLegal 0 1 p (p.withRect v) = true ∧ v.getLsbD 61 = false ∧
      v.getLsbD 60 = false) ∧
    (p.withRect bad ≠ p ∧ s.pdkLegal 0 1 p (p.withRect bad) = false) ∧
    (let e := s.modDie 0 (·.modPaddock 1 fun x => { x with en := true })
     ((e.die 0).paddock 1).fen = false ∧ ((e.die 0).paddock 1).en = true ∧ (e.die 0).frozen = false) ∧
    p.en = false ∧
    (((fen []).die 0).paddock 1).fen = true ∧ (((fen []).die 0).paddock 1).pending = [] ∧
    (((fen []).die 0).paddock 1).owed = false ∧ (((fen [3]).die 0).paddock 1).pending ≠ [] ∧
    ((u false 1).uvctl 0 0).voff ≠ 0 ∧ ((u false 0).uvctl 0 0).voff < ((u false 0).uvctl 0 0).vmax.toNat ∧
    0 + 1000000000 ≤ (u false 0).now ∧ ((u true 0).uvctl 0 0).lock = true ∧ 0 + 60000000000 ≤ now.now ∧
    (((u false 0).uvctl 0 0).voff = 0 ∧
      (let d := (u false 0).modDie 0 fun x => { x with
         predict := [(7, List.replicate Config.predictiveThreshold 0)] }
       ((d.die 0).predict.look [] 7).countP (fun t => decide (d.now < t + 86400000000000)) =
         Config.predictiveThreshold)) ∧
    (s.paddockBusy 504 = false ∧ (st Mt.init).paddockBusy 0 = true ∧ (st Mt.init).fenced 0 = false) ∧
    (∀ r ∈ [Spare.tile 0 63, .l2Way 0 5, .channel 0 5, .row 0 5 1],
      Spare.dieOf r = 0 ∧ s.paddockBusy (Spare.coreOf r) = false ∧ Spare.usedOf r (s.die 0).sparesUsed < 1) ∧
    (let e := s.modDie 0 fun x => { x with
        sparesUsed := [Spare.tile 0 62, .l2Way 0 5] ++ List.replicate 32 (.channel 0 7) ++
          List.replicate 64 (.row 0 5 1) }
     ∀ r ∈ [(Spare.tile 0 63, 1), (.l2Way 0 5, 1), (.channel 0 5, 32), (.row 0 5 1, 64)],
      r.2 ≤ Spare.usedOf r.1 (e.die 0).sparesUsed) ∧ (s.die 0).mismatches = [] ∧
    (let e := s.modDie 0 fun x => { x with mismatches := [0, 0] }
     (e.die 0).mismatches = [0, 0] ∧ e.now < 0 + 1000000000) ∧
    s.bootStep = 4 ∧ (st Mt.init).paddockCores 0 16 ≠ [] ∧ ((st Mt.init).core 0).launch.isSome = true ∧
    (let f := s.modDie 0 fun x => { x with frozen := true }
     (f.die 0).frozen = true ∧ (f.die 0).failed = false ∧ ∀ p < 16, ((f.die 0).paddock p).owed = false) ∧
    ({ s with sweeps := [(256, 1)] } : State).sweeps.get? (1 * 256 + 0) = some 1 := by
  decide +kernel

/-- Each state of a core's gate; a hop, a droop and a refresh under way. -/
theorem wit_PowerSteps :
    let s := { State.reset with now := 2000 }
    let g (x : Gate) := (s.modHart 0 fun h => { h with wfi := true }).setGate 0 x
    let t := s.modTile 0 fun x => { x with hop := some 0 }
    let d := s.modTile 0 fun x => { x with droop := some 0 }
    let c := s.modChan 0 fun x => { x with last := some 0 }
    (t.tile 0).hop = some 0 ∧ (d.tile 0).droop = some 0 ∧ (d.tile 0).forced = none ∧
    (s.chan 0).busy = false ∧ (s.chan 0).due s.now = true ∧ (c.chan 0).last = some 0 ∧
    (s.tile 0).hop = none ∧ (s.tile 0).forced = none ∧
    ((g .on).core 0).gate = .on ∧ ((g .on).core 0).frozen = false ∧
    ((g (.hold 0)).core 0).gateable = true ∧ ((g (.hold 0)).core 0).gate = .hold 0 ∧
    ((g (.entering 0 true)).core 0).gate = .entering 0 true ∧ ((g .gated).core 0).gate = .gated ∧
    ((g (.waking 0)).core 0).gate = .waking 0 ∧ 0 + 250 ≤ s.now ∧
    (∀ p ∈ ((g (.waking 0)).arbiter (quadOf 0)).waiting, p.1 ≠ 0) ∧
    ((g .waiting).core 0).gate = .waiting ∧
    (let b := { State.reset with now := 10000, budgetAt := some 0 }
     (∃ t, b.budgetAt = some t ∧ t + 10000 ≤ b.now) ∧ b.bootStep = 4 ∧
      ∃ t, { s with budgetAt := some 0 }.budgetAt = some t ∧ s.now < t + 10000) := by
  and_intros
  all_goals first | decide | exact ⟨_, rfl, by decide⟩

theorem wit_MemoriesStayCanonical : ∃ t, step State.reset = .next t := ⟨_, rfl⟩

/-! ### Held translations and held lines -/

/-- One translation held in the L1 of core 0, others in the services of die 0 and 1, and lines of
package 1 held by core 0, the second on an RRO page. -/
def heldSt : State :=
  { State.reset with
    tlb := [⟨true, 0, 0, 0x1000, ⟨0x2CF, 0, false⟩⟩, ⟨false, 0, 7, 0x5000, ⟨0x6CF, 0, false⟩⟩,
      ⟨false, 1, 7, 0x5000, ⟨0xACF, 0, true⟩⟩]
    remoteLines := [⟨0, 0x80004000000000, false, List.replicate 64 1⟩,
      ⟨0, 0x80004000000040, true, List.replicate 64 2⟩] }

theorem wit_HeldCopies :
    (heldSt.l1Hit 0 0 0x1004 = some ⟨0x2CF, 0, false⟩) ∧
    (heldSt.l1Hit 0 (7 * 2 ^ 44) 0x5000 = none ∧
      heldSt.serviceHit (coreDie 0) (7 * 2 ^ 44) 0x5000 = some ⟨0x6CF, 0, false⟩) ∧
    (heldSt.l1Hit 0 0 0x5000 = none ∧ heldSt.serviceHit (coreDie 0) 0 0x5000 = none) ∧
    ((heldSt.heldLine 0 0x80004000000004).map (·.data.length) = some 64) ∧
    (heldSt.core 0).ownStores = [] ∧ heldSt.fenced 0 = false ∧ Memory.wf heldSt.remote = true := by
  refine ⟨by decide, by decide, by decide, by decide, rfl, by decide, rfl⟩

/-- R75: SFENCE.VMA for address space 7 on core 0 leaves only the entry of die 1. -/
theorem test_sfence : ((heldSt.sfence 0 none (some 7)).tlb.map (·.unit)) = [1] := by decide

/-- R78, R222: an acquire of .dom scope leaves the RRO line. -/
theorem test_acquire_dom : ((heldSt.acquireDom 0).remoteLines.map (·.rro)) = [true] := by decide

/-- R68, R78: .glob reads the held copy, .glnc the home. -/
theorem test_held_line :
    let w := heldSt.me (ny .b32 4 .zero .zero .zero)
    (heldSt.loadFor w 4 (.remote 0x80004000000004)).2 = 0x01010101 ∧
    (heldSt.loadFor w 5 (.remote 0x80004000000004)).2 = 0 := by decide

end Sys2Proof.Tests
end

section
/-! SUPPORT. The system instructions of the control thread: what a CSR instruction and a return
answer, and what an exception saves (R8, R33, R75, R300, R363; log 6). -/

namespace Sys2Proof.Machine

/-! ### Fields of a register -/

theorem getLsbD_setField (v : DWord) (lo n x i : Nat) (hi : i < 64) :
    (setField v lo n x).getLsbD i =
      if lo ≤ i ∧ i < lo + n then x.testBit (i - lo) else v.getLsbD i := by
  simp only [setField, BitVec.getLsbD_or, BitVec.getLsbD_and, BitVec.getLsbD_not,
    BitVec.getLsbD_ofNat, Nat.testBit_mul_two_pow, Nat.testBit_two_pow_sub_one,
    Nat.testBit_mod_two_pow, hi, decide_true, Bool.true_and]
  by_cases hlo : lo ≤ i
  · by_cases hn : i < lo + n
    · simp [hlo, hn, show i - lo < n by omega]
    · simp [hlo, hn, show ¬ i - lo < n by omega]
  · simp [hlo]

theorem testBit_fieldOf (v : DWord) (lo n i : Nat) :
    (fieldOf v lo n).testBit i = (decide (i < n) && v.getLsbD (lo + i)) := by
  simp [fieldOf, Nat.testBit_mod_two_pow, Nat.testBit_div_two_pow, BitVec.getLsbD, Nat.add_comm]

/-- A field of one bit is that bit. -/
theorem fieldOf_bit (v : DWord) (i : Nat) : fieldOf v i 1 = (v.getLsbD i).toNat := by
  simp [fieldOf, BitVec.getLsbD, Nat.toNat_testBit]

theorem testBit_zero_toNat (b : Bool) : b.toNat.testBit 0 = b := by cases b <;> rfl

theorem getLsbD_setField_bit (v : DWord) (lo x i : Nat) (hi : i < 64) :
    (setField v lo 1 x).getLsbD i = if i = lo then x.testBit 0 else v.getLsbD i := by
  rw [getLsbD_setField _ _ _ _ _ hi]
  by_cases h : i = lo
  · simp [h]
  · rw [if_neg h, if_neg (by omega)]

theorem fieldOf_setField_same (v : DWord) (lo n x : Nat) (h : lo + n ≤ 64) :
    fieldOf (setField v lo n x) lo n = x % 2 ^ n := by
  refine Nat.eq_of_testBit_eq fun i => ?_
  rw [testBit_fieldOf, Nat.testBit_mod_two_pow]
  by_cases hi : i < n
  · rw [getLsbD_setField _ _ _ _ _ (by omega)]
    simp [hi]
  · simp [hi]

theorem fieldOf_setField_above (v : DWord) (lo n x lo' n' : Nat) (h : lo' + n' ≤ 64)
    (hd : lo + n ≤ lo') : fieldOf (setField v lo n x) lo' n' = fieldOf v lo' n' := by
  refine Nat.eq_of_testBit_eq fun i => ?_
  rw [testBit_fieldOf, testBit_fieldOf]
  by_cases hi : i < n'
  · rw [getLsbD_setField _ _ _ _ _ (by omega), if_neg (by omega)]
  · simp [hi]

/-! ### Entry into a trap, and the return from it -/

section
variable (h : Hart) (code : Nat) (tval : DWord)

theorem Hart.enter_delegated (hd : h.priv ≠ .machine ∧ h.medeleg.getLsbD code = true) :
    h.enter false code tval = h.enterS false code tval := if_pos hd

theorem Hart.enter_kept (hd : ¬(h.priv ≠ .machine ∧ h.medeleg.getLsbD code = true)) :
    h.enter false code tval = h.enterM false code tval := if_neg hd

/-- SPP is the mode, SPIE is SIE, and SIE is off. -/
theorem Hart.enterS_stacks :
    let st := (h.enterS false code tval).mstatus
    st.getLsbD 8 = !decide (h.priv = .user) ∧ st.getLsbD 5 = h.mstatus.getLsbD 1 ∧
      st.getLsbD 1 = false := by
  simp only [Hart.enterS, getLsbD_setField_bit, fieldOf_bit, testBit_zero_toNat, Nat.reduceLT,
    Nat.reduceEqDiff, ↓reduceIte, Nat.zero_testBit, and_self, and_true]
  cases h.priv <;> rfl

/-- MPP is the mode's code, MPIE is MIE, and MIE is off. -/
theorem Hart.enterM_stacks :
    let st := (h.enterM false code tval).mstatus
    fieldOf st 11 2 = h.priv.code ∧ st.getLsbD 7 = h.mstatus.getLsbD 3 ∧
      st.getLsbD 3 = false := by
  refine ⟨?_, ?_⟩
  · simp only [Hart.enterM, fieldOf_setField_above, fieldOf_setField_same, Nat.reduceAdd,
      Nat.reduceLeDiff]
    cases h.priv <;> rfl
  · simp only [Hart.enterM, getLsbD_setField_bit, fieldOf_bit, testBit_zero_toNat, Nat.reduceLT,
      Nat.reduceEqDiff, ↓reduceIte, Nat.zero_testBit, and_self]

/-- SRET goes back to the mode that the exception interrupted. -/
theorem Hart.sret_enterS_priv (hp : h.priv ≠ .machine) :
    (h.enterS false code tval).sret.priv = h.priv := by
  obtain ⟨hspp, -⟩ := h.enterS_stacks code tval
  simp only [Hart.sret, fieldOf_bit, hspp]
  cases hm : h.priv with
  | machine => exact absurd hm hp
  | supervisor | user => rfl

theorem Priv.ofCode_code (p : Priv) : Priv.ofCode p.code = p := by cases p <;> rfl

/-- MRET goes back to the mode that the exception interrupted. -/
theorem Hart.mret_enterM_priv : (h.enterM false code tval).mret.priv = h.priv := by
  obtain ⟨hmpp, -⟩ := h.enterM_stacks code tval
  simp only [Hart.mret, hmpp, Priv.ofCode_code]

end

theorem State.hart_ctTrap (s : State) (c code : Nat) (tval : DWord) :
    (s.ctTrap c code tval).hart c = (s.hart c).enter false code tval :=
  s.hart_modHart c _

theorem causeOf_exception (code : Nat) : causeOf false code = BitVec.ofNat 64 code := by
  simp [causeOf]

/-- Taking an exception saves what its return restores. -/
theorem says_ctTrapEntry : Says.CtTrapEntry := by
  intro s c code tval _
  simp only [State.hart_ctTrap]
  generalize s.hart c = h
  refine ⟨fun hd => ?_, fun hd => ?_⟩
  · rw [h.enter_delegated code tval hd]
    obtain ⟨hspp, hspie, hsie⟩ := h.enterS_stacks code tval
    have hmode : (!decide (h.priv = .user)) = (h.priv == .supervisor) := by
      cases hm : h.priv with
      | machine => exact absurd hm hd.1
      | supervisor | user => rfl
    exact ⟨rfl, rfl, causeOf_exception code, rfl, rfl, hspp.trans hmode, hspie, hsie, rfl, rfl,
      rfl, h.sret_enterS_priv code tval hd.1⟩
  · rw [h.enter_kept code tval hd]
    obtain ⟨-, hmpie, hmie⟩ := h.enterM_stacks code tval
    exact ⟨rfl, rfl, causeOf_exception code, rfl, rfl, hmpie, hmie, rfl, rfl, rfl,
      h.mret_enterM_priv code tval⟩

/-! ### Running an instruction of the control thread -/

section
variable {r : RvInstr} {op : Rv} {aqrl : BitVec 2} {len : Nat} {s : State}

/-- A control-thread instruction in either form is its operation, finished. -/
theorem exec_rvForm (hr : rvForm r op aqrl len) : ∃ word,
    exec (.controlThreadRiscvInstruction r) s =
      .next (s.ctFinish (.controlThreadRiscvInstruction r) s.curCore
        (s.rvRun s.curCore aqrl len word op).2 (s.rvRun s.curCore aqrl len word op).1) := by
  obtain ⟨rfl, rfl⟩ | ⟨h, rfl, rfl, rfl⟩ := hr
  · exact ⟨_, rfl⟩
  · exact ⟨_, rfl⟩

/-- An operation that waits for no messages runs at once. -/
theorem State.rvRun_of_not_waits (c : Nat) (word : DWord) (hw : rvWaits op aqrl = false) :
    s.rvRun c aqrl len word op = s.rvExec c aqrl len word op := by
  simp [State.rvRun, hw]

/-- An operation that waits for no messages and answers `t` retires with it. -/
theorem exec_retires {t : State} {npc : DWord} (hr : rvForm r op aqrl len)
    (hw : rvWaits op aqrl = false)
    (hx : ∀ word, s.rvExec s.curCore aqrl len word op = (.ok t, npc)) :
    exec (.controlThreadRiscvInstruction r) s =
      .next (t.ctRetire s.curCore (s.curHart.priv == .user) npc) := by
  obtain ⟨word, he⟩ := exec_rvForm (s := s) hr
  rw [he, State.rvRun_of_not_waits _ _ hw, hx]
  rfl

/-- An exception other than an extension fault is taken; ECALL of user mode with a7 = 0 ends the
core's part as well (R300). -/
theorem State.ctFinish_exception (i : Instr) (c code : Nat) (npc tval : DWord) (hc : code ≠ 26) :
    s.ctFinish i c npc (.error (.exc code tval)) =
      (if code = 8 ∧ (s.hart c).reg 17 = 0 then s.modHart c fun h => { h with partEnd := true }
        else s).ctTrap c code tval := by
  simp [State.ctFinish, hc]

/-- An operation that waits for no messages and raises an exception other than the extension fault
takes it. -/
theorem exec_excepts {code : Nat} {tval npc : DWord} (hr : rvForm r op aqrl len)
    (hw : rvWaits op aqrl = false) (h26 : code ≠ 26)
    (hx : ∀ word, s.rvExec s.curCore aqrl len word op = (.error (.exc code tval), npc)) :
    exec (.controlThreadRiscvInstruction r) s =
      .next ((if code = 8 ∧ s.curHart.reg 17 = 0
        then s.modHart s.curCore fun h => { h with partEnd := true } else s).ctTrap
          s.curCore code tval) := by
  obtain ⟨word, he⟩ := exec_rvForm (s := s) hr
  rw [he, State.rvRun_of_not_waits _ _ hw, hx, State.ctFinish_exception _ _ _ _ _ h26]
  rfl

/-- A word that names no instruction is illegal, with itself as the value. -/
theorem exec_reserved (w : Word) :
    exec (.controlThreadRiscvInstruction (.reserved w)) s =
      .next (s.ctTrap s.curCore 2 (w.setWidth 64)) := by
  have he : exec (.controlThreadRiscvInstruction (.reserved w)) s =
      .next (s.ctFinish (.controlThreadRiscvInstruction (.reserved w)) s.curCore 0
        (.error (.exc 2 (w.setWidth 64)))) := rfl
  rw [he, State.ctFinish_exception _ _ _ _ _ (by decide), if_neg (by omega)]

end

/-! ### Zicsr -/

/-- The instruction writes its register: CSRRW does, the others where rs1 is not x0. -/
def csrWrites (k : RvCsr) (rs1 : BitVec 5) : Bool := k == .rw || rs1 != 0

/-- What the instruction makes of the old value and its source. -/
def csrResult (k : RvCsr) (old src : DWord) : DWord :=
  match k with
  | .rw => src
  | .rs => old ||| src
  | .rc => old &&& ~~~src

/-- The value that the instruction writes; minstret gets one less, because the instruction is counted
after its write. -/
def Hart.csrNew (h : Hart) (k : RvCsr) (useImm : Bool) (rs1 : BitVec 5) (num : BitVec 12)
    (old : DWord) : DWord :=
  let new := csrResult k old (if useImm then rs1.setWidth 64 else h.reg rs1)
  if num = 0xB02 ∧ h.mcountinhibit.getLsbD 2 = false then new - 1 else new

section
variable {s : State} {c : Nat} {k : RvCsr} {rs1 : BitVec 5} {num : BitVec 12} {old : DWord}
  (useImm : Bool) (rd : BitVec 5) (word : DWord)
  (ha : (s.hart c).csrAllowed num (csrWrites k rs1) = true) (hr : s.csrRead c num = some old)
include ha hr

/-- A CSR instruction that does not write puts the old value into rd. -/
theorem State.csrInstr_reads (hw : csrWrites k rs1 = false) :
    s.csrInstr c k useImm rd rs1 num word = .ok (s.setX c rd old) := by
  rw [hw] at ha
  cases k with
  | rw => cases hw
  | rs | rc =>
    have hx : (rs1 != 0) = false := hw
    simp only [State.csrInstr, hx, ha, hr, Bool.not_true, Bool.not_false, Bool.false_eq_true,
      ↓reduceIte]

/-- A CSR instruction whose write is made puts the old value into rd. -/
theorem State.csrInstr_writes {t : State} (hw : csrWrites k rs1 = true)
    (ht : s.csrWrite c num ((s.hart c).csrNew k useImm rs1 num old) = some t) :
    s.csrInstr c k useImm rd rs1 num word = .ok (t.setX c rd old) := by
  rw [hw] at ha
  cases k with
  | rw =>
    simp only [Hart.csrNew, csrResult] at ht
    simp only [State.csrInstr, ha, hr, ht, Bool.not_true, Bool.false_eq_true, ↓reduceIte]
  | rs | rc =>
    simp only [Hart.csrNew, csrResult] at ht
    have hx : (rs1 != 0) = true := hw
    simp only [State.csrInstr, hx, ha, hr, ht, Bool.not_true, Bool.false_eq_true, ↓reduceIte]

end

/-- A write of one of the part's own read-only registers leaves the core (R8). -/
theorem State.csrWrite_ownReadOnly (s : State) (c : Nat) (num : BitVec 12) (v : DWord)
    (hn : ownReadOnly num.toNat = true) :
    ∃ t, s.csrWrite c num v = some t ∧ t.core c = s.core c := by
  have hn : num.toNat ∈ [0xCC0, 0xCC1, 0xCC2, 0xCC3, 0xDC0, 0xDC1, 0xDC2, 0xDC3, 0xDC4] := by
    simp only [ownReadOnly, Bool.or_eq_true, decide_eq_true_eq] at hn
    simp only [List.mem_cons, List.not_mem_nil, or_false]
    omega
  refine ⟨s.setCore c (s.core c), ?_, s.core_setCore c _⟩
  simp only [List.mem_cons, List.not_mem_nil, or_false] at hn
  rcases hn with h | h | h | h | h | h | h | h | h <;> simp only [State.csrWrite, h] <;> rfl

/-! ### The system instructions -/

/-- The code of ECALL's exception is that of the mode. -/
def Priv.ecallCode : Priv → Nat
  | .user => 8
  | .supervisor => 9
  | .machine => 11

theorem Priv.ecallCode_eq_user (p : Priv) : p.ecallCode = 8 ↔ p = .user := by
  cases p <;> decide

theorem Priv.ecallCode_ne_extFault (p : Priv) : p.ecallCode ≠ 26 := by
  cases p <;> decide

section
variable {r : RvInstr} {aqrl : BitVec 2} {len : Nat} {s : State}

/-- ECALL raises its mode's exception; in user mode with a7 = 0 it ends the core's part (R300). -/
theorem exec_ecall (hr : rvForm r .ecall aqrl len) :
    exec (.controlThreadRiscvInstruction r) s =
      .next ((if s.curHart.priv = .user ∧ s.curHart.reg 17 = 0
        then s.modHart s.curCore fun h => { h with partEnd := true } else s).ctTrap
          s.curCore s.curHart.priv.ecallCode 0) := by
  rw [exec_excepts hr rfl (Priv.ecallCode_ne_extFault s.curHart.priv) fun _ => rfl]
  simp only [Priv.ecallCode_eq_user]

theorem exec_ebreak (hr : rvForm r .ebreak aqrl len) :
    exec (.controlThreadRiscvInstruction r) s =
      .next (s.ctTrap s.curCore 3 s.curHart.pc) :=
  exec_excepts hr rfl (by decide) fun _ => rfl

theorem State.rvExec_mret (c : Nat) (word : DWord) (hp : (s.hart c).priv = .machine) :
    s.rvExec c aqrl len word .mret =
      (.ok (s.setHart c (s.hart c).mret), (s.hart c).mepc) := if_pos hp

/-- A mode that may run an instruction of supervisor mode, which a bit of mstatus can keep from it. -/
theorem Priv.not_barred {p : Priv} {b : Bool} (hp : p = .machine ∨ p = .supervisor ∧ b = false) :
    ¬(p = .user ∨ p = .supervisor ∧ b = true) := by
  obtain rfl | ⟨rfl, rfl⟩ := hp <;> simp

theorem State.rvExec_sret (c : Nat) (word : DWord) (hp : (s.hart c).priv = .machine ∨
    (s.hart c).priv = .supervisor ∧ (s.hart c).mstatus.getLsbD 22 = false) :
    s.rvExec c aqrl len word .sret =
      (.ok (s.setHart c (s.hart c).sret), (s.hart c).sepc) := if_neg (Priv.not_barred hp)

theorem State.rvExec_wfi (c : Nat) (word : DWord)
    (hp : (s.hart c).priv = .machine ∨ (s.hart c).mstatus.getLsbD 21 = false) :
    s.rvExec c aqrl len word .wfi =
      (.ok (s.modHart c fun h => { h with wfi := true }),
        (s.hart c).pc + BitVec.ofNat 64 len) := by
  refine if_neg fun ⟨hm, hb⟩ => ?_
  cases hp with
  | inl hp => exact hm hp
  | inr hp => rw [hp] at hb; contradiction

theorem State.rvExec_sfenceVma (c : Nat) (word : DWord) (a b : BitVec 5)
    (hp : (s.hart c).priv = .machine ∨
      (s.hart c).priv = .supervisor ∧ (s.hart c).mstatus.getLsbD 20 = false) :
    s.rvExec c aqrl len word (.sfenceVma a b) =
      (.ok (s.sfence c (if a = 0 then none else some ((s.hart c).reg a).toNat)
        (if b = 0 then none else some ((s.hart c).reg b).toNat)),
        (s.hart c).pc + BitVec.ofNat 64 len) := if_neg (Priv.not_barred hp)

end

/-- Each system instruction retires with its effect or takes its exception. -/
theorem says_riscvSystem : Says.RiscvSystem := by
  intro r op aqrl len s hr c h i next goes
  refine ⟨?csr, ?readOnly, ?ecall, ?ebreak, ?mret, ?sret, ?wfi, ?sfence, ?reserved⟩
  case csr =>
    rintro k imm rd a num old rfl src write new new' ha hread
    refine ⟨fun hw => exec_retires hr rfl fun word => ?_,
      fun t hw ht => exec_retires hr rfl fun word => ?_⟩
    · exact congrArg (·, next) (State.csrInstr_reads imm rd word ha hread hw)
    · exact congrArg (·, next) (State.csrInstr_writes imm rd word ha hread hw ht)
  case readOnly => exact s.csrWrite_ownReadOnly c
  case ecall => rintro rfl; exact exec_ecall hr
  case ebreak => rintro rfl; exact exec_ebreak hr
  case mret => rintro rfl hp; exact exec_retires hr rfl fun word => s.rvExec_mret c word hp
  case sret => rintro rfl hp; exact exec_retires hr rfl fun word => s.rvExec_sret c word hp
  case wfi => rintro rfl hp; exact exec_retires hr rfl fun word => s.rvExec_wfi c word hp
  case sfence =>
    rintro a b rfl hp
    exact exec_retires hr rfl fun word => s.rvExec_sfenceVma c word a b hp
  case reserved => exact exec_reserved

/-- Settles O34: each clause of the system instructions, and the entry into a trap with the return
from it. -/
theorem riscvSystem : Obligations.RiscvSystem :=
  ⟨says_riscvSystem, says_ctTrapEntry⟩

end Sys2Proof.Machine
end

section
/-! SUPPORT. The canonical form of the memories as a record, and the operations of the state that keep
it (R63, R65). -/

namespace Sys2Proof.Machine

/-! ### The canonical form as a record -/

/-- A core's memories are in canonical form (`Core.MemOk`, as a record). -/
structure Core.Canonical (k : Core) : Prop where
  scratch : Memory.wf k.scratch = true
  lane : Memory.wf k.lane = true
  mbox : Memory.wf k.mbox = true

/-- Every memory is in canonical form (`State.MemOk`, as a record). -/
structure State.Canonical (s : State) : Prop where
  dram : Memory.wf s.dram = true
  gran : Memory.wf s.gran = true
  remote : Memory.wf s.remote = true
  core : ∀ c, (s.core c).Canonical

theorem State.canonical_iff (s : State) : s.Canonical ↔ s.MemOk :=
  ⟨fun ⟨hd, hg, hr, hc⟩ => ⟨hd, hg, hr, fun c => ⟨(hc c).scratch, (hc c).lane, (hc c).mbox⟩⟩,
    fun ⟨hd, hg, hr, hc⟩ => ⟨hd, hg, hr, fun c => ⟨(hc c).1, (hc c).2.1, (hc c).2.2⟩⟩⟩

/-- A core with the memories of a canonical one is canonical. -/
theorem Core.Canonical.same {k l : Core} (h : k.Canonical)
    (e : (l.scratch, l.lane, l.mbox) = (k.scratch, k.lane, k.mbox)) : l.Canonical := by
  injection e with hs e
  injection e with hl hm
  exact ⟨hs ▸ h.scratch, hl ▸ h.lane, hm ▸ h.mbox⟩

theorem Core.Canonical.init : Core.init.Canonical := ⟨rfl, rfl, rfl⟩

namespace State.Canonical
variable {s t : State} {c m : Nat}

/-- A state with the memories and cores of a canonical one is canonical. The equation is given as
`by rfl`, so that it is looked at once the goal has fixed both states. -/
theorem same (h : s.Canonical)
    (e : (t.dram, t.gran, t.remote, t.cores) = (s.dram, s.gran, s.remote, s.cores)) :
    t.Canonical := by
  injection e with hd e
  injection e with hg e
  injection e with hr hc
  exact ⟨hd ▸ h.dram, hg ▸ h.gran, hr ▸ h.remote, fun c =>
    by simpa only [State.core, hc] using h.core c⟩

theorem setCore (h : s.Canonical) {k : Core} (hk : k.Canonical) : (s.setCore c k).Canonical := by
  refine ⟨h.dram, h.gran, h.remote, fun e => ?_⟩
  by_cases he : e = c
  · rwa [he, State.core_setCore]
  · rw [State.core_setCore_ne _ _ _ _ he]
    exact h.core e

theorem modCore (h : s.Canonical) {f : Core → Core} (hf : ∀ k, k.Canonical → (f k).Canonical) :
    (s.modCore c f).Canonical := h.setCore (hf _ (h.core c))

/-- A change of a core that leaves its memories. -/
theorem keepCore (h : s.Canonical) {f : Core → Core}
    (e : ∀ k, ((f k).scratch, (f k).lane, (f k).mbox) = (k.scratch, k.lane, k.mbox)) :
    (s.modCore c f).Canonical := h.modCore fun k hk => hk.same (e k)

theorem foldl {α : Type} {f : State → α → State} (h : s.Canonical) (l : List α)
    (hf : ∀ t a, t.Canonical → (f t a).Canonical) : (l.foldl f s).Canonical := by
  induction l generalizing s with
  | nil => exact h
  | cons a l ih => exact ih (hf s a h)

theorem ite {p : Prop} [Decidable p] (hs : s.Canonical) (ht : t.Canonical) :
    (if p then s else t).Canonical := by split <;> assumption

theorem setMt {t : Mt} (h : s.Canonical) : (s.setMt c m t).Canonical := h.keepCore fun _ => by rfl
theorem modMt {f : Mt → Mt} (h : s.Canonical) : (s.modMt c m f).Canonical := h.setMt
theorem setHart {t : Hart} (h : s.Canonical) : (s.setHart c t).Canonical :=
  h.keepCore fun _ => by rfl
theorem modHart {f : Hart → Hart} (h : s.Canonical) : (s.modHart c f).Canonical := h.setHart
theorem setDie {x : Die} (h : s.Canonical) : (s.setDie c x).Canonical := h.same (by rfl)
theorem modDie {f : Die → Die} (h : s.Canonical) : (s.modDie c f).Canonical := h.setDie
theorem modTile {f : TileSt → TileSt} (h : s.Canonical) : (s.modTile c f).Canonical :=
  h.same (by rfl)
theorem modChan {f : Chan → Chan} (h : s.Canonical) : (s.modChan c f).Canonical := h.same (by rfl)
theorem modRing {f : Ring → Ring} (h : s.Canonical) : (s.modRing c f).Canonical := h.same (by rfl)
end State.Canonical

/-! ### Writes of memory, and what leaves memory alone -/

theorem Cells.look_map_induct {α : Type} {P : α → Prop} {d : α} {f : Nat × α → Nat × α}
    {m : Cells α} {k : Nat} (hf : ∀ e, (f e).1 = e.1) (hP : ∀ e, P e.2 → P (f e).2) (hd : P d)
    (h : P (Cells.look d m k)) :
    P (Cells.look d (m.map f) k) := by
  induction m with
  | nil => exact hd
  | cons e t ih =>
    obtain ⟨a, v⟩ := e
    have ha : (f (a, v)).1 = a := hf (a, v)
    simp only [List.map_cons, Cells.look, ha] at h ⊢
    by_cases h1 : k < a
    · simpa only [h1, ↓reduceIte] using hd
    · by_cases h2 : k = a
      · simp only [h2, ↓reduceIte, lt_self_iff_false] at h ⊢
        exact hP (a, v) h
      · simp only [h1, h2, ↓reduceIte] at h ⊢
        exact ih h

namespace Core.Canonical
variable {k : Core} {m : Nat}

theorem closeChain (h : k.Canonical) :
    (k.closeChain m).Canonical := by
  unfold Core.closeChain
  split
  · split
    · exact h.same (by rfl)
    · exact h
  · exact h

theorem ownerIdle (h : k.Canonical) :
    (k.ownerIdle m).Canonical := by
  unfold Core.ownerIdle
  split
  · exact h.same (by rfl)
  · exact h

end Core.Canonical

namespace State.Canonical
variable {s t : State} {c m : Nat}

theorem unpoison {l n} (h : s.Canonical) : (s.unpoison l n).Canonical := h.same (by rfl)

theorem putLoc {l bs} (h : s.Canonical) : (s.putLoc l bs).Canonical := by
  unfold State.putLoc
  cases l with
  | lane =>
    refine h.modCore fun k hk => ?_
    exact ⟨hk.scratch, Memory.wf_write _ _ _ hk.lane, hk.mbox⟩
  | scratch =>
    refine h.modCore fun k hk => ?_
    exact ⟨Memory.wf_write _ _ _ hk.scratch, hk.lane, hk.mbox⟩
  | mbox =>
    refine h.modCore fun k hk => ?_
    exact ⟨hk.scratch, hk.lane, Memory.wf_write _ _ _ hk.mbox⟩
  | gran => exact ⟨h.dram, Memory.wf_write _ _ _ h.gran, h.remote, h.core⟩
  | dram => exact ⟨Memory.wf_write _ _ _ h.dram, h.gran, h.remote, h.core⟩
  | remote => exact ⟨h.dram, h.gran, Memory.wf_write _ _ _ h.remote, h.core⟩
  | device => exact h
  | pcie => exact h

theorem dropResv {l} (h : s.Canonical) : (s.dropResv l).Canonical := by
  unfold State.dropResv
  split
  · exact h
  · refine .ite ⟨h.dram, h.gran, h.remote, fun c => ?_⟩ h
    refine Cells.look_map_induct (fun e => ?_) (fun e he => ?_) .init (h.core c)
    · split <;> rfl
    · split
      · exact he.same (by rfl)
      · exact he

theorem writeLoc {l bs} (h : s.Canonical) : (s.writeLoc l bs).Canonical :=
  h.putLoc.unpoison.dropResv
theorem writeW {l w} (h : s.Canonical) : (s.writeW l w).Canonical := h.writeLoc

theorem throughOwn {l bs} (h : s.Canonical) : (s.throughOwn c l bs).Canonical := by
  cases l <;> exact h.same (by rfl)

theorem writeBy {l bs} (h : s.Canonical) : (s.writeBy c l bs).Canonical := h.writeLoc.throughOwn
theorem writeWBy {l w} (h : s.Canonical) : (s.writeWBy c l w).Canonical := h.writeBy

theorem writeVirt {x ws va} (h : s.Canonical) (e : s.writeVirt c x va ws = some t) :
    t.Canonical := by
  induction ws generalizing va t with
  | nil => cases e; exact h
  | cons w ws ih =>
    unfold State.writeVirt at e
    split at e
    · cases e
    · cases e
    · cases e
    · obtain ⟨u, hu, rfl⟩ := Option.map_eq_some_iff.mp e
      exact (ih hu).writeWBy

theorem sfence {va asid} (h : s.Canonical) : (s.sfence c va asid).Canonical := h.same (by rfl)
theorem acquireDom (h : s.Canonical) : (s.acquireDom c).Canonical := h.same (by rfl)
theorem acquireAt {n} (h : s.Canonical) : (s.acquireAt c n).Canonical := .ite h.acquireDom h
theorem dropLines {pas} (h : s.Canonical) : (s.dropLines c pas).Canonical := h.same (by rfl)
theorem dropCached (h : s.Canonical) : (s.dropCached c).Canonical := h.same (by rfl)
theorem dropRecs {gone} (h : s.Canonical) : (s.dropRecs gone).Canonical := h.same (by rfl)

theorem stepRegion {a} (h : s.Canonical) : (s.stepRegion a).Canonical := by
  unfold State.stepRegion
  split
  · exact h.modMt
  · exact h.modHart
  · exact h

/-! ### Scratchpad accesses that go late or early -/

theorem landStore {x} (h : s.Canonical) : (s.landStore x).Canonical :=
  .ite (h.writeW.keepCore fun _ => by rfl) h.writeW
theorem landAll {p} (h : s.Canonical) : (s.landAll c p).Canonical :=
  .ite ((h.keepCore fun _ => by rfl).foldl _ fun _ _ h => h.landStore) h
theorem dropEarly {p} (h : s.Canonical) : (s.dropEarly c p).Canonical :=
  .ite (h.keepCore fun _ => by rfl) h
theorem padOrder {spc pad} (h : s.Canonical) : (s.padOrder c m spc pad).Canonical :=
  h.landAll.dropEarly
theorem padStore {x} (h : s.Canonical) : (s.padStore c x).Canonical :=
  .ite (h.dropEarly.keepCore fun _ => by rfl) h.padOrder.landStore

theorem padLoad {spc pad off} (h : s.Canonical) : (s.padLoad c m spc pad off).1.Canonical := by
  unfold State.padLoad
  dsimp only
  split
  · dsimp only
    exact h.landAll.keepCore fun _ => by rfl
  · exact h.landAll.dropEarly

theorem padView (h : s.Canonical) : (s.padView c).Canonical := h.landAll
theorem settle (h : s.Canonical) : (s.settle c m).Canonical := h.landAll.dropEarly

theorem landNext {q} (h : s.Canonical) : (s.landNext q).Canonical := by
  unfold State.landNext
  dsimp only
  split
  · exact h
  · exact .ite h (h.keepCore fun _ => by rfl).landStore

theorem readEarly {q} (h : s.Canonical) : (s.readEarly q).Canonical :=
  .ite h (h.keepCore fun _ => by rfl)
theorem forgetEarly {q} (h : s.Canonical) : (s.forgetEarly q).Canonical :=
  .ite (h.keepCore fun _ => by rfl) h
theorem padsNext (h : s.Canonical) : s.padsNext.Canonical :=
  ((h.foldl _ fun _ _ h => h.landNext).foldl _ fun _ _ h => h.forgetEarly).foldl _
    fun _ _ h => h.readEarly

/-! ### Regions -/

theorem settleAgent {a} (h : s.Canonical) : (s.settleAgent a).Canonical := .ite h.settle h
theorem closeRegion {a} (h : s.Canonical) : (s.closeRegion a).Canonical :=
  h.settleAgent.stepRegion.dropRecs
theorem closesDone {a} (h : s.Canonical) : (s.closesDone a).Canonical := .ite h.dropRecs h
theorem closeRec {q} (h : s.Canonical) : (s.closeRec q).Canonical := .ite h.closeRegion h.dropRecs

theorem lineRoom {key} (h : s.Canonical) : (s.lineRoom key).Canonical := by
  refine .ite ?_ h
  split
  · exact (h.foldl _ fun _ _ h => h.closeRec).same (by rfl)
  · exact h

theorem enterLine {key a rsn bytes write} (h : s.Canonical) :
    (s.enterLine key a rsn bytes write).Canonical := by
  unfold State.enterLine
  dsimp only
  split
  · exact h.lineRoom.closeRec.same (by rfl)
  · exact h.lineRoom.same (by rfl)

theorem regionAccess {a rsn engine l n write special} (h : s.Canonical)
    (e : s.regionAccess a rsn engine l n write special = .ok t) : t.Canonical := by
  unfold State.regionAccess at e
  split at e
  · cases e; exact h
  · split at e
    · cases e; exact h
    · dsimp only at e
      split at e
      · cases e
      · split at e
        · cases e
        · cases e
          have hc := fun xs => h.foldl (f := State.closeRec) xs fun _ _ h => h.closeRec
          exact .ite (hc _) (hc _).enterLine

/-! ### Messages -/

theorem setFlow {f} (h : s.Canonical) : (s.setFlow f).Canonical := h.same (by rfl)
theorem putWire {ps} (h : s.Canonical) : (s.putWire ps).Canonical := h.same (by rfl)
theorem unblock {src dst cls} (h : s.Canonical) : (s.unblock src dst cls).Canonical :=
  h.foldl _ fun _ _ h => h.setFlow.putWire
theorem injectFor {who p} (h : s.Canonical) : (s.injectFor who p).Canonical :=
  .ite h.setFlow.putWire h.setFlow
theorem inject {p} (h : s.Canonical) : (s.inject p).Canonical := h.injectFor
theorem sendAs {who core dst cls grp gen pl} (h : s.Canonical) :
    (s.sendAs who core dst cls grp gen pl).Canonical :=
  .injectFor (.ite (.keepCore (.ite (h.keepCore fun _ => by rfl) h) fun _ => by rfl)
    (.ite (h.keepCore fun _ => by rfl) h))
theorem send {core dst cls grp gen pl} (h : s.Canonical) :
    (s.send core dst cls grp gen pl).Canonical := h.sendAs
theorem sendFor {a rsn core dst grp gen pl} (h : s.Canonical) :
    (s.sendFor a rsn core dst grp gen pl).Canonical := (h.keepCore fun _ => by rfl).sendAs

theorem sentDoneOn {pl} (h : s.Canonical) : (s.sentDoneOn c pl).Canonical := by
  unfold State.sentDoneOn
  dsimp only
  split
  · exact (h.setCore ((h.core c).same (by rfl))).closesDone
  · exact h

theorem sendFrom {src dst pl} (h : s.Canonical) : (s.sendFrom src dst pl).Canonical := h.inject

/-! ### Wakes -/

theorem setGate {g} (h : s.Canonical) : (s.setGate c g).Canonical := h.keepCore fun _ => by rfl
theorem setArbiter {q a} (h : s.Canonical) : (s.setArbiter q a).Canonical := h.same (by rfl)

theorem startWakes {q n} (h : s.Canonical) : (s.startWakes q n).Canonical := by
  induction n generalizing s with
  | zero => exact h
  | succ n ih =>
    unfold State.startWakes
    dsimp only
    split
    · exact .ite (ih h.setArbiter.setGate) h
    · exact h

theorem startAllWakes (h : s.Canonical) : s.startAllWakes.Canonical :=
  h.foldl _ fun _ _ h => h.startWakes
theorem joinArbiter (h : s.Canonical) : (s.joinArbiter c).Canonical := h.setArbiter.setGate

theorem wake (h : s.Canonical) : (s.wake c).Canonical := by
  unfold State.wake
  split
  · exact h
  · exact h
  · exact h
  · exact h.setGate
  · exact h.setGate
  · exact h.joinArbiter

/-! ### Trap records and stops -/

theorem writeSlot {slot r} (h : s.Canonical) : (s.writeSlot c slot r).1.Canonical := by
  unfold State.writeSlot
  dsimp only
  split
  · split
    · exact h.writeVirt ‹_›
    · exact h
  · exact h

theorem steerRecord {r} (h : s.Canonical) : (s.steerRecord c r).Canonical := .ite h h.send
theorem lateRecord {r} (h : s.Canonical) : (s.lateRecord c r).Canonical :=
  .steerRecord (.ite (h.writeSlot.keepCore fun _ => by rfl).wake (h.writeSlot.keepCore fun _ =>
    by rfl))
theorem engineFault {srck mt code seq info aux} (h : s.Canonical) :
    (s.engineFault c srck mt code seq info aux).Canonical := h.lateRecord

theorem dropAsk (h : s.Canonical) : (s.dropAsk c).Canonical := h.same (by rfl)
theorem uncount {key phase} (h : s.Canonical) : (s.uncount key phase).Canonical := h.same (by rfl)

theorem withdraw {key phase} (h : s.Canonical) : (s.withdraw c key phase).Canonical := by
  refine .ite h ?_
  split
  · exact h.same (by rfl)
  · exact h.uncount

theorem abandon (h : s.Canonical) : (s.abandon c m).Canonical := by
  unfold State.abandon
  refine .modMt ?_
  split
  · exact h.withdraw
  · exact h

theorem idleMt (h : s.Canonical) : (s.idleMt c m).Canonical :=
  h.setMt.modCore fun _ hk => hk.ownerIdle

theorem disband (h : s.Canonical) : (s.disband c m).Canonical := by
  unfold State.disband
  split
  · exact h
  · refine h.foldl _ fun t x ht => ?_
    have hc : (t.modCore x (·.closeChain m)).Canonical := ht.modCore fun _ hk => hk.closeChain
    exact .ite hc.modMt hc.idleMt

theorem toStopping (h : s.Canonical) : (s.toStopping c m).Canonical := by
  unfold State.toStopping
  exact .modMt (.modCore h.closeRegion fun _ hk => hk.closeChain)

theorem stopMt (h : s.Canonical) : (s.stopMt c m).Canonical := by
  refine .ite h (.ite h.modMt ?_)
  split
  · exact (h.foldl _ fun _ _ h => h.abandon).disband.toStopping
  · exact h.abandon.toStopping

theorem boundary (h : s.Canonical) : (s.boundary c m).Canonical := .ite h.modMt.stopMt h
theorem unask {q} (h : s.Canonical) : (s.unask c q).Canonical :=
  .foldl (.ite h.modHart h) _ fun _ _ h => h.modMt.boundary

theorem takeTrap {memb pc w x} (h : s.Canonical) : (s.takeTrap c m memb pc w x).Canonical := by
  refine .boundary (.steerRecord (.modMt (.writeSlot (.modCore (.disband ?_) fun _ hk =>
    hk.closeChain))))
  split
  · exact h.foldl _ fun _ _ h => h.closeRegion
  · exact h.closeRegion

theorem resumeMt (h : s.Canonical) : (s.resumeMt c m).Canonical := by
  unfold State.resumeMt
  split
  · exact h
  · exact h.modMt

theorem ctTrap {code v} (h : s.Canonical) : (s.ctTrap c code v).Canonical := h.modHart
theorem extFault {cause detail} (h : s.Canonical) : (s.extFault c cause detail).Canonical :=
  h.ctTrap
theorem ctRetire {user npc} (h : s.Canonical) : (s.ctRetire c user npc).Canonical :=
  .ite h.modHart.modHart h.modHart

end State.Canonical

/-! ### Rings, containment records and groups -/

namespace State.Canonical
variable {s t : State} {c m d p : Nat}

theorem setNode {n x} (h : s.Canonical) : (s.setNode n x).Canonical := h.modDie

theorem modNode {n f} (h : s.Canonical) : (s.modNode n f).Canonical := by
  unfold State.modNode
  split
  · exact h.setNode
  · exact h

theorem ringWrite {r bytes} (h : s.Canonical) : (s.ringWrite r bytes).Canonical := by
  unfold State.ringWrite
  refine .modRing ?_
  split
  · exact h.writeLoc
  · exact h

theorem ringDeliver {r bs} (h : s.Canonical) : (s.ringDeliver r bs).Canonical :=
  .ite h.ringWrite h.modRing
theorem contain {r} (h : s.Canonical) : (s.contain r).Canonical := h.ringDeliver
theorem dropGroup {g} (h : s.Canonical) : (s.dropGroup g).Canonical := .ite h h.modDie
theorem dropCopyGroup {o} (h : s.Canonical) : (s.dropCopyGroup o).Canonical := h.dropGroup

/-! ### Ends of cores and launches -/

theorem dropQueued (h : s.Canonical) : (s.dropQueued c).Canonical := by
  unfold State.dropQueued
  exact keepCore (dropAsk (foldl h _ fun _ _ h => h.dropCopyGroup)) fun _ => by rfl

theorem stopCore (h : s.Canonical) : (s.stopCore c).Canonical := by
  unfold State.stopCore
  exact keepCore (dropQueued (foldl h _ fun _ _ h => h.stopMt)) fun _ => by rfl

theorem closeCore (h : s.Canonical) : (s.closeCore c).Canonical :=
  (h.foldl _ fun _ _ h => h.closeRegion).closeRegion.dropRecs

theorem unbind {key} (h : s.Canonical) : (s.unbind key).Canonical := by
  unfold State.unbind
  split
  · exact h
  · split
    · exact h.same (by rfl)
    · have hq : State.Canonical { s with qhomes := s.qhomes.del key } := h.same (by rfl)
      exact .ite hq hq.writeW.writeW

theorem dropQueues (h : s.Canonical) : (s.dropQueues c).Canonical := by
  refine foldl ?_ _ fun _ _ h => h.unbind
  exact h.same (by rfl)

theorem tilesFreed (h : s.Canonical) : s.tilesFreed.Canonical := h.same (by rfl)

theorem resetOn (h : s.Canonical) : (s.resetOn c).Canonical := by
  unfold State.resetOn
  refine same (setCore (foldl h.dropQueues.dropAsk.closeCore.dropCached _ fun _ _ h =>
    h.dropCopyGroup) ?_)
    (by rfl)
  exact ⟨rfl, rfl, rfl⟩

theorem resetCore (h : s.Canonical) : (s.resetCore c).Canonical := by
  unfold State.resetCore
  dsimp only
  split
  · exact h.wake.resetOn
  · exact h.wake.resetOn
  · exact h.wake.keepCore fun _ => by rfl

theorem abandonMigrations {cores} (h : s.Canonical) : (s.abandonMigrations cores).1.Canonical := by
  unfold State.abandonMigrations
  refine List.foldlRecOn (motive :=
    fun r : State × List Nat => r.1.Canonical) _ _ h fun r hr d _ => ?_
  dsimp only
  split
  · exact hr.modDie.foldl _ fun _ _ h => h.keepCore fun _ => by rfl
  · exact hr

theorem endLaunch {inside n} (h : s.Canonical) : (s.endLaunch inside n).Canonical := by
  unfold State.endLaunch
  split
  · exact h
  · exact h.setNode.foldl _ fun _ _ h => h.stopCore

theorem dropFlows (h : s.Canonical) : (s.dropFlows d p).Canonical := by
  refine foldl (same (foldl h _ fun _ f ht => ?_) (by rfl)) _ fun _ _ h => h.unblock
  exact ht.foldl _ fun _ _ h => h.dropGroup

theorem killRest (h : s.Canonical) : (s.killRest d p).Canonical := by
  unfold State.killRest
  refine modDie (tilesFreed (same (dropFlows (foldl ?_ _ fun _ _ h => h.resetCore)) (by rfl)))
  exact foldl h.abandonMigrations _ fun _ _ h => h.endLaunch

theorem killPaddock (h : s.Canonical) : (s.killPaddock d p).Canonical :=
  .ite h (.ite h.modDie.dropFlows.modDie h.modDie.dropFlows.killRest)

theorem consumePoison {e} (h : s.Canonical) : (s.consumePoison c e).Canonical :=
  h.killPaddock.contain

/-! ### Performed and discarded messages -/

theorem sentDoneFor {src ctx pl} (h : s.Canonical) : (s.sentDoneFor src ctx pl).Canonical :=
  h.foldl _ fun _ _ h => h.sentDoneOn
theorem sentDone {q} (h : s.Canonical) : (s.sentDone q).Canonical := h.sentDoneFor

theorem discardPaired {q} (h : s.Canonical) : (s.discardPaired q).Canonical := by
  unfold State.discardPaired
  split
  · exact h.sentDoneOn.unask
  · exact h

theorem discardHeld {q} (h : s.Canonical) : (s.discardHeld q).Canonical := by
  refine .ite (foldl ?_ _ fun _ _ h => h.discardPaired) h
  exact h.same (by rfl)

theorem pairAbort {ty a b tag x y} (h : s.Canonical) : (s.pairAbort ty a b tag x y).Canonical :=
  h.killPaddock.killPaddock.discardHeld.contain

/-! ### DRAM channels -/

theorem joinChan {w ch} (h : s.Canonical) : (s.joinChan w ch).Canonical := h.modChan
theorem leaveChan {w ch} (h : s.Canonical) : (s.leaveChan w ch).Canonical := .ite h.modChan h
theorem joinAll {w ls} (h : s.Canonical) : (s.joinAll w ls).Canonical :=
  h.foldl _ fun _ _ h => h.joinChan
theorem leaveAll {w} (h : s.Canonical) : (s.leaveAll w).Canonical := .ite (h.same (by rfl)) h

/-- Both answers of an access at its channels are canonical. -/
theorem viaChannels {w ls} (h : s.Canonical) :
    (∀ t, s.viaChannels w ls = .ok t → t.Canonical) ∧
      ∀ t, s.viaChannels w ls = .error t → t.Canonical := by
  unfold State.viaChannels
  split
  · exact ⟨fun _ e => (by cases e), fun _ e => (by cases e; exact h.joinAll)⟩
  · exact ⟨fun _ e => (by cases e; exact h.leaveAll), fun _ e => (by cases e)⟩

/-! ### Paddocks, undervolting and repairs -/

theorem freshReceive (h : s.Canonical) : (s.freshReceive d p).Canonical := h.same (by rfl)
theorem unfence (h : s.Canonical) : (s.unfence d p).Canonical := .ite h.freshReceive.modDie h

theorem pdkWrite {v} (h : s.Canonical) : (s.pdkWrite d p v).Canonical := by
  unfold State.pdkWrite
  dsimp only
  have hm : ∀ {b : Bool} {f}, State.Canonical (if b then s.modDie d f else s) := .ite h.modDie h
  exact .ite h (.ite (.unfence (.ite hm.killPaddock hm)) (.ite hm.killPaddock hm))

theorem cpFail (h : s.Canonical) : (s.cpFail d).Canonical :=
  .ite h (h.modDie.foldl _ fun _ _ h => h.endLaunch).contain
theorem modUv {q f} (h : s.Canonical) : (s.modUv d q f).Canonical := h.same (by rfl)
theorem backOff {q} (h : s.Canonical) : (s.backOff d q).Canonical := .ite h.modUv.contain h
theorem moveChannels {cs} (h : s.Canonical) : (s.moveChannels d cs).Canonical := by
  unfold State.moveChannels
  exact modDie (foldl h _ fun _ _ h => h.modChan)

theorem useSpare {r} (h : s.Canonical) : (s.useSpare r).Canonical := by
  unfold State.useSpare
  dsimp only
  split
  · exact h.moveChannels.modDie.modTile.modDie
  · exact h.moveChannels.modDie

theorem retire {r} (h : s.Canonical) : (s.retire r).Canonical := by
  unfold State.retire
  split
  · exact h.modTile
  · exact h.modDie
  · exact h.modDie
  · exact h.modDie

end State.Canonical

/-! ### The steps of containment -/

/-- The state that a meaning answers is canonical. -/
def KeepsMem (o : Out) : Prop := ∀ t, o = .next t → t.Canonical

theorem KeepsMem.next {t : State} (h : t.Canonical) : KeepsMem (.next t) := by
  rintro _ ⟨⟩
  exact h

section
variable {s : State} {d p q a : Nat} (h : s.Canonical)
include h

theorem execPaddockDefine_keepsMem {v} : KeepsMem (execPaddockDefine d p v s) := .next h.pdkWrite
theorem execPaddockKill_keepsMem : KeepsMem (execPaddockKill d p s) := .next h.killPaddock
theorem execPaddockUnfence_keepsMem : KeepsMem (execPaddockUnfence d p s) := .next h.unfence

theorem execUncorrectableError_keepsMem {e} : KeepsMem (execUncorrectableError e s) := by
  unfold execUncorrectableError
  split
  · exact .next h.cpFail
  · exact .next (h.same (by rfl))

theorem execLockstepMismatch_keepsMem : KeepsMem (execLockstepMismatch d s) := by
  unfold execLockstepMismatch
  dsimp only
  split
  · exact .next h
  · exact .next (.ite h.modDie.cpFail h.modDie)

theorem execCpResume_keepsMem : KeepsMem (execCpResume d s) := by
  unfold execCpResume
  dsimp only
  split
  · exact .next h
  · exact .next (h.modDie.foldl _ fun _ _ h => .ite h.killRest h).contain

theorem execCorrectedError_keepsMem : KeepsMem (execCorrectedError d q a s) := by
  unfold execCorrectedError
  dsimp only
  split
  · split
    · exact .next h.modDie.modUv.modDie.modDie.contain
    · exact .next h.modDie.modUv.modDie
  · exact .next h.modDie.modUv

theorem execUndervoltStepUp_keepsMem : KeepsMem (execUndervoltStepUp d q s) := by
  unfold execUndervoltStepUp
  dsimp only
  split
  · exact .next h.modUv
  · exact .next h

theorem execUvctlLockClear_keepsMem : KeepsMem (execUvctlLockClear d q s) := by
  unfold execUvctlLockClear
  dsimp only
  split
  · exact .next h.modUv
  · exact .next h

theorem execSpareBind_keepsMem {r} : KeepsMem (execSpareBind r s) := by
  unfold execSpareBind
  dsimp only
  split
  · exact .next h
  · split
    · exact .next h.modDie
    · split
      · exact .next h.killPaddock.modDie.useSpare.contain
      · exact .next h.killPaddock.modDie.retire.contain

end

end Sys2Proof.Machine
end

section
/-! SUPPORT. The canonical form under the register instructions and under the issue of an instruction:
what a part answers and what its stops keep (R160, R298). -/

namespace Sys2Proof.Machine

/-! ### What an answer with stops keeps -/

/-- The states that a stop keeps are canonical. -/
inductive Stop.Canonical : Stop → Prop
  | waitNone : Stop.Canonical (.wait none)
  | wait {t : State} (h : t.Canonical) : Stop.Canonical (.wait (some t))
  | stallNone : Stop.Canonical (.stall none)
  | stall {t : State} (h : t.Canonical) : Stop.Canonical (.stall (some t))
  | channel {ls : List Loc} : Stop.Canonical (.channel ls)
  | trap {e : Exn} : Stop.Canonical (.trap e)
  | poison {e : ErrorSite} : Stop.Canonical (.poison e)

/-- An answer satisfies `P`, or is a stop that satisfies `E`. -/
inductive Ends {ε α : Type} (E : ε → Prop) (P : α → Prop) : Except ε α → Prop
  | ok {a : α} (h : P a) : Ends E P (.ok a)
  | error {e : ε} (h : E e) : Ends E P (.error e)

section
variable {ε α β : Type} {E : ε → Prop} {P : α → Prop} {Q : β → Prop} {x : Except ε α}

theorem Ends.of_ok (hx : Ends E P x) {a : α} (e : x = .ok a) : P a := by
  subst e
  cases hx with
  | ok h => exact h

theorem Ends.of_error (hx : Ends E P x) {e : ε} (he : x = .error e) : E e := by
  subst he
  cases hx with
  | error h => exact h

theorem Ends.map (hx : Ends E P x) {f : α → β} (hf : ∀ a, P a → Q (f a)) : Ends E Q (x.map f) := by
  cases hx with
  | ok h => exact .ok (hf _ h)
  | error h => exact .error h

theorem Ends.ite {p : Prop} [Decidable p] {y : Except ε α} (hx : Ends E P x) (hy : Ends E P y) :
    Ends E P (if p then x else y) := by split <;> assumption


end

/-- The part of one member answers a canonical state, and keeps one where it stops. -/
def BodyKeeps (body : Who → State → Res) : Prop :=
  ∀ w s, s.Canonical → Ends Stop.Canonical State.Canonical (body w s)

/-- A check changes nothing: it passes, or stops with nothing kept. -/
abbrev Checks {α : Type} (r : Except Stop α) : Prop := Ends Stop.Canonical (fun _ => True) r

/-! ### Operands -/

theorem need_checks {ok e} (he : Stop.Canonical e) : Checks (need ok e) :=
  .ite (.ok trivial) (.error he)

theorem readStream_checks {t : Mt} {q} : Checks (t.readStream q) := by
  unfold Mt.readStream
  split
  · exact .error .trap
  · exact .error .waitNone
  · split
    · exact .ite (.ok trivial) (.ok trivial)
    · exact .ite (.ite (.error .trap) (.error .trap)) (.error .waitNone)

theorem streamCheck_checks {t : Mt} {o} : Checks (streamCheck t o) := by
  unfold streamCheck
  split
  · exact readStream_checks.map fun _ _ => trivial
  · exact .ok trivial

theorem firstStop_checks {a b} (ha : Checks a) (hb : Checks b) : Checks (firstStop a b) := by
  unfold firstStop
  split
  · exact ha
  · exact hb
  · exact ha
  · exact hb
  · exact .ok trivial

section
variable {s : State} {w : Who} {c m : Nat}

theorem State.src_ends {t whole o} (h : s.Canonical) :
    Ends Stop.Canonical (fun r => r.1.Canonical) (s.src w t whole o) := by
  unfold State.src
  split
  · split
    · exact .error (readStream_checks.of_error ‹_›)
    · exact .ok h.setMt.closeRegion
  · exact .ok h

theorem State.src2_ends {t b x whole} (h : s.Canonical) :
    Ends Stop.Canonical (fun r => r.1.Canonical) (s.src2 w t b x whole) := by
  unfold State.src2
  split
  · exact .error ((firstStop_checks streamCheck_checks streamCheck_checks).of_error ‹_›)
  · split
    · exact .error ((src_ends h).of_error ‹_›)
    · have h1 := (src_ends h).of_ok ‹_›
      split
      · exact .error ((src_ends h1).of_error ‹_›)
      · exact .ok ((src_ends h1).of_ok ‹_›)

namespace State.Canonical

theorem modSelf {f} (h : s.Canonical) : (s.modSelf w f).Canonical := h.modMt
theorem keepHome {f : Core → Core} (h : s.Canonical)
    (e : ∀ k, ((f k).scratch, (f k).lane, (f k).mbox) = (k.scratch, k.lane, k.mbox)) :
    (s.modHome w f).Canonical := h.keepCore e

theorem writeDst {o f} (h : s.Canonical) : (s.writeDst w o f).Canonical := by
  unfold State.writeDst
  split
  · exact h.modSelf
  · exact h.modSelf
  · exact h

end State.Canonical

theorem State.resolve_checks {role} : Checks (s.resolve c role) := by
  unfold State.resolve
  exact .ite (.error .trap) (.ite (.error .trap) (.ite (.ok trivial) (.ite (.ok trivial) (.error
    .trap))))

end

/-! ### The register instructions -/

theorem elem1_keeps {f g} : BodyKeeps (elem1 f g) := by
  intro w s h
  unfold elem1
  split
  · exact .error ((State.src_ends h).of_error ‹_›)
  · exact .ok ((State.src_ends h).of_ok ‹_›).writeDst

section
variable {s t u : State} {w : Who} {f : Ny} {ty : Ty} {whole : Bool} {o b x : Operand}

theorem State.src_ok {g} (h : s.Canonical) (e : s.src w ty whole o = .ok (t, g)) : t.Canonical :=
  (src_ends h).of_ok e
theorem State.src_error {e} (h : s.Canonical) (he : s.src w ty whole o = .error e) : e.Canonical :=
  (src_ends h).of_error he
theorem State.src2_ok {g} (h : s.Canonical) (e : s.src2 w ty b x whole = .ok (t, g)) :
    t.Canonical :=
  (src2_ends h).of_ok e
theorem State.src2_error {e} (h : s.Canonical) (he : s.src2 w ty b x whole = .error e) :
  e.Canonical :=
  (src2_ends h).of_error he

namespace State.Canonical

theorem setPred {v} (h : s.Canonical) : (s.setPred w o v).Canonical := by
  unfold State.setPred
  split
  · exact h.modSelf
  · exact h

theorem writeCond {g k l} (h : s.Canonical) : (s.writeCond w f g k l).Canonical := by
  unfold State.writeCond
  split
  · exact h.modSelf
  · exact h.writeDst

theorem writeAll {r g} (h : s.Canonical) : (s.writeAll w r g).Canonical := h.modSelf
theorem signalWindow {c j word v} (h : s.Canonical) : (s.signalWindow w c j word v).Canonical :=
  h.padStore

theorem signalRole {tg word v} (h : s.Canonical) : (s.signalRole w tg word v).Canonical := by
  unfold State.signalRole
  dsimp only
  split
  · exact h.sendFor
  · exact h.sendFor
  · exact h.sendFor
  · exact h

end State.Canonical

theorem elem2_keeps {g} : BodyKeeps (elem2 f g) := by
  intro w s h
  unfold elem2
  split
  · exact .error (State.src2_error h ‹_›)
  · exact .ok (State.src2_ok h ‹_›).writeDst

theorem elem3_keeps {g} : BodyKeeps (elem3 f g) := by
  intro w s h
  unfold elem3
  split
  · exact .error (State.src2_error h ‹_›)
  · exact .ok (State.src2_ok h ‹_›).writeDst

theorem word1_keeps {g} : BodyKeeps (word1 f g) := by
  intro w s h
  unfold word1
  split
  · exact .error (State.src_error h ‹_›)
  · exact .ok (State.src_ok h ‹_›).writeDst

theorem word2_keeps {g} : BodyKeeps (word2 f g) := by
  intro w s h
  unfold word2
  split
  · exact .error (State.src2_error h ‹_›)
  · exact .ok (State.src2_ok h ‹_›).writeDst

theorem offsetCheck_checks {n ls} : Checks (offsetCheck n ls) := by
  unfold offsetCheck
  split
  · exact .error .trap
  · exact .ok trivial

theorem movBody_keeps : BodyKeeps (movBody f) := by
  intro w s h
  unfold movBody
  split
  · dsimp only
    split
    · exact .error (offsetCheck_checks.of_error ‹_›)
    · split
      · exact .error (State.src_error h ‹_›)
      · exact .ok ((State.src_ok h ‹_›).foldl _ fun _ _ h => h.signalWindow)
  · dsimp only
    split
    · exact .error (offsetCheck_checks.of_error ‹_›)
    · split
      · exact .error (State.resolve_checks.of_error ‹_›)
      · refine .ite (.error .trap) ?_
        split
        · exact .error (State.src_error h ‹_›)
        · exact .ok ((State.src_ok h ‹_›).foldl _ fun _ _ h => h.signalRole)
  · split
    · exact .error (State.src_error h ‹_›)
    · exact .ok (State.src_ok h ‹_›).modSelf
  · exact word1_keeps w s h

theorem bfxBody_keeps : BodyKeeps (bfxBody f) := by
  intro w s h
  unfold bfxBody
  split
  · exact .error (State.src2_error h ‹_›)
  · exact .ok (State.src2_ok h ‹_›).writeDst

theorem bfiBody_keeps : BodyKeeps (bfiBody f) := by
  intro w s h
  unfold bfiBody
  split
  · exact .error (State.src2_error h ‹_›)
  · exact .ok (State.src2_ok h ‹_›).writeDst

theorem icmpBody_keeps : BodyKeeps (icmpBody f) := by
  intro w s h
  unfold icmpBody
  split
  · exact .error (State.src2_error h ‹_›)
  · exact .ok (State.src2_ok h ‹_›).writeCond

theorem predBody_keeps {g} : BodyKeeps (predBody f g) := by
  intro w s h
  unfold predBody
  split
  · exact .ok h.modSelf
  · exact .ok h

theorem leaBody_keeps : BodyKeeps (leaBody f) := by
  intro w s h
  refine .ite ?_ (word2_keeps w s h)
  split
  · split
    · exact .error (State.src_error h ‹_›)
    · exact .ok (State.src_ok h ‹_›).modSelf
  · exact .ok h

theorem fcmpBody_keeps : BodyKeeps (fcmpBody f) := by
  intro w s h
  unfold fcmpBody
  split
  · exact .error (State.src2_error h ‹_›)
  · exact .ok (State.src2_ok h ‹_›).writeCond

theorem cvtBody_keeps : BodyKeeps (cvtBody f) := by
  intro w s h
  unfold cvtBody
  dsimp only
  split
  · exact .error (State.src_error h ‹_›)
  · exact .ok (State.src_ok h ‹_›).writeDst

theorem qntBody_keeps : BodyKeeps (qntBody f) := by
  intro w s h
  unfold qntBody
  dsimp only
  split
  · exact .ok h.writeAll.modSelf
  · exact .ok h

theorem dqntBody_keeps : BodyKeeps (dqntBody f) := fun _ _ h => .ok h.writeDst

theorem sclfBody_keeps : BodyKeeps (sclfBody f) := by
  intro w s h
  unfold sclfBody
  split
  · exact .error (State.src2_error h ‹_›)
  · exact .ok (State.src2_ok h ‹_›).writeDst

theorem fdotBody_keeps : BodyKeeps (fdotBody f) := by
  intro w s h
  unfold fdotBody
  split
  · exact .error (State.src2_error h ‹_›)
  · exact .ok (State.src2_ok h ‹_›).writeDst

theorem sfuBody_keeps {fn} : BodyKeeps (sfuBody fn f) := fun _ _ h => elem1_keeps _ _ h
theorem l6addBody_keeps : BodyKeeps (l6addBody f) := fun _ _ h => elem2_keeps _ _ h

theorem shufBody_keeps : BodyKeeps (shufBody f) := by
  intro w s h
  unfold shufBody
  split
  · exact .error (State.src_error h ‹_›)
  · exact .ok (State.src_ok h ‹_›).writeDst

theorem bcastBody_keeps : BodyKeeps (bcastBody f) := by
  intro w s h
  unfold bcastBody
  split
  · exact .error (State.src_error h ‹_›)
  · exact .ok (State.src_ok h ‹_›).writeDst

theorem redBody_keeps : BodyKeeps (redBody f) := by
  intro w s h
  unfold redBody
  split
  · exact .error (State.src_error h ‹_›)
  · exact .ok (State.src_ok h ‹_›).writeDst

theorem scanBody_keeps : BodyKeeps (scanBody f) := by
  intro w s h
  unfold scanBody
  split
  · exact .error (State.src_error h ‹_›)
  · exact .ok (State.src_ok h ‹_›).writeDst

theorem voteBody_keeps : BodyKeeps (voteBody f) := by
  intro w s h
  unfold voteBody
  dsimp only
  split
  · exact .ok h.modSelf
  · exact .ok h.writeDst

theorem cmprsBody_keeps : BodyKeeps (cmprsBody f) := by
  intro w s h
  unfold cmprsBody
  dsimp only
  split
  · exact .ok h.writeAll.writeAll
  · exact .ok h

theorem xpndBody_keeps : BodyKeeps (xpndBody f) := by
  intro w s h
  unfold xpndBody
  dsimp only
  split
  · exact .ok h.writeAll
  · exact .ok h

end

/-! ### Issuing -/

namespace State.Canonical
variable {s t : State} {w : Who} {c m l : Nat}

theorem fst {α : Type} {x : α} (h : s.Canonical) : (s, x).1.Canonical := h

theorem stopAll (h : s.Canonical) : (s.stopAll c m).Canonical := by
  unfold State.stopAll
  split
  · exact h.foldl _ fun _ _ h => h.modMt.toStopping
  · exact h.toStopping

theorem movePc {nx} (h : s.Canonical) : (s.movePc c m nx).1.Canonical := by
  unfold State.movePc
  dsimp only
  split
  · exact h.stopAll
  · split
    · split
      · exact .fst h.modMt
      · exact .fst h.modMt
    · exact .fst h.modMt
  · split
    · exact .fst h.modMt
    · split
      · exact .fst h.modMt
      · split
        · exact .fst h.modMt
        · exact h.stopAll

theorem stepTrap (h : s.Canonical) : (s.stepTrap c m).Canonical := h.takeTrap
theorem stepDone {op} (h : s.Canonical) : (s.stepDone l m op).Canonical :=
  .ite h.modMt.stepTrap h.modMt

theorem opDone {q} (h : s.Canonical) : (s.opDone c m q).Canonical := by
  unfold State.opDone
  split
  · exact h.stepDone
  · exact h

theorem recordDone {q} (h : s.Canonical) : (s.recordDone c q).Canonical :=
  h.foldl _ fun _ _ h => h.opDone
theorem refill (h : s.Canonical) : (s.refill c).Canonical :=
  .ite h (foldl (h.keepCore fun _ => by rfl) _ fun _ _ h => h.recordDone)

theorem postRecord {r} (h : s.Canonical) : (s.postRecord c r).Canonical := by
  have hp : (s.modCore c (·.post r)).Canonical := by
    refine h.modCore fun k hk => ?_
    unfold Core.post
    split <;> exact hk.same (by rfl)
  exact .ite hp.recordDone hp

theorem issued (h : s.Canonical) : (s.issued c m).Canonical := h.keepCore fun _ => by rfl
theorem committed (h : s.Canonical) : (s.committed c m).Canonical := .ite h.setMt h.setMt.issued

theorem finish {hi nx r} (h : s.Canonical) : (s.finish c m hi nx r).Canonical := by
  unfold State.finish
  dsimp only
  split
  · exact h.committed.modMt.boundary
  · have hm := fun f => (h.committed (c := c) (m := m)).modMt (c := c) (m := m) (f := f) |>.movePc
      (c := c) (m := m) (nx := nx)
    exact .ite (.ite (hm _).modMt.boundary (hm _).stepTrap) (hm _).boundary

theorem setBound {ms v} (h : s.Canonical) : (s.setBound m ms v).Canonical := by
  refine h.foldl _ fun t x ht => ?_
  split
  · exact ht.modMt
  · exact ht

theorem giveUp {hi} (h : s.Canonical) : (s.giveUp c m hi).Canonical := by
  unfold State.giveUp
  exact finish (setBound (foldl h _ fun _ _ h => h.abandon))

theorem noIssue (h : s.Canonical) : (s.noIssue c m).Canonical := h.same (by rfl)
theorem raise {op f x e} (h : s.Canonical) : (s.raise op f x e).Canonical := h.takeTrap

end State.Canonical

/-- The states of a verdict are canonical. -/
inductive Verdict.Canonical : Verdict → Prop
  | commit {t : State} (h : t.Canonical) : Verdict.Canonical (.commit t)
  | wait {t : State} (h : t.Canonical) : Verdict.Canonical (.wait t)
  | stall {t : State} (h : t.Canonical) : Verdict.Canonical (.stall t)
  | trap {c : Nat} {e : Exn} : Verdict.Canonical (.trap c e)
  | poison {c : Nat} {e : ErrorSite} : Verdict.Canonical (.poison c e)

/-- What a stop keeps, or else the state before it. -/
theorem Stop.Canonical.kept {s : State} {k : Option State} (h : s.Canonical) :
    (Stop.wait k).Canonical ∨ (Stop.stall k).Canonical → (k.getD s).Canonical := by
  rintro (hk | hk) <;> cases hk <;> assumption

section
variable {body : Who → State → Res} (hb : BodyKeeps body) {s : State}
include hb

theorem tryMembers_canonical {lead ws waits stalls queued} (h : s.Canonical) :
    (tryMembers body lead ws s waits stalls queued).Canonical := by
  induction ws generalizing s waits stalls queued with
  | nil =>
    unfold tryMembers
    have hl : ∀ {q : Bool}, State.Canonical (if q then s else s.leaveAll lead) := .ite h h.leaveAll
    dsimp only
    split
    · exact .wait hl
    · split
      · exact .stall hl
      · exact .commit h
  | cons w ws ih =>
    unfold tryMembers
    split
    · exact ih h
    · exact ih (Stop.Canonical.kept h (.inl ((hb w s h).of_error ‹_›)))
    · exact ih (Stop.Canonical.kept h (.inr ((hb w s h).of_error ‹_›)))
    · exact ih h.joinAll
    · exact .trap
    · exact .poison

theorem commitMembers_canonical {s0 : State} {ws} (h0 : s0.Canonical) (h : s.Canonical) :
    (commitMembers body s0 ws s).Canonical := by
  induction ws generalizing s with
  | nil => exact .commit h
  | cons w ws ih =>
    unfold commitMembers
    split
    · exact ih ((hb w s h).of_ok ‹_›)
    · exact .wait h0
    · exact .stall h0
    · exact .stall h0
    · exact .trap
    · exact .poison

theorem runMembers_canonical {lead ws} (h : s.Canonical) :
    (runMembers body lead ws s).Canonical := by
  unfold runMembers
  split
  · exact commitMembers_canonical hb h h
  · exact tryMembers_canonical hb h

/-- An instruction whose part keeps the canonical form keeps it, whatever it comes to. -/
theorem State.Canonical.issueTo {i op f vec nx r} (h : s.Canonical) :
    (s.issueTo i op f vec body nx r).Canonical := by
  have hdone : ∀ {p : Prop} [Decidable p] {u : State} {m ms v c k hi n r}, u.Canonical →
      ((if p then u.setBound m ms v else u).finish c k hi n r).Canonical :=
    fun hu => .finish (.ite hu.setBound hu)
  unfold State.issueTo
  refine .ite h.raise ?_
  extract_lets held due done
  have hv := fun ws => runMembers_canonical hb (lead := s.leader) (ws := ws) h
  split
  · exact h.raise
  · exact h.consumePoison
  · rename_i k e
    have hk : k.Canonical := by cases e ▸ hv _; assumption
    exact .noIssue (.ite h hk)
  · rename_i u e
    have hu : u.Canonical := by cases e ▸ hv _; assumption
    exact .ite h.noIssue (hdone hu)
  · rename_i k e
    have hk : k.Canonical := by cases e ▸ hv _; assumption
    refine .ite ?_ (.ite h.noIssue (.ite hk.modMt hk.modMt.issued))
    split
    · rename_i u e'
      have hr := fun ws => runMembers_canonical hb (lead := s.leader) (ws := ws) hk
      have hu : u.Canonical := by
        split at e'
        · cases e'
        · cases e' ▸ hr _; assumption
      exact hdone hu
    · exact h.giveUp

theorem State.Canonical.issue {i op f vec} (h : s.Canonical) :
    (s.issue i op f vec body).Canonical :=
  .issueTo hb h

end

end Sys2Proof.Machine
end

section
/-! SUPPORT. The canonical form under the control and the memory instructions, migration and the device
registers (R205 to R230). -/

namespace Sys2Proof.Machine

/-! ### The control instructions -/

section
variable {f : Ny}

theorem jumpCheck_checks {t : Mt} {va} : Checks (jumpCheck t va) := need_checks .trap

theorem repBody_keeps {r lead} : BodyKeeps (repBody r lead) := fun _ _ h => .ok (.ite h.modSelf h)

theorem lnkwBody_keeps : BodyKeeps (lnkwBody f) :=
  fun _ _ h => .ite (.error .waitNone) (.ok (h.keepHome fun _ => by rfl))

theorem lnkrBody_keeps : BodyKeeps (lnkrBody f) := by
  intro w s h
  unfold lnkrBody
  dsimp only
  split
  · exact .error .waitNone
  · refine .ite (.error .waitNone) ?_
    split
    · exact .ok (.writeAll (h.keepHome fun _ => by rfl))
    · exact .ok (.modSelf (h.keepHome fun _ => by rfl))
    · exact .ok (h.keepHome fun _ => by rfl)

theorem ctwaitBody_keeps : BodyKeeps ctwaitBody :=
  fun _ _ h => .ite (.ok h.modSelf.closeRegion) (.error .waitNone)

theorem gangBody_keeps : BodyKeeps (gangBody f) := by
  intro w s h
  unfold gangBody
  refine .ite (.ok ?_) (.ok h.setPred)
  exact .setPred (.foldl (.foldl h _ fun _ _ h => h.modMt) _ fun _ _ h => .ite h h.wake)

theorem sleepBody_keeps : BodyKeeps (sleepBody f) := by
  intro w s h
  unfold sleepBody
  refine .ite (.ite (.ok h) (.error .waitNone)) ?_
  have hs : ∀ ws, State.Canonical (List.foldl (fun (s : State) (x : Who) =>
      s.modSelf x fun t => { t with tdead := s.now + (s.scalar x f.a).toNat }) s ws) :=
    fun ws => h.foldl ws fun _ _ h => h.modSelf
  exact .ite (.ok (hs _)) (.error (.wait (hs _)))

theorem twaitBody_keeps : BodyKeeps (twaitBody f) := fun _ _ h => .ok h.modSelf

theorem timeBody_keeps : BodyKeeps (timeBody f) := by
  intro w s h
  unfold timeBody
  dsimp only
  split
  · exact .ok h.writeAll
  · exact .ok h.modSelf
  · exact .ok h

theorem State.Canonical.softTrap {s : State} {i op code} (h : s.Canonical) :
    (s.softTrap i op f code).Canonical := by
  unfold State.softTrap
  dsimp only
  split
  · exact h.takeTrap
  · exact .issue (fun _ _ h => .ok h) h

variable {s : State} (h : s.Canonical)
include h

theorem execBra_keepsMem : KeepsMem (execBra f s) :=
  .next (.issueTo (fun _ _ h => .ite (jumpCheck_checks.map fun _ _ => h) (.ok h)) h)

theorem execBrx_keepsMem : KeepsMem (execBrx f s) :=
  .next (.issueTo
    (fun _ _ h => .ite (.ite (jumpCheck_checks.map fun _ _ => h) (.error .trap)) (.ok h)) h)

theorem execBfetch_keepsMem : KeepsMem (execBfetch f s) :=
  .next (.issue (fun _ _ h => .ite (.ok h.modSelf) (.ok h)) h)

theorem execLoop_keepsMem : KeepsMem (execLoop f s) :=
  .next (.issueTo (fun _ _ h => .ite (jumpCheck_checks.map fun _ _ => h.modSelf) (.ok h.modSelf)) h)

theorem execRep_keepsMem : KeepsMem (execRep f s) := by
  unfold execRep
  dsimp only
  split
  · exact .next h.raise
  · exact .next (.issueTo repBody_keeps h)

theorem execStop_keepsMem : KeepsMem (execStop f s) := .next (.issueTo (fun _ _ h => .ok h) h)
theorem execYield_keepsMem : KeepsMem (execYield f s) :=
  .next (.issue (fun _ _ h => .ok h.modSelf) h)
theorem execCtsig_keepsMem : KeepsMem (execCtsig f s) :=
  .next (.issue (fun _ _ h => .ok h.modSelf) h)
theorem execCtwait_keepsMem : KeepsMem (execCtwait f s) :=
  .next (.issue (fun _ _ h => ctwaitBody_keeps _ _ h) h)
theorem execUngang_keepsMem : KeepsMem (execUngang f s) :=
  .next (.issue (fun _ _ h => .ok (.ite h.disband h)) h)
theorem execTrap_keepsMem : KeepsMem (execTrap f s) := .next h.softTrap
theorem execBrkp_keepsMem : KeepsMem (execBrkp f s) := .next h.softTrap

end

/-! ### Migration and the device's registers -/

namespace State.Canonical
variable {s t : State} {c d m n r : Nat}

theorem migStat {st why} (h : s.Canonical) : (s.migStat d st why).Canonical := h.modDie
theorem freezeCore (h : s.Canonical) : (s.freezeCore c).Canonical :=
  h.closeCore.keepCore fun _ => by rfl

theorem migRequest {v} (h : s.Canonical) : (s.migRequest d v).Canonical := by
  refine .ite h (.ite h.migStat (.ite h.migStat (.ite h.migStat (.ite h.migStat
    (.ite h.migStat (.ite h.migStat ?_))))))
  exact modDie (migStat (foldl h _ fun _ _ h => h.freezeCore.wake))

theorem migRecords {src dst} (h : s.Canonical) : (s.migRecords src dst).Canonical :=
  h.foldl _ fun _ _ h => .ite h h.lateRecord

theorem switchCore {ps p} (h : s.Canonical) : (s.switchCore ps p).Canonical := by
  unfold State.switchCore
  refine wake (dropCached (dropCached (dropAsk (setCore (setCore h ?_) ?_))))
  · exact (h.core p.1).same (by rfl)
  · exact ⟨rfl, rfl, rfl⟩

theorem settleTiles {ps} (h : s.Canonical) : (s.settleTiles ps).Canonical := by
  unfold State.settleTiles
  exact foldl h _ fun _ _ h => h.landAll.dropEarly

theorem renameSenders {ps ctx} (h : s.Canonical) : (s.renameSenders ps ctx).Canonical :=
  h.same (by rfl)

theorem sendMarkers {f} (h : s.Canonical) : (s.sendMarkers f).Canonical := by
  unfold State.sendMarkers
  exact foldl (same h (by rfl)) _ fun _ _ h => h.send

theorem flowsMoved {p} (h : s.Canonical) : (s.flowsMoved p).Canonical :=
  h.foldl _ fun _ _ h => h.setFlow

theorem sweepForwards (h : s.Canonical) : s.sweepForwards.Canonical :=
  h.foldl _ fun _ _ h => .ite h (tilesFreed (h.same (by rfl)))

theorem ringDrain (h : s.Canonical) : (s.ringDrain r n).Canonical := by
  induction n generalizing s with
  | zero => exact h
  | succ n ih =>
    unfold State.ringDrain
    dsimp only
    split
    · exact .ite (ih h.modRing.ringWrite) h
    · exact h

theorem setRingHead {v} (h : s.Canonical) : (s.setRingHead r v).Canonical := h.modRing.ringDrain
theorem setRingBase {v} (h : s.Canonical) : (s.setRingBase r v).Canonical := h.modRing.ringDrain

theorem pageWrite {off v} (h : s.Canonical) : (s.pageWrite d off n v).Canonical := by
  unfold State.pageWrite
  dsimp only
  split
  · exact .ite h h.modDie
  · exact h.migRequest
  · exact .ite h.pdkWrite (.ite h.modUv h)

theorem ringRegWrite {off v} (h : s.Canonical) : (s.ringRegWrite r off n v).Canonical := by
  unfold State.ringRegWrite
  split
  · exact h.setRingBase
  · exact .ite h.setRingHead h
  · exact .ite h.modRing h
  · exact h

theorem steerWrite {v} (h : s.Canonical) : (s.steerWrite c v).Canonical := h.same (by rfl)

/-- The branches are taken one by one: the kernel must not evaluate `ringAt` at a literal. -/
theorem devWrite {pa v} (h : s.Canonical) : (s.devWrite pa n v).Canonical := by
  by_cases h1 : pa < devBase + 0x40000
  · rw [State.devWrite, if_pos h1]
    exact h.pageWrite
  · by_cases h2 : icBase ≤ pa
    · rw [State.devWrite, if_neg h1, if_pos h2]
      cases hr : ringAt (pa - icBase) with
      | some q =>
        simp only [hr]
        exact h.ringRegWrite
      | none =>
        simp only [hr]
        split
        · split
          · exact h.steerWrite.steerWrite
          · exact h.steerWrite
        · exact h
    · rw [State.devWrite, if_neg h1, if_neg h2]
      exact h

end State.Canonical

section
variable {s : State} {d r : Nat} (h : s.Canonical)
include h

theorem execMigreqGo_keepsMem {v} : KeepsMem (execMigreqGo d v s) := .next h.migRequest

theorem execMigrationStream_keepsMem : KeepsMem (execMigrationStream d s) := by
  unfold execMigrationStream
  split
  · split
    · exact .next h
    · exact .next (.modDie (.foldl h _ fun _ _ h => h.migRecords))
  · exact .next h

theorem execMigrationSwitch_keepsMem : KeepsMem (execMigrationSwitch d s) := by
  unfold execMigrationSwitch
  split
  · split
    · exact .next h
    · extract_lets ps node ctx s1 s2 s3 members s4 s5 s6 s7
      have h1 : s1.Canonical := h.settleTiles.foldl _ fun _ _ h => h.switchCore
      have h2 : s2.Canonical := h1.same (by rfl)
      have h3 : s3.Canonical := by
        unfold s3
        clear_value node
        split
        · exact h2.modNode
        · exact h2
      have h4 : s4.Canonical := h3.renameSenders.foldl _ fun _ _ h => h.keepCore fun _ => by rfl
      have h5 : s5.Canonical := h4.foldl _ fun _ _ h => h.flowsMoved
      have h6 : s6.Canonical := h5.same (by rfl)
      have h7 : s7.Canonical := (h6.foldl _ fun _ _ h => h.sendMarkers).sweepForwards
      exact .next h7.migStat.modDie
  · exact .next h

theorem execTrrheadWrite_keepsMem {v} : KeepsMem (execTrrheadWrite r v s) := .next h.setRingHead
theorem execTrrbaseWrite_keepsMem {v} : KeepsMem (execTrrbaseWrite r v s) := .next h.setRingBase

end

/-! ### Loads and stores -/

section
variable {s t : State} {w : Who} {f : Ny} {core spc : Nat} {a : Acc}


theorem State.virtLoc_checks {va l} : Checks (s.virtLoc core spc a va l) := by
  unfold State.virtLoc
  split
  · exact .error .trap
  · exact .ite (.ok trivial) (.error .trap)
  · exact .ite (.ok trivial) (.error .trap)
  · exact .ok trivial

theorem State.places_checks {rs} : Checks (s.places core spc a rs) := by
  induction rs with
  | nil => exact .ok trivial
  | cons r rs ih =>
    obtain ⟨l, x⟩ := r
    unfold State.places
    extract_lets va here
    have hh : Checks here := .ite virtLoc_checks (.ite (.ok trivial) (.error .trap))
    clear_value here
    split
    · exact .error (hh.of_error rfl)
    · split
      · exact .error (ih.of_error ‹_›)
      · exact .ok trivial

theorem State.checkAddrs_checks {rs} : Checks (s.checkAddrs core spc a rs) := by
  unfold State.checkAddrs
  split
  · exact .error .trap
  · split
    · exact .error .trap
    · exact State.places_checks

theorem State.useHandle_checks {n} : Checks (s.useHandle w n spc) := by
  unfold State.useHandle
  split
  · exact .error .trap
  · refine .ite (.error .trap) ?_
    split
    · exact .error .trap
    · exact .ok trivial

theorem State.handleWait_ends {o} (h : s.Canonical) :
    Ends Stop.Canonical State.Canonical (s.handleWait w o spc) := by
  unfold State.handleWait
  split
  · refine .ite (.ok h) ?_
    split
    · exact .error (State.useHandle_checks.of_error ‹_›)
    · exact .ite (.ok h.closeRegion) (.error .waitNone)
  · exact .ok h

theorem State.slotCheck_checks {o ls} : Checks (s.slotCheck w f o ls) := by
  unfold State.slotCheck
  split
  · split
    · exact .error (State.useHandle_checks.of_error ‹_›)
    · exact need_checks .trap
  · exact .ok trivial

theorem State.ldAddrs_checks {b o ls} : Checks (s.ldAddrs w f b o ls) := by
  unfold State.ldAddrs
  split
  · split
    · exact .error (State.useHandle_checks.of_error ‹_›)
    · exact .ok trivial
  · exact .ite (.ok trivial) (.ok trivial)

theorem State.registerAll_ends {n write special as} (h : s.Canonical) :
    Ends Stop.Canonical State.Canonical (s.registerAll w spc n write special as) := by
  induction as generalizing s with
  | nil => exact .ok h
  | cons a as ih =>
    unfold State.registerAll
    split
    · exact .error .trap
    · exact .error .stallNone
    · exact ih (h.regionAccess ‹_›)

theorem State.poisonOf_checks {as} : Checks (s.poisonOf as) := by
  unfold State.poisonOf
  split
  · split
    · exact .error .poison
    · exact .ok trivial
  · exact .ok trivial

theorem State.passChannels_ends {as} (h : s.Canonical) :
    Ends Stop.Canonical State.Canonical (s.passChannels as) := by
  unfold State.passChannels
  exact .ite (.error .channel) (.ok h.leaveAll)

theorem State.doorbellCheck_checks {as} : Checks (s.doorbellCheck w as) :=
  .ite (.error .stallNone) (.ok trivial)

theorem State.ldAccess_checks {b o vec} : Checks (s.ldAccess w f a b o vec) := by
  unfold State.ldAccess
  split
  · exact .error (State.ldAddrs_checks.of_error ‹_›)
  · split
    · exact .error (State.checkAddrs_checks.of_error ‹_›)
    · exact State.slotCheck_checks.map fun _ _ => trivial

namespace State.Canonical

theorem storeWord {l v} (h : s.Canonical) : (s.storeWord l v).Canonical := by
  unfold State.storeWord
  split
  · exact h.devWrite
  · exact h
  · exact h.writeW

theorem storeBytes {agent rsn l bs} (h : s.Canonical) :
    (s.storeBytes agent rsn core l bs).Canonical := by
  unfold State.storeBytes
  split
  · exact h.sendFor
  · exact .ite h h.writeBy

theorem storeDevice {agent pa n v} (h : s.Canonical) :
    (s.storeDevice agent core pa n v).Canonical :=
  .ite h.sendFor h.devWrite

theorem storeFor {l v} (h : s.Canonical) : (s.storeFor w spc l v).Canonical := by
  unfold State.storeFor
  split
  · exact h.padStore
  · exact h.storeDevice
  · exact h
  · exact h.storeBytes

theorem loadFor {l} (h : s.Canonical) : (s.loadFor w spc l).1.Canonical := by
  unfold State.loadFor
  split
  · exact h.padLoad
  · split <;> exact h

theorem loadWords {as} (h : s.Canonical) : (s.loadWords w spc as).1.Canonical := by
  induction as generalizing s with
  | nil => exact h
  | cons a as ih => exact ih h.loadFor

theorem padOrderAll {as} (h : s.Canonical) : (s.padOrderAll w spc as).Canonical := by
  refine h.foldl _ fun t a ht => ?_
  split
  · exact ht.padOrder
  · exact ht

theorem doorbell {as} (h : s.Canonical) : (s.doorbell w as).Canonical := .ite h.closeRegion h

theorem storeWords {ws} (h : s.Canonical) : (s.storeWords w spc ws).Canonical := by
  unfold State.storeWords
  exact foldl (foldl h _ fun _ _ h => h.storeFor) _ fun _ _ h => h.storeBytes

theorem nibbleDevice {pa high v} (h : s.Canonical) : (s.nibbleDevice pa high v).Canonical := by
  unfold State.nibbleDevice
  exact h.devWrite

theorem sendNibble {l high v} (h : s.Canonical) : (s.sendNibble w l high v).Canonical := by
  unfold State.sendNibble
  dsimp only
  split
  · exact h.sendFor
  · exact h.sendFor
  · exact h.sendFor
  · exact h.sendFor
  · exact .ite h.sendFor h.nibbleDevice
  · exact h

end State.Canonical

theorem State.loadAll_ends {as} (h : s.Canonical) :
    Ends Stop.Canonical State.Canonical (s.loadAll w f as) := by
  unfold State.loadAll
  split
  · exact .error (State.poisonOf_checks.of_error ‹_›)
  · split
    · exact .error ((State.registerAll_ends h).of_error ‹_›)
    · refine .ite (.error .stallNone) ?_
      exact (State.passChannels_ends ((State.registerAll_ends h).of_ok ‹_›)).map fun _ h =>
        h.loadWords.writeDst

theorem State.storeAll_ends {as} (h : s.Canonical) :
    Ends Stop.Canonical State.Canonical (s.storeAll w f as) := by
  unfold State.storeAll
  split
  · exact .error ((State.registerAll_ends h).of_error ‹_›)
  · have h1 := (State.registerAll_ends h).of_ok ‹_›
    split
    · exact .error ((State.passChannels_ends h1).of_error ‹_›)
    · exact State.doorbellCheck_checks.map fun _ _ =>
        ((State.passChannels_ends h1).of_ok ‹_›).doorbell.storeWords

theorem ldBody_keeps : BodyKeeps (ldBody f) := by
  intro w s h
  unfold ldBody
  split
  · exact .error (State.ldAccess_checks.of_error ‹_›)
  · split
    · exact .error ((State.handleWait_ends h).of_error ‹_›)
    · exact State.loadAll_ends ((State.handleWait_ends h).of_ok ‹_›)

theorem stBody_keeps : BodyKeeps (stBody f) := by
  intro w s h
  unfold stBody
  split
  · exact .error (State.ldAccess_checks.of_error ‹_›)
  · split
    · exact .error ((State.handleWait_ends h).of_error ‹_›)
    · exact State.storeAll_ends ((State.handleWait_ends h).of_ok ‹_›)

theorem ldxBody_keeps : BodyKeeps (ldxBody f) := by
  intro w s h
  unfold ldxBody
  split
  · exact .error (State.checkAddrs_checks.of_error ‹_›)
  · exact State.loadAll_ends h

theorem stxBody_keeps : BodyKeeps (stxBody f) := by
  intro w s h
  unfold stxBody
  split
  · exact .error (State.checkAddrs_checks.of_error ‹_›)
  · exact State.storeAll_ends h

theorem State.nibbles_checks {rs} : Checks (s.nibbles core spc rs) := by
  induction rs with
  | nil => exact .ok trivial
  | cons r rs ih =>
    obtain ⟨l, n⟩ := r
    unfold State.nibbles
    extract_lets x va here
    have hh : Checks here := by
      refine .ite ?_ (.ite (.ok trivial) (.error .trap))
      split
      · exact .error .trap
      · exact .ite (.ok trivial) (.error .trap)
      · exact .ite (.ok trivial) (.error .trap)
      · exact .ok trivial
    clear_value here
    split
    · exact .error (hh.of_error rfl)
    · split
      · exact .error (ih.of_error ‹_›)
      · exact .ok trivial

theorem stsbBody_keeps : BodyKeeps (stsbBody f) := by
  intro w s h
  unfold stsbBody
  extract_lets p b n0
  refine .ite (.error .trap) ?_
  split
  · exact .error (State.nibbles_checks.of_error ‹_›)
  · extract_lets as
    split
    · exact .error ((State.registerAll_ends h).of_error ‹_›)
    · have h1 := (State.registerAll_ends h).of_ok ‹_›
      exact State.doorbellCheck_checks.map fun _ _ => h1.doorbell.foldl _ fun _ _ h => h.sendNibble

theorem prefBody_keeps : BodyKeeps (prefBody f) := by
  intro w s h
  unfold prefBody
  split
  · exact .error (State.slotCheck_checks.of_error ‹_›)
  · exact State.handleWait_ends h

theorem lengthCheck_checks {n} : Checks (lengthCheck n) := need_checks .trap

theorem wbackBody_keeps : BodyKeeps (wbackBody f) :=
  fun _ _ h => lengthCheck_checks.map fun _ _ => h

theorem invalBody_keeps : BodyKeeps (invalBody f) := by
  intro w s h
  unfold invalBody
  dsimp only
  split
  · exact .error (lengthCheck_checks.of_error ‹_›)
  · refine .ite (.error .trap) ?_
    split
    · exact .error .trap
    · exact .ok h.dropLines

theorem State.fullWords_checks {b o ls} : Checks (s.fullWords w b o ls) := by
  unfold State.fullWords
  split
  · split
    · exact .error (offsetCheck_checks.of_error ‹_›)
    · split
      · exact .error (State.resolve_checks.of_error ‹_›)
      · exact .ite (.ok trivial) (.error .trap)
  · dsimp only
    split
    · exact .error (State.checkAddrs_checks.of_error ‹_›)
    · split
      · exact .error .trap
      · exact .ok trivial

theorem State.Canonical.clearFull {ws} (h : s.Canonical) :
    (s.modHome w (·.clearFull ws)).Canonical := by
  cases ws <;> exact h.keepHome fun _ => by rfl

theorem ldfBody_keeps : BodyKeeps (ldfBody f) := by
  intro w s h
  unfold ldfBody
  split
  · exact .error (State.fullWords_checks.of_error ‹_›)
  · refine .ite ?_ (.error .waitNone)
    extract_lets s1 as
    have h1 : s1.Canonical := h.settle
    split
    · exact .error (State.poisonOf_checks.of_error ‹_›)
    · exact .ok (.writeDst (.ite h1.clearFull.closeRegion.acquireDom h1.clearFull.closeRegion))

theorem fbclrBody_keeps : BodyKeeps (fbclrBody f) := by
  intro w s h
  unfold fbclrBody
  extract_lets n run
  split
  · refine .ite (.error .trap) ?_
    split
    · exact .error (State.fullWords_checks.of_error ‹_›)
    · exact .ok h.clearFull
  · split
    · exact .error (State.fullWords_checks.of_error ‹_›)
    · exact .ite (.ok h.clearFull) (.error .trap)
    · exact .ok h

end

/-! ### Queues -/

namespace State.Canonical
variable {s t : State} {w : Who} {c m n : Nat}

theorem dropHandle (h : s.Canonical) : (s.dropHandle c m n).Canonical := by
  unfold State.dropHandle
  split
  · exact h
  · exact h.modMt.unbind

theorem withQhomes {x} (h : s.Canonical) : State.Canonical { s with qhomes := x } := h.same (by rfl)
theorem addBind {key q} (h : s.Canonical) : (s.addBind c key q).Canonical := h.same (by rfl)
theorem bindHandle {qcb key prod port q} (h : s.Canonical) :
    (s.bindHandle c m n qcb key prod port q).Canonical := by
  unfold State.bindHandle
  exact h.dropHandle.addBind.modMt

theorem ask {ms} (h : s.Canonical) : (s.ask w ms).Canonical := by
  unfold State.ask
  exact modSelf (foldl h _ fun _ _ h => h.sendFor)

theorem unreserve {port} (h : s.Canonical) : (s.unreserve c m port n).Canonical := by
  unfold State.unreserve
  split
  · exact h
  · exact h.keepCore fun _ => by rfl

theorem advanced {hn x} (h : s.Canonical) : (s.advanced w hn x n).Canonical := by
  unfold State.advanced
  dsimp only
  split
  · exact h.modSelf.unreserve
  · exact h.modSelf

end State.Canonical

section
variable {s : State} {w : Who} {f : Ny}

theorem State.answered_ends {r} (h : s.Canonical) (e : s.answered w = some r) :
    Ends Stop.Canonical (fun q => q.1.Canonical) r := by
  unfold State.answered at e
  dsimp only at e
  split at e
  · cases e
  · split at e
    · cases e
      refine .ok ?_
      dsimp only
      refine State.Canonical.modSelf ?_
      exact h.keepHome fun _ => by rfl
    · cases e
      exact .error .stallNone


theorem hbindBody_keeps : BodyKeeps (hbindBody f) := by
  intro w s h
  unfold hbindBody
  extract_lets hn p prod
  refine .ite (.error .trap) ?_
  split
  · exact .error (State.virtLoc_checks.of_error ‹_›)
  · refine .ite (.error .trap) (.ite (.error .poison) ?_)
    split
    · exact .error .trap
    · refine .ite (.error .trap) (.ite (.error .trap) ?_)
      extract_lets a
      split
      · exact .error ((State.registerAll_ends h).of_error ‹_›)
      · exact (State.passChannels_ends ((State.registerAll_ends h).of_ok ‹_›)).map fun _ h =>
          h.bindHandle
  · exact .error .trap

theorem advBody_keeps {prod} : BodyKeeps (advBody f prod) := by
  intro w s h
  unfold advBody
  extract_lets hn n
  refine .ite (.error .trap) ?_
  split
  · exact .error .trap
  · split
    · exact .error ((State.answered_ends h ‹_›).of_error rfl)
    · exact .ite (.ok ((State.answered_ends h ‹_›).of_ok rfl).advanced) (.error .trap)
    · split
      · exact .error .trap
      · refine .ite (.error .trap) ?_
        split
        · exact .error (.stall h.closeRegion.ask)
        · split
          · exact .error .trap
          · exact .ok h.closeRegion.withQhomes.advanced

theorem qbindBody_keeps : BodyKeeps (qbindBody f) := by
  intro w s h
  unfold qbindBody
  split
  · exact .ok h.modSelf
  · exact .ok h

theorem qdropBody_keeps : BodyKeeps (qdropBody f) := by
  intro w s h
  unfold qdropBody
  split
  · exact .ok h.modSelf
  · exact .ok h.dropHandle
  · exact .ok h

end

/-! ### Atomics, fences and barriers -/

section
variable {s t : State} {w : Who} {f : Ny}

theorem State.releaseCheck_checks {a n} : Checks (s.releaseCheck a n) :=
  .ite (.error .stallNone) (.ok trivial)

theorem State.atomAccess_ends {as} (h : s.Canonical) :
    Ends Stop.Canonical State.Canonical (s.atomAccess w f as) := by
  unfold State.atomAccess
  split
  · exact .error ((State.registerAll_ends h).of_error ‹_›)
  · exact State.poisonOf_checks.map fun _ _ => (State.registerAll_ends h).of_ok ‹_›

namespace State.Canonical
variable {c d : Nat}

theorem rmwAll {g as} (h : s.Canonical) : (s.rmwAll c g as).1.Canonical := by
  induction as generalizing s with
  | nil => exact h
  | cons a as ih =>
    unfold State.rmwAll
    dsimp only
    split
    · exact ih h
    · refine ih ?_
      split
      · exact h.storeWord
      · exact h.storeWord
      · exact h.writeWBy

theorem atomOpen {as} (h : s.Canonical) : (s.atomOpen w f as).Canonical :=
  .ite h.closeRegion h.padOrderAll
theorem acquired (h : s.Canonical) : (s.acquired f w).Canonical := h.acquireAt
theorem atomDone {old} (h : s.Canonical) : (s.atomDone w f old).Canonical := h.acquired.writeDst

theorem takeGroup {members drain g gen} (h : s.Canonical)
    (e : s.takeGroup d members drain = some (g, gen, t)) : t.Canonical := by
  unfold State.takeGroup at e
  split at e
  · cases e
  · cases e
    exact h.modDie

theorem sendUnit {agent cs solo ep pls} (h : s.Canonical)
    (e : s.sendUnit c agent cs solo ep pls = some t) : t.Canonical := by
  unfold State.sendUnit at e
  extract_lets one all at e
  have hone : ∀ {s c g gen p}, s.Canonical → (one s c g gen p).Canonical := by
    intro s c g gen p h
    unfold one
    split
    · exact h.sendFor
    · exact h.send
  have hall : ∀ {s g gen}, s.Canonical → (all s g gen).Canonical := by
    intro s g gen h
    unfold all
    exact foldl h _ fun _ _ h => foldl h _ fun _ _ h => hone h
  split at e
  · cases e
    exact hall h
  · split at e
    · cases e
    · cases e
      exact hall (h.takeGroup ‹_›)

end State.Canonical

theorem State.performRmw_ends {as op g} (h : s.Canonical) :
    Ends Stop.Canonical (fun q => q.1.Canonical) (s.performRmw w f as op g) := by
  unfold State.performRmw
  split
  · exact .error ((State.passChannels_ends h).of_error ‹_›)
  · have h1 := (State.passChannels_ends h).of_ok ‹_›
    split
    · exact .error (State.doorbellCheck_checks.of_error ‹_›)
    · exact .ite (.error (.stall h1.atomOpen.ask)) (.ok h1.atomOpen.rmwAll)

theorem State.atomCheck_ends (h : s.Canonical) :
    Ends Stop.Canonical (fun q => q.1.Canonical) (s.atomCheck w f) := by
  unfold State.atomCheck
  split
  · exact .error (State.checkAddrs_checks.of_error ‹_›)
  · split
    · exact .error .trap
    · exact (State.atomAccess_ends h).map fun _ h => h

theorem atomBody_keeps : BodyKeeps (atomBody f) := by
  intro w s h
  unfold atomBody
  split
  · exact (State.answered_ends h ‹_›).map fun _ h => h.atomDone
  · split
    · exact .error ((State.atomCheck_ends h).of_error ‹_›)
    · have h1 := (State.atomCheck_ends h).of_ok ‹_›
      split
      · exact .error (State.src_error h1 ‹_›)
      · split
        · exact .error (State.releaseCheck_checks.of_error ‹_›)
        · exact (State.performRmw_ends (State.src_ok h1 ‹_›)).map fun _ h => h.atomDone

theorem casBody_keeps : BodyKeeps (casBody f) := by
  intro w s h
  unfold casBody
  split
  · exact (State.answered_ends h ‹_›).map fun _ h => h.atomDone
  · split
    · exact .error ((State.atomCheck_ends h).of_error ‹_›)
    · have h1 := (State.atomCheck_ends h).of_ok ‹_›
      dsimp only
      split
      · exact .error (State.releaseCheck_checks.of_error ‹_›)
      · exact (State.performRmw_ends h1).map fun _ h => h.atomDone

theorem State.atredRole_ends {r off} (h : s.Canonical) :
    Ends Stop.Canonical State.Canonical (s.atredRole f w r off) := by
  unfold State.atredRole
  dsimp only
  split
  · exact .error (State.resolve_checks.of_error ‹_›)
  · split
    · exact .error (offsetCheck_checks.of_error ‹_›)
    · split
      · exact .error (State.releaseCheck_checks.of_error ‹_›)
      · split
        · exact .error .stallNone
        · exact .ok (h.atomOpen.sendUnit ‹_›).acquired

theorem State.Canonical.atredAt {as} (h : s.Canonical) : (s.atredAt f w as).Canonical := by
  unfold State.atredAt
  exact .ite (h.atomOpen.foldl _ fun _ _ h => h.sendFor) h.atomOpen.rmwAll

theorem atredBody_keeps : BodyKeeps (atredBody f) := by
  intro w s h
  unfold atredBody
  split
  · exact State.atredRole_ends h
  · split
    · exact .error ((State.atomCheck_ends h).of_error ‹_›)
    · have h1 := (State.atomCheck_ends h).of_ok ‹_›
      split
      · exact .error (State.releaseCheck_checks.of_error ‹_›)
      · split
        · exact .error ((State.passChannels_ends h1).of_error ‹_›)
        · exact State.doorbellCheck_checks.map fun _ _ =>
            ((State.passChannels_ends h1).of_ok ‹_›).atredAt.acquired

theorem fenceBody_keeps {rel acq} : BodyKeeps (fenceBody f rel acq) := fun _ _ h =>
  State.releaseCheck_checks.map fun _ _ => h.closeRegion.acquireAt

namespace State.Canonical

theorem setBarrier {b} (h : s.Canonical) : (s.setBarrier b).Canonical := h.same (by rfl)
theorem countArrival {b k} (h : s.Canonical) : (s.countArrival b k).Canonical :=
  .ite h.setBarrier h.setBarrier

theorem sendArrival {key k ph} (h : s.Canonical) : (s.sendArrival w key k ph).Canonical := by
  unfold State.sendArrival
  have h1 : ∀ a, State.Canonical { s with barPending := s.barPending ++ [a] } :=
    fun _ => h.same (by rfl)
  exact .ite (.send (.ite h (h1 _))) (.ite h (h1 _))

end State.Canonical

theorem State.arrive_ends {scope id k} (h : s.Canonical) :
    Ends Stop.Canonical (fun q => q.1.Canonical) (s.arrive w scope id k) := by
  unfold State.arrive
  refine .ite (.error .trap) ?_
  extract_lets key b
  split
  · exact .ok h.closeRegion.sendArrival
  · have h1 := h.closeRegion (a := w.agent)
    exact .ite (.error .trap) (.ite (.ok h1.countArrival)
      (.ok (State.Canonical.sendArrival (.ite h1.setBarrier h1))))

theorem barBody_keeps : BodyKeeps (barBody f) := by
  intro w s h
  unfold barBody
  split
  · exact .ite (.ok h.modSelf.acquireAt) (.error .waitNone)
  · dsimp only
    split
    · exact .error ((State.arrive_ends h).of_error ‹_›)
    · exact .error (.wait ((State.arrive_ends h).of_ok ‹_›).modSelf)

theorem baraBody_keeps : BodyKeeps (baraBody f) := by
  intro w s h
  unfold baraBody
  split
  · exact .error ((State.arrive_ends h).of_error ‹_›)
  · exact .ok ((State.arrive_ends h).of_ok ‹_›).modSelf

theorem barwBody_keeps : BodyKeeps (barwBody f) := by
  intro w s h
  unfold barwBody
  split
  · exact .ok h.closeRegion
  · exact .ite (.ok h.modSelf.closeRegion.acquireAt) (.error .waitNone)

/-! ### Counters, the inbox and tickets -/

namespace State.Canonical
variable {c : Nat}

theorem counterAdd {l inc err} (h : s.Canonical) : (s.counterAdd l inc err).Canonical := h.writeLoc

theorem acquireCounter {l} (h : s.Canonical) : (s.acquireCounter c l).Canonical := by
  unfold State.acquireCounter
  split
  · exact h.acquireDom
  · exact h

theorem countAt {agent rsn l inc err} (h : s.Canonical) :
    (s.countAt agent rsn c l inc err).Canonical := by
  unfold State.countAt
  refine .ite h ?_
  split
  · exact h.sendFor
  · split
    · exact h.devWrite
    · exact h
    · exact h.writeBy

end State.Canonical

theorem State.counterPlace_checks {a} : Checks (s.counterPlace w f a) := by
  unfold State.counterPlace
  dsimp only
  refine .ite (.error .trap) (.ite (.error .trap) ?_)
  split
  · exact .error (State.places_checks.of_error ‹_›)
  · exact .ite (.error .trap) (.ok trivial)
  · exact .error .stallNone

theorem State.counterPoison_checks {q} : Checks (s.counterPoison q) := State.poisonOf_checks

theorem cwaitBody_keeps : BodyKeeps (cwaitBody f) := by
  intro w s h
  unfold cwaitBody
  split
  · exact .error (State.counterPlace_checks.of_error ‹_›)
  · split
    · exact .error (State.counterPoison_checks.of_error ‹_›)
    · split
      · exact .error ((State.registerAll_ends h).of_error ‹_›)
      · have h1 := (State.registerAll_ends h).of_ok ‹_›
        dsimp only
        split
        · exact .error ((State.passChannels_ends h1).of_error ‹_›)
        · have h2 := (State.passChannels_ends h1).of_ok ‹_›
          exact .ite (.ok h2.padOrderAll.closeRegion.acquireCounter) (.error .waitNone)

theorem caddBody_keeps : BodyKeeps (caddBody f) := by
  intro w s h
  unfold caddBody
  split
  · exact .error (State.counterPlace_checks.of_error ‹_›)
  · split
    · exact .error (State.counterPoison_checks.of_error ‹_›)
    · split
      · exact .error ((State.registerAll_ends h).of_error ‹_›)
      · have h1 := (State.registerAll_ends h).of_ok ‹_›
        dsimp only
        split
        · exact .error ((State.passChannels_ends h1).of_error ‹_›)
        · exact State.doorbellCheck_checks.map fun _ _ =>
            ((State.passChannels_ends h1).of_ok ‹_›).doorbell.padOrderAll.countAt

/-- Taking a record leaves the core's memories. -/
theorem Core.Canonical.takeRec {k l : Core} {tag r} (h : k.Canonical)
    (e : k.takeRec tag = some (r, l)) :
    l.Canonical := by
  unfold Core.takeRec at e
  dsimp only at e
  split at e
  · cases e
  · cases e
    exact h.same (by rfl)

theorem inbxBody_keeps : BodyKeeps (inbxBody f) := by
  intro w s h
  unfold inbxBody
  split
  · exact .error .waitNone
  · have hk := (h.core w.core).takeRec ‹_›
    exact .ite (.error .waitNone) (.ok (h.setCore hk).closeRegion.writeDst.refill)

theorem inbpBody_keeps : BodyKeeps (inbpBody f) := fun _ _ h => .ok h.writeDst

theorem State.Canonical.claimTicket {c k v} (h : s.Canonical)
    (e : s.claimTicket c k = some (t, v)) :
    t.Canonical := by
  unfold State.claimTicket at e
  extract_lets x r at e
  have hr : r.1.Canonical := by
    unfold r
    split
    · split
      · exact h
      · exact h.setNode
    · exact h
  clear_value r
  split at e
  · split at e
    · cases e
    · cases e
      exact h.setCore ((h.core c).same (by rfl))
  · split at e
    · cases e
      exact hr.keepCore fun _ => by rfl
    · cases e
      exact hr

theorem ticketBody_keeps : BodyKeeps (ticketBody f) := by
  intro w s h
  unfold ticketBody
  dsimp only
  refine .ite (.error .trap) ?_
  split
  · exact .error .stallNone
  · exact .ok (h.claimTicket ‹_›).writeDst

theorem roleqBody_keeps : BodyKeeps (roleqBody f) := by
  intro w s h
  unfold roleqBody
  dsimp only
  split
  · exact .error .trap
  · exact .ok h.writeDst

end

end Sys2Proof.Machine
end

section
/-! SUPPORT. The canonical form under the matrix unit, the copy engine and the event unit (R231 to R284). -/

namespace Sys2Proof.Machine

/-! ### The matrix unit -/

namespace State.Canonical
variable {s t : State} {w : Who} {c m : Nat}

/-- Dispatching records the operation. -/
theorem dispatchOp {op a b x posts} (h : s.Canonical) :
    (s.dispatchOp w op a b x posts).1.Canonical := by
  unfold State.dispatchOp
  extract_lets s1 k lead pc s2 waits
  have h2 : s2.Canonical := h.settle.setCore (((h.settle (c := w.core) (m :=
    w.mt)).core w.core).same (by rfl))
  exact .ite h2.modMt h2

theorem pushMx {o} (h : s.Canonical) : (s.modHome w (·.pushMx o)).Canonical :=
  h.keepHome fun _ => by rfl

theorem popMx (h : s.Canonical) :
    (s.modCore c fun k => { k with mx := k.mx.pop }).Canonical :=
  h.keepCore fun _ => by rfl

theorem cleanBank {b} (h : s.Canonical) : (s.cleanBank c b).Canonical := h.same (by rfl)

theorem askGrant (h : s.Canonical) : (s.askGrant c).Canonical := .ite h (h.same (by rfl))

theorem writeScratch {off ws} (h : s.Canonical) : (s.writeScratch c off ws).Canonical := by
  induction ws generalizing s off with
  | nil => exact h
  | cons w ws ih => exact ih h.writeW

theorem dualMismatch {acc q} (h : s.Canonical) : (s.dualMismatch c m acc q).Canonical := by
  unfold State.dualMismatch
  extract_lets k s1 r s2
  have h2 : s2.Canonical := h.engineFault.contain
  split
  · exact execCorrectedError_keepsMem h2 _ ‹_›
  · exact h2

end State.Canonical

namespace Core.Canonical
variable {k : Core}

theorem modBank {n f} (h : k.Canonical) : (k.modBank n f).Canonical := h.same (by rfl)

theorem fetchTile {l t sparse keep} (h : k.Canonical) :
    (k.fetchTile l t sparse keep).2.Canonical := by
  unfold Core.fetchTile
  dsimp only
  split
  · exact h.same (by rfl)
  · exact h.same (by rfl)

theorem applyMma {o sparse t la lb sa sb keep flt} (h : k.Canonical) :
    (k.applyMma o sparse t la lb sa sb keep flt).Canonical := by
  unfold Core.applyMma
  extract_lets a b k1 rows cols run bank shadow k2 ramp
  have h1 : k1.Canonical := h.fetchTile.fetchTile
  have h2 : k2.Canonical := h1.modBank
  clear_value k2
  exact h2.same (by rfl)

end Core.Canonical

section
variable {s : State} {w : Who} {f : Ny} {c : Nat}

theorem mmaBody_keeps {sparse op} : BodyKeeps (mmaBody f sparse op) := by
  intro w s h
  unfold mmaBody
  extract_lets t la lb k acc kind r o
  refine .ite (.error .trap) (.ite (.error .trap) (.ite (.error .trap) (.ite (.error .trap)
    (.ite (.error .stallNone) (.ok ?_)))))
  have hr : r.1.Canonical := h.dispatchOp
  exact hr.keepHome fun _ => by rfl

theorem State.queueMx_ends {op kind acc a b x} (h : s.Canonical) :
    Ends Stop.Canonical State.Canonical (s.queueMx w op kind acc a b x) := by
  refine .ite (.error .stallNone) (.ok ?_)
  exact h.dispatchOp.pushMx

theorem mzeroBody_keeps : BodyKeeps (mzeroBody f) := fun _ _ h => State.queueMx_ends h

theorem imageCheck_checks {off n} : Checks (imageCheck off n) :=
  .ite (.error .trap) (need_checks .trap)

theorem mfillBody_keeps : BodyKeeps (mfillBody f) := by
  intro w s h
  unfold mfillBody
  dsimp only
  split
  · exact .error (imageCheck_checks.of_error ‹_›)
  · exact State.queueMx_ends h

theorem mdrainBody_keeps : BodyKeeps (mdrainBody f) := by
  intro w s h
  unfold mdrainBody
  dsimp only
  split
  · exact .error (imageCheck_checks.of_error ‹_›)
  · exact State.queueMx_ends h

theorem chbegBody_keeps : BodyKeeps (chbegBody f) := by
  intro w s h
  unfold chbegBody
  extract_lets k dual r o
  have hr : r.1.Canonical := h.dispatchOp
  split
  · exact .ite (.error .trap) (.error .stallNone)
  · exact .ite (.error .stallNone) (.ok (hr.keepHome fun _ => by rfl))

theorem spfenceBody_keeps : BodyKeeps spfenceBody :=
  fun _ _ h => .ite (.ok (h.keepHome fun _ => by rfl)) (.error .stallNone)

section
variable (h : s.Canonical)
include h

theorem execMatrixInstructionApplied_keepsMem {flt} :
    KeepsMem (execMatrixInstructionApplied c flt s) := by
  unfold execMatrixInstructionApplied
  extract_lets k
  split
  · exact .next h
  · split
    · exact .next h
    · have hp := h.popMx (c := c)
      have hz := fun n f => hp.modCore (c := c) fun _ hk => hk.modBank (n := n) (f := f)
      split
      · exact .next hp
      · exact .next h
      · exact .next (hz _ _).cleanBank.opDone
      · split
        · exact .next h.consumePoison
        · exact .next (hz _ _).cleanBank.opDone
      · split
        · exact .next h.askGrant
        · split
          · exact .next h.consumePoison
          · exact .next (hp.modCore fun _ hk => hk.applyMma).opDone

theorem execMdrainCompletion_keepsMem : KeepsMem (execMdrainCompletion c s) := by
  unfold execMdrainCompletion
  extract_lets k
  split
  · split
    · split
      · exact .next h
      · split
        · exact .next h.consumePoison
        · have h1 := h.popMx (c := c)
          dsimp only
          split
          · exact .next h1.dualMismatch.postRecord
          · exact .next h1.writeScratch.postRecord
    · exact .next h
  · exact .next h

theorem execLimiterStep_keepsMem : KeepsMem (execLimiterStep c s) := by
  unfold execLimiterStep
  split
  · exact .next h
  · extract_lets rs s1
    have h1 : s1.Canonical := h.same (by rfl)
    exact .next (h1.foldl _ fun _ _ h => h.keepCore fun _ => by rfl)

theorem execRampDownEnd_keepsMem : KeepsMem (execRampDownEnd c s) :=
  .next (h.keepCore fun _ => by rfl)

theorem execBarrierArrival_keepsMem : KeepsMem (execBarrierArrival c s) := by
  unfold execBarrierArrival
  split
  · exact .next h
  · dsimp only
    split
    · exact .next (.countArrival (h.same (by rfl)))
    · exact .next h

theorem execBarrierRelease_keepsMem : KeepsMem (execBarrierRelease c s) := by
  unfold execBarrierRelease
  split
  · exact .next h
  · split
    · split
      · exact .next h.setBarrier
      · exact .next h
    · exact .next h

end
end

/-! ### The copy engine -/

section
variable {s t : State} {w : Who} {f : Ny} {c : Nat}

theorem State.copyTargets_checks {rs} : Checks (s.copyTargets c rs) := by
  induction rs with
  | nil => exact .ok trivial
  | cons r rs ih =>
    unfold State.copyTargets
    split
    · exact .error (State.resolve_checks.of_error ‹_›)
    · split
      · exact .error .trap
      · split
        · exact .error (ih.of_error ‹_›)
        · exact .ok trivial

theorem State.copyCheck_checks {m r} : Checks (s.copyCheck c m r) := by
  unfold State.copyCheck
  extract_lets handle
  have hh : Checks handle := by
    unfold handle
    split
    · exact need_checks .trap
    · exact need_checks .trap
  clear_value handle
  refine .ite (.error .trap) (.ite (.error .trap) (.ite (.error .trap) (.ite (.error .trap) ?_)))
  split
  · exact .error (hh.of_error rfl)
  · exact .ite State.copyTargets_checks (.ok trivial)

theorem State.sliceCheck_checks {r} : Checks (s.sliceCheck c r) := need_checks .trap

theorem Core.Canonical.pullFifo {k : Core} (h : k.Canonical) : k.pullFifo.Canonical := by
  unfold Core.pullFifo
  dsimp only
  split
  · exact h
  · exact h.same (by rfl)

theorem State.Canonical.copyGroup {r targets g} (h : s.Canonical)
    (e : s.copyGroup c r targets = some (g, t)) : t.Canonical := by
  unfold State.copyGroup at e
  split at e
  · obtain ⟨⟨g', gen, u⟩, hu, he⟩ := Option.map_eq_some_iff.mp e
    cases he
    exact h.takeGroup hu
  · cases e
    exact h

theorem State.readRequest_checks {off} : Checks (s.readRequest c off) := by
  unfold State.readRequest
  dsimp only
  refine .ite (.error .trap) (.ite (.error .trap) ?_)
  split
  · exact .error .poison
  · exact .ok trivial

theorem State.queueCopy_ends {op r mask stream targets off b} (h : s.Canonical) :
    Ends Stop.Canonical State.Canonical (s.queueCopy w op r mask stream targets off b) := by
  unfold State.queueCopy
  dsimp only
  refine .ite (.error .stallNone) ?_
  split
  · exact .error .stallNone
  · have hd := fun a b x => (h.copyGroup ‹_›).dispatchOp (w := w) (op := op) (a := a) (b :=
      b) (x := x)
      (posts := true)
    refine .ok ?_
    split
    · exact State.Canonical.modSelf ((hd _ _ _).keepHome fun _ => by rfl)
    · exact (hd _ _ _).keepHome fun _ => by rfl

theorem streamOk_checks {m : Mt} {r o} : Checks (streamOk m r o) := by
  unfold streamOk
  split
  · exact .ite (.error .trap) (.ite (.error .trap) (.ok trivial))
  · exact .ok trivial

theorem cpyBody_keeps : BodyKeeps (cpyBody f) := by
  intro w s h
  unfold cpyBody
  dsimp only
  split
  · exact .error (State.readRequest_checks.of_error ‹_›)
  · split
    · exact .error (State.copyCheck_checks.of_error ‹_›)
    · split
      · exact .error (streamOk_checks.of_error ‹_›)
      · split
        · exact .error (State.sliceCheck_checks.of_error ‹_›)
        · exact State.queueCopy_ends h

theorem cpygBody_keeps : BodyKeeps (cpygBody f) := by
  intro w s h
  unfold cpygBody
  dsimp only
  split
  · exact .error (State.readRequest_checks.of_error ‹_›)
  · refine .ite (.error .trap) ?_
    split
    · exact .error (State.copyCheck_checks.of_error ‹_›)
    · split
      · exact .error (State.sliceCheck_checks.of_error ‹_›)
      · exact State.queueCopy_ends h

/-! ### The steps of a copy -/

/-- What an engine's access answers is canonical; its failures keep nothing. -/
abbrev EngineKeeps {ε α : Type} (P : α → Prop) (r : Except ε α) : Prop := Ends (fun _ => True) P r

variable {o : CopyOp}

theorem State.engineRegion_ends {write ls} (h : s.Canonical) :
    EngineKeeps State.Canonical (s.engineRegion c o write ls) := by
  unfold State.engineRegion
  induction ls generalizing s with
  | nil => exact .ok h
  | cons p ls ih =>
    rw [List.foldlM_cons]
    cases e : s.regionAccess (o.agent c) o.seq true p.1 p.2 write false with
    | error q => exact .error trivial
    | ok u => exact ih (h.regionAccess e)

namespace State.Canonical
variable {m n : Nat}

theorem engineWrite {l bs} (h : s.Canonical) : (s.engineWrite c o l bs).Canonical := by
  unfold State.engineWrite
  split
  · exact h.sendFor
  · exact h.writeLoc

theorem writeParts {l ps} (h : s.Canonical) : (s.writeParts c o l ps).Canonical := by
  refine .ite h.engineWrite ?_
  split
  · exact h.sendFor
  · exact h.foldl _ fun _ _ h => h.writeLoc

theorem sendTarget {x ps ep} (h : s.Canonical) : (s.sendTarget c o x ps ep).Canonical := by
  unfold State.sendTarget
  exact h.modDie.sendFor

end State.Canonical

theorem State.writeWordAt_ends {spc x ps} (h : s.Canonical) :
    EngineKeeps State.Canonical (s.writeWordAt c o spc x ps) := by
  unfold State.writeWordAt
  dsimp only
  refine .ite (.ite (.ok (h.foldl _ fun _ _ h => h.sendTarget)) (.error trivial)) ?_
  split
  · exact .error trivial
  · exact .ite (.error trivial) ((State.engineRegion_ends h).map fun _ h => h.writeParts)

theorem State.tensorBytes_ends {d ty n} (h : s.Canonical) :
    EngineKeeps (fun r => r.1.Canonical) (s.tensorBytes c o d ty n) := by
  unfold State.tensorBytes
  refine .ite ?_ (.ok h)
  split
  · exact .error trivial
  · split
    · exact .error trivial
    · exact (State.engineRegion_ends h).map fun _ h => h

theorem State.denseBytes_ends {d ty n} (h : s.Canonical) :
    EngineKeeps (fun r => r.1.Canonical) (s.denseBytes c o d ty n) := by
  unfold State.denseBytes
  extract_lets z cs x
  refine .ite (.ok h) ?_
  split
  · exact .error trivial
  · exact .error trivial
  · split
    · exact .error trivial
    · refine .ite (.error trivial) ?_
      split
      · exact .error trivial
      · have h1 := (State.engineRegion_ends h).of_ok ‹_›
        exact .ite (.ite (.error trivial) ((State.engineRegion_ends h1).map fun _ h => h)) (.ok h1)

namespace State.Canonical
variable {d : Desc} {ty : Ty} {m n : Nat}

theorem gatherIn {lo hi ns} (h : s.Canonical) : (s.gatherIn c o d ty lo hi ns).1.Canonical := by
  induction ns generalizing s with
  | nil => exact h
  | cons n ns ih =>
    unfold State.gatherIn
    dsimp only
    split
    · exact h
    · exact ih ((State.tensorBytes_ends h).of_ok ‹_›)

theorem moveIn {lo hi ns} (h : s.Canonical) : (s.moveIn c o d ty lo hi ns).s.Canonical := by
  unfold State.moveIn
  dsimp only
  split
  · exact h.gatherIn
  · split
    · exact h.gatherIn
    · exact (State.writeWordAt_ends h.gatherIn).of_ok ‹_›

theorem gatherOut {ns} (h : s.Canonical) : (s.gatherOut c o d ty ns).1.s.Canonical := by
  induction ns generalizing s with
  | nil => exact h
  | cons n ns ih =>
    unfold State.gatherOut
    split
    · exact h
    · exact ih ((State.denseBytes_ends h).of_ok ‹_›)

theorem moveOut {ns} (h : s.Canonical) : (s.moveOut c o d ty ns).s.Canonical := by
  unfold State.moveOut
  dsimp only
  split
  · exact h.gatherOut
  · split
    · exact h.gatherOut
    · exact (State.writeWordAt_ends h.gatherOut).of_ok ‹_›

theorem moveStep (h : s.Canonical) : (s.moveStep c o d ty n).s.Canonical := by
  unfold State.moveStep
  split
  · exact h.moveOut
  · exact h.moveIn

theorem postStream {ws} (h : s.Canonical) : (s.postStream c o ws).Canonical := by
  unfold State.postStream
  split
  · exact h
  · exact h.modMt

theorem endStream {bad} (h : s.Canonical) : (s.endStream c o bad).Canonical := by
  unfold State.endStream
  split
  · exact h
  · exact h.modMt

theorem sendPartials (h : s.Canonical) : (s.sendPartials c o ty).Canonical := by
  unfold State.sendPartials
  exact foldl h _ fun _ _ h => h.sendFor

theorem applyPartial {p} (h : s.Canonical) : (s.applyPartial p).Canonical := by
  unfold State.applyPartial
  refine h.foldl _ fun t x ht => ?_
  dsimp only
  refine writeLoc ?_
  split
  · exact ht.regionAccess ‹_›
  · exact ht

theorem withPartials {x} (h : s.Canonical) :
    State.Canonical { s with partials := x } := h.same (by rfl)

theorem applyHeld {key} (h : s.Canonical) : (s.applyHeld key n).Canonical := by
  induction n generalizing s with
  | zero => exact h
  | succ n ih =>
    unfold State.applyHeld
    dsimp only
    split
    · exact h
    · exact ih (h.foldl _ fun _ _ h => h.applyPartial).withPartials

theorem takePartial {p} (h : s.Canonical) : (s.takePartial p).Canonical := by
  unfold State.takePartial
  split
  · exact h.applyPartial
  · exact .ite h.applyPartial.withPartials.applyHeld h.withPartials

theorem partialDone {p} (h : s.Canonical) : (s.partialDone p).Canonical := h.sentDoneFor

theorem setCopy (h : s.Canonical) : (s.modCore c (·.setCopy n o)).Canonical :=
  h.keepCore fun _ => by rfl

theorem startCopy (h : s.Canonical) : (s.startCopy c n o).Canonical := by
  unfold State.startCopy
  extract_lets begun
  have hb : ∀ {s r}, s.Canonical → (begun s r).Canonical := fun h => by
    unfold begun
    refine modCore (foldl h _ fun _ _ h => h.joinChan) fun k hk => ?_
    exact Core.Canonical.pullFifo (hk.same (by rfl))
  clear_value begun
  split
  · exact hb h
  · split
    · exact h.viaChannels.2 _ ‹_›
    · split
      · exact h
      · exact hb ((State.engineRegion_ends (h.viaChannels.1 _ ‹_›)).of_ok ‹_›)

theorem leaveServed {chs} (h : s.Canonical) : (s.leaveServed c o chs).Canonical := by
  unfold State.leaveServed
  exact foldl h _ fun _ _ h => h.leaveChan

theorem stepCopy (h : s.Canonical) : (s.stepCopy c n o d ty).Canonical := by
  unfold State.stepCopy
  extract_lets i steps places m rest o1
  refine .ite h.joinAll (.ite h ?_)
  have hm : m.s.Canonical := h.moveStep
  clear_value m
  split
  · exact h
  · exact .ite hm.leaveServed.postStream.setCopy (hm.leaveServed.postStream.sendPartials.keepCore
      fun _ => by rfl)

theorem handleMoved {port} (h : s.Canonical) : (s.handleMoved c o port).Canonical := by
  unfold State.handleMoved
  dsimp only
  split
  · exact h.modMt.unreserve
  · exact h.modMt

theorem copyAdvance (h : s.Canonical) : (s.copyAdvance c o).1.Canonical := by
  unfold State.copyAdvance
  split
  · exact h
  · split
    · exact h.sendFor
    · split
      · exact h
      · exact h.withQhomes.handleMoved
  · exact h.handleMoved
  · exact h

end State.Canonical

theorem State.counterAccess_ends {l n special} (h : s.Canonical) :
    Ends State.Canonical State.Canonical (s.counterAccess c o l n special) := by
  unfold State.counterAccess
  split
  · exact .error (h.viaChannels.2 _ ‹_›)
  · split
    · exact .error h
    · exact .ok ((h.viaChannels.1 _ ‹_›).regionAccess ‹_›)

theorem State.copyCount_ends (h : s.Canonical) :
    Ends State.Canonical (fun r => r.1.Canonical) (s.copyCount c o) := by
  unfold State.copyCount
  refine .ite (.ite ?_ (.ok h)) (.ok h)
  split
  · exact .ok h
  · exact (State.counterAccess_ends h).map fun _ h => h.engineWrite

theorem State.copyPost_ends (h : s.Canonical) :
    Ends State.Canonical (fun r => r.1.Canonical) (s.copyPost c o) := by
  unfold State.copyPost
  refine .ite ?_ (.ok h.postRecord)
  split
  · exact .ok h
  · exact (State.counterAccess_ends h).map fun _ h => h.countAt

namespace State.Canonical
variable {n : Nat}

theorem closeEngine {agent q} (h : s.Canonical) : (s.closeEngine agent q).Canonical := h.dropRecs

theorem retireCopy (h : s.Canonical) : (s.retireCopy c n o).Canonical := by
  unfold State.retireCopy
  extract_lets s1 s2 s3 s4 s5
  have h1 : s1.Canonical := .ite h h.engineFault
  have h4 : s4.Canonical := h1.endStream.closeEngine.dropCopyGroup
  have h5 : s5.Canonical := h4.modCore fun _ hk => Core.Canonical.pullFifo (hk.same (by rfl))
  exact .ite h5.opDone h5

theorem completeCopy (h : s.Canonical) : (s.completeCopy c n o).Canonical := by
  unfold State.completeCopy
  dsimp only
  have h1 := h.copyAdvance (c := c) (o := o)
  refine .ite h1.setCopy ?_
  split
  · exact setCopy ((State.copyCount_ends h1).of_error ‹_›)
  · have h2 := (State.copyCount_ends h1).of_ok ‹_›
    refine .ite h2.setCopy ?_
    split
    · exact setCopy ((State.copyPost_ends h2).of_error ‹_›)
    · exact retireCopy ((State.copyPost_ends h2).of_ok ‹_›)

end State.Canonical

section
variable {i : Nat} (h : s.Canonical)
include h

theorem execReducePartialArrival_keepsMem : KeepsMem (execReducePartialArrival c s) := by
  unfold execReducePartialArrival
  split
  · exact .next h
  · dsimp only
    have hq : ∀ {s : State} {x}, s.Canonical → State.Canonical { s with partialQ := x } :=
      fun h => h.same (by rfl)
    split
    · exact .next h
    · split
      · exact .next (hq h).partialDone
      · split
        · split
          · exact .next (h.viaChannels.2 _ ‹_›)
          · have h1 := h.viaChannels.1 _ ‹_›
            exact .next (.ite h1 (hq h1).takePartial.partialDone)
        · exact .next (hq h).takePartial.partialDone

theorem execCopyElementComplete_keepsMem : KeepsMem (execCopyElementComplete c i s) := by
  unfold execCopyElementComplete
  split
  · exact .next h
  · split
    · split
      · exact .next h.startCopy
      · exact .next h
    · split
      · exact .next h
      · split
        · exact .next h
        · split
          · exact .next h.stepCopy
          · exact .next h

theorem execCopyCompletion_keepsMem : KeepsMem (execCopyCompletion c i s) := by
  unfold execCopyCompletion
  split
  · exact .next h
  · exact .next (.ite h.completeCopy h)

end
end

/-! ### Events and ranks -/

section
variable {s t : State} {w : Who} {f : Ny} {c : Nat}

theorem offsetCheck262_checks {off n al} : Checks (offsetCheck262 off n al) :=
  .ite (.error .trap) (need_checks .trap)

theorem State.readCore_checks {off n al} : Checks (s.readCore c off n al) := by
  unfold State.readCore
  split
  · exact .error (offsetCheck262_checks.of_error ‹_›)
  · dsimp only
    split
    · exact .error .poison
    · exact .ok trivial

theorem State.readWords_checks {off n} : Checks (s.readWords c off n) :=
  State.readCore_checks.map fun _ _ => trivial

theorem Core.evReady_checks {k : Core} {acc} : Checks (k.evReady acc) := need_checks .stallNone
theorem Core.evIdle_checks {k : Core} : Checks k.evIdle := need_checks .stallNone

theorem State.queueEv_ends {op kind a b x} (h : s.Canonical) :
    Ends Stop.Canonical State.Canonical (s.queueEv w op kind a b x) := by
  unfold State.queueEv
  have hd := h.dispatchOp (w := w) (op := op) (a := a) (b := b) (x := x) (posts := true)
  exact .ok (hd.keepHome fun _ => by rfl)

theorem State.Canonical.actEv {op a b x} (h : s.Canonical) : (s.actEv w op a b x).Canonical :=
  h.dispatchOp

theorem ncfgBody_keeps : BodyKeeps (ncfgBody f) := by
  intro w s h
  unfold ncfgBody
  dsimp only
  split
  · exact .error (State.readCore_checks.of_error ‹_›)
  · refine .ite (.error .trap) ?_
    split
    · exact .error (Core.evReady_checks.of_error ‹_›)
    · exact State.queueEv_ends h

theorem State.rankBlock_checks {off ty} : Checks (s.rankBlock c off ty) := by
  unfold State.rankBlock
  split
  · exact .error (State.readCore_checks.of_error ‹_›)
  · exact .ite (.ok trivial) (.error .trap)

theorem Ends.bind {ε α β : Type} {E : ε → Prop} {P : α → Prop} {Q : β → Prop} {x : Except ε α}
    (hx : Ends E P x) {g : α → Except ε β} (hg : ∀ a, P a → Ends E Q (g a)) :
    Ends E Q (x.bind g) := by
  cases hx with
  | ok h => exact hg _ h
  | error h => exact .error h

theorem mapM_checks {α β : Type} {g : α → Except Stop β} {l : List α} (hg : ∀ a, Checks (g a)) :
    Checks (l.mapM g) := by
  induction l with
  | nil => exact .ok trivial
  | cons a l ih =>
    rw [List.mapM_cons]
    cases e : g a with
    | error x => exact .error ((hg a).of_error e)
    | ok b =>
      cases e' : l.mapM g with
      | error x => exact .error (ih.of_error e')
      | ok bs => exact .ok trivial

theorem State.weightRow_checks {b ty r} : Checks (s.weightRow c b ty r) := by
  unfold State.weightRow
  split
  · exact .error ((mapM_checks fun _ => State.readCore_checks).of_error ‹_›)
  · exact .ok trivial

theorem nintBody_keeps : BodyKeeps (nintBody f) := by
  intro w s h
  unfold nintBody
  dsimp only
  refine .ite (.error .trap) ?_
  split
  · exact .error (State.rankBlock_checks.of_error ‹_›)
  · split
    · exact .error (State.weightRow_checks.of_error ‹_›)
    · split
      · exact .error (Core.evReady_checks.of_error ‹_›)
      · exact State.queueEv_ends h

theorem nleakBody_keeps : BodyKeeps (nleakBody f) := by
  intro w s h
  unfold nleakBody
  dsimp only
  refine .ite (.error .trap) ?_
  split
  · exact .error (Core.evReady_checks.of_error ‹_›)
  · exact State.queueEv_ends h

theorem State.evTargets_checks {r} : Checks (s.evTargets c r) :=
  State.resolve_checks.map fun _ _ => trivial

theorem nfireBody_keeps : BodyKeeps (nfireBody f) := by
  intro w s h
  unfold nfireBody
  dsimp only
  split
  · exact .error (State.evTargets_checks.of_error ‹_›)
  · refine .ite (.error .trap) (.ite (.error .trap) ?_)
    split
    · exact .error (Core.evReady_checks.of_error ‹_›)
    · exact State.queueEv_ends h

theorem evsendBody_keeps : BodyKeeps (evsendBody f) := by
  intro w s h
  unfold evsendBody
  split
  · exact .error (State.evTargets_checks.of_error ‹_›)
  · dsimp only
    refine .ite (.error .trap) ?_
    split
    · exact .error (Core.evReady_checks.of_error ‹_›)
    · exact State.queueEv_ends h

theorem State.tqProducers_checks {ws ps} : Checks (s.tqProducers c ws ps) := by
  induction ps with
  | nil => exact .ok trivial
  | cons p ps ih =>
    unfold State.tqProducers
    dsimp only
    split
    · exact .error (State.resolve_checks.of_error ‹_›)
    · split
      · exact .error .trap
      · exact ih.map fun _ _ => trivial

theorem tqcfgBody_keeps : BodyKeeps (tqcfgBody f) := by
  intro w s h
  unfold tqcfgBody
  dsimp only
  split
  · exact .error (State.readCore_checks.of_error ‹_›)
  · refine .ite (.error .trap) ?_
    split
    · exact .error (State.tqProducers_checks.of_error ‹_›)
    · split
      · exact .error (Core.evIdle_checks.of_error ‹_›)
      · refine .ite (.ite (.error .waitNone) (.ok (.modSelf ?_))) (.ok ?_)
        · exact h.actEv.keepHome fun _ => by rfl
        · exact h.actEv.keepHome fun _ => by rfl

theorem State.Canonical.countEvent (h : s.Canonical) : (s.countEvent w).Canonical := by
  unfold State.countEvent
  split
  · exact .ite h.unreserve h
  · exact h

theorem evrecvBody_keeps : BodyKeeps (evrecvBody f) := by
  intro w s h
  unfold evrecvBody
  dsimp only
  split
  · exact .error (Core.evIdle_checks.of_error ‹_›)
  · refine .ite (.ok h.actEv.countEvent.writeDst) ?_
    split
    · exact .error .waitNone
    · refine .ok (.writeDst (.countEvent ?_))
      exact h.actEv.keepHome fun _ => by rfl

theorem rsortBody_keeps : BodyKeeps (rsortBody f) := by
  intro w s h
  unfold rsortBody
  extract_lets k ty dst src n words
  refine .ite (.error .trap) ?_
  split
  · exact .error (State.readWords_checks.of_error ‹_›)
  · dsimp only
    split
    · exact .error ((Ends.ite (.ok trivial) offsetCheck262_checks : Checks _).of_error ‹_›)
    · exact .ok h.padOrder.writeScratch.modSelf

theorem State.scanEntries_checks {off n} : Checks (s.scanEntries c off n) := by
  induction n generalizing off with
  | zero => exact .error .trap
  | succ n ih =>
    unfold State.scanEntries
    split
    · exact .error (State.readWords_checks.of_error ‹_›)
    · exact .ite (.ok trivial) (ih.map fun _ _ => trivial)

theorem State.rankList_checks : Checks (s.rankList w f) :=
  .ite State.scanEntries_checks (.ite (.error .trap) (.ite (.ok trivial) State.readWords_checks))

theorem State.coreRole_checks {r} : Checks (s.coreRole c r) := by
  unfold State.coreRole
  split
  · exact .error (State.resolve_checks.of_error ‹_›)
  · split
    · exact .ok trivial
    · exact .error .trap

theorem rsendBody_keeps : BodyKeeps (rsendBody f) := by
  intro w s h
  unfold rsendBody
  split
  · exact .error (State.coreRole_checks.of_error ‹_›)
  · split
    · exact .error (State.rankList_checks.of_error ‹_›)
    · refine .ite (.error .trap) ?_
      split
      · exact .error (Core.evReady_checks.of_error ‹_›)
      · exact State.queueEv_ends h

theorem rrecvBody_keeps : BodyKeeps (rrecvBody f) := by
  intro w s h
  unfold rrecvBody
  extract_lets k x n old logCheck
  have hl : Checks logCheck := by
    unfold logCheck
    split
    · exact offsetCheck262_checks
    · exact .ok trivial
  have hb : Checks (logCheck.bind fun _ => k.evIdle) := hl.bind fun _ _ => Core.evIdle_checks
  clear_value logCheck
  refine .ite (.error .trap) (.ite (.error .trap) ?_)
  split
  · exact .error (hb.of_error ‹_›)
  · refine .ite ?_ (.ok h.actEv.writeDst)
    split
    · exact .error .waitNone
    · dsimp only
      refine .ite (.error .waitNone) (.ok (.writeDst ?_))
      split
      · refine .writeScratch (.modSelf ?_)
        exact h.actEv.keepHome fun _ => by rfl
      · refine .modSelf ?_
        exact h.actEv.keepHome fun _ => by rfl

theorem raccBody_keeps : BodyKeeps (raccBody f) := by
  intro w s h
  unfold raccBody
  dsimp only
  refine .ite (.error .trap) (.ite (.error .trap) ?_)
  split
  · exact .error (State.rankBlock_checks.of_error ‹_›)
  · refine .ite (Core.evReady_checks.map fun _ _ => h.actEv) (.ite (.error .trap) ?_)
    split
    · exact .error ((Ends.ite State.weightRow_checks (.ok trivial) : Checks _).of_error ‹_›)
    · split
      · exact .error (Core.evReady_checks.of_error ‹_›)
      · exact State.queueEv_ends h

theorem rmargBody_keeps : BodyKeeps (rmargBody f) := by
  intro w s h
  unfold rmargBody
  dsimp only
  refine .ite (.error .trap) (.ite (.error .stallNone) ?_)
  split
  · exact .error .poison
  · exact .ite (.error .trap) (.ok (.ite (h.actEv.setPred.keepHome fun _ =>
      by rfl) h.actEv.setPred))

theorem rgradBody_keeps : BodyKeeps (rgradBody f) := by
  intro w s h
  unfold rgradBody
  dsimp only
  split
  · exact .error (State.coreRole_checks.of_error ‹_›)
  · refine .ite (.error .trap) ?_
    split
    · split
      · exact .error (State.rankBlock_checks.of_error ‹_›)
      · refine .ite (.error .trap) ?_
        split
        · exact .error (Core.evReady_checks.of_error ‹_›)
        · exact State.queueEv_ends h
    · exact .error .trap
    · exact .error .trap

namespace State.Canonical
variable {e : EvOp} {g : GradOp} {n : Nat}

theorem gradSend (h : s.Canonical) : (s.gradSend c e g n).Canonical := by
  unfold State.gradSend
  exact foldl h _ fun _ _ h => h.sendFor

theorem gradSignal (h : s.Canonical) : (s.gradSignal c e g).Canonical := h.sendFor
theorem setGrad (h : s.Canonical) : (s.setGrad c e g).Canonical := h.keepCore fun _ => by rfl

theorem popEv (h : s.Canonical) :
    (s.modCore c fun k => { k with evq := k.evq.drop 1 }).Canonical :=
  h.keepCore fun _ => by rfl

theorem gradDone (h : s.Canonical) : (s.gradDone c e g).Canonical := by
  unfold State.gradDone
  exact postRecord (.ite h.popEv h.popEv.engineFault)

end State.Canonical

theorem rwtabBody_keeps : BodyKeeps (rwtabBody f) := by
  intro w s h
  unfold rwtabBody
  dsimp only
  split
  · exact .error (State.readWords_checks.of_error ‹_›)
  · split
    · exact .error ((Ends.ite (.ok trivial) State.readWords_checks : Checks _).of_error ‹_›)
    · split
      · exact .error (Core.evIdle_checks.of_error ‹_›)
      · refine .ok ?_
        exact h.actEv.keepHome fun _ => by rfl

theorem etickOrder_checks {k n} : Checks (etickOrder k n) := .ite Core.evIdle_checks (.ok trivial)

theorem csrrBody_keeps : BodyKeeps (csrrBody f) := by
  intro w s h
  unfold csrrBody
  split
  · exact .error (etickOrder_checks.of_error ‹_›)
  · exact .ok h.writeDst

theorem csrwBody_keeps : BodyKeeps (csrwBody f) := by
  intro w s h
  unfold csrwBody
  split
  · exact .error (State.src_error h ‹_›)
  · have h1 := State.src_ok h ‹_›
    dsimp only
    refine .ite (.error .trap) ?_
    split
    · exact .error (etickOrder_checks.of_error ‹_›)
    · exact .ok (.ite h1.modSelf (.ite h1.modSelf (h1.keepHome fun _ => by rfl)))

theorem State.Canonical.sendEvents {m solo eps ws} (h : s.Canonical)
    (e : s.sendEvents c m solo eps ws = some t) : t.Canonical := h.sendUnit e

theorem State.Canonical.modBank {n f} (h : s.Canonical) : (s.modCore c (·.modBank n f)).Canonical :=
  h.modCore fun _ hk => hk.modBank

theorem State.Canonical.evAct {e} (h : s.Canonical) (he : s.evAct c e = some t) : t.Canonical := by
  unfold State.evAct at he
  extract_lets k bank at he
  have hb : ∀ {n f u}, bank n f = some u → u.Canonical := fun e => by cases e; exact h.modBank
  clear_value bank
  split at he
  · exact hb he
  · exact hb he
  · exact hb he
  · exact h.modBank.sendEvents he
  · exact h.sendEvents he
  · exact hb he
  · cases he
    exact h.foldl _ fun _ _ h => h.send
  · cases he

section
variable (h : s.Canonical)
include h

theorem execTqArrival_keepsMem : KeepsMem (execTqArrival c s) := by
  unfold execTqArrival
  dsimp only
  split
  · exact .next (h.setCore ((h.core c).same (by rfl)))
  · exact .next h

theorem execRankMessageArrival_keepsMem : KeepsMem (execRankMessageArrival c s) := by
  unfold execRankMessageArrival
  dsimp only
  split
  · split
    · exact .next (h.setCore ((h.core c).same (by rfl)))
    · exact .next (h.setCore ((h.core c).same (by rfl)))
  · exact .next h

theorem execRgradCompletion_keepsMem : KeepsMem (execRgradCompletion c s) := by
  unfold execRgradCompletion
  dsimp only
  split
  · split
    · split
      · exact .next h
      · split
        · split
          · exact .next h
          · split
            · exact .next h.gradDone
            · exact .next h.setGrad.gradSend
        · split
          · exact .next h.setGrad.gradSignal
          · exact .next h.gradDone
    · exact .next h
  · exact .next h

theorem execEventUnitAction_keepsMem : KeepsMem (execEventUnitAction c s) := by
  unfold execEventUnitAction
  dsimp only
  split
  · exact .next h
  · split
    · exact .next h
    · split
      · exact .next h.popEv.engineFault.opDone
      · split
        · exact .next h
        · exact .next (h.evAct ‹_›).popEv.opDone

end
end

end Sys2Proof.Machine
end

section
/-! SUPPORT. The canonical form under the control thread: its accesses, registers, RISC-V instructions and
extension (R33, R254 to R260), and the actors (R45). -/

namespace Sys2Proof.Machine

/-! ### The control thread's accesses -/

/-- The states that a stop of the control thread keeps are canonical. -/
inductive CtStop.Canonical : CtStop → Prop
  | exc {n : Nat} {v : DWord} : CtStop.Canonical (.exc n v)
  | poison {e : ErrorSite} : CtStop.Canonical (.poison e)
  | stallNone : CtStop.Canonical (.stall none)
  | stall {t : State} (h : t.Canonical) : CtStop.Canonical (.stall (some t))

/-- A check of the control thread changes nothing. -/
abbrev CtChecks {α : Type} (r : Except CtStop α) : Prop := Ends CtStop.Canonical (fun _ => True) r

/-- An instruction of the control thread answers a canonical state, and keeps one where it stops. -/
abbrev CtKeeps {α : Type} (P : α → Prop) (r : Except CtStop α) : Prop := Ends CtStop.Canonical P r

section
variable {s t : State} {c n : Nat} {ls : List (Loc × Nat)}

theorem CtChecks.mapM {α β : Type} {g : α → Except CtStop β} {l : List α}
    (hg : ∀ a, CtChecks (g a)) :
    CtChecks (l.mapM g) := by
  induction l with
  | nil => exact .ok trivial
  | cons a l ih =>
    rw [List.mapM_cons]
    exact (hg a).bind fun _ _ => ih.bind fun _ _ => .ok trivial

theorem State.ctChunks_checks {a va} : CtChecks (s.ctChunks c a va n) := by
  unfold State.ctChunks
  extract_lets one
  have ho : ∀ {va n}, CtChecks (one va n) := by
    intro va n
    unfold one
    split
    · exact .error .exc
    · exact .ite (.ok trivial) (.error .exc)
    · exact .ite (.ok trivial) (.error .exc)
    · exact .ok trivial
  clear_value one
  exact .ite (ho.map fun _ _ => trivial) (CtChecks.mapM fun _ => ho)

theorem State.ctPoison_checks : CtChecks (s.ctPoison ls) := by
  unfold State.ctPoison
  split
  · split
    · exact .error .poison
    · exact .ok trivial
  · exact .ok trivial

theorem State.ctRegion_keeps {write special} (h : s.Canonical) :
    CtKeeps State.Canonical (s.ctRegion c write special ls) := by
  induction ls generalizing s with
  | nil => exact .ok h
  | cons p ls ih =>
    unfold State.ctRegion
    split
    · exact ih (h.regionAccess ‹_›)
    · exact .error .stallNone
    · exact .error .exc

theorem State.ctPass_keeps (h : s.Canonical) : CtKeeps State.Canonical (s.ctPass c ls) := by
  unfold State.ctPass
  refine .ite (.error .stallNone) ?_
  split
  · exact .error (.stall (h.viaChannels.2 _ ‹_›))
  · exact .ok (h.viaChannels.1 _ ‹_›)

theorem State.Canonical.ctWrite {bs} (h : s.Canonical) : (s.ctWrite c ls bs).Canonical := by
  induction ls generalizing s bs with
  | nil => exact h
  | cons p ls ih =>
    unfold State.ctWrite
    dsimp only
    refine ih ?_
    split
    · exact h.storeDevice
    · exact h
    · exact h.storeBytes

theorem State.ctLoad_keeps {va} (h : s.Canonical) :
    CtKeeps (fun r => r.1.Canonical) (s.ctLoad c va n) := by
  unfold State.ctLoad
  split
  · exact .error (State.ctChunks_checks.of_error ‹_›)
  · split
    · exact .error (State.ctPoison_checks.of_error ‹_›)
    · split
      · exact .error ((State.ctRegion_keeps h).of_error ‹_›)
      · exact (State.ctPass_keeps ((State.ctRegion_keeps h).of_ok ‹_›)).map fun _ h => h

theorem State.ctDoorbell_keeps (h : s.Canonical) : CtKeeps State.Canonical (s.ctDoorbell c ls) :=
  .ite (.ite (.error .stallNone) (.ok h.closeRegion)) (.ok h)

theorem State.ctStore_keeps {va v} (h : s.Canonical) :
    CtKeeps State.Canonical (s.ctStore c va n v) := by
  unfold State.ctStore
  split
  · exact .error (State.ctChunks_checks.of_error ‹_›)
  · split
    · exact .error ((State.ctRegion_keeps h).of_error ‹_›)
    · have h1 := (State.ctRegion_keeps h).of_ok ‹_›
      split
      · exact .error ((State.ctPass_keeps h1).of_error ‹_›)
      · exact (State.ctDoorbell_keeps ((State.ctPass_keeps h1).of_ok ‹_›)).map fun _ h => h.ctWrite

theorem State.ctAtomLoc_checks {a va} : CtChecks (s.ctAtomLoc c a va n) := by
  unfold State.ctAtomLoc
  refine .ite (.error .exc) ?_
  split
  · exact .error .exc
  · exact .error .exc
  · exact .error .exc
  · exact .ok trivial

theorem State.ctLr_keeps {va dbl} (h : s.Canonical) :
    CtKeeps (fun r => r.1.Canonical) (s.ctLr c va dbl) := by
  unfold State.ctLr
  dsimp only
  split
  · exact .error (State.ctAtomLoc_checks.of_error ‹_›)
  · split
    · exact .error (State.ctPoison_checks.of_error ‹_›)
    · split
      · exact .error ((State.ctRegion_keeps h).of_error ‹_›)
      · exact (State.ctPass_keeps ((State.ctRegion_keeps h).of_ok ‹_›)).map fun _ h =>
          .fst h.modHart

theorem State.ctSc_keeps {va dbl v} (h : s.Canonical) :
    CtKeeps (fun r => r.1.Canonical) (s.ctSc c va dbl v) := by
  unfold State.ctSc
  dsimp only
  split
  · exact .error (State.ctAtomLoc_checks.of_error ‹_›)
  · refine .ite ?_ (.ok (.fst h.modHart))
    split
    · exact .error ((State.ctRegion_keeps h).of_error ‹_›)
    · exact (State.ctPass_keeps ((State.ctRegion_keeps h).of_ok ‹_›)).map fun _ h =>
        .fst h.ctWrite.modHart

theorem State.ctAnswered_keeps {r} (h : s.Canonical) (e : s.ctAnswered c = some r) :
    CtKeeps (fun r => r.1.Canonical) r := by
  obtain ⟨q, -, rfl⟩ := Option.map_eq_some_iff.mp e
  dsimp only
  split
  · exact .error .stallNone
  · refine .ok (.fst (State.Canonical.modHart ?_))
    exact h.keepCore fun _ => by rfl

theorem State.Canonical.ctAcquire {q} (h : s.Canonical) : (s.ctAcquire c q).Canonical :=
  .ite h.acquireAt h
theorem State.Canonical.ctClose {q} (h : s.Canonical) : (s.ctClose c q).Canonical :=
  .ite h h.closeRegion

theorem State.ctAmoAt_keeps {l k v} (h : s.Canonical) :
    CtKeeps (fun r => r.1.Canonical) (s.ctAmoAt c l k n v) := by
  unfold State.ctAmoAt
  split
  · exact .error (.stall h.sendFor.modHart)
  · refine .ok ?_
    exact .ite h h.writeBy

theorem State.ctAmo_keeps {va k dbl q v} (h : s.Canonical) :
    CtKeeps (fun r => r.1.Canonical) (s.ctAmo c va k dbl q v) := by
  unfold State.ctAmo
  dsimp only
  split
  · exact (State.ctAnswered_keeps h ‹_›).map fun _ h => h.ctAcquire
  · split
    · exact .error (State.ctAtomLoc_checks.of_error ‹_›)
    · split
      · exact .error (State.ctPoison_checks.of_error ‹_›)
      · split
        · exact .error ((State.ctRegion_keeps h).of_error ‹_›)
        · have h1 := (State.ctRegion_keeps h).of_ok ‹_›
          split
          · exact .error ((State.ctPass_keeps h1).of_error ‹_›)
          · exact (State.ctAmoAt_keeps ((State.ctPass_keeps h1).of_ok ‹_›).ctClose).map fun _ h =>
              h.ctAcquire

/-- The end of an instruction of the control thread, whatever it comes to. -/
theorem State.Canonical.ctFinish {i npc r} (h : s.Canonical) (hr : CtKeeps State.Canonical r) :
    (s.ctFinish i c npc r).Canonical := by
  unfold State.ctFinish
  cases hr with
  | ok ht => exact ht.ctRetire
  | error he =>
    cases he with
    | exc => exact .ctTrap (.ite (.modHart (.ite h.closeRegion h)) (.ite h.closeRegion h))
    | poison => exact h.consumePoison
    | stallNone => exact h.leaveAll.modHart
    | stall ht => exact ht.modHart

theorem State.ctBlock_checks {va} : CtChecks (s.ctBlock c va n) := by
  induction n generalizing va with
  | zero => exact .ok trivial
  | succ n ih =>
    unfold State.ctBlock
    split
    · exact .error (State.ctChunks_checks.of_error ‹_›)
    · exact .ite (.error .exc) (ih.map fun _ _ => trivial)

theorem State.ctBytes_keeps {va} (h : s.Canonical) :
    CtKeeps (fun r => r.1.Canonical) (s.ctBytes c va n) := by
  unfold State.ctBytes
  split
  · exact .error (State.ctBlock_checks.of_error ‹_›)
  · split
    · exact .error (State.ctPoison_checks.of_error ‹_›)
    · split
      · exact .error ((State.ctRegion_keeps h).of_error ‹_›)
      · exact (State.ctPass_keeps ((State.ctRegion_keeps h).of_ok ‹_›)).map fun _ h => h

/-! ### Control registers -/

namespace State.Canonical

theorem ctxidWrite {v} (h : s.Canonical) (e : s.ctxidWrite c v = some t) : t.Canonical := by
  unfold State.ctxidWrite at e
  dsimp only at e
  split at e
  · cases e
    exact h.setCore ((h.core c).same (by rfl))
  · cases e

theorem nbvWrite {v} (h : s.Canonical) (e : s.nbvWrite c v = some t) : t.Canonical := by
  unfold State.nbvWrite at e
  dsimp only at e
  split at e
  · cases e
    exact .ite (h.setCore ((h.core c).same (by rfl))) h
  · cases e

theorem mtresume {m} (h : s.Canonical) : (s.mtresume c m).Canonical :=
  h.foldl _ fun _ _ h => h.resumeMt

end State.Canonical

theorem Core.Canonical.ownWrite {k : Core} {v} (h : k.Canonical) : (k.ownWrite n v).Canonical := by
  unfold Core.ownWrite
  split <;> exact h.same (by rfl)

theorem Core.Canonical.clearLate {k : Core} {v} (h : k.Canonical) :
    (k.clearLate n v).Canonical := by
  unfold Core.clearLate
  split
  · exact h.same (by rfl)
  · exact h

theorem State.Canonical.csrWrite {num v} (h : s.Canonical) (e : s.csrWrite c num v = some t) :
    t.Canonical := by
  unfold State.csrWrite at e
  extract_lets r k cyc h1 h2 at e
  have hk : k.Canonical := (h.core c).ownWrite.clearLate
  clear_value k
  split at e
  · exact h.ctxidWrite e
  · split at e
    · exact h.nbvWrite e
    · split at e
      · cases e
        exact h.mtresume
      · cases e
        exact h.setCore (hk.same (by rfl))

theorem State.Canonical.orStall {i r} (h : s.Canonical) (hr : ∀ t, r = some t → t.Canonical) :
    (s.orStall c i r).Canonical := by
  unfold State.orStall
  cases r with
  | none => exact h.modHart
  | some t => exact (hr t rfl).modHart

section
variable (h : s.Canonical)
include h

theorem execCtxidCtxWrite_keepsMem {v} : KeepsMem (execCtxidCtxWrite c v s) :=
  .next (h.orStall fun _ => h.ctxidWrite)
theorem execNbvWrite_keepsMem {v} : KeepsMem (execNbvWrite c v s) :=
  .next (h.orStall fun _ => h.nbvWrite)
theorem execMtresume_keepsMem {m} : KeepsMem (execMtresume c m s) := .next h.mtresume

theorem execRegisterWrite_keepsMem {r v} : KeepsMem (execRegisterWrite r v s) := by
  unfold execRegisterWrite
  split
  · split
    · exact .next h
    · exact .next (h.orStall fun _ => h.csrWrite)
  · exact .next h.devWrite

end

/-! ### The RISC-V instructions -/

theorem State.Canonical.setX {rd v} (h : s.Canonical) : (s.setX c rd v).Canonical := h.modHart

theorem illegal_keeps {v} : CtKeeps State.Canonical (illegal v) := .error .exc

theorem State.csrInstr_keeps {k i rd rs1 num v} (h : s.Canonical) :
    CtKeeps State.Canonical (s.csrInstr c k i rd rs1 num v) := by
  unfold State.csrInstr
  extract_lets x src write
  refine .ite illegal_keeps ?_
  split
  · exact illegal_keeps
  · dsimp only
    refine .ite (.ok h.setX) ?_
    split
    · exact .error .stallNone
    · exact .ok (h.csrWrite ‹_›).setX

theorem State.rvExec_keeps {q n v op} (h : s.Canonical) :
    CtKeeps State.Canonical (s.rvExec c q n v op).1 := by
  unfold State.rvExec
  cases op with
  | load => exact (State.ctLoad_keeps h).map fun _ h => h.setX
  | store => exact State.ctStore_keeps h
  | lr => exact (State.ctLr_keeps h).map fun _ h => h.setX.ctClose.ctAcquire
  | sc => exact (State.ctSc_keeps h).map fun _ h => h.setX.ctClose.ctAcquire
  | amo => exact (State.ctAmo_keeps h).map fun _ h => h.setX
  | csr => exact State.csrInstr_keeps h
  | fence => exact .ok h.closeRegion.acquireDom
  | branch | fenceI => exact .ok h
  | ecall | ebreak => exact .error .exc
  | mret =>
    dsimp only
    split
    · exact .ok h.setHart
    · exact illegal_keeps
  | sret =>
    dsimp only
    split
    · exact illegal_keeps
    · exact .ok h.setHart
  | wfi =>
    dsimp only
    split
    · exact illegal_keeps
    · exact .ok h.modHart
  | sfenceVma =>
    dsimp only
    split
    · exact illegal_keeps
    · exact .ok h.sfence
  | _ => exact .ok h.setX

theorem State.rvRun_keeps {q n v op} (h : s.Canonical) :
    CtKeeps State.Canonical (s.rvRun c q n v op).1 := by
  unfold State.rvRun
  split
  · exact .error .stallNone
  · exact State.rvExec_keeps h

theorem execControlThreadRiscvInstruction_keepsMem {r} (h : s.Canonical) :
    KeepsMem (execControlThreadRiscvInstruction r s) := by
  unfold execControlThreadRiscvInstruction
  cases r with
  | full => exact .next (h.ctFinish (State.rvRun_keeps h))
  | comp => exact .next (h.ctFinish (State.rvRun_keeps h))
  | reserved => exact .next (h.ctFinish illegal_keeps)
  | reserved16 => exact .next (h.ctFinish illegal_keeps)

end

/-! ### The control-thread extension -/

section
variable {s t : State} {c n : Nat}

theorem State.ctExt_keepsMem {i part} (h : s.Canonical)
    (hp : ∀ c x, CtKeeps State.Canonical (part c x)) : KeepsMem (s.ctExt i part) :=
  .next (h.ctFinish (hp _ _))

theorem badValue_canonical {i} : (badValue i).Canonical := .exc
theorem extStop_canonical {a b} : (extStop a b).Canonical := .exc
theorem aligned_checks {va} : CtChecks (aligned va n) := .ite (.ok trivial) (.error .exc)
theorem demand_checks {ok e} (he : CtStop.Canonical e) : CtChecks (demand ok e) :=
  .ite (.ok trivial) (.error he)

theorem ofStop_checks {α : Type} {r : Except Stop α} : CtChecks (ofStop r) := by
  unfold ofStop
  split
  · exact .ok trivial
  · exact .error .exc
  · exact .error .poison
  · exact .error .stallNone

theorem State.Canonical.sow {base ws ms} (h : s.Canonical) : (s.sow c base ws ms).Canonical :=
  h.foldl _ fun _ _ h => h.modMt

theorem State.sowPart_keeps {i rd rs1 rs2 wait x} (h : s.Canonical) :
    CtKeeps State.Canonical (s.sowPart i rd rs1 rs2 wait c x) := by
  refine (demand_checks badValue_canonical).bind fun _ _ => aligned_checks.bind fun _ _ =>
    (State.ctBytes_keeps h).bind fun r hr => ?_
  exact .ite (.error .stallNone) (.ok hr.sow.setX)

theorem State.Canonical.clearSignals (h : s.Canonical) : (s.clearSignals c).Canonical :=
  h.foldl _ fun _ _ h => .ite h.modMt h

theorem State.Canonical.mtstat {v} (h : s.Canonical) (e : s.mtstat c n = some (v, t)) :
    t.Canonical := by
  have same : ∀ {x}, some (x, s) = some (v, t) → t.Canonical := fun e => by
    obtain ⟨-, rfl⟩ := Prod.mk.inj (Option.some.inj e)
    exact h
  unfold State.mtstat at e
  dsimp only at e
  split at e
  · exact same e
  · obtain ⟨-, rfl⟩ := Prod.mk.inj (Option.some.inj e)
    exact h.clearSignals
  · exact same e
  · exact same e
  · split at e
    · exact same e
    · cases e

theorem State.cmdRequest_keeps {va} (h : s.Canonical) :
    CtKeeps (fun r => r.1.Canonical) (s.cmdRequest c va) := by
  refine aligned_checks.bind fun _ _ => (State.ctBytes_keeps h).bind fun r hr => .ite ?_ ?_
  · exact (demand_checks extStop_canonical).bind fun _ _ => (demand_checks extStop_canonical).bind
      fun _ _ => .ok hr
  · exact ofStop_checks.bind fun _ _ => ofStop_checks.bind fun _ _ => .ok hr

namespace State.Canonical
variable {d : Nat}

theorem childIn {ctx q r level} (h : s.Canonical) : (s.childIn d c ctx q r level).Canonical :=
  h.modDie

theorem cmdPush {va r tgs} (h : s.Canonical) (e : s.cmdPush c va r tgs = some t) : t.Canonical := by
  unfold State.cmdPush at e
  extract_lets q number d at e
  have hn : ∀ {s : State}, s.Canonical → (number s).Canonical := fun h => by
    unfold number
    exact h.keepCore fun _ => by rfl
  clear_value number
  split at e
  · split at e
    · cases e
      exact (hn h).send
    · cases e
      exact (hn h).childIn
  · split at e
    · cases e
    · cases e
      exact (hn (h.copyGroup ‹_›)).modCore fun _ hk => Core.Canonical.pullFifo (hk.same (by rfl))

theorem ctPushed {i q r} (h : s.Canonical) (hr : CtKeeps State.Canonical r) :
    (s.ctPushed i c q r).Canonical := by
  unfold State.ctPushed
  dsimp only
  split
  · exact .ite (hr.of_ok rfl).modHart (h.ctFinish hr)
  · exact h.ctFinish hr

end State.Canonical

theorem State.ctCounter_checks {spc x} : CtChecks (s.ctCounter c spc x) := by
  unfold State.ctCounter
  refine .ite ?_ (.ite (.ok trivial) (.error .exc))
  split
  · exact .error (State.ctChunks_checks.of_error ‹_›)
  · exact .ite (.error .exc) (.ok trivial)

theorem Core.Canonical.setActor {k : Core} {a} (h : k.Canonical) : (k.setActor n a).Canonical :=
  h.same (by rfl)

theorem Core.Canonical.enableActor {k : Core} {b} (h : k.Canonical) :
    (k.enableActor n b).Canonical := by
  unfold Core.enableActor
  split
  · exact h.setActor
  · exact h

namespace State.Canonical


theorem dropStale (h : s.Canonical) : (s.dropStale n).Canonical := by
  unfold State.dropStale
  extract_lets other s1
  have h1 : s1.Canonical := h.foldl _ fun _ _ h => h.partialDone
  exact h1.same (by rfl)

theorem incarn {ctx} (h : s.Canonical) (e : s.incarn ctx = some (n, t)) : t.Canonical := by
  unfold State.incarn at e
  extract_lets x m mine s1 s2 at e
  have h1 : s1.Canonical := h.foldl _ fun _ _ h => h.keepCore fun _ => by rfl
  have h2 : s2.Canonical := h1.dropStale.discardHeld
  clear_value s2
  split at e
  · cases e
  · obtain ⟨-, rfl⟩ := Prod.mk.inj (Option.some.inj e)
    exact h2.same (by rfl)

end State.Canonical

theorem State.reclaim_ends {ctx v} (h : s.Canonical) :
    Ends State.Canonical (fun r => r.2.Canonical) (s.reclaim ctx v) := by
  unfold State.reclaim
  dsimp only
  refine .ite (.ok h) (.ite (.ok h) ?_)
  split
  · exact .error (h.same (by rfl))
  · refine .ite (.error h) (.ok ?_)
    exact State.Canonical.same h (by rfl)

section
variable {rd rs1 rs2 : BitVec 5} (h : s.Canonical)
include h

theorem execSow_keepsMem : KeepsMem (execSow rd rs1 rs2 s) :=
  State.ctExt_keepsMem h fun _ _ => State.sowPart_keeps h
theorem execSoww_keepsMem : KeepsMem (execSoww rd rs1 rs2 s) :=
  State.ctExt_keepsMem h fun _ _ => State.sowPart_keeps h

theorem execMtstat_keepsMem : KeepsMem (execMtstat rd rs1 s) := by
  refine State.ctExt_keepsMem h fun c x => ?_
  split
  · exact .ok (h.mtstat ‹_›).setX
  · exact .error .exc

theorem execMtstop_keepsMem : KeepsMem (execMtstop rs1 s) :=
  State.ctExt_keepsMem h fun _ _ => (demand_checks badValue_canonical).bind fun _ _ =>
    .ok (h.foldl _ fun _ _ h => h.stopMt)

theorem execMtrel_keepsMem : KeepsMem (execMtrel rs1 s) :=
  State.ctExt_keepsMem h fun _ _ => (demand_checks badValue_canonical).bind fun _ _ =>
    (demand_checks .stallNone).bind fun _ _ => .ok (h.closeRegion.foldl _ fun _ _ h => h.modMt)

theorem execCmdq_keepsMem : KeepsMem (execCmdq rd rs1 s) := by
  refine .next (h.ctPushed ((State.cmdRequest_keeps h).bind fun r hr =>
    .ite (.error .stallNone) ?_))
  split
  · exact .ok (hr.cmdPush ‹_›).setX
  · exact .error .stallNone

theorem execCmdqnb_keepsMem : KeepsMem (execCmdqnb rd rs1 s) := by
  unfold execCmdqnb
  dsimp only
  split
  · exact .next (h.ctFinish (.error ((State.cmdRequest_keeps h).of_error ‹_›)))
  · have hu := (State.cmdRequest_keeps h).of_ok ‹_›
    split
    · rename_i e
      split at e
      · cases e
      · exact .next (h.ctPushed (.ok (hu.cmdPush e).setX))
    · exact .next (h.ctFinish (.ok hu.setX))

theorem execCtinbx_keepsMem : KeepsMem (execCtinbx rd rs1 s) := by
  refine State.ctExt_keepsMem h fun c x => (demand_checks badValue_canonical).bind fun _ _ => ?_
  split
  · exact .error .stallNone
  · have hk := (h.core c).takeRec ‹_›
    exact .ok (h.setCore (hk.same (by rfl))).refill.closeRegion.setX

theorem execCtcwait_keepsMem : KeepsMem (execCtcwait rd rs1 rs2 s) := by
  refine State.ctExt_keepsMem h fun c x => ?_
  refine (demand_checks badValue_canonical).bind fun _ _ => (demand_checks extStop_canonical).bind
    fun _ _ => State.ctCounter_checks.bind fun _ _ => State.ctPoison_checks.bind fun _ _ =>
    (State.ctRegion_keeps h).bind fun s h => (State.ctPass_keeps h).bind fun s h => ?_
  exact .ite (.ok h.closeRegion.acquireCounter.setX) (.error .stallNone)

theorem execCttick_keepsMem : KeepsMem (execCttick rd rs1 s) := by
  refine State.ctExt_keepsMem h fun c x => (demand_checks badValue_canonical).bind fun _ _ => ?_
  split
  · exact .error .stallNone
  · exact .ok (h.claimTicket ‹_›).setX

theorem execActfire_keepsMem : KeepsMem (execActfire rs1 rs2 s) := by
  refine State.ctExt_keepsMem h fun c x => (demand_checks badValue_canonical).bind fun _ _ =>
    .ite ?_ ?_
  · exact aligned_checks.bind fun _ _ => (State.ctBytes_keeps h).bind fun r hr =>
      (demand_checks extStop_canonical).bind fun _ _ => .ok (hr.modCore fun _ hk => hk.setActor)
  · exact .ok (h.modCore fun _ hk => hk.enableActor)

theorem execBindld_keepsMem : KeepsMem (execBindld rs1 s) :=
  State.ctExt_keepsMem h fun _ _ => aligned_checks.bind fun _ _ => (State.ctBytes_keeps h).bind
    fun _ hr => .ite (.ok (hr.keepCore fun _ => by rfl)) (.error .stallNone)

theorem execIncarn_keepsMem : KeepsMem (execIncarn rd rs1 s) := by
  refine State.ctExt_keepsMem h fun c x => ?_
  refine (demand_checks badValue_canonical).bind fun _ _ => (demand_checks badValue_canonical).bind
    fun _ _ => ?_
  split
  · exact .ok h.setX
  · exact .ok (h.incarn ‹_›).setX

theorem execReclaim_keepsMem : KeepsMem (execReclaim rd rs1 s) := by
  unfold execReclaim
  dsimp only
  split
  · exact .next (h.ctFinish (.error .exc))
  · split
    · exact .next (h.ctFinish (.ok ((State.reclaim_ends h).of_ok ‹_›).setX))
    · exact .next (((State.reclaim_ends h).of_error ‹_›).ctFinish (.error .stallNone))

theorem execIncarnationSweep_keepsMem {ctx v} : KeepsMem (execIncarnationSweep ctx v s) := by
  unfold execIncarnationSweep
  split
  · exact .next h
  · exact .next (h.same (by rfl))

end

/-! ### Actors -/

namespace State.Canonical
variable {m a : Nat}

theorem loadPorts {x} (h : s.Canonical) : (s.loadPorts c a m x).Canonical := by
  refine h.foldl _ fun t p ht => ?_
  split
  · exact ht.bindHandle
  · exact ht

theorem disableActors {ds : List Nat} {b} (h : s.Canonical) :
    State.Canonical (ds.foldl (fun s d => s.modCore d (·.enableActor a b)) s) :=
  h.foldl _ fun _ _ h => h.modCore fun _ hk => hk.enableActor

theorem firingFault {e va} (h : s.Canonical) : (s.firingFault c a e va).Canonical := by
  unfold State.firingFault
  exact lateRecord (disableActors h)

theorem fireOn {x ws} (h : s.Canonical) : (s.fireOn c a x ws).Canonical := by
  unfold State.fireOn
  refine modCore (wake (foldl (foldl h _ fun _ _ h => h.loadPorts) _ fun _ _ h =>
    h.closeRegion.modMt)) ?_
  exact fun _ hk => hk.same (by rfl)

theorem discardFills (h : s.Canonical) : (s.discardFills c).Canonical := h.keepCore fun _ => by rfl
theorem discardAll (h : s.Canonical) : s.discardAll.Canonical :=
  h.foldl _ fun _ _ h => .ite h.discardFills h

theorem fillRange {r} (h : s.Canonical) (e : s.fillRange c r = some t) : t.Canonical := by
  unfold State.fillRange at e
  split at e
  · cases e
  · cases e
    exact h.writeLoc.same (by rfl)

theorem transfer (h : s.Canonical) : (s.transfer c n).Canonical := by
  refine .ite h ?_
  split
  · exact h
  · exact h.setCore ((h.core c).same (by rfl))

theorem dropLoaded {p} (h : s.Canonical) : (s.dropLoaded c p).Canonical := by
  unfold State.dropLoaded
  dsimp only
  split
  · exact .ite h.dropHandle h
  · exact h

theorem leaveFiring (h : s.Canonical) : (s.leaveFiring c m).Canonical := by
  unfold State.leaveFiring
  refine foldl (setCore h ?_) _ fun _ _ h => foldl h _ fun _ _ h => h.dropLoaded
  exact (h.core c).same (by rfl)

theorem foldlM {α : Type} {g : State → α → Option State} {l : List α} (h : s.Canonical)
    (hg : ∀ s a t, s.Canonical → g s a = some t → t.Canonical) (e : l.foldlM g s = some t) :
    t.Canonical := by
  induction l generalizing s with
  | nil => cases e; exact h
  | cons a l ih =>
    rw [List.foldlM_cons] at e
    obtain ⟨u, hu, e⟩ := Option.bind_eq_some_iff.mp e
    exact ih (hg _ _ _ h hu) e

end State.Canonical

section
variable {m a : Nat} (h : s.Canonical)
include h

theorem execFiringStart_keepsMem : KeepsMem (execFiringStart c s) := by
  unfold execFiringStart
  split
  · exact .next h
  · dsimp only
    split
    · exact .next h.discardFills
    · split
      · exact .next h.discardFills.firingFault
      · split
        · exact .next h.discardFills.consumePoison
        · exact .next h.discardFills.fireOn

theorem execFootprintFill_keepsMem : KeepsMem (execFootprintFill c a s) := by
  unfold execFootprintFill
  split
  · exact .next h
  · split
    · exact .next h
    · split
      · exact .next h
      · have h1 := h.foldlM (fun _ _ _ h e => h.fillRange e) ‹_›
        exact .next (h1.modCore fun _ hk => hk.setActor)

theorem execStageRebalance_keepsMem : KeepsMem (execStageRebalance c s) :=
  .next (h.foldl _ fun _ _ h => h.transfer)

theorem execMicrothreadIdle_keepsMem : KeepsMem (execMicrothreadIdle c m s) := by
  unfold execMicrothreadIdle
  split
  · exact .next h.idleMt.leaveFiring
  · exact .next h

end
end

end Sys2Proof.Machine
end

section
/-! SUPPORT. The canonical form under power, the fabric, launches, reset and DMA. -/

namespace Sys2Proof.Machine

/-! ### Power -/

section
variable {s t : State} {c n : Nat}

namespace State.Canonical

theorem sample {env} (h : s.Canonical) : (s.sample env).Canonical := by
  unfold State.sample
  exact foldl (foldl h _ fun _ _ h => h.modTile) _ fun _ _ h => h.modChan

theorem sense {env} (h : s.Canonical) : (s.sense env).Canonical := by
  unfold State.sense
  refine foldl ?_ _ fun _ _ h => h.keepCore fun _ => by rfl
  exact (h.sample (env := env)).same (by rfl)

theorem setReserve {b} (h : s.Canonical) : (s.modCore c (·.setReserve b)).Canonical :=
  h.keepCore fun _ => by rfl

theorem rotate {hot res} (h : s.Canonical) : (s.rotate hot res).Canonical := by
  induction hot generalizing s res with
  | nil => exact h
  | cons x hot ih =>
    cases res with
    | nil => exact h
    | cons r res => exact ih h.setReserve.setReserve.wake

theorem rotateNode {x} (h : s.Canonical) : (s.rotateNode x).Canonical := h.rotate
theorem rotation (h : s.Canonical) : s.rotation.Canonical :=
  h.foldl _ fun _ _ h => .ite h.rotateNode h

theorem setTile {b : Budget} {s0 x} (h : s.Canonical) : (b.setTile s0 s x).Canonical := by
  unfold Budget.setTile
  exact foldl h.modTile _ fun _ _ h => h.keepCore fun _ => by rfl

theorem budget {env} (h : s.Canonical) : (s.budget env).Canonical := by
  unfold State.budget
  exact foldl h _ fun _ _ h => h.setTile

theorem forceTile {b} (h : s.Canonical) : (s.forceTile n b).Canonical :=
  h.foldl _ fun _ _ h => h.keepCore fun _ => by rfl

end State.Canonical

section
variable (h : s.Canonical)
include h

theorem execCoreGate_keepsMem : KeepsMem (execCoreGate c s) := by
  unfold execCoreGate
  dsimp only
  split
  · exact .next (.ite h.setGate h)
  · split
    · exact .next h.setGate
    · split
      · exact .next h.setGate
      · exact .next h
  · exact .next h

theorem execGatingEntryEnd_keepsMem : KeepsMem (execGatingEntryEnd c s) := by
  unfold execGatingEntryEnd
  split
  · split
    · exact .next (.ite h.setGate.joinArbiter h.setGate)
    · exact .next h
  · exact .next h

theorem execWakeRequest_keepsMem : KeepsMem (execWakeRequest c s) := .next h.wake

theorem execWakeComplete_keepsMem : KeepsMem (execWakeComplete c s) := by
  unfold execWakeComplete
  split
  · split
    · have h1 := fun q a => (h.setArbiter (q := q) (a := a)).setGate (c := c) (g :=
        .on) |>.startWakes
        (q := q) (n := 4)
      exact .next (.ite (h1 _ _).resetOn (h1 _ _))
    · exact .next h
  · exact .next h

theorem execBudgetTick_keepsMem {env} : KeepsMem (execBudgetTick env s) := by
  unfold execBudgetTick
  split
  · exact .next h
  · have h1 : State.Canonical { s with budgetAt := some s.now } := h.same (by rfl)
    exact .next (h1.sense.rotation.budget.foldl _ fun _ _ h => h.backOff)

theorem execHopEnd_keepsMem : KeepsMem (execHopEnd n s) := by
  unfold execHopEnd
  split
  · exact .next (.ite h.modTile h)
  · exact .next h

theorem execDramRefresh_keepsMem : KeepsMem (execDramRefresh n s) := .next (.ite h.modChan h)

theorem execDramRefreshEnd_keepsMem : KeepsMem (execDramRefreshEnd n s) := by
  unfold execDramRefreshEnd
  split
  · exact .next (.ite h.modChan h)
  · exact .next h

theorem execDroopDetect_keepsMem {b} : KeepsMem (execDroopDetect n b s) := by
  unfold execDroopDetect
  dsimp only
  split
  · exact .next h.modTile.forceTile
  · exact .next h.modTile

theorem execDroopEnd_keepsMem : KeepsMem (execDroopEnd n s) := by
  unfold execDroopEnd
  extract_lets past x s1
  have h1 : s1.Canonical := .ite h.modTile h
  exact .next (.ite h1.modTile.forceTile h1)

end

/-! ### The fabric -/

namespace State.Canonical
variable {p q : Packet}

theorem reply {k} (h : s.Canonical) : (s.reply p k).Canonical := h.putWire
theorem unwire (h : s.Canonical) : (s.unwire n).Canonical := h.same (by rfl)

theorem count {f} (h : s.Canonical) : (s.count n f).Canonical := by
  unfold State.count
  split
  · exact h.modDie
  · exact h

theorem countResend (h : s.Canonical) : (s.countResend n).Canonical := h.count

theorem writeMbox {v far} (h : s.Canonical) : (s.writeMbox c n v far).Canonical :=
  h.writeW.keepCore fun _ => by rfl
theorem putMailbox {v far} (h : s.Canonical) : (s.putMailbox c n v far).Canonical :=
  h.writeMbox.keepCore fun _ => by rfl
theorem atredMailbox {aop ty v far} (h : s.Canonical) :
    (s.atredMailbox c n aop ty v far).Canonical :=
  h.writeMbox
theorem putNibble {l high v} (h : s.Canonical) : (s.putNibble c l high v).Canonical := h.writeBy

theorem renameSent {a b} (h : s.Canonical) : (s.modCore c (·.renameSent a b)).Canonical := by
  refine h.modCore fun k hk => ?_
  unfold Core.renameSent
  split
  · exact hk.same (by rfl)
  · exact hk

theorem answerRmw {old} (h : s.Canonical) : (s.answerRmw p old).Canonical := by
  refine h.foldl _ fun t c ht => ht.modCore fun k hk => ?_
  split
  · exact hk.same (by rfl)
  · exact hk

theorem writeAt {l bs} (h : s.Canonical) : (s.writeAt c l bs).Canonical := by
  unfold State.writeAt
  split
  · exact h.devWrite
  · exact h
  · exact h.writeBy

theorem overrun (h : s.Canonical) : (s.overrun p).Canonical := by
  refine h.foldl _ fun t c ht => ht.modCore fun k hk => ?_
  split
  · exact hk.same (by rfl)
  · exact hk

theorem rmwAt {kd a op} (h : s.Canonical) : (s.rmwAt p kd a n op).Canonical := by
  unfold State.rmwAt
  split
  · split
    · exact h.withQhomes.answerRmw
    · exact h.overrun.answerRmw
  · exact h.writeAt.answerRmw

theorem performAt (h : s.Canonical) : (s.performAt p).Canonical := by
  unfold State.performAt
  split
  · exact h.writeBy
  · exact h.foldl _ fun _ _ h => h.writeBy
  · exact h.rmwAt
  · exact h

theorem arrivalIn (h : s.Canonical) : (s.arrivalIn p).Canonical := h.same (by rfl)
theorem markerDone {x} (h : s.Canonical) : (s.markerDone x).Canonical := h.same (by rfl)

theorem relay {f} (h : s.Canonical) : (s.relay p f).Canonical := by
  unfold State.relay
  exact inject (foldl h _ fun _ _ h => h.renameSent)

theorem perform (h : s.Canonical) : (s.perform p).Canonical := by
  unfold State.perform
  extract_lets ts far
  clear_value ts
  split
  · exact h.foldl _ fun _ _ h => h.putMailbox
  · exact h.foldl _ fun _ _ h => h.atredMailbox
  · exact h.foldl _ fun _ _ h => h.putNibble
  · exact h.nibbleDevice
  · exact h.putNibble
  · exact h.foldl _ fun _ _ h => h.keepCore fun _ => by rfl
  · exact h.foldl _ fun _ _ h => h.keepCore fun _ => by rfl
  · exact h.same (by rfl)
  · exact h.foldl _ fun _ _ h => h.writeLoc
  · exact h.foldl _ fun _ _ h => h.foldl _ fun _ _ h => h.writeLoc
  · exact h.performAt
  · exact h.performAt
  · exact h.performAt
  · exact h.devWrite
  · exact h.arrivalIn
  · exact h.childIn
  · exact h.same (by rfl)
  · exact h.modDie
  · exact h.markerDone

theorem performAway (h : s.Canonical) : (s.performAway p).Canonical := by
  unfold State.performAway
  split
  · exact h.putNibble
  · exact h
  · exact h
  · exact h.performAt
  · exact h.performAt
  · exact h.performAt
  · exact h.same (by rfl)
  · exact h

theorem performed (h : s.Canonical) : (s.performed p).Canonical := by
  unfold State.performed
  split
  · exact h
  · exact h.sentDone

theorem deliver (h : s.Canonical) : (s.deliver p).Canonical := by
  refine .ite h.sentDone (.ite h.performAway.performed ?_)
  split
  · exact h.relay
  · exact h.perform.performed

theorem withPairs {x} (h : s.Canonical) : State.Canonical { s with pairs := x } := h.same (by rfl)

theorem pairIn (h : s.Canonical) : (s.pairIn p).Canonical := by
  unfold State.pairIn
  refine .ite h.discardPaired.reply ?_
  split
  · exact h.withPairs
  · exact .ite h.withPairs.deliver.reply.reply h.pairAbort

theorem takeInOrder (h : s.Canonical) (e : s.takeInOrder p = some t) : t.Canonical := by
  unfold State.takeInOrder at e
  split at e
  · split at e
    · cases e
      exact h.pairIn
    · cases e
  · split at e
    · cases e
      exact h.deliver
    · cases e

theorem modFlow {src dst cls f} (h : s.Canonical) : (s.modFlow src dst cls f).Canonical := h.setFlow

theorem handOn {src dst cls} (h : s.Canonical) : (s.handOn src dst cls n).Canonical := by
  induction n generalizing s with
  | zero => exact h
  | succ n ih =>
    unfold State.handOn
    dsimp only
    split
    · exact h
    · split
      · exact ih (h.setFlow.takeInOrder ‹_›)
      · exact h

theorem receive (h : s.Canonical) : (s.receive p).Canonical := by
  unfold State.receive
  extract_lets f off t s1
  have ht : t.Canonical := h.setFlow
  have h1 : s1.Canonical := h.setFlow
  refine .ite h (.ite h.reply (.ite (.ite h h.reply) (.ite (.ite h h.reply) (.ite ?_ (.ite h1
    h1.reply)))))
  split
  · have hu := ht.takeInOrder ‹_›
    exact handOn (.ite hu hu.reply)
  · exact h.reply

theorem rejectGen (h : s.Canonical) : (s.rejectGen p).Canonical :=
  .ite h.reply.count.setFlow h.reply.count

theorem gateCheck (h : s.Canonical) (e : s.gateCheck p = some t) : t.Canonical := by
  unfold State.gateCheck at e
  split at e
  · dsimp only at e
    split at e
    · cases e
    · cases e
    · cases e
      exact h.reply.wake
  · cases e

theorem packetIn (h : s.Canonical) : (s.packetIn p).Canonical := by
  unfold State.packetIn
  split
  · exact h
  · refine .ite h.receive (.ite h.reply (.ite h.rejectGen ?_))
    split
    · exact h.gateCheck ‹_›
    · exact receive (.ite h.wake h)

theorem linkGood (h : s.Canonical) : (s.linkGood p).Canonical := by
  unfold State.linkGood
  split
  · exact h.same (by rfl)
  · exact h

theorem freeCopy {src dst cls x} (h : s.Canonical) : (s.freeCopy src dst cls x).Canonical := by
  unfold State.freeCopy
  dsimp only
  split
  · exact h
  · have hu : ∀ {u : State} {b : Prop} [Decidable b], u.Canonical →
        State.Canonical (if b then u.unblock src dst cls else u) := fun h => .ite h.unblock h
    refine sweepForwards (foldl (hu ?_) _ fun _ _ h => h.sendMarkers)
    split
    · exact h.dropGroup.setFlow.putWire
    · exact h.dropGroup.setFlow

theorem modCopies {src dst cls x g} (h : s.Canonical) : (s.modCopies src dst cls x g).Canonical :=
  h.modFlow

theorem rejectedOn {x} (h : s.Canonical) : (s.rejectedOn c x).Canonical := by
  unfold State.rejectedOn
  dsimp only
  split
  · exact h.keepCore fun _ => by rfl
  · exact h.keepCore fun _ => by rfl
  · exact h

theorem answerFree (h : s.Canonical) : (s.answerFree c p).Canonical := by
  unfold State.answerFree
  split
  · refine h.modCore fun k hk => ?_
    split
    · exact hk.same (by rfl)
    · exact hk
  · exact h

theorem rejectOwn (h : s.Canonical) : (s.rejectOwn p).Canonical := by
  unfold State.rejectOwn
  split
  · exact h
  · split
    · exact h.rejectedOn.answerFree.sentDoneOn
    · exact h

theorem giveUpCopy {src dst cls x} (h : s.Canonical) : (s.giveUpCopy src dst cls x).Canonical := by
  unfold State.giveUpCopy
  dsimp only
  refine freeCopy ?_
  split
  · exact h.rejectOwn
  · exact h

end State.Canonical

section
variable (h : s.Canonical)
include h

theorem execTwinTimeout_keepsMem : KeepsMem (execTwinTimeout n s) := by
  unfold execTwinTimeout
  split
  · exact .next h
  · split
    · dsimp only
      split
      · exact .next h.withPairs.discardPaired
      · split
        · exact .next h.pairAbort
        · exact .next h.withPairs.discardPaired
    · exact .next h

theorem execFabricMessageArrival_keepsMem {b} : KeepsMem (execFabricMessageArrival n b s) := by
  unfold execFabricMessageArrival
  split
  · exact .next h
  · split
    · exact .next h.unwire
    · split
      · exact .next h.unwire.linkGood.packetIn
      · exact .next h

theorem execPairedMessageArrival_keepsMem : KeepsMem (execPairedMessageArrival n s) := by
  unfold execPairedMessageArrival
  split
  · exact .next h
  · split
    · exact .next h.unwire.linkGood.packetIn
    · exact .next h

theorem execAckArrival_keepsMem : KeepsMem (execAckArrival n s) := by
  unfold execAckArrival
  split
  · exact .next h
  · split
    · exact .next h.unwire.linkGood.freeCopy
    · exact .next h

theorem execRetry_keepsMem : KeepsMem (execRetry n s) := by
  unfold execRetry
  split
  · exact .next h
  · split
    · exact .next h.unwire.linkGood.modCopies
    · exact .next h

theorem execRetryResend_keepsMem : KeepsMem (execRetryResend n s) := by
  unfold execRetryResend
  split
  · exact .next h
  · dsimp only
    refine .next (.handOn ?_)
    split
    · exact h.modCopies.countResend.putWire
    · exact h

theorem execReject_keepsMem : KeepsMem (execReject n s) := by
  unfold execReject
  split
  · exact .next h
  · split
    · exact .next h.unwire.linkGood.giveUpCopy
    · exact .next h

theorem execResendTimeout_keepsMem : KeepsMem (execResendTimeout n s) := by
  unfold execResendTimeout
  split
  · exact .next h
  · dsimp only
    split
    · exact .next h
    · split
      · exact .next (.giveUpCopy (.killPaddock (.ite h.count h)))
      · exact .next h.modCopies.countResend.putWire

theorem execEscapeTimeout_keepsMem : KeepsMem (execEscapeTimeout n s) := by
  unfold execEscapeTimeout
  split
  · exact .next h
  · split
    · exact .next h
    · exact .next (.modDie (.same h (by rfl)))

theorem execLinkFlitCrcFail_keepsMem : KeepsMem (execLinkFlitCrcFail n s) := by
  unfold execLinkFlitCrcFail
  dsimp only
  have h1 : ∀ {x}, State.Canonical { s with ports := x } := h.same (by rfl)
  split
  · exact .next h
  · exact .next (.ite h1.contain h1)

theorem execTrapRecordArrival_keepsMem : KeepsMem (execTrapRecordArrival n s) := by
  unfold execTrapRecordArrival
  split
  · exact .next h
  · dsimp only
    split
    · exact .next h
    · exact .next (.ringDeliver (.same h (by rfl)))

end
end

/-! ### Launches -/

section
variable {s t : State} {c d n : Nat}

namespace State.Canonical
variable {x : Node}

theorem postCmpl (h : s.Canonical) : (s.postCmpl x).Canonical := by
  unfold State.postCmpl
  extract_lets count va place s1
  have hc : ∀ {s l i}, State.Canonical s → (count s l i).Canonical := fun h => .ite h h.counterAdd
  have h1 : s1.Canonical := by
    unfold s1
    split
    · exact .ite h h.writeW
    · exact h
  clear_value count s1
  split
  · refine .ite ?_ (h.foldl _ fun _ _ h => h.postRecord)
    split
    · exact hc h
    · exact h
  · refine .ite h ?_
    split
    · exact hc h1
    · exact h1

theorem freePairs (h : s.Canonical) : (s.freePairs x).Canonical :=
  h.foldl _ fun _ _ h => h.dropGroup
theorem sendFroms {l : List Nat} {a : Nat} {b : Nat → Nat} {pl : Nat → Payload} (h : s.Canonical) :
    State.Canonical (l.foldl (fun s m => s.sendFrom a (b m) (pl m)) s) :=
      h.foldl _ fun _ _ h => h.sendFrom

theorem leave (h : s.Canonical) : (s.modCore c Core.leave).Canonical := h.keepCore fun _ => by rfl

theorem complete (h : s.Canonical) : (s.complete n x).Canonical := by
  unfold State.complete
  refine modDie (tilesFreed (foldl (freePairs (foldl h.postCmpl _ fun _ _ h =>
    h.sendFrom)) _ fun _ _ h => ?_))
  exact .ite h.closeCore.leave h

theorem toReady (h : s.Canonical) : (s.toReady n).Canonical := by
  unfold State.toReady
  dsimp only
  split
  · exact h.modNode.modDie
  · exact h.modNode

theorem enterNode {k} (h : s.Canonical) : (s.enterNode n x k).Canonical := by
  unfold State.enterNode
  dsimp only
  split
  · exact h.complete
  · exact .ite h.complete (.ite h.setNode.modDie.toReady h.setNode.modDie)

theorem badEntry (h : s.Canonical) : (s.badEntry d x).Canonical := h.postCmpl.sendFroms

theorem take {i} (h : s.Canonical) : (s.modCore c (·.take n i)).Canonical :=
  h.keepCore fun _ => by rfl

theorem takeTile {tile k} (h : s.Canonical) : (s.takeTile n tile k).Canonical := by
  unfold State.takeTile
  refine foldl h _ fun t j ht => ?_
  dsimp only
  split
  · exact ht.wake.take.setNode
  · exact ht

theorem takePairId {g} (h : s.Canonical) (e : s.takePairId d = some (g, t)) : t.Canonical := by
  unfold State.takePairId at e
  dsimp only at e
  split at e
  · cases e
  · cases e
    exact h.modDie

theorem takeTwin {b} (h : s.Canonical) : (s.takeTwin n b).Canonical := by
  unfold State.takeTwin
  split
  · exact h
  · split
    · have h1 := h.takePairId ‹_›
      refine setNode (keepCore (wake ?_) fun _ => by rfl)
      exact h1.keepCore fun _ => by rfl
    · exact h

theorem takeTwinTile {tile k} (h : s.Canonical) : (s.takeTwinTile n tile k).Canonical :=
  h.foldl _ fun _ _ h => h.takeTwin

theorem placeGroup (h : s.Canonical) : (s.placeGroup n d).Canonical := by
  unfold State.placeGroup
  split
  · exact h
  · exact h.foldl _ fun _ _ h => h.takeTile

theorem placeTwins {order fuel} (h : s.Canonical) : (s.placeTwins n d order fuel).Canonical := by
  induction fuel generalizing s with
  | zero => exact h
  | succ fuel ih =>
    unfold State.placeTwins
    split
    · exact h
    · dsimp only
      split
      · refine .ite ?_ h
        split
        · exact ih h.takeTwinTile
        · exact h
      · exact h

theorem placeAll (h : s.Canonical) : (s.placeAll d n x).Canonical := by
  unfold State.placeAll
  extract_lets s1
  have h1 : s1.Canonical := h.foldl _ fun _ _ h => h.placeGroup
  clear_value s1
  split
  · refine .ite (foldl h1 _ fun _ _ h => ?_) h1
    exact foldl h _ fun _ _ h => h.placeTwins
  · exact h1

theorem startCore (h : s.Canonical) (e : s.startCore x c = some t) : t.Canonical := by
  unfold State.startCore at e
  extract_lets i ps s1 at e
  have h1 : s1.Canonical := h.modHart
  clear_value s1
  split at e
  · cases e
    exact h1.keepCore fun _ => by rfl
  · cases e

theorem stopNode {k} (h : s.Canonical) : (s.stopNode n k).Canonical := by
  unfold State.stopNode
  split
  · exact h
  · exact h.setNode.foldl _ fun _ _ h => h.stopCore

theorem advanceNode (h : s.Canonical) : (s.advanceNode n).Canonical := h.modNode.modNode

theorem reportStuck (h : s.Canonical) : (s.reportStuck n x).Canonical := by
  unfold State.reportStuck
  dsimp only
  split
  · exact h.lateRecord
  · exact h.sendFrom

theorem sweepStuck (h : s.Canonical) : (s.sweepStuck n x).Canonical :=
  .ite h.stopNode.reportStuck h.modNode
theorem sweepEnd (h : s.Canonical) : (s.sweepEnd n x).Canonical := .ite h.complete h.modNode
theorem killRecord (h : s.Canonical) : (s.killRecord c).Canonical := h.lateRecord

/-! ### Reset, DMA and the control thread's interrupts -/

theorem booted {k} (h : s.Canonical) : (s.booted n k).Canonical := by
  have hc : ∀ {r : State}, r.gran = [] → r.cores = [] → ∀ {turn free rep boot},
      State.Canonical { r with
        turn := turn, free := free, dram := s.dram, remote := s.remote, bootStep :=
          boot, reports := rep } :=
    fun hg hk => ⟨h.dram, by rw [hg]; rfl, h.remote, fun c => by
      simp only [State.core, hk]
      exact .init⟩
  unfold State.booted
  dsimp only
  split
  · exact hc rfl rfl
  · exact hc rfl rfl

theorem dmaWrite {ls bs} (h : s.Canonical) : (s.dmaWrite ls bs).Canonical := by
  unfold State.dmaWrite
  extract_lets t
  have ht : t.Canonical := h.foldl _ fun _ _ h => h.writeLoc
  exact ht.same (by rfl)

theorem issueTrap {e word} (h : s.Canonical) : (s.issueTrap e word).Canonical := h.takeTrap
theorem takeIrq {i} (h : s.Canonical) : (s.takeIrq c i).Canonical := h.modHart

theorem closeEarly (h : s.Canonical) : s.closeEarly.Canonical := by
  refine foldl ?_ _ fun _ _ h => .ite h.closeRegion h
  exact h.same (by rfl)

theorem dropBarriers (h : s.Canonical) : s.dropBarriers.Canonical := h.same (by rfl)
theorem begun (h : s.Canonical) : s.begun.Canonical := h.dropBarriers.padsNext.closeEarly

theorem tick (h : s.Canonical) : s.tick.Canonical := by
  unfold State.tick
  extract_lets s1
  have h1 : s1.Canonical := h.discardAll.startAllWakes
  exact h1.same (by rfl)

theorem idleTurn (h : s.Canonical) : s.idleTurn.Canonical := .ite (h.same (by rfl)) h

end State.Canonical

section
variable (h : s.Canonical)
include h

theorem execLqdb_keepsMem {v} : KeepsMem (execLqdb d v s) := .next h.pageWrite

theorem execLaunchQueueEntryRead_keepsMem : KeepsMem (execLaunchQueueEntryRead d s) := by
  unfold execLaunchQueueEntryRead
  dsimp only
  split
  · exact .next h
  · exact .next (.ite h.modDie.enterNode h.modDie.badEntry)

theorem execChildLaunchAdmit_keepsMem : KeepsMem (execChildLaunchAdmit d s) := by
  unfold execChildLaunchAdmit
  split
  · exact .next h
  · split
    · exact .next h.modDie.enterNode
    · exact .next h

theorem execNodeNotification_keepsMem : KeepsMem (execNodeNotification d s) := by
  unfold execNodeNotification
  split
  · exact .next h
  · split
    · exact .next h
    · dsimp only
      split
      · exact .next h.modDie.modDie
      · exact .next (.ite h.modDie.setNode.toReady h.modDie.setNode)

theorem execReadyPriorityAging_keepsMem : KeepsMem (execReadyPriorityAging n s) := by
  unfold execReadyPriorityAging
  split
  · split
    · exact .next h.setNode.modDie
    · exact .next h
  · exact .next h

theorem execDistributorPlace_keepsMem : KeepsMem (execDistributorPlace d s) := by
  unfold execDistributorPlace
  split
  · exact .next h
  · split
    · exact .next h
    · dsimp only
      split
      · exact .next h
      · split
        · exact .next (.ite h h.setNode.modDie.placeAll)
        · exact .next h

theorem execLaunchCoreStart_keepsMem : KeepsMem (execLaunchCoreStart c s) := by
  unfold execLaunchCoreStart
  dsimp only
  split
  · exact .next h
  · split
    · exact .next h
    · split
      · exact .next h
      · split
        · exact .next h.stopNode
        · exact .next (h.foldlM (fun _ _ _ h e => h.startCore e) ‹_›).advanceNode

theorem execEndOfPart_keepsMem : KeepsMem (execEndOfPart c s) := by
  unfold execEndOfPart
  dsimp only
  split
  · split
    · refine .next (.advanceNode ?_)
      exact h.keepCore fun _ => by rfl
    · exact .next h
  · exact .next h

theorem execNodeComplete_keepsMem : KeepsMem (execNodeComplete n s) := by
  unfold execNodeComplete
  split
  · dsimp only
    split
    · exact .next h.complete
    · exact .next h
  · exact .next h

theorem execTerminationSweep_keepsMem : KeepsMem (execTerminationSweep n s) := by
  unfold execTerminationSweep
  split
  · exact .next h
  · split
    · exact .next h
    · dsimp only
      refine .next (.foldl ?_ _ fun _ _ h => h.keepCore fun _ => by rfl)
      exact .ite h.setNode.sweepStuck (.ite h.setNode.sweepEnd h.setNode)

theorem execKilledLaunchDrained_keepsMem : KeepsMem (execKilledLaunchDrained n s) := by
  unfold execKilledLaunchDrained
  split
  · dsimp only
    split
    · exact .next (.complete (.ite (h.foldl _ fun _ _ h => h.killRecord) h))
    · exact .next h
  · exact .next h

theorem execPackageReset_keepsMem : KeepsMem (execPackageReset s) := .next h.booted
theorem execAttestationRequest_keepsMem {nonce} : KeepsMem (execAttestationRequest nonce s) :=
  .next (h.same (by rfl))

theorem execInboundDma_keepsMem {va root data} : KeepsMem (execInboundDma va root data s) := by
  unfold execInboundDma
  split
  · exact .next h
  · split
    · exact .next h
    · exact .next h.dmaWrite

theorem execApplicationCoreAccess_keepsMem {pa op} :
    KeepsMem (execApplicationCoreAccess pa op s) := by
  unfold execApplicationCoreAccess
  split
  · exact .next h
  · split
    · exact .next h.devWrite
    · exact .next h
  · split
    · exact .next h
    · exact .next h.writeLoc
    · split
      · exact .next h
      · exact .next h.writeW

theorem execUnassignedOpcode_keepsMem {w} : KeepsMem (execUnassignedOpcode w s) := .next h.issueTrap

theorem execTrapInterruptTaken_keepsMem : KeepsMem (execTrapInterruptTaken c s) := by
  unfold execTrapInterruptTaken
  split
  · split
    · split
      · exact .next h.takeIrq
      · exact .next h
    · exact .next h
  · exact .next h

end
end

end Sys2Proof.Machine
end

section
/-! SUPPORT. Every step keeps the memories canonical (R63, R65). -/

namespace Sys2Proof.Machine

/-! ### Every instruction and event -/

section
variable {s : State} {i : Instr} {c m : Nat}

/-- Every instruction of a micro-thread; what `rerunMt` gives no meaning leaves the state. -/
theorem rerunMt_keepsMem (h : s.Canonical) : KeepsMem (rerunMt i s) := by
  cases i with
  | nop => exact .next (.issue (fun _ _ h => .ok h) h)
  | mov => exact .next (.issue movBody_keeps h)
  | sel | imad | ffma => exact .next (.issue elem3_keeps h)
  | iadd | isub | imul | imulh | imin | imax | iadds | isubs | shl | shr | sar | rot | fadd
  | fsub | fmul | fmin | fmax | l6mul =>
    exact .next (.issue elem2_keeps h)
  | iabs | ineg | clz | ffs | popc | brev | fclass | frnd => exact .next (.issue elem1_keeps h)
  | and | or | xor | andn => exact .next (.issue word2_keeps h)
  | not => exact .next (.issue word1_keeps h)
  | bfx => exact .next (.issue bfxBody_keeps h)
  | bfi => exact .next (.issue bfiBody_keeps h)
  | icmp => exact .next (.issue icmpBody_keeps h)
  | pand | por | pxor | pnot => exact .next (.issue predBody_keeps h)
  | lea => exact .next (.issue leaBody_keeps h)
  | fcmp => exact .next (.issue fcmpBody_keeps h)
  | cvt => exact .next (.issue cvtBody_keeps h)
  | qnt => exact .next (.issue qntBody_keeps h)
  | dqnt => exact .next (.issue dqntBody_keeps h)
  | sclf => exact .next (.issue sclfBody_keeps h)
  | fdot => exact .next (.issue fdotBody_keeps h)
  | rcp | rsq | sqrt | exp2 | log2 | sin | cos | tanh | sigm => exact .next (.issue sfuBody_keeps h)
  | l6add => exact .next (.issue l6addBody_keeps h)
  | shuf => exact .next (.issue shufBody_keeps h)
  | bcast => exact .next (.issue bcastBody_keeps h)
  | red => exact .next (.issue redBody_keeps h)
  | scan => exact .next (.issue scanBody_keeps h)
  | vote => exact .next (.issue voteBody_keeps h)
  | cmprs => exact .next (.issue cmprsBody_keeps h)
  | xpnd => exact .next (.issue xpndBody_keeps h)
  | lnkw => exact .next (.issue lnkwBody_keeps h)
  | lnkr => exact .next (.issue lnkrBody_keeps h)
  | gang => exact .next (.issue gangBody_keeps h)
  | sleep => exact .next (.issue sleepBody_keeps h)
  | twait => exact .next (.issue twaitBody_keeps h)
  | time => exact .next (.issue timeBody_keeps h)
  | ld => exact .next (.issue ldBody_keeps h)
  | st => exact .next (.issue stBody_keeps h)
  | ldx => exact .next (.issue ldxBody_keeps h)
  | stx => exact .next (.issue stxBody_keeps h)
  | stsb => exact .next (.issue stsbBody_keeps h)
  | pref => exact .next (.issue prefBody_keeps h)
  | wback => exact .next (.issue wbackBody_keeps h)
  | inval => exact .next (.issue invalBody_keeps h)
  | ldf => exact .next (.issue ldfBody_keeps h)
  | fbclr => exact .next (.issue fbclrBody_keeps h)
  | hbind => exact .next (.issue hbindBody_keeps h)
  | advp | advc => exact .next (.issue advBody_keeps h)
  | qbind => exact .next (.issue qbindBody_keeps h)
  | qdrop => exact .next (.issue qdropBody_keeps h)
  | atom => exact .next (.issue atomBody_keeps h)
  | cas => exact .next (.issue casBody_keeps h)
  | atred => exact .next (.issue atredBody_keeps h)
  | fence | acq | rel => exact .next (.issue fenceBody_keeps h)
  | bar => exact .next (.issue barBody_keeps h)
  | bara => exact .next (.issue baraBody_keeps h)
  | barw => exact .next (.issue barwBody_keeps h)
  | cwait => exact .next (.issue cwaitBody_keeps h)
  | cadd => exact .next (.issue caddBody_keeps h)
  | inbx => exact .next (.issue inbxBody_keeps h)
  | inbp => exact .next (.issue inbpBody_keeps h)
  | ticket => exact .next (.issue ticketBody_keeps h)
  | roleq => exact .next (.issue roleqBody_keeps h)
  | mma | mmas => exact .next (.issue mmaBody_keeps h)
  | mzero => exact .next (.issue mzeroBody_keeps h)
  | mfill => exact .next (.issue mfillBody_keeps h)
  | mdrain => exact .next (.issue mdrainBody_keeps h)
  | chbeg => exact .next (.issue chbegBody_keeps h)
  | cpy => exact .next (.issue cpyBody_keeps h)
  | cpyg => exact .next (.issue cpygBody_keeps h)
  | ncfg => exact .next (.issue ncfgBody_keeps h)
  | nint => exact .next (.issue nintBody_keeps h)
  | nleak => exact .next (.issue nleakBody_keeps h)
  | nfire => exact .next (.issue nfireBody_keeps h)
  | evsend => exact .next (.issue evsendBody_keeps h)
  | tqcfg => exact .next (.issue tqcfgBody_keeps h)
  | evrecv => exact .next (.issue evrecvBody_keeps h)
  | rsort => exact .next (.issue rsortBody_keeps h)
  | rsend => exact .next (.issue rsendBody_keeps h)
  | rrecv => exact .next (.issue rrecvBody_keeps h)
  | racc => exact .next (.issue raccBody_keeps h)
  | rmarg => exact .next (.issue rmargBody_keeps h)
  | rgrad => exact .next (.issue rgradBody_keeps h)
  | rwtab => exact .next (.issue rwtabBody_keeps h)
  | csrr => exact .next (.issue csrrBody_keeps h)
  | csrw => exact .next (.issue csrwBody_keeps h)
  | bra => exact execBra_keepsMem h
  | brx => exact execBrx_keepsMem h
  | bfetch => exact execBfetch_keepsMem h
  | loop => exact execLoop_keepsMem h
  | rep => exact execRep_keepsMem h
  | stop => exact execStop_keepsMem h
  | yield => exact execYield_keepsMem h
  | ctsig => exact execCtsig_keepsMem h
  | ctwait => exact execCtwait_keepsMem h
  | trap => exact execTrap_keepsMem h
  | brkp => exact execBrkp_keepsMem h
  | ungang => exact execUngang_keepsMem h
  | chend => exact .next (.issue (fun _ _ h => .ok (h.modCore fun _ hk => hk.closeChain)) h)
  | spfence => exact .next (.issue spfenceBody_keeps h)
  | _ => exact .next h

/-- Every instruction of a control thread, and its writes of registers. -/
theorem rerunCt_keepsMem (h : s.Canonical) : KeepsMem (rerunCt i s) := by
  cases i with
  | sow => exact execSow_keepsMem h
  | soww => exact execSoww_keepsMem h
  | mtstat => exact execMtstat_keepsMem h
  | mtstop => exact execMtstop_keepsMem h
  | mtrel => exact execMtrel_keepsMem h
  | cmdq => exact execCmdq_keepsMem h
  | cmdqnb => exact execCmdqnb_keepsMem h
  | ctinbx => exact execCtinbx_keepsMem h
  | ctcwait => exact execCtcwait_keepsMem h
  | cttick => exact execCttick_keepsMem h
  | actfire => exact execActfire_keepsMem h
  | bindld => exact execBindld_keepsMem h
  | incarn => exact execIncarn_keepsMem h
  | reclaim => exact execReclaim_keepsMem h
  | ctxidCtxWrite => exact execCtxidCtxWrite_keepsMem h
  | nbvWrite => exact execNbvWrite_keepsMem h
  | registerWrite => exact execRegisterWrite_keepsMem h
  | controlThreadRiscvInstruction => exact execControlThreadRiscvInstruction_keepsMem h
  | _ => exact .next h

theorem State.runBlocked_keepsMem (h : s.Canonical) : KeepsMem (s.runBlocked c m) := by
  unfold State.runBlocked
  dsimp only
  split
  · split
    · exact rerunMt_keepsMem (h.same (by rfl))
    · exact .next h
  · exact .next h

theorem State.rerun_keepsMem (h : s.Canonical) : KeepsMem (s.rerun c m) := by
  unfold State.rerun
  split
  · exact .next h
  · exact State.runBlocked_keepsMem h

theorem execSleepDeadline_keepsMem (h : s.Canonical) : KeepsMem (execSleepDeadline c m s) := by
  unfold execSleepDeadline
  split
  · split
    · exact State.rerun_keepsMem h
    · exact .next h
  · exact .next h

theorem execTwaitDeadline_keepsMem (h : s.Canonical) : KeepsMem (execTwaitDeadline c m s) := by
  unfold execTwaitDeadline
  split
  · split
    · exact State.rerun_keepsMem h
    · exact .next h
  · exact .next h

theorem execWaitingInstructionCompletes_keepsMem (h : s.Canonical) :
    KeepsMem (execWaitingInstructionCompletes c m s) := State.rerun_keepsMem h

theorem execCtStallCompletes_keepsMem (h : s.Canonical) : KeepsMem (execCtStallCompletes c s) := by
  unfold execCtStallCompletes
  split
  · split
    · exact rerunCt_keepsMem (h.same (by rfl))
    · exact .next h
  · exact .next h

/-- The instructions of agents mean what they mean when they are run again; the rest are events. -/
theorem exec_keepsMem (h : s.Canonical) : KeepsMem (exec i s) := by
  have hmt := rerunMt_keepsMem (i := i) h
  have hct := rerunCt_keepsMem (i := i) h
  cases i with
  | sow | soww | mtstat | mtstop | mtrel | cmdq | cmdqnb | ctinbx | ctcwait | cttick | actfire
  | bindld | incarn | reclaim | ctxidCtxWrite | nbvWrite | registerWrite
  | controlThreadRiscvInstruction => exact hct
  | waitingInstructionCompletes => exact execWaitingInstructionCompletes_keepsMem h
  | ctStallCompletes => exact execCtStallCompletes_keepsMem h
  | microthreadIdle => exact execMicrothreadIdle_keepsMem h
  | firingStart => exact execFiringStart_keepsMem h
  | footprintFill => exact execFootprintFill_keepsMem h
  | stageRebalance => exact execStageRebalance_keepsMem h
  | trapInterruptTaken => exact execTrapInterruptTaken_keepsMem h
  | mtresume => exact execMtresume_keepsMem h
  | matrixInstructionApplied => exact execMatrixInstructionApplied_keepsMem h
  | mdrainCompletion => exact execMdrainCompletion_keepsMem h
  | limiterStep => exact execLimiterStep_keepsMem h
  | copyElementComplete => exact execCopyElementComplete_keepsMem h
  | copyCompletion => exact execCopyCompletion_keepsMem h
  | eventUnitAction => exact execEventUnitAction_keepsMem h
  | rgradCompletion => exact execRgradCompletion_keepsMem h
  | tqArrival => exact execTqArrival_keepsMem h
  | rankMessageArrival => exact execRankMessageArrival_keepsMem h
  | reducePartialArrival => exact execReducePartialArrival_keepsMem h
  | barrierArrival => exact execBarrierArrival_keepsMem h
  | barrierRelease => exact execBarrierRelease_keepsMem h
  | sleepDeadline => exact execSleepDeadline_keepsMem h
  | twaitDeadline => exact execTwaitDeadline_keepsMem h
  | fabricMessageArrival => exact execFabricMessageArrival_keepsMem h
  | ackArrival => exact execAckArrival_keepsMem h
  | retry => exact execRetry_keepsMem h
  | retryResend => exact execRetryResend_keepsMem h
  | reject => exact execReject_keepsMem h
  | resendTimeout => exact execResendTimeout_keepsMem h
  | escapeTimeout => exact execEscapeTimeout_keepsMem h
  | pairedMessageArrival => exact execPairedMessageArrival_keepsMem h
  | twinTimeout => exact execTwinTimeout_keepsMem h
  | linkFlitCrcFail => exact execLinkFlitCrcFail_keepsMem h
  | trapRecordArrival => exact execTrapRecordArrival_keepsMem h
  | trrheadWrite => exact execTrrheadWrite_keepsMem h
  | lqdb => exact execLqdb_keepsMem h
  | launchQueueEntryRead => exact execLaunchQueueEntryRead_keepsMem h
  | childLaunchAdmit => exact execChildLaunchAdmit_keepsMem h
  | nodeNotification => exact execNodeNotification_keepsMem h
  | readyPriorityAging => exact execReadyPriorityAging_keepsMem h
  | distributorPlace => exact execDistributorPlace_keepsMem h
  | launchCoreStart => exact execLaunchCoreStart_keepsMem h
  | endOfPart => exact execEndOfPart_keepsMem h
  | nodeComplete => exact execNodeComplete_keepsMem h
  | terminationSweep => exact execTerminationSweep_keepsMem h
  | migreqGo => exact execMigreqGo_keepsMem h
  | migrationStream => exact execMigrationStream_keepsMem h
  | migrationSwitch => exact execMigrationSwitch_keepsMem h
  | paddockDefine => exact execPaddockDefine_keepsMem h
  | paddockKill => exact execPaddockKill_keepsMem h
  | killedLaunchDrained => exact execKilledLaunchDrained_keepsMem h
  | paddockUnfence => exact execPaddockUnfence_keepsMem h
  | uncorrectableError => exact execUncorrectableError_keepsMem h
  | correctedError => exact execCorrectedError_keepsMem h
  | undervoltStepUp => exact execUndervoltStepUp_keepsMem h
  | spareBind => exact execSpareBind_keepsMem h
  | lockstepMismatch => exact execLockstepMismatch_keepsMem h
  | cpResume => exact execCpResume_keepsMem h
  | incarnationSweep => exact execIncarnationSweep_keepsMem h
  | budgetTick => exact execBudgetTick_keepsMem h
  | hopEnd => exact execHopEnd_keepsMem h
  | dramRefresh => exact execDramRefresh_keepsMem h
  | dramRefreshEnd => exact execDramRefreshEnd_keepsMem h
  | coreGate => exact execCoreGate_keepsMem h
  | wakeRequest => exact execWakeRequest_keepsMem h
  | wakeComplete => exact execWakeComplete_keepsMem h
  | droopDetect => exact execDroopDetect_keepsMem h
  | droopEnd => exact execDroopEnd_keepsMem h
  | packageReset => exact execPackageReset_keepsMem h
  | attestationRequest => exact execAttestationRequest_keepsMem h
  | unassignedOpcode => exact execUnassignedOpcode_keepsMem h
  | rampDownEnd => exact execRampDownEnd_keepsMem h
  | gatingEntryEnd => exact execGatingEntryEnd_keepsMem h
  | trrbaseWrite => exact execTrrbaseWrite_keepsMem h
  | inboundDma => exact execInboundDma_keepsMem h
  | applicationCoreAccess => exact execApplicationCoreAccess_keepsMem h
  | uvctlLockClear => exact execUvctlLockClear_keepsMem h
  | _ => exact hmt

end

/-! ### Turns -/

/-- The state of a turn's fetch is canonical. -/
inductive Fetched.Canonical : Fetched → Prop
  | run {i : Instr} {t : State} (h : t.Canonical) : Fetched.Canonical (.run i t)
  | done {t : State} (h : t.Canonical) : Fetched.Canonical (.done t)

section
variable {s : State} {c m : Nat}

theorem State.ctFetchAt_canonical (h : s.Canonical) : (s.ctFetchAt c).Canonical := by
  unfold State.ctFetchAt
  extract_lets s1
  have h1 : s1.Canonical := by
    unfold s1
    split
    · exact h.setGate
    · exact h
  clear_value s1
  split
  · exact .run (h1.same (by rfl))
  · exact .done h1.ctTrap
  · exact .done h1.consumePoison
  · exact .done h1

theorem State.ctFetch_canonical (h : s.Canonical) : (s.ctFetch c).Canonical := by
  unfold State.ctFetch
  dsimp only
  split
  · exact .done h
  · split
    · exact .done h.takeIrq
    · split
      · split
        · exact .done h
        · exact State.ctFetchAt_canonical h.modHart
      · split
        · exact .done h
        · split
          · split
            · exact .done h
            · exact .done h.modHart
          · exact State.ctFetchAt_canonical h

theorem State.mtDecode_canonical {w} (h : s.Canonical) : (s.mtDecode c m w).Canonical := by
  unfold State.mtDecode
  extract_lets s1
  have h1 : s1.Canonical := h.same (by rfl)
  split
  · exact .run h1
  · exact .done h1.issueTrap

theorem State.mtFromMemory_canonical {pc} (h : s.Canonical) :
    (s.mtFromMemory c m pc).Canonical := by
  unfold State.mtFromMemory
  extract_lets s1
  have h1 : s1.Canonical := h.same (by rfl)
  split
  · exact .done h1.issueTrap
  · split
    · exact .done h1.consumePoison
    · exact State.mtDecode_canonical h1

theorem State.mtFetchAt_canonical (h : s.Canonical) : (s.mtFetchAt c m).Canonical := by
  unfold State.mtFetchAt
  dsimp only
  split
  · split
    · exact State.mtDecode_canonical h
    · split
      · exact .done h.stopAll
      · exact State.mtFromMemory_canonical h.modMt
  · exact State.mtFromMemory_canonical h

theorem State.mtFetch_canonical (h : s.Canonical) : (s.mtFetch c m).Canonical := by
  unfold State.mtFetch
  split
  · exact .done h.idleTurn
  · split
    · refine .done (.issueTrap ?_)
      exact h.same (by rfl)
    · exact State.mtFetchAt_canonical h

theorem KeepsMem.fault {e : Fault} : KeepsMem (.fault e) := fun _ e => by cases e

theorem afterExec_keepsMem {o : Out} (h : KeepsMem o) : KeepsMem (afterExec o) := by
  cases o with
  | next t => exact .next (h t rfl).tick
  | _ => exact h

theorem runFetched_keepsMem {f : Fetched} (h : f.Canonical) : KeepsMem (runFetched f) := by
  cases h with
  | run h => exact afterExec_keepsMem (exec_keepsMem h)
  | done h => exact .next h.tick

theorem step_keepsMem (h : s.Canonical) : KeepsMem (step s) := by
  have hb := h.begun
  unfold step State.takeTurn
  split
  · split
    · exact runFetched_keepsMem (State.ctFetch_canonical hb)
    · exact .fault
  · split
    · exact runFetched_keepsMem (State.mtFetch_canonical hb)
    · exact .fault
  · split
    · exact .fault
    · exact afterExec_keepsMem (exec_keepsMem hb)

/-- Settles O60: the canonical form, as a record, is kept by every function that answers a state,
  and so
by every instruction, every event and the turn around them. -/
theorem memoriesStayCanonical : Obligations.MemoriesStayCanonical := fun s t hs e =>
  t.canonical_iff.mp (step_keepsMem (s.canonical_iff.mpr hs) t e)

end

end Sys2Proof.Machine
end

section
/-! SUPPORT. The load and store instructions (R205 to R207, R214). -/

namespace Sys2Proof.Machine

/-! ### What an instruction that acts comes to -/

section
variable {s t k : State} {i : Instr} {op : Nat} {f : Ny} {vec : Bool} {body : Who → State → Res}
  (he : exec i s = .next (s.issue i op f vec body)) (h : s.Acts i f vec) (hi : i.ny? = some (op, f))
include he h hi

theorem exec_commits (hb : body (s.me f) s = .ok t) : exec i s = .next (s.onward t f) :=
  he.trans (congrArg _ (State.issue_commit h hi hb))

theorem exec_waits (hb : body (s.me f) s = .error (.wait none)) :
    exec i s = .next (s.blockedOn s i) :=
  he.trans (congrArg _ (State.issue_wait h hi hb))

theorem exec_waits_with (hb : body (s.me f) s = .error (.wait (some k))) :
    exec i s = .next (s.blockedOn k i) :=
  he.trans (congrArg _ (State.issue_wait_some h hi hb))

theorem exec_stalls (hb : body (s.me f) s = .error (.stall none)) : exec i s = .next s.notYet :=
  he.trans (congrArg _ (State.issue_stall h hi hb))

theorem exec_stalls_with (hb : body (s.me f) s = .error (.stall (some k))) :
    exec i s = .next ((k.leaveAll s.leader).noIssue s.curCore s.curMt) := by
  refine he.trans (congrArg _ ?_)
  simp only [State.issue, State.issueTo_acts h hi, hb, State.outcome]

theorem exec_traps {e : Exn} (hb : body (s.me f) s = .error (.trap e)) :
    exec i s = .next (s.trapped op f e) :=
  he.trans (congrArg _ (State.issue_trap h hi hb))

end

/-! ### Loads and stores whose checks pass (R205, R206, R214) -/

section
variable {s s1 s2 s3 : State} {w : Who} {f : Ny} {as : List Access}

theorem State.loadAll_ok (hp : s1.poisonOf as = .ok ())
    (hr : s1.registerAll w f.spc 4 false false as = .ok s2)
    (hm : ∀ a ∈ as, s2.rmwAhead w.core a.loc 4 = false) (hc : s2.passChannels as = .ok s3) :
    s1.loadAll w f as = .ok ((s3.loadWords w f.spc as).1.writeDst w f.a fun l =>
      laneOf (s3.loadWords w f.spc as).2 l) := by
  have hn : (as.any fun a => s2.rmwAhead w.core a.loc 4) = false := by simpa using hm
  simp only [State.loadAll, hp, hr, hn, hc, Bool.false_eq_true, ↓reduceIte]
  rfl

theorem State.storeAll_ok (hr : s1.registerAll w f.spc 4 true false as = .ok s2)
    (hc : s2.passChannels as = .ok s3) (hd : s3.doorbellCheck w as = .ok ()) :
    s1.storeAll w f as = .ok ((s3.doorbell w as).storeWords w f.spc
      (as.map fun a => (a.loc, s3.oldDst w f.a a.lane))) := by
  simp only [State.storeAll, hr, hc, hd]
  rfl

theorem ldBody_loads (ha : s.ldAccess w f .read f.b f.c f.vec = .ok as)
    (hw : s.handleWait w f.b f.spc = .ok s1) : ldBody f w s = s1.loadAll w f as := by
  simp only [ldBody, ha, hw]

theorem stBody_stores (ha : s.ldAccess w f .write f.b f.c f.vec = .ok as)
    (hw : s.handleWait w f.b f.spc = .ok s1) : stBody f w s = s1.storeAll w f as := by
  simp only [stBody, ha, hw]

theorem ldxBody_loads (ha : s.checkAddrs w.core f.spc .read (s.ldxAddrs w f w.lanes) = .ok as) :
    ldxBody f w s = s.loadAll w f as := by
  simp only [ldxBody, ha]

theorem stxBody_stores (ha : s.checkAddrs w.core f.spc .write (s.ldxAddrs w f w.lanes) = .ok as) :
    stxBody f w s = s.storeAll w f as := by
  simp only [stxBody, ha]

end

theorem says_loadsAndStores : Says.LoadsAndStores := by
  intro f s s1 s2 s3 as w loaded stored loads stores
  have hload : loads → s1.loadAll w f as = .ok loaded := fun ⟨hp, hr, hm, hc⟩ =>
    State.loadAll_ok hp hr hm hc
  have hstore : stores → s1.storeAll w f as = .ok stored := fun ⟨hr, hc, hd⟩ =>
    State.storeAll_ok hr hc hd
  refine ⟨?ld, ?st, ?ldx, ?stx⟩
  case ld =>
    intro h ha hw hl
    exact exec_commits rfl h rfl ((ldBody_loads ha hw).trans (hload hl))
  case st =>
    intro h ha hw hs
    exact exec_commits rfl h rfl ((stBody_stores ha hw).trans (hstore hs))
  case ldx =>
    rintro h rfl ha hl
    exact exec_commits rfl h rfl ((ldxBody_loads ha).trans (hload hl))
  case stx =>
    rintro h rfl ha hs
    exact exec_commits rfl h rfl ((stxBody_stores ha).trans (hstore hs))

theorem stsbBody_sends {s s1 : State} {w : Who} {f : Ny} {ns : List Nibble}
    (hv : (f.virt && !canonical (s.basePair w f.b)) = false)
    (hn : s.nibbles w.core f.spc ((accLanes f.vec w).map fun l =>
      (l, 2 * (if f.virt then ((s.basePair w f.b).toNat : Int) else (s.scalar w f.b).toNat) +
        (s.scalar w f.c).toInt + l)) = .ok ns)
    (hr : s.registerAll w f.spc 1 true true (ns.map fun n => ⟨n.lane, n.va, n.loc⟩) = .ok s1)
    (hd : s1.doorbellCheck w (ns.map fun n => ⟨n.lane, n.va, n.loc⟩) = .ok ()) :
    stsbBody f w s = .ok (ns.foldl (fun t n =>
      t.sendNibble w n.loc n.high ((s1.srcLane w f.ty false f.a n.lane).setWidth 4))
      (s1.doorbell w (ns.map fun n => ⟨n.lane, n.va, n.loc⟩))) := by
  simp only [stsbBody, hv, hn, hr, hd, Bool.false_eq_true, ↓reduceIte]
  rfl

theorem says_nibbleStores : Says.NibbleStores := by
  intro f s s1 ns h w b hv hn as hr hd
  exact exec_commits rfl h rfl (stsbBody_sends hv hn hr hd)

/-- Settles O14: each instruction's part, once its checks pass, is the move of its words. -/
theorem loadsAndStores : Obligations.LoadsAndStores := ⟨says_loadsAndStores, says_nibbleStores⟩

end Sys2Proof.Machine
end

section
/-! SUPPORT. The full bits, the fences and the barriers (R70, R71, R209, R210, R222 to R224). -/

namespace Sys2Proof.Machine

/-! ### The full bits (R70, R71, R209, R210) -/

section
variable {s : State} {w : Who} {f : Ny} {ws : FullSet}

theorem ldfBody_waits (hw : s.fullWords w f.b f.c (accLanes f.vec w) = .ok ws)
    (hf : (s.home w).isFull ws = false) : ldfBody f w s = .error (.wait none) := by
  simp only [ldfBody, hw, hf, Bool.false_eq_true, ↓reduceIte]

theorem ldfBody_reads (hw : s.fullWords w f.b f.c (accLanes f.vec w) = .ok ws)
    (hf : (s.home w).isFull ws = true)
    (hp : (s.settle w.core w.mt).poisonOf (ws.accesses w.core) = .ok ()) :
    ldfBody f w s =
      let t := s.settle w.core w.mt
      let u := (t.modHome w (·.clearFull ws)).closeRegion w.agent
      .ok ((if (t.home w).fromAfar ws then u.acquireDom w.core else u).writeDst w f.a fun l =>
        laneOf ((ws.accesses w.core).map fun a => (a.lane, t.readW a.loc)) l) := by
  simp only [ldfBody, hw, hf, hp, ↓reduceIte]

/-- The words of a mailbox operand come from a ROLE only. -/
theorem State.role_of_fullWords_mailbox {base off : Operand} {ls : List Nat} {ns : List (Nat × Nat)}
    (h : s.fullWords w base off ls = .ok (.mailbox ns)) :
    ∃ r o, base = .role r o ∧ ns = ls.map fun l => (l, o.toNat + l) := by
  cases base
  case role r o =>
    refine ⟨r, o, rfl, ?_⟩
    simp only [State.fullWords] at h
    split at h
    · cases h
    · split at h
      · cases h
      · split at h
        · cases h; rfl
        · cases h
  all_goals
    simp only [State.fullWords] at h
    split at h
    · cases h
    · split at h <;> cases h

theorem State.fullWords_role_not_window {r : BitVec 8} {o : BitVec 11} {off : Operand}
    {ls : List Nat} {ns : List (Nat × Nat)} :
    s.fullWords w (.role r o) off ls ≠ .ok (.window ns) := by
  intro h
  simp only [State.fullWords] at h
  split at h
  · cases h
  · split at h
    · cases h
    · split at h <;> cases h

theorem fbclrBody_mailbox {x n : Nat} (hw : s.fullWords w f.a f.b [0] = .ok (.mailbox [(0, x)]))
    (hn : (s.scalar w f.c).toNat = n) (h1 : 1 ≤ n) (h2 : x + n ≤ 2048) :
    fbclrBody f w s = .ok (s.modHome w (·.clearFull
      (.mailbox ((List.range n).map fun i => (i, x + i))))) := by
  obtain ⟨r, o, ha, hx⟩ := State.role_of_fullWords_mailbox hw
  have hx : x = o.toNat := by simpa using hx
  subst hx
  have hr : runOk o.toNat n true = true := by
    simp only [runOk, ↓reduceIte, Bool.and_eq_true, decide_eq_true_eq]
    omega
  rw [ha] at hw
  simp only [fbclrBody, ha, hn, hr, hw, Bool.not_true, Bool.false_eq_true, ↓reduceIte]

theorem fbclrBody_window {x n : Nat} (hw : s.fullWords w f.a f.b [0] = .ok (.window [(0, x)]))
    (hn : (s.scalar w f.c).toNat = n) (hr : runOk x n false = true) :
    fbclrBody f w s = .ok (s.modHome w (·.clearFull
      (.window ((List.range n).map fun i => (i, x + i))))) := by
  unfold fbclrBody
  simp only [hn]
  split
  next ha =>
    rw [ha] at hw
    exact absurd hw State.fullWords_role_not_window
  · simp only [hw, List.headD_cons, hr, ↓reduceIte]

/-- A run of window words within one region of 2,048 words. -/
theorem runOk_window {x n : Nat} (h1 : 1 ≤ n) (h2 : n ≤ 2048) (hx : x < 6144)
    (h : (x + n - 1) / 2048 = x / 2048) : runOk x n false = true := by
  have h3 : x + n ≤ 6144 := by omega
  simp [runOk, h1, h2, h3, h]

end

/-- Settles O16: an operand of the mailbox can only be a ROLE, one of the window none; past that
each case is the instruction's part. -/
theorem fullBits : Obligations.FullBits := by
  intro f s ws
  refine ⟨?ldf, ?mailbox, ?window⟩
  case ldf =>
    intro h hw
    exact ⟨fun hf => exec_waits rfl h rfl (ldfBody_waits hw hf),
      fun hf hp => exec_commits rfl h rfl (ldfBody_reads hw hf hp)⟩
  case mailbox =>
    intro x n h hw hn h1 h2
    exact exec_commits rfl h rfl (fbclrBody_mailbox hw hn h1 h2)
  case window =>
    intro x n h hw hn h1 h2 hx hd
    exact exec_commits rfl h rfl (fbclrBody_window hw hn (runOk_window h1 h2 hx hd))

/-! ### Fences and barriers (R222 to R224) -/

section
variable {s s1 : State} {w : Who} {f : Ny}

theorem State.acquireAt_eq (s : State) (c n : Nat) : s.acquireAt c n =
    if n = 4 then { s with remoteLines := s.remoteLines.filter fun r => r.core != c || r.rro }
    else s := rfl

theorem fenceBody_held {rel acq : Bool}
    (h : ((if rel then f.md.toNat else 0) == 4 && s.unackedRemote w.agent) = true) :
    fenceBody f rel acq w s = .error (.stall none) := by
  simp only [Bool.and_eq_true, beq_iff_eq] at h
  simp only [fenceBody, State.releaseCheck, h, and_self, ↓reduceIte]
  rfl

theorem fenceBody_free {rel acq : Bool}
    (h : ((if rel then f.md.toNat else 0) == 4 && s.unackedRemote w.agent) = false) :
    fenceBody f rel acq w s =
      .ok ((s.closeRegion w.agent).acquireAt w.core (if acq then f.md.toNat else 0)) := by
  have hn : ¬((if rel then f.md.toNat else 0) = 4 ∧ s.unackedRemote w.agent = true) := by
    rintro ⟨h1, h2⟩
    simp [h1, h2] at h
  simp only [fenceBody, State.releaseCheck, if_neg hn]
  rfl

theorem barBody_arrives {ph : Nat} (hn : (s.self w).arrived = none)
    (ha : s.arrive w f.md.toNat (barId f) (s.scalar w f.b) = .ok (s1, ph)) :
    barBody f w s = .error (.wait (some (s1.modSelf w fun t =>
      { t with arrived := some (s.barKey w.core f.md.toNat (barId f), ph) }))) := by
  simp only [barBody, hn, ha]

theorem barBody_goes {ph : Nat} {key : BarKey} (hn : (s.self w).arrived = some (key, ph))
    (hd : s.departed key ph = true) :
    barBody f w s =
      .ok ((s.modSelf w fun t => { t with arrived := none }).acquireAt w.core f.md.toNat) := by
  simp only [barBody, hn, hd, ↓reduceIte]

theorem barBody_waits {ph : Nat} {key : BarKey} (hn : (s.self w).arrived = some (key, ph))
    (hd : s.departed key ph = false) : barBody f w s = .error (.wait none) := by
  simp only [barBody, hn, hd, Bool.false_eq_true, ↓reduceIte]

theorem baraBody_arrives {ph : Nat}
    (ha : s.arrive w f.md.toNat (barId f) (s.scalar w f.b) = .ok (s1, ph)) :
    baraBody f w s = .ok (s1.modSelf w fun t => { t with
      bph := t.bph.upd (bphIdx f) (s1.barKey w.core f.md.toNat (barId f), ph) }) := by
  simp only [baraBody, ha]

theorem baraBody_fails {e : Stop}
    (ha : s.arrive w f.md.toNat (barId f) (s.scalar w f.b) = .error e) :
    baraBody f w s = .error e := by
  simp only [baraBody, ha]

theorem barwBody_none (hn : (s.self w).bph.get? (bphIdx f) = none) :
    barwBody f w s = .ok (s.closeRegion w.agent) := by
  simp only [barwBody, hn]

theorem barwBody_goes {ph : Nat} {key : BarKey}
    (hn : (s.self w).bph.get? (bphIdx f) = some (key, ph)) (hd : s.departed key ph = true) :
    barwBody f w s = .ok (((s.modSelf w fun t => { t with bph := t.bph.del (bphIdx f) }).closeRegion
      w.agent).acquireAt w.core f.md.toNat) := by
  simp only [barwBody, hn, hd, ↓reduceIte]

theorem barwBody_waits {ph : Nat} {key : BarKey}
    (hn : (s.self w).bph.get? (bphIdx f) = some (key, ph)) (hd : s.departed key ph = false) :
    barwBody f w s = .error (.wait none) := by
  simp only [barwBody, hn, hd, Bool.false_eq_true, ↓reduceIte]

end

theorem says_fences : Says.Fences := by
  intro f s u v held
  have hu : s.closeRegion (s.me f).agent = u := rfl
  clear_value u
  have hv : u.acquireAt s.curCore f.md.toNat = v := State.acquireAt_eq ..
  clear_value v
  have hd (acq : Bool) (hh : held = true) :
      fenceBody f true acq (s.me f) s = .error (.stall none) :=
    fenceBody_held hh
  have hf (hh : held = false) : fenceBody f true true (s.me f) s = .ok v :=
    (fenceBody_free (rel := true) hh).trans (congrArg _ (hu ▸ hv))
  have hr (hh : held = false) : fenceBody f true false (s.me f) s = .ok u :=
    (fenceBody_free (rel := true) hh).trans (congrArg _ hu)
  have ha : fenceBody f false true (s.me f) s = .ok v :=
    (fenceBody_free (rel := false) rfl).trans (congrArg _ (hu ▸ hv))
  refine ⟨?acq, ?fence, ?rel⟩
  case acq =>
    intro h
    exact exec_commits rfl h rfl ha
  case fence =>
    intro h
    split
    next hh => exact exec_stalls rfl h rfl (hd true hh)
    next hh => exact exec_commits rfl h rfl (hf (Bool.eq_false_of_not_eq_true hh))
  case rel =>
    intro h
    split
    next hh => exact exec_stalls rfl h rfl (hd false hh)
    next hh => exact exec_commits rfl h rfl (hr (Bool.eq_false_of_not_eq_true hh))

theorem says_barriers : Says.Barriers := by
  intro f s s1 ph key w arrives acquired
  refine ⟨?arrive, ?depart, ?bara, ?none, ?barw⟩
  case arrive =>
    intro h hn ha
    exact exec_waits_with rfl h rfl (barBody_arrives hn ha)
  case depart =>
    intro h hn
    split
    next hd => exact exec_commits rfl h rfl (barBody_goes hn hd)
    next hd => exact exec_waits rfl h rfl (barBody_waits hn (Bool.eq_false_of_not_eq_true hd))
  case bara =>
    intro h ha
    exact exec_commits rfl h rfl (baraBody_arrives ha)
  case none =>
    intro h hn
    exact exec_commits rfl h rfl (barwBody_none hn)
  case barw =>
    intro h hn
    split
    next hd => exact exec_commits rfl h rfl (barwBody_goes hn hd)
    next hd => exact exec_waits rfl h rfl (barwBody_waits hn (Bool.eq_false_of_not_eq_true hd))

/-! ### What the end of a region leaves of a core's record (R83, log 34) -/

/-- The part of a core's record that the end of a region leaves as it is: all but its memories and
full bits, its scratchpad accesses on their way, its micro-threads and its control thread. -/
def Core.steady (k : Core) : Core :=
  { k with
    scratch := [], lane := [], mbox := [], winFull := [], mboxFull := [], lateStores := []
    earlyLoads := [], mts := [], ct := Hart.init }

/-- Two states have the same barrier arrivals on their way, and cores whose steady parts agree. -/
def State.Steady (s t : State) : Prop :=
  t.barPending = s.barPending ∧ ∀ c, (t.core c).steady = (s.core c).steady

namespace State.Steady
variable {s t u : State}

theorem refl (s : State) : s.Steady s := ⟨rfl, fun _ => rfl⟩

theorem trans (h : s.Steady t) (k : t.Steady u) : s.Steady u :=
  ⟨k.1.trans h.1, fun c => (k.2 c).trans (h.2 c)⟩

theorem modCore (s : State) (d : Nat) {f : Core → Core} (hf : ∀ k, (f k).steady = k.steady) :
    s.Steady (s.modCore d f) := by
  refine ⟨rfl, fun c => ?_⟩
  by_cases h : c = d
  · subst h
    rw [State.core_modCore, hf]
  · rw [State.core_modCore_ne _ _ _ _ h]

theorem modMt (s : State) (c m : Nat) (g : Mt → Mt) : s.Steady (s.modMt c m g) :=
  modCore s c fun _ => rfl

theorem modHart (s : State) (c : Nat) (g : Hart → Hart) : s.Steady (s.modHart c g) :=
  modCore s c fun _ => rfl

theorem landStore (s : State) (x : LateStore) : s.Steady (s.landStore x) := by
  have hw : s.Steady (s.writeW (.scratch x.pad x.off) x.data) :=
    (modCore s x.pad (f := fun k => { k with
      scratch := Memory.write k.scratch x.off (leBytes 4 x.data.toNat) }) fun _ => rfl).trans
      ⟨rfl, fun _ => rfl⟩
  unfold State.landStore
  split
  · exact hw.trans (modCore _ _ fun _ => rfl)
  · exact hw

theorem landAll (s : State) (c : Nat) (p : LateStore → Bool) : s.Steady (s.landAll c p) := by
  unfold State.landAll
  extract_lets xs
  split
  · have hf (xs : List LateStore) (t : State) : t.Steady (xs.foldl State.landStore t) := by
      induction xs generalizing t with
      | nil => exact refl t
      | cons x xs ih => exact (landStore t x).trans (ih _)
    exact (modCore s c (by intro; rfl)).trans (hf _ _)
  · exact refl s

theorem dropEarly (s : State) (c : Nat) (p : EarlyLoad → Bool) : s.Steady (s.dropEarly c p) := by
  unfold State.dropEarly
  split
  · exact modCore s c fun _ => rfl
  · exact refl s

theorem settleAgent (s : State) (a : Word) : s.Steady (s.settleAgent a) := by
  unfold State.settleAgent
  split
  · exact (landAll s ..).trans (dropEarly ..)
  · exact refl s

theorem stepRegion (s : State) (a : Word) : s.Steady (s.stepRegion a) := by
  unfold State.stepRegion
  extract_lets c m
  split
  · exact modMt ..
  · exact modHart ..
  · exact refl s

theorem closeRegion (s : State) (a : Word) : s.Steady (s.closeRegion a) :=
  ((settleAgent s a).trans (stepRegion _ a)).trans ⟨rfl, fun _ => rfl⟩

theorem setBarrier (s : State) (b : Barrier) : s.Steady (s.setBarrier b) := ⟨rfl, fun _ => rfl⟩

theorem launch (h : s.Steady t) (c : Nat) : (t.core c).launch = (s.core c).launch :=
  (congrArg Core.launch (h.2 c) : _)

end State.Steady

/-! ### Arrivals at barriers of a core or a tile (R223) -/

section
variable {s t : State}

/-- The key of a barrier below die scope depends on the launch of its core only. -/
theorem State.barKey_congr {c scope id : Nat} (hs : scope < 2)
    (h : (t.core c).launch = (s.core c).launch) : t.barKey c scope id = s.barKey c scope id := by
  simp only [State.barKey, h]
  match scope, hs with
  | 0, _ => rfl
  | 1, _ => rfl

@[simp] theorem State.key_barrier (s : State) (k : BarKey) : (s.barrier k).key = k := by
  unfold State.barrier
  cases h : s.barriers.find? (·.key == k) with
  | none => rfl
  | some b => simpa using List.find?_some h

theorem State.underway_nil (h : s.barPending = []) (k : BarKey) (ph : Nat) :
    s.underway k ph = [] := by
  simp [State.underway, h]

@[simp] theorem State.phaseK_own (s : State) (b : Barrier) : s.phaseK b b.phase = b.k := by
  simp [State.phaseK]

/-- With no arrival on its way the phase of a barrier that is not full is the open one. -/
theorem State.openPhase_own {b : Barrier} (h : s.barPending = [])
    (hk : ∀ k, b.k = some k → b.count < k) (n : Nat) : s.openPhase b (n + 1) b.phase = b.phase := by
  cases hb : b.k with
  | none => simp [State.openPhase, hb]
  | some k =>
    have := hk k hb
    simp [State.openPhase, hb, s.underway_nil h]
    omega

theorem State.countArrival_narrow {b : Barrier} {k : Nat} (h : s.barPending = [])
    (hs : b.key.scope < 2) :
    s.countArrival b k = s.setBarrier (if b.count + 1 < k
      then { b with count := b.count + 1, k := some k }
      else { b with phase := b.phase + 1, count := 0, k := none }) := by
  unfold State.countArrival
  split
  · rfl
  · simp only [s.underway_nil h, List.head?_nil, Option.map_none]

variable {w : Who} {scope id : Nat} {k : Word}

theorem State.arrive_illegal (h : k.toNat < 1 ∨ 65535 < k.toNat) :
    s.arrive w scope id k = .error (outOfRange k) := by
  simp only [State.arrive, h, ↓reduceIte]

theorem State.arrive_mismatch (hs : scope < 2) (hp : s.barPending = []) (h1 : 1 ≤ k.toNat)
    (h2 : k.toNat ≤ 65535) {k' : Nat} (hk : (s.barrier (s.barKey w.core scope id)).k = some k')
    (hc : (s.barrier (s.barKey w.core scope id)).count < k') (hne : k' ≠ k.toNat) :
    s.arrive w scope id k = .error (exnVal 12 1 (BitVec.ofNat 32 id)) := by
  have hn : ¬(k.toNat < 1 ∨ 65535 < k.toNat) := by omega
  have ho := s.openPhase_own hp (b := s.barrier (s.barKey w.core scope id))
    (by rw [hk]; rintro _ ⟨⟩; exact hc) 0
  have hb : (k' != k.toNat) = true := by simpa using hne
  simp only [State.arrive, hn, hs, hp, List.length_nil, ho, State.phaseK_own, hk, hb, ↓reduceIte]

theorem State.arrive_counts (hs : scope < 2) (hp : s.barPending = []) (h1 : 1 ≤ k.toNat)
    (h2 : k.toNat ≤ 65535) {b : Barrier} (hb : s.barrier (s.barKey w.core scope id) = b)
    (hk : b.k = none ∨ b.k = some k.toNat ∧ b.count < k.toNat) :
    s.arrive w scope id k = .ok ((s.closeRegion w.agent).setBarrier (if b.count + 1 < k.toNat
      then { b with count := b.count + 1, k := some k.toNat }
      else { b with phase := b.phase + 1, count := 0, k := none }), b.phase) := by
  have hn : ¬(k.toNat < 1 ∨ 65535 < k.toNat) := by omega
  have hkey : b.key.scope < 2 := by
    rw [← hb, State.key_barrier]
    exact hs
  have ho := s.openPhase_own hp (b := b) (by rintro k' h; grind) 0
  have hc := State.countArrival_narrow (k := k.toNat)
    ((State.Steady.closeRegion s w.agent).1.trans hp) hkey
  rcases hk with hk | ⟨hk, -⟩ <;>
    simp only [State.arrive, hn, hs, hp, hb, hc, List.length_nil, ho, State.phaseK_own, hk,
      bne_self_eq_false, Bool.false_eq_true, ↓reduceIte]

end

theorem says_barrierArrivals : Says.BarrierArrivals := by
  intro f s k h hs hf hk w key b hp
  have hn : (s.scalar w f.b).toNat = k := by
    rw [hf, BitVec.toNat_ofNat, Nat.mod_eq_of_lt hk]
  refine ⟨?illegal, ?mismatch, ?counts⟩
  case illegal =>
    intro hr
    refine exec_traps rfl h rfl (baraBody_fails ((State.arrive_illegal (by rwa [hn])).trans ?_))
    rw [hf]
    rfl
  case mismatch =>
    intro h1 h2 k' hb hc hne
    exact exec_traps rfl h rfl (baraBody_fails (State.arrive_mismatch hs hp (by rwa [hn])
      (by rwa [hn]) hb hc (by rwa [hn])))
  case counts =>
    intro h1 h2 hb
    have ha := State.arrive_counts (w := w) (id := barId f) (b := b) hs hp (k := s.scalar w f.b)
      (by rwa [hn]) (by rwa [hn]) rfl (by rwa [hn])
    rw [hn] at ha
    have hkey : s.barKey w.core f.md.toNat (barId f) = key := rfl
    have := baraBody_arrives ha
    rw [State.barKey_congr hs
      (((State.Steady.closeRegion s w.agent).trans (.setBarrier _ _)).launch w.core), hkey] at this
    exact exec_commits rfl h rfl this

/-- Settles O21: an arrival at a barrier below die scope finds its phase open, since none is on its
way and the phase is not full. -/
theorem fencesAndBarriers : Obligations.FencesAndBarriers :=
  ⟨says_fences, says_barriers, says_barrierArrivals⟩

end Sys2Proof.Machine
end

section
/-! SUPPORT. Counters, the inbox and atomics (R219 to R221, R225 to R228). -/

namespace Sys2Proof.Machine

/-! ### Counters (R225, R226) -/

section
variable {s s1 s2 : State} {w : Who} {f : Ny} {q : Access}

/-- What CWAIT waits for: its operands B and C as a 62-bit number. -/
def State.cwaitTarget (s : State) (w : Who) (f : Ny) : Nat :=
  (s.scalar w f.b).toNat +
    (if f.c = Operand.zero then 0 else (s.scalar w f.c).toNat % 2 ^ 30) * 2 ^ 32

section
variable (hq : s.counterPlace w f .read = .ok q) (hp : s.counterPoison q = .ok ())
  (hr : s.registerAll w f.spc 8 false false [q] = .ok s1) (hc : s1.passChannels [q] = .ok s2)
include hq hp hr hc

theorem cwaitBody_goes (h : s1.cwaitTarget w f ≤
      leNat ((s2.padOrderAll w f.spc [q]).bytesAt q.loc 8) % 2 ^ 62) :
    cwaitBody f w s = .ok (((s2.padOrderAll w f.spc [q]).closeRegion w.agent).acquireCounter
      w.core q.loc) := by
  unfold State.cwaitTarget at h
  simp only [cwaitBody, hq, hp, hr, hc, h, ↓reduceIte]

theorem cwaitBody_waits (h : ¬s1.cwaitTarget w f ≤
      leNat ((s2.padOrderAll w f.spc [q]).bytesAt q.loc 8) % 2 ^ 62) :
    cwaitBody f w s = .error (.wait none) := by
  unfold State.cwaitTarget at h
  simp only [cwaitBody, hq, hp, hr, hc, h, ↓reduceIte]

end

theorem caddBody_counts (hq : s.counterPlace w f .write = .ok q) (hp : s.counterPoison q = .ok ())
    (hr : s.registerAll w f.spc 8 true true [q] = .ok s1) (hc : s1.passChannels [q] = .ok s2)
    (hd : s2.doorbellCheck w [q] = .ok ()) :
    caddBody f w s =
      let u := (s2.doorbell w [q]).padOrderAll w f.spc [q]
      .ok (u.countAt w.agent (u.regionNo w.agent) w.core q.loc (s1.scalar w f.b).toNat
        (decide (immInt f.c = 1))) := by
  simp only [caddBody, hq, hp, hr, hc, hd]
  rfl

theorem State.countAt_unfenced {agent : Word} {rsn : BitVec 16} {c inc n : Nat} {l : Loc}
    {err : Bool} :
    s.fencedPlace c l = false → counterNext (leNat (s.bytesAt l 8)) inc err = n →
    s.countAt agent rsn c l inc err = match (s.core c).pair, l.station with
      | some _, some (kd, a, ep) => s.sendFor agent rsn c ep 0 0 (.rmw kd a 8 (.counter inc err))
      | _, _ => match l with
        | .device pa => s.devWrite pa 8 (BitVec.ofNat 64 n)
        | .pcie _ => s
        | l => s.writeBy c l (leBytes 8 n) := by
  rintro h rfl
  simp only [State.countAt, h, Bool.false_eq_true, ↓reduceIte]
  cases l <;> rfl

/-! ### The inbox (R227, R228) -/

theorem inbxBody_empty (h : (s.home w).takeRec (s.inbxTag w f) = none) :
    inbxBody f w s = .error (.wait none) := by
  simp only [inbxBody, h]

section
variable {r : InboxRec} {k : Core} (h : (s.home w).takeRec (s.inbxTag w f) = some (r, k))
include h

theorem inbxBody_later
    (hl : ((s.home w).ctinbxRec == some r || s.lowerWaits w (s.takesRec w.core r)) = true) :
    inbxBody f w s = .error (.wait none) := by
  simp only [inbxBody, h, hl, ↓reduceIte]

theorem inbxBody_takes
    (hl : ((s.home w).ctinbxRec == some r || s.lowerWaits w (s.takesRec w.core r)) = false) :
    inbxBody f w s = .ok ((((s.setCore w.core k).closeRegion w.agent).writeDst w f.a fun l =>
      r.words.getD l 0).refill w.core) := by
  simp only [inbxBody, h, hl, Bool.false_eq_true, ↓reduceIte]

end

end

theorem says_counters : Says.Counters := by
  intro f s s1 s2 q w
  refine ⟨?cwait, ?cadd⟩
  case cwait =>
    intro h hq hp hr hc hi u
    split
    next hg => exact exec_commits rfl h rfl (cwaitBody_goes hq hp hr hc hg)
    next hg => exact exec_waits rfl h rfl (cwaitBody_waits hq hp hr hc hg)
  case cadd =>
    intro h hq hp hr hc hd u hf m sum err n
    have hn : counterNext m (s1.scalar w f.b).toNat (decide (immInt f.c = 1)) = n := rfl
    exact exec_commits rfl h rfl ((caddBody_counts hq hp hr hc hd).trans
      (congrArg Except.ok (State.countAt_unfenced hf hn)))

theorem says_inbox : Says.Inbox := by
  intro f s w tag
  refine ⟨?inbx, ?inbp⟩
  case inbx =>
    intro h
    refine ⟨fun ht => exec_waits rfl h rfl (inbxBody_empty ht), ?_⟩
    intro r k ht later
    split
    next hl => exact exec_waits rfl h rfl (inbxBody_later ht hl)
    next hl => exact exec_commits rfl h rfl (inbxBody_takes ht (Bool.eq_false_of_not_eq_true hl))
  case inbp =>
    intro h
    exact exec_commits rfl h rfl rfl

/-- Settles O22: each of the four instructions goes on or waits as its part decides. -/
theorem countersAndInbox : Obligations.CountersAndInbox := ⟨says_counters, says_inbox⟩

/-! ### Atomics (R219 to R221) -/

section
variable {s s1 s2 s3 : State} {w : Who} {f : Ny} {as : List Access}

theorem State.answered_none (h : (s.self w).asked = []) : s.answered w = none := by
  simp [State.answered, h]

/-- A release is held back only at .dom scope, while a write to another package is
unacknowledged. -/
theorem State.releaseCheck_free (h : ¬(2 ≤ (Operand.qual f.a).toNat % 4 ∧
      (Operand.qual f.a).toNat / 4 = 4 ∧ s.unackedRemote w.agent = true)) :
    s.releaseCheck w.agent (if f.releases then f.qscope else 0) = .ok () := by
  unfold State.releaseCheck
  refine if_neg ?_
  rintro ⟨hs, hu⟩
  split at hs
  next hr => exact h ⟨by simpa [Ny.releases] using hr, hs, hu⟩
  · cases hs

theorem State.atomOpen_eq (s : State) (w : Who) (f : Ny) (as : List Access) :
    s.atomOpen w f as =
      if (Operand.qual f.a).toNat % 4 ≠ 0 ∨ (as.any (·.loc.isLqdb)) = true
      then s.closeRegion w.agent else s.padOrderAll w f.spc as := by
  simp only [State.atomOpen, atomOrders, Ny.ordered, Bool.or_eq_true, bne_iff_ne]

theorem State.acquired_eq (s : State) (w : Who) (f : Ny) :
    s.acquired f w = if (Operand.qual f.a).toNat % 2 = 1 ∧ (Operand.qual f.a).toNat / 4 = 4
      then s.acquireDom w.core else s := by
  by_cases h : (Operand.qual f.a).toNat % 2 = 1
  · simp only [State.acquired, State.acquireAt, Ny.acquires, Ny.qscope, h, BEq.rfl, ↓reduceIte,
      true_and]
  · have hb : ((Operand.qual f.a).toNat % 2 == 1) = false := by simpa using h
    simp only [State.acquired, State.acquireAt, Ny.acquires, hb, h, Bool.false_eq_true, ↓reduceIte,
      false_and]
    rfl

/-- The atomic leaves the package of a paired core as requests to the partner. -/
def State.asksFar (s : State) (w : Who) (f : Ny) : Bool :=
  (s.home w).pair.isSome && decide (3 ≤ f.spc)

section
variable (hc : s2.passChannels as = .ok s3) (hd : s3.doorbellCheck w as = .ok ())
include hc hd

theorem State.performRmw_far {op : Nat → RmwOp} {g : Nat → Word → Word}
    (hf : (s3.atomOpen w f as).asksFar w f = true) :
    s2.performRmw w f as op g =
      .error (.stall (some ((s3.atomOpen w f as).ask w (rmwRequests op as)))) := by
  unfold State.asksFar at hf
  simp only [State.performRmw, hc, hd, hf, ↓reduceIte]

theorem State.performRmw_near {op : Nat → RmwOp} {g : Nat → Word → Word}
    (hf : (s3.atomOpen w f as).asksFar w f = false) :
    s2.performRmw w f as op g = .ok ((s3.atomOpen w f as).rmwAll w.core g as) := by
  unfold State.asksFar at hf
  simp only [State.performRmw, hc, hd, hf, Bool.false_eq_true, ↓reduceIte]

end

theorem atomBody_performs {v : Nat → Word} (ha : s.atomCheck w f = .ok (s1, as))
    (hn : (s.self w).asked = []) (hv : s1.src w f.ty false f.c = .ok (s2, v))
    (hr : s2.releaseCheck w.agent (if f.releases then f.qscope else 0) = .ok ()) :
    atomBody f w s = (s2.performRmw w f as (fun l => .atom f.aop f.ty (v l)) fun l m =>
      atomOp f.ty f.aop m (v l)).map fun q => q.1.atomDone w f q.2 := by
  simp only [atomBody, State.answered_none hn, ha, hv, hr]

theorem casBody_performs (ha : s.atomCheck w f = .ok (s1, as)) (hn : (s.self w).asked = [])
    (hr : s1.releaseCheck w.agent (if f.releases then f.qscope else 0) = .ok ()) :
    casBody f w s =
      let c := s1.srcLane w f.ty false f.c
      let v := s1.srcLane w f.ty false f.c.succ
      (s1.performRmw w f as (fun l => .cas (c l) (v l)) fun l m =>
        if m = c l then v l else m).map fun q => q.1.atomDone w f q.2 := by
  simp only [casBody, State.answered_none hn, ha, hr]

theorem atredBody_performs (hb : ∀ r o, f.b ≠ .role r o) (ha : s.atomCheck w f = .ok (s1, as))
    (hr : s1.releaseCheck w.agent (if f.releases then f.qscope else 0) = .ok ())
    (hc : s1.passChannels as = .ok s3) (hd : s3.doorbellCheck w as = .ok ()) :
    atredBody f w s = .ok ((s3.atredAt f w as).acquired f w) := by
  unfold atredBody
  split
  next r o hro => exact absurd hro (hb r o)
  · simp only [ha, hr, hc, hd]
    rfl

/-- What ATOM and CAS come to from the state that their order has opened. -/
theorem exec_rmw {i : Instr} {op : Nat} {body : Who → State → Res} {vec : Bool} {rs : Nat → RmwOp}
    {g : Nat → Word → Word} (he : exec i s = .next (s.issue i op f vec body))
    (h : s.Acts i f vec) (hi : i.ny? = some (op, f))
    (hb : body (s.me f) s =
      (s2.performRmw (s.me f) f as rs g).map fun q => q.1.atomDone (s.me f) f q.2)
    (hc : s2.passChannels as = .ok s3) (hd : s3.doorbellCheck (s.me f) as = .ok ()) :
    exec i s = .next (
      let u := s3.atomOpen (s.me f) f as
      if u.asksFar (s.me f) f
      then ((u.ask (s.me f) (rmwRequests rs as)).leaveAll s.leader).noIssue s.curCore s.curMt
      else s.onward ((u.rmwAll s.curCore g as).1.atomDone (s.me f) f
        (u.rmwAll s.curCore g as).2) f) := by
  extract_lets u
  split
  next hf =>
    refine exec_stalls_with he h hi (hb.trans ?_)
    rw [State.performRmw_far hc hd hf]
    rfl
  next hf =>
    refine exec_commits he h hi (hb.trans ?_)
    rw [State.performRmw_near hc hd (Bool.eq_false_of_not_eq_true hf)]
    rfl

end

/-- The first part of O20 holds; `not_atomics` refutes its second. -/
theorem says_atomics : Says.Atomics := by
  intro f s s1 s2 s3 as v w qual ha hn hr hc hd u far acquired out
  have hu : s3.atomOpen w f as = u := State.atomOpen_eq ..
  have hfar : u.asksFar w f = far := rfl
  have hacq (t : State) : t.acquired f w = acquired t := State.acquired_eq ..
  have hrel := State.releaseCheck_free hr
  have hout (rs : Nat → RmwOp) (g : Nat → Word → Word) :
      (let u := s3.atomOpen w f as
      if u.asksFar w f
      then ((u.ask w (rmwRequests rs as)).leaveAll s.leader).noIssue s.curCore s.curMt
      else s.onward ((u.rmwAll s.curCore g as).1.atomDone w f (u.rmwAll s.curCore g as).2) f) =
      out rs g := by
    simp only [hu, out, State.atomDone, hacq, hfar]
  refine ⟨?atom, ?cas, ?atred⟩
  case atom =>
    intro h hv
    exact (exec_rmw rfl h rfl (atomBody_performs ha hn hv hrel) hc hd).trans
      (congrArg _ (hout _ _))
  case cas =>
    rintro h rfl c x
    exact (exec_rmw rfl h rfl (casBody_performs ha hn hrel) hc hd).trans (congrArg _ (hout _ _))
  case atred =>
    rintro h rfl hb y
    refine exec_commits rfl h rfl ((atredBody_performs hb ha hrel hc hd).trans ?_)
    simp only [hacq, State.atredAt, hu]
    rfl

end Sys2Proof.Machine
end

section
/-! SUPPORT. Counterexamples: one word of the scratchpad, atomics and the frames of register instructions
(R83, R88, R204, R219). -/

namespace Sys2Proof.Machine

/-! ### States that the statements about one word and about frames range over

One holds an array with an index twice, the other a core beyond the 1,024 of the package. The
statements quantify over every state, and have no hypothesis that rules these out. -/

/-- What `g` finds in the state that an outcome leads to. -/
def found {α : Type} (g : State → α) : Out → Option α
  | .next t => some (g t)
  | _ => none

/-- A running micro-thread whose array of scalar registers holds register 1 twice. -/
def registerHeldTwice : State :=
  { State.reset with
    cores := [(0, { Core.init with mts := [(0, { Mt.init with
      st := .running, s := [(1, 7), (1, 9)] })] })] }

/-- LD of the core's own scratchpad at the address in register 2 into register 1. -/
def loadRegister1 : Ny :=
  ⟨.b32, 1, ⟨false, 15⟩, ⟨false, 0, false⟩, .sreg 1 0, .sreg 2 0, .imm 0⟩

theorem loadRegister1_acts :
    registerHeldTwice.Acts (.ld loadRegister1) loadRegister1 false :=
  ⟨⟨rfl, rfl⟩, rfl, by rintro _ _ ⟨⟩; rfl⟩

theorem loadRegister1_result :
    found (·.cur.sreg 1) (exec (.ld loadRegister1) registerHeldTwice) = some 9 := by
  rfl

/-- Refutes O15: the scratchpad of zeros holds 0 at address 0, and writing 0 to a register drops the
first entry for it from the array of registers; where the array holds the register twice, the second
is then read. -/
theorem not_scratchpadWord : ¬ Obligations.ScratchpadWord := by
  intro h
  have hst := h loadRegister1 registerHeldTwice 1 2 0 0 0 rfl rfl rfl rfl
    ⟨rfl, rfl, trivial⟩ (by decide) rfl rfl rfl rfl
  obtain ⟨t, ht, hr, -, -⟩ := (hst.1 loadRegister1_acts).2.2 (by decide) (by decide) (by decide)
  have hres := loadRegister1_result
  rw [ht] at hres
  have hr : t.cur.sreg 1 = 0 := hr
  simp [found, hr] at hres

/-- Core 0 with a store of micro-thread 0 to the scratchpad of core `pad` still to land, and core
1024, whose micro-thread 0 issues; an agent number has room for the cores 0 to 1023, so that
micro-thread 0 of core 1024 has the agent number of that of core 0. -/
def beyondAgents (pad : Nat) : State :=
  { State.reset with
    curCore := 1024
    cores := [
      (0, { Core.init with lateStores := [⟨0, 1, pad, 0, 5, false⟩] }),
      (1024, { Core.init with mts := [(0, { Mt.init with
        st := .running, q := [(0, .bound 0 [7, 8] false false)] })] })] }

/-- ATOM.OR with acquire order on the core's own scratchpad at the address in register 2, of
register 3; the old word goes to register 1. -/
def acquiringOr : Ny :=
  ⟨.b32, 33, ⟨false, 15⟩, ⟨false, 0, false⟩, .sreg 1 1, .sreg 2 0, .sreg 3 0⟩

theorem acquiringOr_acts : (beyondAgents 1024).Acts (.atom acquiringOr) acquiringOr false :=
  ⟨⟨rfl, rfl⟩, rfl, by rintro _ _ ⟨⟩; rfl⟩

theorem acquiringOr_result :
    found (·.cur.sreg 1) (exec (.atom acquiringOr) (beyondAgents 1024)) = some 5 := by
  rfl

/-- Refutes O20: an atomic with an order closes its agent's region, and so lands the store that
core 0 still has outstanding, which is to the word of the atomic. -/
theorem not_atomics : ¬ Obligations.Atomics := by
  rintro ⟨-, h⟩
  obtain ⟨t, ht, hr, -⟩ := h acquiringOr (beyondAgents 1024) 1 2 3 1 0 0 acquiringOr_acts rfl rfl
    rfl rfl rfl rfl (.inr rfl) (by decide) (by decide) ⟨rfl, rfl, trivial⟩ (by decide) rfl rfl rfl
    (by decide) (by decide)
  have hres := acquiringOr_result
  rw [ht] at hres
  have hr : t.cur.sreg 1 = 0 := hr
  simp [found, hr] at hres

/-- MOV of stream register 0 to register 1. -/
def moveStream : Ny :=
  ⟨.b32, 0, ⟨false, 15⟩, ⟨false, 0, false⟩, .sreg 1 0, .stream 0, .imm 0⟩

theorem moveStream_result :
    found (fun t => (t.cur.st, (t.core 0).lateStores)) (exec (.mov moveStream) (beyondAgents 0)) =
      some (.running, []) := by
  rfl

/-- Refutes O49: a read of a stream register closes its agent's region, and so lands the store that
core 0 still has outstanding: its scratchpad changes. -/
theorem not_registerFrames : ¬ Obligations.RegisterFrames := by
  rintro ⟨-, h, -⟩
  have hres := moveStream_result
  cases ht : exec (.mov moveStream) (beyondAgents 0) with
  | next t =>
    rw [ht] at hres
    simp only [found, Option.some.injEq, Prod.mk.injEq] at hres
    obtain ⟨hrun, hlate⟩ := hres
    obtain ⟨⟨-, hcore, -⟩, -⟩ := h moveStream (beyondAgents 0) t (.mov moveStream)
      (by simp [registerInstrs]) ⟨rfl, rfl⟩ (by rintro _ _ ⟨⟩) (by rintro _ _ ⟨⟩)
      (fun _ _ => ⟨rfl, rfl⟩) ht hrun
    have : (t.core 0).lateStores = [⟨0, 1, 0, 0, 5, false⟩] := congrArg Core.lateStores (hcore 0)
    simp [hlate] at this
  | fault | refused => simp [ht, found] at hres

end Sys2Proof.Machine
end

section
/-! SUPPORT. Writes of the registers of cores and devices (R76, R110, R311, R329, R349 to
R357, R363, R384). -/

namespace Sys2Proof.Machine

/-! ### Writes of a core's registers (R76, R110, R349 to R351, R363) -/

section
variable {s t : State} {c : Nat} {k : Core} {v : DWord}

/-- A control thread that does not stall keeps its record when its write is made. -/
theorem Hart.unstalled {h : Hart} (hs : h.stall = none) (i : Instr) :
    { h with stall := if h.stall = some i then none else h.stall } = h := by
  cases h
  cases hs
  rfl

/-- A write that is made is of the core's record only, where its control thread does not stall. -/
theorem State.orStall_made (s t : State) (i : Instr) (hk : k.ct.stall = none) :
    s.orStall c i (some (t.setCore c k)) = t.setCore c k := by
  simp only [State.orStall, State.modHart, State.hart, State.core_setCore, Hart.unstalled hk,
    State.setHart, State.modCore, State.setCore_setCore]

theorem State.orStall_unchanged (i : Instr) (hk : (s.core c).ct.stall = none) :
    s.orStall c i (some s) = s.setCore c (s.core c) := by
  have hh : (s.hart c).stall = none := hk
  simp only [State.orStall, State.modHart, Hart.unstalled hh]
  rfl

theorem State.ctxidWrite_idle (h : ((s.core c).mtsIdle && (s.core c).enginesIdle) = true) :
    s.ctxidWrite c v = some (s.setCore c { s.core c with
      ctx := BitVec.ofNat 12 (v.toNat % 2 ^ 12)
      inc := BitVec.ofNat 8 (s.incEntry (v.toNat % 2 ^ 12)).1 }) := by
  simp only [State.ctxidWrite, h, ↓reduceIte, fieldOf, pow_zero, Nat.div_one]

theorem State.ctxidWrite_busy (h : ((s.core c).mtsIdle && (s.core c).enginesIdle) = false) :
    s.ctxidWrite c v = none := by
  simp only [State.ctxidWrite, h, Bool.false_eq_true, ↓reduceIte]

theorem State.nbvWrite_idle (h : ((s.core c).mtsIdle && (s.core c).mx.chain.isNone) = true) :
    s.nbvWrite c v = some (if v.toNat % 4 = 1 ∨ v.toNat % 4 = 2
      then s.setCore c { s.core c with nbv := v.setWidth 2 } else s) := by
  have hx : BitVec.ofNat 2 (v.toNat % 4) = v.setWidth 2 := by
    apply BitVec.eq_of_toNat_eq
    simp
  simp only [State.nbvWrite, h, ↓reduceIte, fieldOf, pow_zero, Nat.div_one, Nat.reducePow, hx]

/-- The registers of the trap ring are the core's own, and of no other effect. -/
theorem State.csrWrite_trbase (s : State) (c : Nat) (v : DWord) :
    s.csrWrite c 0x5C0 v =
      some (s.setCore c { s.core c with trbase := v &&& 0xFFFFFFFFFFFFF001 }) := rfl

theorem State.csrWrite_trloc (s : State) (c : Nat) (v : DWord) :
    s.csrWrite c 0x5C3 v = some (s.setCore c { s.core c with trloc := v }) := rfl

theorem exec_registerWrite_csr {num : BitVec 12} (h : num.toNat / 1024 ≠ 3) :
    exec (.registerWrite (.csr c num) v) s =
      .next (s.orStall c (.registerWrite (.csr c num) v) (s.csrWrite c num v)) :=
  (if_neg h : execRegisterWrite (.csr c num) v s = _)

theorem exec_trapInterruptTaken {i : Nat} (hr : s.coreRuns c = true)
    (hp : (s.core c).pendingIrq = some i) (hi : i = 16 ∨ i = 17)
    (hw : (s.core c).ct.writing = false) (ha : (s.core c).ct.asked = none) :
    exec (.trapInterruptTaken c) s = .next (s.takeIrq c i) := by
  have hw : (s.hart c).writing = false := hw
  have ha : (s.hart c).asked = none := ha
  change execTrapInterruptTaken c s = _
  simp only [execTrapInterruptTaken, hr, hw, ha, hp, hi, Bool.not_false, Bool.and_self,
    Option.isNone_none, ↓reduceIte]

end

theorem says_coreRegisterSteps : Says.CoreRegisterSteps := by
  intro s c v k idle ctx
  refine ⟨?ctxid, ?busy, ?nbv, rfl, ?csr, ?irq⟩
  case ctxid =>
    intro hi hk
    refine congrArg Host.Outcome.next ((congrArg _ (State.ctxidWrite_idle hi)).trans ?_)
    exact s.orStall_made _ _ hk
  case busy =>
    intro hi
    exact congrArg Host.Outcome.next (congrArg _ (State.ctxidWrite_busy hi))
  case nbv =>
    intro hi hk
    refine congrArg Host.Outcome.next ((congrArg _ (State.nbvWrite_idle hi)).trans ?_)
    split
    · exact s.orStall_made _ _ hk
    · exact State.orStall_unchanged _ hk
  case csr =>
    intro hk
    refine ⟨?_, ?_⟩
    · rw [exec_registerWrite_csr (by decide), State.csrWrite_trbase]
      exact congrArg Host.Outcome.next (s.orStall_made _ _ hk)
    · rw [exec_registerWrite_csr (by decide), State.csrWrite_trloc]
      exact congrArg Host.Outcome.next (s.orStall_made _ _ hk)
  case irq =>
    intro i hr hp hi hw ha
    exact exec_trapInterruptTaken hr hp hi hw ha

/-! ### Device registers (R311, R329, R354, R355, R357, R384) -/

section
variable {s : State} {d r : Nat} {v : DWord}

theorem State.pageWrite_tail (h : (s.die d).failed = false) (n : Nat) :
    s.pageWrite d 0 n v = s.modDie d fun x => { x with lqTail := v.setWidth 16 } := by
  have hn : ¬((s.die d).failed = true ∨ 0 % 8 ≠ 0) := by simp [h]
  exact if_neg hn

/-- A ring that holds no record back lets none go. -/
theorem State.ringDrain_none (h : (s.ring r).held = []) (n : Nat) : s.ringDrain r n = s := by
  cases n with
  | zero => rfl
  | succ n => simp only [State.ringDrain, h]

/-- What a migration request asks for. -/
def migSource (v : DWord) : Nat := v.toNat % 2 ^ 10
def migTarget (v : DWord) : Nat := v.toNat / 2 ^ 16 % 2 ^ 10

section
variable (hgo : v.getLsbD 63 = true) (hz : (s.die d).frozen = false)
  (hm : (s.die d).migration = none)
include hgo hz hm

theorem State.migRequest_fenced
    (hf : s.fenced (migSource v) = true ∨ s.fenced (migTarget v) = true) :
    s.migRequest d v = s.migStat d 3 1 := by
  have hs : fieldOf v 0 10 = migSource v := by simp [fieldOf, migSource]
  have ht : fieldOf v 16 10 = migTarget v := rfl
  have hf : (s.fenced (migSource v) || s.fenced (migTarget v)) = true := by simpa using hf
  simp only [State.migRequest, hgo, hz, hm, hs, ht, hf, Bool.not_true, Bool.false_eq_true,
    Option.isSome_none, Bool.or_self, ↓reduceIte]

theorem State.migRequest_starts (hsrc : s.fenced (migSource v) = false)
    (hdst : s.fenced (migTarget v) = false) (hl : (s.core (migSource v)).launch ≠ none)
    (ht : s.tileMove (migSource v) = true →
      localIdx (migSource v) = 0 ∧ localIdx (migTarget v) = 0)
    (hp : (s.migPairs (migSource v) (migTarget v)).all (fun p => s.migFree p.2) = true)
    (hg : s.gang8 (tileOf (migSource v)) = false) :
    s.migRequest d v = (((s.migPairs (migSource v) (migTarget v)).foldl
      (fun s p => (s.freezeCore p.1).wake p.2) s).migStat d 1 0).modDie d fun x => { x with
        migration := some ⟨s.migPairs (migSource v) (migTarget v), false⟩ } := by
  have hs : fieldOf v 0 10 = migSource v := by simp [fieldOf, migSource]
  have hd : fieldOf v 16 10 = migTarget v := rfl
  have hl : (s.core (migSource v)).launch.isNone = false :=
    Bool.eq_false_of_not_eq_true (by simpa using hl)
  have ht : (s.tileMove (migSource v) &&
      (localIdx (migSource v) != 0 || localIdx (migTarget v) != 0)) = false := by
    cases hm : s.tileMove (migSource v) with
    | false => rfl
    | true => simp [ht hm]
  simp only [State.migRequest, hgo, hz, hm, hs, hd, hsrc, hdst, hl, ht, hp, hg, Bool.not_true,
    Bool.false_eq_true, Option.isSome_none, Bool.or_self, ↓reduceIte]

end

end

theorem says_deviceRegisterSteps : Says.DeviceRegisterSteps := by
  intro s d r v w
  refine ⟨?lqdb, ?ring, ?none, ?go⟩
  case lqdb =>
    intro hd
    have hw : (w.setWidth 64).setWidth 16 = w.setWidth 16 := by
      apply BitVec.eq_of_toNat_eq
      simp
    refine congrArg Host.Outcome.next ((State.pageWrite_tail hd 4).trans ?_)
    rw [hw]
  case ring =>
    intro hh
    refine ⟨congrArg Host.Outcome.next (State.ringDrain_none ?_ 64),
      congrArg Host.Outcome.next ((State.ringDrain_none ?_ 64).trans ?_)⟩
    · rw [State.ring_modRing]
      exact hh
    · rw [State.ring_modRing]
      exact hh
    · simp only [fieldOf, pow_one, Nat.reducePow]
  case none =>
    intro hv
    refine congrArg Host.Outcome.next ?_
    simp only [State.migRequest, hv, Bool.not_false, ↓reduceIte]
  case go =>
    rintro src dst hgo rfl rfl hz hm
    refine ⟨fun hf => congrArg Host.Outcome.next (State.migRequest_fenced hgo hz hm hf), ?_⟩
    intro hsrc hdst hl ht hp hg
    exact congrArg Host.Outcome.next (State.migRequest_starts hgo hz hm hsrc hdst hl ht hp hg)

/-- Settles O38: a write waits until what it concerns is idle, and is then of the one record. -/
theorem registerSteps : Obligations.RegisterSteps :=
  ⟨says_coreRegisterSteps, says_deviceRegisterSteps⟩

end Sys2Proof.Machine
end

section
/-! SUPPORT. The copy engine and the partials of reductions (R86, R109, R231, R249,
R250, R252, R386). -/

namespace Sys2Proof.Machine

/-! ### The copy engine (R86, R109, R231, R249, R250, R252, R386) -/

section
variable {s : State} {c i : Nat} {o : CopyOp}

section
variable (ho : (s.core c).copies[i]? = some o)
include ho

/-- The first waiting copy may start, once what pushed it is performed. -/
theorem Core.mayStart_first (hz : (s.core c).frozen = false)
    (hp : ∀ p ∈ (s.core c).copies.take i, p.started = true)
    (hn : (s.core c).copies.countP (·.started) < 16)
    (hct : o.ct = true → (s.core c).outstanding (agentId 1 0 c) = false) :
    (s.core c).mayStart c i = true := by
  have hp : ((s.core c).copies.take i).all (·.started) = true := List.all_eq_true.2 hp
  have hct : (o.ct && (s.core c).outstanding (agentId 1 0 c)) = false := by
    cases h : o.ct with
    | false => rfl
    | true => simp [hct h]
  simp only [Core.mayStart, hz, hp, hn, ho, Option.map_some, Option.getD_some, hct, decide_true,
    Bool.not_false, Bool.and_self]

theorem exec_copyElementComplete_starts (hs : o.started = false)
    (hm : (s.core c).mayStart c i = true) :
    exec (.copyElementComplete c i) s = .next (s.startCopy c i o) := by
  change execCopyElementComplete c i s = _
  simp only [execCopyElementComplete, ho, hs, hm, Bool.not_false, ↓reduceIte]

theorem exec_copyElementComplete_walks {d : Desc} {t : Ty} (hs : o.started = true)
    (hd : o.desc = some d) (ht : Desc.ety d = some t) (hn : o.next < o.total) :
    exec (.copyElementComplete c i) s = .next (s.stepCopy c i o d t) := by
  change execCopyElementComplete c i s = _
  simp only [execCopyElementComplete, ho, hs, hd, ht, hn, Bool.not_true, Bool.false_eq_true,
    ↓reduceIte]

theorem exec_copyCompletion : exec (.copyCompletion c i) s =
    .next (if s.copyDone c o then s.completeCopy c i o else s) := by
  change execCopyCompletion c i s = _
  simp only [execCopyCompletion, ho]

end

theorem State.copyDone_iff : s.copyDone c o = true ↔
    o.started = true ∧ o.total ≤ o.next ∧ s.owes (agentId 3 o.mt c) o.seq = false := by
  simp only [State.copyDone, Bool.and_eq_true, decide_eq_true_eq, Bool.not_eq_true', and_assoc]
  rfl

/-! ### Partials on their way to their lines (R250) -/

/-- No earlier partial is on its way to the same line. -/
theorem no_line_ahead {qs : List Partial} {p : Partial}
    (hf : qs.all (fun q => q.line != p.line) = true) :
    (qs.any fun q => q.line == p.line) = false := by
  simpa using hf

section
variable {n : Nat} {p : Partial} (hp : s.partialQ[n]? = some p)
  (hf : (s.partialQ.take n).all (fun q => q.line != p.line) = true)
include hp hf

theorem exec_reducePartialArrival_stale (hg : s.staleTag p.ctx p.inc = true) :
    exec (.reducePartialArrival n) s =
      .next ({ s with partialQ := s.partialQ.eraseIdx n }.partialDone p) := by
  change execReducePartialArrival n s = _
  simp only [execReducePartialArrival, hp, no_line_ahead hf, hg, Bool.false_eq_true,
    ↓reduceIte]

theorem exec_reducePartialArrival_early (hg : s.staleTag p.ctx p.inc = false)
    (he : s.expects p = false) :
    exec (.reducePartialArrival n) s =
      .next (({ s with partialQ := s.partialQ.eraseIdx n }.takePartial p).partialDone p) := by
  change execReducePartialArrival n s = _
  simp only [execReducePartialArrival, hp, no_line_ahead hf, hg, he,
    Bool.false_eq_true, ↓reduceIte]

theorem exec_reducePartialArrival_turn {u : State} (hg : s.staleTag p.ctx p.inc = false)
    (he : s.expects p = true)
    (hv : s.viaChannels ⟨agentId 6 0 p.core, p.line⟩ [lineLoc p.line 0] = .ok u)
    (hm : u.partialMeets p = false) :
    exec (.reducePartialArrival n) s =
      .next (({ u with partialQ := u.partialQ.eraseIdx n }.takePartial p).partialDone p) := by
  change execReducePartialArrival n s = _
  simp only [execReducePartialArrival, hp, no_line_ahead hf, hg, he, hv, hm,
    Bool.false_eq_true, ↓reduceIte]

end

theorem State.staleTag_eq_false {ctx : BitVec 12} {inc : BitVec 8} :
    s.staleTag ctx inc = false ↔ BitVec.ofNat 8 (s.incEntry ctx.toNat).1 = inc := by
  simp [State.staleTag]

end

/-- Settles O40: each event of the engine is one branch of its step. -/
theorem copySteps : Obligations.CopySteps := by
  intro s c i o k
  refine ⟨?copies, ?partials⟩
  case copies =>
    intro ho
    refine ⟨?start, ?walk, ?done, ?waits⟩
    case start =>
      intro hs hz hp hn hct
      exact exec_copyElementComplete_starts ho hs (Core.mayStart_first ho hz hp hn hct)
    case walk =>
      intro d t hs hd ht hn
      exact exec_copyElementComplete_walks ho hs hd ht hn
    case done =>
      intro hs hn hw
      rw [exec_copyCompletion ho, if_pos (State.copyDone_iff.2 ⟨hs, hn, hw⟩)]
    case waits =>
      intro hw
      rw [exec_copyCompletion ho, if_neg]
      intro hd
      obtain ⟨-, hn, hfree⟩ := State.copyDone_iff.1 hd
      rcases hw with hw | hw
      · omega
      · simp [hfree] at hw
  case partials =>
    intro n p hp hf gone present
    refine ⟨?stale, ?early, ?turn⟩
    case stale =>
      intro hn
      exact exec_reducePartialArrival_stale hp hf
        (Bool.eq_true_of_not_eq_false (mt State.staleTag_eq_false.1 hn))
    case early =>
      intro hy he
      exact exec_reducePartialArrival_early hp hf (State.staleTag_eq_false.2 hy) he
    case turn =>
      intro u hy he hv hm
      exact exec_reducePartialArrival_turn hp hf (State.staleTag_eq_false.2 hy) he hv hm

end Sys2Proof.Machine
end

section
/-! SUPPORT. Held translations and held lines of other packages (R68, R74, R75, R78, R222). -/

namespace Sys2Proof.Machine

/-! ### Held translations (R74, R75) -/

/-- How many entries of the L1 TLB, or of the die's service, of unit `u` are held. -/
def heldBy (ts : List TlbEntry) (l1 : Bool) (u : Nat) : Nat :=
  (ts.filter fun e => e.l1 == l1 && e.unit == u).length

/-- No TLB holds more than its entries. -/
def WithinCaps (ts : List TlbEntry) : Prop := ∀ l1 u, heldBy ts l1 u ≤ tlbCap l1

theorem withinCaps_iff {ts : List TlbEntry} :
    WithinCaps ts ↔ ∀ u, heldBy ts true u ≤ 64 ∧ heldBy ts false u ≤ 4096 := by
  simp only [WithinCaps, Bool.forall_bool, tlbCap]
  grind

section
variable {ts us : List TlbEntry} {e : TlbEntry}

theorem WithinCaps.sublist (h : WithinCaps ts) (hs : us.Sublist ts) : WithinCaps us :=
  fun l1 u => (hs.filter _).length_le.trans (h l1 u)

/-- The TLB that an entry goes into lets its last entry go where it is full; the others keep
theirs. -/
theorem heldBy_tlbAdd (ts : List TlbEntry) (e : TlbEntry) (l1 : Bool) (u : Nat) :
    heldBy (tlbAdd ts e) l1 u ≤ max (heldBy ts l1 u) (tlbCap l1) := by
  have hcap : 1 ≤ tlbCap e.l1 := by
    unfold tlbCap
    split <;> decide
  by_cases hk : e.l1 = l1 ∧ e.unit = u
  · obtain ⟨rfl, rfl⟩ := hk
    have hrest : (ts.filter fun x => !(x.l1 == e.l1 && x.unit == e.unit)).filter
        (fun x => x.l1 == e.l1 && x.unit == e.unit) = [] := by
      simp [List.filter_filter]
    have htake : (((ts.filter fun x => x.l1 == e.l1 && x.unit == e.unit).take
        (tlbCap e.l1 - 1)).filter fun x => x.l1 == e.l1 && x.unit == e.unit).length ≤
        tlbCap e.l1 - 1 := (List.length_filter_le _ _).trans (List.length_take_le _ _)
    simp only [heldBy, tlbAdd, List.cons_append, List.filter_cons, BEq.rfl, Bool.and_self,
      ↓reduceIte, List.filter_append, List.length_cons, List.length_append, hrest, List.length_nil]
    omega
  · have hne : (e.l1 == l1 && e.unit == u) = false := by simpa using hk
    have htake : ((ts.filter fun x => x.l1 == e.l1 && x.unit == e.unit).take
        (tlbCap e.l1 - 1)).filter (fun x => x.l1 == l1 && x.unit == u) = [] := by
      refine List.filter_eq_nil_iff.2 fun x hx => ?_
      have := (List.mem_filter.1 (List.mem_of_mem_take hx)).2
      grind
    have hrest := (List.filter_sublist (p := fun x => !(x.l1 == e.l1 && x.unit == e.unit))
      (l := ts)).filter (fun x => x.l1 == l1 && x.unit == u) |>.length_le
    simp only [heldBy, tlbAdd, List.cons_append, List.filter_cons, hne, Bool.false_eq_true,
      ↓reduceIte, List.filter_append, List.length_append, htake, List.length_nil]
    omega

theorem WithinCaps.tlbAdd (h : WithinCaps ts) : WithinCaps (tlbAdd ts e) :=
  fun l1 u => (heldBy_tlbAdd ts e l1 u).trans (max_le (h l1 u) le_rfl)

theorem WithinCaps.foldl_tlbAdd (h : WithinCaps ts) (us : List TlbEntry) :
    WithinCaps (us.foldl Machine.tlbAdd ts) := by
  induction us generalizing ts with
  | nil => exact h
  | cons e us ih => exact ih h.tlbAdd

end

section
variable {s : State}

theorem State.withinCaps_tlbNext (h : WithinCaps s.tlb) : WithinCaps s.tlbNext := by
  refine (h.sublist ?_).foldl_tlbAdd _
  have := (List.filter_sublist (p := fun e => Config.tlbKeep s.free e.2)
    (l := s.tlb.zipIdx)).map (·.1)
  rwa [List.zipIdx_map_fst] at this

/-- The entries of the die's service that SFENCE.VMA drops match its operands. -/
theorem TlbEntry.fenced_iff {e : TlbEntry} {va asid : Option Nat} :
    e.fenced va asid = true ↔
      (∀ x, va = some x → e.va / e.leaf.span = x % 2 ^ 48 / e.leaf.span) ∧
      ∀ x, asid = some x → e.leaf.glob = false ∧ e.asid = x % 2 ^ 16 := by
  cases va <;> cases asid <;> simp [TlbEntry.fenced]

theorem State.mem_sfence {c : Nat} {va asid : Option Nat} {e : TlbEntry} :
    e ∈ (s.sfence c va asid).tlb ↔ e ∈ s.tlb ∧ ¬(e.l1 = true ∧ e.unit = c) ∧
      ¬(e.l1 = false ∧ e.unit = coreDie c ∧ e.fenced va asid = true) := by
  simp only [State.sfence, List.mem_filter]
  cases e.l1 with
  | false => simp [imp_iff_not_or]
  | true => simp

end

theorem says_heldTranslations : Says.HeldTranslations := by
  intro s c satp v va asid held bounded
  refine ⟨?l1, ?service, ?walk, ?sfence, ?caps⟩
  case l1 =>
    intro f hf
    simp only [State.leafFor, hf]
  case service =>
    intro f h1 hs
    simp only [State.leafFor, h1, State.serviceLeaf, hs]
  case walk =>
    intro h1 hs
    simp only [State.leafFor, h1, State.serviceLeaf, hs]
  case sfence =>
    intro e
    rw [State.mem_sfence, TlbEntry.fenced_iff]
  case caps =>
    intro hb
    exact withinCaps_iff.1 (State.withinCaps_tlbNext (withinCaps_iff.2 hb))

/-! ### Bytes of a little-endian number, and of a line that is written (R65) -/

@[simp] theorem length_leBytes (n v : Nat) : (leBytes n v).length = n := by
  induction n generalizing v with
  | zero => rfl
  | succ n ih => simp [leBytes, ih]

theorem leNat_leBytes (n v : Nat) : leNat (leBytes n v) = v % 256 ^ n := by
  induction n generalizing v with
  | zero => simp [leBytes, leNat, Nat.mod_one]
  | succ n ih =>
    simp only [leBytes, leNat, ih, BitVec.toNat_ofNat, Nat.reducePow]
    rw [Nat.pow_succ', Nat.mod_mul]

theorem word_leBytes (v : Word) : BitVec.ofNat 32 (leNat (leBytes 4 v.toNat)) = v := by
  rw [leNat_leBytes, Nat.mod_eq_of_lt (by have := v.isLt; omega), BitVec.ofNat_toNat]
  exact BitVec.setWidth_eq v

@[simp] theorem length_patch (a : Nat) (bs : List Byte) (b : Nat) (ws : List Byte) :
    (patch a bs b ws).length = bs.length := by
  simp [patch]

/-- The bytes written into a line are read there. -/
theorem take_drop_patch {a b : Nat} {bs ws : List Byte} (h1 : a ≤ b)
    (h2 : b + ws.length ≤ a + bs.length) :
    ((patch a bs b ws).drop (b - a)).take ws.length = ws := by
  refine List.ext_getElem (by simp; omega) fun i hi hw => ?_
  have hb : a + (b - a + i) = b + i := by omega
  have hin : b ≤ b + i ∧ b + i < b + ws.length := by omega
  simp only [List.getElem_take, List.getElem_drop, patch, List.getElem_map, List.getElem_zipIdx,
    Nat.zero_add, hb, hin, and_self, ↓reduceIte, Nat.add_sub_cancel_left]
  simp [hw]

@[simp] theorem Memory.length_read (m : Memory) (a n : Nat) : (Memory.read m a n).length = n := by
  induction n generalizing a with
  | zero => rfl
  | succ n ih => simp [Memory.read, ih]

theorem Memory.getElem_read (m : Memory) (a n i : Nat) (h : i < (Memory.read m a n).length) :
    (Memory.read m a n)[i] = Memory.byte m (a + i) := by
  induction n generalizing a i with
  | zero => cases h
  | succ n ih =>
    cases i with
    | zero => rfl
    | succ i =>
      simp only [Memory.read, List.getElem_cons_succ, ih]
      congr 1
      omega

theorem Memory.read_write {m : Memory} (a : Nat) (bs : List Byte) (h : Memory.wf m = true) :
    Memory.read (Memory.write m a bs) a bs.length = bs := by
  refine List.ext_getElem (by simp) fun i hi hb => ?_
  rw [Memory.getElem_read, Memory.byte_write bs m a _ h, if_pos (by omega)]
  simp [hb]

theorem Memory.word_write {m : Memory} (a : Nat) (v : Word) (h : Memory.wf m = true) :
    Memory.word (Memory.write m a (leBytes 4 v.toNat)) a = v := by
  have := Memory.read_write a (leBytes 4 v.toNat) h
  rw [length_leBytes] at this
  rw [Memory.word, this, word_leBytes]

/-! ### Held lines of other packages (R68, R78) -/

section
variable {s t : State} {c pa : Nat} {r : RemoteLine}

theorem overlay_nil (kd a : Nat) (bs : List Byte) : overlay kd a bs [] = bs := rfl

theorem State.underOwn_none (h : (s.core c).ownStores = []) (l : Loc) (bs : List Byte) :
    s.underOwn c l bs = bs := by
  unfold State.underOwn
  split
  · rw [h, overlay_nil]
  · rfl

theorem RemoteLine.at_of_heldLine (h : s.heldLine c pa = some r) :
    r.core = c ∧ r.line = pa / 64 * 64 := by
  simpa using List.find?_some h

/-- A .glob load answers from the line that the core holds. -/
theorem State.loadFor_held {w : Who} (hw : w.core = c) (h : s.heldLine c pa = some r)
    (ho : (s.core c).ownStores = []) :
    (s.loadFor w 4 (.remote pa)).2 =
      BitVec.ofNat 32 (leNat ((r.data.drop (pa - r.line)).take 4)) := by
  subst hw
  have h5 : ¬(4 : Nat) = 5 := by decide
  simp only [State.loadFor, Loc.homed, Option.isSome_some, ↓reduceIte, if_neg h5, State.loadCached,
    h, State.underOwn_none ho]

/-- A .glnc load answers from the home of the line. -/
theorem State.loadFor_home {w : Who} (hw : w.core = c) (ho : (s.core c).ownStores = [])
    (hf : s.fenced c = false) :
    (s.loadFor w 5 (.remote pa)).2 = Memory.word s.remote pa := by
  subst hw
  have hp : s.fencedPlace w.core (.remote pa) = false := by
    simp [State.fencedPlace, Loc.beside, hf]
  simp only [State.loadFor, Loc.homed, Option.isSome_some, ↓reduceIte, State.loadBytes, hp,
    Bool.false_eq_true, State.underOwn_none ho]
  rfl

theorem Cells.look_map {α β : Type} {g : α → β} {d : α} {f : Nat × α → Nat × α}
    (hk : ∀ e, (f e).1 = e.1) (hg : ∀ e, g (f e).2 = g e.2) (m : Cells α) (k : Nat) :
    g (Cells.look d (m.map f) k) = g (Cells.look d m k) := by
  induction m with
  | nil => rfl
  | cons e m ih =>
    obtain ⟨a, x⟩ := e
    have ha : (f (a, x)).1 = a := hk (a, x)
    simp only [List.map_cons, Cells.look, ha]
    split
    · rfl
    · split
      · exact hg (a, x)
      · exact ih

@[simp] theorem State.dropResv_remoteLines (s : State) (l : Loc) :
    (s.dropResv l).remoteLines = s.remoteLines := by
  unfold State.dropResv
  split
  · rfl
  · split <;> rfl

@[simp] theorem State.dropResv_dies (s : State) (l : Loc) : (s.dropResv l).dies = s.dies := by
  unfold State.dropResv
  split
  · rfl
  · split <;> rfl

@[simp] theorem State.ownStores_dropResv (s : State) (l : Loc) (c : Nat) :
    ((s.dropResv l).core c).ownStores = (s.core c).ownStores := by
  unfold State.dropResv
  split
  · rfl
  · split
    · refine Cells.look_map (g := Core.ownStores) (fun e => ?_) (fun e => ?_) s.cores c
      · split <;> rfl
      · split <;> rfl
    · rfl

/-- What a core's write to another package changes: the memory there, its held lines and the
reservations. -/
theorem State.writeWBy_remote (s : State) (c pa : Nat) (v : Word) :
    s.writeWBy c (.remote pa) v =
      let u := ({ s with remote := Memory.write s.remote pa (leBytes 4 v.toNat) }.unpoison
        (.remote pa) (leBytes 4 v.toNat).length).dropResv (.remote pa)
      { u with remoteLines := u.remoteLines.map fun r =>
          if r.core == c then { r with data := patch r.line r.data pa (leBytes 4 v.toNat) }
          else r } := rfl

section
variable (v : Word)

theorem State.remote_writeWBy :
    (s.writeWBy c (.remote pa) v).remote = Memory.write s.remote pa (leBytes 4 v.toNat) := by
  rw [State.writeWBy_remote]
  exact State.dropResv_remote ..

theorem State.ownStores_writeWBy :
    ((s.writeWBy c (.remote pa) v).core c).ownStores = (s.core c).ownStores := by
  rw [State.writeWBy_remote]
  exact State.ownStores_dropResv ..

theorem State.fenced_congr (h : t.dies = s.dies) : t.fenced c = s.fenced c := by
  simp only [State.fenced, State.paddockOf, State.die, h]

theorem State.fenced_writeWBy : (s.writeWBy c (.remote pa) v).fenced c = s.fenced c := by
  rw [State.writeWBy_remote]
  exact State.fenced_congr (State.dropResv_dies ..)

theorem State.heldLine_writeWBy (h : s.heldLine c pa = some r) :
    (s.writeWBy c (.remote pa) v).heldLine c pa =
      some { r with data := patch r.line r.data pa (leBytes 4 v.toNat) } := by
  have hl : (s.writeWBy c (.remote pa) v).remoteLines = s.remoteLines.map fun r =>
      if r.core == c then { r with data := patch r.line r.data pa (leBytes 4 v.toNat) } else r := by
    rw [State.writeWBy_remote]
    exact congrArg (List.map _) (State.dropResv_remoteLines ..)
  obtain ⟨hc, -⟩ := RemoteLine.at_of_heldLine h
  have hp : ((fun r => r.core == c && r.line == pa / 64 * 64) ∘ fun r =>
      if r.core == c then { r with data := patch r.line r.data pa (leBytes 4 v.toNat) } else r) =
      fun r : RemoteLine => r.core == c && r.line == pa / 64 * 64 := by
    funext r
    simp only [Function.comp]
    split <;> rfl
  have h : s.remoteLines.find? (fun r => r.core == c && r.line == pa / 64 * 64) = some r := h
  simp only [State.heldLine, hl, List.find?_map, hp, h, Option.map_some, hc, BEq.rfl, ↓reduceIte]

end

theorem State.mem_acquireDom {q : RemoteLine} :
    q ∈ (s.acquireDom c).remoteLines ↔ q ∈ s.remoteLines ∧ (q.core = c → q.rro = true) := by
  simp [State.acquireDom, imp_iff_not_or]

end

theorem says_heldLines : Says.HeldLines := by
  intro s c pa r h hd ho hpa held
  obtain ⟨-, hline⟩ := RemoteLine.at_of_heldLine h
  have hoff : pa - r.line = pa % 64 := by omega
  refine ⟨?loads, ?own, fun q => State.mem_acquireDom⟩
  case loads =>
    intro w hw
    refine ⟨?_, fun hf => State.loadFor_home hw ho hf⟩
    rw [State.loadFor_held hw h ho, hoff]
  case own =>
    intro w v hw hf hm t
    have ho' : (t.core c).ownStores = [] := (State.ownStores_writeWBy v).trans ho
    refine ⟨?_, ?_⟩
    · rw [State.loadFor_held hw (State.heldLine_writeWBy v h) ho']
      have hb := take_drop_patch (a := r.line) (b := pa) (bs := r.data) (ws := leBytes 4 v.toNat)
        (by omega) (by rw [length_leBytes]; omega)
      rw [length_leBytes] at hb
      rw [hb, word_leBytes]
    · rw [State.loadFor_home hw ho' ((State.fenced_writeWBy v).trans hf), State.remote_writeWBy]
      exact Memory.word_write pa v hm

/-- Settles O50: an entry that is taken in goes before the others of its TLB, which lets one go
where it is full; a core's write patches its held line as it does the memory. -/
theorem heldCopies : Obligations.HeldCopies := ⟨says_heldTranslations, says_heldLines⟩

end Sys2Proof.Machine
end

section
/-! SUPPORT. Lane exchange, reduction, votes, compression and expansion (R112, R186 to R191). -/

namespace Sys2Proof.Machine

section
variable {s s1 : State} {w : Who} {f : Ny} {x : Nat → Word}

/-! ### What the sources of a lane instruction give (R186 to R188) -/

theorem shufBody_of_src (hx : s.src w f.ty true f.c = .ok (s1, x)) :
    shufBody f w s = .ok (s1.writeDst w f.a fun l =>
      s1.srcLane w f.ty false f.b (shufLane f.md.toNat l ((x l).toNat % 32))) := by
  simp only [shufBody, hx]

theorem bcastBody_of_src (hx : s.src w f.ty true f.c = .ok (s1, x)) :
    bcastBody f w s = .ok (s1.writeDst w f.a fun _ =>
      s1.srcLane w f.ty false f.b ((x 0).toNat % 32)) := by
  simp only [bcastBody, hx]

theorem redBody_of_src (hx : s.src w f.ty false f.b = .ok (s1, x)) :
    redBody f w s = .ok (s1.writeDst w f.a fun _ =>
      redTree f.ty f.md.toNat ((List.range 32).map fun l =>
        if w.on l then x l else idWord f.ty f.md.toNat)) := by
  simp only [redBody, hx]

theorem scanBody_of_src (hx : s.src w f.ty false f.b = .ok (s1, x)) :
    scanBody f w s = .ok (s1.writeDst w f.a fun l =>
      (((scanGo f.ty f.md.toNat x w.lanes (idWord f.ty f.md.toNat)).find? (·.1 == l)).map
        (·.2)).getD 0) := by
  simp only [scanBody, hx]

/-! ### VOTE by its destination (R189) -/

theorem voteBody_ok : voteBody f w s = .ok (match f.a with
    | .special p => s.modSelf w fun t => t.writePred p.toNat
        (fun _ => if f.md = 1 then w.lanes.any (s.truth w f.b) else w.lanes.all (s.truth w f.b))
        w.lanes
    | a => s.writeDst w a fun _ => w.lanes.foldl
        (fun m l => if s.truth w f.b l then m ||| (1#32 <<< l) else m) 0) := by
  unfold voteBody
  cases f.a <;> rfl

/-! ### CMPRS and XPND of a register (R112, R190, R191) -/

section
variable {r : BitVec 6} {sel swz : BitVec 3} {neg abs : Bool} {low : BitVec 5}
  (ha : f.a = .vreg r sel swz neg abs low)
include ha

theorem cmprsBody_vreg :
    let n := (cmprsShape f.md.toNat).1
    let g := (cmprsShape f.md.toNat).2
    let gs := groupsOf g 256 (regElems f.ty (s.srcLane w f.ty false f.b))
    cmprsBody f w s = .ok ((s.writeAll w r.toNat
      (packWords f.ty (gs.flatMap (keptOf f.ty n)))).writeAll w (r.toNat + 1)
        fun l => BitVec.ofNat 32 (packElems g (gs.map (maskOf f.ty n)) / 2 ^ (32 * l))) := by
  simp only [cmprsBody, ha]

theorem xpndBody_vreg :
    let n := (cmprsShape f.md.toNat).1
    let g := (cmprsShape f.md.toNat).2
    let xs := regElems f.ty (s.srcLane w f.ty false f.b)
    let mask := packElems 32 ((List.range 32).map fun l => (s.srcLane w f.ty false f.c l).toNat)
    xpndBody f w s = .ok (s.writeAll w r.toNat (packWords f.ty
      ((List.range (32 * f.ty.perWord / g)).flatMap fun i =>
        xpndGroup n g (mask / 2 ^ (g * i)) ((xs.drop (n * i)).take n)))) := by
  simp only [xpndBody, ha]

end

end

theorem says_laneExchange : Says.LaneExchange := by
  intro f s s1 x
  refine ⟨?byCount, ?byValue, ?vote⟩
  case byCount =>
    intro hx
    exact ⟨fun h => exec_commits rfl h rfl (shufBody_of_src hx),
      fun h => exec_commits rfl h rfl (bcastBody_of_src hx)⟩
  case byValue =>
    intro hx
    exact ⟨fun h => exec_commits rfl h rfl (redBody_of_src hx),
      fun h => exec_commits rfl h rfl (scanBody_of_src hx)⟩
  case vote =>
    intro h
    refine (exec_commits rfl h rfl voteBody_ok).trans ?_
    cases f.a <;> rfl

theorem says_compressExpand : Says.CompressExpand := by
  intro f s r sel swz neg abs low ha n g xs gs mask
  exact ⟨fun h => exec_commits rfl h rfl (cmprsBody_vreg ha),
    fun h => exec_commits rfl h rfl (xpndBody_vreg ha)⟩

/-- Settles O6: each instruction commits what its part answers, a vote by the kind of its
destination and a compression or expansion of the register it names. -/
theorem lanesAndCompression : Obligations.LanesAndCompression :=
  ⟨says_laneExchange, says_compressExpand⟩

end Sys2Proof.Machine
end

section
/-! SUPPORT. The matrix unit's steps and the limiter's (R110, R237, R240, R326 to R328). -/

namespace Sys2Proof.Machine

/-! ### Poison and updates of one core -/

theorem State.modCore_congr {s : State} {c : Nat} {f g : Core → Core}
    (h : f (s.core c) = g (s.core c)) : s.modCore c f = s.modCore c g :=
  congrArg (s.setCore c) h

section
variable {s : State} {c : Nat} (h : s.poison = [])
include h

theorem State.bankPoison_clean (b : Nat) : s.bankPoison c b = none := by
  simp only [State.bankPoison, h, List.find?_nil]

theorem State.cleanBank_clean (b : Nat) : s.cleanBank c b = s := by
  cases s
  cases h
  rfl

theorem State.tilePoison_clean (l : Word) (t : Ty) (sparse : Bool) :
    s.tilePoison c l t sparse = none := by
  simp only [State.tilePoison, h, List.contains_nil, Bool.false_eq_true, ↓reduceIte]
  split
  · rfl
  · exact List.findSome?_eq_none_iff.2 fun _ _ => rfl

end

theorem Core.evBefore_idle {k : Core} (h : k.evq = []) (o : MxOp) : k.evBefore o = false := by
  simp only [Core.evBefore, h, List.any_nil]

/-! ### The head of the matrix queue (R237, R240) -/

/-- The matrix queue of core `c` without its head, of which `rest` is left. -/
def State.popMx (s : State) (c : Nat) (rest : List MxOp) : State :=
  s.modCore c fun k => { k with mx := { k.mx with queue := rest } }

section
variable {s : State} {c : Nat} {o : MxOp} {rest : List MxOp} {flt : List (Nat × Word)}
  (hq : (s.core c).mx.queue = o :: rest)
include hq

theorem State.modCore_pop :
    (s.modCore c fun k => { k with mx := k.mx.pop }) = s.popMx c rest :=
  State.modCore_congr (by simp only [Matrix.pop, hq, List.drop_one, List.tail_cons])

variable (hz : (s.core c).frozen = false) (he : (s.core c).evq = [])
include hz he

theorem exec_matrixInstructionApplied_chbeg {dual : Bool} (ho : o.kind = .chbeg dual) :
    exec (.matrixInstructionApplied c flt) s = .next (s.popMx c rest) := by
  change execMatrixInstructionApplied c flt s = _
  simp only [execMatrixInstructionApplied, hq, hz, Core.evBefore_idle he, ho, Bool.or_self,
    Bool.false_eq_true, ↓reduceIte, State.modCore_pop hq]

variable (hp : s.poison = [])
include hp

theorem exec_matrixInstructionApplied_zero (ho : o.kind = .zero) :
    exec (.matrixInstructionApplied c flt) s = .next (((s.popMx c rest).modCore c fun k =>
      k.modBank o.acc fun b => { b with val := [], shadow := none }).opDone c o.mt o.seq) := by
  change execMatrixInstructionApplied c flt s = _
  simp only [execMatrixInstructionApplied, hq, hz, Core.evBefore_idle he, ho, Bool.or_self,
    Bool.false_eq_true, ↓reduceIte, State.modCore_pop hq]
  rw [State.cleanBank_clean (by exact hp)]

theorem exec_matrixInstructionApplied_fill {off : Nat} (ho : o.kind = .fill off) :
    exec (.matrixInstructionApplied c flt) s = .next (((s.popMx c rest).modCore c fun k =>
      k.modBank o.acc fun b => { b with
        val := bankCells ((List.range 4096).map fun i => Memory.word (s.core c).scratch (off + 4 * i))
        shadow := none }).opDone c o.mt o.seq) := by
  change execMatrixInstructionApplied c flt s = _
  have hclean : ((List.range 4096).map fun i => ErrorSite.scratchWord c (off + 4 * i)).find?
      (fun e => s.poison.contains e) = none := by
    simp only [hp, List.contains_nil]
    exact List.find?_eq_none.2 fun _ _ => Bool.false_ne_true
  simp only [execMatrixInstructionApplied, hq, hz, Core.evBefore_idle he, ho, hclean, Bool.or_self,
    Bool.false_eq_true, ↓reduceIte, State.modCore_pop hq]
  rw [State.cleanBank_clean (by exact hp)]

theorem exec_matrixInstructionApplied_mma {sparse keep : Bool} {t : Ty} {la lb : Word}
    {sa sb : List Word} (ho : o.kind = .mma sparse t la lb sa sb keep) :
    exec (.matrixInstructionApplied c flt) s = .next
      (if o.start && !(s.core c).mx.granted && !(s.core c).mx.down then s.askGrant c
      else ((s.popMx c rest).modCore c fun k =>
        k.applyMma o sparse t la lb sa sb keep flt).opDone c o.mt o.seq) := by
  change execMatrixInstructionApplied c flt s = _
  simp only [execMatrixInstructionApplied, hq, hz, Core.evBefore_idle he, ho, Bool.or_self,
    Bool.false_eq_true, ↓reduceIte, State.tilePoison_clean hp, State.bankPoison_clean hp,
    Option.or_none, State.modCore_pop hq]
  split <;> rfl

theorem exec_mdrainCompletion_drains {bf : Bool} {off : Nat} {tag : BitVec 16}
    (ho : o.kind = .drain bf off tag) (hm : ((s.core c).bank o.acc).mismatch = none) :
    exec (.mdrainCompletion c) s = .next (((s.popMx c rest).writeScratch c off
      (drainWords bf (bankList ((s.core c).bank o.acc).val))).postRecord c
        ⟨0, 0, o.seq, 0, 2, tag⟩) := by
  change execMdrainCompletion c s = _
  simp only [execMdrainCompletion, hq, hz, Core.evBefore_idle he, ho, hm, Bool.or_self,
    Bool.false_eq_true, ↓reduceIte, State.bankPoison_clean hp, State.modCore_pop hq]

end

/-! ### Grants and the ramp (R326 to R328) -/

section
variable {s : State} {c q : Nat}

theorem State.askGrant_joins
    (h : (s.limiters.look [] (quadOf c)).all (·.2 != c) = true) :
    s.askGrant c = { s with
      limiters := s.limiters.put [] (quadOf c)
        (s.limiters.look [] (quadOf c) ++ [(s.nextLimiterStep, c)]) } := by
  have hn : (s.limiters.look [] (quadOf c)).any (·.2 == c) = false := by simpa using h
  simp only [State.askGrant, hn, Bool.false_eq_true, ↓reduceIte]

/-- The state in which a step of the limiter of quadrant `q` has taken the requests `rs` off its
list, before it grants them. -/
def State.serveLimiter (s : State) (q : Nat) (rs : List (Nat × Nat)) : State :=
  { s with
    limiters := s.limiters.put [] q ((s.limiters.look [] q).filter fun r =>
      !rs.contains r && (s.core r.2).wantsGrant)
    limiterAt := s.limiterAt.put 0 q s.nextLimiterStep }

theorem exec_limiterStep_grants (h : s.limiterAt.look 0 q < s.nextLimiterStep) :
    exec (.limiterStep q) s = .next (((s.grantable q).take 2).foldl
      (fun s r => s.modCore r.2 Core.grant) (s.serveLimiter q ((s.grantable q).take 2))) := by
  change execLimiterStep q s = _
  rw [execLimiterStep, if_neg (Nat.not_le.2 h)]
  rfl

theorem exec_limiterStep_again (h : s.nextLimiterStep ≤ s.limiterAt.look 0 q) :
    exec (.limiterStep q) s = .next s :=
  if_pos h

theorem Core.rampDown_cases (k : Core) : ({ k with mx := k.mx.rampDown } : Core) =
    if !k.mx.down then k
    else if k.mx.ramp ≤ 1 then { k with mx := { k.mx with down := false, ramp := 0 } }
    else { k with mx := { k.mx with ramp := k.mx.ramp - 1 } } := by
  cases hd : k.mx.down with
  | false => simp only [Matrix.rampDown, hd, Bool.false_eq_true, ↓reduceIte, Bool.not_false]
  | true =>
    simp only [Matrix.rampDown, hd, ↓reduceIte, Bool.not_true, Bool.false_eq_true]
    split <;> rfl

end

/-- Settles O39: with no poison and an idle event unit the head of the queue is applied by its
kind; the limiter serves a quadrant's requests once for each of its steps. -/
theorem matrixSteps : Obligations.MatrixSteps := by
  intro s c k
  refine ⟨?head, ?ask, ?limiter, ?ramp⟩
  case head =>
    intro o rest flt hq hz he hp popped
    refine ⟨?zero, ?fill, ?chbeg, ?mma, ?drain⟩
    case zero => exact exec_matrixInstructionApplied_zero hq hz he hp
    case fill => exact fun off => exec_matrixInstructionApplied_fill hq hz he hp
    case chbeg => exact fun dual => exec_matrixInstructionApplied_chbeg hq hz he
    case mma => exact fun sp t la lb sa sb kp => exec_matrixInstructionApplied_mma hq hz he hp
    case drain => exact fun bf off tag => exec_mdrainCompletion_drains hq hz he hp
  case ask =>
    rintro q h rfl
    exact State.askGrant_joins h
  case limiter => exact fun q => ⟨exec_limiterStep_grants, exec_limiterStep_again⟩
  case ramp => exact congrArg Host.Outcome.next (State.modCore_congr (s.core c).rampDown_cases)

end Sys2Proof.Machine
end

section
/-! SUPPORT. Partials of reductions at the lines that they are combined with (R109, R250). -/

namespace Sys2Proof.Machine

/-! ### What reductions change, and what leaves it alone -/

/-- What a reduction into DRAM changes: DRAM, what the lines hold and expect, and the partials on
their way. -/
def State.reduced (s : State) : Memory × Cells ReduceLine × List Partial :=
  (s.dram, s.partials, s.partialQ)

section
variable (s : State)

theorem State.reduced_foldl {α : Type} {f : State → α → State} (l : List α)
    (hf : ∀ t a, (f t a).reduced = t.reduced) : (l.foldl f s).reduced = s.reduced :=
  List.foldlRecOn l f (motive := fun t => t.reduced = s.reduced) rfl fun t h a _ => (hf t a).trans h

theorem State.reduced_landStore (x : LateStore) : (s.landStore x).reduced = s.reduced := by
  unfold State.landStore
  split <;> rfl

theorem State.reduced_landAll (c : Nat) (p : LateStore → Bool) :
    (s.landAll c p).reduced = s.reduced := by
  unfold State.landAll
  extract_lets xs
  split
  · exact State.reduced_foldl _ _ State.reduced_landStore
  · rfl

theorem State.reduced_dropEarly (c : Nat) (p : EarlyLoad → Bool) :
    (s.dropEarly c p).reduced = s.reduced := by
  unfold State.dropEarly
  split <;> rfl

theorem State.reduced_settleAgent (a : Word) : (s.settleAgent a).reduced = s.reduced := by
  unfold State.settleAgent
  split
  · exact (State.reduced_dropEarly ..).trans (State.reduced_landAll ..)
  · rfl

theorem State.reduced_stepRegion (a : Word) : (s.stepRegion a).reduced = s.reduced := by
  unfold State.stepRegion
  extract_lets c m
  split <;> rfl

theorem State.reduced_closeRegion (a : Word) : (s.closeRegion a).reduced = s.reduced :=
  (State.reduced_stepRegion _ a).trans (s.reduced_settleAgent a)

theorem State.reduced_closeRec (q : RegionRec) : (s.closeRec q).reduced = s.reduced := by
  unfold State.closeRec
  split
  · exact s.reduced_closeRegion _
  · rfl

variable {s}

/-- The access of a special operation to a line ends regions only. -/
theorem State.reduced_regionAccess {t : State} {a : Word} {rsn : BitVec 16} {engine write : Bool}
    {l : Loc} {n : Nat} (h : s.regionAccess a rsn engine l n write true = .ok t) :
    t.reduced = s.reduced := by
  simp only [State.regionAccess, ↓reduceIte] at h
  split at h
  · cases h
    rfl
  · split at h
    · cases h
      rfl
    · split at h
      · cases h
      · split at h
        · cases h
        · cases h
          exact State.reduced_foldl _ _ State.reduced_closeRec

variable (s)

theorem State.reduced_closesDone (a : Word) : (s.closesDone a).reduced = s.reduced := by
  unfold State.closesDone
  split <;> rfl

theorem State.reduced_sentDoneOn (c : Nat) (pl : Payload) :
    (s.sentDoneOn c pl).reduced = s.reduced := by
  unfold State.sentDoneOn
  extract_lets k
  split
  · exact State.reduced_closesDone _ _
  · rfl

theorem State.reduced_partialDone (p : Partial) : (s.partialDone p).reduced = s.reduced :=
  State.reduced_foldl _ _ fun t c => t.reduced_sentDoneOn c _

theorem State.reduced_leaveAll (w : Waiter) : (s.leaveAll w).reduced = s.reduced := by
  unfold State.leaveAll
  split <;> rfl

/-- A write to DRAM leaves what the lines hold and the partials on their way. -/
theorem State.reduced_writeLoc_dram (a : Nat) (bs : List Byte) :
    (s.writeLoc (.dram a) bs).reduced = (Memory.write s.dram a bs, s.partials, s.partialQ) := by
  unfold State.writeLoc State.dropResv
  split
  · rfl
  · split <;> rfl

end

/-! ### A partial that waits for no region (R83, R374) -/

/-- An engine's access waits for a region whose messages are on their way, or for a special access
that is itself on its way. -/
def State.accessWaits (s : State) (agent : Word) (rsn : BitVec 16) (l : Loc) (n : Nat)
    (write special : Bool) : Bool :=
  match l.line with
  | none => false
  | some (key, b) =>
    !((write || special) && (s.core (agentCore agent)).isTwin) &&
      ((((s.lineRecs key).filter fun q => s.meets agent rsn q &&
          q.hit (lineMask b n) (write || special) != 0).any fun q =>
        !s.acrossPair (agentCore q.agent) (agentCore agent) && s.owes q.agent q.rsn) ||
      s.specialAhead agent l n special)

theorem State.regionAccess_isNone (s : State) (agent : Word) (rsn : BitVec 16) (l : Loc) (n : Nat)
    (write special : Bool) :
    (s.regionAccess agent rsn true l n write special).toOption.isNone =
      s.accessWaits agent rsn l n write special := by
  cases hl : l.line with
  | none => simp only [State.regionAccess, State.accessWaits, hl]; rfl
  | some x =>
    obtain ⟨key, b⟩ := x
    simp only [State.regionAccess, State.accessWaits, hl, Bool.not_true, Bool.false_or]
    cases (write || special) && (s.core (agentCore agent)).isTwin with
    | true => rfl
    | false =>
      simp only [Bool.false_eq_true, ↓reduceIte, Bool.not_false, Bool.true_and, ← List.isSome_find?]
      split
      next q hq => simp only [hq]; rfl
      next hq =>
        simp only [hq]
        cases s.specialAhead agent l n special <;> rfl

/-- Whether a partial waits does not depend on who waits at the channels. -/
theorem State.partialMeets_leaveAll (s : State) (w : Waiter) (p : Partial) :
    (s.leaveAll w).partialMeets p = s.partialMeets p := by
  simp only [State.partialMeets, State.regionAccess_isNone]
  unfold State.leaveAll
  split <;> rfl

/-! ### A partial of one element without a slice (R109, R250) -/

theorem lineLoc_dram {line b : Nat} (h : line % 4 = 0) : lineLoc line b = .dram (line / 4 * 64 + b) := by
  simp only [lineLoc, h]

section
variable {s : State} {n : Nat} {p : Partial}

/-- The state in which partial `n` is taken from those on their way, once whoever waits for its turn
waits at no channel. -/
def State.turnOf (s : State) (n : Nat) (w : Waiter) : State :=
  { s.leaveAll w with partialQ := (s.leaveAll w).partialQ.eraseIdx n }

theorem State.reduced_turnOf (s : State) (n : Nat) (w : Waiter) :
    (s.turnOf n w).reduced = (s.dram, s.partials, s.partialQ.eraseIdx n) := by
  have h := s.reduced_leaveAll w
  simp only [State.reduced, Prod.mk.injEq] at h
  obtain ⟨hd, hl, hq⟩ := h
  simp only [State.reduced, State.turnOf, hd, hl, hq]

/-- A partial without a slice is in its turn, and passes a channel that no one holds. -/
theorem exec_reducePartialArrival_free (hp : s.partialQ[n]? = some p)
    (hf : (s.partialQ.take n).all (fun q => q.line != p.line) = true)
    (hg : s.staleTag p.ctx p.inc = false) (hs : p.slice = none) (hm : s.partialMeets p = false)
    (hc : s.channelHeld ⟨agentId 6 0 p.core, p.line⟩ (lineLoc p.line 0) = false) :
    exec (.reducePartialArrival n) s =
      .next (((s.turnOf n ⟨agentId 6 0 p.core, p.line⟩).applyPartial p).partialDone p) := by
  have hv : s.viaChannels ⟨agentId 6 0 p.core, p.line⟩ [lineLoc p.line 0] =
      .ok (s.leaveAll ⟨agentId 6 0 p.core, p.line⟩) := by
    simp only [State.viaChannels, State.mustQueue, List.any_cons, hc, List.any_nil, Bool.or_self,
      Bool.false_eq_true, ↓reduceIte]
  rw [exec_reducePartialArrival_turn hp hf hg (by simp only [State.expects, hs, Option.all_none]) hv
    ((State.partialMeets_leaveAll ..).trans hm)]
  simp only [State.takePartial, hs, State.turnOf]

/-- One element of a partial is combined with what its line holds in DRAM; lines and partials on their
way stay as they are. -/
theorem State.reduced_applyPartial_one {m : Memory} {ls : Cells ReduceLine} {qs : List Partial}
    {b : Nat} {v : List Byte} (hs : s.reduced = (m, ls, qs)) (hd : p.data = [(b, v)])
    (hl : p.line % 4 = 0) :
    let a := p.line / 4 * 64 + b
    (s.applyPartial p).reduced = (Memory.write m a (leBytes v.length
      (redOp p.ty p.op (leNat (Memory.read m a v.length)) (leNat v))), ls, qs) := by
  have hkeep (t : State) (ht : t.reduced = s.reduced) :
      (t.writeLoc (.dram (p.line / 4 * 64 + b)) (leBytes v.length (redOp p.ty p.op
        (leNat (Memory.read t.dram (p.line / 4 * 64 + b) v.length)) (leNat v)))).reduced =
      (Memory.write m (p.line / 4 * 64 + b) (leBytes v.length
        (redOp p.ty p.op (leNat (Memory.read m (p.line / 4 * 64 + b) v.length)) (leNat v))),
        ls, qs) := by
    rw [hs, State.reduced, Prod.mk.injEq, Prod.mk.injEq] at ht
    obtain ⟨hdram, hlines, hq⟩ := ht
    rw [State.reduced_writeLoc_dram, hdram, hlines, hq]
  simp only [State.applyPartial, hd, List.foldl_cons, List.foldl_nil, lineLoc_dram hl]
  split
  next t ht => exact hkeep t (State.reduced_regionAccess ht)
  next => exact hkeep s rfl

end

theorem says_reducePartials : Says.ReducePartials := by
  intro s n p b v hp hf hi hs hd hv hmem hl hb hm hc l
  have hf : (s.partialQ.take n).all (fun q => q.line != p.line) = true := by simpa using hf
  refine ⟨_, exec_reducePartialArrival_free hp hf (State.staleTag_eq_false.2 hi) hs hm hc, ?_⟩
  have hr := (State.reduced_partialDone _ p).trans
    (State.reduced_applyPartial_one
      (s.reduced_turnOf n ⟨agentId 6 0 p.core, p.line⟩) hd hl)
  rw [State.reduced, Prod.mk.injEq, Prod.mk.injEq, hv] at hr
  obtain ⟨hdram, hlines, hq⟩ := hr
  obtain ⟨hwf, -⟩ := hmem
  refine ⟨hq, hlines, ?value, fun a ha => ?rest⟩
  case value =>
    simp only [l, State.readLoc, hdram]
    have h := Memory.read_write (p.line / 4 * 64 + b) (leBytes 4 (redOp p.ty p.op
      (leNat (Memory.read s.dram (p.line / 4 * 64 + b) 4)) (leNat v))) hwf
    rwa [length_leBytes] at h
  case rest =>
    rw [hdram, Memory.byte_write _ _ _ _ hwf, length_leBytes, if_neg (by omega)]

end Sys2Proof.Machine
end

section
/-! SUPPORT. A copy that is done posts its record and leaves the engine (R86, R227, R249). -/

namespace Sys2Proof.Machine

/-! ### Entries of an array (core records among them) -/

theorem Cells.look_mem {α : Type} {P : α → Prop} {d : α} {m : Cells α} (hd : P d)
    (h : ∀ e ∈ m, P e.2) (k : Nat) : P (Cells.look d m k) := by
  induction m with
  | nil => exact hd
  | cons e t ih =>
    obtain ⟨a, v⟩ := e
    simp only [Cells.look]
    split
    · exact hd
    · split
      · exact h _ List.mem_cons_self
      · exact ih fun e he => h e (List.mem_cons_of_mem _ he)

theorem Cells.forall_upd {α : Type} {P : α → Prop} {m : Cells α} {v : α} (hv : P v)
    (h : ∀ e ∈ m, P e.2) (k : Nat) : ∀ e ∈ Cells.upd m k v, P e.2 := by
  induction m with
  | nil => simpa [Cells.upd] using hv
  | cons e t ih =>
    have ht := fun e he => h e (List.mem_cons_of_mem _ he)
    simp only [Cells.upd]
    split
    · exact List.forall_mem_cons.2 ⟨hv, h⟩
    · split
      · exact List.forall_mem_cons.2 ⟨hv, ht⟩
      · exact List.forall_mem_cons.2 ⟨h _ List.mem_cons_self, ih ht⟩

/-! ### Operations that no step waits for (R364) -/

/-- No micro-thread of the core waits, for the end of its step, for an operation to complete. -/
def Core.Unstepped (k : Core) : Prop := ∀ m, (k.mt m).stepping = []

section
variable {s : State} (h : ∀ e ∈ s.cores, e.2.Unstepped)
include h

theorem State.core_unstepped (c : Nat) : (s.core c).Unstepped := Cells.look_mem (fun _ => rfl) h c

theorem State.unstepped_modCore (c : Nat) {f : Core → Core} (hf : ∀ k, (f k).mts = k.mts) :
    ∀ e ∈ (s.modCore c f).cores, e.2.Unstepped := by
  refine Cells.forall_upd (P := Core.Unstepped) (fun m => ?_) h c
  rw [Core.mt, hf]
  exact State.core_unstepped h c m

/-- An operation that completes ends no step where no step waits for one. -/
theorem State.opDone_unstepped (c m : Nat) (q : BitVec 16) : s.opDone c m q = s := by
  have hm : (s.mt c m).stepping = [] := State.core_unstepped h c m
  have hn : (s.cores.find? fun e => (e.2.mt m).stepping.contains (c, q)) = none :=
    List.find?_eq_none.2 fun e he => by rw [h e he m]; exact Bool.false_ne_true
  simp only [State.opDone, State.stepper, hm, List.contains_nil, Bool.false_eq_true, ↓reduceIte, hn,
    Option.map_none]

theorem State.recordDone_unstepped (c : Nat) (q : BitVec 16) : s.recordDone c q = s :=
  List.foldlRecOn _ _ (motive := fun t => t = s) rfl fun t ht m _ => by
    rw [ht]
    exact State.opDone_unstepped h c m q

/-- An inbox with room takes a record at once (R227). -/
theorem State.postRecord_room {c : Nat} (hi : (s.core c).inbox.length < 32)
    (hp : (s.core c).posting = []) (r : InboxRec) :
    s.postRecord c r = s.modCore c fun k => { k with inbox := k.inbox ++ [r] } := by
  have hroom : (s.core c).inbox.length < 32 ∧ (s.core c).posting.isEmpty = true :=
    ⟨hi, by rw [hp]; rfl⟩
  have hpost : s.modCore c (·.post r) = s.modCore c fun k => { k with inbox := k.inbox ++ [r] } :=
    State.modCore_congr (if_pos hroom)
  simp only [State.postRecord, hroom, and_self, ↓reduceIte, hpost]
  exact State.recordDone_unstepped (State.unstepped_modCore h c
    (f := fun k => { k with inbox := k.inbox ++ [r] }) fun _ => rfl) c r.seq

end

/-! ### The parts of a completion (R215, R227) -/

section
variable {s : State} {c i : Nat} {o : CopyOp}

/-- A copy that advances no handle only comes to the next part. -/
theorem State.copyAdvance_none (hq : o.queue = none) :
    ∃ g, s.copyAdvance c o = (s, { o with stage := g }) := by
  unfold State.copyAdvance
  split
  next => exact ⟨2, rfl⟩
  next key port h _ => cases hq.symm.trans h
  next port h _ => cases hq.symm.trans h
  next => exact ⟨o.stage, rfl⟩

/-- A copy with no counter writes no count of rows. -/
theorem State.copyCount_none (hc : o.req.cmpl = false) :
    ∃ g, s.copyCount c o = .ok (s, { o with stage := g }) := by
  simp only [State.copyCount, hc, Bool.false_and, Bool.false_eq_true, ↓reduceIte]
  split
  · exact ⟨3, rfl⟩
  · exact ⟨o.stage, rfl⟩

/-- A plain copy with no counter posts a record of kind 0. -/
theorem State.copyPost_record (hc : o.req.cmpl = false) (hm : o.mask = none) (hs : o.status = 0) :
    s.copyPost c o = .ok (s.postRecord c ⟨0, 0, o.seq, 0, 0, o.req.w3.setWidth 16⟩, o) := by
  simp [State.copyPost, CopyReq.tag, hc, hm, hs]

/-- A copy without a handle, a gather or a counter has only its record to post. -/
theorem State.completeCopy_records (hq : o.queue = none) (hc : o.req.cmpl = false)
    (hm : o.mask = none) (hs : o.status = 0) (hw : s.owes (agentId 3 o.mt c) o.seq = false) :
    s.completeCopy c i o =
      (s.postRecord c ⟨0, 0, o.seq, 0, 0, o.req.w3.setWidth 16⟩).retireCopy c i o := by
  obtain ⟨g, hadv⟩ := s.copyAdvance_none (c := c) hq
  obtain ⟨g', hcount⟩ := s.copyCount_none (c := c) (o := { o with stage := g }) hc
  have hpost := s.copyPost_record (c := c) (o := { o with stage := g' }) hc hm hs
  simp only [State.completeCopy, hadv, CopyOp.agent, hw, Bool.false_eq_true, ↓reduceIte, hcount, hpost]
  rfl

/-- A copy without a stream, a group or a counter that has not failed gives back its records and its
place. -/
theorem State.retireCopy_plain (hs : o.status = 0) (hst : o.stream = none) (hg : o.grp = 0)
    (hc : o.req.cmpl = false) :
    s.retireCopy c i o = (s.closeEngine (o.agent c) o.seq).modCore c fun k =>
      ({ k with copies := k.copies.eraseIdx i }).pullFifo := by
  simp only [State.retireCopy, hs, State.endStream, hst, State.dropCopyGroup, State.dropGroup, hg, hc,
    ↓reduceIte, Bool.false_eq_true]

end

@[simp] theorem State.core_closeEngine (s : State) (a : Word) (q : BitVec 16) (c : Nat) :
    (s.closeEngine a q).core c = s.core c := rfl

theorem Core.pullFifo_empty {k : Core} (h : k.fifo = []) : k.pullFifo = k := by
  cases k
  cases h
  simp only [Core.pullFifo, List.take_nil, List.drop_nil, List.append_nil, ite_self]

/-- The record is in the inbox and the copy has left the engine. -/
theorem core_copyCompletion {s : State} {c i : Nat} {o : CopyOp}
    (ho : (s.core c).copies[i]? = some o) (hd : s.copyDone c o = true) (hc : o.req.cmpl = false)
    (hm : o.mask = none) (hst : o.stream = none) (hq : o.queue = none) (hg : o.grp = 0)
    (hs : o.status = 0) (hi : (s.core c).inbox.length < 32) (hp : (s.core c).posting = [])
    (hf : (s.core c).fifo = []) (hu : ∀ e ∈ s.cores, e.2.Unstepped) :
    ∃ t, exec (.copyCompletion c i) s = .next t ∧ t.core c =
      { s.core c with
        inbox := (s.core c).inbox ++ [⟨0, 0, o.seq, 0, 0, o.req.w3.setWidth 16⟩]
        copies := (s.core c).copies.eraseIdx i } := by
  obtain ⟨-, -, hw⟩ := State.copyDone_iff.1 hd
  refine ⟨_, (exec_copyCompletion ho).trans (congrArg _ (if_pos hd)), ?_⟩
  rw [State.completeCopy_records hq hc hm hs hw, State.postRecord_room hu hi hp,
    State.retireCopy_plain hs hst hg hc, State.core_modCore, State.core_closeEngine,
    State.core_modCore, Core.pullFifo_empty (by exact hf)]

end Sys2Proof.Machine
end

section
/-! SUPPORT. A step of a copy between places of the core's scratchpad (R248, R249). -/

namespace Sys2Proof.Machine

/-! ### What leaves the scratchpads alone -/

section
variable {s : State} {c : Nat}

theorem State.scratch_modCore {d : Nat} {f : Core → Core} (hf : ∀ k, (f k).scratch = k.scratch) :
    ((s.modCore d f).core c).scratch = (s.core c).scratch := by
  by_cases h : c = d
  · subst h
    rw [State.core_modCore, hf]
  · rw [State.core_modCore_ne _ _ _ _ h]

theorem State.core_foldl {α : Type} {f : State → α → State} (l : List α)
    (hf : ∀ t a, (f t a).core c = t.core c) : (l.foldl f s).core c = s.core c :=
  List.foldlRecOn l f (motive := fun t : State => t.core c = s.core c) rfl fun t h a _ => (hf t a).trans h

theorem State.core_leaveChan (w : Waiter) (ch : Nat) : (s.leaveChan w ch).core c = s.core c := by
  unfold State.leaveChan
  split <;> rfl

theorem State.core_leaveServed (d : Nat) (o : CopyOp) (chs : List Nat) :
    (s.leaveServed d o chs).core c = s.core c :=
  State.core_foldl _ fun _ _ => State.core_leaveChan ..

theorem State.core_injectFor (who : Option Word) (p : Packet) :
    (s.injectFor who p).core c = s.core c := by
  unfold State.injectFor
  extract_lets f p s'
  split <;> rfl

theorem State.scratch_sendAs (who : Option Word) (d dst cls grp gen : Nat) (pl : Payload) :
    ((s.sendAs who d dst cls grp gen pl).core c).scratch = (s.core c).scratch := by
  unfold State.sendAs
  extract_lets k tag s1 s2
  have h1 : (s1.core c).scratch = (s.core c).scratch := by
    unfold s1
    split
    · exact State.scratch_modCore fun _ => rfl
    · rfl
  have h2 : (s2.core c).scratch = (s1.core c).scratch := by
    unfold s2
    split
    · exact State.scratch_modCore fun _ => rfl
    · rfl
  rw [State.core_injectFor, h2, h1]

theorem State.scratch_sendFor (a : Word) (rsn : BitVec 16) (d dst grp gen : Nat) (pl : Payload) :
    ((s.sendFor a rsn d dst grp gen pl).core c).scratch = (s.core c).scratch :=
  (State.scratch_sendAs ..).trans (State.scratch_modCore fun _ => rfl)

theorem State.scratch_sendPartials (d : Nat) (o : CopyOp) (t : Ty) :
    ((s.sendPartials d o t).core c).scratch = (s.core c).scratch := by
  unfold State.sendPartials
  exact List.foldlRecOn _ _ (motive := fun u : State => (u.core c).scratch = (s.core c).scratch) rfl
    fun u h p _ => (State.scratch_sendFor ..).trans h

theorem State.scratch_postStream (d : Nat) (o : CopyOp) (ws : List Word) :
    ((s.postStream d o ws).core c).scratch = (s.core c).scratch := by
  unfold State.postStream
  split
  · rfl
  · exact State.scratch_modCore fun _ => rfl

theorem State.scratch_writeLoc (a : Nat) (bs : List Byte) :
    ((s.writeLoc (.scratch c a) bs).core c).scratch = Memory.write (s.core c).scratch a bs :=
  congrArg Core.scratch (s.core_modCore c fun k => { k with scratch := Memory.write k.scratch a bs })

theorem State.scratch_setCopy (d i : Nat) (o : CopyOp) :
    ((s.modCore d (·.setCopy i o)).core c).scratch = (s.core c).scratch :=
  State.scratch_modCore fun _ => rfl

/-- A step of the walk that waits for no channel and goes through leaves the scratchpads as its move
has them. -/
theorem State.scratch_stepCopy {e i n : Nat} {o : CopyOp} {d : Desc} {t : Ty}
    (hn : o.pick (s.core e).pair.isSome (Config.copyPick s.free) = n)
    (hq : s.mustQueue (o.waiter e)
      ((if o.req.dir then o.sharing d t n else [n]).map (s.stepReads e o d t)).flatten = false)
    (hw : (s.stepWrites e o d t n).any s.refreshing = false)
    (hf : (s.moveStep e o d t n).fail = none) :
    ((s.stepCopy e i o d t).core c).scratch = ((s.moveStep e o d t n).s.core c).scratch := by
  unfold State.stepCopy
  rw [hn]
  extract_lets n' steps places m rest o1 chs
  rw [if_neg (Bool.eq_false_iff.1 hq), if_neg (Bool.eq_false_iff.1 hw)]
  split
  next h => cases hf.symm.trans h
  next =>
    extract_lets o2 r w src o3 s1
    have hs1 : (s1.core c).scratch = (m.s.core c).scratch :=
      (State.scratch_postStream ..).trans (congrArg Core.scratch (State.core_leaveServed ..))
    split
    · exact (State.scratch_setCopy ..).trans hs1
    · exact (State.scratch_setCopy ..).trans ((State.scratch_sendPartials ..).trans hs1)

end

/-! ### Plain copies inside a scratchpad -/

/-- The request is a plain copy from the scratchpad to the scratchpad: OPC, DIR and SWZ are 0, both
spaces are .core (R247). -/
structure CopyReq.Plain (r : CopyReq) : Prop where
  opc : r.opc = 0
  dir : r.dir = false
  sspc : r.sspc = 1
  dspc : r.dspc = 1
  swz : r.swz = false

theorem CopyReq.plain_of_w0 {r : CopyReq} (h : r.w0 = 0x120#64) : r.Plain := by
  constructor <;> simp only [CopyReq.opc, CopyReq.dir, CopyReq.sspc, CopyReq.dspc, CopyReq.swz, h] <;>
    decide

namespace CopyReq.Plain
variable {r : CopyReq} (h : r.Plain)
include h

theorem isRed : r.isRed = false := by
  simp only [CopyReq.isRed, h.opc]
  rfl

theorem dadr (off : Nat) : r.dadr off = ((r.w2.toNat + off : Nat) : Int) := by
  simp [CopyReq.dadr, CopyReq.denseSpc, h.opc, h.dir, h.dspc, h.swz]

end CopyReq.Plain

/-- A step of the walk moves one element of 32 bits where the destination begins at a word. -/
theorem CopyOp.span_b32 {o : CopyOp} {d : Desc} {n : Nat} (ha : o.req.w2.toNat % 4 = 0)
    (hn : n < o.elems d) : o.span d .b32 n = (4 * n, 4 * n + 4, [n]) := by
  have hl : o.req.lead = 0 := by simp only [CopyReq.lead, ha, ite_self]
  have hz : elemSize .b32 = 4 := rfl
  have hmin : min (4 * n + 4) (o.elems d * 4) = 4 * n + 4 := by omega
  have h1 : (4 * n + 4 + 4 - 1) / 4 = n + 1 := by omega
  have h2 : 4 * n / 4 = n := by omega
  simp only [CopyOp.span, hl, hz, Nat.sub_zero, hmin, h1, h2, List.range_succ]
  rw [List.drop_append_of_le_length (by simp), List.drop_eq_nil_of_le (by simp), List.nil_append]

section
variable {s : State} {c : Nat} {o : CopyOp}

theorem State.enginePlace_scratch {a : Acc} {x : Int} {n : Nat} (h0 : 0 ≤ x) (hn : x + n ≤ 0x80000) :
    s.enginePlace c 1 a x n = .ok (.scratch c x.toNat) := by
  have hin : 0 ≤ x ∧ x + n ≤ (if 1 = 3 then 0x1F80000 else spaceSize 1) := ⟨h0, hn⟩
  rw [State.enginePlace, if_neg (by decide), if_pos hin]
  rfl

/-- A core reaches its own scratchpad past every fence (R384). -/
theorem State.fencedPlace_scratch (off : Nat) : s.fencedPlace c (.scratch c off) = false := by
  simp only [State.fencedPlace, Loc.beside, BEq.rfl, Bool.and_self, Bool.not_true, Bool.and_false]

theorem State.poisoned_clean (h : s.poison = []) (l : Loc) : s.poisoned l = false := by
  unfold State.poisoned
  split
  · rw [h]
    rfl
  · rfl

/-- Scratchpad bytes belong to no line, so that no region meets an access to them (R373). -/
theorem State.engineRegion_scratch (write : Bool) (e off n : Nat) :
    s.engineRegion c o write [(.scratch e off, n)] = .ok s := rfl

variable {d : Desc} {n : Nat}

theorem State.tensorBytes_scratch (hr : o.req.Plain) (hp : s.poison = [])
    (hb : Desc.inBounds d (o.coords d n) = true) (h0 : 0 ≤ Desc.taddr d 4 (o.coords d n))
    (hs : Desc.taddr d 4 (o.coords d n) + 4 ≤ 0x80000) :
    s.tensorBytes c o d .b32 n =
      .ok (s, Memory.read (s.core c).scratch (Desc.taddr d 4 (o.coords d n)).toNat 4) := by
  have hz : elemSize .b32 = 4 := rfl
  simp only [State.tensorBytes, hz, hb, ↓reduceIte, hr.sspc, State.enginePlace_scratch h0 hs,
    State.engineRead, List.any_cons, List.any_nil, State.poisoned_clean hp,
    State.fencedPlace_scratch, Bool.or_self, Bool.false_eq_true, State.engineRegion_scratch]
  rfl

/-- The four bytes of a word go to their place together. -/
theorem State.writeWordAt_scratch (hr : o.req.Plain) (hp : (s.core c).pair = none) {x : Nat}
    (hx : x + 4 ≤ 0x80000) (b0 b1 b2 b3 : Byte) :
    s.writeWordAt c o 1 x [(0, b0), (1, b1), (2, b2), (3, b3)] =
      .ok (s.writeLoc (.scratch c x) [b0, b1, b2, b3]) := by
  have hpl : s.enginePlace c 1 .write x 4 = .ok (.scratch c x) :=
    State.enginePlace_scratch (Int.natCast_nonneg x) (by omega)
  have hn : (([(0, b0), (1, b1), (2, b2), (3, b3)] : Cells Byte).getLast?.map (·.1 + 1)).getD 0 = 4 := rfl
  have hsolid : solid [(0, b0), (1, b1), (2, b2), (3, b3)] = true := rfl
  simp only [State.writeWordAt, hr.opc, zero_ne_one, ↓reduceIte, hn, hpl, State.fencedPlace_scratch,
    Bool.false_eq_true, hsolid, State.engineRegion_scratch, State.writeParts, State.engineWrite, hp,
    Except.map, List.map_cons, List.map_nil]

/-- An element of 32 bits gives the four bytes of its place in the dense box. -/
theorem State.gatherIn_word {b0 b1 b2 b3 : Byte}
    (h : s.tensorBytes c o d .b32 n = .ok (s, [b0, b1, b2, b3])) :
    s.gatherIn c o d .b32 (4 * n) (4 * n + 4) [n] =
      (s, [(4 * n, b0), (4 * n + 1, b1), (4 * n + 2, b2), (4 * n + 3, b3)], none) := by
  have hz : elemSize .b32 = 4 := rfl
  have hlo : max (4 * n) (n * 4) = 4 * n := by omega
  have hdrop : 4 * n - n * 4 = 0 := by omega
  have htake : min (4 * n + 4) (n * 4 + 4) - 4 * n = 4 := by omega
  simp only [State.gatherIn, h, hz, hlo, hdrop, htake]
  rfl

theorem State.moveIn_word (hr : o.req.Plain) (hp : (s.core c).pair = none) {b0 b1 b2 b3 : Byte}
    (h : s.tensorBytes c o d .b32 n = .ok (s, [b0, b1, b2, b3]))
    (hd : o.req.w2.toNat + 4 * n + 4 ≤ 0x80000) :
    s.moveIn c o d .b32 (4 * n) (4 * n + 4) [n] =
      ⟨s.writeLoc (.scratch c (o.req.w2.toNat + 4 * n)) [b0, b1, b2, b3], [b0, b1, b2, b3], [], [],
        none⟩ := by
  simp only [State.moveIn, State.gatherIn_word h, List.map_cons, List.map_nil, Nat.sub_self,
    Nat.add_sub_cancel_left, hr.dspc, hr.dadr, State.writeWordAt_scratch hr hp hd]

theorem State.moveStep_scratch (hr : o.req.Plain) (hp : s.poison = [])
    (hpair : (s.core c).pair = none) (ha : o.req.w2.toNat % 4 = 0) (hn : n < o.elems d)
    (hb : Desc.inBounds d (o.coords d n) = true) (h0 : 0 ≤ Desc.taddr d 4 (o.coords d n))
    (hs : Desc.taddr d 4 (o.coords d n) + 4 ≤ 0x80000) (hd : o.req.w2.toNat + 4 * n + 4 ≤ 0x80000) :
    let bs := Memory.read (s.core c).scratch (Desc.taddr d 4 (o.coords d n)).toNat 4
    s.moveStep c o d .b32 n =
      ⟨s.writeLoc (.scratch c (o.req.w2.toNat + 4 * n)) bs, bs, [], [n], none⟩ := by
  have hin := State.moveIn_word hr hpair (State.tensorBytes_scratch hr hp hb h0 hs) hd
  simp only [State.moveStep, hr.dir, Bool.false_eq_true, ↓reduceIte, CopyOp.span_b32 ha hn, hin]
  rfl

/-- The place of an element in the scratchpad lies at no channel (R340). -/
theorem State.stepReads_scratch (hr : o.req.Plain) (ha : o.req.w2.toNat % 4 = 0) (hn : n < o.elems d)
    (hb : Desc.inBounds d (o.coords d n) = true) (h0 : 0 ≤ Desc.taddr d 4 (o.coords d n))
    (hs : Desc.taddr d 4 (o.coords d n) + 4 ≤ 0x80000) :
    s.stepReads c o d .b32 n = [.scratch c (Desc.taddr d 4 (o.coords d n)).toNat] := by
  have hz : elemSize .b32 = 4 := rfl
  simp only [State.stepReads, hr.dir, Bool.false_eq_true, ↓reduceIte, CopyOp.span_b32 ha hn, hz,
    List.filterMap_cons, List.filterMap_nil, hb, hr.sspc, State.enginePlace_scratch h0 hs]
  rfl

theorem State.stepWrites_scratch (hr : o.req.Plain) (hpair : (s.core c).pair = none)
    (ha : o.req.w2.toNat % 4 = 0) (hn : n < o.elems d) (hd : o.req.w2.toNat + 4 * n + 4 ≤ 0x80000) :
    s.stepWrites c o d .b32 n = some (.scratch c (o.req.w2.toNat + 4 * n)) := by
  have hpl : s.enginePlace c 1 .write (o.req.w2.toNat + 4 * n : Nat) 1 =
      .ok (.scratch c (o.req.w2.toNat + 4 * n)) :=
    State.enginePlace_scratch (Int.natCast_nonneg _) (by omega)
  simp only [State.stepWrites, hr.opc, hr.isRed, hpair, hr.dir, hr.dspc, Bool.false_eq_true,
    ↓reduceIte, CopyOp.span_b32 ha hn, hr.dadr]
  exact (if_neg (by decide)).trans (congrArg Except.toOption hpl)

end

theorem CopyOp.pick_range {o : CopyOp} (ha : o.ahead = []) (hn : o.next < o.total) (v : Nat) :
    o.pick false v < o.total := by
  have := Nat.mod_lt v (Nat.sub_pos_of_lt hn)
  simp only [CopyOp.pick, ha, List.any_nil, Bool.false_eq_true, ↓reduceIte]
  omega

theorem Memory.getD_read {m : Memory} {a n i : Nat} (h : i < n) :
    (Memory.read m a n).getD i 0 = Memory.byte m (a + i) := by
  have hi : i < (Memory.read m a n).length := by rwa [Memory.length_read]
  rw [List.getD_eq_getElem _ _ hi, Memory.getElem_read]

/-- A step of such a copy writes the bytes of its element into the scratchpad, and no other byte. -/
theorem State.scratch_stepCopy_plain {s : State} {c i n : Nat} {o : CopyOp} {d : Desc}
    (hr : o.req.Plain) (hp : s.poison = []) (hpair : (s.core c).pair = none)
    (hpick : o.pick false (Config.copyPick s.free) = n) (ha : o.req.w2.toNat % 4 = 0)
    (hn : n < o.elems d) (hb : Desc.inBounds d (o.coords d n) = true)
    (h0 : 0 ≤ Desc.taddr d 4 (o.coords d n)) (hs : Desc.taddr d 4 (o.coords d n) + 4 ≤ 0x80000)
    (hd : o.req.w2.toNat + 4 * n + 4 ≤ 0x80000) :
    ((s.stepCopy c i o d .b32).core c).scratch = Memory.write (s.core c).scratch
      (o.req.w2.toNat + 4 * n)
      (Memory.read (s.core c).scratch (Desc.taddr d 4 (o.coords d n)).toNat 4) := by
  have hmove := State.moveStep_scratch hr hp hpair ha hn hb h0 hs hd
  have hq : s.mustQueue (o.waiter c) ((if o.req.dir then o.sharing d .b32 n else [n]).map
      (s.stepReads c o d .b32)).flatten = false := by
    simp only [hr.dir, Bool.false_eq_true, ↓reduceIte, List.map_cons, List.map_nil,
      State.stepReads_scratch hr ha hn hb h0 hs]
    rfl
  have hw : (s.stepWrites c o d .b32 n).any s.refreshing = false := by
    rw [State.stepWrites_scratch hr hpair ha hn hd]
    rfl
  rw [State.scratch_stepCopy (by rw [hpair]; exact hpick) hq hw (by rw [hmove]), hmove]
  exact State.scratch_writeLoc ..

theorem says_copyResults : Says.CopyResults := by
  intro s c i o d k ho hst hd
  refine ⟨?element, ?record⟩
  case element =>
    intro ht hw0 _ _ hpair hwf hp _ hnext htotal hahead ha n src dst hb h0 hs hdst
    have hn : n < o.elems d := htotal ▸ CopyOp.pick_range hahead hnext _
    refine ⟨_, exec_copyElementComplete_walks ho hst hd ht hnext, fun a => ?_⟩
    rw [State.scratch_stepCopy_plain (n := n) (CopyReq.plain_of_w0 hw0) hp hpair rfl ha hn hb h0 hs
      hdst, Memory.byte_write _ _ _ _ hwf, Memory.length_read]
    refine ite_congr rfl (fun hin => ?_) fun _ => rfl
    exact Memory.getD_read (by omega)
  case record =>
    intro hc hm hstr hq hg hs hdone hw hi hp hf hu
    obtain ⟨t, ht, hcore⟩ := core_copyCompletion ho (State.copyDone_iff.2 ⟨hst, hdone, hw⟩) hc hm
      hstr hq hg hs hi hp hf hu
    exact ⟨t, ht, congrArg Core.inbox hcore, congrArg Core.copies hcore⟩

/-- Settles O41: the step of a plain copy moves one word from scratchpad to scratchpad, the completion
has only its record to post, and the arrival of a partial is one write to its line. -/
theorem copyResults : Obligations.CopyResults := ⟨says_copyResults, says_reducePartials⟩

end Sys2Proof.Machine
end

section
/-! SUPPORT. Words of micro-thread instructions, the opcode map and the guard (R118, R119, R123, R125,
R131). -/

namespace Sys2Proof

/-! ### The fields of an encoded word (R118, R125) -/

/-- Whatever the kind of the operand, each part of its field is read where it was put. -/
theorem Operand.ofBits_toBits (o : Operand) : .ofBits o.toBits = o := by
  cases o <;>
    simp (disch := decide) only [toBits, ofBits, BitVec.extractLsb'_append_eq_of_le,
      BitVec.extractLsb'_append_eq_of_add_le, BitVec.extractLsb'_eq_self, BitVec.getLsbD_append,
      BitVec.getLsbD_ofBool, BitVec.reduceToNat, BitVec.ofNat_eq_ofNat, Nat.reduceSub, Nat.reduceLT,
      ↓reduceIte, decide_true, Bool.true_and]

theorem Ty.ofCode_code (t : Ty) : Ty.ofCode (BitVec.ofNat 4 t.code).toNat = some t := by
  cases t <;> rfl

namespace Ny

variable (op : Nat) (f : Ny)

theorem op_toWord : (f.toWord op).op = BitVec.ofNat 10 op := by
  simp (disch := decide) only [toWord, IWord.op, BitVec.extractLsb'_append_eq_of_le]
  exact BitVec.extractLsb'_eq_self

theorem ty_toWord : (f.toWord op).ty = BitVec.ofNat 4 f.ty.code := by
  simp (disch := decide) only [toWord, IWord.ty, BitVec.extractLsb'_append_eq_of_le,
    BitVec.extractLsb'_append_eq_of_add_le]
  exact BitVec.extractLsb'_eq_self

theorem fields_toWord : (f.toWord op).fields f.ty = f := by
  simp (disch := decide) only [toWord, IWord.fields, BitVec.extractLsb'_append_eq_of_le,
    BitVec.extractLsb'_append_eq_of_add_le, BitVec.getLsbD_append]
  simp [Operand.ofBits_toBits]

end Ny

/-! ### The opcode map (R119) -/

theorem opRow0_isSome (n : Nat) : (opRow0 n).isSome = true ↔ n < 0x23 := by
  fun_cases opRow0 n with
  | case36 => grind
  | _ => simp

theorem opRow1_isSome (n : Nat) :
    (opRow1 n).isSome = true ↔ 0x80 ≤ n ∧ n < 0x8E ∨ 0x100 ≤ n ∧ n < 0x112 := by
  fun_cases opRow1 n with
  | case33 => grind
  | _ => simp

theorem opRow2_isSome (n : Nat) : (opRow2 n).isSome = true ↔ 0x180 ≤ n ∧ n < 0x192 := by
  fun_cases opRow2 n with
  | case19 => grind
  | _ => simp

theorem opRow3_isSome (n : Nat) :
    (opRow3 n).isSome = true ↔ 0x200 ≤ n ∧ n < 0x20F ∨ 0x280 ≤ n ∧ n < 0x28F := by
  fun_cases opRow3 n with
  | case31 => grind
  | _ => simp

theorem opRow4_isSome (n : Nat) :
    (opRow4 n).isSome = true ↔ 0x300 ≤ n ∧ n < 0x30A ∨ 0x380 ≤ n ∧ n < 0x390 := by
  fun_cases opRow4 n with
  | case27 => grind
  | _ => simp

theorem opRow_isSome {op : Nat} (h : op < 1024) : (opRow op).isSome = true ↔
    op % 128 < [0x23, 0x0E, 0x12, 0x12, 0x0F, 0x0F, 0x0A, 0x10].getD (op / 128) 0 := by
  have hc : op / 128 < 8 := by omega
  unfold opRow
  interval_cases hq : op / 128
  all_goals
    simp only [opRow0_isSome, opRow1_isSome, opRow2_isSome, opRow3_isSome, opRow4_isSome,
      List.getD_cons_zero, List.getD_cons_succ]
    omega

theorem opRow_of_le {op : Nat} (h : 1024 ≤ op) : opRow op = none := by
  unfold opRow
  split
  case h_9 => rfl
  all_goals omega

theorem decodeNy_unassigned {w : IWord} (h : opRow w.op.toNat = none) :
    decodeNy w = .ok (.unassignedOpcode w) := by
  simp only [decodeNy, h]

/-! ### Decoding what was encoded (R118, R119, R131) -/

open Laws.OfNy in
/-- Every constructor has its law in the family OfNy. -/
theorem Laws.ofNy (i : Instr) : Laws.OfNy.Statement i :=
  i.casesOn
    nop mov sel iadd isub imul imulh imad imin imax iabs ineg iadds isubs shl shr sar rot and or
    xor andn not clz ffs popc brev bfx bfi icmp pand por pxor pnot lea fadd fsub fmul ffma fmin
    fmax fcmp fclass frnd cvt qnt dqnt sclf fdot rcp rsq sqrt exp2 log2 sin cos tanh sigm l6add
    l6mul shuf bcast red scan vote cmprs xpnd bra brx bfetch loop rep stop yield lnkw lnkr ctsig
    ctwait trap brkp gang ungang sleep twait time ld st ldx stx pref hbind advp advc qbind qdrop
    ldf fbclr stsb wback inval atom cas atred fence acq rel bar bara barw cwait cadd inbx inbp
    ticket roleq mma mmas mzero mfill mdrain chbeg chend spfence cpy cpyg ncfg nint nleak nfire
    evsend evrecv rsort rsend rrecv racc rmarg rgrad rwtab csrr csrw tqcfg sow soww mtstat mtstop
    mtrel cmdq cmdqnb ctinbx ctcwait cttick actfire bindld incarn reclaim
    waitingInstructionCompletes ctStallCompletes microthreadIdle firingStart footprintFill
    stageRebalance trapInterruptTaken mtresume ctxidCtxWrite nbvWrite registerWrite
    matrixInstructionApplied mdrainCompletion limiterStep copyElementComplete copyCompletion
    eventUnitAction rgradCompletion tqArrival rankMessageArrival reducePartialArrival
    barrierArrival barrierRelease sleepDeadline twaitDeadline fabricMessageArrival ackArrival
    retry retryResend reject resendTimeout escapeTimeout pairedMessageArrival twinTimeout
    linkFlitCrcFail trapRecordArrival trrheadWrite lqdb launchQueueEntryRead childLaunchAdmit
    nodeNotification readyPriorityAging distributorPlace launchCoreStart endOfPart nodeComplete
    terminationSweep migreqGo migrationStream migrationSwitch paddockDefine paddockKill
    killedLaunchDrained paddockUnfence uncorrectableError correctedError undervoltStepUp spareBind
    lockstepMismatch cpResume incarnationSweep budgetTick hopEnd dramRefresh dramRefreshEnd
    coreGate wakeRequest wakeComplete droopDetect droopEnd packageReset attestationRequest
    controlThreadRiscvInstruction unassignedOpcode rampDownEnd gatingEntryEnd trrbaseWrite
    inboundDma applicationCoreAccess uvctlLockClear

theorem exists_opRow_of_checkNy {op : Nat} {f : Ny} (h : checkNy op f = none) :
    ∃ row, opRow op = some row := by
  unfold checkNy at h
  split at h
  · cases h
  · exact ⟨_, ‹_›⟩

section

variable {i : Instr} {op : Nat} {f : Ny}

theorem Instr.checkNy_of_wf (hny : i.ny? = some (op, f)) (hwf : i.wf = true) :
    checkNy op f = none := by
  simpa only [Instr.wf, hny, beq_iff_eq] using hwf

/-- The word carries the opcode and the fields, which passed every check of R131 already. -/
theorem decodeNy_toWord (hny : i.ny? = some (op, f)) (hwf : i.wf = true) :
    decodeNy (f.toWord op) = .ok i := by
  have hck := Instr.checkNy_of_wf hny hwf
  obtain ⟨row, hrow⟩ := exists_opRow_of_checkNy hck
  have hlt : op < 1024 := by
    by_contra hge
    exact Option.some_ne_none row (hrow.symm.trans (opRow_of_le (Nat.le_of_not_lt hge)))
  have hop : (f.toWord op).op.toNat = op := by
    rw [Ny.op_toWord, BitVec.toNat_ofNat, Nat.mod_eq_of_lt hlt]
  simp only [decodeNy, hop, hrow, Ny.ty_toWord, Ty.ofCode_code, Ny.fields_toWord, hck,
    Laws.ofNy i op f hny]

end

/-- Settles O53: every field is read where it was put, the checks are those of well-formedness, and the
opcode names its instruction. -/
theorem nyDecodeEncode : Obligations.NyDecodeEncode := fun _ _ _ hny hwf => decodeNy_toWord hny hwf

theorem decodeNy_of_toWord_eq {i : Instr} {op : Nat} {f : Ny} {w : IWord}
    (hny : i.ny? = some (op, f)) (hwf : i.wf = true) (hw : f.toWord op = w) : decodeNy w = .ok i :=
  hw ▸ decodeNy_toWord hny hwf

/-- Settles O55: each word is the encoding of its instruction, which is well formed. -/
theorem decodeWords : Obligations.DecodeWords := by
  refine ⟨?_, ?_, ?_, ?_, ?_, ?_⟩
  all_goals exact decodeNy_of_toWord_eq rfl (by decide) (by decide)

end Sys2Proof

namespace Sys2Proof.Machine

/-! ### Unassigned opcodes and the guard (R119, R123) -/

theorem State.issueTrap_alone {s : State} (h : s.cur.gang = none) (e : Exn) (w : IWord) :
    s.issueTrap e w = s.takeTrap s.curCore s.curMt none s.cur.pc w e := by
  have hm : s.membersOf s.curCore s.curMt = [s.curCore] := s.membersOf_alone _ _ h
  simp only [State.issueTrap, hm, List.length_singleton, lt_irrefl, ↓reduceIte, State.cur]

theorem exec_unassignedOpcode (w : IWord) (s : State) :
    exec (.unassignedOpcode w) s = .next (s.issueTrap (.mk' 1 0) w) := rfl

/-- Settles O35: the map has a row for the first codes of each class and no other, and a code without a
row traps. -/
theorem unassignedOpcodes : Obligations.UnassignedOpcodes :=
  ⟨fun _ => opRow_isSome, fun _ => decodeNy_unassigned, fun w s h => by
    rw [exec_unassignedOpcode, State.issueTrap_alone h]⟩

/-- NEG inverts each lane's bit of the predicate, which code 15 replaces with ones. -/
theorem Mt.getLsbD_guardMask (t : Mt) (g : Guard) {l : Nat} (h : l < 32) :
    (t.guardMask g).getLsbD l =
      ((if g.reg = 15 then true else (t.preg g.reg.toNat).getLsbD l) ^^ g.neg) := by
  have hones : (0xFFFFFFFF#32).getLsbD l = true := by
    rw [show 0xFFFFFFFF#32 = BitVec.allOnes 32 from rfl, BitVec.getLsbD_allOnes, decide_eq_true h]
  unfold Mt.guardMask
  split <;> cases g.neg <;> simp [hones, h]

/-- Settles O57: the mask bit is the predicate bit xor NEG. -/
theorem guardLanes : Obligations.GuardLanes := fun t g l h => by
  refine ⟨?_, rfl, (by decide : ~~~0xFFFFFFFF#32 = 0)⟩
  rw [Mt.getLsbD_guardMask t g h, ← bne_iff_ne]

end Sys2Proof.Machine
end

section
/-! SUPPORT. The instructions of classes 0x000, 0x080 and 0x100 that compute in the elements and words of
registers and in predicates (R159, R163 to R184). -/

namespace Sys2Proof.Machine

/-! ### The instructions of a table -/

/-- `i` issues with the fields `f`, and the part of its one member answers `r`. -/
def State.Answers (s : State) (i : Instr) (f : Ny) (vec : Bool) (r : Res) : Prop :=
  ∃ op body, exec i s = .next (s.issue i op f vec body) ∧ i.ny? = some (op, f) ∧ body (s.me f) s = r

theorem State.Answers.commits {s t : State} {i : Instr} {f : Ny} {vec : Bool} {r : Res}
    (ha : s.Answers i f vec r) (h : s.Acts i f vec) (hr : r = .ok t) :
    exec i s = .next (s.onward t f) := by
  obtain ⟨op, body, he, hi, hb⟩ := ha
  exact exec_commits he h hi (hb.trans hr)

section
variable (f : Ny) (s : State)

theorem twoOperandTable_answers : ∀ p ∈ twoOperandTable f (s.core s.curCore).nbv.toNat,
    s.Answers p.1 f f.vec (elem2 f p.2 (s.me f) s) := by
  simp only [twoOperandTable, ← List.forall_iff_forall_mem, List.Forall]
  and_intros
  all_goals exact ⟨_, _, rfl, rfl, rfl⟩

theorem oneOperandTable_answers : ∀ p ∈ oneOperandTable f (s.core s.curCore).nbv.toNat,
    s.Answers p.1 f f.vec (elem1 f p.2 (s.me f) s) := by
  simp only [oneOperandTable, ← List.forall_iff_forall_mem, List.Forall]
  and_intros
  all_goals exact ⟨_, _, rfl, rfl, rfl⟩

theorem threeOperandTable_answers : ∀ p ∈ threeOperandTable f,
    s.Answers p.1 f f.vec (elem3 f p.2 (s.me f) s) := by
  simp only [threeOperandTable, ← List.forall_iff_forall_mem, List.Forall]
  and_intros
  all_goals exact ⟨_, _, rfl, rfl, rfl⟩

theorem wordTable_answers : ∀ p ∈ wordTable f,
    s.Answers p.1 f f.vec (word2 f p.2 (s.me f) s) := by
  simp only [wordTable, ← List.forall_iff_forall_mem, List.Forall]
  and_intros
  all_goals exact ⟨_, _, rfl, rfl, rfl⟩

theorem predTable_answers : ∀ p ∈ predTable f,
    s.Answers p.1 f true (predBody f p.2 (s.me f) s) := by
  simp only [predTable, ← List.forall_iff_forall_mem, List.Forall]
  and_intros
  all_goals exact ⟨_, _, rfl, rfl, rfl⟩

end

/-! ### Element-wise instructions (R159) -/

section
variable {s s1 : State} {w : Who} {f : Ny} {x y : Nat → Word}

theorem elem1_of_src {g : Nat → Nat} (hx : s.src w f.ty false f.b = .ok (s1, x)) :
    elem1 f g w s = .ok (s1.writeDst w f.a fun l => f.ty.map1 g (x l)) := by
  simp only [elem1, hx]

theorem elem2_of_src2 {g : Nat → Nat → Nat} (hx : s.src2 w f.ty f.b f.c false = .ok (s1, x, y)) :
    elem2 f g w s = .ok (s1.writeDst w f.a fun l => f.ty.map2 g (x l) (y l)) := by
  simp only [elem2, hx]

theorem elem3_of_src2 {g : Nat → Nat → Nat → Nat}
    (hx : s.src2 w f.ty f.b f.c false = .ok (s1, x, y)) :
    elem3 f g w s =
      .ok (s1.writeDst w f.a fun l => f.ty.map3 g (s1.oldDst w f.a l) (x l) (y l)) := by
  simp only [elem3, hx]

/-! ### Whole words (R163, R167, R169, R180, R181) -/

theorem word1_of_src {g : Word → Word} (hx : s.src w f.ty false f.b = .ok (s1, x)) :
    word1 f g w s = .ok (s1.writeDst w f.a fun l => g (x l)) := by
  simp only [word1, hx]

theorem word2_of_src2 {g : Word → Word → Word}
    (hx : s.src2 w f.ty f.b f.c false = .ok (s1, x, y)) :
    word2 f g w s = .ok (s1.writeDst w f.a fun l => g (x l) (y l)) := by
  simp only [word2, hx]

theorem bfxBody_of_src2 (hx : s.src2 w f.ty f.b f.c true = .ok (s1, x, y)) :
    bfxBody f w s = .ok (s1.writeDst w f.a fun l => f.ty.map1 (bfxE f.ty (y l)) (x l)) := by
  simp only [bfxBody, hx]

theorem bfiBody_of_src2 (hx : s.src2 w f.ty f.b f.c true = .ok (s1, x, y)) :
    bfiBody f w s = .ok (s1.writeDst w f.a fun l =>
      f.ty.map2 (bfiE f.ty (y l)) (s1.oldDst w f.a l) (x l)) := by
  simp only [bfiBody, hx]

theorem sclfBody_of_src2 (hx : s.src2 w f.ty f.b f.c true = .ok (s1, x, y)) :
    sclfBody f w s = .ok (s1.writeDst w f.a fun l =>
      f.ty.map1 (fun b => f.ty.rnd (rmOf f) ((f.ty.fval b).scale (y l).toInt)) (x l)) := by
  simp only [sclfBody, hx]

theorem fdotBody_of_src2 (hx : s.src2 w f.ty f.b f.c false = .ok (s1, x, y)) :
    fdotBody f w s = .ok (s1.writeDst w f.a fun l =>
      fdotWord (s1.home w).nbv.toNat f.ty (rmOf f) (s1.oldDst w f.a l) (x l) (y l)) := by
  simp only [fdotBody, hx]

end

/-- What each instruction of the table answers when its sources are read as the table has it. -/
theorem controlTable_answers (f : Ny) (s s1 : State) (x y : Nat → Word) :
    ∀ p ∈ controlTable f (s1.core s.curCore).nbv.toNat,
      s.src2 (s.me f) f.ty f.b f.c p.2.1 = .ok (s1, x, y) →
      s.Answers p.1 f f.vec (.ok (s1.writeDst (s.me f) f.a fun l =>
        p.2.2 (s1.oldDst (s.me f) f.a l) (x l) (y l))) := by
  simp only [controlTable, ← List.forall_iff_forall_mem, List.Forall]
  and_intros
  · exact fun hx => ⟨_, _, rfl, rfl, bfxBody_of_src2 hx⟩
  · exact fun hx => ⟨_, _, rfl, rfl, bfiBody_of_src2 hx⟩
  · exact fun hx => ⟨_, _, rfl, rfl, sclfBody_of_src2 hx⟩
  · exact fun hx => ⟨_, _, rfl, rfl, fdotBody_of_src2 hx⟩

/-- A compare writes its condition as A's kind has it. -/
theorem compareTable_answers {f : Ny} {s s1 : State} {x y : Nat → Word}
    (hx : s.src2 (s.me f) f.ty f.b f.c false = .ok (s1, x, y)) :
    ∀ p ∈ compareTable f, s.Answers p.1 f f.vec (.ok (s1.writeCond (s.me f) f p.2 x y)) := by
  simp only [compareTable, ← List.forall_iff_forall_mem, List.Forall]
  and_intros
  · exact ⟨_, icmpBody f, rfl, rfl, by simp only [icmpBody, hx]⟩
  · exact ⟨_, fcmpBody f, rfl, rfl, by simp only [fcmpBody, hx]⟩

theorem says_twoOperandElements : Says.TwoOperandElements := fun f s _ _ _ i g hg h hx =>
  (twoOperandTable_answers f s (i, g) hg).commits h (elem2_of_src2 hx)

theorem says_oneOperandElements : Says.OneOperandElements := fun f s _ _ i g hg h hx =>
  (oneOperandTable_answers f s (i, g) hg).commits h (elem1_of_src hx)

theorem says_threeOperandElements : Says.ThreeOperandElements := fun f s _ _ _ i g hg h hx =>
  (threeOperandTable_answers f s (i, g) hg).commits h (elem3_of_src2 hx)

/-- Settles O1: an instruction of one of the three tables is the element-wise part of its operation. -/
theorem elementResults : Obligations.ElementResults :=
  ⟨says_twoOperandElements, says_oneOperandElements, says_threeOperandElements⟩

theorem says_wholeWords : Says.WholeWords := by
  intro f s s1 x y
  refine ⟨?logic, ?control, ?not⟩
  case logic =>
    intro i g hg h hx
    exact (wordTable_answers f s (i, g) hg).commits h (word2_of_src2 hx)
  case control =>
    intro i wh g hg h hx
    exact (controlTable_answers f s s1 x y (i, wh, g) hg hx).commits h rfl
  case not =>
    intro h hx
    exact exec_commits rfl h rfl (word1_of_src hx)

theorem says_compares : Says.Compares := by
  intro f s s1 x y i g hg h hx
  refine ((compareTable_answers hx (i, g) hg).commits h rfl).trans ?_
  unfold State.writeCond
  cases f.a <;> rfl

/-- Settles O2: logic, bit fields, SCLF and FDOT answer a word of the sources' words, a compare by the kind
of its destination. -/
theorem wordResults : Obligations.WordResults := ⟨says_wholeWords, says_compares⟩

end Sys2Proof.Machine
end

section
/-! SUPPORT. Well-formedness of the instructions with few fields, predicate logic and NOP (R131, R162, R171). -/

namespace Sys2Proof.Machine

/-! ### Which words are well formed (R131) -/

theorem checkNy_eq_none {op : Nat} {row : OpRow} {f : Ny} (hrow : opRow op = some row) :
    checkNy op f = none ↔ f.ty ∈ row.ty ∧ checkFields op row f = none := by
  simp [checkNy, hrow, ite_eq_iff]

/-- An instruction without modifiers whose fields are judged by their kinds alone. -/
theorem Instr.wf_iff_kinds {i : Instr} {op : Nat} {f : Ny} {row : OpRow} (hi : i.ny? = some (op, f))
    (hrow : opRow op = some row) (hmd : row.md = .n) (hmt : modTypeOk op f = true)
    (hfc : fieldCheck op f = none)
    (hop : op ∉ [0x184, 0x202, 0x203, 0x280, 0x281, 0x282]) :
    i.wf = true ↔ f.ty ∈ row.ty ∧ f.md = 0 ∧ fieldKindOk row.a (srcTy op f) f.a = true ∧
      fieldKindOk row.b (srcTy op f) f.b = true ∧ fieldKindOk row.c (srcTy op f) f.c = true := by
  have hm : row.md.ok f.md = true ↔ f.md = 0 := by
    simp [hmd, ModGroup.ok, BitVec.toNat_eq]
  simp only [List.mem_cons, List.not_mem_nil, or_false, not_or] at hop
  simp only [Instr.wf, hi, beq_iff_eq, checkNy_eq_none hrow]
  simp [checkFields, hmt, hfc, hop, hm, ite_eq_iff, ← Bool.not_eq_true]

@[simp] theorem fieldKindOk_zero (t : Ty) (o : Operand) :
    fieldKindOk [.zero] t o = true ↔ o = .zero := by
  simp only [fieldKindOk, List.any_cons, List.any_nil, Bool.or_false, Kind.accepts]
  constructor
  · simp +contextual
  · rintro rfl
    rfl

@[simp] theorem fieldKindOk_pred (t : Ty) (o : Operand) :
    fieldKindOk [.pred] t o = true ↔ ∃ p : BitVec 6, o = .special p ∧ p.toNat < 15 := by
  cases o <;> simp [fieldKindOk, Kind.accepts, Operand.badSign]

@[simp] theorem fieldKindOk_imm (t : Ty) (v : BitVec 19) : fieldKindOk [.imm] t (.imm v) = true := rfl

/-! ### Predicate logic (R171) -/

theorem predBody_special {f : Ny} {g : Bool → Bool → Bool} {w : Who} {s : State} {p : BitVec 6}
    (ha : f.a = .special p) :
    predBody f g w s = .ok (s.modSelf w fun t => t.writePred p.toNat
      (fun l => g (((s.self w).predOf f.b).getLsbD l) (((s.self w).predOf f.c).getLsbD l)) w.lanes) := by
  simp only [predBody, ha]

theorem says_predicateLogic : Says.PredicateLogic := fun f s i g _ hg h ha =>
  (predTable_answers f s (i, g) hg).commits h (predBody_special ha)

theorem says_predicateOperands : Says.PredicateOperands := by
  intro f inP
  refine ⟨?two, ?one⟩
  case two =>
    simp only [← List.forall_iff_forall_mem, List.Forall]
    and_intros
    all_goals
      rw [Instr.wf_iff_kinds rfl rfl rfl rfl rfl (by decide)]
      simp [TySet.U, inP]
  case one =>
    rw [Instr.wf_iff_kinds rfl rfl rfl rfl rfl (by decide)]
    simp [TySet.U, inP]

/-- Settles O3: the part of an operation writes its lane bits to the predicate in A; its row has TY b32, no
modifier and the kinds of its operands. -/
theorem predicateLogic : Obligations.PredicateLogic := ⟨says_predicateLogic, says_predicateOperands⟩

/-! ### NOP (R162) -/

theorem nop_wf_iff (f : Ny) : (Instr.nop f).wf = true ↔
    f.ty = .b32 ∧ f.md = 0 ∧ f.a = .zero ∧ f.b = .zero ∧ f.c = .zero := by
  rw [Instr.wf_iff_kinds rfl rfl rfl rfl rfl (by decide)]
  simp [OpRow.none, TySet.U]

/-- Without operands it orders nothing and accesses nothing. -/
theorem nop_clear {f : Ny} (s : State) (h : (Instr.nop f).wf = true) : s.Clear (.nop f) := by
  obtain ⟨-, -, ha, hb, hc⟩ := (nop_wf_iff f).mp h
  rintro _ _ ⟨⟩
  have ho : ordering 0 f = false := by simp [ordering, ha, hb, hc, Operand.zero, engineAccess]
  have hm : accesses 0 f = false := rfl
  simp only [State.heldBack, ho, hm, Bool.false_and, Bool.or_false]

/-- It moves on both where its guard enables it and where it does not. -/
theorem exec_nop {f : Ny} {s : State} (hwf : (Instr.nop f).wf = true) (h : s.Alone) :
    exec (.nop f) s = .next (s.onward s f) := by
  cases hg : (s.me f).acts false with
  | true => exact exec_commits rfl ⟨h, hg, nop_clear s hwf⟩ rfl rfl
  | false => exact congrArg Host.Outcome.next (State.issue_idles ⟨h, hg⟩)

/-- Settles O58: the row of NOP leaves no field free, its part changes nothing, and the word of zeros is the
encoding of the instruction with no fields. -/
theorem noOperation : Obligations.NoOperation :=
  ⟨nop_wf_iff, fun _ _ => exec_nop, decodeNy_of_toWord_eq rfl (by decide) (by decide)⟩

end Sys2Proof.Machine
end

section
/-! SUPPORT. Conversions, moves and addresses (R163, R172, R177 to R179). -/

namespace Sys2Proof.Machine

section
variable {s s1 : State} {w : Who} {f : Ny} {x y : Nat → Word}

/-! ### CVT, QNT and DQNT (R177 to R179) -/

theorem cvtBody_of_src (hx : s.src w (srcTy 0x089 f) false f.b = .ok (s1, x)) :
    cvtBody f w s = .ok (s1.writeDst w f.a fun l =>
      cvtWord (s1.home w).nbv.toNat (srcTy 0x089 f) f.ty (rmOf f) (!nosat f) (x l)) := by
  simp only [cvtBody, hx]

theorem qntBody_registers {r : BitVec 6} {sel swz : BitVec 3} {neg abs : Bool} {low clow c : BitVec 5}
    (ha : f.a = .vreg r sel swz neg abs low) (hc : f.c = .sreg c clow) :
    let xs := (List.range 32).map fun l => fp32 (s.srcLane w .f32 false f.b l)
    let e := chooseScale f.ty xs
    qntBody f w s = .ok ((s.writeAll w r.toNat
      (packWords f.ty (xs.map fun x => if e = 255 then 0
        else f.ty.cvt (rmOf f) (!nosat f) (x.scale (127 - (e : Int)))))).modSelf w
          fun t => t.setS c.toNat (BitVec.ofNat 32 e)) := by
  simp only [qntBody, ha, hc]

/-! ### MOV by its destination (R163) -/

theorem offsetCheck_ok {n : Nat} {ls : List Nat} (h : ∀ l ∈ ls, n + l ≤ 2047) :
    offsetCheck n ls = .ok () := by
  have hn : (ls.find? fun l => decide (2047 < n + l)) = none := by
    simpa [List.find?_eq_none] using h
  simp only [offsetCheck, hn]

theorem movBody_nwin {p : BitVec 2} {off : BitVec 11} (ha : f.a = .nwin p off)
    (ho : ∀ l ∈ sigLanes f w, off.toNat + l ≤ 2047) (hx : s.src w f.ty false f.b = .ok (s1, x)) :
    movBody f w s = .ok ((sigLanes f w).foldl (fun s' l =>
      s'.signalWindow w (s1.nwinTarget w.core p.toNat).1 (s1.nwinTarget w.core p.toNat).2
        (off.toNat + l) (x l)) s1) := by
  simp only [movBody, ha, offsetCheck_ok ho, hx]

theorem movBody_role {r : BitVec 8} {off : BitVec 11} {tg : Target} (ha : f.a = .role r off)
    (ho : ∀ l ∈ sigLanes f w, off.toNat + l ≤ 2047) (ht : s.resolve w.core r.toNat = .ok tg)
    (hc : tg.coreOf.isSome = true) (hx : s.src w f.ty false f.b = .ok (s1, x)) :
    movBody f w s = .ok ((sigLanes f w).foldl (fun s' l =>
      s'.signalRole w tg (off.toNat + l) (x l)) s1) := by
  have hn : tg.coreOf.isNone = false := by simpa using hc
  simp only [movBody, ha, offsetCheck_ok ho, ht, hn, hx, Bool.false_eq_true, ↓reduceIte]

theorem movBody_special {p : BitVec 6} (ha : f.a = .special p)
    (hx : s.src w f.ty false f.b = .ok (s1, x)) :
    movBody f w s =
      .ok (s1.modSelf w fun t => t.writePred p.toNat (fun l => x l != 0) w.lanes) := by
  simp only [movBody, ha, hx]

/-! ### LEA by its space (R172) -/

theorem leaBody_offset (hv : f.virt = false) :
    leaBody f w s = word2 f (leaOffset f.spc (s.originOf w.core)) w s := by
  simp only [leaBody, hv, Bool.false_eq_true, ↓reduceIte]

theorem leaBody_pair {ra rb la lb : BitVec 5} (hv : f.virt = true)
    (ha : f.a = .sreg ra la) (hb : f.b = .sreg rb lb) (hy : s.src w f.ty true f.c = .ok (s1, y)) :
    leaBody f w s = .ok (s1.modSelf w fun t => t.setPair ra.toNat
      (signVa ((s1.self w).pair rb.toNat + (y 0).signExtend 64))) := by
  simp only [leaBody, hv, ha, hb, hy, ↓reduceIte]

end

/-- Settles O4: CVT commits what it read, converted; QNT of a register and a scale register, and DQNT, commit
in every state, since no stream is read. -/
theorem conversions : Obligations.Conversions := by
  intro f s
  refine ⟨?cvt, ?qnt, ?dqnt⟩
  case cvt =>
    intro s1 x h hx
    exact exec_commits rfl h rfl (cvtBody_of_src hx)
  case qnt =>
    intro r sel swz neg abs low c clow h ha hc xs e
    exact exec_commits rfl h rfl (qntBody_registers ha hc)
  case dqnt =>
    intro h
    exact exec_commits rfl h rfl rfl

theorem says_moves : Says.Moves := by
  intro f s s1 x h hx
  cases ha : f.a with
  | nwin p off => exact fun ho => exec_commits rfl h rfl (movBody_nwin ha ho hx)
  | role r off => exact fun ho tg ht hc => exec_commits rfl h rfl (movBody_role ha ho ht hc hx)
  | special p => exact exec_commits rfl h rfl (movBody_special ha hx)
  | vreg | sreg | handle | imm | stream =>
    refine exec_commits rfl h rfl (Eq.trans ?_ (word1_of_src (g := id) hx)) |>.trans ?_
    · simp only [movBody, ha]
    · simp only [ha, id_eq]

theorem says_effectiveAddress : Says.EffectiveAddress := by
  intro f s s1 x y h
  refine ⟨?offset, ?pair⟩
  case offset =>
    intro hv hx
    exact exec_commits rfl h rfl ((leaBody_offset hv).trans (word2_of_src2 hx))
  case pair =>
    intro ra la rb lb hv ha hb hy
    exact exec_commits rfl h rfl (leaBody_pair hv ha hb hy)

/-- Settles O5: MOV by the kind of its destination, LEA by whether its space holds pairs. -/
theorem movesAndAddresses : Obligations.MovesAndAddresses := ⟨says_moves, says_effectiveAddress⟩

end Sys2Proof.Machine
end

section
/-! SUPPORT. BFETCH and the continuation of a seed block (R193). -/

namespace Sys2Proof.Machine

/-! ### Moving on after an update of the micro-thread that issues -/

section
variable {s : State} {c m : Nat} {g : Mt → Mt}

@[simp] theorem State.youngest_modMt : (s.modMt c m g).youngest c m = s.youngest c m := by
  have hl : ((s.modMt c m g).core c).lastMt = (s.core c).lastMt :=
    (congrArg Core.lastMt (s.core_modCore c (·.setMt m (g (s.mt c m)))) :)
  simp only [State.youngest, State.modMt_free, hl]

theorem State.committed_modMt_self (h : g (s.mt c m) = s.mt c m) :
    (s.modMt c m g).committed c m = s.committed c m := by
  have hu (t : Mt) : (s.modMt c m g).setMt c m t = s.setMt c m t := s.setMt_setMt ..
  simp only [State.committed, State.mt_modMt, h, State.youngest_modMt, hu]

/-- What follows sees only what the micro-thread holds, which the update left as it was. -/
theorem State.finish_modMt_self (h : g (s.mt c m) = s.mt c m) (hint : Hint) (nx : Next)
    (isRep : Bool) : (s.modMt c m g).finish c m hint nx isRep = s.finish c m hint nx isRep := by
  simp only [State.finish, State.youngest_modMt, State.committed_modMt_self h]

theorem State.cur_committed :
    (s.committed c m).curCore = s.curCore ∧ (s.committed c m).curMt = s.curMt := by
  unfold State.committed
  extract_lets t s'
  split <;> exact ⟨rfl, rfl⟩

/-- Moving on within the block leaves the block as it is. -/
theorem State.block_finish_runs (s : State) {h : Hint} (hr : s.cur.repcnt ≤ 1)
    (hs : s.Runs s.curCore s.curMt) :
    (s.finish s.curCore s.curMt h .seq false).cur.block = s.cur.block := by
  obtain ⟨hc, hm⟩ := s.cur_committed (c := s.curCore) (m := s.curMt)
  rw [State.finish_runs _ _ _ _ _ (fun _ => hr) hs]
  simp [State.cur, hc, hm]

end

/-! ### BFETCH (R193) -/

/-- Gives the block of the micro-thread, if it runs one, a continuation. -/
def Mt.continuedAt (t : Mt) (va : DWord) : Mt :=
  { t with block := t.block.map fun b => { b with cont := some va } }

theorem Mt.continuedAt_fetched {t : Mt} (h : t.block = none) (va : DWord) : t.continuedAt va = t := by
  cases t
  subst h
  rfl

theorem Mt.block_continuedAt {t : Mt} {b : SeedBlock} (h : t.block = some b) (va : DWord) :
    (t.continuedAt va).block = some { b with cont := some va } := by
  simp only [Mt.continuedAt, h, Option.map_some]

theorem Mt.mayJump_of_cont {t : Mt} {b : SeedBlock} (hb : t.block = some b)
    (hc : b.cont.isSome = true) (va : DWord) : t.mayJump va = true := by
  simp only [Mt.mayJump, hb, hc, Bool.or_true]

/-- Where the block goes on does not depend on its continuation. -/
theorem State.runs_continuedAt (s : State) {c m : Nat} (va : DWord) (hs : s.Runs c m) :
    (s.modMt c m (·.continuedAt va)).Runs c m := by
  obtain ⟨hd, hq, hb⟩ := hs
  unfold State.Runs
  rw [State.mt_modMt, State.dbgctl_modMt]
  refine ⟨hd, hq, ?_⟩
  cases hk : (s.mt c m).block with
  | none => simp only [Mt.continuedAt, hk, Option.map_none]
  | some b =>
    rw [hk] at hb
    rw [Mt.block_continuedAt hk]
    exact hb

theorem State.block_onward_continuedAt (s : State) (f : Ny) {b : SeedBlock} (va : DWord)
    (hb : s.cur.block = some b) (hr : s.cur.repcnt ≤ 1) (hs : s.Runs s.curCore s.curMt) :
    (s.onward (s.modMt s.curCore s.curMt (·.continuedAt va)) f).cur.block =
      some { b with cont := some va } := by
  have hcur : (s.modMt s.curCore s.curMt (·.continuedAt va)).cur = s.cur.continuedAt va :=
    s.mt_modMt ..
  have hr' : (s.modMt s.curCore s.curMt (·.continuedAt va)).cur.repcnt ≤ 1 := by
    rw [hcur]
    exact hr
  refine ((s.modMt _ _ _).block_finish_runs hr' (s.runs_continuedAt va hs)).trans ?_
  rw [hcur]
  exact Mt.block_continuedAt hb va

section
variable {s : State} {f : Ny} {v : BitVec 19}

theorem bfetch_wf_iff (ha : f.a = .imm v) : (Instr.bfetch f).wf = true ↔
    f.ty = .b32 ∧ f.md = 0 ∧ f.b = .zero ∧ f.c = .zero := by
  rw [Instr.wf_iff_kinds rfl rfl rfl rfl rfl (by decide)]
  simp [TySet.U, ha]

theorem exec_bfetch (h : s.Acts (.bfetch f) f false) (ha : f.a = .imm v) :
    exec (.bfetch f) s = .next (s.onward (s.modMt s.curCore s.curMt
      (·.continuedAt (s.cur.pc + BitVec.ofInt 64 (4 * v.toInt)))) f) := by
  refine exec_commits rfl h rfl ?_
  simp only [State.me, beq_self_eq_true, ↓reduceIte, branchTarget, ha, immInt]
  rfl

end

/-- Settles O9: the block that moves on carries the target as its continuation; in fetched code the
update finds no block and changes nothing. -/
theorem continuation : Obligations.Continuation := by
  intro f s v h ha hr hs
  refine ⟨bfetch_wf_iff ha, ?block, ?fetched⟩
  case block =>
    intro b hb
    refine ⟨_, exec_bfetch h ha, ?_⟩
    have hcont := s.block_onward_continuedAt f (s.cur.pc + BitVec.ofInt 64 (4 * v.toInt)) hb hr hs
    exact ⟨hcont, Mt.mayJump_of_cont hcont rfl⟩
  case fetched =>
    intro hb
    rw [exec_bfetch h ha]
    exact congrArg Host.Outcome.next (State.finish_modMt_self (Mt.continuedAt_fetched hb _) _ _ _)

end Sys2Proof.Machine
end

section
/-! SUPPORT. SLEEP, TIME, TWAIT and an instruction that TWAIT bounds (R201 to R203, R362). -/

namespace Sys2Proof.Machine

/-! ### SLEEP and TIME (R201, R203) -/

section
variable {s : State} {f : Ny}

/-- The one member that a micro-thread issuing alone is. -/
theorem State.allWho_alone (h : s.cur.gang = none) : s.allWho f.guard = [s.me f] := by
  simp only [State.allWho, s.membersOf_alone _ _ h, List.map_cons, List.map_nil, s.who_alone]

theorem State.again_eq : s.again = s.cur.blocked.isSome := rfl

/-- The first issue sets the deadline, which has come where the time to sleep is none. -/
theorem sleepBody_first (h : s.cur.gang = none) (ha : (s.me f).acts false = true)
    (hb : s.cur.blocked = none) :
    let d := (s.scalar (s.me f) f.a).toNat
    let t := s.modSelf (s.me f) fun t => { t with tdead := s.now + d }
    sleepBody f (s.me f) s = if d = 0 then .ok t else .error (.wait (some t)) := by
  intro d t
  have hself : (t.self (s.me f)).tdead = s.now + d := congrArg Mt.tdead (s.mt_modMt ..)
  have hnow : t.now = s.now := rfl
  have hagain : s.again = false := by simp only [State.again_eq, hb, Option.isSome_none]
  have hdue : (t.self (s.me f)).tdead ≤ t.now ↔ d = 0 := by omega
  have hset : ((s.allWho f.guard).filter (·.acts false)).foldl (fun s x =>
      s.modSelf x fun t => { t with tdead := s.now + (s.scalar x f.a).toNat }) s = t := by
    simp only [s.allWho_alone h, List.filter_cons, ha, ↓reduceIte, List.filter_nil, List.foldl_cons,
      List.foldl_nil]
    rfl
  simp only [sleepBody, hagain, hset, hdue, Bool.false_eq_true, ↓reduceIte]

theorem sleepBody_again {i : Instr} (hb : s.cur.blocked = some i) :
    sleepBody f (s.me f) s = if s.cur.tdead ≤ s.now then .ok s else .error (.wait none) := by
  have hagain : s.again = true := by simp only [State.again_eq, hb, Option.isSome_some]
  simp only [sleepBody, hagain, ↓reduceIte]
  rfl

/-- The lanes of TIME: the counter's low word, its high word, and zeros. -/
def timeWord (now : Nat) : Nat → Word
  | 0 => BitVec.ofNat 32 now
  | 1 => BitVec.ofNat 32 (now / 2 ^ 32)
  | _ => 0

theorem timeBody_vreg {w : Who} {r : BitVec 6} {sel swz : BitVec 3} {neg abs : Bool} {low : BitVec 5}
    (ha : f.a = .vreg r sel swz neg abs low) :
    timeBody f w s = .ok (s.writeAll w r.toNat (timeWord s.now)) := by
  simp only [timeBody, ha]
  rfl

theorem timeBody_sreg {w : Who} {r low : BitVec 5} (ha : f.a = .sreg r low) :
    timeBody f w s = .ok (s.modSelf w fun t => t.setS r.toNat (BitVec.ofNat 32 s.now)) := by
  simp only [timeBody, ha]

theorem twaitBody_special {w : Who} {q : BitVec 6} (ha : f.a = .special q) :
    twaitBody f w s = .ok (s.modSelf w fun t =>
      { t with tdead := s.now + (s.scalar w f.b).toNat, bound := some q.toNat }) := by
  simp only [twaitBody, ha]

end

theorem says_sleepAndTime : Says.SleepAndTime := by
  intro f s d t
  refine ⟨?first, ?again, ?vector, ?scalar⟩
  case first =>
    intro h hb
    have hbody := sleepBody_first h.1.1 h.2.1 hb
    split
    next hd => exact exec_commits rfl h rfl (hbody.trans (if_pos hd))
    next hd => exact exec_waits_with rfl h rfl (hbody.trans (if_neg hd))
  case again =>
    intro h hb
    have hbody := sleepBody_again (f := f) hb
    split
    next hd => exact exec_commits rfl h rfl (hbody.trans (if_pos hd))
    next hd => exact exec_waits rfl h rfl (hbody.trans (if_neg hd))
  case vector =>
    intro r sel swz neg abs low h ha
    exact exec_commits rfl h rfl (timeBody_vreg ha)
  case scalar =>
    intro r low h ha
    exact exec_commits rfl h rfl (timeBody_sreg ha)

/-! ### What the close of a region leaves of the micro-threads (R83) -/

/-- A micro-thread but for its region counter. -/
def State.threadOf (s : State) (c m : Nat) : Mt := { s.mt c m with region := 0 }

section
variable (s : State)

theorem State.threadOf_modCore (d : Nat) {g : Core → Core} (hg : ∀ k, (g k).mts = k.mts) :
    (s.modCore d g).threadOf = s.threadOf := by
  funext c m
  by_cases h : c = d
  · subst h
    simp only [State.threadOf, State.mt, State.core_modCore, Core.mt, hg]
  · simp only [State.threadOf, State.mt, State.core_modCore_ne _ _ _ _ h]

theorem State.threadOf_landStore (x : LateStore) : (s.landStore x).threadOf = s.threadOf := by
  have hw : (s.writeW (.scratch x.pad x.off) x.data).threadOf = s.threadOf :=
    s.threadOf_modCore x.pad (g := fun k => { k with
      scratch := Memory.write k.scratch x.off (leBytes 4 x.data.toNat) }) fun _ => rfl
  unfold State.landStore
  split
  · exact (State.threadOf_modCore _ x.pad (by intro; rfl)).trans hw
  · exact hw

theorem State.threadOf_landAll (c : Nat) (p : LateStore → Bool) :
    (s.landAll c p).threadOf = s.threadOf := by
  unfold State.landAll
  extract_lets xs
  split
  · have hf (ys : List LateStore) (t : State) : (ys.foldl State.landStore t).threadOf = t.threadOf :=
      List.foldlRecOn ys _ (motive := fun u : State => u.threadOf = t.threadOf) rfl
        fun u h x _ => (u.threadOf_landStore x).trans h
    exact (hf _ _).trans (s.threadOf_modCore c (by intro; rfl))
  · rfl

theorem State.threadOf_dropEarly (c : Nat) (p : EarlyLoad → Bool) :
    (s.dropEarly c p).threadOf = s.threadOf := by
  unfold State.dropEarly
  split
  · exact s.threadOf_modCore c fun _ => rfl
  · rfl

theorem State.threadOf_settleAgent (a : Word) : (s.settleAgent a).threadOf = s.threadOf := by
  unfold State.settleAgent
  split
  · exact (State.threadOf_dropEarly ..).trans (State.threadOf_landAll ..)
  · rfl

theorem State.threadOf_stepRegion (a : Word) : (s.stepRegion a).threadOf = s.threadOf := by
  unfold State.stepRegion
  extract_lets c m
  split
  · funext d n
    by_cases hd : d = c
    · subst hd
      by_cases hn : n = m
      · subst hn
        rw [State.threadOf, State.mt_modMt]
        rfl
      · rw [State.threadOf, State.modMt, s.mt_setMt_ne c m n _ hn]
        rfl
    · rw [State.threadOf, State.modMt, s.mt_setMt_core c d m n _ hd]
      rfl
  · exact s.threadOf_modCore c fun _ => rfl
  · rfl

theorem State.threadOf_closeRegion (a : Word) : (s.closeRegion a).threadOf = s.threadOf :=
  (State.threadOf_stepRegion _ a).trans (s.threadOf_settleAgent a)

end

theorem State.bound_closeRegion (s : State) (a : Word) (c m : Nat) :
    ((s.closeRegion a).mt c m).bound = (s.mt c m).bound :=
  (congrArg Mt.bound (congrFun₂ (s.threadOf_closeRegion a) c m) :)

/-! ### An instruction that TWAIT bounds (R202) -/

@[simp] theorem State.mt_leaveAll (s : State) (w : Waiter) (c m : Nat) :
    (s.leaveAll w).mt c m = s.mt c m := by
  unfold State.leaveAll
  split <;> rfl

@[simp] theorem State.mt_withdraw (s : State) (d : Nat) (key : BarKey) (ph c m : Nat) :
    (s.withdraw d key ph).mt c m = s.mt c m := by
  unfold State.withdraw
  extract_lets k own
  split
  · rfl
  · split <;> rfl

theorem State.bound_abandon (s : State) (c m : Nat) :
    ((s.abandon c m).mt c m).bound = (s.mt c m).bound := by
  unfold State.abandon
  extract_lets t s'
  have hs : s'.mt c m = s.mt c m := by
    unfold s'
    split
    · exact s.mt_withdraw ..
    · rfl
  rw [State.mt_modMt, hs]

/-- The micro-thread that issues in `s` learns in `t` the outcome of an instruction that TWAIT bounded
with predicate `p`. -/
def State.decided (s t : State) (p : Nat) (v : Bool) : State :=
  t.modMt s.curCore s.curMt fun x => { x.setP p (if v then 0xFFFFFFFF else 0) with bound := none }

section
variable {s t : State} {i : Instr} {op p : Nat} {f : Ny} {vec : Bool} {body : Who → State → Res}

theorem State.setBound_one (v : Bool) (h : (t.mt s.curCore s.curMt).bound = some p) :
    t.setBound s.curMt [s.curCore] v = s.decided t p v := by
  simp only [State.setBound, List.foldl_cons, List.foldl_nil, h, State.decided]

theorem State.deadline_bound (h : s.cur.bound = some p) :
    s.deadline s.curMt [s.curCore] = some s.cur.tdead := by
  have hb : (s.mt s.curCore s.curMt).bound = some p := h
  simp [State.deadline, hb, State.cur]

theorem State.acting_alone (h : (s.me f).acts vec = true) :
    ([s.curCore].map (s.who s.curMt [s.curCore] f.guard)).filter (·.acts vec) = [s.me f] := by
  simp only [List.map_cons, List.map_nil, s.who_alone, List.filter_cons, h, ↓reduceIte,
    List.filter_nil]

variable (hi : i.ny? = some (op, f)) (hg : s.cur.gang = none) (hp : s.cur.bound = some p)
  (ha : (s.me f).acts vec = true) (hc : s.Clear i) (hbd : boundable op f = true)
include hi hg hp ha hc hbd

/-- Its condition holds: it completes, and says so. -/
theorem State.issue_bound_commits (hb : body (s.me f) s = .ok t)
    (ht : (t.mt s.curCore s.curMt).bound = some p) :
    s.issue i op f vec body = s.onward (s.decided t p true) f := by
  have hh := hc op f hi
  simp only [State.issue, State.issueTo, s.membersOf_alone _ _ hg, State.deadline_bound hp,
    State.acting_alone ha, hbd, hh, runMembers_one, hb, List.any_cons, List.any_nil,
    Option.isSome_some, Bool.not_true, Bool.and_false, Bool.or_false, Bool.false_eq_true, ↓reduceIte,
    List.isEmpty_cons, State.setBound_one true ht]
  rfl

/-- Its condition does not hold: at the deadline it is given up, before it it waits. -/
theorem State.issue_bound_unmet (hb : body (s.me f) s = .error (.wait none))
    (hb' : body (s.me f) (s.leaveAll s.leader) = .error (.wait none)) :
    s.issue i op f vec body = if s.cur.tdead ≤ s.now
      then s.onward (s.decided (s.abandon s.curCore s.curMt) p false) f
      else s.blockedOn s i := by
  have hh := hc op f hi
  have ht := (s.bound_abandon s.curCore s.curMt).trans hp
  simp only [State.issue, State.issueTo, s.membersOf_alone _ _ hg, State.deadline_bound hp,
    State.acting_alone ha, hbd, hh, runMembers_one, hb, hb', List.any_cons, List.any_nil,
    Option.isSome_some, Bool.not_true, Bool.and_false, Bool.or_false, Bool.false_eq_true, ↓reduceIte,
    Option.getD_none, decide_eq_true_eq, State.giveUp, List.foldl_cons, List.foldl_nil,
    State.setBound_one false ht]
  rfl

end

/-! ### CTWAIT under a bound (R198, R202) -/

theorem ctwait_boundable (f : Ny) : boundable 0x18A f = true := by simp [boundable]

theorem ctwaitBody_released {s : State} {w : Who} (h : (s.self w).rel = true) :
    ctwaitBody w s = .ok ((s.modSelf w fun t => { t with rel := false }).closeRegion w.agent) := by
  simp only [ctwaitBody, h, ↓reduceIte]

theorem ctwaitBody_waits {s : State} {w : Who} (h : (s.self w).rel = false) :
    ctwaitBody w s = .error (.wait none) := by
  simp only [ctwaitBody, h, Bool.false_eq_true, ↓reduceIte]

theorem says_timedWait : Says.TimedWait := by
  intro f s p
  refine ⟨fun q h ha => exec_commits rfl h rfl (twaitBody_special ha), ?bound⟩
  case bound =>
    intro hg hp ha hc give
    have hbd := ctwait_boundable f
    have unmet (hr : s.cur.rel = false) : exec (.ctwait f) s = .next (if s.cur.tdead ≤ s.now
        then s.onward (s.decided (s.abandon s.curCore s.curMt) p false) f
        else s.blockedOn s (.ctwait f)) := by
      have hr' : ((s.leaveAll s.leader).self (s.me f)).rel = false := by
        rw [State.self, State.mt_leaveAll]
        exact hr
      exact congrArg Host.Outcome.next (State.issue_bound_unmet rfl hg hp ha hc hbd
        (ctwaitBody_waits hr) (ctwaitBody_waits hr'))
    refine ⟨?completes, ?givesUp, ?waits⟩
    case completes =>
      intro hr
      refine congrArg Host.Outcome.next (State.issue_bound_commits rfl hg hp ha hc hbd
        (ctwaitBody_released hr) ?_)
      rw [State.bound_closeRegion]
      exact (congrArg Mt.bound (s.mt_modMt ..)).trans hp
    case givesUp => exact fun hr hd => (unmet hr).trans (congrArg _ (if_pos hd))
    case waits => exact fun hr hd => (unmet hr).trans (congrArg _ (if_neg (Nat.not_le.mpr hd)))

/-- Settles O13: SLEEP by whether it waits already, TIME by its destination; a bound CTWAIT by its release
bit and, where that is clear, by the deadline. -/
theorem timeAndDeadlines : Obligations.TimeAndDeadlines := ⟨says_sleepAndTime, says_timedWait⟩

end Sys2Proof.Machine
end

section
/-! SUPPORT. A precise trap of a micro-thread that an MTSTOP waits for (R40, R348). -/

namespace Sys2Proof.Machine

/-- Micro-thread 0 of core 0 waits for the answer to a request of its paired core's atomic, and an MTSTOP
has come meanwhile: it acts at the next boundary. -/
def stopDueInAtomic : State :=
  { State.reset with
    cores := [(0, { Core.init with mts := [(0, { Mt.init with
      st := .waiting, asked := [(0, 1)], stopDue := true })] })] }

theorem stopDueInAtomic_trapped :
    ((stopDueInAtomic.takeTrap 0 0 none 0 0 (.mk' 4 0)).mt 0 0).st = .stopping := by
  rfl

/-- Refutes O11: where an MTSTOP waits for the boundary, the record is written and then the micro-thread
stops, as R348 orders the two, so that it does not stay in the trap hold. The statement has no hypothesis
that no stop is due. -/
theorem not_softwareTraps : ¬ Obligations.SoftwareTraps := by
  rintro ⟨-, hprecise⟩
  obtain ⟨hwaits, -⟩ := hprecise stopDueInAtomic 0 0 0 0 (.mk' 4 0) (by decide) rfl
  cases hwaits.symm.trans stopDueInAtomic_trapped

end Sys2Proof.Machine
end

section
/-! SUPPORT. Cache hints, handles, stream registers and queue pointers (R208, R211 to R218). -/

namespace Sys2Proof.Machine

/-! ### Cache hints (R208) -/

section
variable {s : State} {w : Who} {f : Ny}

theorem need_of_true {ok : Bool} {e : Stop} (h : ok = true) : need ok e = .ok () := if_pos h

theorem need_of_false {ok : Bool} {e : Stop} (h : ok = false) : need ok e = .error e := by
  simp only [need, h, Bool.false_eq_true, ↓reduceIte]

theorem lengthCheck_ok {n : Word} (h1 : 1 ≤ n.toNat) (h2 : n.toNat ≤ 1048576) :
    lengthCheck n = .ok () :=
  need_of_true (decide_eq_true ⟨h1, h2⟩)

theorem prefBody_unhandled (h : ∀ n m o, f.b ≠ .handle n m o) : prefBody f w s = .ok s := by
  cases hb : f.b
  case handle n m o => exact absurd hb (h n m o)
  all_goals simp only [prefBody, State.slotCheck, State.handleWait, hb]

section
variable {h : BitVec 4} {n : BitVec 6} {o : BitVec 9} {x : Handle} {q : QHome}
  (hb : f.b = .handle h n o) (hu : s.useHandle w h.toNat f.spc = .ok (x, q))
include hb hu

theorem slotCheck_handle : s.slotCheck w f f.b [0] =
    need (decide (o.toNat * 32 + 4 ≤ x.slot)) (outOfRange (o.setWidth 32)) := by
  simp only [State.slotCheck, hb, hu, List.all_cons, List.all_nil, Nat.mul_zero, Nat.add_zero,
    Bool.and_true]

theorem prefBody_outside (hx : x.slot < o.toNat * 32 + 4) :
    prefBody f w s = .error (outOfRange (o.setWidth 32)) := by
  simp only [prefBody, slotCheck_handle hb hu, need_of_false (decide_eq_false (Nat.not_le.mpr hx))]

theorem prefBody_handle (hx : o.toNat * 32 + 4 ≤ x.slot) : prefBody f w s =
    if n = 0 then .ok s
    else if x.ready q n.toNat then .ok (s.closeRegion w.agent) else .error (.wait none) := by
  simp only [prefBody, slotCheck_handle hb hu, need_of_true (decide_eq_true hx)]
  simp only [State.handleWait, hb, hu]

end

theorem wbackBody_ok (h1 : 1 ≤ (s.scalar w f.c).toNat) (h2 : (s.scalar w f.c).toNat ≤ 1048576) :
    wbackBody f w s = .ok s := by
  simp only [wbackBody, lengthCheck_ok h1 h2]
  rfl

theorem invalBody_drops (h1 : 1 ≤ (s.scalar w f.c).toNat) (h2 : (s.scalar w f.c).toNat ≤ 1048576)
    (hp : canonical (s.basePair w f.b) = true)
    (hu : s.untranslated w.core (s.basePair w f.b)
      (((s.basePair w f.b).toNat % 4096 + (s.scalar w f.c).toNat + 4095) / 4096) = none) :
    invalBody f w s =
      .ok (s.dropLines w.core (s.remoteIn w.core (s.basePair w f.b) (s.scalar w f.c).toNat)) := by
  simp only [invalBody, lengthCheck_ok h1 h2, hp, hu, Bool.not_true, Bool.false_eq_true, ↓reduceIte]

end

/-- Settles O17: PREF by its base and, for a HANDLE, by the slot and the wait; WBACK and INVAL by
their checks. -/
theorem cacheHints : Obligations.CacheHints := by
  intro f s n p
  refine ⟨?pref, ?prefHandle, ?wback, ?inval⟩
  case pref =>
    intro h hb
    exact exec_commits rfl h rfl (prefBody_unhandled hb)
  case prefHandle =>
    intro h w o x q ha hb hu
    refine ⟨fun hx => exec_traps rfl ha rfl (prefBody_outside hb hu hx), fun hx => ?_⟩
    have hbody := prefBody_handle hb hu hx
    split
    next hw => exact exec_commits rfl ha rfl (hbody.trans (if_pos hw))
    next hw =>
      rw [if_neg hw] at hbody
      split
      next hr => exact exec_commits rfl ha rfl (hbody.trans (if_pos hr))
      next hr => exact exec_waits rfl ha rfl (hbody.trans (if_neg hr))
  case wback =>
    intro h h1 h2
    exact exec_commits rfl h rfl (wbackBody_ok h1 h2)
  case inval =>
    intro h h1 h2 hp hu
    exact exec_commits rfl h rfl (invalBody_drops h1 h2 hp hu)

/-! ### Handles and stream registers (R211 to R213, R216, R218) -/

section
variable {s : State} {w : Who} {f : Ny}

theorem hbindBody_binds {s1 s2 : State} {key hk : Nat} {q : Qcb}
    (hp : canonical (s.basePair w f.b) = true) (ha : (s.basePair w f.b).toNat % 64 = 0)
    (hl : s.virtLoc w.core 4 .read (s.basePair w f.b) 0 = .ok (.dram key))
    (hn : s.poisoned (.dram key) = false) (hq : s.readQcb w.core key = some (hk, q))
    (hm : s.mayBind w.core q.spc key (s.qhome hk) = true)
    (hc : ((s.qhome hk).isNone && decide (homeCap q.spc ≤ s.homeLoad w.core q.spc key)) = false)
    (hr : s.registerAll w 4 64 false false [⟨0, s.basePair w f.b, .dram key⟩] = .ok s1)
    (hs : s1.passChannels [⟨0, s.basePair w f.b, .dram key⟩] = .ok s2) :
    hbindBody f w s = .ok (s2.bindHandle w.core w.mt (handleNo f.a) (s.basePair w f.b) hk
      (decide (immInt f.c = 1)) none q) := by
  simp only [hbindBody, hp, ha, hl, hn, hq, hm, hc, hr, hs, Bool.not_true, Bool.false_eq_true,
    ne_eq, not_true_eq_false, ↓reduceIte]
  rfl

theorem qbindBody_stream {q : BitVec 3} (ha : f.a = .stream q) :
    qbindBody f w s = .ok (s.modSelf w fun t => t.setStream q.toNat .armed) := by
  simp only [qbindBody, ha]

theorem qdropBody_stream {q : BitVec 3} (ha : f.a = .stream q) :
    qdropBody f w s = .ok (s.modSelf w fun t => t.setStream q.toNat .idle) := by
  simp only [qdropBody, ha]

theorem qdropBody_handle {h : BitVec 4} {n : BitVec 6} {o : BitVec 9} (ha : f.a = .handle h n o) :
    qdropBody f w s = .ok (s.dropHandle w.core w.mt h.toNat) := by
  simp only [qdropBody, ha]

end

theorem says_handleBinding : Says.HandleBinding := by
  intro f s s1 s2 key hk q h p hp ha hl hn hq hm hc hr hs
  exact exec_commits rfl h rfl (hbindBody_binds hp ha hl hn hq hm hc hr hs)

theorem says_streamRegisters : Says.StreamRegisters := by
  intro f s
  refine ⟨fun q ha => ⟨?qbind, ?qdrop⟩, ?handle⟩
  case qbind => exact fun h => exec_commits rfl h rfl (qbindBody_stream ha)
  case qdrop => exact fun h => exec_commits rfl h rfl (qdropBody_stream ha)
  case handle => exact fun h w o hd ha => exec_commits rfl hd rfl (qdropBody_handle ha)

/-- Settles O18: HBIND by the checks that its control block passes, QBIND and QDROP by their operand. -/
theorem handlesAndStreams : Obligations.HandlesAndStreams :=
  ⟨says_handleBinding, says_streamRegisters⟩

/-! ### Queue pointers (R212, R215, R378) -/

/-- The pointers of an unpaired core's queue, and those of a queue in the core's own spaces, are reached
without a message. -/
theorem QHome.station_unasked {s : State} {w : Who} {q : QHome} {key : Nat}
    (hp : (s.home w).pair = none ∨ q.spc < 3) :
    (if (s.home w).pair.isSome = true then q.station key else none) = none := by
  rcases hp with hp | hp
  · simp [hp]
  · simp [QHome.station, hp]

section
variable {s : State} {w : Who} {f : Ny} {x : Handle} {prod : Bool}
  (hx : (s.self w).handle (handleNo f.a) = some x) (hn : s.scalar w f.b ≠ 0)
include hx hn

theorem advBody_answered {t : State} {old : List (Nat × Word)}
    (ha : s.answered w = some (.ok (t, old))) : advBody f prod w s =
      if laneOf old 0 = 0 then .ok (t.advanced w (handleNo f.a) x (s.scalar w f.b).toNat)
      else .error (queueStop 7 (handleNo f.a)) := by
  simp only [advBody, if_neg hn, hx, ha]

section
variable {q : QHome} (ha : s.answered w = none) (hq : s.qhome x.key = some q) (hd : x.prod = prod)
include ha hq hd

theorem advBody_asks (hp : (s.home w).pair.isSome = true) (h3 : 3 ≤ q.spc) :
    advBody f prod w s = .error (.stall (some ((s.closeRegion w.agent).ask w
      [(0, epSlice (qcbSlice x.key), .rmw 4 x.key 4 (.advance prod (s.scalar w f.b).toNat))]))) := by
  simp only [advBody, if_neg hn, hx, ha, hq, hd, bne_self_eq_false, hp, QHome.station,
    if_neg (Nat.not_lt.mpr h3), Bool.false_eq_true, ↓reduceIte]

section
variable (hp : (s.home w).pair = none ∨ q.spc < 3)
include hp

theorem advBody_overruns (hv : q.advance prod (s.scalar w f.b).toNat = none) :
    advBody f prod w s = .error (queueStop 7 (handleNo f.a)) := by
  simp only [advBody, if_neg hn, hx, ha, hq, hd, bne_self_eq_false, QHome.station_unasked hp, hv,
    Bool.false_eq_true, ↓reduceIte]

theorem advBody_moves {q' : QHome} (hv : q.advance prod (s.scalar w f.b).toNat = some q') :
    advBody f prod w s =
      let t := s.closeRegion w.agent
      .ok (({ t with qhomes := t.qhomes.upd x.key q' } : State).advanced w (handleNo f.a) x
        (s.scalar w f.b).toNat) := by
  simp only [advBody, if_neg hn, hx, ha, hq, hd, bne_self_eq_false, QHome.station_unasked hp, hv,
    Bool.false_eq_true, ↓reduceIte]

end

end

end

/-- The slots that a pointer may still move over. -/
def QHome.room (q : QHome) (prod : Bool) : Nat := if prod then q.nslot - q.filled else q.filled

/-- The queue with its pointer moved on. -/
def QHome.moved (q : QHome) (prod : Bool) (n : Word) : QHome :=
  if prod then { q with prod := q.prod + n } else { q with cons := q.cons + n }

theorem QHome.advance_room {q : QHome} {prod : Bool} {n : Word} (hn : n ≠ 0)
    (h : n.toNat ≤ q.room prod) : q.advance prod n.toNat = some (q.moved prod n) := by
  have h0 : 0 < n.toNat := Nat.pos_of_ne_zero fun h => hn (BitVec.eq_of_toNat_eq h)
  cases prod
  case false =>
    have hf : ¬q.filled < n.toNat := Nat.not_lt.mpr h
    simp [QHome.advance, QHome.moved, hf]
  case true =>
    have h : n.toNat ≤ q.nslot - q.filled := h
    have hf : ¬q.nslot < q.filled + n.toNat := by omega
    simp [QHome.advance, QHome.moved, hf]

theorem QHome.advance_full {q : QHome} {prod : Bool} {n : Word} (hf : q.filled ≤ q.nslot)
    (h : q.room prod < n.toNat) : q.advance prod n.toNat = none := by
  cases prod
  case false => exact if_pos h
  case true =>
    have h : q.nslot - q.filled < n.toNat := h
    exact if_pos (show q.nslot < q.filled + n.toNat by omega)

/-- ADVP or ADVC, by whether it moves PROD. -/
def advInstr (f : Ny) (prod : Bool) : Instr := if prod then .advp f else .advc f

def advOpcode (prod : Bool) : Nat := if prod then 0x206 else 0x207

theorem advInstr_ny (f : Ny) (prod : Bool) : (advInstr f prod).ny? = some (advOpcode prod, f) := by
  cases prod <;> rfl

theorem exec_adv (f : Ny) (prod : Bool) (s : State) : exec (advInstr f prod) s =
    .next (s.issue (advInstr f prod) (advOpcode prod) f false (advBody f prod)) := by
  cases prod <;> rfl

/-- Settles O19: the answer of a paired core decides, else the queue's home, which moves the pointer
where there is room. -/
theorem queuePointers : Obligations.QueuePointers := by
  intro f s x prod hx w n hn i h faulted moved
  have hx : (s.self w).handle (handleNo f.a) = some x := hx
  have he : exec i s = .next (s.issue i (advOpcode prod) f false (advBody f prod)) :=
    exec_adv f prod s
  have hi : i.ny? = some (advOpcode prod, f) := advInstr_ny f prod
  have hf (hb : advBody f prod w s = .error (queueStop 7 (handleNo f.a))) :
      exec i s = .next faulted := exec_traps he h hi hb
  refine ⟨?home, ?answer⟩
  case home =>
    intro q hask hq hd q' room t
    have ha : s.answered w = none := State.answered_none hask
    refine ⟨fun hp => ⟨fun hroom => ?moves, fun hle hfull => ?full⟩, fun hp h3 => ?asks⟩
    case moves =>
      have hv := QHome.advance_room hn hroom
      exact exec_commits he h hi (advBody_moves hx hn ha hq hd hp hv)
    case full =>
      have hv := QHome.advance_full hle hfull
      exact hf (advBody_overruns hx hn ha hq hd hp hv)
    case asks => exact exec_stalls_with he h hi (advBody_asks hx hn ha hq hd hp h3)
  case answer =>
    intro t old ha
    have hbody := advBody_answered (prod := prod) hx hn ha
    split
    next h0 => exact exec_commits he h hi (hbody.trans (if_pos h0))
    next h0 => exact hf (hbody.trans (if_neg h0))

end Sys2Proof.Machine
end

section
/-! SUPPORT. Tickets and roles, and the control thread's commands, records and counters (R229, R230, R254
to R258, R296, R330). -/

namespace Sys2Proof.Machine

/-! ### Tickets and roles (R229, R230, R296, R330) -/

section
variable {s : State} {c k n i e : Nat} {x : Node}

/-- The die's counter has indices left: the claim takes the first of them. -/
theorem claim_takes {ts : Cells (Nat × Nat)} {d : Nat} (hl : ts.look (0, 0) d = (i, e)) (hi : i < e) :
    claim ts d k = (ts.upd d (i + min k (e - i), e), i) := by
  have hr : ¬e - i = 0 := by omega
  simp only [claim, remaining, hl, hr, ↓reduceIte]

section
variable (hp : (s.core c).pair = none) (hn : (s.core c).launch = some n) (hx : s.node? n = some x)
include hp hn hx

theorem State.claimTicket_withdrawn (hw : (s.core c).pwrreq.getLsbD 8 = true) :
    s.claimTicket c k = some (s, exhausted) := by
  simp only [State.claimTicket, hp, hn, Option.bind_some, hx, hw, ↓reduceIte]

theorem State.claimTicket_takes (hw : (s.core c).pwrreq.getLsbD 8 = false)
    (hl : x.tickets.look (0, 0) (coreDie c) = (i, e)) (hi : i < e) :
    s.claimTicket c k = some (s.setNode n { x with
      tickets := x.tickets.upd (coreDie c) (i + min k (e - i), e) }, i) := by
  simp only [State.claimTicket, hp, hn, Option.bind_some, hx, hw, claim_takes hl hi,
    Bool.false_eq_true, ↓reduceIte]

end

variable {w : Who} {f : Ny}

/-- The number of indices that TICKET asks for. -/
def State.ticketWant (s : State) (w : Who) (f : Ny) : Word :=
  if f.b = Operand.zero then 1 else s.scalar w f.b

theorem ticketBody_outside (h : (s.ticketWant w f).toNat < 1 ∨ 64 < (s.ticketWant w f).toNat) :
    ticketBody f w s = .error (outOfRange (s.ticketWant w f)) :=
  if_pos h

theorem ticketBody_claims {t : State} {v : Nat}
    (h : ¬((s.ticketWant w f).toNat < 1 ∨ 64 < (s.ticketWant w f).toNat))
    (hc : s.claimTicket w.core (s.ticketWant w f).toNat = some (t, v)) :
    ticketBody f w s = .ok (t.writeDst w f.a fun _ => BitVec.ofNat 32 v) := by
  unfold State.ticketWant at h hc
  simp only [ticketBody, h, hc, ↓reduceIte]

theorem roleqBody_writes
    (h : ∀ l ∈ accLanes f.vec w, (s.srcLane w .b32 true f.b l).toNat ≤ 255) :
    roleqBody f w s = .ok (s.writeDst w f.a fun l =>
      s.roleWord w.core (s.srcLane w .b32 true f.b l).toNat) := by
  have hf : (accLanes f.vec w).find? (fun l =>
      decide (255 < (s.srcLane w .b32 true f.b l).toNat)) = none := by
    simpa using h
  simp only [roleqBody, hf]

end

theorem says_tickets : Says.Tickets := by
  intro f s k n x i e h w hk hlt
  have hk : s.ticketWant w f = BitVec.ofNat 32 k := hk
  have hkn : (s.ticketWant w f).toNat = k := by
    rw [hk, BitVec.toNat_ofNat, Nat.mod_eq_of_lt hlt]
  refine ⟨?outside, ?inside⟩
  case outside =>
    intro hr
    have hb := ticketBody_outside (s := s) (w := w) (f := f) (by rwa [hkn])
    rw [hk] at hb
    exact exec_traps rfl h rfl hb
  case inside =>
    intro h1 h2 hp hn hx
    have claims {t : State} {v : Nat} (hc : s.claimTicket s.curCore k = some (t, v)) :
        exec (.ticket f) s = .next (s.onward (t.writeDst w f.a fun _ => BitVec.ofNat 32 v) f) :=
      exec_commits rfl h rfl (ticketBody_claims (by rw [hkn]; omega) (hkn.symm ▸ hc))
    exact ⟨fun hw => claims (State.claimTicket_withdrawn hp hn hx hw),
      fun hw hl hi => claims (State.claimTicket_takes hp hn hx hw hl hi)⟩

theorem says_roles : Says.Roles := by
  intro f s h w role hr
  exact exec_commits rfl h rfl (roleqBody_writes hr)

/-- Settles O23: TICKET by the claim that it makes, ROLEQ by the roles of its lanes. -/
theorem ticketsAndRoles : Obligations.TicketsAndRoles := ⟨says_tickets, says_roles⟩

/-! ### The control thread's extension (R254 to R258) -/

section
variable {s t : State} {i : Instr}

/-- No step holds the push until it completes. -/
theorem State.ctPushed_free {q : BitVec 16}
    (h : s.curHart.priv ≠ .user ∨ (s.core s.curCore).dbgctl.getLsbD 17 = false) :
    s.ctPushed i s.curCore q (.ok t) = s.retired t 4 := by
  refine if_neg ?_
  rintro ⟨hu, hs, -⟩
  rcases h with h | h
  · exact h hu
  · cases hs.symm.trans h

end

theorem demand_of_true {ok : Bool} {e : CtStop} (h : ok = true) : demand ok e = .ok () := if_pos h

/-! ### Commands (R256) -/

section
variable {rd rs1 : BitVec 5} {s u t : State} {r : CopyReq} {tgs : List Nat}
  (hr : s.cmdRequest s.curCore (s.curHart.reg rs1) = .ok (u, r, tgs))
include hr

theorem execCmdq_request : execCmdq rd rs1 s =
    .next (s.ctPushed (.cmdq rd rs1) s.curCore (s.core s.curCore).seq
      (if (u.core s.curCore).fifoFull then .error (.stall none)
       else match u.cmdPush s.curCore (s.curHart.reg rs1) r tgs with
        | some t => .ok (t.setX s.curCore rd ((s.core s.curCore).seq.setWidth 64))
        | none => .error (.stall none))) := by
  unfold State.curHart at hr ⊢
  simp only [execCmdq, hr]
  rfl

theorem execCmdqnb_request : execCmdqnb rd rs1 s =
    match (if (u.core s.curCore).fifoFull then none
      else u.cmdPush s.curCore (s.curHart.reg rs1) r tgs) with
    | some t => .next (s.ctPushed (.cmdqnb rd rs1) s.curCore (s.core s.curCore).seq
        (.ok (t.setX s.curCore rd 0)))
    | none => .next (s.retired (u.setX s.curCore rd 1) 4) := by
  unfold State.curHart at hr ⊢
  simp only [execCmdqnb, hr]
  rfl

end

theorem says_commands : Says.Commands := by
  intro rd rs1 s u t r tgs c va hr hs
  have hq : exec (.cmdq rd rs1) s = _ := execCmdq_request hr
  have hqnb : exec (.cmdqnb rd rs1) s = _ := execCmdqnb_request hr
  refine ⟨?room, ?full⟩
  case room =>
    intro hlen hpush
    have hfull : (u.core s.curCore).fifoFull = false := decide_eq_false (Nat.not_le.mpr hlen)
    have hpush : u.cmdPush s.curCore (s.curHart.reg rs1) r tgs = some t := hpush
    rw [hfull, if_neg Bool.false_ne_true, hpush] at hq hqnb
    exact ⟨hq.trans (congrArg _ (State.ctPushed_free hs)),
      hqnb.trans (congrArg _ (State.ctPushed_free hs))⟩
  case full =>
    intro hlen
    have hfull : (u.core s.curCore).fifoFull = true := decide_eq_true hlen
    rw [hfull, if_pos rfl] at hq hqnb
    exact ⟨hq, hqnb⟩

/-! ### Records, counters and tickets (R227, R254, R257, R258, R296) -/

section
variable {rd rs1 rs2 : BitVec 5} {s : State}

/-- The tag that CTINBX names, if it names one. -/
def ctinbxTag (v : DWord) : Option (BitVec 16) := if v.getLsbD 16 then some (v.setWidth 16) else none

theorem execCtinbx_empty (hv : (s.curHart.reg rs1).toNat / 2 ^ 17 = 0)
    (hr : (s.core s.curCore).takeRec (ctinbxTag (s.curHart.reg rs1)) = none) :
    execCtinbx rd rs1 s = .next (s.ctStalled (.ctinbx rd rs1)) := by
  unfold State.curHart ctinbxTag at *
  simp only [execCtinbx, State.ctExt, demand_of_true (beq_iff_eq.mpr hv), hr]
  rfl

theorem execCtinbx_takes {r : InboxRec} {k : Core} (hv : (s.curHart.reg rs1).toNat / 2 ^ 17 = 0)
    (hr : (s.core s.curCore).takeRec (ctinbxTag (s.curHart.reg rs1)) = some (r, k)) :
    execCtinbx rd rs1 s = .next (s.retired
      ((((s.setCore s.curCore { k with
        ctinbhi := dwordOf (r.words.getD 2 0) (r.words.getD 3 0) }).refill s.curCore).closeRegion
          (ctAgent s.curCore)).setX s.curCore rd (dwordOf (r.words.getD 0 0) (r.words.getD 1 0))) 4) := by
  unfold State.curHart ctinbxTag at *
  simp only [execCtinbx, State.ctExt, demand_of_true (beq_iff_eq.mpr hv), hr]
  rfl

theorem execCttick_claims {k x : Nat} {s1 : State}
    (hk : (if rs1 = 0 then 1 else (s.curHart.reg rs1).toNat) = k) (h1 : 1 ≤ k) (h2 : k ≤ 64) (hc : s.claimTicket s.curCore k = some (s1, x)) :
    execCttick rd rs1 s = .next (s.retired (s1.setX s.curCore rd (BitVec.ofNat 64 x)) 4) := by
  unfold State.curHart at hk
  have hd : decide (1 ≤ k ∧ k ≤ 64) = true := decide_eq_true ⟨h1, h2⟩
  simp only [execCttick, State.ctExt, hk, demand_of_true hd, hc]
  rfl

/-- The fields of a CTCWAIT operand that names a space. -/
theorem ctcwait_fields {v : DWord} (hv : v.toNat / 2 ^ 51 = 0) (h1 : 1 ≤ v.toNat / 2 ^ 48)
    (h5 : v.toNat / 2 ^ 48 ≤ 5) :
    fieldOf v 51 13 = 0 ∧ fieldOf v 48 3 = v.toNat / 2 ^ 48 ∧ fieldOf v 0 48 = v.toNat % 2 ^ 48 ∧
      spaceOk (v.toNat / 2 ^ 48) = true := by
  refine ⟨?_, ?_, ?_, decide_eq_true ⟨h1, h5⟩⟩ <;> unfold fieldOf <;> omega

theorem execCtcwait_reads {ls : List (Loc × Nat)} {s1 s2 : State} {v : DWord}
    (hreg : s.curHart.reg rs1 = v) (hv : v.toNat / 2 ^ 51 = 0) (h1 : 1 ≤ v.toNat / 2 ^ 48)
    (h5 : v.toNat / 2 ^ 48 ≤ 5) (h8 : v.toNat % 8 = 0) (ht : (s.curHart.reg rs2).toNat < 2 ^ 62)
    (hl : s.ctCounter s.curCore (v.toNat / 2 ^ 48) (v.toNat % 2 ^ 48) = .ok ls)
    (hp : s.ctPoison ls = .ok ()) (hr : s.ctRegion s.curCore false false ls = .ok s1)
    (hs : s1.ctPass s.curCore ls = .ok s2) :
    execCtcwait rd rs1 rs2 s = .next (s.ctFinish (.ctcwait rd rs1 rs2) s.curCore (s.curHart.pc + 4)
      (let x := leNat (ls.flatMap fun p => s2.loadBytes s.curCore p.1 p.2)
      if (s.curHart.reg rs2).toNat ≤ x % 2 ^ 62 then
        .ok ((((s2.closeRegion (ctAgent s.curCore)).acquireCounter s.curCore
          ((ls.map (·.1)).headD (.scratch s.curCore 0))).setX s.curCore rd (BitVec.ofNat 64 x)))
      else .error (.stall none))) := by
  obtain ⟨f51, f48, f0, hsp⟩ := ctcwait_fields hv h1 h5
  unfold State.curHart at *
  have hd : (fieldOf v 51 13 == 0 && spaceOk (v.toNat / 2 ^ 48) &&
      decide (((s.hart s.curCore).reg rs2).toNat < 2 ^ 62)) = true := by
    rw [f51, hsp, decide_eq_true ht]
    rfl
  simp only [execCtcwait, State.ctExt, hreg, demand_of_true hd, demand_of_true (beq_iff_eq.mpr h8),
    f48, f0, hl, hp, hr, hs, bind, Except.bind]

end

theorem says_ctReceives : Says.CtReceives := by
  intro rd rs1 rs2 s c h v tag
  refine ⟨?ctinbx, ?ctcwait, ?cttick⟩
  case ctinbx =>
    exact fun hv => ⟨fun hr => execCtinbx_empty hv hr, fun r k hr => execCtinbx_takes hv hr⟩
  case ctcwait =>
    intro ls s1 s2 hv h1 h5 h8 ht hl hp hr hs x u
    refine (execCtcwait_reads rfl hv h1 h5 h8 ht hl hp hr hs).trans (congrArg _ ?_)
    simp only [h, x]
    split <;> rfl
  case cttick => exact fun s1 x h1 h2 hc => execCttick_claims rfl h1 h2 hc

/-- Settles O30: a request by the room in the command FIFO, a receive by what there is to take. -/
theorem controlThreadCommands : Obligations.ControlThreadCommands := ⟨says_commands, says_ctReceives⟩

end Sys2Proof.Machine
end

section
/-! SUPPORT. The event unit, arrivals, and the arrivals and releases of barriers (R223, R262, R270, R271,
R276, R283, R334). -/

namespace Sys2Proof.Machine

/-! ### The event unit (R262, R283) -/

section
variable {s : State} {c : Nat} {e : EvOp} {rest : List EvOp}

theorem State.bankPoison_of_clean (h : s.poison = []) (b : Nat) : s.bankPoison c b = none := by
  simp only [State.bankPoison, h, List.find?_nil]

theorem execEventUnitAction_acts {t : State} (hq : (s.core c).evq = e :: rest)
    (hf : (s.core c).frozen = false) (hm : (s.core c).mxBefore e = false) (hp : s.poison = [])
    (ha : s.evAct c e = some t) : execEventUnitAction c s =
      .next ((t.modCore c fun k => { k with evq := k.evq.drop 1 }).opDone c e.mt e.seq) := by
  have hb : ((e.kind.bank).bind (s.bankPoison c)).isSome = false := by
    cases e.kind.bank with
    | none => rfl
    | some b => simp only [Option.bind_some, State.bankPoison_of_clean hp, Option.isSome_none]
  simp only [execEventUnitAction, hq, hf, hm, hb, ha, Bool.or_self, Bool.false_eq_true, ↓reduceIte]

section
variable {g : GradOp} (hq : (s.core c).evq = e :: rest) (hk : e.kind = .rgrad g)
include hq hk

theorem execRgradCompletion_owes (ho : s.owes (e.agent c) e.seq = true) :
    execRgradCompletion c s = .next s := by
  simp only [execRgradCompletion, hq, hk, ho, ↓reduceIte]

variable (ho : s.owes (e.agent c) e.seq = false)
include ho

theorem execRgradCompletion_sends (hs : g.sent = false) (hf : (s.core c).frozen = false) :
    execRgradCompletion c s =
      let r := s.gradCheck c g
      let g' : GradOp := { g with sent := true, status := r.1, offs := 4 * r.2 }
      .next (if r.2 = 0 ∧ r.1 ≠ 0 then s.gradDone c e g'
        else (s.setGrad c e g').gradSend c e g' r.2) := by
  simp only [execRgradCompletion, hq, hk, ho, hs, hf, Bool.not_false, Bool.false_eq_true, ↓reduceIte]
  split <;> rfl

theorem execRgradCompletion_signals (hs : g.sent = true) (h0 : g.status = 0)
    (hn : g.signalled = false) : execRgradCompletion c s =
      let g' : GradOp := { g with signalled := true }
      .next ((s.setGrad c e g').gradSignal c e g') := by
  simp only [execRgradCompletion, hq, hk, ho, hs, h0, hn, Bool.not_true, Bool.false_eq_true,
    and_self, ↓reduceIte]

theorem execRgradCompletion_ends (hs : g.sent = true) (hd : g.status ≠ 0 ∨ g.signalled = true) :
    execRgradCompletion c s = .next (s.gradDone c e g) := by
  have hn : ¬(g.status = 0 ∧ g.signalled = false) := by
    rintro ⟨h0, hn⟩
    exact hd.elim (· h0) fun h => Bool.false_ne_true (hn.symm.trans h)
  simp only [execRgradCompletion, hq, hk, ho, hs, hn, Bool.not_true, Bool.false_eq_true, ↓reduceIte]

end

/-! ### Arrivals (R270, R271, R276) -/

theorem takeFirst_head {pick enters : Payload → Bool} {a : Payload} {as : List Payload}
    (hp : pick a = true) (he : enters a = true) : takeFirst pick enters [] (a :: as) = some (a, as) := by
  simp [takeFirst, hp, he]

/-- The queue after an event word of a sender, which is dropped where the sender is not declared. -/
def TimeQueue.receive (q : TimeQueue) (x m : Nat) (v : Word) : TimeQueue :=
  match producerOf q.prods x m with
  | none => q.dropped 1
  | some p => q.take p v

theorem execTqArrival_head {y x m : Nat} {v : Word} {as : List Payload}
    (ha : (s.core c).arrivals = .event y x m v :: as)
    (he : (s.core c).enters (.event y x m v) = true) : execTqArrival c s =
      .next (s.setCore c { s.core c with
        arrivals := as, tq := (s.core c).tq.receive x m v }) := by
  simp only [execTqArrival, ha]
  rw [takeFirst_head (by rfl) he]
  rfl

theorem execRankMessageArrival_head {x y m : Nat} {es : List Word} {fin : Bool} {as : List Payload}
    (ha : (s.core c).arrivals = .rank x y m es fin :: as)
    (he : (s.core c).enters (.rank x y m es fin) = true) : execRankMessageArrival c s =
      .next (s.setCore c (match producerOf (s.core c).wr.prods y m with
        | none => { s.core c with
          arrivals := as, tq := (s.core c).tq.dropped (max 1 es.length) }
        | some p => { s.core c with
          arrivals := as, wr := ((s.core c).wr.message p es fin).1
          tq := (s.core c).tq.dropped ((s.core c).wr.message p es fin).2 })) := by
  simp only [execRankMessageArrival, ha]
  rw [takeFirst_head (by rfl) he]
  dsimp only
  cases producerOf (s.core c).wr.prods y m <;> rfl

/-! ### Barriers (R223, R334) -/

theorem execBarrierArrival_counts {n : Nat} {a : Arrival} (ha : s.barPending[n]? = some a)
    (hp : (s.barrier a.key).phase = a.phase) (hr : a.ready = true) : execBarrierArrival n s =
      .next (({ s with barPending := s.barPending.eraseIdx n } : State).countArrival
        (s.barrier a.key) a.k) := by
  simp only [execBarrierArrival, ha, hp, hr, and_self, ↓reduceIte]

theorem execBarrierRelease_stamped {n ph tr : Nat} {b : Barrier} {rs : Cells Nat}
    (hb : s.barriers[n]? = some b) (hr : b.release = (ph, tr) :: rs) : execBarrierRelease n s =
      .next (if tr ≤ s.now then s.setBarrier { b with release := b.release.del ph } else s) := by
  simp only [execBarrierRelease, hb, hr]
  split <;> rfl

end

theorem says_eventSteps : Says.EventSteps := by
  intro s c k
  refine ⟨?act, ?rgrad, ?event, ?rank⟩
  case act => exact fun e rest t hq hf hm hp ha => execEventUnitAction_acts hq hf hm hp ha
  case rgrad =>
    intro e rest g hq hk owes r now ends
    exact ⟨fun ho => execRgradCompletion_owes hq hk ho,
      fun ho hs hf => execRgradCompletion_sends hq hk ho hs hf,
      fun ho hs h0 hn => execRgradCompletion_signals hq hk ho hs h0 hn,
      fun ho hs hd => execRgradCompletion_ends hq hk ho hs hd⟩
  case event => exact fun y x m v rest ha he => execTqArrival_head ha he
  case rank => exact fun x y m es fin rest ha he => execRankMessageArrival_head ha he

theorem says_barrierSteps : Says.BarrierSteps := by
  intro s n
  exact ⟨fun a ha hp hr => execBarrierArrival_counts ha hp hr,
    fun b ph tr rest hb hr => execBarrierRelease_stamped hb hr⟩

/-- Settles O42: each step by what stands at the head that it serves. -/
theorem eventAndBarrierSteps : Obligations.EventAndBarrierSteps := ⟨says_eventSteps, says_barrierSteps⟩

end Sys2Proof.Machine
end

section
/-! SUPPORT. A counterexample to the frame of loads (R205). -/

namespace Sys2Proof.Machine

/-- A running micro-thread whose array of scalar registers holds register 1 before register 0. -/
def registersOutOfOrder : State :=
  { State.reset with
    cores := [(0, { Core.init with mts := [(0, { Mt.init with
      st := .running, s := [(1, 7), (0, 9)] })] })] }

theorem registersOutOfOrder_acts :
    registersOutOfOrder.Acts (.ld loadRegister1) loadRegister1 false :=
  ⟨⟨rfl, rfl⟩, rfl, by rintro _ _ ⟨⟩; rfl⟩

theorem registersOutOfOrder_settled (e : Nat) :
    (registersOutOfOrder.core e).lateStores = [] ∧ (registersOutOfOrder.core e).earlyLoads = [] := by
  cases e <;> exact ⟨rfl, rfl⟩

/-- Register 0 reads 9 after the load to register 1. -/
theorem registersOutOfOrder_result :
    found (·.cur.sreg 0) (exec (.ld loadRegister1) registersOutOfOrder) = some 9 := by
  rfl

/-- Refutes O51: the scratchpad of zeros holds 0 at address 0, and the load of 0 drops the entry of register
1 from the array of registers; where register 0 stands behind it, out of order, it read 0 before and is
found after. The statement has no hypothesis that the arrays of registers are in order. -/
theorem not_memoryFrames : ¬ Obligations.MemoryFrames := by
  rintro ⟨h, -⟩
  obtain ⟨t, ht, -, -, -, -, hregs, -⟩ := h loadRegister1 registersOutOfOrder registersOutOfOrder
    registersOutOfOrder [⟨0, 0, .scratch 0 0⟩] (.ld loadRegister1) registersOutOfOrder_acts
    ⟨rfl, rfl, trivial⟩ (by decide) registersOutOfOrder_settled (by rintro _ ⟨⟩) (by decide) rfl rfl
    rfl (.inl ⟨rfl, rfl, rfl⟩)
  have hres := registersOutOfOrder_result
  rw [ht] at hres
  have hr : t.cur.sreg 0 = 0 := hregs 0 (by rintro _ _ ⟨⟩; decide)
  simp [found, hr] at hres

end Sys2Proof.Machine
end

section
/-! SUPPORT. The issue of copies and gathers, and the targets of a multicast (R231, R247, R251 to R253,
R309). -/

namespace Sys2Proof.Machine

/-! ### The targets of a multicast (R251) -/

section
variable {s : State} {c : Nat}

/-- `ep` is the endpoint of the home slice of the core that `role` names. -/
def State.HomeSlice (s : State) (c role ep : Nat) : Prop :=
  ∃ tg x, s.resolve c role = .ok tg ∧ tg.coreOf = some x ∧ ep = tg.slice x

theorem State.copyTargets_cons {role : Nat} {rs tgs : List Nat}
    (h : s.copyTargets c (role :: rs) = .ok tgs) :
    ∃ ep eps, tgs = ep :: eps ∧ s.HomeSlice c role ep ∧ s.copyTargets c rs = .ok eps := by
  unfold State.copyTargets at h
  split at h
  · cases h
  next tg htg =>
    split at h
    · cases h
    next x hx =>
      split at h
      · cases h
      next eps heps =>
        cases h
        exact ⟨tg.slice x, eps, rfl, ⟨tg, x, htg, hx, rfl⟩, heps⟩

theorem State.copyTargets_homeSlices {rs tgs : List Nat} (h : s.copyTargets c rs = .ok tgs) :
    List.Forall₂ (s.HomeSlice c) rs tgs := by
  induction rs generalizing tgs with
  | nil =>
    cases h
    exact .nil
  | cons role rs ih =>
    obtain ⟨ep, eps, rfl, hrole, hrest⟩ := State.copyTargets_cons h
    exact .cons hrole (ih hrest)

/-- The targets are what is left of the checks once the others have passed. -/
theorem State.copyCheck_targets {t : Option Mt} {r : CopyReq} {tgs : List Nat}
    (h : s.copyCheck c t r = .ok tgs) :
    (if r.opc = 1 then s.copyTargets c r.roles else .ok []) = .ok tgs := by
  unfold State.copyCheck at h
  iterate 4
    split at h
    · cases h
  dsimp only at h
  split at h
  · cases h
  · exact h

end

theorem says_copyTargets : Says.CopyTargets := by
  intro s c t r tgs h
  have h := State.copyCheck_targets h
  refine ⟨?single, ?multicast⟩
  case single =>
    intro ho
    rw [if_neg ho] at h
    cases h
    rfl
  case multicast =>
    intro ho
    rw [if_pos ho] at h
    exact State.copyTargets_homeSlices h

/-! ### The dispatch queue (R231, R256, R309) -/

/-- The queue that the completion of a micro-thread's copy advances, with its port: that of the producer
handle which PH names (R215, R247). -/
def CopyReq.advancedQueue (r : CopyReq) (t : Mt) : Option (Nat × Option Nat) :=
  if r.phe then (t.producer r.ph).map fun h => (h.key, h.port) else none

/-- The copy under group `g` takes its SEQ and joins the dispatch queue, and the stream register that it
names is bound to it. -/
def State.joinCopy (s : State) (w : Who) (op : Nat) (r : CopyReq) (mask : Option (BitVec 256))
    (stream : Option Nat) (targets : List Nat) (off b : Word) (g : Nat)
    (queue : Option (Nat × Option Nat)) : State :=
  let d := s.dispatchOp w op off b 0 true
  let t := d.1.modHome w fun k => { k with
    copies := k.copies ++ [CopyOp.new r mask w.mt false d.2 stream targets g queue] }
  match stream with
  | some q => t.modSelf w fun t => t.setStream q (.bound d.2 [] false false)
  | none => t

/-- The core's dispatch queue takes no request of a micro-thread: it is full, or requests of the
control thread arrived before (R231, R256). -/
def Core.CopiesFull (k : Core) : Prop := 16 ≤ k.waitingCopies ∨ k.fifo ≠ []

theorem Core.copies_room {k : Core} (hn : k.waitingCopies < 16) (hf : k.fifo = []) :
    ¬k.CopiesFull := by
  rintro (h | h)
  · omega
  · exact h hf

section
variable {s u : State} {w : Who} {op c g : Nat} {r : CopyReq} {mask : Option (BitVec 256)}
  {stream : Option Nat} {tgs : List Nat} {off b : Word}

theorem State.takeGroup_self {d n gen : Nat} {members : List Nat}
    (h : s.takeGroup d members n = some (g, gen, u)) : u.self w = s.self w := by
  unfold State.takeGroup at h
  split at h
  · cases h
  · cases h
    rfl

theorem State.copyGroup_single (ho : r.opc ≠ 1) : s.copyGroup c r tgs = some (0, s) := if_neg ho

theorem State.copyGroup_multicast (ho : r.opc = 1) : s.copyGroup c r tgs =
    (s.takeGroup (coreDie c) tgs 1).map fun x => (coreDie c * 4096 + x.1, x.2.2) := if_pos ho

theorem State.copyGroup_self (h : s.copyGroup c r tgs = some (g, u)) : u.self w = s.self w := by
  by_cases ho : r.opc = 1
  · rw [State.copyGroup_multicast ho] at h
    obtain ⟨⟨n, gen, v⟩, htake, hv⟩ := Option.map_eq_some_iff.mp h
    cases hv
    exact State.takeGroup_self htake
  · rw [State.copyGroup_single ho] at h
    cases h
    rfl

theorem State.queueCopy_full (hf : (s.home w).CopiesFull) :
    s.queueCopy w op r mask stream tgs off b = .error (.stall none) := if_pos hf

section
variable (hr : ¬(s.home w).CopiesFull)
include hr

theorem State.queueCopy_groupless (hg : s.copyGroup w.core r tgs = none) :
    s.queueCopy w op r mask stream tgs off b = .error (.stall none) := by
  unfold Core.CopiesFull at hr
  simp only [State.queueCopy, hr, hg, ↓reduceIte]

theorem State.queueCopy_joins (hg : s.copyGroup w.core r tgs = some (g, u)) :
    s.queueCopy w op r mask stream tgs off b =
      .ok (u.joinCopy w op r mask stream tgs off b g (r.advancedQueue (s.self w))) := by
  unfold Core.CopiesFull at hr
  simp only [State.queueCopy, hr, hg, State.copyGroup_self hg, ↓reduceIte]
  rfl

end

end

/-! ### The parts of CPY and CPYG (R247, R252, R253) -/

section
variable {s : State} {w : Who} {f : Ny} {r : CopyReq} {tgs : List Nat}

theorem streamOk_none {t : Mt} {o : Operand} (ho : ∀ q, o ≠ .stream q) :
    streamOk t r o = .ok none := by
  cases o
  case stream q => exact absurd rfl (ho q)
  all_goals rfl

theorem streamOk_armed {t : Mt} {q : BitVec 3} (ha : t.stream q.toNat = .armed)
    (hd : r.dir = false) (ho : r.opc = 0) (hf : r.fill ≠ 0) :
    streamOk t r (.stream q) = .ok (some q.toNat) := by
  simp [streamOk, ha, hd, ho, hf]

section
variable (hr : s.readRequest w.core (s.scalar w f.a) = .ok r)
  (hc : s.copyCheck w.core (some (s.self w)) r = .ok tgs) (hs : s.sliceCheck w.core r = .ok ())
include hr hc hs

theorem cpyBody_queues {q : Option Nat} (hq : streamOk (s.self w) r f.b = .ok q) :
    cpyBody f w s =
      s.queueCopy w 0x308 r none q tgs (s.scalar w f.a) (BitVec.ofNat 32 (q.getD 0)) := by
  simp only [cpyBody, hr, hc, hq, hs]

theorem cpygBody_queues (ho : r.opc = 0) (hd : r.dir = false) :
    cpygBody f w s = s.queueCopy w 0x309 r (some (s.rowMask w f.b)) none tgs (s.scalar w f.a)
      (s.srcLane w .b32 true f.b 0) := by
  have hn : ¬(r.opc ≠ 0 ∨ r.dir = true) := by simp [ho, hd]
  simp only [cpygBody, hr, hn, hc, hs, ↓reduceIte]

end

end

theorem says_copyIssue : Says.CopyIssue := by
  intro f s r tgs w k off home put hr hc hs
  have plain (hb : ∀ q, f.b ≠ .stream q) :
      cpyBody f w s = s.queueCopy w 0x308 r none none tgs off 0 :=
    cpyBody_queues hr hc hs (streamOk_none hb)
  refine ⟨fun hn hf => ?room, ?full⟩
  case room =>
    have room : ¬(s.home w).CopiesFull := Core.copies_room hn hf
    refine ⟨?single, ?multicast, ?stream, ?gather⟩
    case single =>
      intro h hb ho
      exact exec_commits rfl h rfl
        ((plain hb).trans (State.queueCopy_joins room (State.copyGroup_single ho)))
    case multicast =>
      intro h hb ho
      have hg := State.copyGroup_multicast (s := s) (c := s.curCore) (tgs := tgs) ho
      split
      next g gen u htake =>
        rw [htake] at hg
        exact exec_commits rfl h rfl ((plain hb).trans (State.queueCopy_joins room hg))
      next htake =>
        rw [htake] at hg
        exact exec_stalls rfl h rfl ((plain hb).trans (State.queueCopy_groupless room hg))
    case stream =>
      intro q h hb ha hd ho hfill
      have hq : streamOk (s.self w) r f.b = .ok (some q.toNat) :=
        hb ▸ streamOk_armed ha hd ho hfill
      have hg : s.copyGroup w.core r tgs = some (0, s) := State.copyGroup_single (by omega)
      have hbody := cpyBody_queues hr hc hs hq
      rw [Option.getD_some, BitVec.ofNat_toNat] at hbody
      exact exec_commits rfl h rfl (hbody.trans (State.queueCopy_joins room hg))
    case gather =>
      intro h ho hd
      have hg : s.copyGroup w.core r tgs = some (0, s) := State.copyGroup_single (by omega)
      exact exec_commits rfl h rfl ((cpygBody_queues hr hc hs ho hd).trans
        (State.queueCopy_joins room hg))
  case full =>
    intro h hfull hb
    exact exec_stalls rfl h rfl ((plain hb).trans (State.queueCopy_full hfull))

/-- Settles O25: a request that passes its checks comes to the dispatch queue, which takes it where it has
room and its group is free; the targets are what the last of the checks answers. -/
theorem copyIssue : Obligations.CopyIssue := ⟨says_copyIssue, says_copyTargets⟩

end Sys2Proof.Machine
end

section
/-! SUPPORT. The instructions of the event unit, the ranks and the state registers (R262 to R285). -/

namespace Sys2Proof.Machine

/-! ### The checks of the class (R262) -/

section
variable {k : Core} {a off n al : Nat}

theorem Core.evReady_bank (hq : k.evq.length < 16) (hb : k.bankHeld a = false) :
    k.evReady (some a) = .ok () :=
  need_of_true (by simp [hq, hb])

theorem Core.evReady_bankless (hq : k.evq.length < 16) : k.evReady none = .ok () :=
  need_of_true (by simp [hq])

theorem Core.evIdle_nil (hq : k.evq = []) : k.evIdle = .ok () := need_of_true (by simp [hq])

theorem Core.bankSettled_nil (hq : k.evq = []) (hm : (k.mx.queue.any fun o => o.acc == a) = false) :
    k.bankSettled a = true := by
  simp [Core.bankSettled, hq, hm]

theorem offsetCheck262_passes (ha : off % al = 0) (hr : off + n ≤ 0x7A000) :
    offsetCheck262 off n al = .ok () := by
  simp only [offsetCheck262, ha, ne_eq, not_true_eq_false, ↓reduceIte]
  exact need_of_true (decide_eq_true hr)

/-- All ones, the answer of a windrow that is over, has an arrival word's reserved bits set (R277, R281). -/
theorem Windrow.ne_end_of_arrivalOk {x : Windrow} {v : Word} (h : x.arrivalOk v = true) :
    v ≠ 0xFFFFFFFF := by
  rintro rfl
  have hend : wfield 0xFFFFFFFF 30 2 ≠ 0 := by decide
  exact hend (eq_of_beq (Bool.and_eq_true_iff.mp h).1)

end

/-! ### What joins the event unit's queue (R263 to R269, R275, R281, R283) -/

section
variable {s : State} {w : Who} {f : Ny} {b : RankBlock} {row : List FVal}

section
variable {acc : Nat} (hq : (s.home w).evReady (some acc) = .ok ())
include hq

theorem ncfgBody_queues {bs : List Byte} (ha : accNo f.a = acc)
    (hr : s.readCore w.core (s.scalar w f.b).toNat 32 32 = .ok bs)
    (hok : ncfgOk (bytesToWords bs) = true) :
    ncfgBody f w s =
      let x (i : Nat) : Word := (bytesToWords bs).getD i 0
      s.queueEv w 0x380 (.ncfg acc (x 0) (x 1) (x 2) (x 4) (x 5) (x 6)) (accWord acc)
        (s.scalar w f.b) 0 := by
  subst ha
  simp only [ncfgBody, hr, hok, hq, Bool.not_true, Bool.false_eq_true, ↓reduceIte]

theorem nintBody_queues (ha : accNo f.a = acc) (hm : (s.home w).bankMode acc = 1)
    (hr : s.rankBlock w.core (s.scalar w f.c) f.ty = .ok b)
    (hw : s.weightRow w.core b f.ty (wfield (s.scalar w f.b) 0 12) = .ok row) :
    nintBody f w s =
      s.queueEv w 0x381 (.nint acc b.n0 row) (accWord acc) (s.scalar w f.b) (s.scalar w f.c) := by
  subst ha
  simp only [nintBody, hm, hr, hw, hq, ne_eq, not_true_eq_false, ↓reduceIte]

theorem nleakBody_queues (ha : accNo f.a = acc) (hm : (s.home w).bankMode acc = 1) :
    nleakBody f w s = s.queueEv w 0x382 (.nleak acc) (accWord acc) 0 0 := by
  subst ha
  simp only [nleakBody, hm, hq, ne_eq, not_true_eq_false, ↓reduceIte]

theorem nfireBody_queues {solo : Bool} {ts : List Nat} (ha : accNo f.b = acc)
    (hm : (s.home w).bankMode acc = 1) (he : (s.home w).etick ≠ 0xFFFE)
    (ht : s.evTargets w.core (roleNo f.a) = .ok (solo, ts)) :
    nfireBody f w s =
      s.queueEv w 0x383 (.nfire solo ts acc) (BitVec.ofNat 32 (roleNo f.a)) (accWord acc) 0 := by
  subst ha
  simp only [nfireBody, ht, hm, he, hq, ne_eq, not_true_eq_false, ↓reduceIte]

theorem raccBody_queues {v : Word} {p : Producer} (ha : accNo f.a = acc) (hv : s.scalar w f.b = v)
    (hm : (s.home w).bankMode acc = 2) (hst : (s.home w).wr.st ≠ .unconfigured)
    (hr : s.rankBlock w.core (s.scalar w f.c) f.ty = .ok b)
    (hok : (s.home w).wr.arrivalOk v = true)
    (hp : (s.home w).wr.prods[wfield v 14 4]? = some p) (hk : wfield v 18 12 < 256)
    (hw : s.weightRow w.core b f.ty (p.cbase + wfield v 0 12) = .ok row) :
    raccBody f w s =
      let a := fp32 ((s.home w).weight (wfield v 18 12))
      s.queueEv w 0x389 (.racc acc b.n0 (wfield v 18 12) (if v.getLsbD 12 then a.neg else a) row)
        (accWord acc) v (s.scalar w f.c) := by
  subst ha hv
  simp only [raccBody, hm, hst, hr, Windrow.ne_end_of_arrivalOk hok, hok, hp, hk, hw, hq, ne_eq,
    not_true_eq_false, Bool.not_true, Bool.false_eq_true, Option.map_some, Option.getD_some,
    ↓reduceIte]

end

section
variable (hq : (s.home w).evReady none = .ok ())
include hq

theorem evsendBody_queues {solo : Bool} {ts : List Nat} {ws : List Word}
    (hws : (accLanes (Operand.isVreg f.b) w).map (s.srcLane w .b32 true f.b) = ws)
    (ht : s.evTargets w.core (roleNo f.a) = .ok (solo, ts)) (hok : ws.all eventOk = true) :
    evsendBody f w s =
      s.queueEv w 0x384 (.send solo ts ws) (BitVec.ofNat 32 (roleNo f.a)) (ws.getD 0 0) 0 := by
  subst hws
  simp only [evsendBody, ht, hok, hq, Bool.not_true, Bool.false_eq_true, ↓reduceIte]

theorem rsendBody_queues {ep : Nat} {tg : Target} {es : List Word}
    (hr : s.coreRole w.core (roleNo f.a) = .ok (ep, tg)) (hl : s.rankList w f = .ok es)
    (hok : entriesOk es = true) :
    rsendBody f w s =
      s.queueEv w 0x387 (.rsend ep es) (BitVec.ofNat 32 (roleNo f.a)) (s.scalar w f.b)
        (s.scalar w f.c) := by
  simp only [rsendBody, hr, hl, hok, hq, Bool.not_true, Bool.false_eq_true, ↓reduceIte]

theorem rgradBody_queues {ep i logb : Nat} {tg : Target} {p : Producer}
    (hr : s.coreRole w.core (roleNo f.a) = .ok (ep, tg))
    (hst : (s.home w).wr.st ≠ .unconfigured) (ho : (s.home w).wr.owner = w.mt)
    (hl : (s.home w).wr.log = some logb) (hi : gradProducer (s.home w).wr.prods tg = some i)
    (hp : (s.home w).wr.prods[i]? = some p)
    (hb : s.rankBlock w.core (s.scalar w f.b) f.ty = .ok b) (ha : b.goff % 4 = 0)
    (hn : b.goff + 4 * p.nch ≤ 0x7A000) :
    rgradBody f w s = s.queueEv w 0x38B (.rgrad
      { ep := ep, core := tg.coreOf.getD 0, word := roleOff f.a, pix := i, cbase := p.cbase
        nch := p.nch, logb := logb, rkcnt := (s.self w).rkcnt, blk := b, ty := f.ty
        tail := f.md == 1, nbv := (s.home w).nbv, sent := false, signalled := false, status := 0
        offs := 0 }) (BitVec.ofNat 32 (roleNo f.a)) (s.scalar w f.b) 0 := by
  have hrange : belowWindows b.goff (4 * p.nch) = true := decide_eq_true hn
  simp only [rgradBody, hr, hst, ho, hl, hi, hp, hb, ha, hrange, hq, ne_eq,
    not_true_eq_false, Bool.not_true, Bool.false_eq_true, or_self, Option.bind_some,
    Option.map_some, ↓reduceIte]

end

end

theorem says_eventIssue : Says.EventIssue := by
  intro f s w c k put acc free role word
  have ready {a : Nat} (h : free a) : (s.home w).evReady (some a) = .ok () :=
    Core.evReady_bank h.1 h.2
  have bankless (h : k.evq.length < 16) : (s.home w).evReady none = .ok () :=
    Core.evReady_bankless h
  refine ⟨?ncfg, ?nint, ?nleak, ?nfire, ?rsend, ?racc, ?rgrad⟩
  case ncfg =>
    intro bs h hfree hr hok
    exact exec_commits rfl h rfl (ncfgBody_queues (ready hfree) rfl hr hok)
  case nint =>
    intro b ws h hfree hm hr hw
    exact exec_commits rfl h rfl (nintBody_queues (ready hfree) rfl hm hr hw)
  case nleak =>
    intro h hfree hm
    exact exec_commits rfl h rfl (nleakBody_queues (ready hfree) rfl hm)
  case nfire =>
    intro solo ts h hfree hm he ht
    exact exec_commits rfl h rfl (nfireBody_queues (ready hfree) rfl hm he ht)
  case rsend =>
    intro ep tg es h hq hr hl hok
    exact exec_commits rfl h rfl (rsendBody_queues (bankless hq) hr hl hok)
  case racc =>
    intro b p ws v h hfree hm hst hr hok hp hk hw
    exact exec_commits rfl h rfl (raccBody_queues (ready hfree) rfl rfl hm hst hr hok hp hk hw)
  case rgrad =>
    intro ep tg i p logb b h hq hr hst ho hl hi hp hb ha hn
    exact exec_commits rfl h rfl (rgradBody_queues (bankless hq) hr hst ho hl hi hp hb ha hn)

theorem says_eventSend : Says.EventSend := by
  intro f s solo ts h w ws ht hok hq
  have ready : (s.home w).evReady none = .ok () := Core.evReady_bankless hq
  exact exec_commits rfl h rfl (evsendBody_queues ready rfl ht hok)

/-! ### TQCFG (R268, R276) -/

section
variable {s : State} {w : Who} {f : Ny}

/-- A block that passes the checks reaches the choice between the queue and the windrow. -/
theorem tqcfgBody_passes {bs : List Byte} {ps : List Producer}
    (hr : s.readCore w.core (s.scalar w f.a).toNat 144 16 = .ok bs)
    (hok : tqOk (f.md = 1) (bytesToWords bs) = true)
    (hp : s.tqProducers w.core (bytesToWords bs) (List.range (tqCount (bytesToWords bs))) = .ok ps)
    (hq : (s.home w).evIdle = .ok ()) :
    tqcfgBody f w s =
      let ws := bytesToWords bs
      let t := s.actEv w 0x38F (s.scalar w f.a) 0 0
      if f.md = 1 then
        if (s.home w).wr.st = .opened ∨ (s.home w).wr.st = .cut then .error (.wait none)
        else .ok ((t.modHome w fun k =>
          { k with wr := .install ws ps w.mt, tq := { k.tq with drop := 0 } }).modSelf w fun t =>
            { t with rkcnt := 0 })
      else .ok (t.modHome w fun k => { k with tq := .install ws ps }) := by
  simp only [tqcfgBody, hr, hok, hp, hq, Bool.not_true, Bool.false_eq_true,
    decide_eq_true_eq, ↓reduceIte]

/-! ### EVRECV (R270 to R272) -/

section
variable (hq : (s.home w).evIdle = .ok ())
include hq

theorem evrecvBody_finished (hf : (s.home w).tq.fin = true) : evrecvBody f w s =
    .ok (((s.actEv w 0x385 (s.heldValue w f.a) 0 0).countEvent w).writeDst w f.a
      fun _ => 0xFFFFFFFF) := by
  simp only [evrecvBody, hq, hf, ↓reduceIte]

section
variable (hf : (s.home w).tq.fin = false)
include hf

theorem evrecvBody_waits
    (hr : release (s.home w).tq.prods.length (s.home w).tq.front (s.home w).tq.held = none) :
    evrecvBody f w s = .error (.wait none) := by
  simp only [evrecvBody, hq, hf, hr, Bool.false_eq_true, ↓reduceIte]

theorem evrecvBody_takes {e : HeldEntry} {rest : List HeldEntry}
    (hr : release (s.home w).tq.prods.length (s.home w).tq.front (s.home w).tq.held =
      some (e, rest)) :
    evrecvBody f w s = .ok ((((s.actEv w 0x385 (s.heldValue w f.a) 0 0).modHome w fun k =>
      { k with tq := { k.tq with held := rest }, etick := BitVec.ofNat 16 e.tick }).countEvent
        w).writeDst w f.a fun _ => BitVec.ofNat 32 (e.tick * 65536 + e.pix * 4096 + e.addr)) := by
  simp only [evrecvBody, hq, hf, hr, Bool.false_eq_true, ↓reduceIte]

end

end

end

theorem says_eventQueue : Says.EventQueue := by
  intro f s hq w k
  have idle : (s.home w).evIdle = .ok () := Core.evIdle_nil hq
  refine ⟨?config, ?finished, ?waits, ?takes⟩
  case config =>
    intro bs ps ws off t h hr hok hp
    have hbody := tqcfgBody_passes hr hok hp idle
    split
    next hm =>
      rw [if_pos hm] at hbody
      split
      next hw => exact exec_waits rfl h rfl (hbody.trans (if_pos hw))
      next hw => exact exec_commits rfl h rfl (hbody.trans (if_neg hw))
    next hm => exact exec_commits rfl h rfl (hbody.trans (if_neg hm))
  case finished =>
    intro h hf
    exact exec_commits rfl h rfl (evrecvBody_finished idle hf)
  case waits =>
    intro h hf hr
    exact exec_waits rfl h rfl (evrecvBody_waits idle hf hr)
  case takes =>
    intro e rest h hf hr
    exact exec_commits rfl h rfl (evrecvBody_takes idle hf hr)

/-- Settles O26: an operand that passes its checks brings the instruction to the event unit's queue;
TQCFG and EVRECV act at once, by the block's kind and by the release rule. -/
theorem eventInstructions : Obligations.EventInstructions :=
  ⟨says_eventIssue, says_eventSend, says_eventQueue⟩

/-! ### RRECV (R277) -/

section
variable {s : State} {w : Who} {f : Ny}

theorem rrecvBody_unconfigured (hst : (s.home w).wr.st = .unconfigured) :
    rrecvBody f w s = .error (evStop 5) := if_pos hst

theorem rrecvBody_stranger (hst : (s.home w).wr.st ≠ .unconfigured)
    (ho : (s.home w).wr.owner ≠ w.mt) : rrecvBody f w s = .error (evStop 4) :=
  (if_neg hst).trans (if_pos ho)

section
variable (ho : (s.home w).wr.owner = w.mt) (hq : (s.home w).evIdle = .ok ())
include ho hq

theorem rrecvBody_over (hst : (s.home w).wr.st = .cut ∨ (s.home w).wr.st = .finished) :
    rrecvBody f w s =
      .ok ((s.actEv w 0x388 (s.heldValue w f.a) 0 0).writeDst w f.a fun _ => 0xFFFFFFFF) := by
  rcases hst with hst | hst <;> simp [rrecvBody, ho, hst, Except.bind, hq]

theorem rrecvBody_takes {b n : Nat} {e : HeldEntry} {rest : List HeldEntry}
    (hn : (s.self w).rkcnt = n) (hst : (s.home w).wr.st = .opened)
    (hl : (s.home w).wr.log = some b) (ha : (b + 4 * n) % 4 = 0) (hb : b + 4 * n + 4 ≤ 0x7A000)
    (hr : release (s.home w).wr.prods.length (s.home w).wr.front (s.home w).wr.held =
      some (e, rest))
    (he : rest ≠ [] ∨ allEnded (s.home w).wr.prods.length (s.home w).wr.front = true) :
    rrecvBody f w s =
      let v := arrivalWord n e
        (rest.isEmpty && allEnded (s.home w).wr.prods.length (s.home w).wr.front)
      .ok (((((s.actEv w 0x388 (s.heldValue w f.a) 0 0).modHome w fun k =>
        { k with wr := ({ (s.home w).wr with held := rest }).settle }).modSelf w fun t =>
          { t with rkcnt := n + 1 }).writeScratch w.core (b + 4 * n) [v]).writeDst w f.a
            fun _ => v) := by
  subst hn
  have hgo : ¬(rest = [] ∧ (!allEnded (s.home w).wr.prods.length (s.home w).wr.front) = true) := by
    rintro ⟨h1, h2⟩
    rcases he with he | he
    · exact he h1
    · simp [he] at h2
  simp only [rrecvBody, ho, hst, hl, offsetCheck262_passes ha hb, Except.bind, hq,
    hr, hgo, reduceCtorEq, ne_eq, not_true_eq_false, ↓reduceIte]

end

end

theorem says_rankReceive : Says.RankReceive := by
  intro f s h w k
  refine ⟨?unconfigured, ?stranger, ?past, ?takes⟩
  case unconfigured =>
    intro hst
    exact exec_traps rfl h rfl (rrecvBody_unconfigured hst)
  case stranger =>
    intro hst ho
    exact exec_traps rfl h rfl (rrecvBody_stranger hst ho)
  case past =>
    intro ho hq hst
    exact exec_commits rfl h rfl (rrecvBody_over ho (Core.evIdle_nil hq) hst)
  case takes =>
    intro b e rest n ends ho hq hst hl ha hb hr he v
    have owns : (s.home w).wr.owner = w.mt := ho
    have idle : (s.home w).evIdle = .ok () := Core.evIdle_nil hq
    exact exec_commits rfl h rfl (rrecvBody_takes owns idle rfl hst hl ha hb hr he)

/-! ### RSORT (R273, R274) -/

section
variable {s : State} {w : Who} {f : Ny}

theorem rsortBody_writes {n : Nat} {ws es : List Word} {xs : List Nat}
    (hn : (s.self w).rsn = n)
    (hr : s.readWords w.core (s.scalar w f.b).toNat (if f.ty = .f32 then n else (n + 1) / 2) =
      .ok ws)
    (hxs : (ws.flatMap fun v => (List.range f.ty.perWord).map (f.ty.elem v)).take n = xs)
    (hes : rankEntries f.ty (decide (f.md = 1)) none ((rankOrder f.ty (decide (f.md = 1))
      (s.self w).rsthr xs).take (s.scalar w f.c).toNat) = es)
    (h1 : 1 ≤ (s.scalar w f.c).toNat) (h2 : (s.scalar w f.c).toNat ≤ 256)
    (ha : (s.scalar w f.a).toNat % 4 = 0)
    (hb : (s.scalar w f.a).toNat + 4 * es.length ≤ 0x7A000) :
    rsortBody f w s = .ok
      (((s.padOrder w.core w.mt 1 w.core).writeScratch w.core (s.scalar w f.a).toNat es).modSelf w
        fun t =>
          { t with
            rsstat := BitVec.ofNat 32
              (xs.countP (fun x => (f.ty.fval x).isNan) * 65536 + es.length) }) := by
  subst hn hxs hes
  have hk : ¬((s.scalar w f.c).toNat < 1 ∨ 256 < (s.scalar w f.c).toNat) := by omega
  simp only [rsortBody, hk, hr, offsetCheck262_passes ha hb, ite_self, ↓reduceIte]

end

theorem says_rankSort : Says.RankSort := by
  intro f s ws h w k mag n dst hr xs es h1 h2 ha hb
  exact exec_commits rfl h rfl (rsortBody_writes rfl hr rfl rfl h1 h2 ha hb)

/-! ### RWTAB and RMARG (R279, R282) -/

/-- What the margin of bank `acc` says for the condition that `md` selects: sure or set, sure, or
set. -/
def Core.marginHolds (k : Core) (acc : Nat) (md : BitVec 6) : Bool :=
  let m := k.margin (k.bank acc)
  match md.toNat % 4 with
  | 0 => m.1 || m.2
  | 1 => m.1
  | _ => m.2

section
variable {s : State} {w : Who} {f : Ny}

theorem rwtabBody_loads {ws rs : List Word} (hq : (s.home w).evIdle = .ok ())
    (ha : s.readWords w.core (s.scalar w f.a).toNat 256 = .ok ws)
    (hb : if f.b = Operand.zero then rs = []
      else s.readWords w.core (s.scalar w f.b).toNat 256 = .ok rs) :
    rwtabBody f w s = .ok ((s.actEv w 0x38C (s.scalar w f.a)
      (if f.b = Operand.zero then 0 else s.scalar w f.b) 0).modHome w fun k =>
        { k with
          rankF := tableOf 0 ws, rankRho := tableOf 0x3F800000 rs
          rankTail := tableOf 0 (tailSums ws), mono := monoOf ws }) := by
  have hrho : (if f.b = Operand.zero then .ok []
      else s.readWords w.core (s.scalar w f.b).toNat 256) = .ok rs := by
    split at hb
    next hz => rw [if_pos hz, hb]
    next hz => rw [if_neg hz, hb]
  simp only [rwtabBody, ha, hrho, hq]

theorem rmargBody_writes (hm : (s.home w).bankMode (accNo f.b) = 2)
    (hs : (s.home w).bankSettled (accNo f.b) = true)
    (hp : s.bankPoison w.core (accNo f.b) = none)
    (ho : f.md.getLsbD 2 = true →
      (s.home w).wr.st ≠ .unconfigured ∧ (s.home w).wr.owner = w.mt) :
    rmargBody f w s =
      let p := (s.home w).marginHolds (accNo f.b) f.md
      let t := (s.actEv w 0x38A (s.heldValue w f.a) (accWord (accNo f.b)) 0).setPred w f.a p
      .ok (if p && f.md.getLsbD 2 then t.modHome w fun k => { k with wr := k.wr.cutOff } else t) := by
  have howns : ∀ p : Bool, ((p && f.md.getLsbD 2) &&
      !((s.home w).wr.st != .unconfigured && (s.home w).wr.owner == w.mt)) = false := by
    intro p
    cases hc : f.md.getLsbD 2 with
    | false => simp
    | true => simp [ho hc]
  simp only [rmargBody, hm, hs, hp, howns, ne_eq, not_true_eq_false, Bool.not_true,
    Bool.false_eq_true, ↓reduceIte]
  rfl

end

theorem says_rankTables : Says.RankTables := by
  intro f s hq w k
  refine ⟨?tables, ?margin⟩
  case tables =>
    intro ws rs a b h ha hb
    have idle : (s.home w).evIdle = .ok () := Core.evIdle_nil hq
    exact exec_commits rfl h rfl (rwtabBody_loads idle ha hb)
  case margin =>
    intro acc m p h hm hx hp ho t
    have settled : (s.home w).bankSettled acc = true := Core.bankSettled_nil hq hx
    exact exec_commits rfl h rfl (rmargBody_writes hm settled hp ho)

/-- Settles O27: RRECV by the state of the windrow and its owner, RSORT by the reading of its elements,
RWTAB and RMARG with the event unit idle. -/
theorem rankInstructions : Obligations.RankInstructions :=
  ⟨says_rankReceive, says_rankSort, says_rankTables⟩

/-! ### State registers (R284, R285) -/

section
variable {s s1 : State} {w : Who} {f : Ny} {g : Nat → Word}

theorem etickOrder_passes {k : Core} {n : Int} (h : n ≠ 5 ∨ k.evq = []) : etickOrder k n = .ok () := by
  rcases h with hn | hq
  · exact if_neg hn
  · simp only [etickOrder, Core.evIdle_nil hq, ite_self]

theorem csrrBody_reads (h : immInt f.b ≠ 5 ∨ (s.home w).evq = []) :
    csrrBody f w s = .ok (s.writeDst w f.a fun _ => s.stateReg w (immInt f.b)) := by
  simp only [csrrBody, etickOrder_passes h]

section
variable (hs : s.src w .b32 true f.b = .ok (s1, g))
include hs

theorem csrwBody_outOfRange (hn : immInt f.a = 2) (hv : g 0 = 0 ∨ 4096 < (g 0).toNat) :
    csrwBody f w s = .error (outOfRange (g 0)) := by
  simp only [csrwBody, hs, hn, hv, and_self, ↓reduceIte]

/-- A value in the register's range is written once the event unit's order allows it. -/
theorem csrwBody_writes (hv : ¬(immInt f.a = 2 ∧ (g 0 = 0 ∨ 4096 < (g 0).toNat)))
    (ho : immInt f.a ≠ 5 ∨ (s.home w).evq = []) :
    csrwBody f w s = .ok
      (if immInt f.a = 2 then s1.modSelf w fun t => { t with rsn := (g 0).toNat }
      else if immInt f.a = 3 then s1.modSelf w fun t => { t with rsthr := g 0 }
      else s1.modHome w fun k => { k with etick := (g 0).setWidth 16 }) := by
  simp only [csrwBody, hs, hv, etickOrder_passes ho, ↓reduceIte]

end

end

/-- Settles O28: a read by the order of ETICK; a write by the register that A names and, for RSN, by its
range. -/
theorem stateRegisters : Obligations.StateRegisters := by
  intro f s w
  refine ⟨?read, fun s1 g h hs => ⟨?rsn, ?outside, ?rsthr, ?etick⟩⟩
  case read =>
    intro h ho
    exact exec_commits rfl h rfl (csrrBody_reads ho)
  case rsn =>
    intro hn h0 h4096
    have hv : ¬(g 0 = 0 ∨ 4096 < (g 0).toNat) := not_or.mpr ⟨h0, by omega⟩
    have hbody := csrwBody_writes hs (fun h => hv h.2) (.inl (by omega))
    rw [if_pos hn] at hbody
    exact exec_commits rfl h rfl hbody
  case outside =>
    intro hn hv
    exact exec_traps rfl h rfl (csrwBody_outOfRange hs hn hv)
  case rsthr =>
    intro hn
    have hbody := csrwBody_writes hs (by omega) (.inl (by omega))
    rw [if_neg (by omega), if_pos hn] at hbody
    exact exec_commits rfl h rfl hbody
  case etick =>
    intro hn hq
    have hbody := csrwBody_writes hs (by omega) (.inr hq)
    rw [if_neg (by omega), if_neg (by omega)] at hbody
    exact exec_commits rfl h rfl hbody

end Sys2Proof.Machine
end

section
/-! SUPPORT. Launches: their nodes, placement, start and end (R286 to R294, R300 to R303, R384, R398). -/

namespace Sys2Proof.Machine

/-! ### Nodes of a die (R290) -/

theorem Cells.get?_upd_same {α : Type} (m : Cells α) (k : Nat) (v : α) :
    Cells.get? (Cells.upd m k v) k = some v := by
  induction m with
  | nil => simp [Cells.upd, Cells.get?]
  | cons p t ih =>
    obtain ⟨a, w⟩ := p
    simp only [Cells.upd]
    split
    · simp [Cells.get?]
    · split
      · simp [Cells.get?]
      case _ hk => simpa [Cells.get?, List.find?_cons, Ne.symm hk] using ih

section
variable {s : State} {n : Nat} {x : Node}

theorem slot_div {d i : Nat} (hi : i < 4096) : (d * 4096 + i) / 4096 = d := by omega

theorem slot_mod {d i : Nat} (hi : i < 4096) : (d * 4096 + i) % 4096 = i := by omega

theorem State.node?_congr {t : State} (h : t.dies = s.dies) : t.node? n = s.node? n := by
  simp only [State.node?, State.die, h]

theorem State.node?_setNode_same : (s.setNode n x).node? n = some x := by
  simp only [State.node?, State.setNode, State.die_modDie, Cells.get?_upd_same]

theorem State.modDie_modDie (d : Nat) (f g : Die → Die) :
    (s.modDie d f).modDie d g = s.modDie d fun z => g (f z) := by
  simp only [State.modDie, State.setDie, State.die, Cells.look_upd_same, Cells.upd_upd]

theorem State.modDie_setNode (f : Die → Die) :
    (s.setNode n x).modDie (n / 4096) f =
      s.modDie (n / 4096) fun z => f { z with nodes := z.nodes.upd (n % 4096) x } :=
  State.modDie_modDie ..

theorem State.frozen_of_dispatches {d : Nat} (h : s.dispatches d = true) : (s.die d).frozen = false := by
  simp only [State.dispatches, Bool.and_eq_true, Bool.not_eq_true'] at h
  exact h.1.2

end

/-! ### Admission (R286 to R292) -/

/-- Whether an entry is well formed rests on the die's free slots alone. -/
theorem State.entryOk_modDie {s : State} {d : Nat} {f : Die → Die}
    (hf : (f (s.die d)).nodes = (s.die d).nodes) (bs : List Byte) :
    (s.modDie d f).entryOk d bs = s.entryOk d bs := by
  simp only [State.entryOk, State.die_modDie, hf]

section
variable {s : State} {d : Nat} (hd : s.dispatches d = true)
include hd

theorem execLaunchQueueEntryRead_entry
    (hq : (s.die d).lqHead ≠ (s.die d).lqTail.toNat % Config.launchQueueSize d) :
    execLaunchQueueEntryRead d s =
      let bs := s.queueEntry d (s.die d).lqHead
      let t := s.modDie d fun x => { x with lqHead := (x.lqHead + 1) % Config.launchQueueSize d }
      .next (if s.entryOk d bs then t.enterNode (leField bs 0x0E 2) (entryNode bs) (leField bs 0x0C 2)
        else t.badEntry d (entryNode bs)) := by
  simp only [execLaunchQueueEntryRead, hd, hq, Bool.not_true, Bool.false_eq_true, or_self, ↓reduceIte]
  rw [State.entryOk_modDie (by rfl)]

theorem execChildLaunchAdmit_held {q : Child} {va : DWord} {ctx : BitVec 12} {level i : Nat}
    {rest : List (Child × DWord × BitVec 12 × Nat)}
    (hq : (s.die d).childQ = (q, va, ctx, level) :: rest) (hi : (s.die d).freeSlot = some i) :
    execChildLaunchAdmit d s =
      .next ((s.modDie d fun x => { x with childQ := rest }).enterNode
        (d * 4096 + i) (.bad va ctx level [] 0 (some q)) 0) := by
  simp only [execChildLaunchAdmit, hd, hq, hi, Bool.not_true, Bool.false_eq_true, ↓reduceIte]

section
variable {m : Nat} {rest : List Nat} (hq : (s.die d).notifyQ = m :: rest)
include hq

theorem execNodeNotification_credits
    (hm : (s.modDie d fun x => { x with notifyQ := rest }).node? m = none) :
    execNodeNotification d s =
      .next ((s.modDie d fun x => { x with notifyQ := rest }).modDie d fun x =>
        { x with credits := x.credits.put 0 (m % 4096) (x.credits.look 0 (m % 4096) + 1) }) := by
  simp only [execNodeNotification, hd, hq, hm, Bool.not_true, Bool.false_eq_true, ↓reduceIte]

theorem execNodeNotification_counts {y : Node}
    (hm : (s.modDie d fun x => { x with notifyQ := rest }).node? m = some y) :
    execNodeNotification d s =
      let u := (s.modDie d fun x => { x with notifyQ := rest }).setNode m
        { y with counter := y.counter - 1 }
      .next (if y.st = .waiting ∧ y.counter = 1 then u.toReady m else u) := by
  simp only [execNodeNotification, hd, hq, hm, Bool.not_true, Bool.false_eq_true, ↓reduceIte]

end

theorem execReadyPriorityAging_rises {i : Nat} {y : Node} (hi : i < 4096)
    (hy : s.node? (d * 4096 + i) = some y) (hs : y.st = .ready) (hl : y.level < 3)
    (ht : y.since + 256000 ≤ s.now) :
    execReadyPriorityAging (d * 4096 + i) s =
      .next ((s.setNode (d * 4096 + i) { y with level := y.level + 1, since := s.now }).modDie d
        fun z => { z with ready := z.ready.filter (·.1 != i) ++ [(i, y.level + 1)] }) := by
  simp only [execReadyPriorityAging, hy, slot_div hi, slot_mod hi, hd, hs, hl, ht, beq_self_eq_true,
    decide_true, Bool.and_self, ↓reduceIte]

end

theorem says_launchAdmission : Says.LaunchAdmission := by
  intro s d hd x n
  refine ⟨?entry, ?child, ?notify, ?aging⟩
  case entry => exact fun hq => execLaunchQueueEntryRead_entry hd hq
  case child => exact fun q va ctx level rest i hq hi => execChildLaunchAdmit_held hd hq hi
  case notify =>
    exact fun m rest hq => ⟨fun hm => execNodeNotification_credits hd hq hm,
      fun y hm => execNodeNotification_counts hd hq hm⟩
  case aging => exact fun i y hi hy hs hl ht => execReadyPriorityAging_rises hd hi hy hs hl ht

/-! ### Placement, start and end of a part (R292 to R294, R300) -/

section
variable {s : State} {n : Nat} {x : Node} (hx : s.node? n = some x) (hd : s.dispatches (n / 4096) = true)
include hx hd

/-- A node that is being placed stays as it is until it takes tiles; it leaves the ready queue. -/
theorem execDistributorPlace_placing (hp : s.placingNode (n / 4096) = some (n % 4096))
    (hs : x.st = .placing) :
    let t := (s.modDie (n / 4096) fun z =>
      { z with nodes := z.nodes.upd (n % 4096) x, ready := z.ready.filter (·.1 != n % 4096) }).placeAll
        (n / 4096) n x
    ∀ y, t.node? n = some y → execDistributorPlace (n / 4096) s =
      .next (if (x.coop && !y.placed) || y.cores.isEmpty then s else t) := by
  intro t y hy
  simp only [execDistributorPlace, hd, hp, hx, hs, Nat.div_add_mod', State.modDie_setNode, t, hy,
    Bool.not_true, Bool.false_eq_true, reduceCtorEq, ↓reduceIte]

theorem execLaunchCoreStart_starts {c : Nat} {t : State} (hl : (s.core c).launch = some n)
    (hn : (s.core c).started = false) (hq : (s.core c).pair = none) (hp : x.paired = false)
    (hs : x.st = .placing) (hc : c ∈ x.cores) (hr : s.coreRuns c = true)
    (ht : s.startCore x c = some t) : execLaunchCoreStart c s = .next (t.advanceNode n) := by
  have halone : s.starters x c = [c] := by
    simp only [State.starters, hq, hp, Bool.false_eq_true, ↓reduceIte]
  simp [execLaunchCoreStart, hl, hx, hn, hs, hc, hd, hr, ht, halone]

end

theorem execEndOfPart_ends {s : State} {c n : Nat} (hd : s.dispatches (n / 4096) = true)
    (hl : (s.core c).launch = some n)
    (hs : (s.core c).started = true) (he : (s.core c).ended = false) (hr : s.coreRuns c = true)
    (hp : (s.core c).ct.partEnd = true) :
    execEndOfPart c s = .next ((s.modCore c fun k =>
      { k with ended := true, ct := { k.ct.park with partEnd := false } }).advanceNode n) := by
  simp only [execEndOfPart, hl, hs, he, hr, hp, hd, Bool.not_false, Bool.and_self, ↓reduceIte]

/-! ### Completion and sweeps (R301 to R303, R384, R398) -/

section
variable {s : State} {n : Nat} {x : Node} (hx : s.node? n = some x) (hd : s.dispatches (n / 4096) = true)
include hx hd

theorem execNodeComplete_quiet (hs : x.st = .ending) (h0 : x.status = 0)
    (hq : (x.cores ++ x.twins).all (fun c => !(s.core c).passive && s.quiet c) = true) :
    execNodeComplete n s = .next (s.complete n x) := by
  simp only [execNodeComplete, hx, hd, hs, h0, hq, beq_self_eq_true, Bool.and_self, ↓reduceIte]

theorem execKilledLaunchDrained_drained (hs : x.st = .ending) (h0 : x.status ≠ 0)
    (hq : ((x.cores ++ x.twins).filter fun c => (s.core c).launch == some n).all
      (fun c => (s.core c).mtsIdle && s.drained c) = true) :
    execKilledLaunchDrained n s = .next ((if x.status = 4
      then ((x.cores ++ x.twins).filter fun c => (s.core c).launch == some n).foldl
        (fun s c => s.killRecord c) s
      else s).complete n x) := by
  simp only [execKilledLaunchDrained, hx, hs, bne_iff_ne.2 h0, hq, State.frozen_of_dispatches hd,
    beq_self_eq_true, Bool.not_false, Bool.true_or, Bool.and_self, ↓reduceIte]

end

/-- What a sweep forgets at its end: which of the cores have fired since the sweep before. -/
def State.clearFired (s : State) (cs : List Nat) : State :=
  cs.foldl (fun s c => s.modCore c fun k => { k with firedSince := false }) s

theorem State.clearFired_dies (s : State) (cs : List Nat) : (s.clearFired cs).dies = s.dies :=
  List.foldlRecOn cs _ (motive := fun t : State => t.dies = s.dies) rfl fun _ h _ _ => h

theorem State.core_clearFired (s : State) (cs : List Nat) (c : Nat) :
    (s.clearFired cs).core c =
      if c ∈ cs then { s.core c with firedSince := false } else s.core c := by
  induction cs generalizing s with
  | nil => rfl
  | cons a as ih =>
    refine (ih _).trans ?_
    by_cases ha : c = a
    · subst ha
      simp
    · simp [ha, State.core_modCore_ne]

section
variable {s : State} {n : Nat} {x : Node} (hx : s.node? n = some x)
include hx

theorem execTerminationSweep_early (ht : s.now < x.sweptAt + 2000) :
    execTerminationSweep n s = .next s := by
  simp only [execTerminationSweep, hx, ht, decide_true, Bool.or_true, ↓reduceIte]

/-- The sweep of a running node tests nothing: it only notes its time. -/
theorem execTerminationSweep_running (hd : s.dispatches (n / 4096) = true)
    (ht : x.sweptAt + 2000 ≤ s.now) (hs : x.st = .running) :
    execTerminationSweep n s =
      .next ((s.setNode n { x with sweptAt := s.now }).clearFired (x.cores ++ x.twins)) := by
  simp [execTerminationSweep, hx, hd, hs, ht, State.clearFired]

end

theorem says_launchRuns : Says.LaunchRuns := by
  intro s n x hx hd cs
  refine ⟨?place, ?start, ?endOfPart, ?complete, ?early, ?sweep, ?killed⟩
  case place =>
    rintro i rfl hp hs
    exact execDistributorPlace_placing hx hd hp hs
  case start =>
    exact fun c t hl hn hq hp hs hc hr ht => execLaunchCoreStart_starts hx hd hl hn hq hp hs hc hr ht
  case endOfPart => exact fun c hl hs he hr hp => execEndOfPart_ends hd hl hs he hr hp
  case complete => exact fun hs h0 hq => execNodeComplete_quiet hx hd hs h0 hq
  case early => exact fun ht => execTerminationSweep_early hx ht
  case sweep =>
    intro ht hs
    refine ⟨_, execTerminationSweep_running hx hd ht hs, ?_, fun c hc => ?_⟩
    · exact (State.node?_congr (State.clearFired_dies ..)).trans State.node?_setNode_same
    · exact (State.core_clearFired ..).trans (if_pos hc)
  case killed =>
    intro on hq hs
    have hdone (h0 : x.status ≠ 0) := execKilledLaunchDrained_drained hx hd hs h0 hq
    refine ⟨fun h3 => (hdone (by omega)).trans ?_, fun h4 => (hdone (by omega)).trans ?_⟩
    · rw [if_neg (by omega)]
    · rw [if_pos h4]

/-- Settles O44: each step of a launch by the node, or the head of the queue, that it serves; a running
node's sweep only notes its time and forgets which cores have fired. -/
theorem launchSteps : Obligations.LaunchSteps := ⟨says_launchAdmission, says_launchRuns⟩

end Sys2Proof.Machine
end

section
/-! SUPPORT. Packets, resends, pairs and ports of the fabric (R307, R308, R313, R315, R340, R379, R380,
R386, R390 to R393). -/

namespace Sys2Proof.Machine

/-! ### Packets that can arrive (R313, R340) -/

section
variable {s : State} {n : Nat} {p : Packet}

theorem State.portOf_down (h : s.portsUp = []) : s.portOf p = none := by
  simp only [State.portOf, h, List.getElem?_nil, ite_self]

section
variable (hp : s.wire[n]? = some p)
include hp

theorem State.arriving_within (hs : (p.kind == .data && p.payload.place.any s.refreshing) = false)
    (hd : p.dst < 4096) (hc : p.src < 4096) : s.arriving n = some p := by
  have hl : p.leaves = false := decide_eq_false (by omega)
  simp only [State.arriving, hp, Option.filter_some, hs, hl, hc, decide_true, Bool.not_false,
    Bool.and_self, Bool.true_or, ↓reduceIte]

theorem State.arriving_refreshing
    (hs : (p.kind == .data && p.payload.place.any s.refreshing) = true) : s.arriving n = none := by
  simp only [State.arriving, hp, Option.filter_some, hs, Bool.not_true, Bool.and_false,
    Bool.false_eq_true, ↓reduceIte]

theorem State.arriving_portsDown (ho : 4096 ≤ p.dst ∨ 4096 ≤ p.src) (hu : s.portsUp = []) :
    s.arriving n = none := by
  have hin : (!p.leaves && decide (p.src < 4096)) = false := by
    simp only [Packet.leaves, Bool.and_eq_false_iff, Bool.not_eq_false', decide_eq_true_eq,
      decide_eq_false_iff_not]
    omega
  simp only [State.arriving, hp, Option.filter_some, hin, State.portOf_down hu, Option.isSome_none,
    Bool.or_self, Bool.false_and, Bool.false_eq_true, ↓reduceIte]

theorem execEscapeTimeout_adaptive (he : p.esc = false) :
    execEscapeTimeout n s = .next (if s.now < p.moved + 20000 then s
      else ({ s with wire := s.wire.set n { p with esc := true, moved := s.now } } : State).modDie
        (Config.escapeDie s.free).val fun x => { x with escCnt := min 65535 (x.escCnt + 1) }) := by
  simp only [execEscapeTimeout, hp, he, Bool.false_or, decide_eq_true_eq]
  split <;> rfl

end

/-! ### Arrivals by the kind of the packet (R307, R308, R390) -/

section
variable (ha : s.arriving n = some p)
include ha

theorem execFabricMessageArrival_bad : execFabricMessageArrival n true s = .next (s.unwire n) := by
  simp only [execFabricMessageArrival, ha, ↓reduceIte]

theorem execFabricMessageArrival_good (hk : p.kind = .data) (hq : p.pair = none) :
    execFabricMessageArrival n false s = .next (((s.unwire n).linkGood p).packetIn p) := by
  simp only [execFabricMessageArrival, ha, hk, hq, Option.isNone_none, and_self, Bool.false_eq_true,
    ↓reduceIte]

theorem execPairedMessageArrival_data (hk : p.kind = .data) (hq : p.pair ≠ none) :
    execPairedMessageArrival n s = .next (((s.unwire n).linkGood p).packetIn p) := by
  simp only [execPairedMessageArrival, ha, hk, Option.isSome_iff_ne_none.2 hq, and_self, ↓reduceIte]

theorem execAckArrival_ack (hk : p.kind = .ack) :
    execAckArrival n s =
      .next (((s.unwire n).linkGood p).freeCopy p.dst p.src p.flow p.seq) := by
  simp only [execAckArrival, ha, hk, ↓reduceIte]

theorem execRetry_retry (hk : p.kind = .retry) :
    execRetry n s = .next (((s.unwire n).linkGood p).modCopies p.dst p.src p.flow p.seq fun c =>
      { c with retryAt := some s.now, timeouts := 0 }) := by
  simp only [execRetry, ha, hk, ↓reduceIte]

theorem execReject_reject (hk : p.kind = .reject) :
    execReject n s =
      .next (((s.unwire n).linkGood p).giveUpCopy p.dst p.src p.flow p.seq) := by
  simp only [execReject, ha, hk, ↓reduceIte]

end
end

/-! ### Copies that are sent again (R308, R391) -/

section
variable {s : State} {n : Nat} {f : Flow} {c : SentCopy} {rest : List SentCopy}
  (hb : s.blocked f = false) (hc : f.copies = c :: rest)
include hb hc

/-- Of a flow that does not wait for another the oldest copy is on the wire, and comes first. -/
theorem State.find?_sentPart {due : SentCopy → Bool} (hd : due c = true) :
    (s.sentPart f).find? due = some c := by
  simp only [State.sentPart, hb, Bool.false_eq_true, ↓reduceIte, hc, List.take_succ_cons]
  exact List.find?_cons_of_pos hd

theorem State.find?_sentPart_overdue (hr : c.retryAt = none)
    (ht : c.sentAt + resendAfter f.dst ≤ s.now) :
    (s.sentPart f).find? (fun c => c.retryAt.isNone && decide (c.sentAt + resendAfter f.dst ≤ s.now)) =
      some c :=
  State.find?_sentPart hb hc (by simp only [hr, ht, Option.isNone_none, decide_true, Bool.and_self])

variable (hf : s.flows[n]? = some f)
include hf

theorem execRetryResend_due (hw : f.window = []) {w : Nat} (hr : c.retryAt = some w)
    (ht : w + 143 ≤ s.now) :
    execRetryResend n s = .next
      (((s.modCopies f.src f.dst f.cls c.pkt.seq (·.resent s.now)).countResend f.src).putWire
        [c.pkt]) := by
  simp only [execRetryResend, hf, hw, List.length_nil]
  rw [State.find?_sentPart hb hc]
  · rfl
  · simp only [hr, ht, decide_true]

section
variable (hr : c.retryAt = none) (ht : c.sentAt + resendAfter f.dst ≤ s.now)
include hr ht

theorem execResendTimeout_again (ho : c.timeouts ≠ 15 ∨ 2048 ≤ f.dst) :
    execResendTimeout n s = .next
      (((s.modCopies f.src f.dst f.cls c.pkt.seq fun c =>
        { c.resent s.now with timeouts := c.timeouts + 1 }).countResend f.src).putWire [c.pkt]) := by
  have hx : (if c.timeouts = 15 then epCore f.dst else none) = none := by
    simp only [epCore, ite_eq_right_iff]
    omega
  simp only [execResendTimeout, hf, State.find?_sentPart_overdue hb hc hr ht, hx]

theorem execResendTimeout_last (h15 : c.timeouts = 15) (ho : f.dst < 2048) :
    execResendTimeout n s = .next
      (let x := f.dst % 1024
       let t := if s.killable (coreDie x) (s.paddockOf x)
         then s.count f.src fun d => { d with lossK := min 65535 (d.lossK + 1) } else s
       (t.killPaddock (coreDie x) (s.paddockOf x)).giveUpCopy f.src f.dst f.cls c.pkt.seq) := by
  simp only [execResendTimeout, hf, State.find?_sentPart_overdue hb hc hr ht, h15, epCore, ho,
    ↓reduceIte]
  rfl

end
end

/-! ### Held messages of pairs (R379, R380, R386) -/

section
variable {s : State} {n : Nat} {h : HeldPair} {g : PairTag} (hh : s.pairs[n]? = some h)
  (hg : h.pkt.pair = some g)
include hh hg

theorem execTwinTimeout_pair {a b : Nat} (ha : s.pairCore h.pkt.ctx g.id false = some a)
    (hb : s.pairCore h.pkt.ctx g.id true = some b) :
    execTwinTimeout n s =
      .next (if h.since + 50000 ≤ s.now then s.pairAbort 2 a b g 0 0 else s) := by
  simp only [execTwinTimeout, hh, hg, ha, hb]
  split <;> rfl

theorem execTwinTimeout_gone (ht : h.since + 50000 ≤ s.now)
    (ha : s.pairCore h.pkt.ctx g.id false = none) :
    execTwinTimeout n s =
      .next (({ s with pairs := s.pairs.eraseIdx n } : State).discardPaired h.pkt) := by
  simp only [execTwinTimeout, hh, hg, ha, ht, ↓reduceIte]

end

/-! ### Ports and trap records (R315, R355) -/

section
variable {s : State} {n : Nat}

/-- The eighth retry in succession takes the port down, which a record reports. -/
theorem execLinkFlitCrcFail_up (hn : n < 32) (hp : (s.ports.look (0, false) n).2 = false) :
    execLinkFlitCrcFail n s = .next
      (let m := (s.ports.look (0, false) n).1 + 1
       if m = 8 then ({ s with ports := s.ports.put (0, false) n (0, true) } : State).contain
         (Containment.plain Config.portRecordType.toNat)
       else { s with ports := s.ports.put (0, false) n (m, false) }) := by
  simp only [execLinkFlitCrcFail, hp, show ¬32 ≤ n by omega, decide_false, Bool.or_self,
    Bool.false_eq_true, ↓reduceIte]
  split <;> rfl

theorem execTrapRecordArrival_first {r : TrapRec} (hr : s.trapQ[n]? = some r)
    (hf : (s.trapQ.take n).all (fun x => s.ringOf x != s.ringOf r) = true) :
    execTrapRecordArrival n s = .next (({ s with trapQ := s.trapQ.eraseIdx n } : State).ringDeliver
      (s.ringOf r) (r.bytes false)) := by
  have hn : (s.trapQ.take n).any (fun x => s.ringOf x == s.ringOf r) = false := by
    rw [List.any_eq_not_all_not]
    simpa only [bne, Bool.not_eq_false'] using hf
  simp only [execTrapRecordArrival, hr, hn, Bool.false_eq_true, ↓reduceIte]

end

theorem says_fabricSteps : Says.FabricSteps := by
  intro s n
  refine ⟨?wire, ?arrival, ?copies, ?pair, ?gone, ?port, ?record⟩
  case wire =>
    exact fun p hp => ⟨State.arriving_within hp, State.arriving_refreshing hp,
      State.arriving_portsDown hp, execEscapeTimeout_adaptive hp⟩
  case arrival =>
    exact fun p ha => ⟨execFabricMessageArrival_bad ha, execFabricMessageArrival_good ha,
      execPairedMessageArrival_data ha, execAckArrival_ack ha, execRetry_retry ha,
      execReject_reject ha⟩
  case copies =>
    exact fun f c rest hf hb hc => ⟨fun hw w hr ht => execRetryResend_due hb hc hf hw hr ht,
      fun hr ht => ⟨execResendTimeout_again hb hc hf hr ht, execResendTimeout_last hb hc hf hr ht⟩⟩
  case pair => exact fun h g a b hh hg ha hb => execTwinTimeout_pair hh hg ha hb
  case gone => exact fun h g hh hg ht ha => execTwinTimeout_gone hh hg ht ha
  case port => exact execLinkFlitCrcFail_up
  case record => exact fun r hr hf => execTrapRecordArrival_first hr hf

/-- Settles O43: each step of the fabric by the packet, copy, held message or port that it serves. -/
theorem fabricSteps : Obligations.FabricSteps := says_fabricSteps

end Sys2Proof.Machine
end

section
/-! SUPPORT. Package reset, attestation and the accesses of the host die (R316 to R320, R385). -/

namespace Sys2Proof.Machine

/-! ### The boot after a package reset (R319) -/

/-- An array that lists `f i` at every index `i` from `a` on reads so there. -/
theorem Cells.look_listed {α : Type} (d : α) (f : Nat → α) {a n k : Nat} (ha : a ≤ k)
    (hk : k < a + n) : Cells.look d ((List.range' a n).map fun i => (i, f i)) k = f k := by
  induction n generalizing a with
  | zero => omega
  | succ n ih =>
    simp only [List.range'_succ, List.map_cons, Cells.look, show ¬k < a by omega, ↓reduceIte]
    split
    next h => rw [h]
    next h => exact ih (by omega) (by omega)

theorem bootSteps_all {bad : Nat → Bool} (h : ∀ i, 1 ≤ i → i ≤ 4 → bad i = false) :
    bootSteps bad = 4 := by
  simp [bootSteps, h]

theorem bootSteps_first {bad : Nat → Bool} {n : Nat} (hn : n < 4)
    (h : ∀ i, 1 ≤ i → i ≤ n → bad i = false) (hb : bad (n + 1) = true) : bootSteps bad = n := by
  obtain rfl | rfl | rfl | rfl : n = 0 ∨ n = 1 ∨ n = 2 ∨ n = 3 := by omega
  all_goals simp_all [bootSteps]

section
variable (s : State) (n k : Nat)

theorem State.booted_keeps :
    (s.booted n k).dram = s.dram ∧ (s.booted n k).remote = s.remote ∧ (s.booted n k).gran = [] ∧
      (s.booted n k).wire = [] ∧ ∀ c, (s.booted n k).core c = State.reset.core c := by
  unfold State.booted
  dsimp only
  split <;> exact ⟨rfl, rfl, rfl, rfl, fun _ => rfl⟩

theorem State.booted_whole :
    (s.booted 4 k).bootStep = 4 ∧ (s.booted 4 k).reports = s.reports ∧
      (∀ d, (s.booted 4 k).die d = State.reset.die d) ∧
      ∀ x, (s.booted 4 k).tile x = State.reset.tile x :=
  ⟨rfl, rfl, fun _ => rfl, fun _ => rfl⟩

/-- A boot that stops before step 4 leaves TILEMAP without a tile, and is reported. -/
theorem State.booted_part (hn : n ≠ 4) :
    (s.booted n k).bootStep = n ∧
      (s.booted n k).reports = s.reports ++ [[BitVec.ofNat 8 (n + 1), BitVec.ofNat 8 k]] ∧
      ∀ x, x < 256 → ((s.booted n k).tile x).en = false := by
  simp only [State.booted, hn, ↓reduceIte, State.tile, State.unfilled, List.range_eq_range', true_and]
  intro x hx
  rw [Cells.look_listed _ _ (Nat.zero_le x) (by omega)]

end

theorem bootSteps_verified (h : ∀ i, 1 ≤ i → i ≤ 4 → imageFault i = 0) :
    bootSteps (fun i => imageFault i != 0) = 4 :=
  bootSteps_all fun i h1 h4 => by simp only [h i h1 h4, bne_self_eq_false]

theorem bootSteps_stops {n : Nat} (hn : n < 4) (h : ∀ i, 1 ≤ i → i ≤ n → imageFault i = 0)
    (hf : imageFault (n + 1) ≠ 0) : bootSteps (fun i => imageFault i != 0) = n :=
  bootSteps_first hn (fun i h1 h4 => by simp only [h i h1 h4, bne_self_eq_false]) (bne_iff_ne.2 hf)

/-! ### Inbound DMA and application cores (R316, R317, R385) -/

section
variable {s : State}

theorem execInboundDma_read (va root : Nat) : execInboundDma va root none s = .next s := by
  simp only [execInboundDma, ite_self]

theorem execApplicationCoreAccess_beforeBoot (h : s.bootStep = 0) (pa : Nat) (op : HostOp) :
    execApplicationCoreAccess pa op s = .next s := by
  have hr : s.hostRuns = false := decide_eq_false (by omega)
  simp only [execApplicationCoreAccess, hr, Bool.false_eq_true, ↓reduceIte]

section
variable (h : 1 ≤ s.bootStep)
include h

theorem State.hostRuns_booted : s.hostRuns = true := decide_eq_true h

theorem execInboundDma_write (va root : Nat) (bs : List Byte) :
    execInboundDma va root (some bs) s = .next (match s.dmaPlaces root .write va bs.length with
      | none => s
      | some ls => s.dmaWrite ls bs) := by
  simp only [execInboundDma, State.hostRuns_booted h, ↓reduceIte]
  cases s.dmaPlaces root .write va bs.length <;> rfl

theorem execApplicationCoreAccess_device {pa a : Nat} (hl : physLoc pa 0 = some (.device a))
    (bs : List Byte) : execApplicationCoreAccess pa (.store bs) s =
      .next (s.devWrite a bs.length (BitVec.ofNat 64 (leNat bs))) := by
  simp only [execApplicationCoreAccess, State.hostRuns_booted h, hl, ↓reduceIte]

/-- At memory a load changes nothing, a store writes, and an atomic adds where there is no poison. -/
theorem execApplicationCoreAccess_memory {pa : Nat} {l : Loc} (hl : physLoc pa 0 = some l)
    (hd : ∀ a, l ≠ .device a) :
    (∀ m, execApplicationCoreAccess pa (.load m) s = .next s) ∧
      (∀ bs, execApplicationCoreAccess pa (.store bs) s = .next (s.writeLoc l bs)) ∧
      ∀ v, execApplicationCoreAccess pa (.amoAdd v) s =
        .next (if s.poisoned l then s else s.writeW l (s.readW l + v)) := by
  have hp : (if s.hostRuns then physLoc pa 0 else none) = some l :=
    (if_pos (State.hostRuns_booted h)).trans hl
  unfold execApplicationCoreAccess
  rw [hp]
  cases l with
  | device a => exact absurd rfl (hd a)
  | _ => exact ⟨fun _ => rfl, fun _ => rfl, fun _ => (apply_ite Host.Outcome.next ..).symm⟩

end
end

theorem says_packageSteps : Says.PackageSteps := by
  intro s
  refine ⟨?reset, fun _ => rfl, fun va root => execInboundDma_read va root, ?dma,
    fun h pa op => execApplicationCoreAccess_beforeBoot h pa op, ?device, ?memory⟩
  case reset =>
    let n := bootSteps fun i => imageFault i != 0
    obtain ⟨hdram, hremote, hgran, hwire, hcore⟩ := s.booted_keeps n (imageFault (n + 1))
    refine ⟨s.booted n (imageFault (n + 1)), rfl, hdram, hremote, hgran, hwire, hcore, ?_, ?_⟩
    · intro h
      have hn : n = 4 := bootSteps_verified h
      rw [hn]
      exact s.booted_whole _
    · intro m hm h hf
      have hn : n = m := bootSteps_stops hm h hf
      rw [hn]
      exact s.booted_part m _ (by omega)
  case dma => exact fun va root bs h => execInboundDma_write h va root bs
  case device => exact fun pa a bs h hl => execApplicationCoreAccess_device h hl bs
  case memory => exact fun pa l h hl hd => execApplicationCoreAccess_memory h hl hd

end Sys2Proof.Machine
end

section
/-! SUPPORT. Flows, and the forwarding entries that await them, while messages are sent (R307, R360). -/

namespace Sys2Proof.Machine

/-! ### Flows by their keys (R307) -/

section
variable {α : Type} {p q : α → Bool} {g : α}

theorem find?_replaced (hg : p g = true) {l : List α} (h : l.any p = true) :
    (l.map fun x => if p x then g else x).find? p = some g := by
  induction l with
  | nil => cases h
  | cons x l ih =>
    by_cases hx : p x = true
    · simp [hx, hg]
    · simp only [List.any_cons, hx, Bool.false_or] at h
      simp [hx, ih h]

theorem find?_unreplaced (hg : p g = false) (hq : ∀ x, q x = true → p x = false) (l : List α) :
    (l.map fun x => if q x then g else x).find? p = l.find? p := by
  induction l with
  | nil => rfl
  | cons x l ih =>
    by_cases hx : q x = true
    · simp [hx, hg, hq x hx, ih]
    · simp [hx, List.find?_cons, ih]

end

section
variable {s : State} {src dst cls : Nat}

theorem Flow.matches_iff {f : Flow} :
    f.matches src dst cls = true ↔ f.src = src ∧ f.dst = dst ∧ f.cls = cls := by
  simp only [Flow.matches, Bool.and_eq_true, beq_iff_eq, and_assoc]

theorem State.flow_key (s : State) (src dst cls : Nat) :
    (s.flow src dst cls).src = src ∧ (s.flow src dst cls).dst = dst ∧
      (s.flow src dst cls).cls = cls := by
  unfold State.flow
  cases h : s.flows.find? (·.matches src dst cls) with
  | none => exact ⟨rfl, rfl, rfl⟩
  | some f => exact Flow.matches_iff.1 (List.find?_some (p := fun f : Flow => f.matches src dst cls) h)

theorem State.flow_setFlow_same (g : Flow) : (s.setFlow g).flow g.src g.dst g.cls = g := by
  have hg : g.matches g.src g.dst g.cls = true := Flow.matches_iff.2 ⟨rfl, rfl, rfl⟩
  unfold State.flow State.setFlow
  dsimp only
  split
  next h => rw [find?_replaced (p := fun f : Flow => f.matches g.src g.dst g.cls) hg h, Option.getD_some]
  next h =>
    have hn : s.flows.find? (·.matches g.src g.dst g.cls) = none :=
      List.find?_eq_none.2 (by simpa using h)
    rw [List.find?_append, hn, Option.none_or,
      List.find?_cons_of_pos (p := fun f : Flow => f.matches g.src g.dst g.cls) hg, Option.getD_some]

theorem State.flow_setFlow_ne {g : Flow} (hg : g.matches src dst cls = false) :
    (s.setFlow g).flow src dst cls = s.flow src dst cls := by
  have hq (f : Flow) (hf : f.matches g.src g.dst g.cls = true) : f.matches src dst cls = false := by
    obtain ⟨h1, h2, h3⟩ := Flow.matches_iff.1 hf
    rw [← hg, Flow.matches, Flow.matches, h1, h2, h3]
  unfold State.flow State.setFlow
  dsimp only
  split
  · rw [find?_unreplaced (p := fun f : Flow => f.matches src dst cls) hg hq]
  · rw [List.find?_append, List.find?_cons_of_neg (by simp [hg]), List.find?_nil, Option.or_none]

end

/-! ### Flows with messages that are not acknowledged (R360) -/

/-- The flow from `q.1` to `q.2.1` of class `q.2.2` has messages that are not acknowledged. -/
def State.Unacked (s : State) (q : Nat × Nat × Nat) : Prop := (s.flow q.1 q.2.1 q.2.2).copies ≠ []

section
variable {s t : State} {q : Nat × Nat × Nat}

theorem State.Unacked.congr (h : s.Unacked q) (ht : t.flows = s.flows) : t.Unacked q := by
  simpa only [State.Unacked, State.flow, ht] using h

theorem State.Unacked.setFlow (h : s.Unacked q) {g : Flow}
    (hg : (s.flow g.src g.dst g.cls).copies ≠ [] → g.copies ≠ []) : (s.setFlow g).Unacked q := by
  obtain ⟨src, dst, cls⟩ := q
  cases hm : g.matches src dst cls with
  | true =>
    obtain ⟨rfl, rfl, rfl⟩ := Flow.matches_iff.1 hm
    exact (congrArg Flow.copies (s.flow_setFlow_same g)).trans_ne (hg h)
  | false => exact (congrArg Flow.copies (State.flow_setFlow_ne hm)).trans_ne h

/-- Such a flow is listed. -/
theorem State.Unacked.listed (h : s.Unacked q) :
    ∃ f ∈ s.flows, f.src = q.1 ∧ f.dst = q.2.1 ∧ f.cls = q.2.2 := by
  cases hf : s.flows.find? (·.matches q.1 q.2.1 q.2.2) with
  | none => exact absurd (by rw [State.flow, hf]; rfl) h
  | some f =>
    exact ⟨f, List.mem_of_find?_eq_some hf,
      Flow.matches_iff.1 (List.find?_some (p := fun f : Flow => f.matches q.1 q.2.1 q.2.2) hf)⟩

end

/-! ### What the sending of messages leaves (R307) -/

theorem State.core_modCore_proj {s : State} {α : Type} {g : Core → α} {d : Nat} {f : Core → Core}
    (hf : ∀ k, g (f k) = g k) (c : Nat) : g ((s.modCore d f).core c) = g (s.core c) := by
  by_cases h : c = d
  · subst h
    rw [State.core_modCore, hf]
  · rw [State.core_modCore_ne _ _ _ _ h]

/-- A core's record but for what a message that it sends counts. -/
def Core.unsent (k : Core) : Core := { k with sent := 0, pair := none }

/-- From `s` to `t` messages may have been sent: the free values are those of `s`, cores differ only in
the counts of what they sent, and no flow has lost a message that is not acknowledged. -/
structure State.Sends (s t : State) : Prop where
  free : t.free = s.free
  cores : ∀ c, (t.core c).unsent = (s.core c).unsent
  unacked : ∀ q, s.Unacked q → t.Unacked q

namespace State.Sends
variable {s t u : State}

theorem of_eq (hf : t.free = s.free) (hc : t.cores = s.cores) (hw : t.flows = s.flows) : s.Sends t :=
  ⟨hf, fun c => by rw [State.core, State.core, hc], fun _ h => h.congr hw⟩

theorem refl (s : State) : s.Sends s := of_eq rfl rfl rfl

theorem trans (h : s.Sends t) (k : t.Sends u) : s.Sends u :=
  ⟨k.free.trans h.free, fun c => (k.cores c).trans (h.cores c), fun q hq => k.unacked q (h.unacked q hq)⟩

theorem foldl {α : Type} {f : State → α → State} (l : List α)
    (hf : ∀ (t : State) a, t.Sends (f t a)) : s.Sends (l.foldl f s) :=
  List.foldlRecOn l f (motive := s.Sends) (refl s) fun t h a _ => h.trans (hf t a)

theorem modCore (d : Nat) {f : Core → Core} (hf : ∀ k, (f k).unsent = k.unsent) :
    s.Sends (s.modCore d f) :=
  ⟨rfl, State.core_modCore_proj hf, fun _ h => h⟩

theorem setFlow {g : Flow} (hg : (s.flow g.src g.dst g.cls).copies ≠ [] → g.copies ≠ []) :
    s.Sends (s.setFlow g) :=
  ⟨rfl, fun _ => rfl, fun _ h => h.setFlow hg⟩

theorem injectFor (who : Option Word) (p : Packet) : s.Sends (s.injectFor who p) := by
  unfold State.injectFor
  extract_lets f p' t
  have ht : s.Sends t := setFlow fun _ => List.append_ne_nil_of_right_ne_nil _ (List.cons_ne_nil _ _)
  split
  · exact ht.trans (of_eq rfl rfl rfl)
  · exact ht

theorem sendAs (who : Option Word) (d dst cls grp gen : Nat) (pl : Payload) :
    s.Sends (s.sendAs who d dst cls grp gen pl) := by
  unfold State.sendAs
  extract_lets k tag t u
  have ht : s.Sends t := by
    unfold t
    split
    · exact modCore _ fun _ => rfl
    · exact refl s
  have hu : t.Sends u := by
    unfold u
    split
    · exact modCore _ fun _ => rfl
    · exact refl t
  exact (ht.trans hu).trans (injectFor ..)

theorem flowsMoved (p : Nat × Nat) : s.Sends (s.flowsMoved p) :=
  foldl _ fun t f => setFlow fun h => by
    obtain ⟨h1, h2, h3⟩ := t.flow_key p.2 f.dst f.cls
    simpa only [h1, h2, h3] using h

theorem sendMarkers (f : Forward) : s.Sends (s.sendMarkers f) := by
  unfold State.sendMarkers
  extract_lets done go t
  exact (of_eq rfl rfl rfl : s.Sends t).trans (foldl _ fun _ _ => sendAs ..)

theorem sweepForwards : s.Sends s.sweepForwards :=
  foldl _ fun t _ => by
    split
    · exact refl t
    · exact of_eq rfl rfl rfl

end State.Sends

/-! ### Entries that await a flow (R360) -/

/-- An entry forwards the context `ctx` from core `a` to core `c`, and is still to send the marker of
flow `q`. -/
def State.Owes (s : State) (a c : Nat) (ctx : BitVec 12) (q : Nat × Nat × Nat) : Prop :=
  ∃ w ∈ s.forwards, w.src = a ∧ w.dst = c ∧ w.ctx = ctx ∧ q ∈ w.owed

section
variable {s : State}

theorem State.forwards_injectFor (who : Option Word) (p : Packet) :
    (s.injectFor who p).forwards = s.forwards := by
  unfold State.injectFor
  extract_lets f p' t
  split <;> rfl

theorem State.forwards_sendAs (who : Option Word) (d dst cls grp gen : Nat) (pl : Payload) :
    (s.sendAs who d dst cls grp gen pl).forwards = s.forwards := by
  unfold State.sendAs
  extract_lets k tag t u
  have ht : t.forwards = s.forwards := by
    unfold t
    split <;> rfl
  have hu : u.forwards = t.forwards := by
    unfold u
    split <;> rfl
  rw [State.forwards_injectFor, hu, ht]

variable {a c : Nat} {ctx : BitVec 12} {q : Nat × Nat × Nat}

theorem State.Owes.congr {t : State} (h : s.Owes a c ctx q) (ht : t.forwards = s.forwards) :
    t.Owes a c ctx q := by rwa [State.Owes, ht]

/-- The marker of a flow is not sent before the flow's messages are acknowledged. -/
theorem State.Owes.sendMarkers (h : s.Owes a c ctx q) (hq : s.Unacked q) (f : Forward) :
    (s.sendMarkers f).Owes a c ctx q := by
  obtain ⟨w, hw, hsrc, hdst, hctx, howed⟩ := h
  unfold State.sendMarkers
  extract_lets done go t
  have hd : done q = false := by
    simp only [done, beq_eq_false_iff_ne.2 hq, Bool.false_and]
  have hu : t.Owes a c ctx q := by
    refine ⟨_, List.mem_map_of_mem hw, ?_⟩
    split
    · exact ⟨hsrc, hdst, hctx, List.mem_filter.2 ⟨howed, by rw [hd]; rfl⟩⟩
    · exact ⟨hsrc, hdst, hctx, howed⟩
  exact List.foldlRecOn go _ (motive := fun u : State => u.Owes a c ctx q) hu
    fun u h _ _ => h.congr (State.forwards_sendAs ..)

/-- An entry that has a marker to send stays. -/
theorem State.Owes.sweepForwards (h : s.Owes a c ctx q) : s.sweepForwards.Owes a c ctx q := by
  refine List.foldlRecOn _ _ (motive := fun u : State => u.Owes a c ctx q) h fun u h _ _ => ?_
  split
  · exact h
  · obtain ⟨w, hw, hsrc, hdst, hctx, howed⟩ := h
    refine ⟨w, List.mem_filter.2 ⟨hw, ?_⟩, hsrc, hdst, hctx, howed⟩
    simp only [State.draining, bne_iff_ne.2 (List.ne_nil_of_mem howed), Bool.true_or]

/-- What all entries have to send is sent. -/
def State.markersSent (s : State) : State := s.forwards.foldl (fun s f => s.sendMarkers f) s

theorem State.Sends.markersSent : s.Sends s.markersSent := foldl _ fun _ f => sendMarkers f

theorem State.Owes.markersSent (h : s.Owes a c ctx q) (hq : s.Unacked q) :
    s.markersSent.Owes a c ctx q :=
  (List.foldlRecOn s.forwards _
    (motive := fun u : State => u.Unacked q ∧ u.Owes a c ctx q) ⟨hq, h⟩ fun _ h f _ =>
      ⟨(State.Sends.sendMarkers f).unacked q h.1, h.2.sendMarkers h.1 f⟩).2

end
end Sys2Proof.Machine
end

section
/-! SUPPORT. The switch of a migration (R358 to R360): the context at the destination, the site that it
leaves, and what stays as it is. -/

namespace Sys2Proof.Machine

/-! ### What the switch leaves of a core's record -/

/-- A core's record but for the words read early. -/
def Core.unread (k : Core) : Core := { k with earlyLoads := [] }

/-- The part of a core's record that stays as it is when the cores of a launch are told that one of them has
moved, and when messages are sent: all but what names other cores, what is on its way, and the gate. -/
def Core.kept (k : Core) : Core :=
  { k with
    bindtab := [], arrivals := [], evq := [], copies := [], fifo := []
    tq := { k.tq with prods := [] }, wr := { k.wr with prods := [] }
    pair := none, sent := 0, gate := .on, earlyLoads := [] }

/-- The free values, the dies, the flows and the forwarding entries. -/
def State.routes (s : State) : Nat × Cells Die × List Flow × List Forward :=
  (s.free, s.dies, s.flows, s.forwards)

theorem Core.bindtab_of_unread {k l : Core} (h : k.unread = l.unread) : k.bindtab = l.bindtab :=
  (congrArg Core.bindtab h :)

section
variable {s t : State} (h : t.routes = s.routes)
include h

theorem State.free_of_routes : t.free = s.free := congrArg Prod.fst h
theorem State.dies_of_routes : t.dies = s.dies := congrArg (·.2.1) h
theorem State.flows_of_routes : t.flows = s.flows := congrArg (·.2.2.1) h

end

section
variable {s : State}

theorem State.core_wake_proj {α : Type} {g : Core → α} (hg : ∀ k x, g { k with gate := x } = g k)
    (d c : Nat) : g ((s.wake d).core c) = g (s.core c) := by
  unfold State.wake
  split
  · rfl
  · rfl
  · rfl
  · exact State.core_modCore_proj (fun k => hg k _) c
  · exact State.core_modCore_proj (fun k => hg k _) c
  · exact State.core_modCore_proj (s := s.setArbiter _ _) (fun k => hg k _) c

theorem State.routes_setCore (c : Nat) (k : Core) : (s.setCore c k).routes = s.routes := rfl
theorem State.routes_dropAsk (c : Nat) : (s.dropAsk c).routes = s.routes := rfl
theorem State.routes_dropCached (c : Nat) : (s.dropCached c).routes = s.routes := rfl

theorem State.routes_wake (d : Nat) : (s.wake d).routes = s.routes := by
  unfold State.wake
  split <;> rfl

/-! ### Scratchpad accesses on their way (R84) -/

theorem State.landAll_none {c : Nat} (h : (s.core c).lateStores = []) (p : LateStore → Bool) :
    s.landAll c p = s := by
  simp only [State.landAll, h, List.any_nil, Bool.false_eq_true, ↓reduceIte]

theorem State.core_dropEarly (d : Nat) (p : EarlyLoad → Bool) (c : Nat) :
    ((s.dropEarly d p).core c).unread = (s.core c).unread := by
  unfold State.dropEarly
  split
  · exact State.core_modCore_proj (g := Core.unread) (by intro; rfl) c
  · rfl

theorem State.routes_dropEarly (d : Nat) (p : EarlyLoad → Bool) :
    (s.dropEarly d p).routes = s.routes := by
  unfold State.dropEarly
  split <;> rfl

/-- Where no store goes late, settling only forgets what has been read early. -/
theorem State.settleTiles_noLate (hl : ∀ c, (s.core c).lateStores = []) (ps : List (Nat × Nat)) :
    (s.settleTiles ps).routes = s.routes ∧
      ∀ c, ((s.settleTiles ps).core c).unread = (s.core c).unread := by
  unfold State.settleTiles
  extract_lets cs
  refine List.foldlRecOn cs _ (motive := fun t : State =>
    t.routes = s.routes ∧ ∀ c, (t.core c).unread = (s.core c).unread) ⟨rfl, fun _ => rfl⟩ ?_
  rintro t ⟨hr, hc⟩ d -
  have hd : (t.core d).lateStores = [] := (congrArg Core.lateStores (hc d) :).trans (hl d)
  rw [State.landAll_none hd]
  exact ⟨(State.routes_dropEarly ..).trans hr, fun c => (State.core_dropEarly ..).trans (hc c)⟩

end

/-! ### One context moves (R359) -/

theorem moved_one (a c x : Nat) : moved [(a, c)] x = if x = a then c else x := by
  by_cases h : x = a
  · simp [moved, h]
  · simp [moved, h, Ne.symm h]

/-- The context of core `a` as it stands at core `c`. -/
def State.arrived (s : State) (a c : Nat) : Core :=
  { arrivedCore [(a, c)] a (s.core a) (s.core c) with
    ct := (s.core a).ct.withCycle (s.coreCycles c) (s.mcycleOf a) }

/-- The contexts are at their destinations. -/
def State.contextsMoved (s : State) (ps : List (Nat × Nat)) : State :=
  ps.foldl (fun s p => s.switchCore ps p) (s.settleTiles ps)

section
variable {s : State} {a c : Nat}

theorem State.switchCore_eq : s.switchCore [(a, c)] (a, c) =
    (((((s.setCore c (s.arrived a c)).setCore a (s.core a).leftSite).dropAsk a).dropCached a).dropCached
      c).wake c := by
  simp only [State.switchCore, State.arrived]

theorem State.routes_switchCore : (s.switchCore [(a, c)] (a, c)).routes = s.routes := by
  rw [State.switchCore_eq, State.routes_wake, State.routes_dropCached, State.routes_dropCached,
    State.routes_dropAsk, State.routes_setCore, State.routes_setCore]

theorem State.core_switchCore {α : Type} {g : Core → α} (hg : ∀ k x, g { k with gate := x } = g k)
    (hac : a ≠ c) (x : Nat) : g ((s.switchCore [(a, c)] (a, c)).core x) =
      g (if x = c then s.arrived a c else if x = a then (s.core a).leftSite else s.core x) := by
  rw [State.switchCore_eq, State.core_wake_proj hg]
  change g (((s.setCore c (s.arrived a c)).setCore a (s.core a).leftSite).core x) = _
  congr 1
  by_cases hx : x = a
  · subst hx
    rw [if_neg hac, if_pos rfl]
    exact State.core_setCore ..
  · rw [if_neg hx]
    refine (State.core_setCore_ne _ _ _ _ hx).trans ?_
    by_cases hc : x = c
    · subst hc
      rw [if_pos rfl]
      exact State.core_setCore ..
    · rw [if_neg hc]
      exact State.core_setCore_ne _ _ _ _ hc

/-- A hart whose mcycle is to read as a value reads so (R33). -/
theorem State.mcycleOf_withCycle {h : Hart} {v : DWord}
    (hc : s.hart c = h.withCycle (s.coreCycles c) v) : s.mcycleOf c = v := by
  unfold State.mcycleOf
  rw [hc]
  unfold Hart.withCycle
  dsimp only
  split
  · rfl
  · exact BitVec.sub_add_cancel ..

/-- What arrives does not rest on what has been read early. -/
theorem State.arrived_unread {t : State} (hf : t.free = s.free)
    (hc : ∀ x, (t.core x).unread = (s.core x).unread) : (t.arrived a c).kept = (s.arrived a c).kept := by
  have hcyc (x : Nat) : t.coreCycles x = s.coreCycles x := by rw [State.coreCycles, State.coreCycles, hf]
  have hct : (t.core a).ct = (s.core a).ct := (congrArg Core.ct (hc a) :)
  have hm : t.mcycleOf a = s.mcycleOf a := by
    rw [State.mcycleOf, State.mcycleOf, State.hart, State.hart, hct, hcyc]
  unfold State.arrived
  rw [hct, hcyc, hm]
  exact (congrArg₂ (fun k own : Core => Core.kept { arrivedCore [(a, c)] a k own with
    ct := (s.core a).ct.withCycle (s.coreCycles c) (s.mcycleOf a) }) (hc a) (hc c) :)

theorem State.contextsMoved_one : s.contextsMoved [(a, c)] =
    (s.settleTiles [(a, c)]).switchCore [(a, c)] (a, c) := by
  rw [State.contextsMoved, List.foldl_cons, List.foldl_nil]

theorem State.core_contextsMoved_source (hac : a ≠ c) :
    ∃ k : Core, ((s.contextsMoved [(a, c)]).core a).kept = k.leftSite.kept := by
  refine ⟨(s.settleTiles [(a, c)]).core a, ?_⟩
  rw [State.contextsMoved_one, State.core_switchCore (g := Core.kept) (fun _ _ => rfl) hac,
    if_neg hac, if_pos rfl]

section
variable (hac : a ≠ c) (hl : ∀ c, (s.core c).lateStores = [])
include hl

theorem State.routes_contextsMoved : (s.contextsMoved [(a, c)]).routes = s.routes := by
  rw [State.contextsMoved_one, State.routes_switchCore]
  exact (s.settleTiles_noLate hl _).1

include hac

theorem State.core_contextsMoved_dest :
    ((s.contextsMoved [(a, c)]).core c).kept = (s.arrived a c).kept := by
  obtain ⟨hr, hc⟩ := s.settleTiles_noLate hl [(a, c)]
  rw [State.contextsMoved_one, State.core_switchCore (g := Core.kept) (fun _ _ => rfl) hac,
    if_pos rfl]
  exact State.arrived_unread (State.free_of_routes hr) hc

theorem State.bindtab_contextsMoved {e : Nat} (hea : e ≠ a) (hec : e ≠ c) :
    ((s.contextsMoved [(a, c)]).core e).bindtab = (s.core e).bindtab := by
  rw [State.contextsMoved_one, State.core_switchCore (g := Core.bindtab) (fun _ _ => rfl) hac,
    if_neg hec, if_neg hea]
  exact Core.bindtab_of_unread ((s.settleTiles_noLate hl [(a, c)]).2 e)

end
end

end Sys2Proof.Machine
end

section
/-! SUPPORT. The parts of a migration's switch: the binding tables and nodes that name the destination, and
the entry that forwards (R358 to R361). -/

namespace Sys2Proof.Machine

/-! ### Binding tables (R360) -/

theorem Cells.get?_map {α β : Type} (g : α → β) (m : Cells α) (r : Nat) :
    Cells.get? (m.map fun e => (e.1, g e.2)) r = (Cells.get? m r).map g := by
  simp only [Cells.get?, List.find?_map, Function.comp_def, Option.map_map]

theorem Cells.get?_map_proj {α β : Type} {g : α → β} {f : Nat × α → Nat × α}
    (hk : ∀ e, (f e).1 = e.1) (hg : ∀ e, g (f e).2 = g e.2) (m : Cells α) (k : Nat) :
    (Cells.get? (m.map f) k).map g = (Cells.get? m k).map g := by
  simp only [Cells.get?, List.find?_map, Function.comp_def, Option.map_map, hk, hg]

/-- An entry that names another unit: bits 9:0 are the unit's, the others stay. -/
theorem toNat_withUnit (w : Word) {u : Nat} (hu : u < 1024) :
    ((w &&& ~~~0x3FF#32) ||| BitVec.ofNat 32 u).toNat = w.toNat / 1024 * 1024 + u := by
  rw [Nat.mul_comm, Nat.two_pow_add_eq_or_of_lt (i := 10) hu]
  refine Nat.eq_of_testBit_eq fun i => ?_
  have hm : (0x3FF#32).getLsbD i = decide (i < 10) := by
    rw [show 0x3FF#32 = BitVec.ofNat 32 (2 ^ 10 - 1) from rfl, BitVec.getLsbD_ofNat,
      Nat.testBit_two_pow_sub_one, Bool.and_eq_right_iff_imp]
    simp only [decide_eq_true_eq]
    omega
  simp only [BitVec.testBit_toNat, BitVec.getLsbD_or, BitVec.getLsbD_and, BitVec.getLsbD_not, hm,
    BitVec.getLsbD_ofNat, Nat.testBit_or, Nat.testBit_two_pow_mul]
  by_cases hi : i < 10
  · simp [hi, show i < 32 by omega]
  · have hd : (w.toNat / 1024).testBit (i - 10) = w.getLsbD i := by
      rw [show 1024 = 2 ^ 10 from rfl, Nat.testBit_div_two_pow, Nat.sub_add_cancel (by omega)]
      rfl
    have hn : u.testBit i = false := Nat.testBit_lt_two_pow (hu.trans_le (Nat.pow_le_pow_right
      (n := 2) (by decide) (show 10 ≤ i by omega)))
    have hw (h : ¬i < 32) : w.getLsbD i = false := BitVec.getLsbD_of_ge _ _ (by omega)
    by_cases h : i < 32 <;> simp [hi, hd, hn, h, hw, show 10 ≤ i by omega]

section
variable {a c : Nat} {w : Word} (h31 : w.getLsbD 31 = true) (hl : w.toNat / 2 ^ 28 % 8 < 2)
  (hp : w.toNat / 2 ^ 10 % 512 = Config.pkgNum)
include h31 hl hp

theorem movedBind_core (ps : List (Nat × Nat)) :
    movedBind ps w = (w &&& ~~~0x3FF#32) ||| BitVec.ofNat 32 (moved ps (w.toNat % 1024)) := by
  simp only [movedBind, h31, hp, hl, beq_self_eq_true, Bool.and_self, ↓reduceIte]

/-- An entry that already names the destination stays as it is. -/
theorem movedBind_moved (hc : c < 1024) {ps : List (Nat × Nat)} (hm : moved ps c = c) :
    movedBind ps ((w &&& ~~~0x3FF#32) ||| BitVec.ofNat 32 c) =
      (w &&& ~~~0x3FF#32) ||| BitVec.ofNat 32 c := by
  generalize hv : (w &&& ~~~0x3FF#32) ||| BitVec.ofNat 32 c = v
  have hn : v.toNat = w.toNat / 1024 * 1024 + c := hv ▸ toNat_withUnit w hc
  have hlt := w.isLt
  have h31' : v.getLsbD 31 = true := by simp [← hv, h31]
  have hu : v.toNat % 1024 = c := by omega
  rw [movedBind_core h31' (by omega) (by omega), hu, hm]
  refine BitVec.eq_of_toNat_eq ?_
  rw [toNat_withUnit v hc]
  omega

end

/-- Told any number of times, at least once, a core has the destination where it had the source. -/
theorem bindtab_launchCoreMoved {a c r n : Nat} {w : Word} {k : Core} (hac : a ≠ c) (hc : c < 1024)
    (hw : k.bindtab.get? r = some w) (h31 : w.getLsbD 31 = true) (hl : w.toNat / 2 ^ 28 % 8 < 2)
    (hp : w.toNat / 2 ^ 10 % 512 = Config.pkgNum) (hu : w.toNat % 1024 = a) :
    ((launchCoreMoved [(a, c)])^[n + 1] k).bindtab.get? r =
      some ((w &&& ~~~0x3FF#32) ||| BitVec.ofNat 32 c) := by
  have hstep (k : Core) : (launchCoreMoved [(a, c)] k).bindtab.get? r =
      (k.bindtab.get? r).map (movedBind [(a, c)]) := Cells.get?_map ..
  induction n with
  | zero =>
    rw [Function.iterate_one, hstep, hw, Option.map_some, movedBind_core h31 hl hp, hu, moved_one,
      if_pos rfl]
  | succ n ih =>
    rw [Function.iterate_succ_apply', hstep, ih, Option.map_some,
      movedBind_moved h31 hl hp hc (by rw [moved_one, if_neg hac.symm])]

/-! ### The parts of the switch -/

/-- Poisoned places, queue homes, barriers and child launches follow what has moved (R359 to R361). -/
def State.placesMoved (s : State) (ps : List (Nat × Nat)) : State :=
  { s with
    poison := s.poison.map (movedSite ps)
    qhomes := s.qhomes.map fun q =>
      if q.2.spc = 1 then (q.1, { q.2 with unit := moved ps q.2.unit })
      else if q.2.spc = 2 then (q.1, { q.2 with unit := movedTile ps q.2.unit })
      else q
    barriers := s.barriers.map fun b => { b with key := movedKey ps b.key }
    barPending := s.barPending.map fun a => { a with key := movedKey ps a.key }
    dies := s.dies.map fun e => (e.1, movedDie ps e.2) }

/-- The node of the launch names the destinations. -/
def State.nodeMoved (s : State) (ps : List (Nat × Nat)) : Option Nat → State
  | some n => s.modNode n fun x =>
    { x with cores := x.cores.map (moved ps), twins := x.twins.map (moved ps) }
  | none => s

/-- The cores of a launch. -/
def State.launchCores (s : State) (node : Option Nat) : List Nat :=
  match node.bind s.node? with
  | some x => x.cores ++ x.twins
  | none => []

/-- The cores of the launch are told. -/
def State.membersMoved (s : State) (ps : List (Nat × Nat)) (cs : List Nat) : State :=
  cs.foldl (fun s c => s.modCore c (launchCoreMoved ps)) s

/-- The sources forward the context. -/
def State.forwarding (s : State) (ps : List (Nat × Nat)) (ctx : BitVec 12) (cs : List Nat) : State :=
  { s with
    forwards := s.forwards ++ ps.map fun (p : Nat × Nat) =>
      (⟨p.1, p.2, ctx, s.markerFlows ps cs p.1, s.markerFlows ps cs p.1⟩ : Forward) }

/-- All of the package's places and its node follow the contexts of `ps`. -/
def State.sitesMoved (s : State) (ps : List (Nat × Nat)) (node : Option Nat) : State :=
  ((s.contextsMoved ps).placesMoved ps).nodeMoved ps node

/-- Messages of the context name moved senders, and then the cores of the launch are told. -/
def State.told (s : State) (ps : List (Nat × Nat)) (node : Option Nat) (ctx : BitVec 12) : State :=
  ((s.sitesMoved ps node).renameSenders ps ctx).membersMoved ps ((s.sitesMoved ps node).launchCores node)

/-- The package after the switch of the contexts of `ps`, of node `node` and context `ctx`. -/
def State.switched (s : State) (ps : List (Nat × Nat)) (node : Option Nat) (ctx : BitVec 12) : State :=
  ((ps.foldl (fun s p => s.flowsMoved p) (s.told ps node ctx)).forwarding ps ctx
    ((s.sitesMoved ps node).launchCores node)).markersSent.sweepForwards

theorem execMigrationSwitch_streamed {s : State} {d : Nat} {ps : List (Nat × Nat)}
    (h : (s.die d).migration = some ⟨ps, true⟩) : execMigrationSwitch d s =
      .next (((s.switched ps (ps.head?.bind fun p => (s.core p.1).launch)
        ((ps.head?.map fun p => (s.core p.1).ctx).getD 0)).migStat d 2 0).modDie d
          fun x => { x with migration := none }) := by
  simp only [execMigrationSwitch, h, Bool.not_true, Bool.false_eq_true, ↓reduceIte]
  rfl

/-! ### What the parts leave (R358 to R360) -/

section
variable {s : State} {ps : List (Nat × Nat)} {node : Option Nat} {ctx : BitVec 12}

theorem State.Sends.placesMoved : s.Sends (s.placesMoved ps) := of_eq rfl rfl rfl

theorem State.Sends.forwarding (cs : List Nat) : s.Sends (s.forwarding ps ctx cs) := of_eq rfl rfl rfl

theorem State.Sends.nodeMoved : s.Sends (s.nodeMoved ps node) := by
  unfold State.nodeMoved State.modNode
  split
  · split
    · exact of_eq rfl rfl rfl
    · exact refl s
  · exact refl s

/-- Renamed messages stay in their flows. -/
theorem State.Sends.renameSenders : s.Sends (s.renameSenders ps ctx) := by
  refine ⟨rfl, fun _ => rfl, fun q h => ?_⟩
  unfold State.Unacked State.flow at h ⊢
  cases hf : s.flows.find? (fun f : Flow => f.matches q.1 q.2.1 q.2.2) with
  | none => simp [hf] at h
  | some f =>
    simp only [Flow.matches] at hf
    simpa [State.renameSenders, List.find?_map, Function.comp_def, Flow.matches, hf] using h

theorem State.Sends.sitesMoved_renameSenders :
    (s.contextsMoved ps).Sends ((s.sitesMoved ps node).renameSenders ps ctx) :=
  (placesMoved.trans nodeMoved).trans renameSenders

theorem State.core_membersMoved (cs : List Nat) (x : Nat) :
    (s.membersMoved ps cs).core x = (launchCoreMoved ps)^[cs.count x] (s.core x) := by
  induction cs generalizing s with
  | nil => rfl
  | cons d ds ih =>
    refine (ih (s := s.modCore d (launchCoreMoved ps))).trans ?_
    by_cases h : x = d
    · subst h
      rw [List.count_cons_self, Function.iterate_succ_apply, State.core_modCore]
    · rw [List.count_cons_of_ne (Ne.symm h), State.core_modCore_ne _ _ _ _ h]

theorem State.routes_membersMoved (cs : List Nat) : (s.membersMoved ps cs).routes = s.routes :=
  List.foldlRecOn cs _ (motive := fun t : State => t.routes = s.routes) rfl
    fun _ h _ _ => (State.routes_setCore ..).trans h

theorem kept_launchCoreMoved (n : Nat) (k : Core) : ((launchCoreMoved ps)^[n] k).kept = k.kept := by
  induction n with
  | zero => rfl
  | succ n ih =>
    rw [Function.iterate_succ_apply', ← ih]
    rfl

theorem State.Sends.switched : (s.told ps node ctx).Sends (s.switched ps node ctx) :=
  (((foldl ps fun _ p => flowsMoved p).trans (forwarding _)).trans markersSent).trans sweepForwards

/-- Once the contexts have moved, the switch leaves the rest of a core's record as it is. -/
theorem State.kept_switched (x : Nat) :
    ((s.switched ps node ctx).core x).kept = ((s.contextsMoved ps).core x).kept := by
  have hk {k l : Core} (h : k.unsent = l.unsent) : k.kept = l.kept := (congrArg Core.kept h :)
  rw [hk (State.Sends.switched.cores x), State.told, State.core_membersMoved, kept_launchCoreMoved,
    hk (State.Sends.sitesMoved_renameSenders.cores x)]

theorem State.free_switched : (s.switched ps node ctx).free = (s.contextsMoved ps).free :=
  State.Sends.switched.free.trans ((State.free_of_routes (State.routes_membersMoved _)).trans
    State.Sends.sitesMoved_renameSenders.free)

theorem State.bindtab_switched (x : Nat) : ∃ k : Core,
    k.bindtab = ((s.contextsMoved ps).core x).bindtab ∧ ((s.switched ps node ctx).core x).bindtab =
      ((launchCoreMoved ps)^[((s.sitesMoved ps node).launchCores node).count x] k).bindtab := by
  have hb {k l : Core} (h : k.unsent = l.unsent) : k.bindtab = l.bindtab :=
    (congrArg Core.bindtab h :)
  refine ⟨((s.sitesMoved ps node).renameSenders ps ctx).core x,
    hb (State.Sends.sitesMoved_renameSenders.cores x), ?_⟩
  rw [hb (State.Sends.switched.cores x), State.told, State.core_membersMoved]

end

/-! ### The cores of the launch, and the entry that forwards (R360) -/

section
variable {s : State} {ps : List (Nat × Nat)} {n e : Nat}

theorem State.cores_placesMoved :
    ((s.placesMoved ps).node? n).map Node.cores = (s.node? n).map Node.cores :=
  Cells.look_map (g := fun x : Die => (x.nodes.get? (n % 4096)).map Node.cores)
    (f := fun e => (e.1, movedDie ps e.2)) (fun _ => rfl)
    (fun _ => Cells.get?_map_proj (by intro; rfl) (by intro; rfl) ..) s.dies (n / 4096)

theorem State.mem_launchCores_nodeMoved {y : Node} (hy : s.node? n = some y) (he : e ∈ y.cores)
    (hm : moved ps e = e) : e ∈ (s.nodeMoved ps (some n)).launchCores (some n) := by
  simp only [State.nodeMoved, State.modNode, hy, State.launchCores, Option.bind_some,
    State.node?_setNode_same, List.mem_append, List.mem_map]
  exact .inl ⟨e, he, hm⟩

/-- A core of the launch that does not move stays one. -/
theorem State.mem_launchCores_sitesMoved {x : Node}
    (hd : (s.contextsMoved ps).dies = s.dies) (hx : s.node? n = some x) (he : e ∈ x.cores)
    (hm : moved ps e = e) : e ∈ (s.sitesMoved ps (some n)).launchCores (some n) := by
  have hc : (((s.contextsMoved ps).placesMoved ps).node? n).map Node.cores = some x.cores := by
    rw [State.cores_placesMoved, State.node?_congr hd, hx]
    rfl
  obtain ⟨y, hy, hxy⟩ := Option.map_eq_some_iff.1 hc
  exact State.mem_launchCores_nodeMoved hy (hxy ▸ he) hm

/-- A flow to the old endpoint that has messages which are not acknowledged owes a marker. -/
theorem State.mem_markerFlows {cs : List Nat} {a cls : Nat} (hq : s.Unacked (e, a, cls)) (he : e ∈ cs)
    (hm : moved ps e = e) : (e, a, cls) ∈ s.markerFlows ps cs a := by
  obtain ⟨f, hf, hsrc, hdst, hcls⟩ := hq.listed
  refine List.mem_dedup.2 (List.mem_map.2 ⟨f, List.mem_filter.2 ⟨hf, ?_⟩, ?_⟩)
  · simp only [hsrc, hdst, hm, List.contains_iff_mem.2 he, beq_self_eq_true, Bool.true_or, Bool.and_self]
  · rw [hsrc, hdst, hcls, hm]

theorem State.owes_switched {a c cls : Nat} {node : Option Nat} {ctx : BitVec 12}
    (hq : (s.contextsMoved [(a, c)]).Unacked (e, a, cls))
    (he : e ∈ (s.sitesMoved [(a, c)] node).launchCores node) (hm : moved [(a, c)] e = e) :
    (s.switched [(a, c)] node ctx).Owes a c ctx (e, a, cls) := by
  have ht : (s.told [(a, c)] node ctx).Unacked (e, a, cls) :=
    (State.Sends.sitesMoved_renameSenders.unacked _ hq).congr
      (State.flows_of_routes (State.routes_membersMoved _))
  have hu := (State.Sends.flowsMoved (a, c)).unacked _ ht
  rw [State.switched, List.foldl_cons, List.foldl_nil]
  refine (State.Owes.markersSent ?_ (State.Sends.unacked (.forwarding _) _ hu)).sweepForwards
  exact ⟨_, List.mem_append_right _ (List.mem_singleton_self _), rfl, rfl, rfl,
    State.mem_markerFlows hu he hm⟩

end

end Sys2Proof.Machine
end

section
/-! SUPPORT. The stream and the switch of a migration as wholes (R357 to R361, R403). -/

namespace Sys2Proof.Machine

theorem execMigrationStream_drained {s : State} {d : Nat} {ps : List (Nat × Nat)}
    (h : (s.die d).migration = some ⟨ps, false⟩) (hd : ps.all (fun p => s.drained p.1) = true) :
    execMigrationStream d s = .next ((ps.foldl (fun s p => s.migRecords p.1 p.2) s).modDie d
      fun x => { x with migration := some ⟨ps, true⟩ }) := by
  simp only [execMigrationStream, h, hd, Bool.not_true, Bool.or_self, Bool.false_eq_true, ↓reduceIte]

theorem Cells.look_mapVal {α : Type} {d : α} {f : α → α} (hd : f d = d) (m : Cells α) (k : Nat) :
    Cells.look d (m.map fun e => (e.1, f e.2)) k = f (Cells.look d m k) := by
  induction m with
  | nil => exact hd.symm
  | cons e m ih =>
    obtain ⟨a, v⟩ := e
    simp only [List.map_cons, Cells.look]
    split
    · exact hd.symm
    · split
      · rfl
      · exact ih

/-! ### The context at the destination (R359) -/

section
variable {s t : State} {a c : Nat} (h : (t.core c).kept = (s.arrived a c).kept)
include h

theorem State.mt_arrived (m : Nat) : t.mt c m = movedMt [(a, c)] (s.mt a m) :=
  (congrArg (fun k : Core => k.mts.look Mt.init m) h :).trans (Cells.look_mapVal (by rfl) ..)

theorem State.mcycleOf_arrived (hf : t.free = s.free) : t.mcycleOf c = s.mcycleOf a := by
  refine State.mcycleOf_withCycle (h := (s.core a).ct) ?_
  rw [State.coreCycles, hf]
  exact (congrArg Core.ct h :)

end

/-! ### The switch (R358 to R360) -/

/-- What a switch ends with: the migration is over, and MIGSTAT says that it is complete. -/
theorem execMigrationSwitch_ends {s : State} {d : Nat} {ps : List (Nat × Nat)}
    (h : (s.die d).migration = some ⟨ps, true⟩) : ∃ t, execMigrationSwitch d s = .next t ∧
      ((t.die d).migration = none ∧ (t.die d).migst = 2 ∧ (t.die d).migwhy = 0) ∧
      let u := s.switched ps (ps.head?.bind fun p => (s.core p.1).launch)
        ((ps.head?.map fun p => (s.core p.1).ctx).getD 0)
      t.cores = u.cores ∧ t.free = u.free ∧ t.forwards = u.forwards := by
  refine ⟨_, execMigrationSwitch_streamed h, ?_⟩
  generalize s.switched ps _ _ = u
  refine ⟨?_, rfl, rfl, rfl⟩
  simp only [State.die_modDie, State.migStat, and_self]

section
variable {s : State} {a c n : Nat} {x : Node} {node : Option Nat} {ctx : BitVec 12}
  (hac : a ≠ c) (hl : ∀ c, (s.core c).lateStores = [])

include hac in
theorem State.kept_switched_source :
    ∃ k : Core, ((s.switched [(a, c)] node ctx).core a).kept = k.leftSite.kept := by
  obtain ⟨k, hk⟩ := State.core_contextsMoved_source (s := s) hac
  exact ⟨k, (State.kept_switched a).trans hk⟩

include hl

theorem State.free_switched_one : (s.switched [(a, c)] node ctx).free = s.free :=
  State.free_switched.trans (State.free_of_routes (State.routes_contextsMoved hl))

include hac in
theorem State.kept_switched_dest :
    ((s.switched [(a, c)] node ctx).core c).kept = (s.arrived a c).kept :=
  (State.kept_switched c).trans (State.core_contextsMoved_dest hac hl)

variable {e : Nat} (hx : s.node? n = some x) (he : e ∈ x.cores) (hea : e ≠ a)
include hx he hea

theorem State.mem_launchCores_stays : e ∈ (s.sitesMoved [(a, c)] (some n)).launchCores (some n) :=
  State.mem_launchCores_sitesMoved (State.dies_of_routes (State.routes_contextsMoved hl)) hx he
    (by rw [moved_one, if_neg hea])

include hac in
theorem State.bindtab_switched_names (hec : e ≠ c) (hc : c < 1024) {r : Nat} {w : Word}
    (hw : (s.core e).bindtab.get? r = some w) (h31 : w.getLsbD 31 = true)
    (hv : w.toNat / 2 ^ 28 % 8 < 2) (hp : w.toNat / 2 ^ 10 % 512 = Config.pkgNum)
    (hu : w.toNat % 1024 = a) :
    ((s.switched [(a, c)] (some n) ctx).core e).bindtab.get? r =
      some ((w &&& ~~~0x3FF#32) ||| BitVec.ofNat 32 c) := by
  have hm := State.mem_launchCores_stays (c := c) hl hx he hea
  obtain ⟨i, hi⟩ := Nat.exists_eq_add_of_lt (List.count_pos_iff.2 hm)
  obtain ⟨k, hk, ht⟩ :=
    State.bindtab_switched (s := s) (ps := [(a, c)]) (node := some n) (ctx := ctx) e
  rw [State.bindtab_contextsMoved hac hl hea hec] at hk
  rw [ht, hi, Nat.zero_add]
  exact bindtab_launchCoreMoved hac hc (hk ▸ hw) h31 hv hp hu

theorem State.owes_switched_one {cls : Nat} (hq : s.Unacked (e, a, cls)) :
    (s.switched [(a, c)] (some n) ctx).Owes a c ctx (e, a, cls) :=
  State.owes_switched (hq.congr (State.flows_of_routes (State.routes_contextsMoved hl)))
    (State.mem_launchCores_stays hl hx he hea) (by rw [moved_one, if_neg hea])

end

theorem says_migrationSteps : Says.MigrationSteps := by
  intro s d ps b hd h
  refine ⟨fun hb hq => ?stream, fun hb => ?switch⟩
  case stream =>
    subst hb
    exact execMigrationStream_drained h hq
  case switch =>
    subst hb
    obtain ⟨t, ht, ⟨hmig, hst, hwhy⟩, hcores, hfree, hfwd⟩ := execMigrationSwitch_ends h
    refine ⟨t, ht, hmig, hst, hwhy, ?one⟩
    rintro a c n x rfl hac - hc hlate hn hx k l
    have hl (c : Nat) : (s.core c).lateStores = [] :=
      Cells.look_mem (P := fun k : Core => k.lateStores = []) rfl hlate c
    simp only [List.head?_cons, Option.bind_some, Option.map_some, Option.getD_some, hn]
      at hcores hfree hfwd
    have hcore (y : Nat) : t.core y = (s.switched [(a, c)] (some n) k.ctx).core y :=
      congrArg (Cells.look Core.init · y) hcores
    have hdest : l.kept = (s.arrived a c).kept :=
      (congrArg Core.kept (hcore c)).trans (State.kept_switched_dest hac hl)
    obtain ⟨o, ho⟩ := State.kept_switched_source (s := s) (node := some n) (ctx := k.ctx) hac
    have hsource : (t.core a).kept = o.leftSite.kept := (congrArg Core.kept (hcore a)).trans ho
    refine ⟨(congrArg Core.launch hdest :).trans hn, (congrArg Core.ctx hdest :),
      (congrArg Core.inc hdest :), (congrArg Core.frozen hdest :),
      fun m => ⟨_, _, _, _, State.mt_arrived hdest m⟩, (congrArg Core.scratch hdest :),
      (congrArg Core.lane hdest :), (congrArg Core.mbox hdest :), (congrArg Core.banks hdest :),
      (congrArg Core.inbox hdest :), (congrArg Core.actors hdest :), (congrArg Core.links hdest :),
      (congrArg Core.seq hdest :), (congrArg Core.ring hdest :), (congrArg (·.tq.held) hdest :),
      (congrArg (·.mx.cache) hdest :), (congrArg (·.mx.spgen) hdest :),
      State.mcycleOf_arrived hdest (hfree.trans (State.free_switched_one hl)),
      (congrArg Core.launch hsource :), (congrArg Core.mts hsource :), ?names, ?forwards⟩
    case names =>
      intro e he hea hec r w hw h31 hv hp hu
      rw [hcore]
      exact State.bindtab_switched_names hac hl hx he hea hec hc hw h31 hv hp hu
    case forwards =>
      intro e he hea hec cls hq
      have hq' : s.Unacked (e, a, cls) := hq
      obtain ⟨w, hw, hsrc, hdst, hctx, -⟩ := (State.owes_switched_one hl hx he hea hq').congr hfwd
      exact ⟨w, hw, hsrc, hdst, hctx⟩

/-- Settles O47: a stream by what has drained; a switch by the context that it sets at the destination,
which the later parts of the switch keep, by what they tell the cores of the launch, and by the entry that
stays because it owes a marker; the package's own steps by how far the boot came. -/
theorem packageSteps : Obligations.PackageSteps := ⟨says_migrationSteps, says_packageSteps⟩

end Sys2Proof.Machine
end

section
/-! SUPPORT. Paddocks, poison, corrected errors, spares and command processors (R260, R382 to R388). -/

namespace Sys2Proof.Machine

/-! ### What fences, ended launches and records leave of the dies -/

theorem State.die_modDie_ne {s : State} {d e : Nat} {f : Die → Die} (h : e ≠ d) :
    (s.modDie d f).die e = s.die e :=
  Cells.look_upd_ne _ _ _ h

theorem State.tile_modDie {s : State} {d t : Nat} {f : Die → Die} : (s.modDie d f).tile t = s.tile t := rfl

theorem State.die_modTile {s : State} {d t : Nat} {f : TileSt → TileSt} : (s.modTile t f).die d = s.die d :=
  rfl

/-- A die's record but for its nodes and groups. -/
def Die.standing (x : Die) : Die := { x with nodes := [], groups := [] }

/-- From `s` to `t` the dies keep what they hold beside their nodes and groups. -/
structure State.DiesStand (s t : State) : Prop where
  standing : ∀ d, (t.die d).standing = (s.die d).standing

namespace State.DiesStand
variable {s t u : State}

theorem refl (s : State) : s.DiesStand s := ⟨fun _ => rfl⟩

theorem same (h : s.DiesStand t) (e : u.dies = t.dies) : s.DiesStand u :=
  ⟨fun d => by rw [State.die, e]; exact h.standing d⟩

theorem ite {b : Prop} [Decidable b] (ht : s.DiesStand t) (hu : s.DiesStand u) :
    s.DiesStand (if b then t else u) := by
  split
  · exact ht
  · exact hu

theorem foldl {α : Type} {f : State → α → State} {xs : List α} (h : s.DiesStand t)
    (hf : ∀ t x, s.DiesStand t → s.DiesStand (f t x)) : s.DiesStand (xs.foldl f t) :=
  List.foldlRecOn xs f (motive := s.DiesStand) h fun t h x _ => hf t x h

theorem modDie (h : s.DiesStand t) {d : Nat} {f : Die → Die}
    (hf : ∀ x, (f x).standing = x.standing) : s.DiesStand (t.modDie d f) := by
  refine ⟨fun e => ?_⟩
  by_cases he : e = d
  · subst he
    rw [State.die_modDie, hf]
    exact h.standing e
  · rw [State.die_modDie_ne he]
    exact h.standing e

section
variable (h : s.DiesStand t) (d : Nat)
include h
theorem frozen : (t.die d).frozen = (s.die d).frozen := (congrArg Die.frozen (h.standing d) :)
theorem failed : (t.die d).failed = (s.die d).failed := (congrArg Die.failed (h.standing d) :)
theorem repairs : (t.die d).repairs = (s.die d).repairs := (congrArg Die.repairs (h.standing d) :)
end

section
variable (h : s.DiesStand t)
include h

theorem modCore {c : Nat} {f : Core → Core} : s.DiesStand (t.modCore c f) := h.same rfl
theorem modMt {c m : Nat} {f : Mt → Mt} : s.DiesStand (t.modMt c m f) := h.same rfl
theorem dropAsk {c : Nat} : s.DiesStand (t.dropAsk c) := h.same rfl

/-! #### Records and fences -/

theorem writeLoc {l : Loc} {bs : List Byte} : s.DiesStand (t.writeLoc l bs) := by
  refine h.same ((State.dropResv_dies ..).trans ?_)
  cases l <;> rfl

theorem contain {r : Containment} : s.DiesStand (t.contain r) := by
  unfold State.contain State.ringDeliver
  refine ite ?_ (h.same rfl)
  unfold State.ringWrite
  dsimp only
  split
  · exact h.writeLoc.same rfl
  · exact h.same rfl

theorem dropGroup {g : Nat} : s.DiesStand (t.dropGroup g) := ite h (h.modDie fun _ => rfl)

theorem unblock {src dst cls : Nat} : s.DiesStand (t.unblock src dst cls) :=
  h.foldl fun _ _ h => h.same rfl

theorem dropFlows {d p : Nat} : s.DiesStand (t.dropFlows d p) := by
  have hgroups (fs : List Flow) : s.DiesStand
      (fs.foldl (fun s f => f.copies.foldl (fun s x => s.dropGroup x.pkt.grp) s) t) :=
    h.foldl fun _ _ h => h.foldl fun _ _ h => h.dropGroup
  exact foldl ((hgroups _).same rfl) fun _ _ h => h.unblock

/-! #### Launches that end -/

theorem landStore {x : LateStore} : s.DiesStand (t.landStore x) := ite h.writeLoc.modCore h.writeLoc

theorem landAll {c : Nat} {p : LateStore → Bool} : s.DiesStand (t.landAll c p) :=
  ite (h.modCore.foldl fun _ _ h => h.landStore) h

theorem dropEarly {c : Nat} {p : EarlyLoad → Bool} : s.DiesStand (t.dropEarly c p) :=
  ite h.modCore h

theorem stepRegion {a : Word} : s.DiesStand (t.stepRegion a) := by
  unfold State.stepRegion
  dsimp only
  split
  · exact h.same rfl
  · exact h.same rfl
  · exact h

theorem closeRegion {a : Word} : s.DiesStand (t.closeRegion a) := by
  have hsettle : s.DiesStand (t.settleAgent a) := ite h.landAll.dropEarly h
  exact hsettle.stepRegion.same rfl

theorem withdraw {c : Nat} {key : BarKey} {phase : Nat} : s.DiesStand (t.withdraw c key phase) := by
  unfold State.withdraw
  refine ite h ?_
  split
  · exact h.same rfl
  · exact h.same rfl

theorem abandon {c m : Nat} : s.DiesStand (t.abandon c m) := by
  unfold State.abandon
  dsimp only
  split
  · exact h.withdraw.modMt
  · exact h.modMt

theorem idleMt {c m : Nat} : s.DiesStand (t.idleMt c m) := h.same rfl

theorem disband {c m : Nat} : s.DiesStand (t.disband c m) := by
  unfold State.disband
  split
  · exact h
  · exact h.foldl fun _ _ h => ite h.modCore.modMt h.modCore.idleMt

theorem toStopping {c m : Nat} : s.DiesStand (t.toStopping c m) := by
  unfold State.toStopping
  exact h.closeRegion.modCore.modMt

theorem stopMt {c m : Nat} : s.DiesStand (t.stopMt c m) := by
  unfold State.stopMt
  refine ite h (ite h.modMt ?_)
  split
  · exact (h.foldl fun _ _ h => h.abandon).disband.toStopping
  · exact h.abandon.toStopping

theorem dropQueued {c : Nat} : s.DiesStand (t.dropQueued c) := by
  unfold State.dropQueued
  exact modCore (dropAsk (h.foldl fun _ _ h => h.dropGroup))

theorem stopCore {c : Nat} : s.DiesStand (t.stopCore c) := by
  unfold State.stopCore
  exact modCore (dropQueued (h.foldl fun _ _ h => h.stopMt))

theorem endLaunch {inside : List Nat} {n : Nat} : s.DiesStand (t.endLaunch inside n) := by
  unfold State.endLaunch
  split
  · exact h
  · exact foldl (h.modDie fun _ => rfl) fun _ _ h => h.stopCore

end

end State.DiesStand

/-! ### Paddocks (R383, R384) -/

section
variable {s : State} {d p : Nat} {v : DWord}

theorem execPaddockDefine_illegal
    (hc : ((s.die d).paddock p).withRect v ≠ (s.die d).paddock p)
    (hl : s.pdkLegal d p ((s.die d).paddock p) (((s.die d).paddock p).withRect v) = false) :
    execPaddockDefine d p v s = .next s := by
  simp [execPaddockDefine, State.pdkWrite, hc.symm, hl]

theorem execPaddockDefine_legal
    (hc : ((s.die d).paddock p).withRect v ≠ (s.die d).paddock p)
    (hl : s.pdkLegal d p ((s.die d).paddock p) (((s.die d).paddock p).withRect v) = true)
    (hk : v.getLsbD 61 = false) (hu : v.getLsbD 60 = false) :
    execPaddockDefine d p v s =
      .next (s.modDie d (·.modPaddock p fun _ => ((s.die d).paddock p).withRect v)) := by
  have hne : ((s.die d).paddock p != ((s.die d).paddock p).withRect v) = true := bne_iff_ne.2 hc.symm
  simp only [execPaddockDefine, State.pdkWrite, hne, hl, hk, hu, Bool.not_true, Bool.and_false,
    Bool.false_eq_true, ↓reduceIte]

theorem State.killable_iff :
    s.killable d p = true ↔
      ((s.die d).paddock p).fen = false ∧ (p = 16 ∨ ((s.die d).paddock p).en = true) := by
  simp [State.killable, State.defined]

theorem execPaddockKill_unkillable
    (h : ((s.die d).paddock p).fen = true ∨ p ≠ 16 ∧ ((s.die d).paddock p).en = false) :
    execPaddockKill d p s = .next s := by
  have hk : ¬s.killable d p = true := by
    rw [State.killable_iff]
    rintro ⟨hf, he⟩
    rcases h with h | ⟨hp, h⟩
    · simp [h] at hf
    · simp [hp, h] at he
  simp only [execPaddockKill, State.killPaddock, hk, Bool.not_false, ↓reduceIte]

theorem execPaddockKill_kills (hf : ((s.die d).paddock p).fen = false)
    (he : p = 16 ∨ ((s.die d).paddock p).en = true) (hz : (s.die d).frozen = false) :
    execPaddockKill d p s = .next (((s.modDie d (·.modPaddock p fun x =>
      { x with fen := true, kcnt := min 255 (x.kcnt + 1), pending := s.contextsIn d p })).dropFlows
        d p).killRest d p) := by
  have hk : s.killable d p = true := State.killable_iff.2 ⟨hf, he⟩
  have hz (f : Paddock → Paddock) :
      (((s.modDie d (·.modPaddock p f)).dropFlows d p).die d).frozen = false := by
    rw [(State.DiesStand.refl _).dropFlows.frozen d, State.die_modDie]
    exact hz
  simp only [execPaddockKill, State.killPaddock, hk, hz, Bool.not_true, Bool.false_eq_true, ↓reduceIte]

theorem State.ctx_mem_contextsIn {c : Nat} (hc : c ∈ s.paddockCores d p)
    (hl : (s.core c).launch.isSome = true) : (s.core c).ctx.toNat ∈ s.contextsIn d p :=
  List.mem_dedup.2 (List.mem_map.2
    ⟨c, List.mem_filter.2 ⟨List.mem_append_left _ hc, hl⟩, rfl⟩)

theorem execPaddockUnfence_lifts (hf : ((s.die d).paddock p).fen = true)
    (hp : ((s.die d).paddock p).pending = []) (ho : ((s.die d).paddock p).owed = false) :
    execPaddockUnfence d p s =
      .next ((s.freshReceive d p).modDie d (·.modPaddock p fun x => { x with fen := false })) := by
  simp only [execPaddockUnfence, State.unfence, hf, hp, ho, List.isEmpty_nil, Bool.not_false,
    Bool.and_self, ↓reduceIte]

theorem execPaddockUnfence_pending (hp : ((s.die d).paddock p).pending ≠ []) :
    execPaddockUnfence d p s = .next s := by
  simp [execPaddockUnfence, State.unfence, hp]

end

/-! ### Errors and undervolting (R385, R388) -/

section
variable {s : State} {d q a : Nat}

theorem execUncorrectableError_poisons {e : ErrorSite} (he : ∀ d, e ≠ .schedulerSram d) :
    execUncorrectableError e s = .next
      { s with poison := if s.poison.contains e then s.poison else s.poison ++ [e] } := by
  cases e
  case schedulerSram d => exact absurd rfl (he d)
  all_goals rfl

theorem mem_poison_add (l : List ErrorSite) (e x : ErrorSite) :
    (x ∈ if l.contains e then l else l ++ [e]) ↔ x ∈ l ∨ x = e := by
  split
  next h =>
    have he : e ∈ l := by simpa using h
    exact ⟨.inl, fun hx => hx.elim id fun hx => hx ▸ he⟩
  next => simp

theorem execCorrectedError_undervolted (h : (s.uvctl d q).voff ≠ 0) :
    execCorrectedError d q a s = .next ((s.modDie d fun x => { x with
      cec := x.cec.put 0 (cecIdx q a (s.uvctl d q).voff)
        (min 65535 (x.cec.look 0 (cecIdx q a (s.uvctl d q).voff) + 1)) }).modUv d q fun u =>
          { u with lastError := s.now, recent := s.now :: u.recent }) := by
  simp only [execCorrectedError, h, decide_false, Bool.false_and, Bool.false_eq_true, ↓reduceIte]
  rfl

theorem Spare.dieOf_spareFor (d q a n : Nat) : Spare.dieOf (spareFor d q a n) = d := by
  unfold spareFor
  dsimp only
  split <;> rfl

/-- The error after PFT of a day asks for a repair of the array. -/
theorem execCorrectedError_crosses (hb : s.bootStep = 4) (h : (s.uvctl d q).voff = 0)
    (hn : ((s.die d).predict.look [] (q * 8 + a)).countP
      (fun t => decide (s.now < t + 86400000000000)) = Config.predictiveThreshold) :
    ∃ t, execCorrectedError d q a s = .next t ∧ (t.die d).repairs =
      (s.die d).repairs ++ [spareFor d q a (Config.failing s.free)] := by
  rw [List.countP_eq_length_filter] at hn
  simp only [execCorrectedError, h, State.cfgFilled, State.modUv, State.modDie_bootStep, hb,
    decide_true, Bool.and_self, ↓reduceIte, List.length_cons, hn]
  refine ⟨_, rfl, ?_⟩
  rw [(State.DiesStand.refl _).contain.repairs d]
  simp

theorem execUndervoltStepUp_raises (hb : s.bootStep = 4) (hl : (s.uvctl d q).lock = false)
    (hv : (s.uvctl d q).voff < (s.uvctl d q).vmax.toNat)
    (ht : (s.uvctl d q).lastError + 1000000000 ≤ s.now) :
    execUndervoltStepUp d q s = .next (s.modUv d q fun u =>
      { u with voff := u.voff + 1, lastError := s.now, recent := [] }) := by
  simp only [execUndervoltStepUp, State.cfgFilled, hb, hl, hv, ht, decide_true, Bool.not_false,
    Bool.and_self, ↓reduceIte]

theorem execUvctlLockClear_clears (hl : (s.uvctl d q).lock = true)
    (ht : (s.uvctl d q).backoff + 60000000000 ≤ s.now) :
    execUvctlLockClear d q s = .next (s.modUv d q fun u => { u with lock := false }) := by
  simp only [execUvctlLockClear, hl, ht, decide_true, Bool.and_self, ↓reduceIte]

end

/-! ### Spares (R387) -/

/-- What a bind has done before it looks for a spare: the paddock is killed, the repair no longer
waits. -/
def State.bindBegun (s : State) (r : Spare) : State :=
  (s.killPaddock (Spare.dieOf r) (s.paddockOf (Spare.coreOf r))).modDie (Spare.dieOf r) fun x =>
    { x with repairs := x.repairs.erase r }

/-- A spare for the resource is left. -/
def State.spareLeft (s : State) (r : Spare) : Prop :=
  Spare.usedOf r (s.die (Spare.dieOf r)).sparesUsed < Spare.available r

section
variable {s : State} {r : Spare}

section
variable (hb : s.bootStep = 4) (hz : (s.die (Spare.dieOf r)).frozen = false)
  (hf : (s.die (Spare.dieOf r)).failed = false)
include hb hz hf

theorem execSpareBind_waits (hn : s.fenced (Spare.coreOf r) = false)
    (hl : s.paddockBusy (Spare.coreOf r) = true) :
    execSpareBind r s = .next (s.modDie (Spare.dieOf r) fun x =>
      { x with repairs := if x.repairs.contains r then x.repairs else x.repairs ++ [r] }) := by
  simp only [execSpareBind, State.cfgFilled, hb, hz, hf, hn, hl, decide_true, Bool.not_true,
    Bool.not_false, Bool.or_self, Bool.and_self, Bool.false_eq_true, ↓reduceIte]

section
variable (hn : s.fenced (Spare.coreOf r) = true ∨ s.paddockBusy (Spare.coreOf r) = false)
include hn

theorem execSpareBind_begins :
    execSpareBind r s = if Spare.usedOf r ((s.bindBegun r).die (Spare.dieOf r)).sparesUsed <
        Spare.available r
      then .next (((s.bindBegun r).useSpare r).contain (Containment.plain 8))
      else .next (((s.bindBegun r).retire r).contain (Containment.plain 9)) := by
  have hw : (!s.fenced (Spare.coreOf r) && s.paddockBusy (Spare.coreOf r)) = false := by
    rcases hn with h | h <;> simp [h]
  simp only [execSpareBind, State.cfgFilled, hb, hz, hf, hw, decide_true, Bool.not_true, Bool.or_self,
    Bool.false_eq_true, ↓reduceIte]
  rfl

theorem execSpareBind_binds (hl : (s.bindBegun r).spareLeft r) :
    execSpareBind r s = .next (((s.bindBegun r).useSpare r).contain (Containment.plain 8)) :=
  (execSpareBind_begins hb hz hf hn).trans (if_pos hl)

theorem execSpareBind_retires (hl : ¬(s.bindBegun r).spareLeft r) :
    execSpareBind r s = .next (((s.bindBegun r).retire r).contain (Containment.plain 9)) :=
  (execSpareBind_begins hb hz hf hn).trans (if_neg hl)

end

end

/-- A spare in place is listed as used. -/
theorem State.mem_sparesUsed_useSpare (s : State) (r : Spare) :
    r ∈ ((s.useSpare r).die (Spare.dieOf r)).sparesUsed := by
  have hlast (l : List Spare) : r ∈ l ++ [r] := List.mem_append_right _ (List.mem_singleton_self r)
  cases r with
  | tile d t =>
    simp only [State.useSpare, Spare.dieOf, State.die_modDie, State.die_modTile]
    exact List.mem_filter.2 ⟨hlast _, rfl⟩
  | l2Way | channel | row =>
    simp only [State.useSpare, State.die_modDie]
    exact hlast _

theorem State.tile_retire_tile (s : State) (d t : Nat) :
    (s.retire (.tile d t)).tile (d * 64 + t) = { s.tile (d * 64 + t) with en := false } :=
  State.tile_modTile ..

theorem State.mem_deadWays_retire (s : State) (d c : Nat) :
    c ∈ ((s.retire (.l2Way d c)).die d).deadWays := by
  simp [State.retire]

theorem State.mem_retired_retire (s : State) (d c : Nat) :
    c ∈ ((s.retire (.channel d c)).die d).retired := by
  simp [State.retire]

theorem State.mem_deadRows_retire (s : State) (d c b : Nat) :
    (c, b) ∈ ((s.retire (.row d c b)).die d).deadRows := by
  simp [State.retire]

theorem State.pcol_useSpare_tile (s : State) (d t : Nat) :
    ((s.useSpare (.tile d t)).tile (d * 64 + t)).pcol =
      some (BitVec.ofNat 4 (Config.spareColumn d (t / 8)).val) := by
  simp only [State.useSpare, State.tile_modDie, State.tile_modTile]

end

/-! ### Command processors and sweeps (R260, R382) -/

section
variable {s : State} {d : Nat}

theorem State.failed_cpFail (hf : (s.die d).failed = false) : ((s.cpFail d).die d).failed = true := by
  unfold State.cpFail
  simp only [hf, Bool.false_eq_true, ↓reduceIte]
  have hended (t : State) (ns : List Nat) : t.DiesStand (ns.foldl (fun s n => s.endLaunch [] n) t) :=
    (State.DiesStand.refl t).foldl fun _ _ h => h.endLaunch
  rw [(hended ..).contain.failed d, State.die_modDie]

/-- The times of the mismatches that a mismatch counts with its own. -/
def State.mismatchesNow (s : State) (d : Nat) : List Nat :=
  s.now :: (s.die d).mismatches.filter fun t => decide (s.now < t + 1000000000)

theorem execLockstepMismatch_freezes (hf : (s.die d).failed = false) (hb : 2 ≤ s.bootStep) :
    execLockstepMismatch d s =
      let t := s.modDie d fun x => { x with frozen := true, mismatches := s.mismatchesNow d }
      .next (if 3 ≤ (s.mismatchesNow d).length then t.cpFail d else t) := by
  simp only [execLockstepMismatch, State.cpStarted, hf, hb, decide_true, Bool.not_true, Bool.or_self,
    Bool.false_eq_true, ↓reduceIte]
  rfl

theorem execLockstepMismatch_first (hm : (s.die d).mismatches = []) (hf : (s.die d).failed = false)
    (hb : 2 ≤ s.bootStep) : execLockstepMismatch d s =
      .next (s.modDie d fun x => { x with frozen := true, mismatches := [s.now] }) := by
  have hms : s.mismatchesNow d = [s.now] := by rw [State.mismatchesNow, hm, List.filter_nil]
  rw [execLockstepMismatch_freezes hf hb, hms]
  rfl

theorem execLockstepMismatch_third {t₁ t₂ : Nat} (hm : (s.die d).mismatches = [t₁, t₂])
    (h₁ : s.now < t₁ + 1000000000) (h₂ : s.now < t₂ + 1000000000) (hf : (s.die d).failed = false)
    (hb : 2 ≤ s.bootStep) : execLockstepMismatch d s =
      .next ((s.modDie d fun x =>
        { x with frozen := true, mismatches := [s.now, t₁, t₂] }).cpFail d) := by
  have hms : s.mismatchesNow d = [s.now, t₁, t₂] := by simp [State.mismatchesNow, hm, h₁, h₂]
  rw [execLockstepMismatch_freezes hf hb, hms]
  rfl

theorem execCpResume_resumes (hz : (s.die d).frozen = true) (hf : (s.die d).failed = false)
    (ho : ∀ p, ((s.die d).paddock p).owed = false) : execCpResume d s =
      .next ((s.modDie d fun x => { x with frozen := false, rcnt := min 255 (x.rcnt + 1) }).contain
        (Containment.plain 5)) := by
  have ho (p : Nat) : (((s.modDie d fun x =>
      { x with frozen := false, rcnt := min 255 (x.rcnt + 1) }).die d).paddock p).owed = false := by
    rw [State.die_modDie]
    exact ho p
  simp only [execCpResume, hz, hf, Bool.not_true, Bool.or_self, Bool.false_eq_true, ↓reduceIte]
  rw [List.foldl_fixed' fun p => if_neg (by rw [ho]; exact Bool.false_ne_true)]

theorem execIncarnationSweep_counts {ctx v n : Nat} (h : s.sweeps.get? (ctx * 256 + v) = some n) :
    execIncarnationSweep ctx v s = .next { s with
      sweeps := s.sweeps.upd (ctx * 256 + v) (if s.tagged ctx v = 0 then n + 1 else 0) } := by
  simp only [execIncarnationSweep, sweepIdx, h]

end

theorem says_containmentSteps : Says.ContainmentSteps := by
  intro s d p q a v pk u
  refine ⟨?illegal, ?legal, ?unkillable, ?kills, ?inside, ?lifts, ?pending, ?poison, ?counted, ?raises,
    ?unlocks, ?crosses, ?spare, ?first, ?third, ?fails, ?resumes, ?sweep⟩
  case illegal => exact fun ⟨hc, hl⟩ => execPaddockDefine_illegal hc hl
  case legal => exact execPaddockDefine_legal
  case unkillable => exact execPaddockKill_unkillable
  case kills => exact execPaddockKill_kills
  case inside => exact fun c => State.ctx_mem_contextsIn
  case lifts => exact execPaddockUnfence_lifts
  case pending => exact execPaddockUnfence_pending
  case poison =>
    exact fun e he => ⟨_, execUncorrectableError_poisons he, rfl, mem_poison_add s.poison e⟩
  case counted => exact execCorrectedError_undervolted
  case raises => exact execUndervoltStepUp_raises
  case unlocks => exact execUvctlLockClear_clears
  case crosses =>
    intro hb hv hn
    obtain ⟨t, ht, hr⟩ := execCorrectedError_crosses hb hv hn
    exact ⟨t, _, ht, hr, Spare.dieOf_spareFor ..⟩
  case spare =>
    rintro r rfl hb hz hf c k left
    have hleft : left ↔ (s.bindBegun r).spareLeft r := by cases r <;> exact Iff.rfl
    refine ⟨execSpareBind_waits hb hz hf, fun hn => ⟨fun hl => ?binds, fun hl => ?retires⟩, ?_⟩
    case binds => exact ⟨execSpareBind_binds hb hz hf hn (hleft.1 hl), State.mem_sparesUsed_useSpare ..⟩
    case retires => exact execSpareBind_retires hb hz hf hn (hl ∘ hleft.2)
    cases r with
    | tile d t => exact ⟨State.tile_retire_tile .., State.pcol_useSpare_tile ..⟩
    | l2Way d x => exact State.mem_deadWays_retire ..
    | channel d x => exact State.mem_retired_retire ..
    | row d x b => exact State.mem_deadRows_retire ..
  case first => exact execLockstepMismatch_first
  case third => exact fun t₁ t₂ => execLockstepMismatch_third
  case fails => exact State.failed_cpFail
  case resumes => exact execCpResume_resumes
  case sweep => exact fun n => execIncarnationSweep_counts

/-- Settles O45: each step by the state of the paddock, quadrant, spare or command processor that it
concerns; a fence, an ended launch and a record leave a die as it stands, its nodes and groups apart. -/
theorem containmentSteps : Obligations.ContainmentSteps := says_containmentSteps

end Sys2Proof.Machine
end

section
/-! SUPPORT. A counterexample to the end of a wake (R329, R402). -/

namespace Sys2Proof.Machine

/-- Core 0 is being woken since time 0. The array of arbiters holds that of quadrant 0 twice: the first
entry wakes core 0 and has none waiting, the second has core 0 waiting. -/
def arbiterHeldTwice : State :=
  { State.reset with
    now := 1000
    cores := [(0, { Core.init with gate := .waking 0 })]
    arbiters := [(0, ⟨[0], []⟩), (0, ⟨[], [(0, 0)]⟩)] }

/-- The wake that ends is followed by another of the same core. -/
theorem arbiterHeldTwice_result :
    found (fun t => (t.core 0).gate) (exec (.wakeComplete 0) arbiterHeldTwice) =
      some (.waking 1000) := by
  rfl

/-- Refutes O46: with its last wake done the arbiter is at rest, and writing that drops its entry from
the array of arbiters; where the array holds the arbiter twice, the second entry is then read, and the
core that waits there is the one whose wake has ended. The statement asks that the core does not wait
in the first entry, and has no hypothesis that the array of arbiters is in order. -/
theorem not_powerSteps : ¬ Obligations.PowerSteps := by
  intro h
  obtain ⟨-, -, -, -, -, -, -, -, -, -, -, -, hwake⟩ := h arbiterHeldTwice 0
  obtain ⟨t, ht, hon⟩ := hwake 0 rfl (by decide) (by decide)
  have hres := arbiterHeldTwice_result
  rw [ht] at hres
  simp [found, hon] at hres

end Sys2Proof.Machine
end
